-- ==== Sys2Proof/Word.lean ====
section
/-! DEFINITION. The word types of the part and their plainest arithmetic (R6, R12): 32-bit registers, bytes,
64-bit pairs, 48-bit program counters, and little-endian byte lists. -/

namespace Sys2Proof

/-- A 32-bit register or instruction word (R41, R180). -/
abbrev Word := BitVec 32
/-- A byte of memory, scratchpad or weight store (R301). -/
abbrev Byte := BitVec 8
/-- A 64-bit value: a register pair, an address, a count of the package cycle counter (R6). -/
abbrev DWord := BitVec 64
/-- A program counter: a 48-bit virtual address (R41, R319). -/
abbrev Pc := BitVec 48

/-- Bits `[lo + len - 1 : lo]` of a number. -/
def natBits (w lo len : Nat) : Nat := w / 2 ^ lo % 2 ^ len

/-- The little-endian bytes of a number, lowest first (R6). -/
def natToBytes : Nat → Nat → List Byte
  | 0, _ => []
  | n + 1, x => BitVec.ofNat 8 (x % 256) :: natToBytes n (x / 256)

/-- The number that little-endian bytes hold (R6). -/
def bytesToNat : List Byte → Nat
  | [] => 0
  | b :: bs => b.toNat + 256 * bytesToNat bs

/-- The value of a pair: the even register holds the low half (R6). -/
def pairOf (lo hi : Word) : DWord := hi ++ lo

/-- The low half of a pair. -/
def DWord.lo (x : DWord) : Word := x.setWidth 32
/-- The high half of a pair. -/
def DWord.hi (x : DWord) : Word := (x >>> 32).setWidth 32

/-- A number read as two's complement of the width given. -/
def toSigned (w x : Nat) : Int := if x % 2 ^ w < 2 ^ (w - 1) then (x % 2 ^ w : Nat) else (x % 2 ^ w : Nat) - (2 ^ w : Nat)

/-- An integer clamped to a range (the helper `sat` of the manual's pseudocode). -/
def clampInt (lo hi x : Int) : Int := if x < lo then lo else if hi < x then hi else x

end Sys2Proof
end

