-- ==== Sys2Proof/Syntax.lean ====
section
/-! DEFINITION. The instructions and steps of the part, one constructor for each row of spec/opcode_table.json, and the
cause codes of R373. A word's constructor holds every field of its encoding (R43 to R51, R66 to R70); a step's constructor
names who moves. The field names are the table's: n is NW, d, a, b the specifiers, i an immediate, p the address pair,
o ORD, s SC (or a slot or selector), t TY, c a code or condition. -/

namespace Sys2Proof

/-- The causes of R373 (and of R401 for `gathRange`). -/
inductive Cause where
  | illegalOp | reservedField | priv | staleLatch | leaseWrite | align | addr | pageRead | pageWrite | pageProt
  | spadRange | selfMask | syncMask | spillQuota | wsWrite | accAbsent | accRetired | accCycle | accNorsv
  | promiseMiss | budget | trap | bkpt | gathRange
  deriving DecidableEq, Repr, Inhabited

/-- The instructions and steps of the opcode table. -/
inductive Instr where
  /-- IADD (R205). -/
  | iadd (n : BitVec 1) (d : BitVec 8) (a : BitVec 8) (b : BitVec 8)
  /-- ISUB (R205). -/
  | isub (n : BitVec 1) (d : BitVec 8) (a : BitVec 8) (b : BitVec 8)
  /-- IMUL (R205). -/
  | imul (n : BitVec 1) (d : BitVec 8) (a : BitVec 8) (b : BitVec 8)
  /-- IMAD (R205). -/
  | imad (n : BitVec 1) (d : BitVec 8) (a : BitVec 8) (b : BitVec 8)
  /-- IMULH_S32 (R205). -/
  | imulhS32 (n : BitVec 1) (d : BitVec 8) (a : BitVec 8) (b : BitVec 8)
  /-- IMULH_N32 (R205). -/
  | imulhN32 (n : BitVec 1) (d : BitVec 8) (a : BitVec 8) (b : BitVec 8)
  /-- IADD_S64 (R205). -/
  | iaddS64 (d : BitVec 8) (a : BitVec 8) (b : BitVec 8)
  /-- IADD_N64 (R205). -/
  | iaddN64 (d : BitVec 8) (a : BitVec 8) (b : BitVec 8)
  /-- IDOT4_S8 (R206). -/
  | idot4S8 (n : BitVec 1) (d : BitVec 8) (a : BitVec 8) (b : BitVec 8)
  /-- IDOT4_N8 (R206). -/
  | idot4N8 (n : BitVec 1) (d : BitVec 8) (a : BitVec 8) (b : BitVec 8)
  /-- IDOT2_S16 (R206). -/
  | idot2S16 (n : BitVec 1) (d : BitVec 8) (a : BitVec 8) (b : BitVec 8)
  /-- SEL (R211). -/
  | sel (n : BitVec 1) (d : BitVec 8) (a : BitVec 8) (b : BitVec 8)
  /-- QSCL (R219). -/
  | qscl (n : BitVec 1) (d : BitVec 8) (a : BitVec 8) (b : BitVec 8)
  /-- LXCH (R224). -/
  | lxch (n : BitVec 1) (d : BitVec 8) (a : BitVec 8) (b : BitVec 8)
  /-- MOVI (R212). -/
  | movi (n : BitVec 1) (d : BitVec 8) (i : BitVec 16)
  /-- HIW (R212). -/
  | hiw (n : BitVec 1) (d : BitVec 8) (i : BitVec 16)
  /-- AND (R208). -/
  | and (n : BitVec 1) (d : BitVec 8) (a : BitVec 8) (b : BitVec 8)
  /-- OR (R208). -/
  | or (n : BitVec 1) (d : BitVec 8) (a : BitVec 8) (b : BitVec 8)
  /-- XOR (R208). -/
  | xor (n : BitVec 1) (d : BitVec 8) (a : BitVec 8) (b : BitVec 8)
  /-- ANDN (R208). -/
  | andn (n : BitVec 1) (d : BitVec 8) (a : BitVec 8) (b : BitVec 8)
  /-- SHL (R208). -/
  | shl (n : BitVec 1) (d : BitVec 8) (a : BitVec 8) (b : BitVec 8)
  /-- SHR (R208). -/
  | shr (n : BitVec 1) (d : BitVec 8) (a : BitVec 8) (b : BitVec 8)
  /-- SAR (R208). -/
  | sar (n : BitVec 1) (d : BitVec 8) (a : BitVec 8) (b : BitVec 8)
  /-- FSHL (R208). -/
  | fshl (n : BitVec 1) (d : BitVec 8) (a : BitVec 8) (b : BitVec 8)
  /-- FSHR (R208). -/
  | fshr (n : BitVec 1) (d : BitVec 8) (a : BitVec 8) (b : BitVec 8)
  /-- BFX (R209). -/
  | bfx (n : BitVec 1) (d : BitVec 8) (a : BitVec 8) (b : BitVec 8)
  /-- BFI (R209). -/
  | bfi (n : BitVec 1) (d : BitVec 8) (a : BitVec 8) (b : BitVec 8)
  /-- IMIN (R207). -/
  | imin (n : BitVec 1) (d : BitVec 8) (a : BitVec 8) (t : BitVec 1)
  /-- IMAX (R207). -/
  | imax (n : BitVec 1) (d : BitVec 8) (a : BitVec 8) (t : BitVec 1)
  /-- FMIN_F (R214). -/
  | fminF (n : BitVec 1) (d : BitVec 8) (a : BitVec 8)
  /-- FMAX_F (R214). -/
  | fmaxF (n : BitVec 1) (d : BitVec 8) (a : BitVec 8)
  /-- PMIN (R218). -/
  | pmin (n : BitVec 1) (d : BitVec 8) (a : BitVec 8) (t : BitVec 1)
  /-- PMAX (R218). -/
  | pmax (n : BitVec 1) (d : BitVec 8) (a : BitVec 8) (t : BitVec 1)
  /-- MOV (R207). -/
  | mov (n : BitVec 1) (d : BitVec 8) (a : BitVec 8)
  /-- IABS_S32 (R207). -/
  | iabsS32 (n : BitVec 1) (d : BitVec 8) (a : BitVec 8)
  /-- CLZ (R207). -/
  | clz (n : BitVec 1) (d : BitVec 8) (a : BitVec 8)
  /-- POPC (R207). -/
  | popc (n : BitVec 1) (d : BitVec 8) (a : BitVec 8)
  /-- BREV (R207). -/
  | brev (n : BitVec 1) (d : BitVec 8) (a : BitVec 8)
  /-- SATN (R207). -/
  | satn (n : BitVec 1) (d : BitVec 8) (a : BitVec 8) (t : BitVec 2)
  /-- FCLASS (R215). -/
  | fclass (n : BitVec 1) (d : BitVec 8) (a : BitVec 8) (t : BitVec 2)
  /-- FCVT (R216). -/
  | fcvt (n : BitVec 1) (d : BitVec 8) (a : BitVec 8) (c : BitVec 5)
  /-- FRCP_F (R217). -/
  | frcpF (n : BitVec 1) (d : BitVec 8) (a : BitVec 8)
  /-- FRSQ_F (R217). -/
  | frsqF (n : BitVec 1) (d : BitVec 8) (a : BitVec 8)
  /-- FSQRT_F (R217). -/
  | fsqrtF (n : BitVec 1) (d : BitVec 8) (a : BitVec 8)
  /-- FEXP2_F (R217). -/
  | fexp2F (n : BitVec 1) (d : BitVec 8) (a : BitVec 8)
  /-- FLOG2_F (R217). -/
  | flog2F (n : BitVec 1) (d : BitVec 8) (a : BitVec 8)
  /-- FSIN_F (R217). -/
  | fsinF (n : BitVec 1) (d : BitVec 8) (a : BitVec 8)
  /-- FCOS_F (R217). -/
  | fcosF (n : BitVec 1) (d : BitVec 8) (a : BitVec 8)
  /-- FTANH_F (R217). -/
  | ftanhF (n : BitVec 1) (d : BitVec 8) (a : BitVec 8)
  /-- QENC (R220). -/
  | qenc (n : BitVec 1) (d : BitVec 8) (a : BitVec 8) (s : BitVec 3)
  /-- QDEC (R221). -/
  | qdec (n : BitVec 1) (d : BitVec 8) (a : BitVec 8) (s : BitVec 3)
  /-- QLUTB (R222). -/
  | qlutb (d : BitVec 8) (a : BitVec 8) (s : BitVec 3)
  /-- QLUT (R223). -/
  | qlut (n : BitVec 1) (d : BitVec 8) (a : BitVec 8) (s : BitVec 3)
  /-- POLL (R226). -/
  | poll (n : BitVec 1) (d : BitVec 8) (a : BitVec 8) (s : BitVec 5)
  /-- REDU (R227). -/
  | redu (n : BitVec 1) (d : BitVec 8) (a : BitVec 8) (c : BitVec 4)
  /-- SCAN (R227). -/
  | scan (n : BitVec 1) (d : BitVec 8) (a : BitVec 8) (e : BitVec 1) (c : BitVec 4)
  /-- PEERS (R228). -/
  | peers (n : BitVec 1) (d : BitVec 8) (a : BitVec 8) (s : BitVec 5)
  /-- SYNC (R329). -/
  | sync (a : BitVec 8)
  /-- ICMP_EQ (R210). -/
  | icmpEq (n : BitVec 1) (d : BitVec 8) (a : BitVec 8) (b : BitVec 8)
  /-- ICMP_NE (R210). -/
  | icmpNe (n : BitVec 1) (d : BitVec 8) (a : BitVec 8) (b : BitVec 8)
  /-- ICMP_LT_S32 (R210). -/
  | icmpLtS32 (n : BitVec 1) (d : BitVec 8) (a : BitVec 8) (b : BitVec 8)
  /-- ICMP_LE_S32 (R210). -/
  | icmpLeS32 (n : BitVec 1) (d : BitVec 8) (a : BitVec 8) (b : BitVec 8)
  /-- ICMP_LT_N32 (R210). -/
  | icmpLtN32 (n : BitVec 1) (d : BitVec 8) (a : BitVec 8) (b : BitVec 8)
  /-- ICMP_LE_N32 (R210). -/
  | icmpLeN32 (n : BitVec 1) (d : BitVec 8) (a : BitVec 8) (b : BitVec 8)
  /-- FCMP_EQ_F (R210). -/
  | fcmpEqF (n : BitVec 1) (d : BitVec 8) (a : BitVec 8) (b : BitVec 8)
  /-- FCMP_LT_F (R210). -/
  | fcmpLtF (n : BitVec 1) (d : BitVec 8) (a : BitVec 8) (b : BitVec 8)
  /-- FCMP_LE_F (R210). -/
  | fcmpLeF (n : BitVec 1) (d : BitVec 8) (a : BitVec 8) (b : BitVec 8)
  /-- NOP (R336). -/
  | nop
  /-- CONV (R327). -/
  | conv
  /-- EXIT (R334). -/
  | exit
  /-- JMP (R332). -/
  | jmp (a : BitVec 8)
  /-- JMPR (R332). -/
  | jmpr (a : BitVec 8)
  /-- CALLR (R332). -/
  | callr (d : BitVec 8) (a : BitVec 8)
  /-- RET (R332). -/
  | ret (a : BitVec 8)
  /-- SLEEPU (R335). -/
  | sleepu (a : BitVec 8)
  /-- BKPT (R379). -/
  | bkpt
  /-- TRAP (R379). -/
  | trap (a : BitVec 8)
  /-- FADD_F (R213). -/
  | faddF (n : BitVec 1) (d : BitVec 8) (a : BitVec 8) (b : BitVec 8)
  /-- FADD_H (R213). -/
  | faddH (n : BitVec 1) (d : BitVec 8) (a : BitVec 8) (b : BitVec 8)
  /-- FSUB_F (R213). -/
  | fsubF (n : BitVec 1) (d : BitVec 8) (a : BitVec 8) (b : BitVec 8)
  /-- FSUB_H (R213). -/
  | fsubH (n : BitVec 1) (d : BitVec 8) (a : BitVec 8) (b : BitVec 8)
  /-- FMUL_F (R213). -/
  | fmulF (n : BitVec 1) (d : BitVec 8) (a : BitVec 8) (b : BitVec 8)
  /-- FMUL_H (R213). -/
  | fmulH (n : BitVec 1) (d : BitVec 8) (a : BitVec 8) (b : BitVec 8)
  /-- FMA_F (R213). -/
  | fmaF (n : BitVec 1) (d : BitVec 8) (a : BitVec 8) (b : BitVec 8)
  /-- FMA_H (R213). -/
  | fmaH (n : BitVec 1) (d : BitVec 8) (a : BitVec 8) (b : BitVec 8)
  /-- PADD_H2 (R218). -/
  | paddH2 (n : BitVec 1) (d : BitVec 8) (a : BitVec 8) (b : BitVec 8)
  /-- PADD_B2 (R218). -/
  | paddB2 (n : BitVec 1) (d : BitVec 8) (a : BitVec 8) (b : BitVec 8)
  /-- PMUL_H2 (R218). -/
  | pmulH2 (n : BitVec 1) (d : BitVec 8) (a : BitVec 8) (b : BitVec 8)
  /-- PMUL_B2 (R218). -/
  | pmulB2 (n : BitVec 1) (d : BitVec 8) (a : BitVec 8) (b : BitVec 8)
  /-- PFMA_H2 (R218). -/
  | pfmaH2 (n : BitVec 1) (d : BitVec 8) (a : BitVec 8) (b : BitVec 8)
  /-- PFMA_B2 (R218). -/
  | pfmaB2 (n : BitVec 1) (d : BitVec 8) (a : BitVec 8) (b : BitVec 8)
  /-- LD (R144). -/
  | ld (d : BitVec 8) (p : BitVec 6) (o : BitVec 2) (s : BitVec 3) (t : BitVec 3)
  /-- ST (R146). -/
  | st (d : BitVec 8) (p : BitVec 6) (o : BitVec 2) (s : BitVec 3) (t : BitVec 3)
  /-- STM (R148). -/
  | stm (d : BitVec 8) (p : BitVec 6) (b : BitVec 8)
  /-- ATOM (R150). -/
  | atom (r : BitVec 1) (d : BitVec 8) (p : BitVec 6) (o : BitVec 2) (s : BitVec 3) (f : BitVec 4)
  /-- LDS (R173). -/
  | lds (d : BitVec 8) (a : BitVec 8) (t : BitVec 3)
  /-- STS (R173). -/
  | sts (d : BitVec 8) (a : BitVec 8) (t : BitVec 3)
  /-- LDW (R178). -/
  | ldw (d : BitVec 8) (a : BitVec 8) (t : BitVec 3)
  /-- ATOMS (R173). -/
  | atoms (d : BitVec 8) (a : BitVec 8) (c : BitVec 4)
  /-- FENCE (R313). -/
  | fence (o : BitVec 2) (s : BitVec 3)
  /-- DRAINST (R154). -/
  | drainst
  /-- PREF_L1 (R153). -/
  | prefL1 (p : BitVec 6)
  /-- PREF_L2 (R153). -/
  | prefL2 (p : BitVec 6)
  /-- BRA (R331). -/
  | bra (c : BitVec 2) (a : BitVec 8) (o : BitVec 15)
  /-- CALL (R331). -/
  | call (a : BitVec 8) (o : BitVec 15)
  /-- UADD (R230). -/
  | uadd (n : BitVec 1) (d : BitVec 8) (a : BitVec 8) (b : BitVec 8)
  /-- USUB (R230). -/
  | usub (n : BitVec 1) (d : BitVec 8) (a : BitVec 8) (b : BitVec 8)
  /-- UMUL (R230). -/
  | umul (n : BitVec 1) (d : BitVec 8) (a : BitVec 8) (b : BitVec 8)
  /-- UMAD (R230). -/
  | umad (n : BitVec 1) (d : BitVec 8) (a : BitVec 8) (b : BitVec 8)
  /-- UAND (R230). -/
  | uand (n : BitVec 1) (d : BitVec 8) (a : BitVec 8) (b : BitVec 8)
  /-- UOR (R230). -/
  | uor (n : BitVec 1) (d : BitVec 8) (a : BitVec 8) (b : BitVec 8)
  /-- UXOR (R230). -/
  | uxor (n : BitVec 1) (d : BitVec 8) (a : BitVec 8) (b : BitVec 8)
  /-- USHL (R230). -/
  | ushl (n : BitVec 1) (d : BitVec 8) (a : BitVec 8) (b : BitVec 8)
  /-- USHR (R230). -/
  | ushr (n : BitVec 1) (d : BitVec 8) (a : BitVec 8) (b : BitVec 8)
  /-- USEL (R230). -/
  | usel (n : BitVec 1) (d : BitVec 8) (a : BitVec 8) (b : BitVec 8)
  /-- UMOV (R230). -/
  | umov (n : BitVec 1) (d : BitVec 8) (a : BitVec 8)
  /-- UMOVI (R230). -/
  | umovi (n : BitVec 1) (d : BitVec 8) (i : BitVec 16)
  /-- UHIW (R230). -/
  | uhiw (n : BitVec 1) (d : BitVec 8) (i : BitVec 16)
  /-- UBRA (R331). -/
  | ubra (c : BitVec 2) (a : BitVec 8) (o : BitVec 15)
  /-- ULDC (R231). -/
  | uldc (d : BitVec 8) (a : BitVec 8) (w : BitVec 1)
  /-- ULD (R144). -/
  | uld (d : BitVec 8) (p : BitVec 6) (o : BitVec 2) (s : BitVec 3) (t : BitVec 3)
  /-- UCMP_EQ (R230). -/
  | ucmpEq (n : BitVec 1) (d : BitVec 8) (a : BitVec 8) (b : BitVec 8)
  /-- UCMP_NE (R230). -/
  | ucmpNe (n : BitVec 1) (d : BitVec 8) (a : BitVec 8) (b : BitVec 8)
  /-- UCMP_LT_S32 (R230). -/
  | ucmpLtS32 (n : BitVec 1) (d : BitVec 8) (a : BitVec 8) (b : BitVec 8)
  /-- UCMP_LE_S32 (R230). -/
  | ucmpLeS32 (n : BitVec 1) (d : BitVec 8) (a : BitVec 8) (b : BitVec 8)
  /-- UCMP_LT_N32 (R230). -/
  | ucmpLtN32 (n : BitVec 1) (d : BitVec 8) (a : BitVec 8) (b : BitVec 8)
  /-- UCMP_LE_N32 (R230). -/
  | ucmpLeN32 (n : BitVec 1) (d : BitVec 8) (a : BitVec 8) (b : BitVec 8)
  /-- TCFG (R243). -/
  | tcfg (r : BitVec 2) (g : BitVec 2)
  /-- TMMA (R255). -/
  | tmma (d : BitVec 8) (a : BitVec 8) (f : BitVec 3) (g : BitVec 3) (z : BitVec 1) (b : BitVec 1)
  /-- TBND (R257). -/
  | tbnd (d : BitVec 8) (s : BitVec 3)
  /-- TBND_T (R257). -/
  | tbndT (d : BitVec 8) (a : BitVec 8) (s : BitVec 3)
  /-- GANG (R241). -/
  | gang (d : BitVec 8) (a : BitVec 8)
  /-- ACHAIN (R268). -/
  | achain (d : BitVec 8) (a : BitVec 8) (p : BitVec 1) (r : BitVec 2)
  /-- ARSV (R271). -/
  | arsv (a : BitVec 8)
  /-- ASEND (R272). -/
  | asend (d : BitVec 8) (a : BitVec 8)
  /-- AWAIT (R274). -/
  | await (d : BitVec 8) (a : BitVec 8) (z : BitVec 1) (s : BitVec 3)
  /-- ACLOSE (R276). -/
  | aclose (a : BitVec 8)
  /-- TWATCH (R295). -/
  | twatch (a : BitVec 8) (k : BitVec 5)
  /-- PUBT (R296). -/
  | pubt (d : BitVec 8) (a : BitVec 8) (k : BitVec 5)
  /-- SPECT (R297). -/
  | spect (d : BitVec 8) (a : BitVec 8) (k : BitVec 5)
  /-- SCHK (R298). -/
  | schk (d : BitVec 8)
  /-- SABORT (R299). -/
  | sabort
  /-- CPY (R161). -/
  | cpy (d : BitVec 8) (a : BitVec 8) (o : BitVec 2) (s : BitVec 3) (b : BitVec 1)
  /-- CPYM (R161). -/
  | cpym (d : BitVec 8) (a : BitVec 8) (o : BitVec 2) (s : BitVec 3) (b : BitVec 1)
  /-- CPYQ (R165). -/
  | cpyq (d : BitVec 8) (a : BitVec 8)
  /-- GATH (R121). -/
  | gath (d : BitVec 8) (a : BitVec 8) (y : BitVec 1) (w : BitVec 1) (g : BitVec 1) (u : BitVec 1) (r : BitVec 2)
  /-- BINIT (R167). -/
  | binit (d : BitVec 8) (a : BitVec 8)
  /-- BWAIT (R167). -/
  | bwait (d : BitVec 8) (a : BitVec 8)
  /-- PGPIN (R172). -/
  | pgpin (d : BitVec 8) (a : BitVec 8)
  /-- PGUNPIN (R172). -/
  | pgunpin (a : BitVec 8)
  /-- WSWIN (R177). -/
  | wswin (d : BitVec 8) (a : BitVec 8)
  /-- TSWEEP (R235). -/
  | tsweep (d : BitVec 8) (a : BitVec 8) (o : BitVec 5) (t : BitVec 3)
  /-- QBIND (R198). -/
  | qbind (d : BitVec 8) (a : BitVec 8) (k : BitVec 3) (q : BitVec 3)
  /-- SPAWN (R356). -/
  | spawn (d : BitVec 8) (a : BitVec 8)
  /-- YIELDJ (R358). -/
  | yieldj (a : BitVec 8)
  /-- MIGR (R368). -/
  | migr (d : BitVec 8) (a : BitVec 8)
  /-- BAR (R359). -/
  | bar (a : BitVec 8) (k : BitVec 3)
  /-- SEQLD (R364). -/
  | seqld (d : BitVec 8) (a : BitVec 8)
  /-- SEQGO (R365). -/
  | seqgo (d : BitVec 8) (a : BitVec 8)
  /-- SRD (R384). -/
  | srd (d : BitVec 8) (f : BitVec 8)
  /-- SWR (R384). -/
  | swr (a : BitVec 8) (f : BitVec 8)
  /-- TIME (R385). -/
  | time (d : BitVec 8)
  /-- RTE (R378). -/
  | rte
  /-- FREC (R377). -/
  | frec (d : BitVec 8)
  /-- SFQPOP (R383). -/
  | sfqpop (d : BitVec 8)
  /-- TERMW (R383). -/
  | termw (d : BitVec 8) (a : BitVec 8)
  /-- TRAIL (R65). -/
  | trail (v : BitVec 1) (c : BitVec 3) (e : BitVec 6) (f : BitVec 6) (g : BitVec 6) (h : BitVec 6)
  /-- LAUNCH (R340). -/
  | launch (queue : Nat)
  /-- NO_OP_COMMAND (R390). -/
  | noOpCommand (queue : Nat)
  /-- TAIL (R391). -/
  | tail (queue : Nat) (value : Word)
  /-- GRID_HANDOFF (R346). -/
  | gridHandoff (grid : Nat)
  /-- UNIT_PLACEMENT (R347). -/
  | unitPlacement (grid : Nat) (cores : List Nat)
  /-- SLICE_DISPATCH (R349). -/
  | sliceDispatch (core : Nat)
  /-- GRID_END (R314). -/
  | gridEnd (grid : Nat)
  /-- BUDGET_EXPIRY (R350). -/
  | budgetExpiry (slice : Nat)
  /-- WARP_DISPLACEMENT (R354). -/
  | warpDisplacement (core pos : Nat)
  /-- CONVERGENCE_RELEASE (R326). -/
  | convergenceRelease (core pos : Nat)
  /-- SERIAL_MODE_SWITCH (R325). -/
  | serialModeSwitch (core pos : Nat)
  /-- HANDLER_ENTRY (R374). -/
  | handlerEntry (core pos : Nat)
  /-- DEBUGGER_RESUME (R379). -/
  | debuggerResume (core pos : Nat)
  /-- SLEEPU_WAKE (R335). -/
  | sleepuWake (core pos lane : Nat)
  /-- LOAD_RETURN (R144). -/
  | loadReturn (core pos op : Nat)
  /-- SATCHEL_FILL (R184). -/
  | satchelFill (core pos op : Nat)
  /-- QUEUE_FED_LOAD_WRITE (R195). -/
  | queueFedLoadWrite (core pos op : Nat)
  /-- STORE_FAULT_RECORD (R380). -/
  | storeFaultRecord (warp : Nat)
  /-- FIRST_TOUCH_MAP (R113). -/
  | firstTouchMap (request frame : Nat)
  /-- SHOOTDOWN (R118). -/
  | shootdown (ctx : Nat) (va : DWord)
  /-- COPY_ROW (R161). -/
  | copyRow (copy : Nat)
  /-- COPY_END (R168). -/
  | copyEnd (copy : Nat)
  /-- GATHER_BAG (R124). -/
  | gatherBag (gather : Nat)
  /-- GATHER_QUEUE_PUSH (R124). -/
  | gatherQueuePush (gather : Nat)
  /-- GATHER_END (R125). -/
  | gatherEnd (gather : Nat)
  /-- TERM_STEP_FINISH (R251). -/
  | termStepFinish (core gang : Nat)
  /-- GANG_ARRAY_BIND (R241). -/
  | gangArrayBind (core : Nat)
  /-- ACHAIN_RECORD (R268). -/
  | achainRecord (warp : Nat)
  /-- ACLOSE_RECORD (R276). -/
  | acloseRecord (warp : Nat)
  /-- CHAIN_GRANT (R269). -/
  | chainGrant (ctx chain : Nat)
  /-- ASEND_ANSWER (R279). -/
  | asendAnswer (tile : Nat)
  /-- ACC_ARRIVAL (R265). -/
  | accArrival (tile : Nat)
  /-- AWAIT_ADD (R274). -/
  | awaitAdd (core pos op : Nat)
  /-- SEQUENCER_STEP (R366). -/
  | sequencerStep (ctx core : Nat)
  /-- WS_REFRESH_WINDOW (R176). -/
  | wsRefreshWindow (die bank : Nat)
  /-- INJECTION_CLAIM (R139). -/
  | injectionClaim (die loop stop : Nat)
  /-- MIGR_SHIP (R369). -/
  | migrShip (core pos target : Nat)
  /-- MIGR_TIMEOUT (R368). -/
  | migrTimeout (core pos : Nat)
  /-- PREEMPTION_REQUEST (R386). -/
  | preemptionRequest (ctx : Nat) (cores : List Nat)
  /-- CONTEXT_RESUME (R387). -/
  | contextResume (ctx : Nat) (cores : List Nat)
  /-- CORE_RESET (R388). -/
  | coreReset (die : Nat)
  /-- UNCORE_RESET (R388). -/
  | uncoreReset (die : Nat)
  /-- PACKAGE_RESET (R388). -/
  | packageReset
  /-- BOOT (R398). -/
  | boot
  /-- MODE_CHANGE (R402). -/
  | modeChange (mode : Nat)
  /-- LINK_ERROR (R396). -/
  | linkError (warp op : Nat)
  /-- EVENT_RECORD (R400). -/
  | eventRecord (arbiter event : Nat)
  /-- STORE_PERFORMED (R146). -/
  | storePerformed (warp : Nat)
  /-- ECC_ERROR (R108). -/
  | eccError (addr : Nat) (uncorrectable : Bool)
  /-- QUEUE_RESTART (R390). -/
  | queueRestart (queue : Nat)
  /-- EVENT_RING_SPACE (R400). -/
  | eventRingSpace (arbiter count : Nat)
  /-- HOST_ACCESS (R393). -/
  | hostAccess (function : Nat) (addr : Nat) (store : Bool) (data : List Byte)
  /-- POD_ACCESS (R395). -/
  | podAccess (addr : Nat) (kind : Nat) (data : List Byte)
  deriving DecidableEq, Repr, Inhabited

end Sys2Proof
end

