-- ==== Sys2Proof/Machine/StaticCheck.lean ====
section
/-! DEFINITION. The checks of R71 and R72 steps 1 to 4 that depend on the fields of one instruction word alone: unlisted codes
(step 1), reserved fields (step 2), specifier classes and register blocks (step 3), and which words are privileged (step 4). -/

namespace Sys2Proof.Machine

/-- A specifier that names a `v` register (R55). -/
def isV (s : BitVec 8) : Bool := s.toNat < 0x80
/-- A specifier that reads a latch `b0` to `b2` (R55). -/
def isLatch (s : BitVec 8) : Bool := 0x80 ≤ s.toNat && s.toNat ≤ 0x82
/-- The specifier `zero` (R55). -/
def isZero (s : BitVec 8) : Bool := s.toNat == 0x83
/-- A queue register `q0` to `q7` (R55). -/
def isQueue (s : BitVec 8) : Bool := 0x88 ≤ s.toNat && s.toNat ≤ 0x8F
/-- A mailbox `m0` to `m15` (R55). -/
def isMailbox (s : BitVec 8) : Bool := 0x90 ≤ s.toNat && s.toNat ≤ 0x9F
/-- A small immediate (R56). -/
def isImm (s : BitVec 8) : Bool := 0xC0 ≤ s.toNat

/-- The classes legal as a 32-bit source (R55). -/
def srcOk (s : BitVec 8) : Bool :=
  isV s || isLatch s || (0x83 ≤ s.toNat && s.toNat ≤ 0x85) || isQueue s || isMailbox s || isImm s
/-- The classes legal as a 32-bit destination (R55). -/
def dstOk (s : BitVec 8) : Bool := isV s || isZero s || isQueue s || isMailbox s
/-- A `v` register that starts a pair (R57). -/
def vPair (s : BitVec 8) : Bool := isV s && s.toNat % 2 == 0
/-- A `v` register that starts a quadruple (R57). -/
def vQuad (s : BitVec 8) : Bool := isV s && s.toNat % 4 == 0
/-- A `v` register that starts a 16-register tile (R57). -/
def vTile (s : BitVec 8) : Bool := s.toNat ≤ 112 && s.toNat % 2 == 0
/-- What a pair position accepts as a source (R57). -/
def pairSrcOk (s : BitVec 8) : Bool := vPair s || isZero s || isImm s
/-- A `v` register or `zero`. -/
def vOrZero (s : BitVec 8) : Bool := isV s || isZero s
/-- A block of registers of the width TY in a load's destination (R54, R143). -/
def loadDstOk (t : BitVec 3) (d : BitVec 8) : Bool :=
  if t.toNat ≤ 4 then vOrZero d else if t.toNat = 5 then vPair d else vQuad d
/-- The registers an atomic reads from D on, and those it writes. -/
def atomReads (code : Nat) : Nat := if code = 0x1 ∨ code = 0xA ∨ code = 0xB then 2 else if code = 0xC then 4 else 1
def atomWrites (code : Nat) : Nat := if code = 0x1 ∨ code = 0xA ∨ code = 0xC then 2 else 1
/-- Registers of a TY. -/
def tyRegs (t : Nat) : Nat := if t ≤ 4 then 1 else if t = 5 then 2 else 4
/-- A store's data (R54, R143): a `v` block of the width, `zero` or a small immediate. -/
def storeSrcOk (t : BitVec 3) (d : BitVec 8) : Bool :=
  isZero d || isImm d || (if t.toNat ≤ 4 then isV d else if t.toNat = 5 then vPair d else vQuad d)
/-- The register block an atomic code requires of D (R68, R143). -/
def atomDstOk (c : BitVec 4) (d : BitVec 8) : Bool :=
  if c.toNat = 1 ∨ c.toNat = 0xA ∨ c.toNat = 0xB then vPair d else if c.toNat = 0xC then vQuad d else isV d

/-- The system registers R384 lists below 0x40. -/
def sysListed (f : BitVec 8) : Bool :=
  let k := f.toNat
  k ≤ 4 || (8 ≤ k && k ≤ 0x14) || (0x18 ≤ k && k ≤ 0x20)

/-- R72 step 1, for the codes that stand in fields: an unlisted TY, ORD, condition, selector, conversion, atomic code,
system register number, role, sweep operation or range count (R71). -/
def step1Fails : Instr → Bool
  | .fclass _ _ _ t => t.toNat == 3
  | .fcvt _ _ _ c => 10 ≤ c.toNat
  | .poll _ _ _ s => 5 ≤ s.toNat
  | .redu _ _ _ c => 11 ≤ c.toNat
  | .scan _ _ _ _ c => 11 ≤ c.toNat
  | .peers _ _ _ s => 3 ≤ s.toNat
  | .ld _ _ o _ t => t.toNat == 7 || 2 ≤ o.toNat
  | .uld _ _ o _ t => t.toNat == 7 || 2 ≤ o.toNat
  | .st _ _ o _ t => t.toNat == 7 || o.toNat % 2 == 1
  | .atom _ _ _ _ _ f => f.toNat == 0xF
  | .lds _ _ t => t.toNat == 7
  | .sts _ _ t => t.toNat == 7
  | .ldw _ _ t => t.toNat == 7
  | .atoms _ _ c => c.toNat == 0xF
  | .fence o _ => o.toNat == 0
  | .bra c _ _ => c.toNat == 3
  | .ubra c _ _ => c.toNat == 3
  | .achain _ _ _ r => r.toNat == 0
  | .tsweep _ _ o t =>
    -- R234
    t.toNat == 7 || 10 ≤ o.toNat || (o.toNat == 6 && (t.toNat == 4 || t.toNat == 6)) || (7 ≤ o.toNat && t.toNat != 0)
  | .qbind _ _ k _ => 6 ≤ k.toNat
  | .srd _ f => f.toNat < 0x40 && !sysListed f
  | .swr _ f => f.toNat < 0x40 && !sysListed f
  | .trail _ c _ _ _ _ => 5 ≤ c.toNat
  | _ => false

/-- R72 step 2, for the fields of a word that is in a row: SC without ORD (R53), A with CC = 0 (R64), bit 24 of a `MOV` with
a queue source (R52), the unused A of `TBND` and `QBIND` (R257, R197), `.pg` with `.src` (R266), a range at or above CNT (R65). -/
def step2Fails : Instr → Bool
  | .mov n _ a => n.toNat == 1 && isQueue a
  | .ld _ _ o s _ => o.toNat == 0 && s.toNat != 0
  | .uld _ _ o s _ => o.toNat == 0 && s.toNat != 0
  | .st _ _ o s _ => o.toNat == 0 && s.toNat != 0
  | .atom _ _ _ o s _ => o.toNat == 0 && s.toNat != 0
  | .cpy _ _ o s _ => o.toNat == 0 && s.toNat != 0
  | .cpym _ _ o s _ => o.toNat == 0 && s.toNat != 0
  | .bra c a _ => c.toNat == 0 && !isZero a
  | .ubra c a _ => c.toNat == 0 && !isZero a
  | .qbind _ a k _ => k.toNat ≤ 2 && !isZero a
  | .achain _ _ p r => p.toNat == 1 && r.toNat == 1
  | .trail _ c e f g h =>
    (c.toNat < 4 && e.toNat != 0) || (c.toNat < 3 && f.toNat != 0) || (c.toNat < 2 && g.toNat != 0) || (c.toNat < 1 && h.toNat != 0)
  | _ => false

/-- R72 step 3, the specifier classes and register blocks (R55, R57, R58 and each instruction's entry). DESIGN CHOICE (log 95): the records of
`TSWEEP`, which R232 calls four `v` registers, take no `zero` and no small immediate, though R57 lets a quadruple source be one. -/
def step3Ok : Instr → Bool
  -- D, A, B; D written only
  | .iadd _ d a b | .isub _ d a b | .imul _ d a b | .imulhS32 _ d a b | .imulhN32 _ d a b
  | .and _ d a b | .or _ d a b | .xor _ d a b | .andn _ d a b | .shl _ d a b | .shr _ d a b | .sar _ d a b | .bfx _ d a b
  | .icmpEq _ d a b | .icmpNe _ d a b | .icmpLtS32 _ d a b | .icmpLeS32 _ d a b | .icmpLtN32 _ d a b | .icmpLeN32 _ d a b
  | .fcmpEqF _ d a b | .fcmpLtF _ d a b | .fcmpLeF _ d a b
  | .faddF _ d a b | .faddH _ d a b | .fsubF _ d a b | .fsubH _ d a b | .fmulF _ d a b | .fmulH _ d a b
  | .paddH2 _ d a b | .paddB2 _ d a b | .pmulH2 _ d a b | .pmulB2 _ d a b
  | .uadd _ d a b | .usub _ d a b | .umul _ d a b | .uand _ d a b | .uor _ d a b | .uxor _ d a b | .ushl _ d a b | .ushr _ d a b
  | .ucmpEq _ d a b | .ucmpNe _ d a b | .ucmpLtS32 _ d a b | .ucmpLeS32 _ d a b | .ucmpLtN32 _ d a b | .ucmpLeN32 _ d a b =>
    dstOk d && srcOk a && srcOk b
  -- D is the third source (R58, R66, R69)
  | .imad _ d a b | .idot4S8 _ d a b | .idot4N8 _ d a b | .idot2S16 _ d a b | .sel _ d a b | .lxch _ d a b
  | .fshl _ d a b | .fshr _ d a b | .bfi _ d a b | .fmaF _ d a b | .fmaH _ d a b | .pfmaH2 _ d a b | .pfmaB2 _ d a b
  | .umad _ d a b | .usel _ d a b => isV d && srcOk a && srcOk b
  | .iaddS64 d a b | .iaddN64 d a b => vPair d && pairSrcOk a && srcOk b
  | .qscl _ d a b => dstOk d && pairSrcOk a && pairSrcOk b
  | .movi _ d _ | .umovi _ d _ => dstOk d
  | .hiw _ d _ | .uhiw _ d _ => isV d
  | .imin _ d a _ | .imax _ d a _ | .pmin _ d a _ | .pmax _ d a _ | .fminF _ d a | .fmaxF _ d a => isV d && srcOk a
  | .mov _ d a | .iabsS32 _ d a | .clz _ d a | .popc _ d a | .brev _ d a | .satn _ d a _ | .fclass _ d a _ | .fcvt _ d a _
  | .frcpF _ d a | .frsqF _ d a | .fsqrtF _ d a | .fexp2F _ d a | .flog2F _ d a | .fsinF _ d a | .fcosF _ d a | .ftanhF _ d a
  | .qenc _ d a _ | .umov _ d a => dstOk d && srcOk a
  | .qdec _ d a _ | .qlut _ d a _ => dstOk d && pairSrcOk a
  | .qlutb d a _ => vTile d && srcOk a
  | .poll _ d a _ | .redu _ d a _ | .scan _ d a _ _ | .peers _ d a _ => isV d && srcOk a
  | .sync a | .jmpr a | .trap a | .bar a _ | .swr a _ => srcOk a
  | .jmp a | .ret a | .sleepu a => pairSrcOk a
  | .callr d a => vPair d && pairSrcOk a
  | .ld d _ _ _ t | .uld d _ _ _ t => loadDstOk t d
  | .st d _ _ _ t => storeSrcOk t d
  | .stm d _ b => (isV d || isZero d || isImm d) && srcOk b
  | .atom _ d _ _ _ f => atomDstOk f d
  | .lds d a t | .ldw d a t => loadDstOk t d && srcOk a
  | .sts d a t => storeSrcOk t d && srcOk a
  | .atoms d a c => atomDstOk c d && srcOk a
  | .bra _ a _ | .ubra _ a _ => srcOk a
  | .call a _ => vPair a
  | .uldc d a w => (if w.toNat = 1 then vPair d else isV d) && srcOk a
  | .tmma d a _ _ _ _ => vTile d && pairSrcOk a
  | .tbnd d _ => isV d
  | .tbndT d a _ => isV d && srcOk a
  | .gang d a => vOrZero d && srcOk a
  | .achain d a p _ => (if p.toNat = 1 then isV d else isZero d) && pairSrcOk a
  | .arsv a | .aclose a | .pgunpin a => srcOk a
  | .asend d a => vTile d && srcOk a
  | .await d a _ _ => vTile d && srcOk a
  | .twatch a _ => vPair a || isZero a
  | .pubt d a _ => vOrZero d && srcOk a
  | .spect d a _ => vOrZero d && vPair a
  | .schk d => vOrZero d
  | .cpy d a _ _ _ | .cpym d a _ _ _ => vPair d && vPair a
  | .cpyq d a => vPair d && pairSrcOk a
  | .gath d a _ _ _ _ _ => (isZero d || isQueue d) && pairSrcOk a
  | .binit d a => isV d && srcOk a
  | .bwait d a => vOrZero d && srcOk a
  | .pgpin d a => dstOk d && srcOk a
  | .wswin d a => vPair d && srcOk a
  | .tsweep d a _ _ => vQuad d && vQuad a
  | .qbind d a _ _ => vOrZero d && srcOk a
  | .spawn d a => vOrZero d && vPair a
  | .yieldj a => vPair a || isZero a
  | .migr d a => isV d && pairSrcOk a
  | .seqld d a => dstOk d && pairSrcOk a
  | .seqgo d a => dstOk d && srcOk a
  | .srd d _ => isV d
  | .time d => vPair d
  | .frec d | .sfqpop d => vQuad d
  | .termw d a => vOrZero d && srcOk a
  | _ => true

/-- R72 steps 1 to 3 on the fields of a word that is in a row: the first check that fails. -/
def staticFault (i : Instr) : Option Cause :=
  if step1Fails i then some .illegalOp
  else if step2Fails i then some .reservedField
  else if !step3Ok i then some .illegalOp
  else none

/-- The words that raise `PRIV` in a context that is not privileged (R72 step 4): a boundary-mode copy (R160) and the system
registers from 0x40 up (R384). -/
def needsPrivilege : Instr → Bool
  | .cpy _ _ _ _ b | .cpym _ _ _ _ b => b.toNat == 1
  | .srd _ f | .swr _ f => 0x40 ≤ f.toNat
  | _ => false

/-- The specifier fields of a word, in the order in which a queue named more than once pops: A, then B, then D (R55). -/
def specifiers : Instr → List (BitVec 8)
  | .iadd _ d a b | .isub _ d a b | .imul _ d a b | .imad _ d a b | .imulhS32 _ d a b | .imulhN32 _ d a b
  | .iaddS64 d a b | .iaddN64 d a b | .idot4S8 _ d a b | .idot4N8 _ d a b | .idot2S16 _ d a b | .sel _ d a b | .qscl _ d a b
  | .lxch _ d a b | .and _ d a b | .or _ d a b | .xor _ d a b | .andn _ d a b | .shl _ d a b | .shr _ d a b | .sar _ d a b
  | .fshl _ d a b | .fshr _ d a b | .bfx _ d a b | .bfi _ d a b
  | .icmpEq _ d a b | .icmpNe _ d a b | .icmpLtS32 _ d a b | .icmpLeS32 _ d a b | .icmpLtN32 _ d a b | .icmpLeN32 _ d a b
  | .fcmpEqF _ d a b | .fcmpLtF _ d a b | .fcmpLeF _ d a b
  | .faddF _ d a b | .faddH _ d a b | .fsubF _ d a b | .fsubH _ d a b | .fmulF _ d a b | .fmulH _ d a b | .fmaF _ d a b | .fmaH _ d a b
  | .paddH2 _ d a b | .paddB2 _ d a b | .pmulH2 _ d a b | .pmulB2 _ d a b | .pfmaH2 _ d a b | .pfmaB2 _ d a b
  | .uadd _ d a b | .usub _ d a b | .umul _ d a b | .umad _ d a b | .uand _ d a b | .uor _ d a b | .uxor _ d a b | .ushl _ d a b
  | .ushr _ d a b | .usel _ d a b
  | .ucmpEq _ d a b | .ucmpNe _ d a b | .ucmpLtS32 _ d a b | .ucmpLeS32 _ d a b | .ucmpLtN32 _ d a b | .ucmpLeN32 _ d a b =>
    [a, b, d]
  | .movi _ d _ | .umovi _ d _ | .hiw _ d _ | .uhiw _ d _ => [d]
  | .imin _ d a _ | .imax _ d a _ | .pmin _ d a _ | .pmax _ d a _ | .fminF _ d a | .fmaxF _ d a
  | .mov _ d a | .iabsS32 _ d a | .clz _ d a | .popc _ d a | .brev _ d a | .satn _ d a _ | .fclass _ d a _ | .fcvt _ d a _
  | .frcpF _ d a | .frsqF _ d a | .fsqrtF _ d a | .fexp2F _ d a | .flog2F _ d a | .fsinF _ d a | .fcosF _ d a | .ftanhF _ d a
  | .qenc _ d a _ | .umov _ d a | .qdec _ d a _ | .qlut _ d a _ | .qlutb d a _
  | .poll _ d a _ | .redu _ d a _ | .scan _ d a _ _ | .peers _ d a _ | .callr d a
  | .lds d a _ | .ldw d a _ | .sts d a _ | .atoms d a _ | .uldc d a _ | .tmma d a _ _ _ _ | .tbndT d a _ | .gang d a
  | .achain d a _ _ | .asend d a | .await d a _ _ | .pubt d a _ | .spect d a _
  | .cpy d a _ _ _ | .cpym d a _ _ _ | .cpyq d a | .gath d a _ _ _ _ _ | .binit d a | .bwait d a | .pgpin d a | .wswin d a
  | .tsweep d a _ _ | .qbind d a _ _ | .spawn d a | .migr d a | .seqld d a | .seqgo d a | .termw d a => [a, d]
  | .sync a | .jmpr a | .trap a | .bar a _ | .swr a _ | .jmp a | .ret a | .sleepu a | .bra _ a _ | .ubra _ a _ | .call a _
  | .arsv a | .aclose a | .pgunpin a | .twatch a _ | .yieldj a => [a]
  | .ld d _ _ _ _ | .uld d _ _ _ _ | .st d _ _ _ _ | .atom _ d _ _ _ _ | .tbnd d _ | .schk d | .srd d _ | .time d | .frec d
  | .sfqpop d => [d]
  | .stm d _ b => [b, d]
  | _ => []

/-- The run-ending instructions (R63). -/
def runEnding : Instr → Bool
  | .bra .. | .call .. | .ubra .. | .jmp .. | .jmpr .. | .callr .. | .ret .. | .exit | .sleepu .. | .rte | .yieldj .. | .migr .. => true
  | _ => false

/-- A step without an encoding: an agent's move, not a word of a run. -/
def isEvent : Instr → Bool
  | .launch .. | .noOpCommand .. | .tail .. | .gridHandoff .. | .unitPlacement .. | .sliceDispatch .. | .gridEnd .. | .budgetExpiry ..
  | .warpDisplacement .. | .convergenceRelease .. | .serialModeSwitch .. | .handlerEntry .. | .debuggerResume .. | .sleepuWake ..
  | .loadReturn .. | .satchelFill .. | .queueFedLoadWrite .. | .storeFaultRecord .. | .firstTouchMap .. | .shootdown .. | .copyRow ..
  | .copyEnd .. | .gatherBag .. | .gatherQueuePush .. | .gatherEnd .. | .termStepFinish .. | .gangArrayBind .. | .achainRecord ..
  | .acloseRecord .. | .chainGrant .. | .asendAnswer .. | .accArrival .. | .awaitAdd .. | .sequencerStep .. | .wsRefreshWindow ..
  | .injectionClaim .. | .migrShip .. | .migrTimeout .. | .preemptionRequest .. | .contextResume .. | .coreReset .. | .uncoreReset ..
  | .packageReset | .boot | .modeChange .. | .linkError .. | .eventRecord .. | .storePerformed .. | .eccError .. | .queueRestart ..
  | .eventRingSpace .. | .hostAccess .. | .podAccess .. => true
  | _ => false

end Sys2Proof.Machine
end

