-- ==== Sys2Proof/Decode.lean ====
section
/-! DEFINITION. The decoder of the 32-bit instruction word and its encoder (R41 to R51, R66 to R71). A word in no row of the
opcode map is refused with the cause that R72 gives it. Both are written from the rows of spec/opcode_table.json: the fixed
bits and the places of the fields. -/

namespace Sys2Proof

/-- Field `[lo + len - 1 : lo]` of a word. -/
def fld (w lo len : Nat) : BitVec len := BitVec.ofNat len (w / 2 ^ lo)

namespace Decode

/-- The members of the group cell with bits [31:25] = 0x1B (R67, R70). -/
def cell1B (w : Nat) : Option Instr :=
  match natBits w 5 3 with
  | 0 => .some (.imin (fld w 24 1) (fld w 16 8) (fld w 8 8) (fld w 0 1))
  | 1 => .some (.imax (fld w 24 1) (fld w 16 8) (fld w 8 8) (fld w 0 1))
  | 2 => .some (.fminF (fld w 24 1) (fld w 16 8) (fld w 8 8))
  | 3 => .some (.fmaxF (fld w 24 1) (fld w 16 8) (fld w 8 8))
  | 4 => .some (.pmin (fld w 24 1) (fld w 16 8) (fld w 8 8) (fld w 0 1))
  | 5 => .some (.pmax (fld w 24 1) (fld w 16 8) (fld w 8 8) (fld w 0 1))
  | _ => none

/-- The members of the group cell with bits [31:25] = 0x1C (R67, R70). -/
def cell1C (w : Nat) : Option Instr :=
  match natBits w 5 3 with
  | 0 => .some (.mov (fld w 24 1) (fld w 16 8) (fld w 8 8))
  | 1 => .some (.iabsS32 (fld w 24 1) (fld w 16 8) (fld w 8 8))
  | 2 => .some (.clz (fld w 24 1) (fld w 16 8) (fld w 8 8))
  | 3 => .some (.popc (fld w 24 1) (fld w 16 8) (fld w 8 8))
  | 4 => .some (.brev (fld w 24 1) (fld w 16 8) (fld w 8 8))
  | 5 => .some (.satn (fld w 24 1) (fld w 16 8) (fld w 8 8) (fld w 0 2))
  | 6 => .some (.fclass (fld w 24 1) (fld w 16 8) (fld w 8 8) (fld w 0 2))
  | 7 => .some (.fcvt (fld w 24 1) (fld w 16 8) (fld w 8 8) (fld w 0 5))
  | _ => none

/-- The members of the group cell with bits [31:25] = 0x1D (R67, R70). -/
def cell1D (w : Nat) : Option Instr :=
  match natBits w 5 3 with
  | 0 => .some (.frcpF (fld w 24 1) (fld w 16 8) (fld w 8 8))
  | 1 => .some (.frsqF (fld w 24 1) (fld w 16 8) (fld w 8 8))
  | 2 => .some (.fsqrtF (fld w 24 1) (fld w 16 8) (fld w 8 8))
  | 3 => .some (.fexp2F (fld w 24 1) (fld w 16 8) (fld w 8 8))
  | 4 => .some (.flog2F (fld w 24 1) (fld w 16 8) (fld w 8 8))
  | 5 => .some (.fsinF (fld w 24 1) (fld w 16 8) (fld w 8 8))
  | 6 => .some (.fcosF (fld w 24 1) (fld w 16 8) (fld w 8 8))
  | 7 => .some (.ftanhF (fld w 24 1) (fld w 16 8) (fld w 8 8))
  | _ => none

/-- The members of the group cell with bits [31:25] = 0x1E (R67, R70). -/
def cell1E (w : Nat) : Option Instr :=
  match natBits w 5 3 with
  | 0 => .some (.qenc (fld w 24 1) (fld w 16 8) (fld w 8 8) (fld w 0 3))
  | 1 => .some (.qdec (fld w 24 1) (fld w 16 8) (fld w 8 8) (fld w 0 3))
  | 2 => .some (.qlutb (fld w 16 8) (fld w 8 8) (fld w 0 3))
  | 3 => .some (.qlut (fld w 24 1) (fld w 16 8) (fld w 8 8) (fld w 0 3))
  | _ => none

/-- The members of the group cell with bits [31:25] = 0x1F (R67, R70). -/
def cell1F (w : Nat) : Option Instr :=
  match natBits w 5 3 with
  | 0 => .some (.poll (fld w 24 1) (fld w 16 8) (fld w 8 8) (fld w 0 5))
  | 1 => .some (.redu (fld w 24 1) (fld w 16 8) (fld w 8 8) (fld w 0 4))
  | 2 => .some (.scan (fld w 24 1) (fld w 16 8) (fld w 8 8) (fld w 4 1) (fld w 0 4))
  | 3 => .some (.peers (fld w 24 1) (fld w 16 8) (fld w 8 8) (fld w 0 5))
  | 4 => if natBits w 0 5 = 0 then .some (.sync (fld w 8 8)) else none
  | _ => none

/-- The members of the group cell with bits [31:25] = 0x29 (R67, R70). -/
def cell29 (w : Nat) : Option Instr :=
  match natBits w 0 8 with
  | 0 => .some .nop
  | 1 => .some .conv
  | 2 => .some .exit
  | 3 => .some (.jmp (fld w 8 8))
  | 4 => .some (.jmpr (fld w 8 8))
  | 5 => .some (.callr (fld w 16 8) (fld w 8 8))
  | 6 => .some (.ret (fld w 8 8))
  | 7 => .some (.sleepu (fld w 8 8))
  | 8 => .some .bkpt
  | 9 => .some (.trap (fld w 8 8))
  | _ => none

/-- The members of the group cell with bits [31:25] = 0x3C (R67, R70). -/
def cell3C (w : Nat) : Option Instr :=
  match natBits w 5 3 with
  | 0 => .some (.lds (fld w 16 8) (fld w 8 8) (fld w 0 3))
  | 1 => .some (.sts (fld w 16 8) (fld w 8 8) (fld w 0 3))
  | 2 => .some (.ldw (fld w 16 8) (fld w 8 8) (fld w 0 3))
  | 3 => .some (.atoms (fld w 16 8) (fld w 8 8) (fld w 0 4))
  | _ => none

/-- The members of the group cell with bits [31:25] = 0x3D (R67, R70). -/
def cell3D (w : Nat) : Option Instr :=
  match natBits w 16 8 with
  | 0 => .some (.fence (fld w 8 2) (fld w 5 3))
  | 1 => .some .drainst
  | 2 => .some (.prefL1 (fld w 10 6))
  | 3 => .some (.prefL2 (fld w 10 6))
  | _ => none

/-- The members of the group cell with bits [31:25] = 0x58 (R67, R70). -/
def cell58 (w : Nat) : Option Instr :=
  match natBits w 7 1 with
  | 0 => .some (.tbnd (fld w 16 8) (fld w 0 3))
  | _ => .some (.tbndT (fld w 16 8) (fld w 8 8) (fld w 0 3))

/-- The members of the group cell with bits [31:25] = 0x5F (R67, R70). -/
def cell5F (w : Nat) : Option Instr :=
  match natBits w 5 3 with
  | 0 => .some (.twatch (fld w 8 8) (fld w 0 5))
  | 1 => .some (.pubt (fld w 16 8) (fld w 8 8) (fld w 0 5))
  | 2 => .some (.spect (fld w 16 8) (fld w 8 8) (fld w 0 5))
  | 3 => .some (.schk (fld w 16 8))
  | 4 => .some .sabort
  | _ => none

/-- The members of the group cell with bits [31:25] = 0x66 (R67, R70). -/
def cell66 (w : Nat) : Option Instr :=
  match natBits w 5 3 with
  | 0 => .some (.pgpin (fld w 16 8) (fld w 8 8))
  | 1 => .some (.pgunpin (fld w 8 8))
  | _ => none

/-- The cells with bits [31:25] from 0x00 to 0x1F (R66, R69). -/
def laneLow (w c : Nat) : Option Instr :=
  match c with
  | 0 => .some (.iadd (fld w 24 1) (fld w 16 8) (fld w 8 8) (fld w 0 8))
  | 1 => .some (.isub (fld w 24 1) (fld w 16 8) (fld w 8 8) (fld w 0 8))
  | 2 => .some (.imul (fld w 24 1) (fld w 16 8) (fld w 8 8) (fld w 0 8))
  | 3 => .some (.imad (fld w 24 1) (fld w 16 8) (fld w 8 8) (fld w 0 8))
  | 4 => .some (.imulhS32 (fld w 24 1) (fld w 16 8) (fld w 8 8) (fld w 0 8))
  | 5 => .some (.imulhN32 (fld w 24 1) (fld w 16 8) (fld w 8 8) (fld w 0 8))
  | 6 => .some (.iaddS64 (fld w 16 8) (fld w 8 8) (fld w 0 8))
  | 7 => .some (.iaddN64 (fld w 16 8) (fld w 8 8) (fld w 0 8))
  | 8 => .some (.idot4S8 (fld w 24 1) (fld w 16 8) (fld w 8 8) (fld w 0 8))
  | 9 => .some (.idot4N8 (fld w 24 1) (fld w 16 8) (fld w 8 8) (fld w 0 8))
  | 10 => .some (.idot2S16 (fld w 24 1) (fld w 16 8) (fld w 8 8) (fld w 0 8))
  | 11 => .some (.sel (fld w 24 1) (fld w 16 8) (fld w 8 8) (fld w 0 8))
  | 12 => .some (.qscl (fld w 24 1) (fld w 16 8) (fld w 8 8) (fld w 0 8))
  | 13 => .some (.lxch (fld w 24 1) (fld w 16 8) (fld w 8 8) (fld w 0 8))
  | 14 => .some (.movi (fld w 24 1) (fld w 16 8) (fld w 0 16))
  | 15 => .some (.hiw (fld w 24 1) (fld w 16 8) (fld w 0 16))
  | 16 => .some (.and (fld w 24 1) (fld w 16 8) (fld w 8 8) (fld w 0 8))
  | 17 => .some (.or (fld w 24 1) (fld w 16 8) (fld w 8 8) (fld w 0 8))
  | 18 => .some (.xor (fld w 24 1) (fld w 16 8) (fld w 8 8) (fld w 0 8))
  | 19 => .some (.andn (fld w 24 1) (fld w 16 8) (fld w 8 8) (fld w 0 8))
  | 20 => .some (.shl (fld w 24 1) (fld w 16 8) (fld w 8 8) (fld w 0 8))
  | 21 => .some (.shr (fld w 24 1) (fld w 16 8) (fld w 8 8) (fld w 0 8))
  | 22 => .some (.sar (fld w 24 1) (fld w 16 8) (fld w 8 8) (fld w 0 8))
  | 23 => .some (.fshl (fld w 24 1) (fld w 16 8) (fld w 8 8) (fld w 0 8))
  | 24 => .some (.fshr (fld w 24 1) (fld w 16 8) (fld w 8 8) (fld w 0 8))
  | 25 => .some (.bfx (fld w 24 1) (fld w 16 8) (fld w 8 8) (fld w 0 8))
  | 26 => .some (.bfi (fld w 24 1) (fld w 16 8) (fld w 8 8) (fld w 0 8))
  | 27 => cell1B w
  | 28 => cell1C w
  | 29 => cell1D w
  | 30 => cell1E w
  | 31 => cell1F w
  | _ => none

/-- The cells with bits [31:25] from 0x20 to 0x3F (R66, R69). -/
def laneHigh (w c : Nat) : Option Instr :=
  match c with
  | 32 => .some (.icmpEq (fld w 24 1) (fld w 16 8) (fld w 8 8) (fld w 0 8))
  | 33 => .some (.icmpNe (fld w 24 1) (fld w 16 8) (fld w 8 8) (fld w 0 8))
  | 34 => .some (.icmpLtS32 (fld w 24 1) (fld w 16 8) (fld w 8 8) (fld w 0 8))
  | 35 => .some (.icmpLeS32 (fld w 24 1) (fld w 16 8) (fld w 8 8) (fld w 0 8))
  | 36 => .some (.icmpLtN32 (fld w 24 1) (fld w 16 8) (fld w 8 8) (fld w 0 8))
  | 37 => .some (.icmpLeN32 (fld w 24 1) (fld w 16 8) (fld w 8 8) (fld w 0 8))
  | 38 => .some (.fcmpEqF (fld w 24 1) (fld w 16 8) (fld w 8 8) (fld w 0 8))
  | 39 => .some (.fcmpLtF (fld w 24 1) (fld w 16 8) (fld w 8 8) (fld w 0 8))
  | 40 => .some (.fcmpLeF (fld w 24 1) (fld w 16 8) (fld w 8 8) (fld w 0 8))
  | 41 => cell29 w
  | 42 => .some (.faddF (fld w 24 1) (fld w 16 8) (fld w 8 8) (fld w 0 8))
  | 43 => .some (.faddH (fld w 24 1) (fld w 16 8) (fld w 8 8) (fld w 0 8))
  | 44 => .some (.fsubF (fld w 24 1) (fld w 16 8) (fld w 8 8) (fld w 0 8))
  | 45 => .some (.fsubH (fld w 24 1) (fld w 16 8) (fld w 8 8) (fld w 0 8))
  | 46 => .some (.fmulF (fld w 24 1) (fld w 16 8) (fld w 8 8) (fld w 0 8))
  | 47 => .some (.fmulH (fld w 24 1) (fld w 16 8) (fld w 8 8) (fld w 0 8))
  | 48 => .some (.fmaF (fld w 24 1) (fld w 16 8) (fld w 8 8) (fld w 0 8))
  | 49 => .some (.fmaH (fld w 24 1) (fld w 16 8) (fld w 8 8) (fld w 0 8))
  | 50 => .some (.paddH2 (fld w 24 1) (fld w 16 8) (fld w 8 8) (fld w 0 8))
  | 51 => .some (.paddB2 (fld w 24 1) (fld w 16 8) (fld w 8 8) (fld w 0 8))
  | 52 => .some (.pmulH2 (fld w 24 1) (fld w 16 8) (fld w 8 8) (fld w 0 8))
  | 53 => .some (.pmulB2 (fld w 24 1) (fld w 16 8) (fld w 8 8) (fld w 0 8))
  | 54 => .some (.pfmaH2 (fld w 24 1) (fld w 16 8) (fld w 8 8) (fld w 0 8))
  | 55 => .some (.pfmaB2 (fld w 24 1) (fld w 16 8) (fld w 8 8) (fld w 0 8))
  | 56 => .some (.ld (fld w 16 8) (fld w 10 6) (fld w 8 2) (fld w 5 3) (fld w 2 3))
  | 57 => .some (.st (fld w 16 8) (fld w 10 6) (fld w 8 2) (fld w 5 3) (fld w 2 3))
  | 58 => .some (.stm (fld w 16 8) (fld w 10 6) (fld w 0 8))
  | 59 => .some (.atom (fld w 24 1) (fld w 16 8) (fld w 10 6) (fld w 8 2) (fld w 5 3) (fld w 1 4))
  | 60 => cell3C w
  | 61 => cell3D w
  | 62 => .some (.bra (fld w 23 2) (fld w 15 8) (fld w 0 15))
  | 63 => if natBits w 23 2 = 3 then none else .some (.call (fld w 15 8) (fld w 0 15))
  | _ => none

/-- The cells with bits [31:25] from 0x40 to 0x5F (R66, R69). -/
def uniLow (w c : Nat) : Option Instr :=
  match c with
  | 64 => .some (.uadd (fld w 24 1) (fld w 16 8) (fld w 8 8) (fld w 0 8))
  | 65 => .some (.usub (fld w 24 1) (fld w 16 8) (fld w 8 8) (fld w 0 8))
  | 66 => .some (.umul (fld w 24 1) (fld w 16 8) (fld w 8 8) (fld w 0 8))
  | 67 => .some (.umad (fld w 24 1) (fld w 16 8) (fld w 8 8) (fld w 0 8))
  | 68 => .some (.uand (fld w 24 1) (fld w 16 8) (fld w 8 8) (fld w 0 8))
  | 69 => .some (.uor (fld w 24 1) (fld w 16 8) (fld w 8 8) (fld w 0 8))
  | 70 => .some (.uxor (fld w 24 1) (fld w 16 8) (fld w 8 8) (fld w 0 8))
  | 71 => .some (.ushl (fld w 24 1) (fld w 16 8) (fld w 8 8) (fld w 0 8))
  | 72 => .some (.ushr (fld w 24 1) (fld w 16 8) (fld w 8 8) (fld w 0 8))
  | 73 => .some (.usel (fld w 24 1) (fld w 16 8) (fld w 8 8) (fld w 0 8))
  | 74 => .some (.umov (fld w 24 1) (fld w 16 8) (fld w 8 8))
  | 75 => .some (.umovi (fld w 24 1) (fld w 16 8) (fld w 0 16))
  | 76 => .some (.uhiw (fld w 24 1) (fld w 16 8) (fld w 0 16))
  | 77 => .some (.ubra (fld w 23 2) (fld w 15 8) (fld w 0 15))
  | 78 => .some (.uldc (fld w 16 8) (fld w 8 8) (fld w 0 1))
  | 79 => .some (.uld (fld w 16 8) (fld w 10 6) (fld w 8 2) (fld w 5 3) (fld w 2 3))
  | 80 => .some (.ucmpEq (fld w 24 1) (fld w 16 8) (fld w 8 8) (fld w 0 8))
  | 81 => .some (.ucmpNe (fld w 24 1) (fld w 16 8) (fld w 8 8) (fld w 0 8))
  | 82 => .some (.ucmpLtS32 (fld w 24 1) (fld w 16 8) (fld w 8 8) (fld w 0 8))
  | 83 => .some (.ucmpLeS32 (fld w 24 1) (fld w 16 8) (fld w 8 8) (fld w 0 8))
  | 84 => .some (.ucmpLtN32 (fld w 24 1) (fld w 16 8) (fld w 8 8) (fld w 0 8))
  | 85 => .some (.ucmpLeN32 (fld w 24 1) (fld w 16 8) (fld w 8 8) (fld w 0 8))
  | 86 => .some (.tcfg (fld w 2 2) (fld w 0 2))
  | 87 => .some (.tmma (fld w 16 8) (fld w 8 8) (fld w 5 3) (fld w 2 3) (fld w 1 1) (fld w 0 1))
  | 88 => cell58 w
  | 89 => .some (.gang (fld w 16 8) (fld w 8 8))
  | 90 => .some (.achain (fld w 16 8) (fld w 8 8) (fld w 7 1) (fld w 0 2))
  | 91 => .some (.arsv (fld w 8 8))
  | 92 => .some (.asend (fld w 16 8) (fld w 8 8))
  | 93 => .some (.await (fld w 16 8) (fld w 8 8) (fld w 3 1) (fld w 0 3))
  | 94 => .some (.aclose (fld w 8 8))
  | 95 => cell5F w
  | _ => none

/-- The cells with bits [31:25] from 0x60 to 0x7F (R66, R69). -/
def uniHigh (w c : Nat) : Option Instr :=
  match c with
  | 96 => .some (.cpy (fld w 16 8) (fld w 8 8) (fld w 6 2) (fld w 3 3) (fld w 2 1))
  | 97 => .some (.cpym (fld w 16 8) (fld w 8 8) (fld w 6 2) (fld w 3 3) (fld w 2 1))
  | 98 => .some (.cpyq (fld w 16 8) (fld w 8 8))
  | 99 => .some (.gath (fld w 16 8) (fld w 8 8) (fld w 5 1) (fld w 4 1) (fld w 3 1) (fld w 2 1) (fld w 0 2))
  | 100 => .some (.binit (fld w 16 8) (fld w 8 8))
  | 101 => .some (.bwait (fld w 16 8) (fld w 8 8))
  | 102 => cell66 w
  | 103 => .some (.wswin (fld w 16 8) (fld w 8 8))
  | 104 => .some (.tsweep (fld w 16 8) (fld w 8 8) (fld w 3 5) (fld w 0 3))
  | 105 => .some (.qbind (fld w 16 8) (fld w 8 8) (fld w 4 3) (fld w 0 3))
  | 106 => .some (.spawn (fld w 16 8) (fld w 8 8))
  | 107 => .some (.yieldj (fld w 8 8))
  | 108 => .some (.migr (fld w 16 8) (fld w 8 8))
  | 109 => .some (.bar (fld w 8 8) (fld w 0 3))
  | 110 => .some (.seqld (fld w 16 8) (fld w 8 8))
  | 111 => .some (.seqgo (fld w 16 8) (fld w 8 8))
  | 112 => .some (.srd (fld w 16 8) (fld w 0 8))
  | 113 => .some (.swr (fld w 8 8) (fld w 0 8))
  | 114 => .some (.time (fld w 16 8))
  | 115 => .some .rte
  | 116 => .some (.frec (fld w 16 8))
  | 117 => .some (.sfqpop (fld w 16 8))
  | 118 => .some (.termw (fld w 16 8) (fld w 8 8))
  | _ => none

end Decode

/-- The row a word belongs to by its opcode cell and member code alone (R72 step 1), its reserved bits aside. -/
def decodeFields (w : Nat) : Option Instr :=
  if natBits w 28 4 = 15 then .some (.trail (fld w 27 1) (fld w 24 3) (fld w 18 6) (fld w 12 6) (fld w 6 6) (fld w 0 6))
  else
    let c := natBits w 25 7
    if c < 32 then Decode.laneLow w c
    else if c < 64 then Decode.laneHigh w c
    else if c < 96 then Decode.uniLow w c
    else Decode.uniHigh w c

/-- The 32-bit word of an instruction (R43 to R51); none for a step that has no encoding. -/
def encodeNat : Instr → Option Nat
  | .iadd n d a b => some (0x00000000 + n.toNat * 16777216 + d.toNat * 65536 + a.toNat * 256 + b.toNat)
  | .isub n d a b => some (0x02000000 + n.toNat * 16777216 + d.toNat * 65536 + a.toNat * 256 + b.toNat)
  | .imul n d a b => some (0x04000000 + n.toNat * 16777216 + d.toNat * 65536 + a.toNat * 256 + b.toNat)
  | .imad n d a b => some (0x06000000 + n.toNat * 16777216 + d.toNat * 65536 + a.toNat * 256 + b.toNat)
  | .imulhS32 n d a b => some (0x08000000 + n.toNat * 16777216 + d.toNat * 65536 + a.toNat * 256 + b.toNat)
  | .imulhN32 n d a b => some (0x0A000000 + n.toNat * 16777216 + d.toNat * 65536 + a.toNat * 256 + b.toNat)
  | .iaddS64 d a b => some (0x0C000000 + d.toNat * 65536 + a.toNat * 256 + b.toNat)
  | .iaddN64 d a b => some (0x0E000000 + d.toNat * 65536 + a.toNat * 256 + b.toNat)
  | .idot4S8 n d a b => some (0x10000000 + n.toNat * 16777216 + d.toNat * 65536 + a.toNat * 256 + b.toNat)
  | .idot4N8 n d a b => some (0x12000000 + n.toNat * 16777216 + d.toNat * 65536 + a.toNat * 256 + b.toNat)
  | .idot2S16 n d a b => some (0x14000000 + n.toNat * 16777216 + d.toNat * 65536 + a.toNat * 256 + b.toNat)
  | .sel n d a b => some (0x16000000 + n.toNat * 16777216 + d.toNat * 65536 + a.toNat * 256 + b.toNat)
  | .qscl n d a b => some (0x18000000 + n.toNat * 16777216 + d.toNat * 65536 + a.toNat * 256 + b.toNat)
  | .lxch n d a b => some (0x1A000000 + n.toNat * 16777216 + d.toNat * 65536 + a.toNat * 256 + b.toNat)
  | .movi n d i => some (0x1C000000 + n.toNat * 16777216 + d.toNat * 65536 + i.toNat)
  | .hiw n d i => some (0x1E000000 + n.toNat * 16777216 + d.toNat * 65536 + i.toNat)
  | .and n d a b => some (0x20000000 + n.toNat * 16777216 + d.toNat * 65536 + a.toNat * 256 + b.toNat)
  | .or n d a b => some (0x22000000 + n.toNat * 16777216 + d.toNat * 65536 + a.toNat * 256 + b.toNat)
  | .xor n d a b => some (0x24000000 + n.toNat * 16777216 + d.toNat * 65536 + a.toNat * 256 + b.toNat)
  | .andn n d a b => some (0x26000000 + n.toNat * 16777216 + d.toNat * 65536 + a.toNat * 256 + b.toNat)
  | .shl n d a b => some (0x28000000 + n.toNat * 16777216 + d.toNat * 65536 + a.toNat * 256 + b.toNat)
  | .shr n d a b => some (0x2A000000 + n.toNat * 16777216 + d.toNat * 65536 + a.toNat * 256 + b.toNat)
  | .sar n d a b => some (0x2C000000 + n.toNat * 16777216 + d.toNat * 65536 + a.toNat * 256 + b.toNat)
  | .fshl n d a b => some (0x2E000000 + n.toNat * 16777216 + d.toNat * 65536 + a.toNat * 256 + b.toNat)
  | .fshr n d a b => some (0x30000000 + n.toNat * 16777216 + d.toNat * 65536 + a.toNat * 256 + b.toNat)
  | .bfx n d a b => some (0x32000000 + n.toNat * 16777216 + d.toNat * 65536 + a.toNat * 256 + b.toNat)
  | .bfi n d a b => some (0x34000000 + n.toNat * 16777216 + d.toNat * 65536 + a.toNat * 256 + b.toNat)
  | .imin n d a t => some (0x36000000 + n.toNat * 16777216 + d.toNat * 65536 + a.toNat * 256 + t.toNat)
  | .imax n d a t => some (0x36000020 + n.toNat * 16777216 + d.toNat * 65536 + a.toNat * 256 + t.toNat)
  | .fminF n d a => some (0x36000040 + n.toNat * 16777216 + d.toNat * 65536 + a.toNat * 256)
  | .fmaxF n d a => some (0x36000060 + n.toNat * 16777216 + d.toNat * 65536 + a.toNat * 256)
  | .pmin n d a t => some (0x36000080 + n.toNat * 16777216 + d.toNat * 65536 + a.toNat * 256 + t.toNat)
  | .pmax n d a t => some (0x360000A0 + n.toNat * 16777216 + d.toNat * 65536 + a.toNat * 256 + t.toNat)
  | .mov n d a => some (0x38000000 + n.toNat * 16777216 + d.toNat * 65536 + a.toNat * 256)
  | .iabsS32 n d a => some (0x38000020 + n.toNat * 16777216 + d.toNat * 65536 + a.toNat * 256)
  | .clz n d a => some (0x38000040 + n.toNat * 16777216 + d.toNat * 65536 + a.toNat * 256)
  | .popc n d a => some (0x38000060 + n.toNat * 16777216 + d.toNat * 65536 + a.toNat * 256)
  | .brev n d a => some (0x38000080 + n.toNat * 16777216 + d.toNat * 65536 + a.toNat * 256)
  | .satn n d a t => some (0x380000A0 + n.toNat * 16777216 + d.toNat * 65536 + a.toNat * 256 + t.toNat)
  | .fclass n d a t => some (0x380000C0 + n.toNat * 16777216 + d.toNat * 65536 + a.toNat * 256 + t.toNat)
  | .fcvt n d a c => some (0x380000E0 + n.toNat * 16777216 + d.toNat * 65536 + a.toNat * 256 + c.toNat)
  | .frcpF n d a => some (0x3A000000 + n.toNat * 16777216 + d.toNat * 65536 + a.toNat * 256)
  | .frsqF n d a => some (0x3A000020 + n.toNat * 16777216 + d.toNat * 65536 + a.toNat * 256)
  | .fsqrtF n d a => some (0x3A000040 + n.toNat * 16777216 + d.toNat * 65536 + a.toNat * 256)
  | .fexp2F n d a => some (0x3A000060 + n.toNat * 16777216 + d.toNat * 65536 + a.toNat * 256)
  | .flog2F n d a => some (0x3A000080 + n.toNat * 16777216 + d.toNat * 65536 + a.toNat * 256)
  | .fsinF n d a => some (0x3A0000A0 + n.toNat * 16777216 + d.toNat * 65536 + a.toNat * 256)
  | .fcosF n d a => some (0x3A0000C0 + n.toNat * 16777216 + d.toNat * 65536 + a.toNat * 256)
  | .ftanhF n d a => some (0x3A0000E0 + n.toNat * 16777216 + d.toNat * 65536 + a.toNat * 256)
  | .qenc n d a s => some (0x3C000000 + n.toNat * 16777216 + d.toNat * 65536 + a.toNat * 256 + s.toNat)
  | .qdec n d a s => some (0x3C000020 + n.toNat * 16777216 + d.toNat * 65536 + a.toNat * 256 + s.toNat)
  | .qlutb d a s => some (0x3C000040 + d.toNat * 65536 + a.toNat * 256 + s.toNat)
  | .qlut n d a s => some (0x3C000060 + n.toNat * 16777216 + d.toNat * 65536 + a.toNat * 256 + s.toNat)
  | .poll n d a s => some (0x3E000000 + n.toNat * 16777216 + d.toNat * 65536 + a.toNat * 256 + s.toNat)
  | .redu n d a c => some (0x3E000020 + n.toNat * 16777216 + d.toNat * 65536 + a.toNat * 256 + c.toNat)
  | .scan n d a e c => some (0x3E000040 + n.toNat * 16777216 + d.toNat * 65536 + a.toNat * 256 + e.toNat * 16 + c.toNat)
  | .peers n d a s => some (0x3E000060 + n.toNat * 16777216 + d.toNat * 65536 + a.toNat * 256 + s.toNat)
  | .sync a => some (0x3E830080 + a.toNat * 256)
  | .icmpEq n d a b => some (0x40000000 + n.toNat * 16777216 + d.toNat * 65536 + a.toNat * 256 + b.toNat)
  | .icmpNe n d a b => some (0x42000000 + n.toNat * 16777216 + d.toNat * 65536 + a.toNat * 256 + b.toNat)
  | .icmpLtS32 n d a b => some (0x44000000 + n.toNat * 16777216 + d.toNat * 65536 + a.toNat * 256 + b.toNat)
  | .icmpLeS32 n d a b => some (0x46000000 + n.toNat * 16777216 + d.toNat * 65536 + a.toNat * 256 + b.toNat)
  | .icmpLtN32 n d a b => some (0x48000000 + n.toNat * 16777216 + d.toNat * 65536 + a.toNat * 256 + b.toNat)
  | .icmpLeN32 n d a b => some (0x4A000000 + n.toNat * 16777216 + d.toNat * 65536 + a.toNat * 256 + b.toNat)
  | .fcmpEqF n d a b => some (0x4C000000 + n.toNat * 16777216 + d.toNat * 65536 + a.toNat * 256 + b.toNat)
  | .fcmpLtF n d a b => some (0x4E000000 + n.toNat * 16777216 + d.toNat * 65536 + a.toNat * 256 + b.toNat)
  | .fcmpLeF n d a b => some (0x50000000 + n.toNat * 16777216 + d.toNat * 65536 + a.toNat * 256 + b.toNat)
  | .nop => some 0x52838300
  | .conv => some 0x52838301
  | .exit => some 0x52838302
  | .jmp a => some (0x52830003 + a.toNat * 256)
  | .jmpr a => some (0x52830004 + a.toNat * 256)
  | .callr d a => some (0x52000005 + d.toNat * 65536 + a.toNat * 256)
  | .ret a => some (0x52830006 + a.toNat * 256)
  | .sleepu a => some (0x52830007 + a.toNat * 256)
  | .bkpt => some 0x52838308
  | .trap a => some (0x52830009 + a.toNat * 256)
  | .faddF n d a b => some (0x54000000 + n.toNat * 16777216 + d.toNat * 65536 + a.toNat * 256 + b.toNat)
  | .faddH n d a b => some (0x56000000 + n.toNat * 16777216 + d.toNat * 65536 + a.toNat * 256 + b.toNat)
  | .fsubF n d a b => some (0x58000000 + n.toNat * 16777216 + d.toNat * 65536 + a.toNat * 256 + b.toNat)
  | .fsubH n d a b => some (0x5A000000 + n.toNat * 16777216 + d.toNat * 65536 + a.toNat * 256 + b.toNat)
  | .fmulF n d a b => some (0x5C000000 + n.toNat * 16777216 + d.toNat * 65536 + a.toNat * 256 + b.toNat)
  | .fmulH n d a b => some (0x5E000000 + n.toNat * 16777216 + d.toNat * 65536 + a.toNat * 256 + b.toNat)
  | .fmaF n d a b => some (0x60000000 + n.toNat * 16777216 + d.toNat * 65536 + a.toNat * 256 + b.toNat)
  | .fmaH n d a b => some (0x62000000 + n.toNat * 16777216 + d.toNat * 65536 + a.toNat * 256 + b.toNat)
  | .paddH2 n d a b => some (0x64000000 + n.toNat * 16777216 + d.toNat * 65536 + a.toNat * 256 + b.toNat)
  | .paddB2 n d a b => some (0x66000000 + n.toNat * 16777216 + d.toNat * 65536 + a.toNat * 256 + b.toNat)
  | .pmulH2 n d a b => some (0x68000000 + n.toNat * 16777216 + d.toNat * 65536 + a.toNat * 256 + b.toNat)
  | .pmulB2 n d a b => some (0x6A000000 + n.toNat * 16777216 + d.toNat * 65536 + a.toNat * 256 + b.toNat)
  | .pfmaH2 n d a b => some (0x6C000000 + n.toNat * 16777216 + d.toNat * 65536 + a.toNat * 256 + b.toNat)
  | .pfmaB2 n d a b => some (0x6E000000 + n.toNat * 16777216 + d.toNat * 65536 + a.toNat * 256 + b.toNat)
  | .ld d p o s t => some (0x70000000 + d.toNat * 65536 + p.toNat * 1024 + o.toNat * 256 + s.toNat * 32 + t.toNat * 4)
  | .st d p o s t => some (0x72000000 + d.toNat * 65536 + p.toNat * 1024 + o.toNat * 256 + s.toNat * 32 + t.toNat * 4)
  | .stm d p b => some (0x74000000 + d.toNat * 65536 + p.toNat * 1024 + b.toNat)
  | .atom r d p o s f => some (0x76000000 + r.toNat * 16777216 + d.toNat * 65536 + p.toNat * 1024 + o.toNat * 256 + s.toNat * 32 + f.toNat * 2)
  | .lds d a t => some (0x78000000 + d.toNat * 65536 + a.toNat * 256 + t.toNat)
  | .sts d a t => some (0x78000020 + d.toNat * 65536 + a.toNat * 256 + t.toNat)
  | .ldw d a t => some (0x78000040 + d.toNat * 65536 + a.toNat * 256 + t.toNat)
  | .atoms d a c => some (0x78000060 + d.toNat * 65536 + a.toNat * 256 + c.toNat)
  | .fence o s => some (0x7A000000 + o.toNat * 256 + s.toNat * 32)
  | .drainst => some 0x7A010000
  | .prefL1 p => some (0x7A020000 + p.toNat * 1024)
  | .prefL2 p => some (0x7A030000 + p.toNat * 1024)
  | .bra c a o => some (0x7C000000 + c.toNat * 8388608 + a.toNat * 32768 + o.toNat)
  | .call a o => some (0x7E000000 + a.toNat * 32768 + o.toNat)
  | .uadd n d a b => some (0x80000000 + n.toNat * 16777216 + d.toNat * 65536 + a.toNat * 256 + b.toNat)
  | .usub n d a b => some (0x82000000 + n.toNat * 16777216 + d.toNat * 65536 + a.toNat * 256 + b.toNat)
  | .umul n d a b => some (0x84000000 + n.toNat * 16777216 + d.toNat * 65536 + a.toNat * 256 + b.toNat)
  | .umad n d a b => some (0x86000000 + n.toNat * 16777216 + d.toNat * 65536 + a.toNat * 256 + b.toNat)
  | .uand n d a b => some (0x88000000 + n.toNat * 16777216 + d.toNat * 65536 + a.toNat * 256 + b.toNat)
  | .uor n d a b => some (0x8A000000 + n.toNat * 16777216 + d.toNat * 65536 + a.toNat * 256 + b.toNat)
  | .uxor n d a b => some (0x8C000000 + n.toNat * 16777216 + d.toNat * 65536 + a.toNat * 256 + b.toNat)
  | .ushl n d a b => some (0x8E000000 + n.toNat * 16777216 + d.toNat * 65536 + a.toNat * 256 + b.toNat)
  | .ushr n d a b => some (0x90000000 + n.toNat * 16777216 + d.toNat * 65536 + a.toNat * 256 + b.toNat)
  | .usel n d a b => some (0x92000000 + n.toNat * 16777216 + d.toNat * 65536 + a.toNat * 256 + b.toNat)
  | .umov n d a => some (0x94000000 + n.toNat * 16777216 + d.toNat * 65536 + a.toNat * 256)
  | .umovi n d i => some (0x96000000 + n.toNat * 16777216 + d.toNat * 65536 + i.toNat)
  | .uhiw n d i => some (0x98000000 + n.toNat * 16777216 + d.toNat * 65536 + i.toNat)
  | .ubra c a o => some (0x9A000000 + c.toNat * 8388608 + a.toNat * 32768 + o.toNat)
  | .uldc d a w => some (0x9C000000 + d.toNat * 65536 + a.toNat * 256 + w.toNat)
  | .uld d p o s t => some (0x9E000000 + d.toNat * 65536 + p.toNat * 1024 + o.toNat * 256 + s.toNat * 32 + t.toNat * 4)
  | .ucmpEq n d a b => some (0xA0000000 + n.toNat * 16777216 + d.toNat * 65536 + a.toNat * 256 + b.toNat)
  | .ucmpNe n d a b => some (0xA2000000 + n.toNat * 16777216 + d.toNat * 65536 + a.toNat * 256 + b.toNat)
  | .ucmpLtS32 n d a b => some (0xA4000000 + n.toNat * 16777216 + d.toNat * 65536 + a.toNat * 256 + b.toNat)
  | .ucmpLeS32 n d a b => some (0xA6000000 + n.toNat * 16777216 + d.toNat * 65536 + a.toNat * 256 + b.toNat)
  | .ucmpLtN32 n d a b => some (0xA8000000 + n.toNat * 16777216 + d.toNat * 65536 + a.toNat * 256 + b.toNat)
  | .ucmpLeN32 n d a b => some (0xAA000000 + n.toNat * 16777216 + d.toNat * 65536 + a.toNat * 256 + b.toNat)
  | .tcfg r g => some (0xAC838300 + r.toNat * 4 + g.toNat)
  | .tmma d a f g z b => some (0xAE000000 + d.toNat * 65536 + a.toNat * 256 + f.toNat * 32 + g.toNat * 4 + z.toNat * 2 + b.toNat)
  | .tbnd d s => some (0xB0008300 + d.toNat * 65536 + s.toNat)
  | .tbndT d a s => some (0xB0000080 + d.toNat * 65536 + a.toNat * 256 + s.toNat)
  | .gang d a => some (0xB2000000 + d.toNat * 65536 + a.toNat * 256)
  | .achain d a p r => some (0xB4000000 + d.toNat * 65536 + a.toNat * 256 + p.toNat * 128 + r.toNat)
  | .arsv a => some (0xB6830000 + a.toNat * 256)
  | .asend d a => some (0xB8000000 + d.toNat * 65536 + a.toNat * 256)
  | .await d a z s => some (0xBA000000 + d.toNat * 65536 + a.toNat * 256 + z.toNat * 8 + s.toNat)
  | .aclose a => some (0xBC830000 + a.toNat * 256)
  | .twatch a k => some (0xBE830000 + a.toNat * 256 + k.toNat)
  | .pubt d a k => some (0xBE000020 + d.toNat * 65536 + a.toNat * 256 + k.toNat)
  | .spect d a k => some (0xBE000040 + d.toNat * 65536 + a.toNat * 256 + k.toNat)
  | .schk d => some (0xBE008360 + d.toNat * 65536)
  | .sabort => some 0xBE838380
  | .cpy d a o s b => some (0xC0000000 + d.toNat * 65536 + a.toNat * 256 + o.toNat * 64 + s.toNat * 8 + b.toNat * 4)
  | .cpym d a o s b => some (0xC2000000 + d.toNat * 65536 + a.toNat * 256 + o.toNat * 64 + s.toNat * 8 + b.toNat * 4)
  | .cpyq d a => some (0xC4000000 + d.toNat * 65536 + a.toNat * 256)
  | .gath d a y w g u r => some (0xC6000000 + d.toNat * 65536 + a.toNat * 256 + y.toNat * 32 + w.toNat * 16 + g.toNat * 8 + u.toNat * 4 + r.toNat)
  | .binit d a => some (0xC8000000 + d.toNat * 65536 + a.toNat * 256)
  | .bwait d a => some (0xCA000000 + d.toNat * 65536 + a.toNat * 256)
  | .pgpin d a => some (0xCC000000 + d.toNat * 65536 + a.toNat * 256)
  | .pgunpin a => some (0xCC830020 + a.toNat * 256)
  | .wswin d a => some (0xCE000000 + d.toNat * 65536 + a.toNat * 256)
  | .tsweep d a o t => some (0xD0000000 + d.toNat * 65536 + a.toNat * 256 + o.toNat * 8 + t.toNat)
  | .qbind d a k q => some (0xD2000000 + d.toNat * 65536 + a.toNat * 256 + k.toNat * 16 + q.toNat)
  | .spawn d a => some (0xD4000000 + d.toNat * 65536 + a.toNat * 256)
  | .yieldj a => some (0xD6830000 + a.toNat * 256)
  | .migr d a => some (0xD8000000 + d.toNat * 65536 + a.toNat * 256)
  | .bar a k => some (0xDA830000 + a.toNat * 256 + k.toNat)
  | .seqld d a => some (0xDC000000 + d.toNat * 65536 + a.toNat * 256)
  | .seqgo d a => some (0xDE000000 + d.toNat * 65536 + a.toNat * 256)
  | .srd d f => some (0xE0008300 + d.toNat * 65536 + f.toNat)
  | .swr a f => some (0xE2830000 + a.toNat * 256 + f.toNat)
  | .time d => some (0xE4008300 + d.toNat * 65536)
  | .rte => some 0xE6838300
  | .frec d => some (0xE8008300 + d.toNat * 65536)
  | .sfqpop d => some (0xEA008300 + d.toNat * 65536)
  | .termw d a => some (0xEC000000 + d.toNat * 65536 + a.toNat * 256)
  | .trail v c e f g h => some (0xF0000000 + v.toNat * 134217728 + c.toNat * 16777216 + e.toNat * 262144 + f.toNat * 4096 + g.toNat * 64 + h.toNat)
  | .launch .. => none
  | .noOpCommand .. => none
  | .tail .. => none
  | .gridHandoff .. => none
  | .unitPlacement .. => none
  | .sliceDispatch .. => none
  | .gridEnd .. => none
  | .budgetExpiry .. => none
  | .warpDisplacement .. => none
  | .convergenceRelease .. => none
  | .serialModeSwitch .. => none
  | .handlerEntry .. => none
  | .debuggerResume .. => none
  | .sleepuWake .. => none
  | .loadReturn .. => none
  | .satchelFill .. => none
  | .queueFedLoadWrite .. => none
  | .storeFaultRecord .. => none
  | .firstTouchMap .. => none
  | .shootdown .. => none
  | .copyRow .. => none
  | .copyEnd .. => none
  | .gatherBag .. => none
  | .gatherQueuePush .. => none
  | .gatherEnd .. => none
  | .termStepFinish .. => none
  | .gangArrayBind .. => none
  | .achainRecord .. => none
  | .acloseRecord .. => none
  | .chainGrant .. => none
  | .asendAnswer .. => none
  | .accArrival .. => none
  | .awaitAdd .. => none
  | .sequencerStep .. => none
  | .wsRefreshWindow .. => none
  | .injectionClaim .. => none
  | .migrShip .. => none
  | .migrTimeout .. => none
  | .preemptionRequest .. => none
  | .contextResume .. => none
  | .coreReset .. => none
  | .uncoreReset .. => none
  | .packageReset .. => none
  | .boot .. => none
  | .modeChange .. => none
  | .linkError .. => none
  | .eventRecord .. => none
  | .storePerformed .. => none
  | .eccError .. => none
  | .queueRestart .. => none
  | .eventRingSpace .. => none
  | .hostAccess .. => none
  | .podAccess .. => none

/-- The word of an instruction as the hardware's 32 bits. -/
def encode (i : Instr) : Option Word := (encodeNat i).map (BitVec.ofNat 32)

/-- The bits of a word in which a value other than the fixed one is a specifier class not allowed in its position (step 3 of
R72) rather than a reserved field: the fixed 0x83 of R374's instructions (R377, R378, R383, R384), of `PGUNPIN` (R172), of
the SPC members (R294), and of `ARSV` and `ACLOSE` (R271, R276). -/
def fixedSpecifierBits : Instr → Nat
  | .srd .. | .time .. | .frec .. | .sfqpop .. | .schk .. => 0x0000FF00
  | .swr .. | .pgunpin .. | .twatch .. | .arsv .. | .aclose .. => 0x00FF0000
  | .rte | .sabort => 0x00FFFF00
  | _ => 0

/-- An FN value that the instruction's entry does not list (R69): `ASEND` lists FN = 0 alone and calls no bit of it reserved. -/
def unlistedFn (w : Nat) (i : Instr) : Bool := (i matches .asend ..) && natBits w 0 8 != 0

/-- The cause of a word that is in no row (R71), in the order of R72: a word whose cell and member are listed fails at step 1
for an unlisted code in a field, at step 2 for a non-zero reserved bit, and otherwise at step 3. -/
def badWordCause (w : Nat) (i : Instr) (e : Nat) : Cause :=
  if Machine.step1Fails i || unlistedFn w i then .illegalOp
  else if (w ^^^ e) &&& (0xFFFFFFFF ^^^ fixedSpecifierBits i) ≠ 0 ∨ Machine.step2Fails i then .reservedField
  else .illegalOp

/-- The decoder: total on every 32-bit word; a word in no row is refused with its cause. -/
def decodeNat (w : Nat) : Except Cause Instr :=
  match decodeFields w with
  | none => .error .illegalOp
  | some i =>
    match encodeNat i with
    | none => .error .illegalOp
    | some e => if e = w then .ok i else .error (badWordCause w i e)

/-- The decoder on a 32-bit word (R41). -/
def decodeWord (w : Word) : Except Cause Instr := decodeNat w.toNat

/-- The decoder on the four bytes of a word as memory holds them, little-endian (R41). -/
def decodeBytes (bs : List Byte) : Except Cause Instr := decodeNat (bytesToNat (bs.take 4))

/-- The instruction the decoder reads from a word numbered as spec/opcode_table.json numbers it: every instruction is one
32-bit word, laid out as four bytes, lowest first. -/
def decodeTableWord (nbits w : Nat) : Option Instr :=
  if nbits ≤ 32 then (decodeBytes (natToBytes 4 (w % 2 ^ nbits))).toOption else none

end Sys2Proof
end

