-- ==== Sys2Proof/Config.lean ====
section
/-! DEFINITION. What an implementation fixes and the values the spec leaves open. Every `opaque` here is a free value
without a body: nothing can be proved of its value. The machine applies each to a counter of State or to the operands. -/

namespace Sys2Proof.Config

/-- Bytes that the spec leaves unspecified: a page an arrival round occupies (R277), that page after the round (R409), a
read of a window whose device the spec does not describe (R389). Applied to the state's free-value counter. -/
opaque freeByte : Nat → Byte

/-- A choice the spec leaves open, such as the parenthesisation of a `.ch` gather (R123). Applied to the free-value counter. -/
opaque freePick : Nat → Nat

/-- The result of `FRSQ.f` on an argument, before the bound of R217 is applied. One function of the operand (R217: "every
member returns the same result for the same input"). -/
opaque sfuRsq : Word → Nat
/-- The result of `FEXP2.f` before the bound of R217 is applied. -/
opaque sfuExp2 : Word → Nat
/-- The result of `FLOG2.f` before the bound of R217 is applied. -/
opaque sfuLog2 : Word → Nat
/-- The result of `FSIN.f` before the bound of R217 is applied. -/
opaque sfuSin : Word → Nat
/-- The result of `FCOS.f` before the bound of R217 is applied. -/
opaque sfuCos : Word → Nat
/-- The result of `FTANH.f` before the bound of R217 is applied. -/
opaque sfuTanh : Word → Nat

/-- How far past "counter + 1" a promise lies (R163, R165). Applied to the free-value counter. -/
opaque promiseSlack : Nat → Nat

/-- Whether the signature over a configuration record and the trusted firmware verifies (R398 step 2). -/
opaque signatureValid : List Byte → Bool
/-- Whether built-in self-test passes on a physical cluster of a die (R398 step 3). -/
opaque selfTestPasses : Nat → Nat → Bool
/-- Whether training and the verification of the untrusted firmware under the operator key succeed (R398 step 4). -/
opaque firmwareStarts : List Byte → Bool
/-- Whether the untrusted firmware starts and the endpoint becomes enumerable (R398 step 5). -/
opaque endpointStarts : List Byte → Bool

/-- Whether scratchpad of some pages a core can be backed for a launch, and Satchels of some KiB for its slices (R345 step 5). Applied to the
free-value counter. -/
opaque backsScratchpad : Nat → Nat → Bool
opaque backsSatchels : Nat → Nat → Bool

/-- The count of corrected errors at which the management controller reports an event (R108, R400 type 0x09). -/
opaque errorThreshold : Nat

end Sys2Proof.Config
end

