-- ==== Sys2Proof/Machine/State.lean ====
section
/-! DEFINITION. The state of the package as plain data, and the state after reset. Numbers that software never sees as a
word (identities, indexes, counts) are `Nat`; registers, counters and addresses that software sees are bit vectors. A map by
key is a list of pairs in rising key order without repeats. -/

namespace Sys2Proof.Machine

/-- A map by number, in rising key order without repeats. -/
abbrev SMap (α : Type) := List (Nat × α)

/-- The value of one register in the 32 lanes of a warp. -/
abbrev LaneVec := List Word

/-- A fault record (R372) or a store-fault entry (R380): `who` is RUN of a record, and the entry's LANE is `lane`. -/
structure Record where
  pc     : Pc
  run    : Nat        -- [81:77]: RUN of a record, LANE of a store-fault entry
  imp    : Bool       -- [76] of a record
  slot   : Nat        -- [76:72] of a store-fault entry
  kind   : Nat        -- [55:52] of a store-fault entry
  cause  : Cause
  detail : BitVec 8   -- walk level in [7:4], detail code in [3:0]
  addr   : BitVec 48
  deriving DecidableEq, Repr, Inhabited

/-- A fault met at an instruction: cause, walk level and detail, information word (R372, R373). -/
structure FaultInfo where
  cause  : Cause
  detail : BitVec 8
  addr   : BitVec 48
  deriving DecidableEq, Repr, Inhabited

/-- What became of a lane position (R319, R328, R371). -/
inductive ThreadStatus where
  | empty    -- the slice was dispatched with fewer lanes
  | exited
  | running
  | parked
  deriving DecidableEq, Repr, Inhabited

/-- What a thread owns beside its registers (R319, R371, R374, R384). -/
structure Thread where
  status : ThreadStatus
  depth  : Nat            -- kept while the thread is parked or in the handler
  record : Option Record
  rpc    : DWord          -- RPC
  hs0    : Word
  hs1    : Word
  entered : Bool          -- the thread is in the handler group
  deriving DecidableEq, Repr, Inhabited

/-- What a group waits for at the word it has reached (R190, R353). -/
inductive Wait where
  | none
  | register                                     -- a pending register: the warp may stay active
  | blocking                                     -- a mailbox, a queue, a barrier object
  | room                                         -- an engine's room, a version of a watched tile, an earlier pop of a queue
  | verdict                                      -- the verdict of a level that the word resolves (R288, R298)
  | commit (tile : Nat)                          -- the answer to a held ASEND in the commit that the word makes (R290)
  | resolving (tile : Nat) (faults : List (Nat × FaultInfo)) (before : Wait)   -- faults met in an open level: the warp stops and resolves it
                                                 -- (R292); the lanes that did not fault then wait as before
  | sleeping (wake : DWord)                      -- SLEEPU
  | sync (masks : List (Nat × BitVec 32)) (passed failed : BitVec 32)   -- SYNC: each lane's mask; lanes that may pass, that fault
  | bar (level count : Nat) (mask : Word)        -- BAR: arrived
  | yield                                        -- YIELDJ: arrived
  | gang (mask : Word)                           -- GANG rendezvous
  | publishing (version : Word)                  -- PUBT outside speculation: its write is not yet performed
  | tmma (gang step : Nat)                       -- TMMA rendezvous
  | directory                                    -- ACHAIN or ACLOSE: not yet recorded
  | reservation                                  -- ARSV
  | answer (tile : Nat)                          -- ASEND
  | migrating                                    -- MIGR: waits for the warp's leases and accesses
  | homeroom (since die : Nat)                   -- MIGR: waits for a Homeroom on a die since the cy given
  | migrated (ok : Bool)                         -- MIGR: the warp has moved, or no Homeroom came free in time
  | halted                                       -- BKPT under the debugger
  | remote (op : Nat)                            -- a load or atomic of the pod window, until its reply (R396)
  | halves (access pick : Nat) (places olds : SMap Nat)   -- `fadd2.b2`, one half of which is performed (R151): the access, the free values that chose the halves, each
                                                 -- lane's location and old half
  | sweeping                                     -- TSWEEP: elements are left to be processed
  | faulted (faults : List (Nat × FaultInfo))    -- the reply was a link error, in the lanes named
  | refused (info : FaultInfo)                   -- a held or waiting `ASEND` was refused (R273, R290)
  | released                                     -- what was waited for has come
  deriving DecidableEq, Repr, Inhabited

/-- A run being issued (R62): its words as fetched, the position of the next word, the latches filled so far (newest first,
R59), where each lane goes next, and what the group waits for. `fetchFault` is the fault of the first word that could not be
fetched, which stands after `words`. -/
structure Run where
  start      : Pc
  words      : List Word
  fetchFault : Option FaultInfo
  pos        : Nat
  latches    : List LaneVec
  nextPc     : SMap Pc
  wait       : Wait
  desc       : List Byte           -- a descriptor read by a copy that waits for its levels (R289), else empty
  deriving DecidableEq, Repr, Inhabited

/-- A group: the threads of a slot with one PC and one call depth (R319). `lanes` is a mask of home lane positions. At a run
boundary `run` is none. `conv` counts the runs of the slot's other threads since the group began to wait at a convergence
point (R326); `passed` says that this wait is over and the run at `pc` may issue. `idle` counts the slot's runs while the
group was ready (R320). `out` says that it was left out when serial mode ended: it takes no split-table entry until it can issue again (R325). -/
structure Group where
  lanes  : Word
  pc     : Pc
  depth  : Nat
  run    : Option Run
  conv   : Option Nat
  passed : Bool
  idle   : Nat
  out    : Bool
  deriving DecidableEq, Repr, Inhabited

/-- What will write a pending register (R186, R187). -/
inductive PendKind where
  | load                          -- a load, a scratchpad or weight-store read, ULDC, TBND.t
  | remote                        -- a load or atomic of the pod window that waits for its reply (R396)
  | fill                          -- a refill from the Satchel (R184)
  | queueFed (queue : Nat)        -- a queue-fed load: leased (R187)
  | term (gang step : Nat)        -- a TMMA step of a gang: leased
  | await (chain : Nat) (slot : Nat) (z : Bool)   -- AWAIT: leased
  deriving DecidableEq, Repr, Inhabited

/-- A pending result: the registers `reg .. reg + count - 1` in the lanes of `lanes`. For a load, `vals` holds what each lane
will receive, register by register. `pc` and `run` locate the word for a fault met later (R396). `sync` marks an access of the sync class
that crosses the bridge (R142). -/
structure Pend where
  id    : Nat
  kind  : PendKind
  lanes : Word
  reg   : Nat
  count : Nat
  vals  : SMap (List Word)
  pc    : Pc
  run   : Nat
  addrs : SMap (DWord × Nat)      -- by lane, the address of a remote access and the level of its leaf; of a plain load that may still be read, its address and bytes
  sync  : Bool
  deriving DecidableEq, Repr, Inhabited

/-- Where an agent stands among the instances of scopes (R300): its context and core, its warp or the warp that issued it (0 for a sequencer), and that warp's gang. -/
structure Agent where
  ctx  : Nat
  core : Nat
  warp : Nat
  gang : Option Nat
  deriving DecidableEq, Repr, Inhabited

/-- A release (R307): its scope, its agent, and the writes that happen before it, in its scope or not, so far as one die has still to apply them. `direct` says that
whoever reads it acquires it without an acquire of its own: a completion record's DONE (R169). -/
structure RelSrc where
  scope  : Nat
  agent  : Agent
  ids    : List Nat
  direct : Bool
  deriving DecidableEq, Repr, Inhabited

/-- A write that one die has still to apply (R303): `die` reads the bytes `old` until then. `agent` wrote it; `thread` (a warp or an engine operation) and `lanes` name
the threads whose program order it stands in, `access` the access that it is a part of (R311); `carry` are the writes that its release carries to that die. -/
structure Late where
  id     : Nat
  die    : Nat
  agent  : Agent
  thread : Nat
  access : Nat
  lanes  : Word
  pa     : Nat
  old   : List (Option Byte)
  carry : List Nat
  deriving DecidableEq, Repr, Inhabited

/-- A write whose reader may synchronise with it (R307): a release, an atomic of a release sequence, or, with no release in `srcs`, a plain write that ends
such a sequence. -/
structure RelTag where
  id   : Nat
  pa   : Nat
  len  : Nat
  srcs : List RelSrc
  deriving DecidableEq, Repr, Inhabited

/-- What one store-pipe entry does. -/
inductive StoreOp where
  | bytes (data : List (Option Byte))         -- ST, STM, PUBT: the bytes named, lowest first
  | atomic (code : Nat) (operand : Nat)       -- ATOM with NR = 1
  deriving DecidableEq, Repr, Inhabited

/-- An issued store or NR = 1 atomic that is not yet performed (R134, R146): one entry a lane, or a merged group of lanes for
an atomic (R150). -/
structure Store where
  seq   : Nat
  warp  : Nat          -- the warp's identity
  ctx   : Nat
  core  : Nat
  slot  : Nat          -- home slot
  lanes : Word
  pc    : Pc
  run   : Nat          -- the runs that its slot had issued before that of its word
  kind  : Nat          -- KIND of R380
  addr  : DWord
  op    : StoreOp
  rel   : Option Nat   -- scope of a release
  acq   : Option Nat   -- scope of an acquire, of an atomic with NR = 1
  srcs  : List RelSrc  -- the releases that it is
  entry : Option Nat   -- the watch-table entry whose version a PUBT's write finishes
  joined : Bool        -- combined with the warp's store before it (R134)
  gang  : Option Nat   -- the warp's gang
  twin  : Bool         -- the second half of the atomic before it (R151)
  place : Option (Nat × Nat)   -- where its bytes lie and its page's memory type, once a part of it has been performed there (R148)
  failed : Option FaultInfo   -- the fault that keeps it from being performed, once found (R380, R396)
  deriving DecidableEq, Repr, Inhabited

/-- A held effect of a speculation level (R288, R290). -/
inductive Held where
  | store (s : Store)
  | asend (chain : Nat) (tile : List DWord) (pc : Pc)
  | copy (id : Nat)
  | publish (entry : Nat) (version : Word) (stores : List Store)
  deriving DecidableEq, Repr, Inhabited

/-- What a snapshot keeps (R287). -/
structure Snapshot where
  regs    : SMap LaneVec
  gens    : SMap Nat
  spilled : List Nat
  groups  : List Group
  hgroups : List Group
  entered : List Bool
  serial  : Option (Nat × Nat)
  termG   : Nat
  termD   : Nat
  arrived : Nat
  deriving DecidableEq, Repr, Inhabited

/-- An open speculation level (R286, R287): the entry and version it waits on, its verdict, what it holds. The prediction it is compared with is formed
again from the entry's history when the comparison is made (R283, R285). -/
structure Level where
  id       : Nat
  entry    : Nat
  version  : Word
  linear   : Bool                 -- whether its prediction is the linear one (R284)
  verdict  : Option Bool
  provOf   : Option Nat           -- passed a provisional publication of this warp (R286)
  snapshot : Snapshot
  specPc   : Pc
  specLanes : Word                -- the group that executed the SPECT
  held     : List Held
  shadow   : List Nat             -- the 32-byte sectors its held stores name
  provEntry : List Nat            -- entries it published provisionally
  pendsFrom : Nat                 -- pending results from this identity on were begun after its SPECT
  stopped  : Bool                 -- its commit has stopped at a refused ASEND (R290)
  deriving DecidableEq, Repr, Inhabited

/-- A warp, in a warp slot, a Homeroom or (for a layer sequencer) as the agent that executes its words (R180 to R190, R319,
R344, R369, R384). -/
structure Warp where
  uid      : Nat               -- identity
  ctx      : Nat
  grid     : Nat
  slice    : Nat
  index    : Nat               -- number of the warp in its slice (R344)
  homeSlot : Nat               -- what `wslot` reads
  threads  : List Thread       -- 32 lane positions
  groups   : List Group
  regs     : SMap LaneVec      -- live registers (R181); an absent register reads 0
  gens     : SMap Nat          -- how often each register has been written: which physical register stands for it
  spilled  : List Nat          -- live registers that stand in the Satchel (R182)
  away     : List (Nat × Nat)  -- values that only snapshots keep, by register and `gens`, that stand in the Satchel (R287)
  lru      : List (Nat × Nat)  -- values, by register and `gens`, most recently used first (R183)
  pends    : List Pend
  accstat  : Word
  termG    : Nat               -- group size G of the Bell (R243)
  termD    : Nat               -- run-ahead depth D
  gang     : Option Nat        -- the gang it belongs to
  arrived  : Nat               -- TMMA steps it has arrived at since the gang formed (R255)
  barriers : SMap Nat          -- barriers completed, by level (R359)
  levels   : List Level        -- open speculation levels, innermost first
  replay   : List (Pc × Word)  -- the SPECT words, by PC and group, that carry the replay mark when they are executed again (R291)
  sweep    : Option (Pc × List Nat × Word) -- the saved index (i0, i1, i2) of a sweep (R237), and the lanes in which the sweep at that PC
                               -- continues from it
  serial   : Option (Nat × Nat) -- serial mode: the lane that runs and its runs (R325)
  handler  : Bool              -- handler mode (R374)
  hgroups  : List Group        -- the handler group, in parts when its lanes have diverged
  parkRuns : Option Nat        -- runs the slot has issued since the first lane parked
  budgetDue : Word             -- lanes that take BUDGET at their next run boundary (R350)
  ranges   : List Nat          -- registers the previous run's trailer names (R65)
  displace : Bool              -- leaves the active set at its next run boundary (R354)
  lastRun  : Nat               -- the turn at which it last issued
  runs     : Nat               -- runs its slot has issued
  know     : List Nat          -- writes that happen before its next access and that a die has still to apply (R307)
  seen     : List RelSrc       -- releases that its loads have read; an acquire `FENCE` acquires from them (R307)
  fenceRel : List Nat          -- the scopes at which a release `FENCE` makes its later stores and atomics releases (R307)
  read     : List Nat          -- writes that its loads have read and that the other die has still to apply (R301)
  deriving DecidableEq, Repr, Inhabited

/-- A TMMA member's part of a step (R240, R253). -/
structure StepMember where
  warp  : Nat
  pos   : Nat
  lanes : Word
  reg   : Nat
  aAddr : Word
  bAddr : Word
  fa    : List Byte      -- the A slot's 32 bytes
  fb    : List Byte      -- the B slot's 32 bytes
  z     : Bool
  sp    : Bool
  since : Nat            -- stores of the warp before this sequence number precede the step
  deriving DecidableEq, Repr, Inhabited

/-- The operands of a step as loaded: the 16 blocks of the A tile, and for each member the B tile's integers by column and the
column factors, as (significand, exponent) pairs or none when not finite; poisoned data is marked (R249). -/
structure Operands where
  blocks   : List (List Byte)
  poisoned : Bool
  members  : List (Nat × List (List Int) × List (Option (Int × Int)))   -- warp, columns of 32 integers, factors
  deriving DecidableEq, Repr, Inhabited

/-- A step of a gang (R248, R255): gathering arrivals, then issued, then loaded with its first cycle and cycle count fixed. -/
structure TermStep where
  number  : Nat
  members : List StepMember
  issued  : Option Nat             -- the cy at which the rendezvous completed
  leader  : Nat                    -- the leader's slot
  cfg     : Nat × Nat              -- G, D of the leader
  loaded  : Option Operands
  first   : Nat                    -- number of the first cycle
  count   : Nat                    -- F of R251
  deriving DecidableEq, Repr, Inhabited

/-- A gang of warps of one core (R240, R241). -/
structure Gang where
  ctx     : Nat
  members : List (Nat × Nat)       -- warp identity, slot
  array   : Option Nat
  since   : Nat                    -- the turn at which it formed
  nextStep : Nat
  steps   : List TermStep          -- in step order
  deriving DecidableEq, Repr, Inhabited

/-- What a term array remembers of its last step (R250 to R252): the last cycles of the step's 16 rows in each lane, newest row first, the
configuration, and the gang. The cycle in progress when `cy` is c has number c + 1. -/
structure ArrayState where
  gang : Nat
  cfg  : Nat × Nat
  ends : List (List Nat)
  deriving DecidableEq, Repr, Inhabited

/-- A layer's slot in the pending set of a core: its position and the cy for which it has been ready (R354). -/
structure PendingWarp where
  pos   : Nat
  ready : Nat
  deriving DecidableEq, Repr, Inhabited

/-- The state of a sector in L2 (R129). -/
structure L2Sector where
  val   : Bool
  drt   : Bool
  wmask : BitVec 8
  deriving DecidableEq, Repr, Inhabited

/-- A sector in L1 (R129): its 32 bytes and its state. L1 is write-through, so DRT stays 0 (R134). -/
structure L1Sector where
  bytes : List Byte
  val   : Bool
  drt   : Bool
  wmask : BitVec 8
  deriving DecidableEq, Repr, Inhabited

/-- A core (R2, R348, R352). Positions 0 to 31 are warp slots, 32 and 33 Homerooms, 34 + c the layer sequencer of context c. -/
structure Core where
  warps     : SMap Warp
  active    : List Nat
  pending   : List PendingWarp
  registrar : List Nat            -- queued slices
  sliceCount : DWord              -- R348
  gangs     : SMap Gang
  arrays    : SMap ArrayState     -- 4 arrays
  l1        : SMap L1Sector       -- L1: 32-byte sectors as filled, by physical address / 32
  code      : SMap (List Word)    -- the values at which the core holds instruction words, newest first, by physical address / 4 (R315)
  leaving   : List Warp           -- warps that have ended and whose leases still run (R189)
  issued    : List (Nat × Nat)    -- what this cy has issued: pipe (0 and 1 the lane pipes, 2 the uniform), position (R352)
  lastIssue : SMap Nat            -- by pipe, the position that last issued to it (R352)
  deriving DecidableEq, Repr, Inhabited

/-- A mailbox (R191, R192): its value, its full bit, and who waits to take and to fill it, oldest first; the writes that happen before its last fill and that a die
has still to apply (R193). -/
structure Mailbox where
  value   : Word
  full    : Bool
  know    : List Nat
  readers : List Nat
  writers : List Nat
  deriving DecidableEq, Repr, Inhabited

/-- A queue register (R194 to R198). `kind` 0 is unbound. A word that waits after it has read an entry pops it when it takes effect (R72). -/
structure Queue where
  entries : List Word
  kind    : Nat
  arg     : Word
  drops   : Word
  readers : List Nat              -- who waits at a word for which it reads the queue's oldest entries, without having popped them
  deriving DecidableEq, Repr, Inhabited

/-- An entry of a sequencer table (R361), decoded. -/
structure SeqEntry where
  word : Word
  kind : Nat
  ck   : Nat
  ca   : Nat
  test : Nat
  idx  : Nat
  wt   : Bool
  nt   : Nat
  nf   : Nat
  deriving DecidableEq, Repr, Inhabited

/-- The layer sequencer of one context on one core (R360). Its registers `s0` to `s15` are `regs`. `phase` is 0 before the
word of the current entry, 1 after it; `stopping` holds the status word of a stop not yet reported (R366). -/
structure Sequencer where
  table    : List SeqEntry
  regs     : List Word
  counters : List Word
  cini     : List Word
  smv      : Option Nat          -- SMB when SMV = 1
  current  : Nat
  running  : Bool
  phase    : Nat
  stopping : Option Word
  grid     : Nat                 -- the grid of the warp that loaded or started it, whose format slots its words use
  sweep    : Option (List Nat)   -- the index (i0, i1, i2) at which a `TSWEEP` word stands
  remote   : Option (Bool × Bool)   -- a load of the pod window: whether its reply has come, and whether that was a link error (R396)
  know     : List Nat            -- writes that happen before its next access and that a die has still to apply (R307)
  seen     : List RelSrc         -- releases that its loads have read (R307)
  fenceRel : List Nat            -- the scopes at which a release `FENCE` of it makes its later writes releases (R307)
  deriving DecidableEq, Repr, Inhabited

/-- A store-fault entry with its owner (R380, R381). -/
structure SfqEntry where
  entry    : Record
  warp     : Nat
  lane     : Nat
  reported : Bool
  deriving DecidableEq, Repr, Inhabited

/-- What a context holds on one core (R170 to R172, R191, R194, R360, R380, R428). -/
structure CtxCore where
  spad      : SMap Byte          -- scratchpad bytes by offset; an absent byte is 0
  poisoned  : List Nat           -- backing sectors (offset / 32) poisoned
  pins      : List Nat
  mailboxes : List Mailbox       -- 16
  queues    : List Queue         -- 8
  sfq       : List SfqEntry
  seq       : Sequencer
  rounds    : List Nat           -- scratchpad pages that an arrival round occupies (R277)
  signals   : SMap (List RelSrc) -- the releases that the arrivals at a barrier object were, by its offset (R169)
  deriving DecidableEq, Repr, Inhabited

/-- An entry of the tile watch table (R281, R282): the descriptor's 32 bytes, VER, PROV, and the slots of the grid that
installed it are read through `grid`. -/
structure WatchEntry where
  desc : List Byte
  core : Nat                     -- the core that holds the history region
  slot : List Byte               -- the format slot as it stood (R40)
  ver  : Word
  prov : Bool
  owner : Nat                    -- the warp of the provisional publication
  rels : List RelSrc             -- the releases that its publications were (R296)
  deriving DecidableEq, Repr, Inhabited

/-- What a context holds in one cluster (R281, R428). -/
structure CtxCluster where
  pages : Nat                    -- scratchpad size of each core, in pages
  watch : SMap WatchEntry
  freed : Bool                   -- released (R428): what stands here is residue until the state is created again
  deriving DecidableEq, Repr, Inhabited

/-- A slice (R348, R350, R351, R358). -/
structure Slice where
  grid     : Nat
  ctx      : Nat
  core     : Nat
  number   : DWord
  entry    : Pc
  args     : List Word
  deadline : DWord
  budget   : Word
  budcnt   : Word
  expired  : Bool                -- its `BUDGET` trap has been raised since the counter was loaded (R350)
  lanes    : Nat
  warps    : Nat
  perGang  : Nat                 -- warps a gang level binds together; 0 with no gang level
  path     : List Nat            -- index at each level; the levels below the core level are 0 here
  unit     : List Nat            -- for each level, which unit of that level in the grid holds the slice
  spawned  : Bool
  cwa      : DWord
  dispatched : Bool
  left     : Nat                 -- warps not yet ended
  saved    : List Warp           -- warps saved by YIELDJ
  know     : List Nat            -- writes that happen before a spawned slice's dispatch and that a die has still to apply (R357)
  deriving DecidableEq, Repr, Inhabited

/-- How far a grid has come (R340, R346, R347). -/
inductive GridPhase where
  | waiting | placing | ended
  deriving DecidableEq, Repr, Inhabited

/-- A grid (R340 to R347). -/
structure Grid where
  queue    : Nat
  ctx      : Nat
  order    : Nat                 -- launch order
  record   : List Byte           -- the 384 bytes of the record copy
  deadline : DWord
  sta      : DWord
  phase    : GridPhase
  total    : Nat                 -- units to be placed one after another
  placed   : Nat                 -- those placed so far
  entry    : Nat                 -- index of its entry in the queue's ring
  dies     : List Nat            -- dies on which it has dispatched a warp
  deriving DecidableEq, Repr, Inhabited

/-- A row of a copy converted (R157): its destination bytes, its side stream, how many elements are counted once so many bytes are written (`marks`: bytes, elements;
empty where each byte counts), the largest finite magnitude, and the stop that ends it. -/
structure RowOut where
  bytes : List Byte
  side  : List Byte
  marks : List (Nat × Nat)
  maxabs : Nat
  stop  : Option (Nat × FaultInfo)
  deriving DecidableEq, Repr, Inhabited

/-- A copy in flight (R155 to R169). `desc` is the descriptor's 64 bytes. -/
structure Copy where
  ctx     : Nat
  core    : Nat
  slot    : Nat                  -- home slot of the issuing warp, 0x1F for the sequencer
  warp    : Nat
  grid    : Nat
  desc    : List Byte
  descAddr : DWord
  fslot   : List Byte            -- the format slot's 32 bytes
  mcast   : Bool
  rel     : Option Nat           -- scope of a release (R169)
  srcs    : List RelSrc          -- what its release carries beside its own writes
  promise : DWord
  watched : Bool
  since   : Nat                  -- stores of the warp before this sequence number precede the copy
  held    : Bool
  row     : Nat
  maxabs  : Word
  delivered : Nat                -- counted bytes delivered to each receiver
  told    : Nat                  -- rows whose arrivals a release no longer holds back (R169)
  ahead   : SMap Byte            -- bytes of the next row's source, by offset, that the engine has read already (R311)
  formed  : Option RowOut        -- the next row as converted, once a word of it has been written
  early   : List Nat             -- the words of it, by address / 4, that it has written already (R311)
  stop    : Option (Nat × FaultInfo × Nat)   -- status, cause and detail, row
  stepRow : Bool
  deriving DecidableEq, Repr, Inhabited

/-- A gather in flight (R119 to R127). -/
structure Gather where
  ctx     : Nat
  core    : Nat
  slot    : Nat
  warp    : Nat
  grid    : Nat
  desc    : List Byte
  descAddr : DWord
  fn      : Nat
  queue   : Option Nat
  since   : Nat
  bag     : Nat
  skip    : Nat
  dups    : Nat
  empty   : Nat
  out     : List Word            -- the last bag's words that the queue, or the scratchpad, has still to take
  ahead   : SMap Byte            -- bytes of the next bag's lists and rows, by address, that the engine has read already (R311)
  early   : List Nat             -- words of `out` that it has written to scratchpad already (R311)
  last    : Nat × Nat × Nat      -- what the bag read last added to `skip`, `dups` and `empty`
  stop    : Option (Nat × FaultInfo × Nat)
  deriving DecidableEq, Repr, Inhabited

/-- An arrival buffer (R264, R265): the 256 sums of 72 bits, arrivals accepted and added, and who has arrived. -/
structure ArrivalBuffer where
  sums     : List (BitVec 72)
  accepted : Nat
  count    : Nat
  senders  : List Nat            -- declarations whose arrival was accepted, by core
  cut      : Bool
  know     : List Nat            -- writes that happen before the `ASEND`s of its arrivals (R275)
  deriving DecidableEq, Repr, Inhabited

/-- A chain declaration (R266 to R280). `resv` is 0 none, 1 waiting, 2 held, 3 held toward a declaration since closed (R276), 4 held toward one since retired (R280). -/
structure Decl where
  core   : Nat
  warp   : Nat
  role   : Nat                   -- 1 source, 2 sink, 3 relay
  page   : Option Nat            -- the page of a paged hop
  hop    : Nat                   -- core of the next hop
  nrc    : Nat
  exp    : Nat
  resv   : Nat
  closed : Bool
  retired : Bool
  buffer : Option ArrivalBuffer
  deriving DecidableEq, Repr, Inhabited

/-- A chain of the directory: context, chain id, declarations in the order recorded, and whether a round is granted. -/
structure Chain where
  ctx     : Nat
  id      : Nat
  decls   : List Decl
  granted : Bool
  round   : Nat                  -- the identity of the round last granted
  deriving DecidableEq, Repr, Inhabited

/-- A request waiting at the chain directory (R268, R276). -/
structure DirRequest where
  warp  : Nat
  lane  : Nat
  ctx   : Nat
  core  : Nat
  pos   : Nat
  close : Bool
  chain : Nat
  decl  : Decl
  deriving DecidableEq, Repr, Inhabited

/-- A tile on the accumulate network (R272, R279): its header until the answer, then its data. -/
structure Tile where
  ctx    : Nat
  chain  : Nat
  src    : Nat                   -- sending core
  dst    : Nat
  warp   : Nat
  pos    : Nat
  vals   : List DWord
  accepted : Bool
  round  : Nat                   -- the round that accepted it
  held   : Bool                  -- sent by a commit
  know   : List Nat              -- writes that happen before its `ASEND` (R275)
  since  : Nat                   -- stores of the warp before this sequence number precede the arrival
  deriving DecidableEq, Repr, Inhabited

/-- A translation held in a TLB (R116 to R118): context, cluster, the core whose L1 TLB it is (none for the cluster's), the leaf's base address, size in
bytes, frame, the entry's bits, the level and address of the leaf. -/
structure TlbEntry where
  ctx     : Nat
  cluster : Nat
  core    : Option Nat
  base    : Nat
  size    : Nat
  frame   : Nat
  pte     : DWord
  level   : Nat
  leafAt  : Nat
  deriving DecidableEq, Repr, Inhabited

/-- A pointer entry that a die's page walkers hold (R117): context, the entry's level, the address bits above it, and the table it points to. -/
structure WalkEntry where
  die   : Nat
  ctx   : Nat
  level : Nat
  index : Nat
  table : Nat
  deriving DecidableEq, Repr, Inhabited

/-- A first-touch request at the memory manager (R113): the entry's address, level and bits, the requesting die. -/
structure TouchRequest where
  leafAt : Nat
  level  : Nat
  pte    : DWord
  die    : Nat
  ctx    : Nat
  refused : Bool
  deriving DecidableEq, Repr, Inhabited

/-- An event held by its source or in a ring (R400): the record's fields. -/
structure Event where
  type : Nat
  src  : Nat
  ctx  : Nat
  who  : Word
  pay  : List Byte               -- 16 bytes
  function : Option (Option Nat) -- once its context is retired, the function it was bound to, if any
  deriving DecidableEq, Repr, Inhabited

/-- An event arbiter and its ring (R400). -/
structure Arbiter where
  base  : Nat
  size  : Nat                    -- records the ring holds; 0 until the firmware sets it
  head  : Nat                    -- records written so far
  used  : Nat                    -- records not yet freed
  held  : SMap Event             -- events their sources hold, by number
  deriving DecidableEq, Repr, Inhabited

/-- A context (R109, R374, R384, R397). -/
structure Context where
  partition : Nat
  ptbase    : Nat
  priv      : Bool
  debug     : Bool
  hvec      : DWord
  function  : Option Nat
  halting   : List Nat           -- cores on which a pre-emption has stopped issue and waits to save (R386)
  halted    : List Nat           -- cores on which the context is pre-empted
  coreMap   : SMap Nat           -- core numbers the context saw before it was resumed elsewhere
  deriving DecidableEq, Repr, Inhabited

/-- A partition (R339, R397): its clusters (die * 18 + number), its weight-store window, its HBM frames. -/
structure Partition where
  clusters : List Nat
  frames   : List (Nat × Nat)    -- ranges of HBM frames: first frame, number
  wsBase   : Nat
  wsLimit  : Nat
  deriving DecidableEq, Repr, Inhabited

/-- A command queue (R390, R391): its registers, and what the firmware binds it to. -/
structure CmdQueue where
  bound : Bool
  partition : Nat
  function  : Nat                -- the PCIe function that owns it
  base  : Nat
  logSize : Nat
  tail  : Word
  head  : Word
  err   : Word
  deriving DecidableEq, Repr, Inhabited

/-- A pre-empted warp (R387): where it stood and what was saved. -/
structure SavedWarp where
  core : Nat
  pos  : Nat
  warp : Warp
  deriving DecidableEq, Repr, Inhabited

/-- A function's device-memory window (R392). -/
structure Window where
  base : Nat
  size : Nat
  deriving DecidableEq, Repr, Inhabited

/-- A mapping of the IOMMU (R393): device addresses from `base` on, `size` bytes, to physical addresses from `pa` on. -/
structure IoMapping where
  base : Nat
  size : Nat
  pa   : Nat
  deriving DecidableEq, Repr, Inhabited

/-- A claim on a loop (R139): die, loop, stop, and the cy for which the flit has waited. -/
structure Flit where
  die   : Nat
  loop  : Nat
  stop  : Nat
  waited : Nat
  claimed : Bool
  deriving DecidableEq, Repr, Inhabited

/-- An application core of the front-end die as an agent of the memory model (R300, R316): what its last load or atomic returned, and what orders its accesses. -/
structure AppCore where
  got      : List Byte
  know     : List Nat            -- writes that happen before its next access and that a die has still to apply
  seen     : List RelSrc         -- releases that its loads have read
  fenced   : Bool                -- a release fence makes its later writes releases
  deriving DecidableEq, Repr, Inhabited

/-- An access of an application core to HBM (R316): whether it is an acquire, and whether a release, at `.dev`. -/
inductive AppAccess where
  | load (pa bytes : Nat) (acq : Bool)
  | store (pa : Nat) (bytes : List Byte) (rel : Bool)
  | atomic (pa code operand : Nat) (acq rel : Bool)
  | fence (acq rel : Bool)
  deriving DecidableEq, Repr, Inhabited

/-- The warp and group whose word is being issued: core, position, whether the group is a handler group, and its place in the
warp's list of (handler) groups. -/
structure Cur where
  core : Nat
  pos  : Nat
  hand : Bool
  grp  : Nat
  deriving DecidableEq, Repr, Inhabited

/-- The machine below the firmware: memories, cores, engines, and what moves between them. -/
structure Mach where
  mem      : SMap Byte           -- HBM, host and pod memory by physical address
  poison   : SMap Word           -- poisoned 32-byte sectors, with the words written at L2 (R108, R131)
  l2       : SMap L2Sector       -- L2: sectors of HBM held there, by physical address / 32 (R128, R129)
  late     : List Late           -- writes that a die has still to apply, oldest first (R303)
  rels     : List RelTag         -- releases that an acquire may read, oldest first (R307)
  errors   : Nat                 -- correctable errors counted (R108)
  wstore   : List (SMap Byte)    -- weight store of each die (R175)
  windows  : SMap Nat            -- for each die * 16 + bank, the start of the refresh window in progress (R176)
  tlb      : List TlbEntry       -- newest first
  walks    : List WalkEntry      -- the page walkers' pointer entries (R117)
  touches  : SMap TouchRequest
  cores    : SMap Core           -- by die * 144 + number
  ctxCores : SMap CtxCore        -- by context * 512 + core
  ctxClusters : SMap CtxCluster  -- by context * 64 + cluster
  grids    : SMap Grid
  slices   : SMap Slice
  copies   : SMap Copy
  gathers  : SMap Gather
  chains   : SMap Chain          -- by context * 65536 + id
  dirQueue : List DirRequest
  tiles    : SMap Tile
  stores   : List Store          -- in the order of issue
  saved    : SMap (List SavedWarp)   -- by context
  flits    : SMap Flit
  arbiters : List Arbiter        -- die 0, die 1, front-end die
  msix     : SMap Nat            -- MSI-X messages sent, by function * 32 + vector
  queues   : SMap CmdQueue       -- by processor * 64 + queue
  apps     : SMap AppCore        -- the front-end die's application cores, by number
  cy       : Nat                 -- cycles of the arithmetic clock (R4)
  nextId   : Nat                 -- the next identity
  free     : Nat                 -- the next free value (Config)
  cur      : Option Cur
  deriving DecidableEq, Repr, Inhabited

/-- How far the boot has come (R398). -/
inductive BootPhase where
  | off | running | failed (code : Nat)
  deriving DecidableEq, Repr, Inhabited

/-- The operating modes (R402). -/
inductive Mode where
  | full | cool | steady
  deriving DecidableEq, Repr, Inhabited

/-- What moves next. The agenda is the model's stand-in for everything the spec leaves to arbitration, to the firmware and to
the world outside; each turn takes effect only where the spec enables it. -/
inductive Turn where
  | issue (core pos : Nat)                       -- the warp issues its next word
  | act (step : Instr)                           -- a step without an encoding
  | tick                                         -- one cycle of the arithmetic clock
  | loadOperands (core gang : Nat)               -- a term step's operands are loaded (R251)
  | evictL1 (core sector : Nat)                  -- replacement in L1 (R128)
  | evictTlb (index : Nat)                       -- replacement in a TLB (R116)
  | evictWalk (index : Nat)                      -- replacement in a page walker's cache (R117)
  | evictL2 (sector : Nat)                       -- replacement in L2 (R128, R131)
  | evictCode (core word : Nat)                  -- the oldest value of a fetched word is dropped (R315)
  | fetchAhead (core word : Nat)                 -- a core reads an instruction word ahead of its run (R315)
  | appCore (core : Nat) (access : AppAccess)    -- an application core's access to HBM, or its fence (R316)
  | readAgain (core pos op lane : Nat)           -- a plain load that is still to return reads in a lane (R302, R304)
  | fillL1 (core sector : Nat)                   -- a plain read of a sector ahead of its load, into L1 (R134, R304)
  | engineRead (engine place : Nat)              -- a copy or gather reads a word ahead of its row or bag (R311)
  | engineWrite (engine word : Nat)              -- it writes a word ahead of the others of its row or bag (R311)
  | storeWord (warp word : Nat)                  -- a word of a publication's write is performed ahead of the others (R311)
  | apply (write : Nat)                          -- a die applies a write (R303)
  | setFlash (bytes : List Byte)                 -- what the boot flash holds
  | setPartition (number : Nat) (p : Partition)  -- trusted firmware (R397)
  | setContext (id : Nat) (c : Context)          -- trusted firmware (R397)
  | setDebug (id : Nat) (on : Bool)              -- firmware (R384 HSTAT[1])
  | retireContext (id : Nat)                     -- firmware
  | setQueue (queue : Nat) (q : CmdQueue)        -- trusted firmware (R390)
  | setRing (arbiter base size : Nat)            -- untrusted firmware (R400)
  | setPodSlot (slot accelerator : Nat)          -- firmware's pod table (R394)
  | setWindow (function : Nat) (w : Window)      -- firmware (R392)
  | setHostBase (base : Nat)                     -- firmware: where host memory begins for the package (R392)
  | setIommu (function : Nat) (ms : List IoMapping)   -- untrusted firmware's IOMMU mappings (R393)
  | loadSections (partition offset : Nat) (bytes : List Byte)   -- the firmware writes an image's weight-store sections (R91)
  | ownPodSlot (slot : Nat)                      -- the package's own slot (R394)
  | outside (addr : Nat) (bytes : List Byte)     -- an owner's agents write host, device or pod memory (R389, R394)
  | flit (die loop stop : Nat)                   -- a flit waits to enter a loop (R139)
  | enter (flit : Nat)                           -- a waiting flit enters its loop
  deriving DecidableEq, Repr, Inhabited

/-- The state of the package. `m` is everything below the firmware; the fields above it are set by boot, the firmware, the
clock and the agenda. -/
structure State where
  boot       : BootPhase
  flash      : List Byte          -- the boot flash: configuration record, signature, trusted firmware (R398)
  mode       : Mode
  counter    : DWord              -- the package cycle counter (R5)
  thirteenths : Nat               -- of a count, in cool mode (R5)
  partitions : SMap Partition
  contexts   : SMap Context
  pod        : SMap Nat           -- the pod table: slot to accelerator id
  ownSlot    : Option Nat         -- the package's own slot
  bars       : SMap Window        -- BAR2 windows by function (R392)
  iommu      : SMap (List IoMapping)   -- IOMMU mappings by device (R393)
  hostBase   : Nat                -- set by the firmware (R392)
  agenda     : List Turn
  turn       : Nat
  m          : Mach
  deriving DecidableEq, Repr, Inhabited

/-- Why a step stops with a fault. -/
inductive Fault where
  /-- Raised by every meaning of an instruction word when no warp is issuing (`Mach.cur` names none): a word is not executed
  outside a run. Safe: the hardware has no such step. -/
  | noWarp
  deriving DecidableEq, Repr

/-- Why a step is refused. -/
inductive Refusal where
  /-- Raised only by the dispatcher, for an instruction that has no meaning yet. Safe. -/
  | notModelled (mnemonic : String)
  deriving DecidableEq, Repr

/-- An arbiter before the firmware sets its ring (R400). -/
def Arbiter.fresh : Arbiter := { base := 0, size := 0, head := 0, used := 0, held := [] }

/-- The machine after package reset: nothing resident, nothing in flight; the counter stands at 0, so that banks 0 and 1 of each die are in their refresh
windows (R176). -/
def Mach.reset : Mach :=
  { mem := [], poison := [], l2 := [], late := [], rels := [], errors := 0, wstore := [[], []], windows := [(0, 0), (1, 0), (16, 0), (17, 0)], tlb := [], walks := [], touches := [], cores := [], ctxCores := []
    ctxClusters := [], grids := [], slices := [], copies := [], gathers := [], chains := [], dirQueue := [], tiles := [], stores := []
    saved := [], flits := [], arbiters := [.fresh, .fresh, .fresh], msix := [], queues := [], apps := [], cy := 0, nextId := 1, free := 0, cur := none }

/-- The package right after reset: not booted, nothing bound by the firmware (R388, R398). The values the spec does not give
are those of the log entries 1 to 3. -/
def State.reset : State :=
  { boot := .off, flash := [], mode := .full, counter := 0, thirteenths := 0, partitions := [], contexts := [], pod := []
    ownSlot := none, bars := [], iommu := [], hostBase := 0, agenda := [], turn := 0, m := .reset }

end Sys2Proof.Machine
end

