-- ==== Sys2Proof/Machine/Maps.lean ====
section
/-! DEFINITION. The operations on maps by number, the accessors of State's parts, and lane masks. A map keeps its keys in
rising order; `mput` also keeps out the value that an absent key reads as, so that equal maps are equal lists. -/

namespace Sys2Proof.Machine

/-- The value at a key. -/
def mget {α : Type} : SMap α → Nat → Option α
  | [], _ => none
  | (k', v) :: t, k => if k = k' then some v else mget t k

/-- The value at a key, or a default. -/
def mgetD {α : Type} (m : SMap α) (k : Nat) (d : α) : α := (mget m k).getD d

/-- The map with a key set. -/
def mset {α : Type} : SMap α → Nat → α → SMap α
  | [], k, v => [(k, v)]
  | (k', v') :: t, k, v => if k = k' then (k, v) :: t else if k < k' then (k, v) :: (k', v') :: t else (k', v') :: mset t k v

/-- The map without a key. -/
def mdel {α : Type} : SMap α → Nat → SMap α
  | [], _ => []
  | (k', v') :: t, k => if k = k' then mdel t k else (k', v') :: mdel t k

/-- The map with a key set to a value, where absent keys read as `d`. -/
def mput {α : Type} [DecidableEq α] (d : α) (m : SMap α) (k : Nat) (v : α) : SMap α := if v = d then mdel m k else mset m k v

/-- The map with the value at a key changed, if there is one. -/
def madj {α : Type} (m : SMap α) (k : Nat) (f : α → α) : SMap α :=
  match mget m k with
  | some v => mset m k (f v)
  | none => m

/-- The keys of a map. -/
def mkeys {α : Type} (m : SMap α) : List Nat := m.map (·.1)
/-- The values of a map. -/
def mvals {α : Type} (m : SMap α) : List α := m.map (·.2)

/-- Rising keys. -/
def msorted {α : Type} : SMap α → Bool
  | [] => true
  | [_] => true
  | (k, _) :: (k', v') :: t => k < k' && msorted ((k', v') :: t)

/-- The canonical form of a byte memory: rising addresses, and no entry equal to what an unlisted address reads as (0, log 3). -/
def Memory.wf (m : SMap Byte) : Bool := msorted m && m.all (fun e => e.2 != 0)

/-- What an unlisted address reads as (log 3). -/
def unlistedByte : Byte := 0

/-- The byte at an address. -/
def readByte (m : SMap Byte) (a : Nat) : Byte := mgetD m a unlistedByte
/-- The memory with one byte written. -/
def writeByte (m : SMap Byte) (a : Nat) (b : Byte) : SMap Byte := mput unlistedByte m a b
/-- `n` bytes from an address up. -/
def readBytes (m : SMap Byte) : Nat → Nat → List Byte
  | _, 0 => []
  | a, n + 1 => readByte m a :: readBytes m (a + 1) n
/-- The memory with bytes written from an address up. -/
def writeBytes : SMap Byte → Nat → List Byte → SMap Byte
  | m, _, [] => m
  | m, a, b :: bs => writeBytes (writeByte m a b) (a + 1) bs

/-- The lanes of a mask, in ascending order. -/
def maskLanes (m : Word) : List Nat := (List.range 32).filter (fun l => m.getLsbD l)
/-- The mask with one lane. -/
def laneBit (l : Nat) : Word := BitVec.ofNat 32 (2 ^ l)
/-- The mask of a list of lanes. -/
def maskOf (ls : List Nat) : Word := ls.foldl (fun m l => m ||| laneBit l) 0
/-- The lowest lane of a mask (0 for the empty mask). -/
def lowLane (m : Word) : Nat := (maskLanes m).headD 0
/-- Whether a lane is in a mask. -/
def inMask (m : Word) (l : Nat) : Bool := m.getLsbD l

/-- An element put into a list sorted by a measure, after its equals. -/
def insertBy {α : Type} (f : α → Nat) (x : α) : List α → List α
  | [] => [x]
  | y :: ys => if f x < f y then x :: y :: ys else y :: insertBy f x ys

/-- A list sorted by a measure, equals in their order. -/
def sortBy {α : Type} (f : α → Nat) (xs : List α) : List α := xs.foldl (fun acc x => insertBy f x acc) []

/-- Element `i` of a list replaced. -/
def setAt {α : Type} (xs : List α) (i : Nat) (x : α) : List α := xs.set i x

/-- The register value that reads 0 in every lane. -/
def zeroVec : LaneVec := List.replicate 32 0

/-- The lanes of `mask` of a register replaced by the values of `f`. -/
def mergeVec (old : LaneVec) (mask : Word) (f : Nat → Word) : LaneVec :=
  (List.range 32).map (fun l => if inMask mask l then f l else old.getD l 0)

/-- A lane of a register value. -/
def laneOf (v : LaneVec) (l : Nat) : Word := v.getD l 0

/-! Fresh parts: what an absent key stands for. -/

/-- A core with nothing resident. -/
def Core.fresh : Core :=
  { warps := [], active := [], pending := [], registrar := [], sliceCount := 0, gangs := [], arrays := [], l1 := [], code := [], leaving := []
    issued := [], lastIssue := [] }

/-- An empty mailbox holding 0 (R191). -/
def Mailbox.fresh : Mailbox := { value := 0, full := false, know := [], readers := [], writers := [] }
/-- An unbound, empty queue with its counter at 0 (R194). -/
def Queue.fresh : Queue := { entries := [], kind := 0, arg := 0, drops := 0, readers := [] }
/-- A stopped sequencer with an empty table (R360). -/
def Sequencer.fresh : Sequencer :=
  { table := [], regs := List.replicate 16 0, counters := List.replicate 4 0, cini := List.replicate 4 0, smv := none, current := 0
    running := false, phase := 0, stopping := none, grid := 0, sweep := none, remote := none
    know := [], seen := [], fenceRel := [] }

/-- A command queue that the firmware has not bound: its registers stand at 0 (R391). -/
def CmdQueue.fresh : CmdQueue := { bound := false, partition := 0, function := 0, base := 0, logSize := 4, tail := 0, head := 0, err := 0 }
/-- A command queue's registers and binding. -/
def Mach.queue (m : Mach) (q : Nat) : CmdQueue := mgetD m.queues q .fresh

/-- A context's state on one core as R428 creates it. -/
def CtxCore.fresh : CtxCore :=
  { spad := [], poisoned := [], pins := [], mailboxes := List.replicate 16 .fresh, queues := List.replicate 8 .fresh, sfq := []
    seq := .fresh, rounds := [], signals := [] }

/-- A thread position that holds no thread. -/
def Thread.none : Thread :=
  { status := .empty, depth := 0, record := Option.none, rpc := 0, hs0 := 0, hs1 := 0, entered := false }

/-- The key of a context's state on a core. -/
def ccKey (ctx core : Nat) : Nat := ctx * 512 + core
/-- The cluster of a core: die * 18 + number (R339). -/
def clusterOf (core : Nat) : Nat := (core / 144) * 18 + core % 144 / 8
/-- The die of a core. -/
def dieOf (core : Nat) : Nat := core / 144
/-- The key of a context's state in a cluster. -/
def clKey (ctx cluster : Nat) : Nat := ctx * 64 + cluster
/-- The core that a selector names from a core's cluster (R171, R339). -/
def peerCore (core sel : Nat) : Nat := core / 8 * 8 + sel % 8

def Mach.core (m : Mach) (k : Nat) : Core := mgetD m.cores k .fresh
def Mach.setCore (m : Mach) (k : Nat) (c : Core) : Mach := { m with cores := mset m.cores k c }
def Mach.adjCore (m : Mach) (k : Nat) (f : Core → Core) : Mach := m.setCore k (f (m.core k))

def Mach.warp? (m : Mach) (core pos : Nat) : Option Warp := mget (m.core core).warps pos
def Mach.setWarp (m : Mach) (core pos : Nat) (w : Warp) : Mach := m.adjCore core (fun c => { c with warps := mset c.warps pos w })
def Mach.adjWarp (m : Mach) (core pos : Nat) (f : Warp → Warp) : Mach :=
  match m.warp? core pos with
  | some w => m.setWarp core pos (f w)
  | none => m

def Mach.ctxCore (m : Mach) (ctx core : Nat) : CtxCore := mgetD m.ctxCores (ccKey ctx core) .fresh
def Mach.setCtxCore (m : Mach) (ctx core : Nat) (c : CtxCore) : Mach := { m with ctxCores := mset m.ctxCores (ccKey ctx core) c }
def Mach.adjCtxCore (m : Mach) (ctx core : Nat) (f : CtxCore → CtxCore) : Mach := m.setCtxCore ctx core (f (m.ctxCore ctx core))

/-- A cluster in which a context holds no state. -/
def CtxCluster.none : CtxCluster := { pages := 0, watch := [], freed := true }
/-- What a context holds in a core's cluster: nothing once it is released (R428). -/
def Mach.ctxCluster (m : Mach) (ctx core : Nat) : CtxCluster :=
  let c := mgetD m.ctxClusters (clKey ctx (clusterOf core)) .none
  if c.freed then .none else c
def Mach.adjCtxCluster (m : Mach) (ctx core : Nat) (f : CtxCluster → CtxCluster) : Mach :=
  { m with ctxClusters := madj m.ctxClusters (clKey ctx (clusterOf core)) (fun c => if c.freed then c else f c) }
/-- Whether a context holds state in a cluster (R428). -/
def Mach.holdsCluster (m : Mach) (ctx cl : Nat) : Bool := (mget m.ctxClusters (clKey ctx cl)).any (fun c => !c.freed)

/-- Every resident warp: core, position, warp. -/
def Mach.allWarps (m : Mach) : List (Nat × Nat × Warp) :=
  m.cores.flatMap (fun c => c.2.warps.map (fun w => (c.1, w.1, w.2)))

/-- Where the warp of an identity is resident. -/
def Mach.findWarp (m : Mach) (uid : Nat) : Option (Nat × Nat × Warp) := m.allWarps.find? (fun e => e.2.2.uid == uid)

/-- A fresh identity. -/
def Mach.newId (m : Mach) : Nat × Mach := (m.nextId, { m with nextId := m.nextId + 1 })

/-- A context's attributes. -/
def State.ctx (s : State) (id : Nat) : Context :=
  mgetD s.contexts id
    { partition := 0, ptbase := 0, priv := false, debug := false, hvec := 0, function := none, halting := [], halted := [], coreMap := [] }

/-- The partition of a context. -/
def State.partitionOf (s : State) (ctx : Nat) : Partition :=
  mgetD s.partitions (s.ctx ctx).partition { clusters := [], frames := [], wsBase := 0, wsLimit := 0 }

/-- Whether a core lies in a context's partition (R339). -/
def State.coreInPartition (s : State) (ctx core : Nat) : Bool := (s.partitionOf ctx).clusters.contains (clusterOf core) && core < 288

/-- Whether a context neither issues nor starts anything on a core: it is pre-empted there, or is about to be (R386). -/
def State.stopped (s : State) (ctx core : Nat) : Bool := (s.ctx ctx).halting.contains core || (s.ctx ctx).halted.contains core

/-- A meaning that changes only what lies below the firmware. -/
def State.withM (s : State) (m : Mach) : State := { s with m := m }

end Sys2Proof.Machine
end

