-- ==== Sys2Proof/Machine/Float.lean ====
section
/-! DEFINITION. The floating-point forms of the lane units (R14 to R17) as exact dyadic values with one rounding, and the special
functions of R217. -/

namespace Sys2Proof.Machine

/-- A floating-point form (R14): fraction bits, exponent bits, bias. -/
structure Fmt where
  frac : Nat
  expo : Nat
  bias : Nat
  deriving DecidableEq, Repr

/-- binary32. -/
def fp32 : Fmt := { frac := 23, expo := 8, bias := 127 }
/-- binary16. -/
def fp16 : Fmt := { frac := 10, expo := 5, bias := 15 }
/-- BF16. -/
def bf16 : Fmt := { frac := 7, expo := 8, bias := 127 }

/-- The value of a floating-point pattern: NaN, a signed infinity, or a signed magnitude times a power of two. -/
inductive Fl where
  | nan
  | inf (neg : Bool)
  | fin (neg : Bool) (mag : Nat) (exp : Int)
  deriving DecidableEq, Repr

/-- The pattern of an infinity. -/
def Fmt.infBits (f : Fmt) (neg : Bool) : Nat := (if neg then 2 ^ (f.expo + f.frac) else 0) + (2 ^ f.expo - 1) * 2 ^ f.frac
/-- The canonical quiet NaN (R15). -/
def Fmt.nanBits (f : Fmt) : Nat := (2 ^ f.expo - 1) * 2 ^ f.frac + 2 ^ (f.frac - 1)

/-- The value of a pattern (R14). -/
def Fmt.decode (f : Fmt) (x : Nat) : Fl :=
  let neg := natBits x (f.expo + f.frac) 1 == 1
  let e := natBits x f.frac f.expo
  let m := natBits x 0 f.frac
  if e = 2 ^ f.expo - 1 then (if m = 0 then .inf neg else .nan)
  else if e = 0 then .fin neg m (1 - f.bias - f.frac : Int)
  else .fin neg (m + 2 ^ f.frac) ((e : Int) - f.bias - f.frac)

/-- A natural number times a power of two, where the power may be negative: numerator and denominator. -/
def scalePow (num den : Nat) (e : Int) : Nat × Nat := if 0 ≤ e then (num * 2 ^ e.toNat, den) else (num, den * 2 ^ (-e).toNat)

/-- The rounding of a fraction to a natural number, to nearest, ties to even. -/
def rneDiv (num den : Nat) : Nat :=
  let q := num / den
  let r := num % den
  if 2 * r > den ∨ (2 * r = den ∧ q % 2 = 1) then q + 1 else q

/-- The rounding of an integer fraction to an integer, to nearest, ties to even. -/
def rneInt (num : Int) (den : Nat) : Int := if num < 0 then -(rneDiv num.natAbs den : Int) else rneDiv num.natAbs den

/-- The exponent k of a positive fraction times a power of two: 2^k is at most its value, which is below 2^(k+1). -/
def leadExp (num den : Nat) (e : Int) : Int :=
  let t : Int := (Nat.log2 num : Int) - Nat.log2 den
  let (n, d) := scalePow num den (-t)
  e + (if d ≤ n then t else t - 1)

/-- The pattern nearest to ± num/den × 2^e, ties to even (R14, R16): one rounding of the exact value. -/
def Fmt.roundRat (f : Fmt) (neg : Bool) (num den : Nat) (e : Int) : Nat :=
  let sign := if neg then 2 ^ (f.expo + f.frac) else 0
  if num = 0 then sign
  else
    let k := leadExp num den e
    let u := max (k - f.frac) (1 - f.bias - f.frac : Int)
    let (n, d) := scalePow num den (e - u)
    let mant := rneDiv n d
    let bits : Nat := if mant < 2 ^ f.frac then mant else ((u + f.frac + f.bias).toNat) * 2 ^ f.frac + (mant - 2 ^ f.frac)
    sign + min bits ((2 ^ f.expo - 1) * 2 ^ f.frac)

/-- The pattern of a value, rounded once (R15, R16). -/
def Fmt.round (f : Fmt) : Fl → Nat
  | .nan => f.nanBits
  | .inf neg => f.infBits neg
  | .fin neg m e => f.roundRat neg m 1 e

/-- A dyadic value as an integer times a power of two. -/
def Fl.signed (neg : Bool) (m : Nat) : Int := if neg then -(m : Int) else m

/-- The exact sum (R213): an exact zero is +0 unless both addends are −0. -/
def Fl.add : Fl → Fl → Fl
  | .nan, _ => .nan
  | _, .nan => .nan
  | .inf a, .inf b => if a = b then .inf a else .nan
  | .inf a, _ => .inf a
  | _, .inf b => .inf b
  | .fin na ma ea, .fin nb mb eb =>
    let e := min ea eb
    let x := Fl.signed na ma * 2 ^ (ea - e).toNat + Fl.signed nb mb * 2 ^ (eb - e).toNat
    if x = 0 then .fin (na && nb) 0 e else .fin (x < 0) x.natAbs e

/-- The negation. -/
def Fl.neg : Fl → Fl
  | .nan => .nan
  | .inf a => .inf (!a)
  | .fin n m e => .fin (!n) m e

/-- The exact product. -/
def Fl.mul : Fl → Fl → Fl
  | .nan, _ => .nan
  | _, .nan => .nan
  | .inf a, .inf b => .inf (a != b)
  | .inf a, .fin nb mb _ => if mb = 0 then .nan else .inf (a != nb)
  | .fin na ma _, .inf b => if ma = 0 then .nan else .inf (na != b)
  | .fin na ma ea, .fin nb mb eb => .fin (na != nb) (ma * mb) (ea + eb)

/-- Order of two finite or infinite values: none when a NaN takes part. -/
def Fl.cmp : Fl → Fl → Option Ordering
  | .nan, _ => none
  | _, .nan => none
  | .inf a, .inf b => some (if a = b then .eq else if a then .lt else .gt)
  | .inf a, _ => some (if a then .lt else .gt)
  | _, .inf b => some (if b then .gt else .lt)
  | .fin na ma ea, .fin nb mb eb =>
    let e := min ea eb
    some (compare (Fl.signed na ma * 2 ^ (ea - e).toNat) (Fl.signed nb mb * 2 ^ (eb - e).toNat))

/-- The sign bit of a value that is not NaN. -/
def Fl.isNeg : Fl → Bool
  | .nan => false
  | .inf n => n
  | .fin n _ _ => n

/-- The small immediates and integers as floating-point values (R56). -/
def Fl.ofInt (x : Int) : Fl := .fin (x < 0) x.natAbs 0

/-- An addition of patterns, rounded once. -/
def Fmt.add (f : Fmt) (a b : Nat) : Nat := f.round ((f.decode a).add (f.decode b))
/-- A subtraction of patterns, rounded once. -/
def Fmt.sub (f : Fmt) (a b : Nat) : Nat := f.round ((f.decode a).add (f.decode b).neg)
/-- A multiplication of patterns, rounded once. -/
def Fmt.mul (f : Fmt) (a b : Nat) : Nat := f.round ((f.decode a).mul (f.decode b))
/-- A fused multiply-add of patterns: exact product and sum, one rounding. -/
def Fmt.fma (f : Fmt) (a b d : Nat) : Nat := f.round (((f.decode a).mul (f.decode b)).add (f.decode d))

/-- The IEEE 754 minimumNumber or maximumNumber (R214): −0 below +0, a NaN passed over, two NaNs give the canonical NaN. -/
def Fmt.minmax (f : Fmt) (wantMax : Bool) (d a : Nat) : Nat :=
  let x := f.decode d
  let y := f.decode a
  match x.cmp y with
  | none => if x = .nan then (if y = .nan then f.nanBits else f.round y) else f.round x
  | some .lt => f.round (if wantMax then y else x)
  | some .gt => f.round (if wantMax then x else y)
  | some .eq => f.round (if x.isNeg then (if wantMax then y else x) else (if wantMax then x else y))

/-- A comparison of FP32 patterns (R210): a NaN operand gives false. -/
def fcmp (p : Ordering → Bool) (a b : Nat) : Bool := ((fp32.decode a).cmp (fp32.decode b)).elim false p

/-- The class mask of a pattern (R215). -/
def Fmt.classMask (f : Fmt) (x : Nat) : Nat :=
  match f.decode x with
  | .nan => 2 ^ 8
  | .inf true => 2 ^ 0
  | .inf false => 2 ^ 7
  | .fin neg m _ =>
    if m = 0 then (if neg then 2 ^ 3 else 2 ^ 4)
    else if m < 2 ^ f.frac then (if neg then 2 ^ 2 else 2 ^ 5)
    else if neg then 2 ^ 1 else 2 ^ 6

/-- A conversion between forms, rounded once (R16). -/
def convertFloat (src dst : Fmt) (x : Nat) : Nat := dst.round (src.decode x)

/-- The rounding of a finite value to an integer, to nearest, ties to even. -/
def Fl.toInt : Fl → Int
  | .fin neg m e => let (n, d) := scalePow m 1 e; rneInt (Fl.signed neg n) d
  | _ => 0

/-- FP32 to a 32-bit integer, saturated to a range (R216): infinities saturate, NaN gives 0. -/
def floatToInt (lo hi : Int) (x : Nat) : Int :=
  match fp32.decode x with
  | .nan => 0
  | .inf neg => if neg then lo else hi
  | v => clampInt lo hi v.toInt

/-- The rounding of num/den (den > 0) to an integer under a slot's RND (R37): 0 to nearest even, 1 toward zero, 2 toward −∞, 3
toward +∞. -/
def roundMode (rnd : Nat) (num : Int) (den : Nat) : Int :=
  match rnd with
  | 1 => Int.tdiv num den
  | 2 => Int.fdiv num den
  | 3 => -(Int.fdiv (-num) den)
  | _ => rneInt num den

/-! The special functions (R217). -/

/-- The integer square root of `n`, found bit by bit from bit `k` down. -/
def isqrtFrom : Nat → Nat → Nat → Nat
  | 0, root, n => if (root + 1) * (root + 1) ≤ n then root + 1 else root
  | k + 1, root, n => isqrtFrom k (if (root + 2 ^ (k + 1)) * (root + 2 ^ (k + 1)) ≤ n then root + 2 ^ (k + 1) else root) n

/-- The integer square root. -/
def isqrt (n : Nat) : Nat := isqrtFrom (Nat.log2 n / 2 + 1) 0 n

/-- The square root of m × 2^e with at least 60 bits, and a sticky last bit: twice the root plus 1 when it is not exact. -/
def sqrtSticky (m : Nat) (e : Int) : Nat × Int :=
  let odd := e % 2 != 0
  let m := (if odd then 2 * m else m) * 2 ^ 128
  let e := (if odd then e - 1 else e) - 128
  let root := isqrt m
  (2 * root + (if root * root = m then 0 else 1), e / 2 - 1)

/-- Fraction bits of the references below. -/
def refBits : Nat := 420
/-- ln 2 × 2^420. -/
def ln2Ref : Nat := 0xb17217f7d1cf79abc9e3b39803f2f6af40f343267298b62d8a0d175b8baafa2be7b876206debac98559552fb4afa1b10ed2eae35c13821 / 2 ^ 20
/-- π × 2^560. -/
def piRef : Nat := 0x3243f6a8885a308d313198a2e03707344a4093822299f31d0082efa98ec4e6c89452821e638d01377be5466cf34e90c6cc0ac29b7c97c50dd3f84d5b5b54709179216d5d98979

/-- A series Σ t_k, where t_(k+1) = t_k × x / 2^420 / (k+1): the exponential of x × 2^(−420), x below 2^421. -/
def expSeries : Nat → Nat → Nat → Nat → Nat
  | 0, _, _, _ => 0
  | n + 1, k, term, x => term + expSeries n (k + 1) (term * x / 2 ^ refBits / (k + 1)) x

/-- e^(x × 2^(−420)) × 2^420 for x below 2^421. -/
def expFix (x : Nat) : Nat := expSeries 160 0 (2 ^ refBits) x

/-- atanh(z × 2^(−420)) × 2^420, for z at most 2^420 / 3: Σ z^(2k+1) / (2k+1). -/
def atanhSeries : Nat → Nat → Nat → Nat → Nat
  | 0, _, _, _ => 0
  | n + 1, k, pow, z => pow / (2 * k + 1) + atanhSeries n (k + 1) (pow * z / 2 ^ refBits * z / 2 ^ refBits) z

/-- Alternating series for sine (first power) and cosine (unit), x below 2^420. -/
def trigSeries : Nat → Nat → Int → Nat → Int
  | 0, _, _, _ => 0
  | n + 1, k, term, x => term + trigSeries n (k + 2) (-(term * x / 2 ^ refBits * x / 2 ^ refBits / ((k + 1) * (k + 2)))) x

/-- A reference value: sign and magnitude in units of 2^e. -/
structure Ref where
  neg : Bool
  mag : Nat
  exp : Int
  deriving Repr

/-- The results within `n` units in the last place of a reference, as FP32 patterns: the correctly rounded pattern and its neighbours whose distance from the reference
is at most n ulp of the reference. Below a power of two the patterns lie half a unit apart. -/
def admissible (n : Nat) (r : Ref) : List Nat :=
  let c := fp32.roundRat false r.mag 1 r.exp
  let u := max (leadExp r.mag 1 r.exp - 23) (-149)
  let low := min u r.exp
  let scaled := r.mag * 2 ^ (r.exp - low).toNat
  let ok := fun (bits : Nat) => match fp32.decode bits with
    | .fin _ m e =>
      let l := min low e
      let d := ((m * 2 ^ (e - l).toNat : Nat) : Int) - ((scaled * 2 ^ (low - l).toNat : Nat) : Int)
      d.natAbs ≤ n * 2 ^ (u - l).toNat
    | .inf _ => bits = c
    | .nan => false
  let near := (List.range (4 * n + 1)).filterMap (fun i => if 2 * n ≤ c + i then some (c + i - 2 * n) else none)
  ((near.filter ok).map (fun b => if r.neg then b + 2 ^ 31 else b))

/-- One of the admissible results, chosen by a free value of the operand (log 12). -/
def chooseResult (pick : Nat) (rs : List Nat) : Nat := rs.getD (pick % rs.length) 0x7FC00000

/-- 1/a, correctly rounded. -/
def frcp (a : Nat) : Nat :=
  match fp32.decode a with
  | .nan => fp32.nanBits
  | .inf n => if n then 0x80000000 else 0
  | .fin n m e => if m = 0 then fp32.infBits n else fp32.roundRat n 1 m (-e)

/-- √a, correctly rounded. -/
def fsqrt (a : Nat) : Nat :=
  match fp32.decode a with
  | .nan => fp32.nanBits
  | .inf n => if n then fp32.nanBits else fp32.infBits false
  | .fin n m e =>
    if m = 0 then (if n then 0x80000000 else 0)
    else if n then fp32.nanBits
    else let (r, k) := sqrtSticky m e; fp32.roundRat false r 1 k

/-- 1/√a within 1 ulp. -/
def frsq (a : Nat) : Nat :=
  match fp32.decode a with
  | .nan => fp32.nanBits
  | .inf n => if n then fp32.nanBits else 0
  | .fin n m e =>
    if m = 0 then fp32.infBits n
    else if n then fp32.nanBits
    else
      let (r, k) := sqrtSticky m e
      -- 1 / (r 2^k) = (2^200 / r) 2^(-k-200)
      chooseResult (Config.sfuRsq (BitVec.ofNat 32 a)) (admissible 1 { neg := false, mag := 2 ^ 200 / r, exp := -k - 200 })

/-- 2^a within 2 ulp, exact for an integer argument. -/
def fexp2 (a : Nat) : Nat :=
  match fp32.decode a with
  | .nan => fp32.nanBits
  | .inf n => if n then 0 else fp32.infBits false
  | .fin n m e =>
    let (num, den) := scalePow m 1 e
    let x := Fl.signed n num
    let whole := Int.fdiv x den
    if Int.fmod x den = 0 then fp32.roundRat false 1 1 (clampInt (-400) 400 whole)
    else if 200 < whole then fp32.infBits false
    else if whole < -200 then chooseResult (Config.sfuExp2 (BitVec.ofNat 32 a)) [0, 1, 2]
    else
      let frac := (Int.fmod x den).toNat * 2 ^ refBits / den
      let v := expFix (frac * ln2Ref / 2 ^ refBits)
      chooseResult (Config.sfuExp2 (BitVec.ofNat 32 a)) (admissible 2 { neg := false, mag := v, exp := whole - refBits })

/-- log2 a within 2 ulp, exact for an exact power of two. -/
def flog2 (a : Nat) : Nat :=
  match fp32.decode a with
  | .nan => fp32.nanBits
  | .inf n => if n then fp32.nanBits else fp32.infBits false
  | .fin n m e =>
    if m = 0 then fp32.infBits true
    else if n then fp32.nanBits
    else
      let k := Nat.log2 m
      let whole : Int := e + k
      if m = 2 ^ k then fp32.round (Fl.ofInt whole)
      else
        -- m / 2^k lies in (1, 2); log2 = 2 atanh((m - 2^k) / (m + 2^k)) / ln 2
        let z := (m - 2 ^ k) * 2 ^ refBits / (m + 2 ^ k)
        let l := 2 * atanhSeries 160 0 z z * 2 ^ refBits / ln2Ref
        let t : Int := whole * 2 ^ refBits + l
        chooseResult (Config.sfuLog2 (BitVec.ofNat 32 a)) (admissible 2 { neg := t < 0, mag := t.natAbs, exp := -(refBits : Int) })

/-- sin (quarter 0) or cos (quarter 1) of a finite magnitude m × 2^e, as a reference: the argument is reduced by π/2 with π to 560
fraction bits. -/
def trigRef (quarter : Nat) (m : Nat) (e : Int) : Ref :=
  -- x = m 2^e in units of 2^-560 (e is at least -149 and at most 104)
  let x := m * 2 ^ (e + 560).toNat
  -- the half pi in the same units is piRef / 2; a multiple q of it is q piRef / 2
  let half := piRef / 2
  let q := x / half
  let r := (x % half) / 2 ^ (560 - refBits)
  let h := half / 2 ^ (560 - refBits)
  let k := (q + quarter) % 4
  -- quadrants: sin r, cos r, -sin r, -cos r; cosine as the sine of the complement
  let y := if k % 2 = 0 then r else h - r
  let s := trigSeries 120 1 y y
  { neg := k ≥ 2, mag := s.natAbs, exp := -(refBits : Int) }

/-- sin a within 2 ulp. -/
def fsin (a : Nat) : Nat :=
  match fp32.decode a with
  | .nan => fp32.nanBits
  | .inf _ => fp32.nanBits
  | .fin n m e =>
    if m = 0 then (if n then 0x80000000 else 0)
    else
      let r := trigRef 0 m e
      chooseResult (Config.sfuSin (BitVec.ofNat 32 a)) (admissible 2 { r with neg := r.neg != n })

/-- cos a within 2 ulp. -/
def fcos (a : Nat) : Nat :=
  match fp32.decode a with
  | .nan => fp32.nanBits
  | .inf _ => fp32.nanBits
  | .fin _ m e =>
    if m = 0 then 0x3F800000
    else chooseResult (Config.sfuCos (BitVec.ofNat 32 a)) (admissible 2 (trigRef 1 m e))

/-- tanh a within 2 ulp. -/
def ftanh (a : Nat) : Nat :=
  match fp32.decode a with
  | .nan => fp32.nanBits
  | .inf n => if n then 0xBF800000 else 0x3F800000
  | .fin n m e =>
    if m = 0 then (if n then 0x80000000 else 0)
    else
      -- t = 2|a| in units of 2^-420, held at 2^7: past it tanh is 1 to far below an ulp
      let t := min (m * 2 ^ (e + 1 + refBits).toNat) (2 ^ (refBits + 7))
      let k := t / ln2Ref
      let ex := expFix (t % ln2Ref) * 2 ^ k
      let v := (ex - 2 ^ refBits) * 2 ^ refBits / (ex + 2 ^ refBits)
      chooseResult (Config.sfuTanh (BitVec.ofNat 32 a)) (admissible 2 { neg := n, mag := v, exp := -(refBits : Int) })

end Sys2Proof.Machine
end

