-- ==== Sys2Proof/Machine/Memory.lean ====
section
/-! DEFINITION. Physical memory and its map (R105, R389, R394), poison (R108, R131), translation (R109 to R118), L1 (R134),
and the store pipe's own-thread forwarding (R301, R304). -/

namespace Sys2Proof.Machine

/-- What an operation that reaches memory comes to: a value, a fault, or a wait (for a first-touch mapping, R113). Each carries
the machine as the attempt left it. -/
inductive Res (α : Type) where
  | ok (a : α) (m : Mach)
  | fault (f : FaultInfo) (m : Mach)
  | wait (m : Mach)
  deriving DecidableEq, Repr

/-- The next operation of a sequence. -/
def Res.next {α β : Type} (r : Res α) (f : α → Mach → Res β) : Res β :=
  match r with
  | .ok a m => f a m
  | .fault e m => .fault e m
  | .wait m => .wait m

/-- A fault record's information: cause, walk level, detail code of R115, address. -/
def mkFault (c : Cause) (level detail : Nat) (addr : Nat) : FaultInfo :=
  { cause := c, detail := BitVec.ofNat 8 (level * 16 + detail), addr := BitVec.ofNat 48 addr }

/-- A fault without an information word. -/
def plainFault (c : Cause) : FaultInfo := mkFault c 0 0 0

/-! The physical map. -/

/-- What lies at a physical address (R105, R389, R394). -/
inductive PaClass where
  | hbm (die : Nat) | reserved | queuePage (queue off : Nat) | registers | host | rootPort (k : Nat) | pod
  deriving DecidableEq, Repr

/-- The class of a physical address. The page of queue q of processor p is page p * 64 + q of the register range (log 6). -/
def paClass (s : State) (pa : Nat) : PaClass :=
  if pa < 0x3000000000 then .hbm 0
  else if pa < 0x6000000000 then .hbm 1
  else if pa < 0x10000000000 then .reserved
  else if pa < 0x10100000000 then
    if pa - 0x10000000000 < 256 * 4096 then .queuePage ((pa - 0x10000000000) / 4096) (pa % 4096) else .registers
  else if pa < 0x18000000000 then .reserved
  else if pa < 0x1C000000000 then .host
  else if pa < 0x20000000000 then .rootPort ((pa - 0x1C000000000) / 0x1000000000)
  else if pa < 0x1000000000000 then .reserved
  else
    let o := pa - 0x1000000000000
    let slot := o / 2 ^ 39
    if slot ≥ 1024 ∨ (mget s.pod slot).isNone ∨ s.ownSlot = some slot ∨ o % 2 ^ 39 ≥ 0x6000000000 then .reserved else .pod

/-- Whether an address lies in the front-end and I/O window, its reserved part included, where every access acts as if MT were 2 (R389). -/
def windowPa (pa : Nat) : Bool := 0x10000000000 ≤ pa && pa < 0x20000000000

/-- Where the model keeps host memory, by the host's own addresses, and the memory of other packages, by accelerator id: beyond every physical address. -/
def hostSpace : Nat := 2 ^ 61
def podSpace : Nat := 2 ^ 62

/-- The key under which memory holds the byte at a physical address: host memory lies at the base the firmware set (R392), a slot of the pod window stands
for the remote package that its accelerator id names (R394). -/
def memKey (s : State) (pa : Nat) : Nat :=
  match paClass s pa with
  | .host => hostSpace + s.hostBase + (pa - 0x18000000000)
  | .pod => podSpace + mgetD s.pod ((pa - 0x1000000000000) / 2 ^ 39) 0 * 2 ^ 39 + (pa - 0x1000000000000) % 2 ^ 39
  | _ => pa

/-- The home die of a physical address; 2 for what is homed on neither (R107). -/
def homeDie (pa : Nat) : Nat := if pa < 0x3000000000 then 0 else if pa < 0x6000000000 then 1 else 2

/-! Command-queue registers (R391). -/

/-- The bytes of a queue's register page at an offset. -/
def queueReg (q : CmdQueue) (off : Nat) : Option Byte :=
  if off < 4 then some (BitVec.ofNat 8 (natBits q.tail.toNat (8 * off) 8))
  else if off < 8 then some (BitVec.ofNat 8 (natBits q.head.toNat (8 * (off - 4)) 8))
  else if off < 12 then some (BitVec.ofNat 8 (natBits q.err.toNat (8 * (off - 8)) 8))
  else none

/-- A write of TAIL (R391): the doorbell. A value that would pass HEAD, or that is no index of the ring, is ignored. -/
def tailWrite (q : CmdQueue) (v : Word) : CmdQueue :=
  let n := 2 ^ q.logSize
  let pending := (q.tail.toNat + n - q.head.toNat) % n
  let wanted := (v.toNat + n - q.head.toNat) % n
  if v.toNat < n ∧ pending ≤ wanted then { q with tail := v } else q

/-! L2 (R128 to R131). The bytes of a sector stand in `Mach.mem`, whichever level holds them: a read gives the same value. -/

/-- Whether an address lies in HBM. -/
def isHbm (pa : Nat) : Bool := pa < 0x6000000000

/-- The sector of L2 as it stands; a sector that L2 does not hold has every bit 0 (R129). -/
def Mach.l2At (m : Mach) (sec : Nat) : L2Sector := mgetD m.l2 sec { val := false, drt := false, wmask := 0 }

/-- The sectors that the L2 of one die holds: 64 MiB (R128). -/
def l2Limit : Nat := 2 ^ 21

/-- The sectors of a range, by number. -/
def sectorsOf (pa n : Nat) : List Nat := if n = 0 then [] else (List.range ((pa + n - 1) / 32 - pa / 32 + 1)).map (· + pa / 32)

/-- A sector evicted from L2 (R131): its masked words are in HBM, and a later write has to set all eight bits again to clear poison. -/
def evictSector (m : Mach) (sec : Nat) : Mach := { m with l2 := mdel m.l2 sec, poison := madj m.poison sec (fun _ => 0) }

/-- A sector set in L2; when its die's L2 is full, another sector makes room (R128). -/
def setSector (m : Mach) (sec : Nat) (x : L2Sector) : Mach :=
  let full := (mget m.l2 sec).isNone && l2Limit ≤ m.l2.length && l2Limit ≤ (m.l2.filter (fun e => homeDie (32 * e.1) == homeDie (32 * sec))).length
  let m := if full then (match m.l2.find? (fun e => homeDie (32 * e.1) == homeDie (32 * sec)) with | some e => evictSector m e.1 | none => m) else m
  { m with l2 := mset m.l2 sec x }

/-- L2 after a read of a range: each sector is held, filled (R130). -/
def fillL2 (m : Mach) (pa n : Nat) : Mach := (sectorsOf pa n).foldl (fun m sec => if (m.l2At sec).val then m else setSector m sec { m.l2At sec with val := true }) m

/-- Whether some 32-byte sector of a range is poisoned (R108). -/
def poisonedRange (m : Mach) (pa n : Nat) : Bool :=
  (List.range ((pa + n - 1) / 32 - pa / 32 + 1)).any (fun i => (mget m.poison (pa / 32 + i)).isSome)

/-- The poison after the words of `ws` (word addresses, pa / 4) were written whole: a sector all of whose words have been
written is clean (R131). -/
def coverPoison (p : SMap Word) : List Nat → SMap Word
  | [] => p
  | w :: ws =>
    let sec := w / 8
    match mget p sec with
    | none => coverPoison p ws
    | some mask =>
      let mask := mask ||| laneBit (w % 8)
      coverPoison (if mask = 0xFF then mdel p sec else mset p sec mask) ws

/-- The aligned words that a write of named bytes covers whole. -/
def wholeWords (pa : Nat) (bs : List (Option Byte)) : List Nat :=
  (List.range ((pa + bs.length) / 4 + 1 - pa / 4)).map (· + pa / 4) |>.filter (fun w =>
    (List.range 4).all (fun i => pa ≤ 4 * w + i && ((bs.getD (4 * w + i - pa) none).isSome)))

/-- The aligned words of which a write of named bytes names a byte. -/
def namedWords (pa : Nat) (bs : List (Option Byte)) : List Nat :=
  ((List.range bs.length).filter (fun i => (bs.getD i none).isSome)).map (fun i => (pa + i) / 4) |>.eraseDups

/-- The bytes of a write, cut where sectors begin; `fuel` bounds the pieces. -/
def sectorPieces : Nat → Nat → List (Option Byte) → List (Nat × List (Option Byte))
  | 0, _, _ => []
  | fuel + 1, pa, bs => if bs.isEmpty then [] else (pa, bs.take (32 - pa % 32)) :: sectorPieces fuel (pa + (32 - pa % 32)) (bs.drop (32 - pa % 32))

/-- The pieces of a write. -/
def bySector (pa : Nat) (bs : List (Option Byte)) : List (Nat × List (Option Byte)) := sectorPieces (bs.length / 32 + 2) pa bs

/-- A sector after words of it are written (R130): a whole word is masked without a fill; a part of a word is merged into the sector, filled first. DESIGN CHOICE: R130
names whole words alone; a write of a part of a word masks its word in a clean sector, whose word is whole after the fill, and not in a poisoned one (log 120). -/
def L2Sector.wrote (x : L2Sector) (poisoned : Bool) (whole named : List Nat) : L2Sector :=
  named.foldl (fun x w =>
    let bit : BitVec 8 := BitVec.ofNat 8 (2 ^ (w % 8))
    if whole.contains w then { x with drt := true, wmask := x.wmask ||| bit }
    else { val := true, drt := true, wmask := if poisoned then x.wmask else x.wmask ||| bit }) x

/-- L2 after a write of named bytes of one sector. -/
def wroteSector (m : Mach) (pa : Nat) (bs : List (Option Byte)) : Mach :=
  let named := namedWords pa bs
  if named.isEmpty then m else setSector m (pa / 32) ((m.l2At (pa / 32)).wrote (mget m.poison (pa / 32)).isSome (wholeWords pa bs) named)

/-- L2 after a write of named bytes. -/
def wroteL2 (m : Mach) (pa : Nat) (bs : List (Option Byte)) : Mach := (bySector pa bs).foldl (fun m p => wroteSector m p.1 p.2) m

/-- The poison after a write of named bytes (R131). -/
def wrotePoison (p : SMap Word) (pa : Nat) (bs : List (Option Byte)) : SMap Word :=
  (bySector pa bs).foldl (fun p e => coverPoison p (wholeWords e.1 e.2)) p

/-- The poison after an uncached write, which leaves no mask at L2: the sectors that it writes whole are clean (R108). -/
def sweptPoison (p : SMap Word) (pa : Nat) (bs : List (Option Byte)) : SMap Word :=
  (bySector pa bs).foldl (fun p e => if (wholeWords e.1 e.2).length = 8 then mdel p (e.1 / 32) else p) p

/-! What a die has still to apply (R303, R307, R308). -/

/-- The byte at a key that a write not yet applied hides from its die. -/
def Late.byte (w : Late) (key : Nat) : Option Byte := if w.pa ≤ key then w.old.getD (key - w.pa) none else none

/-- The byte at a key as a die reads it: the one before the oldest write that the die has still to apply; 2 stands for whoever reads the newest. -/
def viewByte (m : Mach) (die key : Nat) : Byte :=
  match m.late.findSome? (fun w => if w.die == die then w.byte key else none) with
  | some b => b
  | none => readByte m.mem key

/-- Whether a write names a byte that a later one names. -/
def Late.overlaps (w : Late) (pa : Nat) (bs : List (Option Byte)) : Bool :=
  w.pa < pa + bs.length && pa < w.pa + w.old.length && (List.range bs.length).any (fun i => (bs.getD i none).isSome && (w.byte (pa + i)).isSome)

/-- Whether a die applies one write only after another (R303): an earlier write of the same thread, but for a part of the same access (R311), one that its release
carries, or one of the same location. -/
def Late.waitsFor (f e : Late) : Bool :=
  e.die == f.die && e.id < f.id
    && (f.carry.contains e.id || (f.thread == e.thread && f.lanes &&& e.lanes != 0 && f.access ≠ e.access) || e.overlaps f.pa f.old)

/-- The writes of a thread's (a warp's, an engine operation's) that a die has still to apply. -/
def lateOf (m : Mach) (thread : Nat) : List Nat := (m.late.filter (fun w => w.thread == thread)).map (·.id)

/-- Those of a list of writes that a die has still to apply, each once. -/
def stillLate (m : Mach) (ids : List Nat) : List Nat := ids.eraseDups.filter (fun i => m.late.any (fun w => w.id == i))

/-- The writes of a list, newest first, that are applied when those which satisfy `p` are: with all that they wait for. -/
def applySet (p : Late → Bool) : List Late → List Late → List Late
  | [], chosen => chosen
  | w :: older, chosen => applySet p older (if p w || chosen.any (fun f => f.waitsFor w) then w :: chosen else chosen)

/-- Whether a tag's bytes lie within those of a later one. -/
def RelTag.within (t u : RelTag) : Bool := u.pa ≤ t.pa && t.pa + t.len ≤ u.pa + u.len

/-- The tags worth keeping, newest first: one that a later write, applied by both dies, has replaced is gone, and so is one all of whose writes are applied. -/
def pruneTags (late : List Nat) : Nat → List RelTag → List RelTag
  | 0, _ => []
  | _, [] => []
  | k + 1, t :: older =>
    if late.contains t.id then t :: pruneTags late k older
    else
      let rest := pruneTags late k (older.filter (fun o => !o.within t))
      if t.srcs.any (fun r => r.ids.any late.contains) then t :: rest else rest

/-- The machine after the writes that satisfy `p`, and all that they wait for, are applied. -/
def settleLate (m : Mach) (p : Late → Bool) : Mach :=
  if m.late.isEmpty then { m with rels := [] }
  else
    let gone := (applySet p m.late.reverse []).map (·.id)
    let late := m.late.filter (fun w => !gone.contains w.id)
    { m with late := late, rels := (pruneTags (late.map (·.id)) m.rels.length m.rels.reverse).reverse }

/-- Every write applied by both dies. -/
def settleAll (m : Mach) : Mach := { m with late := [], rels := [] }

/-- The turn in which a die applies a write, once all that it waits for is applied (R303). -/
def applyLate (m : Mach) (id : Nat) : Mach :=
  match m.late.find? (fun w => w.id == id) with
  | none => m
  | some f => if m.late.any (fun e => f.waitsFor e) then m else settleLate m (fun w => w.id == id)

/-- Whether the instance of a scope that holds an agent also holds another (R300). -/
def scopeHolds (sc : Nat) (a b : Agent) : Bool :=
  let sameWarp := a.warp == b.warp && (a.warp ≠ 0 || (a.core == b.core && a.ctx == b.ctx))
  if sc = 0 then sameWarp
  else if sc = 1 then sameWarp || (a.gang.isSome && a.gang == b.gang)
  else if sc = 2 then a.core == b.core
  else if sc = 3 then clusterOf a.core == clusterOf b.core
  else if sc = 4 then dieOf a.core == dieOf b.core
  else true

/-- The releases that a read of a range by an agent of a die may synchronise with: those of the newest write that the die has applied, byte by byte. -/
def srcsRead (m : Mach) (die pa n : Nat) : List RelSrc :=
  if m.rels.isEmpty then []
  else
    ((List.range n).flatMap (fun i =>
      match m.rels.reverse.find? (fun t => t.pa ≤ pa + i && pa + i < t.pa + t.len && !(m.late.any (fun w => w.id == t.id && w.die == die))) with
      | some t => t.srcs
      | none => [])).eraseDups

/-- The writes that the other die has still to apply and that a read of a range by an agent of a die may have returned (R301). -/
def lateRead (m : Mach) (die pa n : Nat) : List Nat :=
  (m.late.filter (fun w => w.die ≠ die && w.pa < pa + n && pa < w.pa + w.old.length)).map (·.id)

/-- The releases of a list that synchronise with an acquire at a scope by an agent that has read them (R307). -/
def synced (srcs : List RelSrc) (sc : Nat) (b : Agent) : List RelSrc := srcs.filter (fun r => scopeHolds r.scope r.agent b && scopeHolds sc b r.agent)

/-- The writes that happen before what follows that acquire (R307). -/
def acquired (srcs : List RelSrc) (sc : Nat) (b : Agent) : List Nat := (synced srcs sc b).flatMap (·.ids)

/-- The writes that a release carries (R308): those that happen before it and whose agent lies in its scope's instance. -/
def RelSrc.carried (m : Mach) (r : RelSrc) : List Nat := (m.late.filter (fun w => r.ids.contains w.id && scopeHolds r.scope r.agent w.agent)).map (·.id)

/-! Reading and writing physical memory. -/

/-- One byte at a physical address as a die reads it, and the free-value counter after it. -/
def readPa1 (s : State) (m : Mach) (die pa : Nat) : Byte × Mach :=
  match paClass s pa with
  | .queuePage q off =>
    match queueReg (m.queue q) off with
    | some b => (b, m)
    | none => (Config.freeByte m.free, { m with free := m.free + 1 })
  | .registers => (Config.freeByte m.free, { m with free := m.free + 1 })
  | _ => (viewByte m die (memKey s pa), m)

/-- `n` bytes from a physical address up, as a die reads them. -/
def readPa (s : State) (die : Nat) : Mach → Nat → Nat → List Byte × Mach
  | m, _, 0 => ([], m)
  | m, pa, n + 1 =>
    let (b, m) := readPa1 s m die pa
    let (bs, m) := readPa s die m (pa + 1) n
    (b :: bs, m)

/-- The bytes that a write replaces, where it names them. -/
def replaced (mem : SMap Byte) : Nat → List (Option Byte) → List (Option Byte)
  | _, [] => []
  | pa, b :: bs => b.map (fun _ => readByte mem pa) :: replaced mem (pa + 1) bs

/-- The bytes of a write put in place, unnamed bytes left (R130). -/
def putBytes : SMap Byte → Nat → List (Option Byte) → SMap Byte
  | mem, _, [] => mem
  | mem, pa, none :: bs => putBytes mem (pa + 1) bs
  | mem, pa, some b :: bs => putBytes (writeByte mem pa b) (pa + 1) bs

/-- The bytes of a sector of L1 with those of a write put in. -/
def patchSector (sec : List Byte) (base pa : Nat) (bs : List (Option Byte)) : List Byte :=
  (List.range 32).map (fun i =>
    match if pa ≤ base + i then bs.getD (base + i - pa) none else none with
    | some b => b
    | none => sec.getD i 0)

/-- A write performed at its place: HBM, host, root-port and pod bytes, or a queue's TAIL register; the other front-end registers take it without an effect that
the package can show (log 7). No byte that is not named changes (R130). An uncached write of HBM leaves L2 alone (R133). The poison is that after the sectors that
made room have left L2 (R131). -/
def writePlace (s : State) (m : Mach) (pa : Nat) (bs : List (Option Byte)) (cached : Bool := true) : Mach :=
  match paClass s pa with
  | .queuePage q off =>
    let c := m.queue q
    if off < 4 then
      let v := (List.range 4).map (fun i =>
        (if off ≤ i then bs.getD (i - off) none else none).getD (BitVec.ofNat 8 (natBits c.tail.toNat (8 * i) 8)))
      { m with queues := mset m.queues q (tailWrite c (BitVec.ofNat 32 (bytesToNat v))) }
    else m
  | .registers | .reserved => m
  | .hbm _ =>
    let m := { m with mem := putBytes m.mem pa bs }
    if cached then
      let m := wroteL2 m pa bs
      { m with poison := wrotePoison m.poison pa bs }
    else { m with poison := sweptPoison m.poison pa bs }
  | _ => { m with mem := putBytes m.mem (memKey s pa) bs }

/-- A write that every agent sees at once (the host's, the firmware's, a device's, another package's). -/
def writePa (s : State) (m : Mach) (pa : Nat) (bs : List (Option Byte)) : Mach :=
  let m := settleLate m (fun w => w.overlaps pa bs)
  writePlace s { m with rels := m.rels.filter (fun t => !(pa ≤ t.pa && t.pa + t.len ≤ pa + bs.length)) } pa bs

/-- Who makes a write on a compute die: the agent and its threads, the access that the write is a part of, and the releases that it is (R303, R307). -/
structure Writer where
  agent  : Agent
  thread : Nat
  access : Nat
  lanes  : Word
  srcs   : List RelSrc
  deriving DecidableEq, Repr

/-- The releases of a write with its identity: what happens before each are the writes that its agent knows of, the writer's own earlier ones, and itself. -/
def releasesOf (m : Mach) (o : Writer) (id : Nat) : List RelSrc :=
  o.srcs.map (fun r => { r with ids := id :: stillLate m (lateOf m o.thread ++ r.ids) })

/-- The writes that releases carry to the other compute die and to the front-end die: those at `.dev` and wider (R308). -/
def carriedWide (m : Mach) (srcs : List RelSrc) : List Nat := (srcs.filter (fun r => 5 ≤ r.scope)).flatMap (fun r => r.carried m)

/-- A WRITE OF A COMPUTE DIE'S AGENT (R303): its own die applies it at once and the other die later. `seq` are the releases that an atomic continues (R307). A write
that leaves the compute dies is seen by everyone at once, after the thread's earlier writes and those that its release carries; the registers of a command queue wait for
what a release carries alone, since a plain store to TAIL orders no entry (R391). -/
def writeFrom (s : State) (m : Mach) (o : Writer) (pa : Nat) (bs : List (Option Byte)) (cached : Bool := true) (seq : List RelSrc := []) : Mach :=
  let die := dieOf o.agent.core
  let (id, m) := m.newId
  let srcs := releasesOf m o id
  if isHbm pa && die < 2 then
    let m := settleLate m (fun w => w.die == die && w.overlaps pa bs)
    let w : Late := { id := id, die := 1 - die, agent := o.agent, thread := o.thread, access := o.access, lanes := o.lanes, pa := pa
                      old := replaced m.mem pa bs, carry := carriedWide m srcs }
    let tag : RelTag := { id := id, pa := pa, len := bs.length, srcs := srcs ++ seq }
    let m := writePlace s m pa bs cached
    { m with late := m.late ++ [w], rels := if tag.srcs.isEmpty && m.rels.isEmpty then [] else m.rels ++ [tag] }
  else
    let carried := carriedWide m srcs
    let register := paClass s pa matches .queuePage ..
    writePa s (settleLate m (fun w => carried.contains w.id || (!register && w.thread == o.thread))) pa bs

/-! Translation. -/

/-- What an access does at its page (R115). -/
inductive Access where
  | read | write | atomic | fetch | row
  deriving DecidableEq, Repr

/-- Reads take `PAGE_READ`, stores and atomics `PAGE_WRITE` (R115). -/
def Access.missing : Access → Cause
  | .write | .atomic => .pageWrite
  | _ => .pageRead

/-- Whether an access writes. -/
def Access.writes : Access → Bool
  | .write | .atomic => true
  | _ => false

/-- Bit `i` of a page-table entry. -/
def pteBit (e : DWord) (i : Nat) : Bool := e.getLsbD i
/-- The frame of an entry: PFN as a physical address (R111). -/
def pteFrame (e : DWord) : Nat := natBits e.toNat 12 40 * 4096
/-- The memory type of an entry. -/
def pteMt (e : DWord) : Nat := natBits e.toNat 10 2

/-- The size of the page that a leaf at a level maps (R110). -/
def leafSize (level : Nat) (e : DWord) : Nat :=
  match level with
  | 0 => if pteBit e 9 then 65536 else 4096
  | 1 => 2 ^ 21
  | _ => 2 ^ 30

/-- A malformed entry, read with V = 1 (R111). -/
def pteMalformed (level : Nat) (e : DWord) : Bool :=
  let leaf := pteBit e 2
  natBits e.toNat 52 12 ≠ 0 || pteBit e 8 || (leaf && level == 3) || (!leaf && level == 0)
    || (leaf && (pteMt e == 3 || (pteBit e 9 && level ≠ 0) || (pteBit e 3 && !pteBit e 1) || pteFrame e % leafSize level e ≠ 0))

/-- The entry at a physical address, the newest written. UNVERIFIED: a walk that reads an entry in a poisoned sector reads its bytes and raises no fault;
R108 names loads, fetches, atomics and engines alone (log 97). -/
def readPte (s : State) (m : Mach) (a : Nat) : DWord := BitVec.ofNat 64 (bytesToNat (readBytes m.mem (memKey s a) 8))
/-- The entry at a physical address written, at its L2 slice like every other write (R114, R130). -/
def writePte (s : State) (m : Mach) (a : Nat) (e : DWord) : Mach := writePa s m a ((natToBytes 8 e.toNat).map some)

/-- A leaf found by a walk: its level, where it stands, its bits. -/
structure Leaf where
  level : Nat
  at_   : Nat
  pte   : DWord
  deriving DecidableEq, Repr

/-- Which way a walk ends. -/
inductive WalkEnd where
  | leaf (l : Leaf)
  | touch (l : Leaf)             -- a first-touch entry (R113)
  | bad (level detail : Nat)     -- detail 0x1 or 0x2
  deriving DecidableEq, Repr

/-- The index of a virtual address at a level (R110). -/
def vaIndex (va level : Nat) : Nat := va / 2 ^ (12 + 9 * level) % 512

/-- The level of the first malformed entry of a path, with one more entry read. -/
def firstBad (bad : Option Nat) (level : Nat) (malformed : Bool) : Option Nat :=
  match bad with
  | some b => some b
  | none => if malformed then some level else none

/-- The end of a path at a leaf: every entry has V = 1, and now the form of every entry is looked at (R115). -/
def walkLeaf (bad : Option Nat) (l : Leaf) : WalkEnd := match bad with | some b => .bad b 2 | none => .leaf l

/-- The walk from a table at a level down (R110 to R112). At level 0 the first entry of the group of 16 is read first. Every entry of the path is checked for V
before any is checked for its form (R115): a malformed pointer is followed, and `bad` is the level of the first malformed entry so far. -/
def walkFrom (s : State) (m : Mach) (va : Nat) (bad : Option Nat) : Nat → Nat → WalkEnd
  | 0, table =>
    let i := vaIndex va 0
    let g := table + 8 * (i / 16 * 16)
    let ge := readPte s m g
    if pteBit ge 0 && pteBit ge 2 && pteBit ge 9 then walkLeaf (firstBad bad 0 (pteMalformed 0 ge)) { level := 0, at_ := g, pte := ge }
    else
      let a := table + 8 * i
      let e := readPte s m a
      if !pteBit e 0 then (if pteBit e 8 then .touch { level := 0, at_ := a, pte := e } else .bad 0 1)
      else walkLeaf (firstBad bad 0 (pteMalformed 0 e || pteBit e 9)) { level := 0, at_ := a, pte := e }
  | level + 1, table =>
    let a := table + 8 * vaIndex va (level + 1)
    let e := readPte s m a
    let bad' := firstBad bad (level + 1) (pteMalformed (level + 1) e)
    if !pteBit e 0 then (if pteBit e 8 then .touch { level := level + 1, at_ := a, pte := e } else .bad (level + 1) 1)
    else if pteBit e 2 then walkLeaf bad' { level := level + 1, at_ := a, pte := e }
    else walkFrom s m va bad' level (pteFrame e)

/-- The addresses of the entries that a walk reads from a table at a level down (R112). -/
def walkReads (s : State) (m : Mach) (va : Nat) : Nat → Nat → List Nat
  | 0, table =>
    let g := table + 8 * (vaIndex va 0 / 16 * 16)
    let ge := readPte s m g
    if pteBit ge 0 && pteBit ge 2 && pteBit ge 9 then [g] else [g, table + 8 * vaIndex va 0]
  | level + 1, table =>
    let a := table + 8 * vaIndex va (level + 1)
    let e := readPte s m a
    if pteBit e 0 && !pteBit e 2 then a :: walkReads s m va level (pteFrame e) else [a]

/-- L2 after a walk has read its entries (R130). -/
def fillWalk (m : Mach) (reads : List Nat) : Mach := reads.foldl (fun m a => if isHbm a then fillL2 m a 8 else m) m

/-- The pointer entries of a well-formed path from a table at a level down, as a die's page walkers keep them (R117). -/
def walkPointers (s : State) (m : Mach) (die ctx va : Nat) : Nat → Nat → List WalkEntry
  | 0, _ => []
  | level + 1, table =>
    let e := readPte s m (table + 8 * vaIndex va (level + 1))
    if pteBit e 0 && !pteBit e 2 && !pteMalformed (level + 1) e then
      { die := die, ctx := ctx, level := level + 1, index := va / 2 ^ (12 + 9 * (level + 1)), table := pteFrame e }
        :: walkPointers s m die ctx va level (pteFrame e)
    else []

/-- The pointer entry of a level that a die's walkers hold for an address (R117). -/
def walkHit (m : Mach) (die ctx va level : Nat) : Option WalkEntry :=
  m.walks.find? (fun e => e.die == die && e.ctx == ctx && e.level == level && e.index == va / 2 ^ (12 + 9 * level))

/-- Where a walk begins (R117): at the lowest pointer entry that the die's walkers hold, or at the root. -/
def walkStart (m : Mach) (die ctx va root : Nat) : Nat × Nat :=
  match [1, 2, 3].findSome? (walkHit m die ctx va) with
  | some e => (e.level - 1, e.table)
  | none => (3, root)

/-- A translated address: where it lies, its page's memory type, the walk level of its leaf, the bytes left on the page. -/
structure Xlat where
  pa    : Nat
  mt    : Nat
  level : Nat
  left  : Nat
  deriving DecidableEq, Repr

/-- The memory type of an access: that of the window (R389), or the leaf's. -/
def xlatMt (pa : Nat) (e : DWord) : Nat := if windowPa pa then 2 else pteMt e

/-- Whether a frame belongs to another partition than a context's (R397). -/
def foreignFrame (s : State) (ctx pa : Nat) : Bool :=
  let holds := fun (p : Partition) => p.frames.any (fun r => r.1 ≤ pa / 4096 && pa / 4096 < r.1 + r.2)
  isHbm pa && !holds (s.partitionOf ctx) && s.partitions.any (fun e => holds e.2)

/-- The leaf's own checks, in the order of R115 after the walk: PRIV, R/W/X, MT, the physical range. DESIGN CHOICE: a frame that belongs to another partition
counts as a reserved range (R397 has no such translation; log 96). -/
def leafCheck (s : State) (ctx : Nat) (acc : Access) (level : Nat) (e : DWord) (pa va : Nat) : Option FaultInfo :=
  let permitted := match acc with
    | .read | .row => pteBit e 1
    | .write => pteBit e 3
    | .atomic => pteBit e 1 && pteBit e 3
    | .fetch => pteBit e 4
  if pteBit e 5 && !(s.ctx ctx).priv then some (mkFault .pageProt level 4 va)
  else if !permitted then some (mkFault .pageProt level 3 va)
  else if (acc = .atomic ∨ acc = .row) ∧ xlatMt pa e = 2 then some (mkFault .pageProt level 5 va)
  else if paClass s pa = .reserved ∨ foreignFrame s ctx pa then some (mkFault .addr level 7 va)
  else none

/-- The L1 TLB that an access uses (R116): the core's, and none for an engine's access or one of the front-end die. -/
def l1Tlb (core : Nat) (eng : Bool) : Option Nat := if eng || 288 ≤ core then none else some core

/-- The entry of one TLB that covers an address for a context: the L1 TLB of `own`, or the cluster's. -/
def tlbFind (m : Mach) (ctx cluster va : Nat) (own : Option Nat) : Option TlbEntry :=
  m.tlb.find? (fun e => e.ctx == ctx && e.cluster == cluster && e.core == own && e.base ≤ va && va < e.base + e.size)

/-- The TLB entry that covers an address for a context (R116): the core's L1 TLB comes before the cluster's. -/
def tlbHit (m : Mach) (ctx core va : Nat) (eng : Bool := false) : Option TlbEntry :=
  let shared := tlbFind m ctx (clusterOf core) va none
  match l1Tlb core eng with
  | none => shared
  | some c => match tlbFind m ctx (clusterOf core) va (some c) with | some e => some e | none => shared

/-- A list with at most `n` of the elements that satisfy `p`, the first ones. -/
def keepFirst {α : Type} (p : α → Bool) : Nat → List α → List α
  | _, [] => []
  | 0, a :: as => if p a then keepFirst p 0 as else a :: keepFirst p 0 as
  | n + 1, a :: as => if p a then a :: keepFirst p n as else a :: keepFirst p (n + 1) as

/-- The entries of an L1 TLB, and of a cluster's (R116). -/
def tlbSize (own : Option Nat) : Nat := if own.isSome then 64 else 2048

/-- An entry put into its TLB (R116): it replaces those it overlaps, and the oldest when the TLB is full. -/
def tlbPut (m : Mach) (t : TlbEntry) : Mach :=
  let same := fun (o : TlbEntry) => o.cluster == t.cluster && o.core == t.core
  let overlap := fun (o : TlbEntry) => same o && o.ctx == t.ctx && o.base < t.base + t.size && t.base < o.base + o.size
  { m with tlb := t :: keepFirst same (tlbSize t.core - 1) (m.tlb.filter (fun o => !overlap o)) }

/-- A translation put into the TLBs an access uses. -/
def tlbFill (m : Mach) (t : TlbEntry) (core : Nat) (eng : Bool) : Mach :=
  match l1Tlb core eng with
  | none => tlbPut m { t with core := none }
  | some c => tlbPut (tlbPut m { t with core := none }) { t with core := some c }

/-- The machine with a first-touch request at the memory manager (R113). -/
def requestTouch (m : Mach) (l : Leaf) (die ctx : Nat) : Mach :=
  if m.touches.any (fun t => t.2.leafAt == l.at_ && t.2.pte == l.pte) then m
  else
    let (id, m) := m.newId
    { m with touches := mset m.touches id { leafAt := l.at_, level := l.level, pte := l.pte, die := die, ctx := ctx, refused := false } }

/-- The address that a leaf gives a virtual address. -/
def leafXlat (level : Nat) (e : DWord) (va : Nat) : Xlat :=
  let size := leafSize level e
  let pa := pteFrame e + va % size
  { pa := pa, mt := xlatMt pa e, level := level, left := size - va % size }

/-- A translation through a leaf that a walk has found, once it passes its checks: A is set, D for a write (R114), the TLBs and the walkers' cache are filled. -/
def walkDone (s : State) (m : Mach) (ctx core va : Nat) (acc : Access) (eng : Bool) (l : Leaf) (pointers : List WalkEntry) : Res Xlat :=
  let x := leafXlat l.level l.pte va
  match leafCheck s ctx acc l.level l.pte x.pa va with
  | some f => .fault f m
  | none =>
    let e := l.pte ||| (if acc.writes then 0xC0 else 0x40)
    let m := if e = l.pte then m else writePte s m l.at_ e
    let size := leafSize l.level l.pte
    let m := { m with walks := m.walks ++ pointers.filter (fun p => !m.walks.contains p) }
    .ok x (tlbFill m { ctx := ctx, cluster := clusterOf core, core := none, base := va / size * size, size := size, frame := pteFrame e, pte := e
                       level := l.level, leafAt := l.at_ } core eng)

/-- A translation by a walk (R110 to R115). `ft` is false for a prefetch, which requests no first touch (R153). -/
def walkVa (s : State) (m : Mach) (ctx core va : Nat) (acc : Access) (ft eng : Bool) : Res Xlat :=
  let start := walkStart m (dieOf core) ctx va (s.ctx ctx).ptbase
  let m := fillWalk m (walkReads s m va start.1 start.2)
  match walkFrom s m va none start.1 start.2 with
  | .bad level d => .fault (mkFault acc.missing level d va) m
  | .touch l =>
    if m.touches.any (fun t => t.2.leafAt == l.at_ && t.2.pte == l.pte && t.2.refused) then .fault (mkFault acc.missing l.level 8 va) m
    else if ft then .wait (requestTouch m l (dieOf core) ctx)
    else .fault (mkFault acc.missing l.level 1 va) m
  | .leaf l => walkDone s m ctx core va acc eng l (walkPointers s m (dieOf core) ctx va start.1 start.2)

/-- The translation of one address of an access by a core's context (R109 to R118), or of an engine of its cluster (`eng`): a TLB, or a walk. A write
through a TLB entry whose D is 0 walks again (R114). -/
def translate (s : State) (m : Mach) (ctx core : Nat) (va : DWord) (acc : Access) (ft : Bool := true) (eng : Bool := false) : Res Xlat :=
  if va.toNat ≥ 2 ^ 48 then .fault (mkFault .addr 0 6 va.toNat) m
  else
    match tlbHit m ctx core va.toNat eng with
    | none => walkVa s m ctx core va.toNat acc ft eng
    | some t =>
      if acc.writes && !pteBit t.pte 7 then walkVa s m ctx core va.toNat acc ft eng
      else
        let x := leafXlat t.level t.pte va.toNat
        match leafCheck s ctx acc t.level t.pte x.pa va.toNat with
        | some f => .fault f m
        | none => .ok x (if t.core = l1Tlb core eng then m else tlbPut m { t with core := l1Tlb core eng })

/-- The physical address of a virtual one, changing nothing (for finding the bytes a thread's own stores name). -/
def peekPa (s : State) (m : Mach) (ctx core : Nat) (va : DWord) (acc : Access) : Option Nat :=
  match translate s m ctx core va acc with
  | .ok x _ => some x.pa
  | _ => none

/-! Access through a translation. -/

/-- AN ACQUIRE by an agent of a core: the writes carried to it are applied on its die (R308). -/
def acquireIds (m : Mach) (core : Nat) (ids : List Nat) : Mach :=
  if ids.isEmpty then m else settleLate m (fun w => w.die == dieOf core && ids.contains w.id)

/-- The machine after an acquire at a scope by an agent that has read some releases (R307, R308): what those of them carry that synchronise with it is applied. -/
def acquireFrom (m : Mach) (srcs : List RelSrc) (sc : Nat) (b : Agent) : Mach :=
  acquireIds m b.core ((synced srcs sc b).flatMap (fun r => r.carried m))

/-- A read of `n` bytes at a translated address at L2: checked for poison (R108), performed, its sectors filled (R130). -/
def readAt (s : State) (m : Mach) (core : Nat) (x : Xlat) (va n : Nat) : Res (List Byte) :=
  if isHbm x.pa && poisonedRange m x.pa n then .fault (mkFault .addr x.level 9 va) m
  else
    let (bs, m) := readPa s (dieOf core) m x.pa n
    .ok bs (if isHbm x.pa && x.mt ≠ 2 then fillL2 m x.pa n else m)

/-- A read of `n` bytes within one page: translated, and performed at L2. -/
def readVa (s : State) (m : Mach) (ctx core : Nat) (va : DWord) (n : Nat) (acc : Access) (eng : Bool := false) : Res (List Byte) :=
  (translate s m ctx core va acc true eng).next (fun x m => readAt s m core x va.toNat n)

/-- The parts of a range by page: at most `k` parts of at most 4 KiB, none crossing a 4 KiB boundary. -/
def pageParts : Nat → DWord → Nat → List (DWord × Nat)
  | 0, _, _ => []
  | _, _, 0 => []
  | k + 1, va, n =>
    let c := min n (4096 - va.toNat % 4096)
    (va, c) :: pageParts k (va + BitVec.ofNat 64 c) (n - c)

/-- A read of any range, page by page (an engine's, R155, R119). -/
def readRange (s : State) (m : Mach) (ctx core : Nat) (acc : Access) (eng : Bool) : List (DWord × Nat) → Res (List Byte)
  | [] => .ok [] m
  | (va, n) :: ps =>
    (readVa s m ctx core va n acc eng).next (fun bs m => (readRange s m ctx core acc eng ps).next (fun cs m => .ok (bs ++ cs) m))

/-- A read of `n` bytes from an address up. -/
def readMem (s : State) (m : Mach) (ctx core : Nat) (va : DWord) (n : Nat) (acc : Access := .read) (eng : Bool := false) : Res (List Byte) :=
  readRange s m ctx core acc eng (pageParts (n / 4096 + 2) va n)

/-- A write of named bytes within one page by the front-end die, seen by every agent at once. -/
def writeVa (s : State) (m : Mach) (ctx core : Nat) (va : DWord) (bs : List (Option Byte)) : Res Unit :=
  (translate s m ctx core va .write).next (fun x m => .ok () (writePa s m x.pa bs))

/-- A write of any range, page by page; the parts before a part that faults are written. -/
def writeRange (s : State) (m : Mach) (ctx core : Nat) : List (DWord × Nat) → List Byte → Res Unit
  | [], _ => .ok () m
  | (va, n) :: ps, bs =>
    (writeVa s m ctx core va ((bs.take n).map some)).next (fun _ m => writeRange s m ctx core ps (bs.drop n))

/-- A write of bytes from an address up. -/
def writeMem (s : State) (m : Mach) (ctx core : Nat) (va : DWord) (bs : List Byte) : Res Unit :=
  writeRange s m ctx core (pageParts (bs.length / 4096 + 2) va bs.length) bs

/-! L1. -/

/-- The sectors that an L1 holds: 64 KiB (R128). -/
def l1Limit : Nat := 2048

/-- The machine with a core's L1 copy of a sector dropped (an atomic, R134; an access that bypasses L1). -/
def dropSector (m : Mach) (core pa : Nat) : Mach := m.adjCore core (fun c => { c with l1 := mdel c.l1 (pa / 32) })
/-- The machine with a core's L1 emptied (an acquire or fence wider than `.core`, R134, R313). -/
def dropL1 (m : Mach) (core : Nat) : Mach := m.adjCore core (fun c => { c with l1 := [] })
/-- A sector of L1 after a write of named bytes: the words written whole are masked (R130). DESIGN CHOICE: a write of a part of a word sets no bit in L1 (log 120). -/
def L1Sector.patch (x : L1Sector) (sec pa : Nat) (bs : List (Option Byte)) : L1Sector :=
  { x with bytes := patchSector x.bytes (32 * sec) pa bs
           wmask := (wholeWords pa bs).foldl (fun w k => if k / 8 = sec then w ||| BitVec.ofNat 8 (2 ^ (k % 8)) else w) x.wmask }
/-- The machine with a write merged into a core's own L1 copy (write-through, R134). -/
def patchL1 (m : Mach) (core pa : Nat) (bs : List (Option Byte)) : Mach :=
  m.adjCore core (fun c => { c with l1 := (sectorsOf pa bs.length).foldl (fun l sec => madj l sec (fun x => x.patch sec pa bs)) c.l1 })

/-- A sector filled into an L1; when it is full, another makes room (R128). -/
def fillL1 (l : SMap L1Sector) (sec : Nat) (bytes : List Byte) : SMap L1Sector :=
  mset (if l1Limit ≤ l.length then l.drop 1 else l) sec { bytes := bytes, val := true, drt := false, wmask := 0 }

/-- A plain load of a sector-contained range through L1: it may return an older copy (R134). The poison of the sector has been checked. -/
def readL1 (s : State) (m : Mach) (core pa n : Nat) : List Byte × Mach :=
  match mget (m.core core).l1 (pa / 32) with
  | some sec => ((sec.bytes.drop (pa % 32)).take n, m)
  | none =>
    let (sec, m) := readPa s (dieOf core) m (pa / 32 * 32) 32
    ((sec.drop (pa % 32)).take n, (fillL2 m (pa / 32 * 32) 32).adjCore core (fun c => { c with l1 := fillL1 c.l1 (pa / 32) sec }))

/-! A thread's own stores that are not yet performed. -/

/-- The bytes an atomic code reads and writes (R68); code 16 is one half of `fadd2.b2` (R151). -/
def atomSize (code : Nat) : Nat := if code = 1 ∨ code = 0xA ∨ code = 0xC then 8 else if code = 16 then 2 else 4

/-- The bytes a store entry names, by physical address. A store that a level holds is found through a page that only may be read too: its own fault comes
when it is performed. -/
def storeBytes (s : State) (m : Mach) (held : Bool) (st : Store) : List (Nat × Option Byte) :=
  let place := fun (va : DWord) (acc : Access) =>
    match peekPa s m st.ctx st.core va acc with
    | some pa => some pa
    | none => if held then peekPa s m st.ctx st.core va .read else none
  match st.op with
  | .bytes bs =>
    let at_ := fun (i : Nat) =>
      match st.place with
      | some (pa, _) => some (pa + i - (bs.takeWhile Option.isNone).length)
      | none => place (st.addr + BitVec.ofNat 64 i) .write
    (List.range bs.length).filterMap (fun i =>
      match bs.getD i none with
      | none => none
      | some b => (at_ i).map (fun pa => (pa, some b)))
  | .atomic code _ =>
    match place st.addr .atomic with
    | some pa => (List.range (atomSize code)).map (fun i => (pa + i, none))
    | none => []

/-- The bytes of a store that lie on each page, with their offsets. -/
def storePages (st : Store) : List (DWord × List (Option Byte)) :=
  match st.op with
  | .bytes bs =>
    ((pageParts (bs.length / 4096 + 2) st.addr bs.length).foldl (fun (acc : List (DWord × List (Option Byte)) × List (Option Byte)) p =>
      (acc.1 ++ [(p.1, acc.2.take p.2)], acc.2.drop p.2)) ([], bs)).1.filter (fun e => e.2.any Option.isSome)
  | .atomic .. => []

/-- What an issued store comes to: performed, not yet, or failed with the fault to be recorded, its address the lowest byte on the page. The rest of a store that is
performed in part lies where its translation has put it. -/
def storeTranslate (s : State) (m : Mach) (st : Store) : Res (List (Xlat × List (Option Byte))) :=
  match st.place, st.op with
  | some (pa, mt), .bytes bs => .ok [({ pa := pa, mt := mt, level := 0, left := 0 }, bs.dropWhile Option.isNone)] m
  | _, _ =>
    (storePages st).foldl (fun r (va, bs) => r.next (fun acc m =>
      let lead := bs.takeWhile Option.isNone |>.length
      (translate s m st.ctx st.core (va + BitVec.ofNat 64 lead) .write).next (fun x m => .ok (acc ++ [(x, bs.drop lead)]) m))) (.ok [] m)

/-- The fault that an issued store meets when it is translated, if any (R380). -/
def storeFault (s : State) (st : Store) : Option (FaultInfo × Mach) :=
  match st.failed with
  | some f => some (f, s.m)
  | none =>
    match st.op with
    | .bytes _ => match storeTranslate s s.m st with | .fault f m => some (f, m) | _ => none
    | .atomic code _ =>
      match translate s s.m st.ctx st.core st.addr .atomic with
      | .fault f m => some (f, m)
      | .ok t m => if isHbm t.pa && poisonedRange m t.pa (atomSize code) then some (mkFault .addr t.level 9 st.addr.toNat, m) else none
      | .wait _ => none

/-- What a thread's own stores of a list give a byte: `none` when they do not name it, `some none` when an atomic whose result is
not yet known names it. A later store hides an earlier one. -/
def forwardByte (own : List (Nat × Option Byte)) (pa : Nat) : Option (Option Byte) :=
  (own.reverse.find? (fun e => e.1 == pa)).map (·.2)

/-- The named bytes of the stores of one thread, oldest first. -/
def ownBytes (s : State) (m : Mach) (held : Bool) (stores : List Store) (warp lane : Nat) : List (Nat × Option Byte) :=
  (stores.filter (fun st => st.warp == warp && inMask st.lanes lane)).flatMap (storeBytes s m held)

end Sys2Proof.Machine
end

