-- ==== Sys2Proof/Machine/Warps.lean ====
section
/-! DEFINITION. Warps, groups and threads at run boundaries (R319, R322, R326), events (R400), the end of threads, warps and
slices (R334, R351, R357, R383), the retirement of chain declarations (R280), and fault records (R371, R372). -/

namespace Sys2Proof.Machine

/-! Events (R400). -/

/-- An event of a die's (or the front-end die's, 2) arbiter, held by its source until the arbiter accepts it. -/
def raiseEvent (m : Mach) (e : Event) : Mach :=
  let (id, m) := m.newId
  let a := m.arbiters.getD e.src .fresh
  { m with arbiters := setAt m.arbiters e.src { a with held := mset a.held id e } }

/-- Bytes of a record whose content the spec does not give: free values. -/
def openBytes (m : Mach) (n : Nat) : List Byte × Mach := ((List.range n).map (fun i => Config.freeByte (m.free + i)), { m with free := m.free + n })

/-- The cause code of R373. -/
def causeCode : Cause → Nat
  | .illegalOp => 0x01 | .reservedField => 0x02 | .priv => 0x03 | .staleLatch => 0x04 | .leaseWrite => 0x05 | .align => 0x06
  | .addr => 0x07 | .pageRead => 0x08 | .pageWrite => 0x09 | .pageProt => 0x0A | .spadRange => 0x0B | .selfMask => 0x0C
  | .syncMask => 0x0D | .spillQuota => 0x0E | .wsWrite => 0x0F | .accAbsent => 0x10 | .accRetired => 0x11 | .accCycle => 0x12
  | .accNorsv => 0x13 | .promiseMiss => 0x18 | .budget => 0x19 | .trap => 0x1A | .bkpt => 0x1B | .gathRange => 0x1C

/-- The 128 bits of a lane's fault record (R372). -/
def recordBits (r : Record) : Nat :=
  (r.pc.toNat / 4) * 2 ^ 82 + (r.run % 32) * 2 ^ 77 + (if r.imp then 2 ^ 76 else 0) + causeCode r.cause * 2 ^ 64
    + r.detail.toNat * 2 ^ 56 + r.addr.toNat

/-- The 128 bits of a store-fault entry (R380); `run` is its LANE. -/
def sfqBits (r : Record) : Nat :=
  (r.pc.toNat / 4) * 2 ^ 82 + (r.run % 32) * 2 ^ 77 + (r.slot % 32) * 2 ^ 72 + causeCode r.cause * 2 ^ 64
    + r.detail.toNat * 2 ^ 56 + (r.kind % 16) * 2 ^ 52 + r.addr.toNat

/-- WHO of an event: slot in [12:8], lane in [4:0] (R400). -/
def whoWord (slot lane : Nat) : Word := BitVec.ofNat 32 (slot % 32 * 256 + lane % 32)

/-- The event that reports a lane's record (R374, type 0x01). -/
def recordEvent (core ctx slot lane : Nat) (r : Record) : Event :=
  { type := 0x01, src := dieOf core, ctx := ctx, who := whoWord slot lane, pay := natToBytes 16 (recordBits r), function := none }

/-- The event that reports a store-fault entry of a warp with no thread left (R381, type 0x02). -/
def sfqEvent (core ctx : Nat) (e : SfqEntry) : Event :=
  { type := 0x02, src := dieOf core, ctx := ctx, who := whoWord e.entry.slot e.lane, pay := natToBytes 16 (sfqBits e.entry), function := none }

/-! Threads and groups. -/

/-- A warp's thread at a lane. -/
def Warp.thread (w : Warp) (l : Nat) : Thread := w.threads.getD l .none
/-- The warp with the threads of some lanes changed. -/
def Warp.adjThreads (w : Warp) (ls : List Nat) (f : Thread → Thread) : Warp :=
  { w with threads := (List.range 32).map (fun l => if ls.contains l then f (w.thread l) else w.thread l) }
/-- Whether a lane position counts as exited (R328): its thread has exited, or it holds none. -/
def Warp.exited (w : Warp) (l : Nat) : Bool := (w.thread l).status == .exited || (w.thread l).status == .empty
/-- Whether every thread of a warp has exited. -/
def Warp.allExited (w : Warp) : Bool := (List.range 32).all w.exited
/-- The parked lanes that no handler holds yet. -/
def Warp.parkedLanes (w : Warp) : List Nat := (List.range 32).filter (fun l => (w.thread l).status == .parked && !(w.thread l).entered)

/-- The value of a register (R181: a register that is not live reads 0). -/
def Warp.reg (w : Warp) (r : Nat) : LaneVec := mgetD w.regs r zeroVec
/-- The value of a register in a lane. -/
def Warp.regLane (w : Warp) (r l : Nat) : Word := laneOf (w.reg r) l

/-- How often a register has been written. -/
def genOf (g : SMap Nat) (r : Nat) : Nat := mgetD g r 0
/-- The counts after one register is written: its value stands in another physical register from then on (R181). -/
def bumpGen (g : SMap Nat) (r : Nat) : SMap Nat := mset g r (genOf g r + 1)

/-- Whether an open level keeps the value that a register had when it had been written `gen` times (R181, R287). -/
def Warp.retains (w : Warp) (r gen : Nat) : Bool :=
  w.levels.any (fun l => (mget l.snapshot.regs r).isSome && genOf l.snapshot.gens r == gen)

/-- The retained values in the Satchel once a register is rewritten: its old value stays there when it stood there and a level keeps it. -/
def Warp.awayAfter (w : Warp) (r : Nat) : List (Nat × Nat) :=
  if w.spilled.contains r && w.retains r (genOf w.gens r) then w.away ++ [(r, genOf w.gens r)] else w.away

/-- The values of a warp in the order of use once registers of a list have been used, `gens` as they stand then: the values that nothing refers to any more leave it. -/
def Warp.usedAfter (w : Warp) (gens : SMap Nat) (rs : List Nat) : List (Nat × Nat) :=
  rs.map (fun r => (r, genOf gens r)) ++ w.lru.filter (fun e => !rs.contains e.1 || (e.2 ≠ genOf gens e.1 && w.retains e.1 e.2))

/-- A register written in the lanes of a mask, the others kept (R180). A register all of whose lanes are 0 is not live (R181). A
written register is resident, and the most recently used. -/
def Warp.writeReg (w : Warp) (r : Nat) (mask : Word) (f : Nat → Word) : Warp :=
  let v := mergeVec (w.reg r) mask f
  { w with regs := mput zeroVec w.regs r v, gens := bumpGen w.gens r, away := w.awayAfter r, spilled := w.spilled.filter (· ≠ r)
           lru := w.usedAfter (bumpGen w.gens r) [r] }

/-- Groups of one PC and depth merged (R319, R322): a group at a run boundary joins an earlier one that stands at a run boundary
with the same PC and depth, when neither waits at a convergence point or both do. -/
def mergeInto (g : Group) : List Group → List Group
  | [] => [g]
  | h :: t =>
    if h.run.isNone && g.run.isNone && h.pc == g.pc && h.depth == g.depth && h.passed == g.passed && (h.conv.isNone == g.conv.isNone) then
      { h with lanes := h.lanes ||| g.lanes, idle := max h.idle g.idle, conv := h.conv.map (fun n => max n (g.conv.getD 0)) } :: t
    else h :: mergeInto g t

/-- A warp's groups after merging, empty groups dropped. -/
def regroup (gs : List Group) : List Group := (gs.filter (fun g => g.lanes != 0)).foldl (fun acc g => mergeInto g acc) []

/-- A group at a run boundary. -/
def Group.at_ (lanes : Word) (pc : Pc) (depth : Nat) : Group :=
  { lanes := lanes, pc := pc, depth := depth, run := none, conv := none, passed := false, idle := 0, out := false }

/-! Waits. -/

/-- The waits by which a group counts as blocked (R326 (b)): asleep, or waiting at `SYNC`, a mailbox, a queue, `BWAIT`, a rendezvous or a barrier. -/
def Wait.isBlocking : Wait → Bool
  | .blocking | .sleeping _ | .sync .. | .bar .. | .yield | .gang _ | .tmma .. => true
  | _ => false

/-- The waits at which a warp leaves the active set whatever its registers (R353): those, and the waits at `ACHAIN`, `ARSV`, `ASEND`, `SCHK` and `MIGR`; also
a halt at a breakpoint (R379), and a word that resolves levels as `SCHK` does. -/
def Wait.leaves : Wait → Bool
  | .directory | .reservation | .answer _ | .verdict | .commit _ | .resolving .. | .migrating | .homeroom .. | .halted => true
  | k => k.isBlocking

/-- The waits in which nothing of a group issues until something outside it happens, so that its slot's other groups may go on. -/
def Wait.idles : Wait → Bool
  | .room | .publishing _ => true
  | k => k.leaves

/-- Whether a group is blocked or asleep (R326 (b)). -/
def Group.blocked (g : Group) : Bool := match g.run with | some r => r.wait.isBlocking | none => false
/-- Whether a group waits so that its warp leaves the active set (R353). -/
def Group.leaves (g : Group) : Bool := match g.run with | some r => r.wait.leaves | none => false
/-- Whether nothing of a group issues until something outside it happens. -/
def Group.idles (g : Group) : Bool := match g.run with | some r => r.wait.idles | none => false
/-- Whether a group is inside a run and may go on: it issues before any other group of its slot (R320). -/
def Group.inRun (g : Group) : Bool := g.run.isSome && !g.idles
/-- Whether a group waits at a convergence point. -/
def Group.atConv (g : Group) : Bool := g.conv.isSome

/-! Removal of a thread's claims. -/

/-- The token by which a waiting group stands in a mailbox's order. -/
def waitToken (w : Warp) (g : Group) : Nat := w.uid * 64 + lowLane g.lanes

/-- The orders of waits of a context's mailboxes and queues on a core, changed. -/
def mapTokens (m : Mach) (ctx core : Nat) (f : List Nat → List Nat) : Mach :=
  { m with ctxCores := madj m.ctxCores (ccKey ctx core) (fun c =>
      { c with mailboxes := c.mailboxes.map (fun b => { b with readers := f b.readers, writers := f b.writers })
               queues := c.queues.map (fun q => { q with readers := f q.readers }) }) }

/-- The machine with a warp's places in those orders removed. -/
def purgeTokens (m : Mach) (ctx core uid : Nat) : Mach := mapTokens m ctx core (fun ts => ts.filter (fun t => t / 64 ≠ uid))

/-- The machine without the places of a warp's groups that no longer wait. -/
def purgeStale (m : Mach) (core : Nat) (w : Warp) : Mach :=
  let live := ((w.groups ++ w.hgroups).filter (fun g => g.run.any (fun r => r.wait != .none))).map (waitToken w)
  mapTokens m w.ctx core (fun ts => ts.filter (fun t => t / 64 ≠ w.uid || live.contains t))

/-- The machine after a waiting group has lost lanes: it keeps its places. -/
def retoken (m : Mach) (core : Nat) (w : Warp) (before after : Group) : Mach :=
  mapTokens m w.ctx core (fun ts => ts.map (fun t => if t = waitToken w before then waitToken w after else t))

/-- The declarations of a warp on a chain, changed. -/
def adjDecls (m : Mach) (p : Decl → Bool) (ctx : Nat) (f : Decl → Decl) : Mach :=
  { m with chains := m.chains.map (fun c => (c.1, if c.2.ctx = ctx then { c.2 with decls := c.2.decls.map (fun d => if p d then f d else d) } else c.2)) }

/-- A chain without an open declaration is free (R276): it is dropped with its round. -/
def dropDeadChains (m : Mach) : Mach := { m with chains := m.chains.filter (fun c => c.2.decls.any (fun d => !d.closed && !d.retired)) }

/-- The rounds that a leaving sender cuts short (R280): open rounds at its next hop to which it has not sent. -/
def cutRounds (m : Mach) (ctx : Nat) (leaves : Decl → Bool) : Mach :=
  { m with chains := m.chains.map (fun e =>
      let c := e.2
      if c.ctx ≠ ctx then e
      else
        let gone := c.decls.filter (fun d => leaves d && d.role ≠ 2 && !d.closed && !d.retired)
        (e.1, { c with decls := c.decls.map (fun d =>
          match d.buffer with
          | none => d
          | some b =>
            if gone.any (fun g => g.hop == d.core && !b.senders.contains g.core) then { d with buffer := some { b with cut := true } } else d) })) }

/-- The page of a paged round that has ended, as it stands then: its bytes are unspecified (R277, R409). -/
def freeRound (m : Mach) (ctx core : Nat) (page : Option Nat) : Mach :=
  match page with
  | none => m
  | some p =>
    let bytes := (List.range 4096).map (fun i => Config.freeByte (m.free + i))
    let m := { m with free := m.free + 4096 }
    m.adjCtxCore ctx core (fun c => { c with rounds := c.rounds.filter (· ≠ p), spad := writeBytes c.spad (4096 * p) bytes })

/-- A chain's round ends when the rounds at all its receiving cores have ended (R269). -/
def settleRounds (m : Mach) : Mach :=
  { m with chains := m.chains.map (fun e => (e.1, if e.2.granted && e.2.decls.all (fun d => d.buffer.isNone) then { e.2 with granted := false } else e.2)) }

/-- The open rounds of the declarations of a context that satisfy `p`, ended without their `AWAIT`. -/
def discardRounds (m : Mach) (ctx : Nat) (p : Decl → Bool) : Mach :=
  (m.chains.flatMap (fun e => if e.2.ctx = ctx then e.2.decls.filter (fun d => p d && d.buffer.isSome) else [])).foldl
    (fun m d => freeRound m ctx d.core d.page) m

/-- A chain's declarations after some of its open ones are retired (R280): buffers of retired receivers are freed, and reservations held toward them are only good for
a refusal (R273). -/
def Chain.retire (open_ : Decl → Bool) (c : Chain) : Chain :=
  let gone := (c.decls.filter (fun d => open_ d && d.role ≠ 1)).map (·.core)
  { c with decls := c.decls.map (fun d =>
      if open_ d then { d with retired := true, resv := 0, buffer := none }
      else if d.resv == 2 && gone.contains d.hop then { d with resv := 4 } else d) }

/-- The machine with a warp's open declarations retired (R280). -/
def retireDecls (m : Mach) (ctx : Nat) (p : Decl → Bool) : Mach :=
  let open_ := fun d => p d && !d.closed && !d.retired
  let m := discardRounds (cutRounds m ctx open_) ctx open_
  dropDeadChains (settleRounds { m with chains := m.chains.map (fun c => (c.1, if c.2.ctx = ctx then c.2.retire open_ else c.2)) })

/-- The machine with a warp taken out of its gang (R241): it counts as arrived from now on, so its part in steps not yet issued is dropped. A
gang without members and issued steps is dissolved and its array freed. -/
def leaveGang (m : Mach) (core : Nat) (w : Warp) : Mach :=
  match w.gang with
  | none => m
  | some g => m.adjCore core (fun c =>
      let gangs := madj c.gangs g (fun x =>
        { x with members := x.members.filter (fun p => p.1 ≠ w.uid)
                 steps := x.steps.map (fun t => if t.issued.isNone then { t with members := t.members.filter (fun p => p.warp ≠ w.uid) } else t) })
      { c with gangs := gangs.filter (fun e => !(e.2.members.isEmpty && (e.2.steps.all (fun t => t.issued.isNone)))) })

/-- The events of a warp's store-fault entries, and the queue without them, when no thread of the warp is left (R381). -/
def flushSfq (m : Mach) (ctx core uid : Nat) : Mach :=
  let mine := (m.ctxCore ctx core).sfq.filter (fun e => e.warp == uid)
  let m := mine.foldl (fun m e => raiseEvent m (sfqEvent core ctx e)) m
  m.adjCtxCore ctx core (fun c => { c with sfq := c.sfq.filter (fun e => e.warp ≠ uid) })

/-! The end of a warp and of its slice. -/

/-- Whether an engine operation of a context is in flight in a cluster (R300, R428): a copy, a gather, an issued term step, an accepted accumulate arrival, the
write of a publication. -/
def engineOut (m : Mach) (ctx cl : Nat) : Bool :=
  m.copies.any (fun c => c.2.ctx == ctx && clusterOf c.2.core == cl) || m.gathers.any (fun c => c.2.ctx == ctx && clusterOf c.2.core == cl)
    || m.cores.any (fun c => clusterOf c.1 == cl && c.2.gangs.any (fun g => g.2.ctx == ctx && g.2.steps.any (fun t => t.issued.isSome)))
    || m.tiles.any (fun t => t.2.ctx == ctx && t.2.accepted && clusterOf t.2.src == cl)
    || m.stores.any (fun st => st.ctx == ctx && st.entry.isSome && clusterOf st.core == cl)

/-- The release of a context's cluster state when nothing of the context is left in the cluster (R428). What it held there stays as residue, which nothing reads (R409, R412),
until the state is created again, fresh. -/
def releaseCluster (m : Mach) (ctx core : Nat) : Mach :=
  let cl := clusterOf core
  let busyWarp := m.allWarps.any (fun e => clusterOf e.1 == cl && e.2.2.ctx == ctx)
  let saved := (mgetD m.saved ctx []).any (fun w => clusterOf w.core == cl)
  let yielded := m.slices.any (fun x => x.2.ctx == ctx && clusterOf x.2.core == cl && !x.2.saved.isEmpty)
  let sequencer := m.ctxCores.any (fun c => c.1 / 512 == ctx && clusterOf (c.1 % 512) == cl && (c.2.seq.running || c.2.seq.stopping.isSome))
  if busyWarp || saved || engineOut m ctx cl || yielded || sequencer then m
  else
    { m with ctxClusters := madj m.ctxClusters (clKey ctx cl) (fun c => { c with freed := true })
             cores := m.cores.map (fun c => if clusterOf c.1 = cl then (c.1, { c.2 with leaving := c.2.leaving.filter (fun w => w.ctx ≠ ctx) }) else c) }

/-- The end of a slice (R351, R357): its completion word is incremented as a release that follows every store of the slice. -/
def sliceEnded (m : Mach) (id : Nat) : Mach :=
  match mget m.slices id with
  | none => m
  | some sl =>
    let m := { m with slices := mdel m.slices id }
    if sl.cwa = 0 then m
    else
      let (seq, m) := m.newId
      { m with stores := m.stores ++ [{ seq := seq, warp := seq, ctx := sl.ctx, core := sl.core, slot := 0, lanes := 1, pc := sl.entry, run := 0, kind := 8
                                        addr := sl.cwa, op := .atomic 0 1, rel := some 5, acq := none, srcs := [], entry := none
                                        joined := false, gang := none, twin := false, place := none, failed := none }] }

/-- One warp of a slice has ended. -/
def warpOfSliceEnded (m : Mach) (id : Nat) : Mach :=
  match mget m.slices id with
  | none => m
  | some sl => if sl.left ≤ 1 then sliceEnded m id else { m with slices := mset m.slices id { sl with left := sl.left - 1 } }

/-- Whether a pending result is a lease (R187). -/
def Pend.leased (p : Pend) : Bool := match p.kind with | .queueFed _ | .term .. | .await .. => true | _ => false

/-- What stays of a warp that has ended: its registers, until every lease of it has ended (R189). An `AWAIT` lease ends with its declaration (R280). -/
def Warp.leftover (w : Warp) : Warp :=
  { w with groups := [], hgroups := [], levels := [], pends := w.pends.filter (fun p => p.leased && !(p.kind matches .await ..)) }

/-- The warps that have ended on a core, without the leases that satisfy `p`; those that hold no lease any more give up their registers. -/
def endLeases (p : Warp → Pend → Bool) (ws : List Warp) : List Warp :=
  (ws.map (fun w => { w with pends := w.pends.filter (fun q => !p w q) })).filter (fun w => !w.pends.isEmpty)

/-- The removal of a warp whose last thread has exited (R334): its places in queues of waits, its gang, its declarations and
store-fault entries; its slot is free; its slice may end, and the cluster state may be released. Its registers are freed once its leases
have ended, and the engines' results are discarded (R189); its issued stores are still performed. -/
def removeWarp (m : Mach) (core pos : Nat) (w : Warp) : Mach :=
  let m := purgeTokens m w.ctx core w.uid
  let m := leaveGang m core w
  let m := retireDecls m w.ctx (fun d => d.warp == w.uid)
  let m := { m with dirQueue := m.dirQueue.filter (fun r => r.warp ≠ w.uid) }
  let m := flushSfq m w.ctx core w.uid
  let m := m.adjCore core (fun c =>
    { c with warps := mdel c.warps pos, active := c.active.filter (· ≠ pos), pending := c.pending.filter (fun p => p.pos ≠ pos)
             leaving := c.leaving ++ endLeases (fun _ _ => false) [w.leftover] })
  releaseCluster (warpOfSliceEnded m w.slice) w.ctx core

/-! Speculation levels that end without a commit (R286, R291, R293). -/

/-- The watch-table entry of a context in a core's cluster, changed. -/
def adjWatch (m : Mach) (ctx core k : Nat) (f : WatchEntry → WatchEntry) : Mach :=
  m.adjCtxCluster ctx core (fun c => { c with watch := madj c.watch k f })

/-- The warps of a context in a cluster changed, in their positions and in saved images. -/
def adjClusterWarps (m : Mach) (ctx cluster : Nat) (f : Warp → Warp) : Mach :=
  let fix := fun (w : Warp) => if w.ctx = ctx then f w else w
  { m with cores := m.cores.map (fun c =>
             if clusterOf c.1 = cluster then (c.1, { c.2 with warps := c.2.warps.map (fun e => (e.1, fix e.2)) }) else c)
           saved := m.saved.map (fun e => (e.1, e.2.map (fun sw => if clusterOf sw.core = cluster then { sw with warp := fix sw.warp } else sw))) }

/-- The levels of one context in one cluster changed. -/
def adjLevels (m : Mach) (ctx cluster : Nat) (f : Warp → Level → Level) : Mach :=
  adjClusterWarps m ctx cluster (fun w => { w with levels := w.levels.map (f w) })

/-- The verdicts of the levels of one context in one cluster that satisfy `p`, decided as failed where not decided yet. -/
def failLevels (m : Mach) (ctx cluster : Nat) (p : Warp → Level → Bool) : Mach :=
  adjLevels m ctx cluster (fun w l => if p w l && l.verdict.isNone then { l with verdict := some false, provOf := none } else l)

/-- The withdrawal of the provisional publications a warp made on some entries: PROV := 0, and the levels that passed on them
fail (R286, R296). -/
def withdraw (m : Mach) (ctx core uid : Nat) (entries : List Nat) : Mach :=
  entries.foldl (fun m k =>
    match mget (m.ctxCluster ctx core).watch k with
    | some e =>
      if e.prov && e.owner == uid then
        failLevels (adjWatch m ctx core k (fun e => { e with prov := false })) ctx (clusterOf core)
          (fun _ l => l.entry == k && l.provOf == some uid)
      else m
    | none => m) m

/-- The discarding of what some levels hold (R291): held copies are abandoned, provisional publications withdrawn. -/
def discardHeld (m : Mach) (core : Nat) (w : Warp) (ls : List Level) : Mach :=
  let m := withdraw m w.ctx core w.uid (ls.flatMap (·.provEntry))
  let copies := ls.flatMap (fun l => l.held.filterMap (fun h => match h with | .copy id => some id | _ => none))
  { m with copies := m.copies.filter (fun c => !copies.contains c.1) }

/-- The termination of a warp (R374, R375, R383): it stops issuing, its open levels are squashed and what they hold discarded, its
records, store-fault entries and waits are discarded, those of its queue-fed loads among them (R198), and every thread exits as under R334. -/
def terminateWarp (m : Mach) (core pos : Nat) : Mach :=
  match m.warp? core pos with
  | none => m
  | some w =>
    let m := discardHeld m core w w.levels
    let m := m.adjCtxCore w.ctx core (fun c => { c with sfq := c.sfq.filter (fun e => e.warp ≠ w.uid) })
    removeWarp m core pos { w with pends := w.pends.filter (fun p => !(p.kind matches .queueFed _)) }

/-! What a word sees of its warp. -/

/-- The warp, group and run whose word is being executed. -/
structure Ex where
  core : Nat
  pos  : Nat
  hand : Bool
  grp  : Nat
  w    : Warp
  g    : Group
  r    : Run
  deriving DecidableEq, Repr

/-- The warp, group and run that `cur` names. -/
def State.ex? (s : State) : Option Ex :=
  match s.m.cur with
  | none => none
  | some c =>
    match s.m.warp? c.core c.pos with
    | none => none
    | some w =>
      match (if c.hand then w.hgroups else w.groups)[c.grp]? with
      | none => none
      | some g =>
        match g.run with
        | none => none
        | some r => some { core := c.core, pos := c.pos, hand := c.hand, grp := c.grp, w := w, g := g, r := r }

/-- The address of the word being executed. -/
def Ex.pc (x : Ex) : Pc := x.r.start + BitVec.ofNat 48 (4 * x.r.pos)
/-- The active lanes, ascending. -/
def Ex.lanes (x : Ex) : List Nat := maskLanes x.g.lanes
/-- The lowest active lane (R42). -/
def Ex.low (x : Ex) : Nat := lowLane x.g.lanes
/-- Whether the word is a handler's. -/
def Ex.inHandler (x : Ex) : Bool := x.hand

/-- A warp with its loads read for good: they do not read again before they return. -/
def Warp.fixLoads (w : Warp) : Warp := { w with pends := w.pends.map (fun p => if p.kind == .load then { p with addrs := [] } else p) }

/-- The agent that makes a warp's accesses (R300). -/
def Warp.agent (w : Warp) (core : Nat) : Agent := { ctx := w.ctx, core := core, warp := w.uid, gang := w.gang }
/-- The agent that makes a word's accesses. -/
def Ex.agent (x : Ex) : Agent := x.w.agent x.core

/-- The word with writes that happen before the warp's next access (R307), those alone that a die has still to apply. -/
def Ex.learn (x : Ex) (m : Mach) (ids : List Nat) : Ex := { x with w := { x.w with know := stillLate m (x.w.know ++ ids) } }

/-- An acquire by the word at a scope, from releases that it has read or that synchronise with it directly (R307). -/
def acquireRels (m : Mach) (x : Ex) (sc : Nat) (srcs : List RelSrc) : Mach × Ex :=
  let m := acquireFrom m srcs sc x.agent
  (m, x.learn m (acquired srcs sc x.agent))

/-- The writes that happen before what a warp does next: its own, and those it knows of (R307). -/
def Warp.history (w : Warp) (m : Mach) : List Nat := stillLate m (w.know ++ lateOf m w.uid)

/-- The warp with its group and run as `x` has them. -/
def Ex.warp (x : Ex) : Warp :=
  let g := { x.g with run := some x.r }
  if x.hand then { x.w with hgroups := setAt x.w.hgroups x.grp g } else { x.w with groups := setAt x.w.groups x.grp g }

/-- The warp without the group being executed. -/
def Ex.without (x : Ex) : Warp :=
  if x.hand then
    let hs := x.w.hgroups.take x.grp ++ x.w.hgroups.drop (x.grp + 1)
    { x.w with hgroups := hs, handler := !hs.isEmpty }
  else { x.w with groups := x.w.groups.take x.grp ++ x.w.groups.drop (x.grp + 1) }

/-- The machine with `x` written back. -/
def Mach.put (m : Mach) (x : Ex) : Mach := m.setWarp x.core x.pos x.warp

/-- The word has taken its effect: the run goes on at its next word. -/
def Mach.advance (m : Mach) (x : Ex) : Mach := m.put { x with r := { x.r with pos := x.r.pos + 1, wait := .none, desc := [] } }

/-- The group waits at its word (R190): the run does not end and the latches are kept. -/
def Mach.hold (m : Mach) (x : Ex) (k : Wait) : Mach := m.put { x with r := { x.r with wait := k } }

/-- The lane's record of a fault at the word being executed (R372). -/
def Ex.record (x : Ex) (f : FaultInfo) : Record :=
  { pc := x.pc, run := x.r.pos, imp := false, slot := 0, kind := 0, cause := f.cause, detail := f.detail, addr := f.addr }

/-- TAKING A FAULT OR TRAP (R371, R372, R374): a lane parks with its record and resume point; its depth is kept for `RTE`; the
first lane to park starts the count of runs after which the slot enters handler mode. -/
def Ex.park (x : Ex) (l : Nat) (rec : Record) (resume : Pc) : Ex :=
  let t := { x.w.thread l with status := .parked, depth := x.g.depth, record := some rec, rpc := resume.setWidth 64, entered := false }
  { x with w := { x.w.adjThreads [l] (fun _ => t) with parkRuns := some (x.w.parkRuns.getD 0) }
           g := { x.g with lanes := x.g.lanes &&& ~~~(laneBit l) } }

/-- The faults of some lanes at the word being executed, each with its resume point. Outside the handler each lane parks. In
handler mode a fault ends the handler: each faulting lane's original record and its new one are reported and the warp is terminated (R375). -/
def takeFaults (m : Mach) (x : Ex) (fs : List (Nat × FaultInfo × Pc)) : Mach × Option Ex :=
  match fs with
  | [] => (m, some x)
  | _ :: _ =>
    if x.inHandler then
      let events := fs.flatMap (fun e => (((x.w.thread e.1).record.toList) ++ [x.record e.2.1]).map (recordEvent x.core x.w.ctx x.w.homeSlot e.1))
      (terminateWarp ((events.foldl raiseEvent m).put x) x.core x.pos, none)
    else (m, some (fs.foldl (fun x e => x.park e.1 (x.record e.2.1) e.2.2) x))

/-- The machine after a group has lost lanes: a group without lanes is gone, with its run. -/
def Mach.putOrDrop (m : Mach) (x : Ex) : Mach :=
  if x.g.lanes = 0 then
    m.setWarp x.core x.pos x.without
  else m.put x

/-- Every active lane parks with the same record at the word being executed: a fault of R72 steps 1 to 5, or of a uniform
instruction (R42). -/
def faultAll (m : Mach) (x : Ex) (f : FaultInfo) : Mach :=
  match takeFaults m x (x.lanes.map (fun l => (l, f, x.pc))) with
  | (m, none) => m
  | (m, some x) => m.putOrDrop x

end Sys2Proof.Machine
end

