-- ==== Sys2Proof/Machine/Levels.lean ====
section
/-! DEFINITION. Speculation levels: snapshot, squash, commit and the resolution of open levels (R286 to R293), and the delivery
of precise faults, which in a speculating warp comes after that resolution (R292). -/

namespace Sys2Proof.Machine

/-- A group as a snapshot keeps it: at its present word, with no latches (R190, R287). A run is kept where more of it than its words has been decided: a
transfer's targets, a convergence point reached or passed. -/
def snapGroup (g : Group) : Group :=
  match g.run with
  | none => g
  | some r =>
    if r.nextPc.isEmpty && g.conv.isNone && !g.passed then { g with pc := r.start + BitVec.ofNat 48 (4 * r.pos), run := none, passed := true }
    else { g with run := some { r with latches := [] } }

/-- The snapshot a level takes (R287). -/
def takeSnapshot (w : Warp) : Snapshot :=
  { regs := w.regs, gens := w.gens, spilled := w.spilled, groups := w.groups.map snapGroup, hgroups := w.hgroups.map snapGroup
    entered := w.threads.map (·.entered), serial := w.serial
    termG := w.termG, termD := w.termD, arrived := w.arrived }

/-- The number of the earliest step of a gang whose rendezvous has not completed (R255). -/
def firstOpenStep (g : Gang) : Nat :=
  match g.steps.find? (fun t => t.issued.isNone) with
  | some t => t.number
  | none => g.nextStep

/-- The retained values in the Satchel that some open level still keeps (R287). -/
def Warp.pruneAway (w : Warp) : Warp := { w with away := w.away.filter (fun e => w.retains e.1 e.2) }

/-- The registers of a snapshot that stand in the Satchel now: as live registers not written since, or as retained values. -/
def Warp.snapSpilled (w : Warp) (sn : Snapshot) : List Nat :=
  (mkeys sn.regs).filter (fun r =>
    w.away.contains (r, genOf sn.gens r) || (w.spilled.contains r && genOf w.gens r == genOf sn.gens r))

/-- The replay marks of a warp with a word added, for the group that executes it again (R291). -/
def markReplay (rs : List (Pc × Word)) (pc : Pc) (lanes : Word) : List (Pc × Word) := rs.filter (· ≠ (pc, lanes)) ++ [(pc, lanes)]

/-- Whether a word executed by a group carries the replay mark. -/
def Warp.replays (w : Warp) (pc : Pc) (lanes : Word) : Bool := w.replay.any (fun e => e.1 == pc && e.2 &&& lanes != 0)

/-- The replay marks once a group's word has been executed again. -/
def clearReplay (rs : List (Pc × Word)) (pc : Pc) (lanes : Word) : List (Pc × Word) :=
  (rs.map (fun e => if e.1 = pc then (e.1, e.2 &&& ~~~lanes) else e)).filter (fun e => e.2 != 0)

/-- The squash of a warp's levels from the innermost out to number `n` of its list (R291): their held effects are discarded, pending
results and leases begun after the `SPECT` are cancelled, and the warp stands as the snapshot has it, at the `SPECT` word, which carries the
replay mark. The gang's completed steps are not rolled back (R255). -/
def squash (m : Mach) (core pos : Nat) (w : Warp) (n : Nat) : Mach :=
  match w.levels[n]? with
  | none => m
  | some lv =>
    let m := discardHeld m core w (w.levels.take (n + 1))
    let m := match w.gang with
      | none => m
      | some g => m.adjCore core (fun c => { c with gangs := madj c.gangs g (fun x =>
          { x with steps := x.steps.map (fun t => if t.issued.isNone then { t with members := t.members.filter (fun p => p.warp ≠ w.uid) } else t) }) })
    let arrived := match w.gang with
      | none => w.arrived
      | some g => (mget (m.core core).gangs g).elim w.arrived firstOpenStep
    let m := purgeTokens m w.ctx core w.uid
    let sn := lv.snapshot
    m.setWarp core pos (Warp.pruneAway
      { w with regs := sn.regs, gens := sn.gens, lru := w.lru.filter (fun e => e.2 ≤ genOf sn.gens e.1), spilled := w.snapSpilled sn, groups := regroup sn.groups, serial := sn.serial
               hgroups := sn.hgroups, handler := !sn.hgroups.isEmpty
               threads := (w.threads.zip sn.entered).map (fun e => { e.1 with entered := e.2 })
               termG := sn.termG, termD := sn.termD, arrived := arrived, levels := w.levels.drop (n + 1)
               replay := markReplay w.replay lv.specPc lv.specLanes, pends := w.pends.filter (fun p => p.id < lv.pendsFrom), sweep := none })

/-- What the resolution of levels comes to. -/
inductive Resolve where
  | resolved (m : Mach) (x : Ex)                -- no level is open
  | waiting (m : Mach) (x : Ex) (tile : Nat)    -- a verdict is open, or (not 0) the tile of a held `ASEND` has no answer yet
  | squashed (m : Mach)
  deriving DecidableEq, Repr

/-- Copies in flight that a core issued (R160); a held copy is not in flight yet. -/
def coreCopies (m : Mach) (core : Nat) : Nat := (m.copies.filter (fun c => c.2.core == core && !c.2.held)).length

/-- A release that is made only now: what the warp knows of happens before it (R317). -/
def RelSrc.after (know : List Nat) (r : RelSrc) : RelSrc := { r with ids := (r.ids ++ know).eraseDups }
/-- A held store as it is issued by the commit: its releases are releases at that point (R317). -/
def Store.committed (know : List Nat) (st : Store) : Store := { st with srcs := st.srcs.map (RelSrc.after know) }

/-- The held effects of the outermost level performed in program order (R290), up to a held `ASEND` that waits for its answer or a copy that waits for room. -/
def commitHeld : Nat → Mach → Ex → List Held → Mach × Ex × List Held
  | 0, m, x, hs => (m, x, hs)
  | _, m, x, [] => (m, x, [])
  | k + 1, m, x, .store st :: hs => commitHeld k { m with stores := m.stores ++ [st.committed x.w.know] } x hs
  | k + 1, m, x, .copy id :: hs =>
    if 8 ≤ coreCopies m x.core then (m, x, .copy id :: hs)
    else commitHeld k { m with copies := madj m.copies id (fun c => { c with held := false, watched := true, since := m.nextId, srcs := c.srcs.map (RelSrc.after x.w.know) }), nextId := m.nextId + 1 } x hs
  | k + 1, m, x, .publish _ _ sts :: hs => commitHeld k { m with stores := m.stores ++ sts.map (Store.committed x.w.know) } x hs
  | _, m, x, .asend c t pc :: hs => (m, x, .asend c t pc :: hs)

/-- The 32-byte sectors of which a store writes a byte. -/
def Store.sectors (st : Store) : List Nat :=
  let named := match st.op with
    | .bytes bs => (List.range bs.length).filter (fun i => (bs.getD i none).isSome)
    | .atomic code _ => List.range (atomSize code)
  (named.map (fun i => (st.addr.toNat + i) / 32)).eraseDups

/-- The sectors of shadow space that the stores of a list of held effects still take (R289): space is freed when its effect is performed. -/
def heldSectors (hs : List Held) : List Nat := (hs.flatMap (fun h => match h with | .store st => st.sectors | _ => [])).eraseDups

/-- The next hop of a warp's open sending declaration on a chain. -/
def nextHop (m : Mach) (ctx chain uid : Nat) : Option Nat :=
  (mget m.chains (ctx * 65536 + chain)).bind (fun c =>
    (c.decls.find? (fun d => d.warp == uid && d.role ≠ 2 && !d.closed && !d.retired)).map (·.hop))

/-- The tile that a group's own wait names. -/
def Wait.tile : Wait → Nat
  | .commit t | .resolving t .. => t
  | _ => 0

/-- What a group waited for before a fault of its word. -/
def Wait.base : Wait → Wait
  | .resolving _ _ k => k
  | k => k

/-- The innermost level closed once its verdict is known (R298): a pass of an inner level moves its held effects outward; a pass of
the outermost level is an acquire at `.dev`, after which it performs them. -/
def resolveInnermost (m : Mach) (x : Ex) : Resolve :=
  match x.w.levels with
  | [] => .resolved m x
  | lv :: outer =>
    match lv.verdict with
    | none => .waiting m x 0
    | some false => .squashed (squash m x.core x.pos x.warp 0)
    | some true =>
      match outer with
      | o :: rest =>
        let o := { o with held := o.held ++ lv.held, shadow := o.shadow ++ lv.shadow, provEntry := o.provEntry ++ lv.provEntry }
        .resolved m { x with w := Warp.pruneAway { x.w with levels := o :: rest } }
      | [] =>
        let rels := (mget (m.ctxCluster x.w.ctx x.core).watch lv.entry).elim [] (·.rels)
        let (m, x) := acquireRels (dropL1 m x.core) x 5 rels
        let (m, x, left) := commitHeld (lv.held.length + 1) m x lv.held
        let x := { x with w := { x.w with levels := [{ lv with held := left, shadow := heldSectors left, stopped := false }] } }
        match left with
        | .copy _ :: _ => .waiting m x 0
        | .asend chain tile _ :: _ =>
          match m.tiles.find? (fun t => t.2.warp == x.w.uid && t.2.held && !t.2.accepted) with
          | some t => .waiting m x (if x.r.wait.tile = t.1 then t.1 else 0)
          | none =>
            let (id, m) := m.newId
            let t : Tile := { ctx := x.w.ctx, chain := chain, src := x.core, dst := (nextHop m x.w.ctx chain x.w.uid).getD x.core, warp := x.w.uid
                              pos := x.pos, vals := tile, accepted := false, round := 0, held := true, know := x.w.history m, since := m.nextId }
            .waiting { m with tiles := mset m.tiles id t } x id
        | _ => .resolved m { x with w := Warp.pruneAway { x.w with levels := [] } }

/-- Every open level resolved as `SCHK` does, innermost first (R288, R292). -/
def resolveLevels : Nat → Mach → Ex → Resolve
  | 0, m, x => .resolved m x
  | k + 1, m, x =>
    if x.w.levels.isEmpty then .resolved m x
    else
      match resolveInnermost m x with
      | .resolved m x => resolveLevels k m x
      | r => r

/-- What a group waits for while a word of it resolves levels as `SCHK` does. -/
def verdictWait (tile : Nat) : Wait := if tile = 0 then .verdict else .commit tile

/-- The machine after a word had to resolve its levels: once they are closed the word issues again; until then its group holds at it. -/
def Resolve.settle : Resolve → Mach
  | .resolved m x => m.put { x with r := { x.r with wait := .none } }
  | .waiting m x t => m.hold x (verdictWait t)
  | .squashed m => m

/-- THE DELIVERY OF PRECISE FAULTS at the word being executed: `fs` names the faulting lanes. A speculating warp first stops issuing and resolves its
levels (R292): if one fails the warp is squashed and the fault is discarded. Answers the machine and, when the word goes on for
lanes that did not fault, their group. -/
def deliver (m : Mach) (x : Ex) (fs : List (Nat × FaultInfo)) : Mach × Option Ex :=
  match fs with
  | [] => (m, some x)
  | _ =>
    match resolveLevels 4 m x with
    | .resolved m x =>
      match takeFaults m x (fs.map (fun f => (f.1, f.2, x.pc))) with
      | (m, none) => (m, none)
      | (m, some x) => if x.g.lanes = 0 then (m.putOrDrop x, none) else (m, some x)
    | .waiting m x t => (m.hold x (.resolving t fs x.r.wait.base), none)
    | .squashed m => (m, none)

/-- A fault of every active lane (R42, R72 steps 1 to 5). -/
def deliverAll (m : Mach) (x : Ex) (f : FaultInfo) : Mach :=
  match deliver m x (x.lanes.map (fun l => (l, f))) with
  | (m, none) => m
  | (m, some x) => m.put x

/-- The refusal that came back for what a group waited for (R273, R290): every active lane parks with it; a level whose commit it stopped stays open. -/
def deliverRefused (m : Mach) (x : Ex) (f : FaultInfo) : Mach :=
  let stop := fun (l : Level) => match l.held with | .asend .. :: _ => { l with stopped := l.verdict == some true } | _ => l
  faultAll m { x with w := { x.w with levels := x.w.levels.map stop }, r := { x.r with wait := .none } } f

end Sys2Proof.Machine
end

