-- ==== Sys2Proof/Machine/Ops.lean ====
section
/-! DEFINITION. Operands of a word: what each source specifier delivers (R55 to R58, R192, R195, R200, R201), what a destination
waits for or faults on (R186 to R188, R192, R195), renaming and spill bursts (R181 to R184), the latches (R59 to R61), and the
one shared operation that most register instructions are written over. -/

namespace Sys2Proof.Machine

/-! Sources. -/

/-- The type of a source position (R56, R57). -/
inductive OpKind where
  | int | f32 | h16 | b16 | h2 | b2 | pair
  deriving DecidableEq, Repr

/-- A source position: its specifier and type. -/
structure Src where
  spec : BitVec 8
  kind : OpKind
  deriving DecidableEq, Repr

/-- The number a small immediate stands for (R56): the low six bits, as two's complement. -/
def immInt (spec : BitVec 8) : Int := toSigned 6 spec.toNat

/-- What a small immediate supplies in a position (R56). -/
def immValue (k : OpKind) (spec : BitVec 8) : DWord :=
  let v := Fl.ofInt (immInt spec)
  match k with
  | .int => (BitVec.ofInt 32 (immInt spec)).setWidth 64
  | .pair => BitVec.ofInt 64 (immInt spec)
  | .f32 => BitVec.ofNat 64 (fp32.round v)
  | .h16 => BitVec.ofNat 64 (fp16.round v)
  | .b16 => BitVec.ofNat 64 (bf16.round v)
  | .h2 => BitVec.ofNat 64 (fp16.round v * 65537)
  | .b2 => BitVec.ofNat 64 (bf16.round v * 65537)

/-- The registers a source reads. -/
def Src.regs (q : Src) : List Nat :=
  if isV q.spec then (match q.kind with | .pair => [q.spec.toNat, q.spec.toNat + 1] | _ => [q.spec.toNat]) else []

/-- Whether a pending result will write a register in some lane of a mask. -/
def Pend.covers (p : Pend) (mask : Word) (r : Nat) : Bool := p.reg ≤ r && r < p.reg + p.count && p.lanes &&& mask != 0
/-- Whether a register is pending in some lane of a mask (R186). -/
def Warp.pendingIn (w : Warp) (mask : Word) (r : Nat) : Bool := w.pends.any (fun p => p.covers mask r)
/-- Whether a register is leased in some lane of a mask (R187). -/
def Warp.leasedIn (w : Warp) (mask : Word) (r : Nat) : Bool := w.pends.any (fun p => p.leased && p.covers mask r)

/-- Registers a word has read, now the most recently used (R183). -/
def Warp.touch (w : Warp) (rs : List Nat) : Warp := { w with lru := w.usedAfter w.gens rs }

/-- The warp of a word with those registers touched. -/
def Ex.touch (x : Ex) (rs : List Nat) : Ex := { x with w := x.w.touch rs }

/-- A refill of a spilled register under way (R184). -/
def Warp.startFill (w : Warp) (id r : Nat) : Warp :=
  if w.pends.any (fun p => p.kind == .fill && p.reg == r) then w
  else { w with pends := w.pends ++ [{ id := id, kind := .fill, lanes := BitVec.allOnes 32, reg := r, count := 1, vals := [], pc := 0, run := 0, addrs := [], sync := false }] }

/-- The machine and warp with refills begun for the spilled registers of a list. -/
def startFills (m : Mach) (x : Ex) (rs : List Nat) : Mach × Ex :=
  rs.foldl (fun (m, x) r =>
    if x.w.spilled.contains r then
      let (id, m) := m.newId
      (m, { x with w := x.w.startFill id r })
    else (m, x)) (m, x)

/-- The lanes whose registers a word reads: a uniform word reads the lowest active lane (R42). -/
def Ex.readMask (x : Ex) (uni : Bool) : Word := if uni then laneBit x.low else x.g.lanes

/-- The mailboxes and queues a list of sources names. -/
def srcMailboxes (srcs : List Src) : List Nat := (srcs.filter (fun q => isMailbox q.spec)).map (fun q => q.spec.toNat - 0x90) |>.eraseDups
def srcQueues (srcs : List Src) : List Nat := (srcs.filter (fun q => isQueue q.spec)).map (fun q => q.spec.toNat - 0x88)

/-- Whether a waiting reader or writer may have its turn: nobody is waiting ahead of it (R192). -/
def myTurn (ts : List Nat) (tok : Nat) : Bool := match ts with | [] => true | t :: _ => t == tok

/-- An order of waits with a token at its end, unless it stands there already. -/
def addToken (tok : Nat) (ts : List Nat) : List Nat := if ts.contains tok then ts else ts ++ [tok]

/-- A context's mailboxes and queues with a reader waiting at those of two lists; in a queue's order it stands once for each entry that it reads. -/
def queueUp (cc : CtxCore) (tok : Nat) (boxes queues : List Nat) : CtxCore :=
  { cc with mailboxes := boxes.foldl (fun bs k => let b := bs.getD k .fresh; setAt bs k { b with readers := addToken tok b.readers }) cc.mailboxes
            queues := queues.eraseDups.foldl (fun qs k =>
              let q := qs.getD k .fresh
              setAt qs k { q with readers := if q.readers.contains tok then q.readers else q.readers ++ List.replicate (queues.count k) tok }) cc.queues }

/-- What the sources of a word come to. -/
inductive Ready where
  | go
  | hold (m : Mach) (x : Ex) (k : Wait)
  | bad (f : FaultInfo)
  deriving DecidableEq, Repr

/-- Whether the sources of a word are there (R186, R192, R195): pending registers and refills, empty mailboxes, queues with too few
entries or with the warp's earlier queue-fed loads; a read of an unbound queue is `ILLEGAL_OP`. -/
def srcReady (m : Mach) (x : Ex) (uni : Bool) (srcs : List Src) (extraRegs : List Nat := []) : Ready :=
  let rs := srcs.flatMap Src.regs ++ extraRegs
  let mask := x.readMask uni
  if rs.any (fun r => x.w.spilled.contains r) then
    let (m, x) := startFills m x rs
    .hold m x .register
  else if rs.any (x.w.pendingIn mask) then .hold m x .register
  else
    let cc := m.ctxCore x.w.ctx x.core
    let qs := srcQueues srcs
    if qs.any (fun k => (cc.queues.getD k .fresh).kind == 0) then .bad (plainFault .illegalOp)
    else if qs.any (fun k => x.w.pends.any (fun p => p.kind == .queueFed k)) then .hold m x .blocking
    else
      let tok := waitToken x.w x.g
      let empty := (srcMailboxes srcs).filter (fun k =>
        let b := cc.mailboxes.getD k .fresh
        !b.full || !myTurn b.readers tok)
      if !empty.isEmpty then .hold (m.setCtxCore x.w.ctx x.core (queueUp cc tok empty [])) x .blocking
      else if qs.any (fun k => let q := cc.queues.getD k .fresh; q.entries.length < qs.count k || !myTurn q.readers tok) then .hold m x .blocking
      else .go

/-- The machine once a word that waits further has read its sources: until it takes effect no other word takes them (R72, R192). -/
def claimSources (m : Mach) (x : Ex) (srcs : List Src) : Mach :=
  if (srcMailboxes srcs).isEmpty && (srcQueues srcs).isEmpty then m
  else m.adjCtxCore x.w.ctx x.core (fun cc => queueUp cc (waitToken x.w x.g) (srcMailboxes srcs) (srcQueues srcs))

/-- What a specifier delivers to a lane (R200); `nth` counts the earlier namings of the same queue. -/
def srcValue (cc : CtxCore) (x : Ex) (q : Src) (nth l : Nat) : DWord :=
  let k := q.spec.toNat
  if k < 0x80 then
    match q.kind with
    | .pair => pairOf (x.w.regLane k l) (x.w.regLane (k + 1) l)
    | _ => (x.w.regLane k l).setWidth 64
  else if k ≤ 0x82 then (laneOf (x.r.latches.getD (k - 0x80) zeroVec) l).setWidth 64
  else if k = 0x84 then BitVec.ofNat 64 l
  else if k = 0x85 then BitVec.ofNat 64 x.w.homeSlot
  else if isQueue q.spec then ((cc.queues.getD (k - 0x88) .fresh).entries.getD nth 0).setWidth 64
  else if isMailbox q.spec then ((cc.mailboxes.getD (k - 0x90) .fresh).value).setWidth 64
  else if isImm q.spec then immValue q.kind q.spec
  else 0

/-- The values of a list of sources in a lane, in order. -/
def srcValues (cc : CtxCore) (x : Ex) (l : Nat) : List Src → List (BitVec 8) → List DWord
  | [], _ => []
  | q :: qs, seen => srcValue cc x q (seen.count q.spec) l :: srcValues cc x l qs (q.spec :: seen)

/-- The sources taken: mailboxes emptied, queue entries popped (R192, R195). -/
def takeSources (cc : CtxCore) (x : Ex) (srcs : List Src) : CtxCore :=
  let tok := waitToken x.w x.g
  let boxes := (srcMailboxes srcs).foldl (fun bs k =>
    let b := bs.getD k .fresh
    setAt bs k { b with full := false, readers := b.readers.filter (· ≠ tok) }) cc.mailboxes
  let queues := (srcQueues srcs).foldl (fun qs k =>
    let q := qs.getD k .fresh
    setAt qs k { q with entries := q.entries.drop 1, readers := q.readers.filter (· ≠ tok) }) cc.queues
  { cc with mailboxes := boxes, queues := queues }

/-- The writes that happen before the fills of the mailboxes that a list of sources names (R193). -/
def takenKnow (cc : CtxCore) (srcs : List Src) : List Nat := (srcMailboxes srcs).flatMap (fun k => (cc.mailboxes.getD k .fresh).know)

/-- The word after it has taken its sources, as `m` held them: the take of a mailbox is an acquire at `.core` of what happens before its fill (R193). -/
def Ex.taken (x : Ex) (m : Mach) (srcs : List Src) : Ex :=
  (if (srcMailboxes srcs).isEmpty then x else x.learn m (takenKnow (m.ctxCore x.w.ctx x.core) srcs)).touch (srcs.flatMap Src.regs)

/-- The writes that happen before a mailbox fill by a word: its warp's history, and what the word itself has taken (R193). -/
def Ex.fillKnow (x : Ex) (m : Mach) (srcs : List Src) : List Nat := (x.taken m srcs).w.history m

/-! Renaming (R181 to R184). -/

/-- Whether a pending result is a term step's. -/
def Pend.isTerm (p : Pend) : Bool := p.kind matches .term ..

/-- Physical registers that results under way have taken: none for a refill until it is made (R184), and none again for a step that joins a lease (R188). -/
def pendRegs : List Pend → Nat
  | [] => 0
  | p :: ps => (if p.kind == .fill || (p.isTerm && ps.any (fun q => q.isTerm && q.reg == p.reg)) then 0 else p.count) + pendRegs ps

/-- The values that snapshots alone keep, each once (R181, R287): registers written again since, with how often they had been written. -/
def Warp.retained (w : Warp) : List (Nat × Nat) :=
  ((w.levels.flatMap (fun l => (mkeys l.snapshot.regs).map (fun r => (r, genOf l.snapshot.gens r)))).eraseDups).filter (fun e => genOf w.gens e.1 ≠ e.2)

/-- The retained values that hold a physical register. -/
def Warp.retainedHere (w : Warp) : List (Nat × Nat) := w.retained.filter (fun e => !w.away.contains e)

/-- Physical registers that a warp holds in each lane position: resident live registers, results under way, and the retained values of
open levels. -/
def Warp.physRegs (w : Warp) : Nat := (w.regs.filter (fun e => !w.spilled.contains e.1)).length + pendRegs w.pends + w.retainedHere.length

/-- Free physical registers of a core's lane position, of 4,096 (R181); a warp that has ended holds its own until its leases have (R189). -/
def freeRegs (m : Mach) (core : Nat) : Nat :=
  4096 - (((m.core core).warps.foldl (fun n e => n + e.2.physRegs) 0) + ((m.core core).leaving.foldl (fun n w => n + w.physRegs) 0))

/-- The trailer's ranges as registers (R51): a range that would pass `v127` ends there. -/
def rangeRegs (g : Nat) : List Nat :=
  let lo := 4 * (g / 2)
  (List.range (if g % 2 = 1 then 16 else 4)).map (· + lo) |>.filter (· < 128)

/-- The registers that a `TRAIL` word names (R65): a word that is itself in fault names none. -/
def trailRegs (w : Word) : List Nat :=
  match decodeWord w with
  | .ok (.trail v c e f g h) =>
    if (staticFault (.trail v c e f g h)).isNone then ([e, f, g, h].take c.toNat).flatMap (fun k => rangeRegs k.toNat) else []
  | _ => []

/-- The registers that the trailers of a warp's runs name (R65). -/
def Warp.trailed (w : Warp) : List Nat := (w.groups ++ w.hgroups).flatMap (fun g => g.run.elim [] (fun r => r.words.getLast?.elim [] trailRegs))

/-- The live registers that may be spilled: not leased, pending, or named by a range of a current run (R183). -/
def Warp.spillable (w : Warp) : List Nat :=
  (mkeys w.regs).filter (fun r => !w.spilled.contains r && !(w.pends.any (fun p => p.reg ≤ r && r < p.reg + p.count)) && !w.trailed.contains r)

/-- The values that may be spilled, least recently used first (R183, R287): those registers, and the retained values of open levels. -/
def Warp.spillOrder (w : Warp) : List (Nat × Nat) :=
  let all := w.retainedHere ++ w.spillable.map (fun r => (r, genOf w.gens r))
  all.filter (fun e => !w.lru.contains e) ++ w.lru.reverse.filter all.contains

/-- What a candidate's burst moves (R183, R287): its 8 least recently used values, each by its register and how often that had been written. -/
def Warp.burst (w : Warp) : List (Nat × Nat) := w.spillOrder.take 8

/-- A warp after its burst. -/
def Warp.spill (w : Warp) : Warp :=
  { w with spilled := w.spilled ++ (w.burst.filter (fun e => genOf w.gens e.1 = e.2)).map (·.1), away := w.away ++ w.burst.filter (fun e => genOf w.gens e.1 ≠ e.2) }

/-- The values of a warp in its Satchel. -/
def Warp.inSatchel (w : Warp) : Nat := w.spilled.length + w.away.length

/-- The Satchel quota of a warp in bytes (R182): SATQ of its grid's launch record. -/
def satchelQuota (m : Mach) (w : Warp) : Nat :=
  match mget m.grids w.grid with
  | some g => bytesToNat ((g.record.drop 54).take 2) * 1024
  | none => 0

/-- The candidates for a spill burst in order (R183): the pending set, least recently issued first, then the rest of the active set. DESIGN CHOICE: a warp none of whose
registers may be spilled counts as no candidate, so that a requester that finds only such warps waits (log 125). -/
def spillCandidates (m : Mach) (core pos : Nat) : List (Nat × Warp) :=
  let c := m.core core
  let ws := c.warps.filter (fun e => e.1 ≠ pos && !e.2.burst.isEmpty)
  let sortOld := fun (l : List (Nat × Warp)) => sortBy (fun e => e.2.lastRun) l
  sortOld (ws.filter (fun e => !c.active.contains e.1)) ++ sortOld (ws.filter (fun e => c.active.contains e.1))

/-- What a request for physical registers comes to. -/
inductive Alloc where
  | ok (m : Mach)
  | wait
  | quota
  deriving DecidableEq, Repr

/-- Room made for `k` physical registers on a core, by at most `fuel` spill bursts (R183). When a candidate exists but none has room in
its Satchel, no register moves. -/
def makeRoom : Nat → Mach → Nat → Nat → Nat → Alloc
  | 0, _, _, _, _ => .wait
  | fuel + 1, m, core, pos, k =>
    if k ≤ freeRegs m core then .ok m
    else
      match spillCandidates m core pos with
      | [] => .wait
      | cs =>
        match cs.find? (fun e => (e.2.inSatchel + e.2.burst.length) * 128 ≤ satchelQuota m e.2) with
        | none => .quota
        | some e => makeRoom fuel (m.adjWarp core e.1 Warp.spill) core pos k

/-! Destinations. -/

/-- Whether every store a warp has issued is performed or recorded (R302). -/
def drained (m : Mach) (uid : Nat) : Bool := m.stores.all (fun st => st.warp ≠ uid)

/-- What a destination comes to before the word takes effect. -/
inductive DstReady where
  | go (m : Mach)
  | hold (m : Mach) (k : Wait)
  | bad (f : FaultInfo)
  deriving DecidableEq, Repr

/-- Room for a block of `v` registers that a word will write (R186, R188, R183). DESIGN CHOICE: a block leased in some of the active lanes alone raises `LEASE_WRITE` in
every active lane (log 124). -/
def regsReady (m : Mach) (x : Ex) (r count : Nat) : DstReady :=
  let rs := (List.range count).map (· + r)
  if rs.any (x.w.leasedIn x.g.lanes) then .bad (plainFault .leaseWrite)
  else if rs.any (x.w.pendingIn x.g.lanes) then .hold m .register
  else if 34 ≤ x.pos then .go m   -- a sequencer's registers are its own
  else
    match makeRoom 40 m x.core x.pos count with
    | .ok m => .go m
    | .wait => .hold m .register
    | .quota => .bad (mkFault .spillQuota 0 0 count)

/-- A destination of any class (R192, R195): `taken` are the sources taken by the same word, which empty a mailbox and make room in a
queue before the result is written. -/
def dstReady (m : Mach) (x : Ex) (srcs : List Src) (nw : Bool) (d : BitVec 8) (count : Nat) : DstReady :=
  if nw then .go m
  else if isV d then regsReady m x d.toNat count
  else if isMailbox d then
    let cc := m.ctxCore x.w.ctx x.core
    let k := d.toNat - 0x90
    let b := (takeSources cc x srcs).mailboxes.getD k .fresh
    let tok := waitToken x.w x.g
    -- a fill is a release at `.core` (R193); a word that takes from the mailbox it fills makes both at once (log 99)
    if !drained m x.w.uid || b.full || !(myTurn b.writers tok || (srcMailboxes srcs).contains k) then
      let b := cc.mailboxes.getD k .fresh
      .hold (m.setCtxCore x.w.ctx x.core { cc with mailboxes := setAt cc.mailboxes k { b with writers := addToken tok b.writers } }) .blocking
    else .go m
  else if isQueue d then
    let cc := m.ctxCore x.w.ctx x.core
    let q := (takeSources cc x srcs).queues.getD (d.toNat - 0x88) .fresh
    if q.kind ≠ 1 then .bad (plainFault .illegalOp)
    else if 32 ≤ q.entries.length then .hold m .blocking
    else .go m
  else .go m

/-- A mailbox filled (R192): `know` are the writes that happen before the fill (R193). -/
def fillMailbox (cc : CtxCore) (tok k : Nat) (v : Word) (know : List Nat) : CtxCore :=
  let b := cc.mailboxes.getD k .fresh
  { cc with mailboxes := setAt cc.mailboxes k { b with value := v, full := true, know := know, writers := b.writers.filter (· ≠ tok) } }

/-- A queue pushed (R195). -/
def pushQueue (cc : CtxCore) (k : Nat) (v : Word) : CtxCore :=
  let q := cc.queues.getD k .fresh
  { cc with queues := setAt cc.queues k { q with entries := q.entries ++ [v] } }

/-- A result written to its destination: the active lanes of `v` registers; the lowest active lane's result to a mailbox, with what happens before the fill, or to a
queue. -/
def writeDst (cc : CtxCore) (x : Ex) (know : List Nat) (d : BitVec 8) (count : Nat) (res : Nat → List Word) : CtxCore × Ex :=
  if isV d then
    (cc, { x with w := (List.range count).foldl (fun w i => w.writeReg (d.toNat + i) x.g.lanes (fun l => (res l).getD i 0)) x.w })
  else if isMailbox d then (fillMailbox cc (waitToken x.w x.g) (d.toNat - 0x90) ((res x.low).getD 0 0) know, x)
  else if isQueue d then (pushQueue cc (d.toNat - 0x88) ((res x.low).getD 0 0), x)
  else (cc, x)

/-- The latches shifted by a result (R59): at most three are kept. -/
def shiftLatches (x : Ex) (res : Nat → List Word) : Ex :=
  let v := (List.range 32).map (fun l => if inMask x.g.lanes l then (res l).getD 0 0 else 0)
  { x with r := { x.r with latches := (v :: x.r.latches).take 3 } }

/-- The lanes of a word that fault, with their faults: a uniform word computes once, and a fault parks every active lane (R42). -/
def laneFaults (x : Ex) (uni : Bool) (res : Nat → Except FaultInfo (List Word)) : List (Nat × FaultInfo) :=
  if uni then
    match res x.low with
    | .error f => x.lanes.map (fun l => (l, f))
    | .ok _ => []
  else x.lanes.filterMap (fun l => match res l with | .error f => some (l, f) | .ok _ => none)

/-- The result of a lane, where it does not fault. -/
def okResult (x : Ex) (uni : Bool) (res : Nat → Except FaultInfo (List Word)) (l : Nat) : List Word :=
  match res (if uni then x.low else l) with | .ok v => v | .error _ => []

/-- THE SHARED OPERATION of register instructions (R201): the sources are awaited and read, the destination awaited and checked, the
result computed lane by lane, faults delivered, and then the sources are taken, the result written, and the latches shifted when the
instruction is latch-producing. `f` computes a lane's result from the source values of every lane. -/
def regOp (m : Mach) (x : Ex) (uni : Bool) (srcs : List Src) (nw : Bool) (d : BitVec 8) (count : Nat) (latch : Bool)
    (f : (Nat → List DWord) → Nat → Except FaultInfo (List Word)) : Mach :=
  match srcReady m x uni srcs with
  | .hold m x k => m.hold x k
  | .bad e => deliverAll m x e
  | .go =>
    match dstReady m x srcs nw d count with
    | .hold m k => m.hold x k
    | .bad e => deliverAll m x e
    | .go m =>
      let cc := m.ctxCore x.w.ctx x.core
      let vals := fun l => srcValues cc x (if uni then x.low else l) srcs []
      let res := f vals
      match deliver m x (laneFaults x uni res) with
      | (m, none) => m
      | (m, some y) =>
        let out := okResult x uni res
        let cc := takeSources cc x srcs
        let y := if latch then shiftLatches y out else y
        let (cc, y) := if nw then (cc, y) else writeDst cc y (x.fillKnow m srcs) d count out
        (m.setCtxCore x.w.ctx x.core cc).advance (y.taken m srcs)

/-- What the effect of a uniform instruction comes to: its result words, a fault of every active lane, a wait, or the end of the warp or
of its run (the machine stands as it is). -/
inductive Eff where
  | ok (m : Mach) (x : Ex) (res : List Word)
  | bad (f : FaultInfo) (m : Mach)
  | badOf (f : FaultInfo) (m : Mach) (x : Ex)   -- a fault after an effect that stays (R242)
  | hold (m : Mach) (x : Ex) (k : Wait)
  | gone (m : Mach)
  deriving DecidableEq, Repr

/-- THE SHARED OPERATION of uniform instructions with an effect beyond a register (R42): the sources are awaited and read in the lowest
active lane, the destination awaited and checked, the effect made once, and then the sources are taken and the result written in every
active lane. It shifts no latch. -/
def uniEffect (m : Mach) (x : Ex) (srcs : List Src) (d : BitVec 8) (count : Nat) (f : List DWord → Mach → Ex → Eff) : Mach :=
  match srcReady m x true srcs with
  | .hold m x k => m.hold x k
  | .bad e => deliverAll m x e
  | .go =>
    match dstReady m x srcs false d count with
    | .hold m k => m.hold x k
    | .bad e => deliverAll m x e
    | .go m =>
      let know := x.fillKnow m srcs
      match f (srcValues (m.ctxCore x.w.ctx x.core) x x.low srcs []) m x with
      | .bad e m => deliverAll m x e
      | .badOf e m x => deliverAll m x e
      | .hold m x k => m.hold x k
      | .gone m => m
      | .ok m x res =>
        let cc := takeSources (m.ctxCore x.w.ctx x.core) x srcs
        let (cc, x) := writeDst cc x know d count (fun _ => res)
        (m.setCtxCore x.w.ctx x.core cc).advance (x.taken m srcs)

/-- The end of a uniform word that has waited after its sources were read: they are taken and the result is written, once the destination is ready. Its effect is made, so
that it does not fault for want of registers any more, which it had when it issued (R183): it waits for them. -/
def completeUni (m : Mach) (x : Ex) (srcs : List Src) (d : BitVec 8) (count : Nat) (res : List Word) : Mach :=
  match dstReady m x srcs false d count with
  | .hold m _ => m.put x
  | .bad e => if e.cause = .spillQuota then m.put x else deliverAll m x e
  | .go m =>
    let cc := takeSources (m.ctxCore x.w.ctx x.core) x srcs
    let (cc, x) := writeDst cc x (x.fillKnow m srcs) d count (fun _ => res)
    (m.setCtxCore x.w.ctx x.core cc).advance (x.taken m srcs)

/-- The specifier `zero`, for instructions without a destination. -/
def zeroSpec : BitVec 8 := 0x83

/-- A meaning over the word being executed: a fault when no warp is issuing. -/
def onWord (s : State) (f : Ex → Mach) : Host.Outcome State Fault Refusal :=
  match s.ex? with
  | none => .fault .noWarp
  | some x => .next (s.withM (f x))

/-- NW as a flag (R61). -/
def nwOf (n : BitVec 1) : Bool := n == 1

/-- A lane instruction of one result word, over 32-bit sources. -/
def laneOp (s : State) (srcs : List Src) (n : BitVec 1) (d : BitVec 8) (f : List DWord → Word) : Host.Outcome State Fault Refusal :=
  onWord s (fun x => regOp s.m x false srcs (nwOf n) d 1 true (fun vals l => .ok [f (vals l)]))

/-- A uniform instruction of one result word (R42, R230). -/
def uniOp (s : State) (srcs : List Src) (n : BitVec 1) (d : BitVec 8) (f : List DWord → Word) : Host.Outcome State Fault Refusal :=
  onWord s (fun x => regOp s.m x true srcs (nwOf n) d 1 true (fun vals l => .ok [f (vals l)]))

/-- The first three values of a list of sources, as words. -/
def arg (vs : List DWord) (i : Nat) : Word := (vs.getD i 0).setWidth 32
/-- A value of a list of sources, as a pair. -/
def argPair (vs : List DWord) (i : Nat) : DWord := vs.getD i 0

end Sys2Proof.Machine
end

