-- ==== Sys2Proof/Machine/Arith.lean ====
section
/-! DEFINITION. Lane arithmetic and the uniform ALU: integer, logic, shifts and bit fields, compares, select and constants, scalar
and packed floating point, special functions (R201 to R218, R230). -/

namespace Sys2Proof.Machine

abbrev Out := Host.Outcome State Fault Refusal

/-- A 32-bit integer source. -/
def srcI (s : BitVec 8) : Src := { spec := s, kind := .int }
/-- A pair source. -/
def srcW (s : BitVec 8) : Src := { spec := s, kind := .pair }
/-- Sources of the float forms. -/
def srcF (s : BitVec 8) : Src := { spec := s, kind := .f32 }
def srcH (s : BitVec 8) : Src := { spec := s, kind := .h16 }
def srcH2 (s : BitVec 8) : Src := { spec := s, kind := .h2 }
def srcB2 (s : BitVec 8) : Src := { spec := s, kind := .b2 }

/-- A lane instruction of two integer sources. -/
def lane2 (s : State) (n : BitVec 1) (d a b : BitVec 8) (f : Word → Word → Word) : Out :=
  laneOp s [srcI a, srcI b] n d (fun v => f (arg v 0) (arg v 1))
/-- A lane instruction of two integer sources and D (R58). -/
def lane3 (s : State) (n : BitVec 1) (d a b : BitVec 8) (f : Word → Word → Word → Word) : Out :=
  laneOp s [srcI a, srcI b, srcI d] n d (fun v => f (arg v 0) (arg v 1) (arg v 2))
/-- A lane instruction of one integer source. -/
def lane1 (s : State) (n : BitVec 1) (d a : BitVec 8) (f : Word → Word) : Out := laneOp s [srcI a] n d (fun v => f (arg v 0))
/-- The uniform counterparts (R230). -/
def uni2 (s : State) (n : BitVec 1) (d a b : BitVec 8) (f : Word → Word → Word) : Out :=
  uniOp s [srcI a, srcI b] n d (fun v => f (arg v 0) (arg v 1))
def uni3 (s : State) (n : BitVec 1) (d a b : BitVec 8) (f : Word → Word → Word → Word) : Out :=
  uniOp s [srcI a, srcI b, srcI d] n d (fun v => f (arg v 0) (arg v 1) (arg v 2))

/-! What each instruction computes. -/

/-- Truth as a register value (R210). -/
def boolWord (b : Bool) : Word := if b then 1 else 0
def mulhS (a b : Word) : Word := BitVec.ofInt 32 ((a.toInt * b.toInt) / 2 ^ 32)
def mulhN (a b : Word) : Word := BitVec.ofNat 32 (a.toNat * b.toNat / 2 ^ 32)
/-- Byte `i` and half `i` of a word. -/
def byteOf (w : Word) (i : Nat) : BitVec 8 := BitVec.ofNat 8 (natBits w.toNat (8 * i) 8)
def halfOf (w : Word) (i : Nat) : BitVec 16 := BitVec.ofNat 16 (natBits w.toNat (16 * i) 16)
def satS32 (x : Int) : Word := BitVec.ofInt 32 (clampInt (-2147483648) 2147483647 x)
def satN32 (x : Int) : Word := BitVec.ofInt 32 (clampInt 0 4294967295 x)
/-- R206: exact totals, saturated once. -/
def idot4S (a b d : Word) : Word :=
  satS32 (d.toInt + ((List.range 4).map (fun i => (byteOf a i).toInt * (byteOf b i).toInt)).foldl (· + ·) 0)
def idot4N (a b d : Word) : Word :=
  satN32 ((d.toNat : Int) + (((List.range 4).map (fun i => (byteOf a i).toNat * (byteOf b i).toNat)).foldl (· + ·) 0 : Nat))
def idot2S (a b d : Word) : Word :=
  satS32 (d.toInt + ((List.range 2).map (fun i => (halfOf a i).toInt * (halfOf b i).toInt)).foldl (· + ·) 0)
def minS (x y : Word) : Word := if x.toInt ≤ y.toInt then x else y
def maxS (x y : Word) : Word := if x.toInt ≤ y.toInt then y else x
def minN (x y : Word) : Word := if x.toNat ≤ y.toNat then x else y
def maxN (x y : Word) : Word := if x.toNat ≤ y.toNat then y else x
def absS (a : Word) : Word := if a.toInt < 0 then -a else a
/-- Leading zero bits, counted from bit `k - 1` down. -/
def clzFrom (a : Word) : Nat → Nat
  | 0 => 0
  | k + 1 => if a.getLsbD k then 0 else 1 + clzFrom a k
def clzWord (a : Word) : Word := BitVec.ofNat 32 (clzFrom a 32)
def popcNat (a : Word) : Nat := (maskLanes a).length
def popcWord (a : Word) : Word := BitVec.ofNat 32 (popcNat a)
def brevWord (a : Word) : Word := maskOf ((maskLanes a).map (fun i => 31 - i))
/-- R207 SATN: the value read as `.s32`, clamped to the type, extended. -/
def satnWord (t : Nat) (a : Word) : Word :=
  BitVec.ofInt 32 (match t with
    | 0 => clampInt (-128) 127 a.toInt
    | 1 => clampInt 0 255 a.toInt
    | 2 => clampInt (-32768) 32767 a.toInt
    | _ => clampInt 0 65535 a.toInt)
/-- R208: shifts by 32 or more clear the word, or fill it with its sign. -/
def shlWord (a s : Word) : Word := a <<< s.toNat
def shrWord (a s : Word) : Word := a >>> s.toNat
def sarWord (a s : Word) : Word := BitVec.ofInt 32 (a.toInt / 2 ^ (min s.toNat 32))
def fshlWord (a b d : Word) : Word := BitVec.ofNat 32 ((d.toNat * 2 ^ 32 + a.toNat) * 2 ^ (b.toNat % 32) / 2 ^ 32)
def fshrWord (a b d : Word) : Word := BitVec.ofNat 32 ((a.toNat * 2 ^ 32 + d.toNat) / 2 ^ (b.toNat % 32))
/-- R209: LEN of a field description, 33 to 63 acting as 32. -/
def bfLen (b : Word) : Nat := min (natBits b.toNat 5 6) 32
def bfPos (b : Word) : Nat := b.toNat % 32
def bfxWord (a b : Word) : Word :=
  let len := bfLen b
  let f := a.toNat / 2 ^ bfPos b % 2 ^ len
  if b.getLsbD 11 ∧ 0 < len then BitVec.ofInt 32 (toSigned len f) else BitVec.ofNat 32 f
def bfiWord (a b d : Word) : Word :=
  let m : Word := BitVec.ofNat 32 ((2 ^ bfLen b - 1) * 2 ^ bfPos b)
  (d &&& ~~~m) ||| ((a <<< bfPos b) &&& m)
def selWord (a b d : Word) : Word := if a ≠ 0 then b else d
def hiwWord (i : BitVec 16) (d : Word) : Word := BitVec.ofNat 32 (i.toNat * 65536 + d.toNat % 65536)
/-- FP32 patterns as words. -/
def f2 (f : Nat → Nat → Nat) (a b : Word) : Word := BitVec.ofNat 32 (f a.toNat b.toNat)
/-- binary16 in the low half; the high half is written as zero (R201). -/
def h2op (f : Nat → Nat → Nat) (a b : Word) : Word := BitVec.ofNat 32 (f (a.toNat % 65536) (b.toNat % 65536))
/-- Each half on its own (R218). -/
def packed2 (f : Nat → Nat → Nat) (a b : Word) : Word :=
  BitVec.ofNat 32 (f (a.toNat / 65536) (b.toNat / 65536) * 65536 + f (a.toNat % 65536) (b.toNat % 65536))
def packed3 (f : Nat → Nat → Nat → Nat) (a b d : Word) : Word :=
  BitVec.ofNat 32 (f (a.toNat / 65536) (b.toNat / 65536) (d.toNat / 65536) * 65536 + f (a.toNat % 65536) (b.toNat % 65536) (d.toNat % 65536))
/-- The conversions of R216 by code (R67). -/
def fcvtWord (c : Nat) (a : Word) : Word :=
  let x := a.toNat
  let h := x % 65536
  match c with
  | 0 => BitVec.ofNat 32 (convertFloat fp32 fp16 x)
  | 1 => BitVec.ofNat 32 (convertFloat fp32 bf16 x)
  | 2 => BitVec.ofNat 32 (convertFloat fp16 fp32 h)
  | 3 => BitVec.ofNat 32 (convertFloat bf16 fp32 h)
  | 4 => BitVec.ofNat 32 (convertFloat bf16 fp16 h)
  | 5 => BitVec.ofNat 32 (convertFloat fp16 bf16 h)
  | 6 => BitVec.ofNat 32 (fp32.round (Fl.ofInt a.toInt))
  | 7 => BitVec.ofNat 32 (fp32.round (Fl.ofInt a.toNat))
  | 8 => BitVec.ofInt 32 (floatToInt (-2147483648) 2147483647 x)
  | _ => BitVec.ofInt 32 (floatToInt 0 4294967295 x)
/-- The source type of a conversion code: float codes read a float position, 6 and 7 an integer one (R56). -/
def fcvtKind (c : Nat) : OpKind :=
  match c with
  | 2 | 5 => .h16
  | 3 | 4 => .b16
  | 6 | 7 => .int
  | _ => .f32
def classWord (t : Nat) (a : Word) : Word :=
  BitVec.ofNat 32 (match t with
    | 0 => fp32.classMask a.toNat
    | 1 => fp16.classMask (a.toNat % 65536)
    | _ => bf16.classMask (a.toNat % 65536))
def classKind (t : Nat) : OpKind := match t with | 0 => .f32 | 1 => .h16 | _ => .b16

/-! Integer arithmetic (R205 to R207). -/

def execIadd (n : BitVec 1) (d a b : BitVec 8) (s : State) : Out := lane2 s n d a b (· + ·)
def execIsub (n : BitVec 1) (d a b : BitVec 8) (s : State) : Out := lane2 s n d a b (· - ·)
def execImul (n : BitVec 1) (d a b : BitVec 8) (s : State) : Out := lane2 s n d a b (· * ·)
def execImad (n : BitVec 1) (d a b : BitVec 8) (s : State) : Out := lane3 s n d a b (fun x y z => x * y + z)
def execImulhS32 (n : BitVec 1) (d a b : BitVec 8) (s : State) : Out := lane2 s n d a b mulhS
def execImulhN32 (n : BitVec 1) (d a b : BitVec 8) (s : State) : Out := lane2 s n d a b mulhN

/-- A pair plus a 32-bit value extended (R205): D and A are pairs, B is one 32-bit position; not latch-producing. -/
def pairAdd (s : State) (d a b : BitVec 8) (ext : Word → DWord) : Out :=
  onWord s (fun x => regOp s.m x false [srcW a, srcI b] false d 2 false (fun vals l =>
    let r := argPair (vals l) 0 + ext (arg (vals l) 1)
    .ok [DWord.lo r, DWord.hi r]))
def execIaddS64 (d a b : BitVec 8) (s : State) : Out := pairAdd s d a b (fun y => y.signExtend 64)
def execIaddN64 (d a b : BitVec 8) (s : State) : Out := pairAdd s d a b (fun y => y.setWidth 64)

def execIdot4S8 (n : BitVec 1) (d a b : BitVec 8) (s : State) : Out := lane3 s n d a b idot4S
def execIdot4N8 (n : BitVec 1) (d a b : BitVec 8) (s : State) : Out := lane3 s n d a b idot4N
def execIdot2S16 (n : BitVec 1) (d a b : BitVec 8) (s : State) : Out := lane3 s n d a b idot2S
def execImin (n : BitVec 1) (d a : BitVec 8) (t : BitVec 1) (s : State) : Out :=
  laneOp s [srcI a, srcI d] n d (fun v => if t = 0 then minS (arg v 1) (arg v 0) else minN (arg v 1) (arg v 0))
def execImax (n : BitVec 1) (d a : BitVec 8) (t : BitVec 1) (s : State) : Out :=
  laneOp s [srcI a, srcI d] n d (fun v => if t = 0 then maxS (arg v 1) (arg v 0) else maxN (arg v 1) (arg v 0))
def execIabsS32 (n : BitVec 1) (d a : BitVec 8) (s : State) : Out := lane1 s n d a absS
def execClz (n : BitVec 1) (d a : BitVec 8) (s : State) : Out := lane1 s n d a clzWord
def execPopc (n : BitVec 1) (d a : BitVec 8) (s : State) : Out := lane1 s n d a popcWord
def execBrev (n : BitVec 1) (d a : BitVec 8) (s : State) : Out := lane1 s n d a brevWord
def execSatn (n : BitVec 1) (d a : BitVec 8) (t : BitVec 2) (s : State) : Out := lane1 s n d a (satnWord t.toNat)

/-- `MOV` from a queue to a `v` register: the queue-fed load (R195, R207). It leases D and issues without waiting; the queue must be
bound. -/
def queueFedMov (s : State) (d a : BitVec 8) (x : Ex) : Mach :=
  let m := s.m
  let k := a.toNat - 0x88
  if ((m.ctxCore x.w.ctx x.core).queues.getD k .fresh).kind = 0 then deliverAll m x (plainFault .illegalOp)
  else
    match regsReady m x d.toNat 1 with
    | .hold m w => m.hold x w
    | .bad f => deliverAll m x f
    | .go m =>
      let (id, m) := m.newId
      let p : Pend := { id := id, kind := .queueFed k, lanes := x.g.lanes, reg := d.toNat, count := 1, vals := [], pc := x.pc, run := x.r.pos, addrs := [], sync := false }
      m.advance { x with w := { x.w with pends := x.w.pends ++ [p] } }

/-- `MOV` (R207): a move; with a queue source, the queue-fed load or the waiting forms of R195, which are not latch-producing. -/
def execMov (n : BitVec 1) (d a : BitVec 8) (s : State) : Out :=
  if isQueue a then
    onWord s (fun x =>
      if isV d then queueFedMov s d a x
      else regOp s.m x false [srcI a] false d 1 false (fun vals l => .ok [arg (vals l) 0]))
  else lane1 s n d a id

/-! Logic, shifts and bit fields (R208, R209). -/

def execAnd (n : BitVec 1) (d a b : BitVec 8) (s : State) : Out := lane2 s n d a b (· &&& ·)
def execOr (n : BitVec 1) (d a b : BitVec 8) (s : State) : Out := lane2 s n d a b (· ||| ·)
def execXor (n : BitVec 1) (d a b : BitVec 8) (s : State) : Out := lane2 s n d a b (· ^^^ ·)
def execAndn (n : BitVec 1) (d a b : BitVec 8) (s : State) : Out := lane2 s n d a b (fun x y => x &&& ~~~y)
def execShl (n : BitVec 1) (d a b : BitVec 8) (s : State) : Out := lane2 s n d a b shlWord
def execShr (n : BitVec 1) (d a b : BitVec 8) (s : State) : Out := lane2 s n d a b shrWord
def execSar (n : BitVec 1) (d a b : BitVec 8) (s : State) : Out := lane2 s n d a b sarWord
def execFshl (n : BitVec 1) (d a b : BitVec 8) (s : State) : Out := lane3 s n d a b fshlWord
def execFshr (n : BitVec 1) (d a b : BitVec 8) (s : State) : Out := lane3 s n d a b fshrWord
def execBfx (n : BitVec 1) (d a b : BitVec 8) (s : State) : Out := lane2 s n d a b bfxWord
def execBfi (n : BitVec 1) (d a b : BitVec 8) (s : State) : Out := lane3 s n d a b bfiWord

/-! Compare, select and constants (R210 to R212). -/

def execIcmpEq (n : BitVec 1) (d a b : BitVec 8) (s : State) : Out := lane2 s n d a b (fun x y => boolWord (x == y))
def execIcmpNe (n : BitVec 1) (d a b : BitVec 8) (s : State) : Out := lane2 s n d a b (fun x y => boolWord (x != y))
def execIcmpLtS32 (n : BitVec 1) (d a b : BitVec 8) (s : State) : Out := lane2 s n d a b (fun x y => boolWord (x.slt y))
def execIcmpLeS32 (n : BitVec 1) (d a b : BitVec 8) (s : State) : Out := lane2 s n d a b (fun x y => boolWord (x.sle y))
def execIcmpLtN32 (n : BitVec 1) (d a b : BitVec 8) (s : State) : Out := lane2 s n d a b (fun x y => boolWord (x.ult y))
def execIcmpLeN32 (n : BitVec 1) (d a b : BitVec 8) (s : State) : Out := lane2 s n d a b (fun x y => boolWord (x.ule y))

/-- A comparison of FP32 sources. -/
def floatCompare (s : State) (n : BitVec 1) (d a b : BitVec 8) (p : Ordering → Bool) : Out :=
  laneOp s [srcF a, srcF b] n d (fun v => boolWord (fcmp p (arg v 0).toNat (arg v 1).toNat))
def execFcmpEqF (n : BitVec 1) (d a b : BitVec 8) (s : State) : Out := floatCompare s n d a b (· == .eq)
def execFcmpLtF (n : BitVec 1) (d a b : BitVec 8) (s : State) : Out := floatCompare s n d a b (· == .lt)
def execFcmpLeF (n : BitVec 1) (d a b : BitVec 8) (s : State) : Out := floatCompare s n d a b (· != .gt)

def execSel (n : BitVec 1) (d a b : BitVec 8) (s : State) : Out := lane3 s n d a b selWord
def execMovi (n : BitVec 1) (d : BitVec 8) (i : BitVec 16) (s : State) : Out := laneOp s [] n d (fun _ => i.setWidth 32)
def execHiw (n : BitVec 1) (d : BitVec 8) (i : BitVec 16) (s : State) : Out := laneOp s [srcI d] n d (fun v => hiwWord i (arg v 0))

/-! Floating point (R213 to R216). -/

/-- A scalar FP32 instruction. -/
def floatOp (s : State) (n : BitVec 1) (d a b : BitVec 8) (f : Nat → Nat → Nat) : Out :=
  laneOp s [srcF a, srcF b] n d (fun v => f2 f (arg v 0) (arg v 1))
/-- A scalar binary16 instruction. -/
def halfOp (s : State) (n : BitVec 1) (d a b : BitVec 8) (f : Nat → Nat → Nat) : Out :=
  laneOp s [srcH a, srcH b] n d (fun v => h2op f (arg v 0) (arg v 1))
def execFaddF (n : BitVec 1) (d a b : BitVec 8) (s : State) : Out := floatOp s n d a b fp32.add
def execFaddH (n : BitVec 1) (d a b : BitVec 8) (s : State) : Out := halfOp s n d a b fp16.add
def execFsubF (n : BitVec 1) (d a b : BitVec 8) (s : State) : Out := floatOp s n d a b fp32.sub
def execFsubH (n : BitVec 1) (d a b : BitVec 8) (s : State) : Out := halfOp s n d a b fp16.sub
def execFmulF (n : BitVec 1) (d a b : BitVec 8) (s : State) : Out := floatOp s n d a b fp32.mul
def execFmulH (n : BitVec 1) (d a b : BitVec 8) (s : State) : Out := halfOp s n d a b fp16.mul
def execFmaF (n : BitVec 1) (d a b : BitVec 8) (s : State) : Out :=
  laneOp s [srcF a, srcF b, srcF d] n d (fun v => BitVec.ofNat 32 (fp32.fma (arg v 0).toNat (arg v 1).toNat (arg v 2).toNat))
def execFmaH (n : BitVec 1) (d a b : BitVec 8) (s : State) : Out :=
  laneOp s [srcH a, srcH b, srcH d] n d (fun v =>
    BitVec.ofNat 32 (fp16.fma ((arg v 0).toNat % 65536) ((arg v 1).toNat % 65536) ((arg v 2).toNat % 65536)))
def execFminF (n : BitVec 1) (d a : BitVec 8) (s : State) : Out :=
  laneOp s [srcF a, srcF d] n d (fun v => f2 (fp32.minmax false) (arg v 1) (arg v 0))
def execFmaxF (n : BitVec 1) (d a : BitVec 8) (s : State) : Out :=
  laneOp s [srcF a, srcF d] n d (fun v => f2 (fp32.minmax true) (arg v 1) (arg v 0))
def execFclass (n : BitVec 1) (d a : BitVec 8) (t : BitVec 2) (s : State) : Out :=
  laneOp s [{ spec := a, kind := classKind t.toNat }] n d (fun v => classWord t.toNat (arg v 0))
def execFcvt (n : BitVec 1) (d a : BitVec 8) (c : BitVec 5) (s : State) : Out :=
  laneOp s [{ spec := a, kind := fcvtKind c.toNat }] n d (fun v => fcvtWord c.toNat (arg v 0))

/-- A special function (R217). -/
def sfuOp (s : State) (n : BitVec 1) (d a : BitVec 8) (f : Nat → Nat) : Out :=
  laneOp s [srcF a] n d (fun v => BitVec.ofNat 32 (f (arg v 0).toNat))
def execFrcpF (n : BitVec 1) (d a : BitVec 8) (s : State) : Out := sfuOp s n d a frcp
def execFrsqF (n : BitVec 1) (d a : BitVec 8) (s : State) : Out := sfuOp s n d a frsq
def execFsqrtF (n : BitVec 1) (d a : BitVec 8) (s : State) : Out := sfuOp s n d a fsqrt
def execFexp2F (n : BitVec 1) (d a : BitVec 8) (s : State) : Out := sfuOp s n d a fexp2
def execFlog2F (n : BitVec 1) (d a : BitVec 8) (s : State) : Out := sfuOp s n d a flog2
def execFsinF (n : BitVec 1) (d a : BitVec 8) (s : State) : Out := sfuOp s n d a fsin
def execFcosF (n : BitVec 1) (d a : BitVec 8) (s : State) : Out := sfuOp s n d a fcos
def execFtanhF (n : BitVec 1) (d a : BitVec 8) (s : State) : Out := sfuOp s n d a ftanh

/-! Packed pairs (R218). -/

def execPaddH2 (n : BitVec 1) (d a b : BitVec 8) (s : State) : Out :=
  laneOp s [srcH2 a, srcH2 b] n d (fun v => packed2 fp16.add (arg v 0) (arg v 1))
def execPaddB2 (n : BitVec 1) (d a b : BitVec 8) (s : State) : Out :=
  laneOp s [srcB2 a, srcB2 b] n d (fun v => packed2 bf16.add (arg v 0) (arg v 1))
def execPmulH2 (n : BitVec 1) (d a b : BitVec 8) (s : State) : Out :=
  laneOp s [srcH2 a, srcH2 b] n d (fun v => packed2 fp16.mul (arg v 0) (arg v 1))
def execPmulB2 (n : BitVec 1) (d a b : BitVec 8) (s : State) : Out :=
  laneOp s [srcB2 a, srcB2 b] n d (fun v => packed2 bf16.mul (arg v 0) (arg v 1))
def execPfmaH2 (n : BitVec 1) (d a b : BitVec 8) (s : State) : Out :=
  laneOp s [srcH2 a, srcH2 b, srcH2 d] n d (fun v => packed3 fp16.fma (arg v 0) (arg v 1) (arg v 2))
def execPfmaB2 (n : BitVec 1) (d a b : BitVec 8) (s : State) : Out :=
  laneOp s [srcB2 a, srcB2 b, srcB2 d] n d (fun v => packed3 bf16.fma (arg v 0) (arg v 1) (arg v 2))
/-- The form a packed minimum or maximum works in. -/
def packFmt (t : BitVec 1) : Fmt := if t = 0 then fp16 else bf16
def packSrc (t : BitVec 1) (a : BitVec 8) : Src := { spec := a, kind := if t = 0 then .h2 else .b2 }
def execPmin (n : BitVec 1) (d a : BitVec 8) (t : BitVec 1) (s : State) : Out :=
  laneOp s [packSrc t a, packSrc t d] n d (fun v => packed2 ((packFmt t).minmax false) (arg v 1) (arg v 0))
def execPmax (n : BitVec 1) (d a : BitVec 8) (t : BitVec 1) (s : State) : Out :=
  laneOp s [packSrc t a, packSrc t d] n d (fun v => packed2 ((packFmt t).minmax true) (arg v 1) (arg v 0))

/-! The uniform ALU (R230). -/

def execUadd (n : BitVec 1) (d a b : BitVec 8) (s : State) : Out := uni2 s n d a b (· + ·)
def execUsub (n : BitVec 1) (d a b : BitVec 8) (s : State) : Out := uni2 s n d a b (· - ·)
def execUmul (n : BitVec 1) (d a b : BitVec 8) (s : State) : Out := uni2 s n d a b (· * ·)
def execUmad (n : BitVec 1) (d a b : BitVec 8) (s : State) : Out := uni3 s n d a b (fun x y z => x * y + z)
def execUand (n : BitVec 1) (d a b : BitVec 8) (s : State) : Out := uni2 s n d a b (· &&& ·)
def execUor (n : BitVec 1) (d a b : BitVec 8) (s : State) : Out := uni2 s n d a b (· ||| ·)
def execUxor (n : BitVec 1) (d a b : BitVec 8) (s : State) : Out := uni2 s n d a b (· ^^^ ·)
def execUshl (n : BitVec 1) (d a b : BitVec 8) (s : State) : Out := uni2 s n d a b shlWord
def execUshr (n : BitVec 1) (d a b : BitVec 8) (s : State) : Out := uni2 s n d a b shrWord
def execUsel (n : BitVec 1) (d a b : BitVec 8) (s : State) : Out := uni3 s n d a b selWord
/-- `UMOV` waits for the entries of a queue it names, after the warp's earlier queue-fed loads of that queue (R195). -/
def execUmov (n : BitVec 1) (d a : BitVec 8) (s : State) : Out := uniOp s [srcI a] n d (fun v => arg v 0)
def execUmovi (n : BitVec 1) (d : BitVec 8) (i : BitVec 16) (s : State) : Out := uniOp s [] n d (fun _ => i.setWidth 32)
def execUhiw (n : BitVec 1) (d : BitVec 8) (i : BitVec 16) (s : State) : Out := uniOp s [srcI d] n d (fun v => hiwWord i (arg v 0))
def execUcmpEq (n : BitVec 1) (d a b : BitVec 8) (s : State) : Out := uni2 s n d a b (fun x y => boolWord (x == y))
def execUcmpNe (n : BitVec 1) (d a b : BitVec 8) (s : State) : Out := uni2 s n d a b (fun x y => boolWord (x != y))
def execUcmpLtS32 (n : BitVec 1) (d a b : BitVec 8) (s : State) : Out := uni2 s n d a b (fun x y => boolWord (x.slt y))
def execUcmpLeS32 (n : BitVec 1) (d a b : BitVec 8) (s : State) : Out := uni2 s n d a b (fun x y => boolWord (x.sle y))
def execUcmpLtN32 (n : BitVec 1) (d a b : BitVec 8) (s : State) : Out := uni2 s n d a b (fun x y => boolWord (x.ult y))
def execUcmpLeN32 (n : BitVec 1) (d a b : BitVec 8) (s : State) : Out := uni2 s n d a b (fun x y => boolWord (x.ule y))

end Sys2Proof.Machine
end

