-- ==== Sys2Proof/Machine/Forms.lean ====
section
/-! DEFINITION. The number forms of chapter 1 beyond the IEEE ones: the codebook form `.q4` (R18 to R21), the block-exponent form
`.e8` (R23, R24), term lists `.tl` (R25 to R33), the accumulator's contributions (R34 to R36), and format slots (R37 to R39). -/

namespace Sys2Proof.Machine

/-! The codebook (R18). -/

/-- The level of a code, × 256. -/
def codebookC (code : Nat) : Int :=
  [-256, -178, -134, -103, -75, -49, -24, 0, 20, 41, 63, 90, 121, 164, 256, 0].getD code 0

/-- The value of a `.q4` element as FP32 (R21): code, block scale, superblock scale. -/
def decodeQ4 (code bs : Nat) (scale : Nat) : Nat :=
  fp32.round (((Fl.ofInt (codebookC code * bs)).mul (fp32.decode scale)).mul (.fin false 1 (-16)))

/-! The block-exponent form. -/

/-- The exponent that a stored exponent byte stands for (R23). -/
def e8Exp (x : Nat) : Int := (if x = 0xFF then 0x7F else x : Nat) - 127

/-- One pass of the encoder's loop (R24): the magnitudes at exponent byte `x`. -/
def e8Mags (vs : List Fl) (x : Nat) : List Int :=
  vs.map (fun v => match v with
    | .nan => 0
    | .inf neg => if neg then -127 else 127
    | .fin neg m e => let (n, d) := scalePow m 1 (e + 127 - x); rneInt (Fl.signed neg n) d)

/-- The encoder's loop, which runs at most twice for finite data. -/
def e8Loop (vs : List Fl) : Nat → Nat → Nat × List Int
  | 0, x => (x, (e8Mags vs x).map (clampInt (-127) 127))
  | k + 1, x =>
    let ms := e8Mags vs x
    if ms.any (fun m => 127 < m.natAbs) ∧ x < 254 then e8Loop vs k (x + 1) else (x, ms.map (clampInt (-127) 127))

/-- Whether a magnitude lies below another (both positive or zero). -/
def Fl.magLt : Fl → Fl → Bool
  | .fin _ m e, .fin _ m' e' => let l := min e e'; m * 2 ^ (e - l).toNat < m' * 2 ^ (e' - l).toNat
  | _, _ => false

/-- The encoding of up to 32 FP32 patterns as one `.e8` block: exponent byte and magnitudes (R24). -/
def e8Encode (vals : List Nat) : Nat × List Int :=
  let vs := vals.map fp32.decode
  let top := vs.foldl (fun (a : Fl) v => match v with | .fin .. => if a.magLt v then v else a | _ => a) (.fin false 0 0)
  let x := match top with
    | .fin _ m e => if m = 0 then 0x7F else (clampInt 0 254 (leadExp m 1 e - 6 + 127)).toNat
    | _ => 0x7F
  e8Loop vs 3 x

/-! Term lists. -/

/-- The largest term count of an inner type (R25): 1 s8, 2 n8, 3 e8. -/
def tMax (inner : Nat) : Nat := if inner = 2 then 5 else 4
/-- The largest term exponent of an inner type. -/
def expMax (inner : Nat) : Nat := if inner = 2 then 8 else 7
/-- Whether a value lies in the range of an inner type. -/
def inRange (inner : Nat) (v : Int) : Bool := if inner = 2 then 0 ≤ v && v ≤ 255 else -128 ≤ v && v ≤ 127

/-- The non-adjacent form of an integer, in ascending exponent order: (negative, exponent). -/
def nafFrom : Nat → Nat → Int → List (Bool × Nat)
  | 0, _, _ => []
  | k + 1, e, v =>
    if v = 0 then []
    else if v % 2 = 0 then nafFrom k (e + 1) (v / 2)
    else if v % 4 = 1 then (false, e) :: nafFrom k (e + 1) ((v - 1) / 2)
    else (true, e) :: nafFrom k (e + 1) ((v + 1) / 2)
/-- The non-adjacent form of a stored integer. -/
def naf (v : Int) : List (Bool × Nat) := nafFrom 12 0 v

/-- A term as an integer. -/
def termValue (t : Bool × Nat) : Int := if t.1 then -(2 ^ t.2 : Nat) else (2 ^ t.2 : Nat)
/-- The sum of terms. -/
def termSum (ts : List (Bool × Nat)) : Int := (ts.map termValue).foldl (· + ·) 0

/-- A decoded element: its term count as coded (its cost in array cycles, R250) and the terms it adds. -/
structure TermElem where
  cost  : Nat
  terms : List (Bool × Nat)
  deriving DecidableEq, Repr

/-- The element that stands at a stream position, and the position after it (R27, R28). -/
def decodeElem (inner : Nat) (stream pos : Nat) : TermElem × Nat :=
  if natBits stream pos 1 = 0 then ({ cost := 0, terms := [] }, pos + 1)
  else
    let cc := natBits stream (pos + 1) 3
    if 5 ≤ cc ∨ (cc = 4 ∧ inner ≠ 2) then ({ cost := 0, terms := [] }, pos + 4)
    else
      let ts := (List.range (cc + 1)).map (fun i => natBits stream (pos + 4 + 5 * i) 5)
      ({ cost := cc + 1, terms := (ts.filter (fun t => t / 2 ≤ expMax inner)).map (fun t => (t % 2 == 1, t / 2)) }, pos + 4 + 5 * (cc + 1))

/-- `n` elements from a stream position on. -/
def decodeElems (inner stream : Nat) : Nat → Nat → List TermElem × Nat
  | 0, pos => ([], pos)
  | n + 1, pos =>
    let (e, pos) := decodeElem inner stream pos
    let (es, pos) := decodeElems inner stream n pos
    (e :: es, pos)

/-- A decoded block: its elements, its exponent byte, its MAXT as read, and its length in bits. -/
structure TermBlock where
  elems : List TermElem
  expo  : Nat
  maxt  : Nat
  len   : Nat
  deriving DecidableEq, Repr

/-- The block at a stream position (R26 to R30), or none when it is in error (R33). -/
def decodeBlock (inner stream pos : Nat) : Option TermBlock :=
  let raw := natBits stream (pos + 15) 1 = 1
  let maxt := min (natBits stream (pos + 12) 3) (tMax inner)
  let plen := natBits stream pos 12
  let expo := if inner = 3 then natBits stream (pos + 16) 8 else 0
  let start := pos + 16 + (if inner = 3 then 8 else 0)
  let len := start - pos + plen
  if raw then
    if plen ≠ 256 then none
    else
      let es := (List.range 32).map (fun i =>
        let b := natBits stream (start + 8 * i) 8
        let ts := naf (if inner = 2 then (b : Int) else toSigned 8 b)
        ({ cost := ts.length, terms := ts } : TermElem))
      if es.any (fun e => maxt < e.cost) then none else some { elems := es, expo := expo, maxt := maxt, len := len }
  else
    let (es, stop) := decodeElems inner stream 32 start
    if stop - start ≠ plen ∨ es.any (fun e => maxt < e.cost) ∨ es.any (fun e => !inRange inner (termSum e.terms)) then none
    else some { elems := es, expo := expo, maxt := maxt, len := len }

/-- A number entered in a bit stream at a position. -/
def putBits (stream : Nat × Nat) (x n : Nat) : Nat × Nat := (stream.1 + (x % 2 ^ n) * 2 ^ stream.2, stream.2 + n)

/-- The term coding of an element appended to a stream (R27). -/
def encodeElem (stream : Nat × Nat) (v : Int) : Nat × Nat :=
  match naf v with
  | [] => putBits stream 0 1
  | ts => ts.foldl (fun s t => putBits s (t.2 * 2 + (if t.1 then 1 else 0)) 5) (putBits (putBits stream 1 1) (ts.length - 1) 3)

/-- The encoder's block of 32 stored integers (R26 to R30): its bits and its length, header included. -/
def encodeBlock (inner : Nat) (vals : List Int) (expo : Nat) : Nat × Nat :=
  let maxt := vals.foldl (fun n v => max n (naf v).length) 0
  let (bits, n) := vals.foldl encodeElem (0, 0)
  let raw := 256 < n
  let plen := if raw then 256 else n
  let head := putBits (0, 0) (plen + maxt * 2 ^ 12 + (if raw then 2 ^ 15 else 0)) 16
  let head := if inner = 3 then putBits head expo 8 else head
  if raw then vals.foldl (fun s v => putBits s (v % 256).toNat 8) head else putBits head bits n

/-! Contributions (R34, R36). -/

/-- A finite contribution: integer × 2^e; none when a factor is not finite. -/
abbrev Factor := Option (Int × Int)

/-- An FP32 pattern as a factor. -/
def factorOf (x : Nat) : Factor := match fp32.decode x with | .fin n m e => some (Fl.signed n m, e) | _ => none

/-- The product of two factors. -/
def mulFactor : Factor → Factor → Factor
  | some (a, e), some (b, f) => some (a * b, e + f)
  | _, _ => none

/-- A contribution aligned to 2^E and rounded to an integer (R34). -/
def alignInt (c : Int) (e : Int) (eacc : Int) : Int :=
  if 0 ≤ e - eacc then c * 2 ^ (e - eacc).toNat else rneInt c (2 ^ (eacc - e).toNat)

/-! Format slots (R37). -/

/-- A field of a slot. -/
def slotField (b : List Byte) (off len : Nat) : Nat := natBits (bytesToNat b) off len
def slotElt (b : List Byte) : Nat := slotField b 0 8
def slotTle (b : List Byte) : Nat := slotField b 8 4
def slotBlkl (b : List Byte) : Nat := slotField b 12 4
def slotRnd (b : List Byte) : Nat := slotField b 16 3
def slotOvm (b : List Byte) : Bool := slotField b 19 1 == 1
def slotEacc (b : List Byte) : Int := toSigned 8 (slotField b 24 8)
def slotZp (b : List Byte) : Nat := slotField b 32 8
def slotAscl (b : List Byte) : Nat := slotField b 64 32
def slotSsb (b : List Byte) : Nat := slotField b 128 64
def slotSbb (b : List Byte) : Nat := slotField b 192 64

/-- The element types of R38. -/
def eltListed (t : Nat) : Bool := t ≤ 8 || (0x10 ≤ t && t ≤ 0x14) || t == 0x20 || t == 0x21 || t == 0x22 || t == 0x30

/-- The first rule of R39 that a slot fails, by its field code. -/
def slotReject (b : List Byte) : Option Nat :=
  let t := slotElt b
  if t = 0 then (if bytesToNat b = 0 then none else some 1)
  else if !eltListed t then some 1
  else if (if t = 0x22 then !(1 ≤ slotTle b && slotTle b ≤ 3) else slotTle b != 0) then some 2
  else if slotBlkl b ≠ (if t = 0x20 then 6 else if t = 0x21 ∨ t = 0x22 then 5 else 0) then some 3
  else if 3 < slotRnd b then some 4
  else if slotField b 20 4 ≠ 0 ∨ slotField b 40 24 ≠ 0 ∨ slotField b 96 32 ≠ 0 then some 5
  else if slotZp b ≠ 0 ∧ !(t = 2 ∨ (t = 0x22 ∧ slotTle b = 2)) then some 6
  else if !(match fp32.decode (slotAscl b) with | .fin n m _ => !n && m != 0 | _ => false) then some 7
  else if slotSsb b ≥ 2 ^ 48 ∨ (slotSsb b ≠ 0 ∧ !(t = 0x21 ∨ (t = 0x22 ∧ slotTle b = 3))) then some 8
  else if slotSbb b ≥ 2 ^ 48 ∨ slotSbb b % 8 ≠ 0 ∨ (slotSbb b ≠ 0 ∧ t ≠ 0x20) then some 9
  else none

/-- The quotient v / ASCL rounded once to an integer under RND, or a value beyond every range for an infinity; none for NaN (R37). -/
def quotient (rnd ascl v : Nat) : Option Int :=
  match fp32.decode v, fp32.decode ascl with
  | .fin n m e, .fin _ m' e' =>
    let (num, den) := scalePow m m' (e - e')
    some (roundMode rnd (Fl.signed n num) den)
  | .inf n, _ => some (if n then -(2 ^ 200) else 2 ^ 200)
  | _, _ => none

/-- Quantisation to n8 (R37): q = sat(round(v / ASCL) + ZP, 0..255); a NaN gives ZP. -/
def quantN8 (slot : List Byte) (v : Nat) : Int :=
  match quotient (slotRnd slot) (slotAscl slot) v with
  | some q => clampInt 0 255 (q + slotZp slot)
  | none => slotZp slot

/-- Quantisation to s8 (R37): q = sat(round(v / ASCL), −128..127); a NaN gives 0. -/
def quantS8 (slot : List Byte) (v : Nat) : Int :=
  match quotient (slotRnd slot) (slotAscl slot) v with
  | some q => clampInt (-128) 127 q
  | none => 0

end Sys2Proof.Machine
end

