-- ==== Sys2Proof/Machine/Quant.lean ====
section
/-! DEFINITION. Quantisation (R219 to R223) and the cross-lane instructions (R224 to R228). -/

namespace Sys2Proof.Machine

/-- The launch-record copy of the warp's grid (R40, R231). -/
def gridRecord (m : Mach) (w : Warp) : List Byte :=
  (mget m.grids w.grid).elim (List.replicate 384 0) (·.record)

/-- Format slot `k` of a record (R341). -/
def recordSlot (record : List Byte) (k : Nat) : List Byte := (record.drop (128 + 32 * k)).take 32

/-- Format slot `k` of the warp's grid. -/
def formatSlot (m : Mach) (w : Warp) (k : Nat) : List Byte := recordSlot (gridRecord m w) k

/-- `QSCL` (R219). -/
def qsclWord (x : DWord) (b : DWord) : Word := satS32 (rneInt (x.toInt * b.lo.toInt) (2 ^ (b.hi.toNat % 128)))
def execQscl (n : BitVec 1) (d a b : BitVec 8) (s : State) : Out :=
  laneOp s [srcW a, srcW b] n d (fun v => qsclWord (argPair v 0) (argPair v 1))

/-- `QENC` (R220). -/
def qencWord (slot : List Byte) (a : Word) : Word :=
  BitVec.ofInt 32 (if slotElt slot = 2 then quantN8 slot a.toNat else quantS8 slot a.toNat)
def execQenc (n : BitVec 1) (d a : BitVec 8) (sl : BitVec 3) (s : State) : Out :=
  onWord s (fun x =>
    let slot := formatSlot s.m x.w sl.toNat
    regOp s.m x false [srcF a] (nwOf n) d 1 true (fun vals l =>
      if slotElt slot = 2 ∨ slotElt slot = 1 then .ok [qencWord slot (arg (vals l) 0)] else .error (plainFault .illegalOp)))

/-- `QDEC` (R221). -/
def qdecWord (a : DWord) : Word :=
  BitVec.ofNat 32 (decodeQ4 (natBits a.toNat 0 4) (natBits a.toNat 8 8) a.hi.toNat)
def execQdec (n : BitVec 1) (d a : BitVec 8) (sl : BitVec 3) (s : State) : Out :=
  onWord s (fun x =>
    let slot := formatSlot s.m x.w sl.toNat
    regOp s.m x false [srcW a] (nwOf n) d 1 true (fun vals l =>
      if slotElt slot = 0x20 then .ok [qdecWord (argPair (vals l) 0)] else .error (plainFault .illegalOp)))

/-- `QLUTB` (R222): 16 products, not latch-producing. -/
def qlutbWords (slot : List Byte) (a : Word) : List Word :=
  let act : Int := if slotElt slot = 1 then toSigned 8 a.toNat else (a.toNat % 256 : Nat) - (slotZp slot : Int)
  (List.range 16).map (fun k => BitVec.ofInt 32 (codebookC k * act))
def execQlutb (d a : BitVec 8) (sl : BitVec 3) (s : State) : Out :=
  onWord s (fun x =>
    let slot := formatSlot s.m x.w sl.toNat
    regOp s.m x false [srcI a] false d 16 false (fun vals l =>
      if slotElt slot = 2 ∨ slotElt slot = 1 then .ok (qlutbWords slot (arg (vals l) 0)) else .error (plainFault .illegalOp)))

/-- The table base of a `QLUT` lane: even and no greater than 112. -/
def qlutBase (a : DWord) : Option Nat :=
  let t := a.hi.toNat % 128
  if t % 2 = 0 ∧ t ≤ 112 then some t else none

/-- `QLUT` (R223): it waits until no register of a lane's table is pending. -/
def execQlut (n : BitVec 1) (d a : BitVec 8) (sl : BitVec 3) (s : State) : Out :=
  onWord s (fun x =>
    let slot := formatSlot s.m x.w sl.toNat
    let run (m : Mach) : Mach :=
      regOp m x false [srcW a] (nwOf n) d 1 true (fun vals l =>
        if slotElt slot ≠ 0x20 then .error (plainFault .illegalOp)
        else
          match qlutBase (argPair (vals l) 0) with
          | none => .error (plainFault .illegalOp)
          | some t => .ok [x.w.regLane (t + (argPair (vals l) 0).toNat % 16) l])
    match srcReady s.m x false [srcW a] with
    | .go =>
      let cc := s.m.ctxCore x.w.ctx x.core
      let bases := x.lanes.filterMap (fun l => qlutBase (srcValue cc x (srcW a) 0 l)) |>.eraseDups
      match srcReady s.m x false [srcW a] (bases.flatMap (fun t => (List.range 16).map (· + t))) with
      | .hold m x k => m.hold x k
      | _ => run s.m
    | _ => run s.m)

/-! Cross-lane instructions. -/

/-- The source lane of an `LXCH` control word (R224); out of range gives none. -/
def lxchLane (c : Word) (l : Nat) : Option Nat :=
  let amt := c.toNat % 32
  let k : Int := match natBits c.toNat 5 2 with
    | 0 => amt
    | 1 => ((l + amt) % 32 : Nat)
    | 2 => (l : Int) + toSigned 5 amt
    | _ => (Nat.xor l amt : Nat)
  if k < 0 ∨ 31 < k then none else some k.toNat

/-- `LXCH` (R224). -/
def execLxch (n : BitVec 1) (d a b : BitVec 8) (s : State) : Out :=
  onWord s (fun x =>
    regOp s.m x false [srcI a, srcI b, srcI d] (nwOf n) d 1 true (fun vals l =>
      let c := arg (vals l) 1
      .ok [match lxchLane c l with
        | none => if c.getLsbD 7 then 0 else arg (vals l) 2
        | some k => if inMask x.g.lanes k then arg (vals k) 0 else 0]))

/-- The present members of a lane's mask (R225): named by it, active, and not faulting here. -/
def present (active : Word) (maskOfLane : Nat → Word) (mask : Word) : List Nat :=
  (maskLanes mask).filter (fun k => inMask active k && inMask (maskOfLane k) k)

/-- A cross-lane instruction over a member mask in D (R225): `f mask members value lane`. -/
def crossOp (s : State) (src : Src) (n : BitVec 1) (d : BitVec 8) (f : Word → List Nat → (Nat → Word) → Nat → Word) : Out :=
  onWord s (fun x =>
    regOp s.m x false [src, srcI d] (nwOf n) d 1 true (fun vals l =>
      let mask := fun k => arg (vals k) 1
      if !inMask (mask l) l then .error (mkFault .selfMask 0 0 (mask l).toNat)
      else .ok [f (mask l) (present x.g.lanes mask (mask l)) (fun k => arg (vals k) 0) l]))

/-- `POLL` (R226). -/
def pollWord (sel : Nat) (mask : Word) (ps : List Nat) (a : Nat → Word) : Word :=
  let yes := ps.filter (fun k => a k != 0)
  match sel with
  | 0 => boolWord (yes.length == popcNat mask)
  | 1 => boolWord (!yes.isEmpty)
  | 2 => maskOf yes
  | 3 => boolWord (yes.isEmpty || yes.length == popcNat mask)
  | _ => BitVec.ofNat 32 yes.length
def execPoll (n : BitVec 1) (d a : BitVec 8) (sl : BitVec 5) (s : State) : Out :=
  crossOp s (srcI a) n d (fun mask ps v _ => pollWord sl.toNat mask ps v)

/-- The combining operation of a reduction code (R227). -/
def combine (code : Nat) (x y : Word) : Word :=
  match code with
  | 0 => x + y
  | 1 => minS x y
  | 2 => minN x y
  | 3 => maxS x y
  | 4 => maxN x y
  | 5 => x &&& y
  | 6 => x ||| y
  | 7 => x ^^^ y
  | 8 => f2 fp32.add x y
  | 9 => f2 (fp32.minmax false) x y
  | _ => f2 (fp32.minmax true) x y
/-- The start value of an exclusive scan (R227). -/
def scanStart (code : Nat) : Word :=
  [0, 0x7FFFFFFF, 0xFFFFFFFF, 0x80000000, 0, 0xFFFFFFFF, 0, 0, 0x80000000, 0x7F800000, 0xFF800000].getD code 0
/-- The combination of values one at a time; a NaN result is the canonical one (R15). -/
def combineAll (code : Nat) : List Word → Word
  | [] => scanStart code
  | v :: vs =>
    let r := vs.foldl (combine code) v
    if 8 ≤ code ∧ fp32.decode r.toNat = .nan then BitVec.ofNat 32 fp32.nanBits else r
/-- The source type of a reduction code (R56). -/
def reduSrc (code : Nat) (a : BitVec 8) : Src := if 8 ≤ code then srcF a else srcI a

/-- `REDU` (R227). -/
def execRedu (n : BitVec 1) (d a : BitVec 8) (c : BitVec 4) (s : State) : Out :=
  crossOp s (reduSrc c.toNat a) n d (fun _ ps v _ => combineAll c.toNat (ps.map v))
/-- `SCAN` (R227): exclusive when `e` is 1. -/
def execScan (n : BitVec 1) (d a : BitVec 8) (e : BitVec 1) (c : BitVec 4) (s : State) : Out :=
  crossOp s (reduSrc c.toNat a) n d (fun _ ps v l =>
    combineAll c.toNat ((ps.filter (fun k => if e = 1 then k < l else k ≤ l)).map v))

/-- `PEERS` (R228). -/
def peersWord (sel : Nat) (mask : Word) (ps : List Nat) (a : Nat → Word) (l : Nat) : Word :=
  let same := ps.filter (fun k => a k == a l)
  match sel with
  | 0 => maskOf same
  | 1 => if same.length = popcNat mask then mask else 0
  | _ => BitVec.ofNat 32 (same.headD l)
def execPeers (n : BitVec 1) (d a : BitVec 8) (sl : BitVec 5) (s : State) : Out :=
  crossOp s (srcI a) n d (fun mask ps v l => peersWord sl.toNat mask ps v l)

end Sys2Proof.Machine
end

