-- ==== Sys2Proof/Machine/System.lean ====
section
/-! DEFINITION. The system instructions: system registers (R384), the counter (R385), the handler instructions (R377, R378, R383). -/

namespace Sys2Proof.Machine

/-- A core as a context sees it: die in bit 8, number in bits [7:0] (R384 CORE, R387). -/
def coreSeen (c : Context) (core : Nat) : Nat :=
  let k := mgetD c.coreMap core core
  (k / 144) * 256 + k % 144

/-- The slice of a warp. -/
def sliceOf (m : Mach) (w : Warp) : Option Slice := mget m.slices w.slice

/-- A level entry of a launch record: DOM, SC, EXT (R342). -/
def levelDom (record : List Byte) (k : Nat) : Nat := bytesToNat ((record.drop (64 + 8 * k)).take 1)
def levelScope (record : List Byte) (k : Nat) : Nat := bytesToNat ((record.drop (65 + 8 * k)).take 1)
def levelExt (record : List Byte) (k : Nat) : Nat := bytesToNat ((record.drop (68 + 8 * k)).take 4)
/-- The number of levels of a launch record. -/
def levelCount (record : List Byte) : Nat := bytesToNat ((record.drop 56).take 1)

/-- A thread's index at a level (R344): 0 for an undeclared level, and above level 0 for a spawned slice (R356). -/
def levelIndex (record : List Byte) (sl : Slice) (w : Warp) (k lane : Nat) : Nat :=
  if levelCount record ≤ k then 0
  else
    match levelDom record k with
    | 0 => lane
    | 1 => if sl.spawned then 0 else if sl.perGang = 0 then w.index else w.index % sl.perGang
    | 2 => if sl.spawned then 0 else w.index / sl.perGang
    | _ => if sl.spawned then 0 else sl.path.getD k 0

/-- The value of a listed system register in a lane (R384). -/
def sysRead (s : State) (x : Ex) (f lane : Nat) : Word :=
  let c := s.ctx x.w.ctx
  let t := x.w.thread lane
  let sl := sliceOf s.m x.w
  let sfq := (s.m.ctxCore x.w.ctx x.core).sfq
  match f with
  | 0x00 => x.w.accstat
  | 0x01 => BitVec.ofNat 32 (coreSeen c x.core)
  | 0x02 => BitVec.ofNat 32 c.partition
  | 0x03 => BitVec.ofNat 32 (x.w.ctx % 65536)
  | 0x04 => boolWord c.priv
  | 0x10 => sl.elim 0 (fun sl => DWord.lo sl.number)
  | 0x11 => sl.elim 0 (fun sl => DWord.hi sl.number)
  | 0x12 => sl.elim 0 (fun sl => DWord.lo sl.deadline)
  | 0x13 => sl.elim 0 (fun sl => DWord.hi sl.deadline)
  | 0x14 => sl.elim 0 (·.budcnt)
  | 0x18 => DWord.lo c.hvec
  | 0x19 => DWord.hi c.hvec
  | 0x1A => DWord.lo t.rpc
  | 0x1B => DWord.hi t.rpc
  | 0x1C => t.hs0
  | 0x1D => t.hs1
  | 0x1E => BitVec.ofNat 32 ((if x.w.handler then 1 else 0) + (if c.debug then 2 else 0))
  | 0x1F => x.w.hgroups.foldl (fun a g => a ||| g.lanes) 0
  | 0x20 => BitVec.ofNat 32 ((sfq.filter (fun e => e.warp == x.w.uid)).length + sfq.length * 256 + (if 16 ≤ sfq.length then 65536 else 0))
  | f => if 0x08 ≤ f ∧ f ≤ 0x0F then sl.elim 0 (fun sl => BitVec.ofNat 32 (levelIndex (gridRecord s.m x.w) sl x.w (f - 8) lane)) else 0

/-- `SRD` (R384). A number from 0x40 up passes the privilege check only to raise `ILLEGAL_OP`. -/
def execSrd (d f : BitVec 8) (s : State) : Out :=
  onWord s (fun x => regOp s.m x false [] false d 1 false (fun _ l =>
    if 0x40 ≤ f.toNat then .error (plainFault .illegalOp) else .ok [sysRead s x f.toNat l]))

/-- Whether `SWR` may write a register: the RW registers of R384, RPC in handler mode alone. -/
def sysWritable (f : Nat) (handler : Bool) : Bool :=
  f == 0x00 || f == 0x18 || f == 0x19 || f == 0x1C || f == 0x1D || (handler && (f == 0x1A || f == 0x1B))

/-- The low half of a 64-bit register replaced. -/
def setLo (v : DWord) (w : Word) : DWord := pairOf w (DWord.hi v)
/-- The high half of a 64-bit register replaced. -/
def setHi (v : DWord) (w : Word) : DWord := pairOf (DWord.lo v) w
/-- An address register as written: bits [1:0] and [63:48] are zero (R384). -/
def cleanAddr (v : DWord) : DWord := v &&& 0x0000FFFFFFFFFFFC

/-- A context's HVEC written in one half. -/
def writeHvec (s : State) (ctx f : Nat) (v : Word) : State :=
  { s with contexts := madj s.contexts ctx (fun c => { c with hvec := cleanAddr (if f = 0x18 then setLo c.hvec v else setHi c.hvec v) }) }

/-- A warp's own register written by `SWR`: ACCSTAT from the lowest active lane, the lane registers lane by lane. -/
def sysWriteWarp (x : Ex) (f : Nat) (v : Nat → Word) : Warp :=
  match f with
  | 0x00 => { x.w with accstat := v x.low &&& 7 }
  | _ => { x.w with threads := (List.range 32).map (fun l =>
      let t := x.w.thread l
      if !inMask x.g.lanes l then t
      else match f with
        | 0x1A => { t with rpc := cleanAddr (setLo t.rpc (v l)) }
        | 0x1B => { t with rpc := cleanAddr (setHi t.rpc (v l)) }
        | 0x1C => { t with hs0 := v l }
        | 0x1D => { t with hs1 := v l }
        | _ => t) }

/-- `SWR` (R384). A write of HVEC governs every handler entry that begins after it. -/
def execSwr (a f : BitVec 8) (s : State) : Out :=
  match s.ex? with
  | none => .fault .noWarp
  | some x =>
    .next (
      match srcReady s.m x false [srcI a] with
      | .hold m x k => s.withM (m.hold x k)
      | .bad e => s.withM (deliverAll s.m x e)
      | .go =>
        if !sysWritable f.toNat x.w.handler then s.withM (deliverAll s.m x (plainFault .illegalOp))
        else
          let cc := s.m.ctxCore x.w.ctx x.core
          let v := fun l => ((srcValues cc x l [srcI a] []).headD 0).setWidth 32
          let m := s.m.setCtxCore x.w.ctx x.core (takeSources cc x [srcI a])
          let x := x.taken m [srcI a]
          if f = 0x18 ∨ f = 0x19 then (writeHvec s x.w.ctx f.toNat (v x.low)).withM (m.advance x)
          else s.withM (m.advance { x with w := sysWriteWarp x f.toNat v }))

/-- `TIME` (R385). -/
def execTime (d : BitVec 8) (s : State) : Out :=
  onWord s (fun x => regOp s.m x true [] false d 2 false (fun _ _ => .ok [DWord.lo s.counter, DWord.hi s.counter]))

/-- `RTE` (R378): each active lane leaves the handler, its record discarded, and resumes at RPC at the end of the run; a sweep that stopped there continues in
those lanes (R237). -/
def execRte (s : State) : Out :=
  onWord s (fun x =>
    if !x.inHandler then deliverAll s.m x (plainFault .illegalOp)
    else
      let rpc := fun l => ((x.w.thread l).rpc).setWidth 48
      let next := x.lanes.foldl (fun n l => mset n l (rpc l)) x.r.nextPc
      let sweep := x.w.sweep.map (fun e => (e.1, e.2.1, (e.2.2 &&& ~~~x.g.lanes) ||| maskOf (x.lanes.filter (fun l => rpc l == e.1))))
      let w := x.w.adjThreads x.lanes (fun t => { t with status := .running, record := none, entered := false })
      s.m.advance { x with w := { w with sweep := sweep }, r := { x.r with nextPc := next } })

/-- The four words of a 128-bit record. -/
def recordWords (n : Nat) : List Word := (List.range 4).map (fun i => BitVec.ofNat 32 (natBits n (32 * i) 32))

/-- `FREC` (R377): each active lane's own record, zeros where it has none. -/
def execFrec (d : BitVec 8) (s : State) : Out :=
  onWord s (fun x => regOp s.m x false [] false d 4 false (fun _ l =>
    .ok (recordWords ((x.w.thread l).record.elim 0 recordBits))))

/-- The list without the first element that satisfies a test. -/
def dropFirst {α : Type} (p : α → Bool) : List α → List α
  | [] => []
  | a :: t => if p a then t else a :: dropFirst p t

/-- `SFQPOP` (R383): the oldest reported entry of the executing warp, or zeros. -/
def execSfqpop (d : BitVec 8) (s : State) : Out :=
  onWord s (fun x => uniEffect s.m x [] d 4 (fun _ m x =>
    let mine := fun (e : SfqEntry) => e.warp == x.w.uid && e.reported
    let cc := m.ctxCore x.w.ctx x.core
    match cc.sfq.find? mine with
    | none => .ok m x (recordWords 0)
    | some e => .ok (m.setCtxCore x.w.ctx x.core { cc with sfq := dropFirst mine cc.sfq }) x (recordWords (sfqBits e.entry))))

/-- `TERMW` (R383). -/
def execTermw (d a : BitVec 8) (s : State) : Out :=
  onWord s (fun x => uniEffect s.m x [srcI a] d 1 (fun v m x =>
    let t := if arg v 0 = 0xFFFFFFFF then x.pos else (arg v 0).toNat
    if 33 < t then .bad (plainFault .illegalOp) m
    else if t = x.pos then
      .gone (terminateWarp ((m.setCtxCore x.w.ctx x.core (takeSources (m.ctxCore x.w.ctx x.core) x [srcI a])).put x) x.core x.pos)
    else
      match m.warp? x.core t with
      | some w => if w.ctx = x.w.ctx then .ok (terminateWarp m x.core t) x [1] else .ok m x [0]
      | none => .ok m x [0]))

end Sys2Proof.Machine
end

