-- ==== Sys2Proof/Machine/Flags.lean ====
section
/-! DEFINITION. ACCSTAT, the part's only flags (R259, R260), and the 64-bit accumulator addition that sets them (R34 to R36). -/

namespace Sys2Proof.Machine

/-- The sticky bits of ACCSTAT (R259). -/
def accSat : Word := 1
def accOvf : Word := 2
def accInv : Word := 4

/-- The sum of a 64-bit accumulator and an exact integer under OVM, with the sticky bit it sets (R35): wrap mode keeps the sum modulo
2^64 and sets OVF outside its range; saturate mode clamps to the symmetric range and sets SAT. -/
def add64 (sat : Bool) (base : DWord) (x : Int) : DWord × Word :=
  let t := base.toInt + x
  if sat then
    if t > 2 ^ 63 - 1 then (BitVec.ofInt 64 (2 ^ 63 - 1), accSat)
    else if t < -(2 ^ 63 - 1) then (BitVec.ofInt 64 (-(2 ^ 63 - 1)), accSat)
    else (BitVec.ofInt 64 t, 0)
  else if t > 2 ^ 63 - 1 ∨ t < -(2 ^ 63) then (BitVec.ofInt 64 t, accOvf)
  else (BitVec.ofInt 64 t, 0)

/-- ACCSTAT with bits set; only `SWR` clears them (R260). -/
def Warp.setAcc (w : Warp) (bits : Word) : Warp := { w with accstat := w.accstat ||| bits }

end Sys2Proof.Machine
end

