-- ==== Sys2Proof/Machine/Spad.lean ====
section
/-! DEFINITION. The scratchpad space (R170, R171), barrier objects (R166), the atomic combinations (R68, R150, R151), and the instructions on
the scratchpad and the weight store: `LDS`, `STS`, `ATOMS` (R173), `LDW` (R178), `PGPIN`, `PGUNPIN` (R172), `WSWIN` (R177), `BINIT`,
`BWAIT` (R167). -/

namespace Sys2Proof.Machine

/-! The space. -/

/-- The size in bytes of a context's scratchpad space on a core (R428). -/
def spadSize (m : Mach) (ctx core : Nat) : Nat := (m.ctxCluster ctx core).pages * 4096

/-- The core and offset that a scratchpad address names from a core, checked for a range of `n` bytes (R171). -/
def spadTarget (m : Mach) (ctx core : Nat) (addr n : Nat) : Except FaultInfo (Nat × Nat) :=
  let off := addr % 2 ^ 21
  if addr / 2 ^ 24 ≠ 0 ∨ spadSize m ctx core < off + n then .error (mkFault .spadRange 0 0 addr)
  else .ok (peerCore core (natBits addr 21 3), off)

/-- Whether an access meets poisoned backing data: a page of its range holds a poisoned sector (R173). -/
def spadPoisoned (c : CtxCore) (off n : Nat) : Bool :=
  c.poisoned.any (fun sec => off / 4096 ≤ sec / 128 && sec / 128 ≤ (off + n - 1) / 4096)

/-- Bytes of a context's space on a core; a page that an arrival round occupies reads as unspecified values (R277). -/
def spadRead (m : Mach) (ctx core : Nat) : Nat → Nat → List Byte × Mach
  | _, 0 => ([], m)
  | off, n + 1 =>
    let c := m.ctxCore ctx core
    if c.rounds.any (fun p => off / 4096 ≤ p && p ≤ (off + n) / 4096) then
      ((List.range (n + 1)).map (fun i =>
        if c.rounds.contains ((off + i) / 4096) then Config.freeByte (m.free + i) else readByte c.spad (off + i)),
       { m with free := m.free + n + 1 })
    else (readBytes c.spad off (n + 1), m)

/-- Named bytes written to a space, from an offset up; a page that a round occupies takes none (R277). -/
def spadPut (rounds : List Nat) : SMap Byte → Nat → List (Option Byte) → SMap Byte
  | sp, _, [] => sp
  | sp, off, b :: bs =>
    let sp := match b with
      | some v => if rounds.contains (off / 4096) then sp else writeByte sp off v
      | none => sp
    spadPut rounds sp (off + 1) bs

/-- Bytes written to a context's space on a core; a write of a whole sector clears its poison (R108). -/
def spadWrite (m : Mach) (ctx core off : Nat) (bs : List Byte) : Mach :=
  m.adjCtxCore ctx core (fun c =>
    let covered := fun (sec : Nat) => off ≤ 32 * sec && 32 * sec + 32 ≤ off + bs.length && !c.rounds.contains (sec / 128)
    { c with spad := spadPut c.rounds c.spad off (bs.map some), poisoned := c.poisoned.filter (fun sec => !covered sec) })

/-- Named bytes written there by an engine; the range as a whole counts for the poison. -/
def spadWriteNamed (m : Mach) (ctx core off : Nat) (bs : List (Option Byte)) : Mach :=
  m.adjCtxCore ctx core (fun c =>
    let covered := fun (sec : Nat) => off ≤ 32 * sec && 32 * sec + 32 ≤ off + bs.length && !c.rounds.contains (sec / 128)
    { c with spad := spadPut c.rounds c.spad off bs, poisoned := c.poisoned.filter (fun sec => !covered sec) })

/-! Barrier objects. -/

/-- A field of a barrier object, from its 16 bytes. -/
def barWord (obj : List Byte) (i : Nat) : Nat := bytesToNat ((obj.drop (4 * i)).take 4)

/-- The releases of a list that can still order anything: one wider than `.core`, whose acquire empties L1, or one whose writes a die has still to apply. -/
def liveRels (m : Mach) (srcs : List RelSrc) : List RelSrc := srcs.eraseDups.filter (fun r => 3 ≤ r.scope || !(stillLate m r.ids).isEmpty)

/-- An arrival at a barrier object (R166): the bytes counted, and whether the producer has stopped; `srcs` are the releases that it is (R169). -/
def barArrive (m : Mach) (ctx core off n : Nat) (stopped : Bool) (srcs : List RelSrc := []) : Mach :=
  let (obj, m) := spadRead m ctx core off 16
  let arr := (barWord obj 1 + n) % 2 ^ 32
  let stat := barWord obj 2 % 65536
  let stat1 := if stat = 0 ∧ barWord obj 0 < arr then 2 else stat
  let stat2 := if stopped ∧ stat1 = 0 then 1 else stat1
  (spadWrite m ctx core (off + 4) (natToBytes 4 arr ++ natToBytes 2 stat2)).adjCtxCore ctx core (fun c =>
    if srcs.isEmpty then c else { c with signals := mset c.signals off (liveRels m (mgetD c.signals off [] ++ srcs)) })

/-! Atomic combinations. -/

/-- comb(x, y) of R150 for a code of R68, on numbers of the code's width. `cas` takes its compare value in the low half of y and its new
value in the high half; code 16 is one half of `fadd2.b2`. -/
def atomComb (code x y : Nat) : Nat :=
  let a : Word := BitVec.ofNat 32 x
  let b : Word := BitVec.ofNat 32 y
  match code with
  | 0x0 => (x + y) % 2 ^ 32
  | 0x1 => (x + y) % 2 ^ 64
  | 0x2 => (minS a b).toNat
  | 0x3 => min x y
  | 0x4 => (maxS a b).toNat
  | 0x5 => max x y
  | 0x6 => Nat.land x y
  | 0x7 => Nat.lor x y
  | 0x8 => Nat.xor x y
  | 0x9 => y
  | 0xA => y
  | 0xB => if x = y % 2 ^ 32 then y / 2 ^ 32 else x
  | 0xC => if x = y % 2 ^ 64 then y / 2 ^ 64 else x
  | 0xD => fp32.add x y
  | 0xE => bf16.add (x / 65536) (y / 65536) * 65536 + bf16.add (x % 65536) (y % 65536)
  | _ => bf16.add x y

/-- Whether lanes at one address are merged (R150): every code but `exch` and `cas`. -/
def atomMerges (code : Nat) : Bool := !(code == 0x9 || code == 0xA || code == 0xB || code == 0xC)

/-- The operand an atomic takes from the registers at D in a lane. -/
def atomOperand (code : Nat) (w : Warp) (d l : Nat) : Nat :=
  let r := fun i => (w.regLane (d + i) l).toNat
  match code with
  | 0x1 | 0xA | 0xB => r 0 + r 1 * 2 ^ 32
  | 0xC => r 0 + r 1 * 2 ^ 32 + r 2 * 2 ^ 64 + r 3 * 2 ^ 96
  | _ => r 0


/-- The lanes of a list by the address they name, each group in ascending lane order. -/
def byAddress (addr : Nat → Nat) (ls : List Nat) : List (Nat × List Nat) :=
  (ls.map addr).eraseDups.map (fun a => (a, ls.filter (fun l => addr l == a)))

/-- The operands of a merged group combined: the total, and what each lane finds added before it (R150). -/
def mergeOperands (code : Nat) (y : Nat → Nat) : List Nat → Nat × List (Nat × Option Nat)
  | [] => (0, [])
  | l :: ls =>
    let (total, ps) := ls.foldl (fun (acc : Nat × List (Nat × Option Nat)) k => (atomComb code acc.1 (y k), acc.2 ++ [(k, some acc.1)])) (y l, [])
    (total, (l, none) :: ps)

/-- A value as result words. -/
def wordsOf (n v : Nat) : List Word := (List.range n).map (fun i => BitVec.ofNat 32 (natBits v (32 * i) 32))

/-- The atomics of one instruction on the locations of a memory, as `read` and `write` reach it: the memory after them, and each lane's old
value. -/
def atomLanes {μ : Type} (code : Nat) (read : μ → Nat → Nat × μ) (write : μ → Nat → Nat → μ) (y : Nat → Nat) :
    μ → List (Nat × List Nat) → μ × SMap Nat
  | m, [] => (m, [])
  | m, (a, ls) :: rest =>
    let (m, olds) :=
      if atomMerges code then
        let (total, ps) := mergeOperands code y ls
        let (old, m) := read m a
        (write m a (atomComb code old total), ps.map (fun p => (p.1, match p.2 with | none => old | some q => atomComb code old q)))
      else
        ls.foldl (fun (acc : μ × List (Nat × Nat)) l =>
          let (old, m) := read acc.1 a
          (write m a (atomComb code old (y l)), acc.2 ++ [(l, old)])) (m, [])
    let (m, more) := atomLanes code read write y m rest
    (m, olds.foldl (fun r e => mset r e.1 e.2) more)

/-- One half of an operand of `fadd2.b2`. -/
def pieceOf (high : Bool) (y : Nat) : Nat := if high then y / 65536 else y % 65536

/-- One half of `fadd2.b2` on each location (R151), an atomic of its own: the memory after it, and each lane's old half in its place of the word. `high` says which half
the location of a number takes. -/
def halfLanes {μ : Type} (high : Nat → Bool) (read : μ → Nat → Nat × μ) (write : μ → Nat → Nat → μ) (y : Nat → Nat) (m : μ) (gs : List (Nat × List Nat)) :
    μ × SMap Nat :=
  gs.zipIdx.foldl (fun acc (g, i) =>
    let r := atomLanes 16 read write (fun l => pieceOf (high i) (y l)) acc.1 [(if high i then g.1 + 2 else g.1, g.2)]
    (r.1, r.2.foldl (fun o e => mset o e.1 (if high i then e.2 * 65536 else e.2)) acc.2)) (m, [])

/-- Which half of the location of a number comes first, and which second, by the free values from one on (R151). -/
def firstHalf (pick i : Nat) : Bool := Config.freePick (pick + i) % 2 == 1
def secondHalf (pick i : Nat) : Bool := !firstHalf pick i

/-- Whole old values from those of the two halves. -/
def joinHalves (a b : SMap Nat) : SMap Nat := a.map (fun e => (e.1, e.2 + mgetD b e.1 0))

/-! Widths of TY (R54). -/

/-- Bytes of a TY. -/
def tyBytes (t : Nat) : Nat := match t with | 0 | 1 => 1 | 2 | 3 => 2 | 4 => 4 | 5 => 8 | _ => 16
/-- A loaded value as its register words (R144). -/
def loadWords (t : Nat) (bs : List Byte) : List Word :=
  let v := bytesToNat bs
  match t with
  | 0 => [BitVec.ofInt 32 (toSigned 8 v)]
  | 2 => [BitVec.ofInt 32 (toSigned 16 v)]
  | t => wordsOf (tyRegs t) v
/-- The bytes a store takes from its data specifier in a lane: registers, zero, or a sign-extended small immediate (R143). -/
def storeData (w : Warp) (t : Nat) (d : BitVec 8) (l : Nat) : List Byte :=
  if isV d then
    natToBytes (tyBytes t) (((List.range (tyRegs t)).map (fun i => (w.regLane (d.toNat + i) l).toNat * 2 ^ (32 * i))).foldl (· + ·) 0)
  else if isImm d then natToBytes (tyBytes t) (BitVec.ofInt 128 (immInt d)).toNat
  else List.replicate (tyBytes t) 0

/-! Results that come later (R186). -/

/-- A result that will be written by a `LOAD_RETURN`: the values each lane will receive. `sync` marks one that waits for a reply of the sync class (R142). -/
def addPend (m : Mach) (x : Ex) (kind : PendKind) (reg count : Nat) (vals : SMap (List Word)) (addrs : SMap (DWord × Nat) := []) (sync : Bool := false) :
    Mach × Ex :=
  let (id, m) := m.newId
  (m, { x with w := { x.w with pends := x.w.pends ++
    [{ id := id, kind := kind, lanes := x.g.lanes, reg := reg, count := count, vals := vals, pc := x.pc, run := x.r.pos, addrs := addrs, sync := sync }] } })

/-- A load's values pending in its destination; a `zero` destination takes none. -/
def pendLoad (m : Mach) (x : Ex) (d : BitVec 8) (count : Nat) (vals : SMap (List Word)) (sync : Bool := false) (places : SMap (DWord × Nat) := []) : Mach × Ex :=
  if isV d then addPend m x .load d.toNat count vals places sync else (m, x)

/-- The bytes that a warp's issued steps have still to load from scratchpad, in its gang or one it has left: core, offset, length (R256). -/
def unloadedTiles (m : Mach) (x : Ex) : List (Nat × Nat × Nat) :=
  let at_ := fun (a : Word) n => (peerCore x.core (natBits a.toNat 21 3), a.toNat % 2 ^ 21, n)
  (m.core x.core).gangs.flatMap (fun g =>
    (g.2.steps.filter (fun t => t.issued.isSome && t.loaded.isNone && t.members.any (fun p => p.warp == x.w.uid))).flatMap (fun t =>
      ((t.members.filter (fun p => p.pos == t.leader)).map (fun p => at_ p.aAddr 2048)) ++
        ((t.members.filter (·.sp)).map (fun p => at_ p.bAddr 512))))

/-- Whether a scratchpad write of the warp must wait for a step's operands (R256). -/
def tileHeld (m : Mach) (x : Ex) (core off n : Nat) : Bool :=
  (unloadedTiles m x).any (fun t => t.1 == core && t.2.1 < off + n && off < t.2.1 + t.2.2)

/-! `LDS`, `STS`, `ATOMS`. -/

/-- The checks of a scratchpad access in a lane, in order: alignment, the space, poisoned backing (R173). -/
def spadCheck (m : Mach) (x : Ex) (addr n : Nat) : Except FaultInfo (Nat × Nat) :=
  if addr % n ≠ 0 then .error (mkFault .align 0 0 addr)
  else
    match spadTarget m x.w.ctx x.core addr n with
    | .error e => .error e
    | .ok (core, off) =>
      if spadPoisoned (m.ctxCore x.w.ctx core) off n then .error (mkFault .addr 0 9 addr) else .ok (core, off)

/-- The lanes that fail a check, with their faults. -/
def failing {α : Type} (x : Ex) (f : Nat → Except FaultInfo α) : List (Nat × FaultInfo) :=
  x.lanes.filterMap (fun l => match f l with | .error e => some (l, e) | .ok _ => none)

/-- A word's address sources read lane by lane, once they and `regs` are there. -/
def withAddress (m : Mach) (x : Ex) (a : BitVec 8) (regs : List Nat) (f : (Nat → Nat) → Mach) : Mach :=
  match srcReady m x false [srcI a] regs with
  | .hold m x k => m.hold x k
  | .bad e => deliverAll m x e
  | .go => f (fun l => (srcValue (m.ctxCore x.w.ctx x.core) x (srcI a) 0 l).toNat % 2 ^ 32)

/-- The machine with a word's address sources taken. -/
def takeAddress (m : Mach) (x : Ex) (a : BitVec 8) : Mach := m.setCtxCore x.w.ctx x.core (takeSources (m.ctxCore x.w.ctx x.core) x [srcI a])

/-- The destination block of a load: free of leases and pending results, with room; or `zero`. -/
def loadDst (m : Mach) (x : Ex) (d : BitVec 8) (count : Nat) : DstReady := if isV d then regsReady m x d.toNat count else .go m

/-- `LDS` (R173). -/
def execLds (d a : BitVec 8) (t : BitVec 3) (s : State) : Out :=
  onWord s (fun x => withAddress s.m x a [] (fun addr =>
    match loadDst s.m x d (tyRegs t.toNat) with
    | .hold m k => m.hold x k
    | .bad e => deliverAll s.m x e
    | .go m =>
      let n := tyBytes t.toNat
      let chk := fun l => spadCheck m x (addr l) n
      match deliver m x (failing x chk) with
      | (m, none) => m
      | (m, some y) =>
        let (m, vals) := y.lanes.foldl (fun (m, vals) l =>
          match chk l with
          | .ok (core, off) => let (bs, m) := spadRead m x.w.ctx core off n; (m, mset vals l (loadWords t.toNat bs))
          | .error _ => (m, vals)) (takeAddress m x a, ([] : SMap (List Word)))
        let (m, y) := pendLoad m (y.taken m [srcI a]) d (tyRegs t.toNat) vals
        m.advance y))

/-- The registers a store's data specifier names. -/
def dataRegs (t : Nat) (d : BitVec 8) : List Nat := if isV d then (List.range (tyRegs t)).map (· + d.toNat) else []

/-- `STS` (R173): lane by lane, ascending; after the warp's earlier stores (R304), and held while a term step has still to load the bytes (R256). DESIGN CHOICE: accesses of
another core's scratchpad are performed at once, in one order that every agent sees (R174 orders them less; log 17). -/
def execSts (d a : BitVec 8) (t : BitVec 3) (s : State) : Out :=
  onWord s (fun x => withAddress s.m x a (dataRegs t.toNat d) (fun addr =>
    let n := tyBytes t.toNat
    let chk := fun l => spadCheck s.m x (addr l) n
    if !drained s.m x.w.uid then s.m.hold x .register
    else if x.lanes.any (fun l => match chk l with | .ok (core, off) => tileHeld s.m x core off n | .error _ => false) then s.m.hold x .register
    else
      match deliver s.m x (failing x chk) with
      | (m, none) => m
      | (m, some y) =>
        let m := y.lanes.foldl (fun m l =>
          match chk l with
          | .ok (core, off) => spadWrite m x.w.ctx core off (storeData y.w t.toNat d l)
          | .error _ => m) (takeAddress m x a)
        m.advance ((y.touch (dataRegs t.toNat d)).taken m [srcI a])))

/-- A location of a scratchpad by number: its core and offset. -/
def spadPlace (core off : Nat) : Nat := core * 2 ^ 21 + off
/-- A read of such a location as a number, and a write of it. -/
def readPlace (ctx n : Nat) (m : Mach) (p : Nat) : Nat × Mach := let (bs, m) := spadRead m ctx (p / 2 ^ 21) (p % 2 ^ 21) n; (bytesToNat bs, m)
def writePlaceNat (ctx n : Nat) (m : Mach) (p v : Nat) : Mach := spadWrite m ctx (p / 2 ^ 21) (p % 2 ^ 21) (natToBytes n v)

/-- `ATOMS` (R173): as `ATOM`, on the scratchpad that each lane's address selects; `fadd2.b2` is two atomics, of which either comes first. -/
def execAtoms (d a : BitVec 8) (c : BitVec 4) (s : State) : Out :=
  let code := c.toNat
  let n := atomSize code
  onWord s (fun x =>
    let regs := (List.range (atomReads code)).map (· + d.toNat)
    let done := fun (m : Mach) (y : Ex) (olds : SMap Nat) =>
      let (m, y) := addPend m (y.touch regs) .load d.toNat (atomWrites code) (olds.map (fun e => (e.1, wordsOf (atomWrites code) e.2)))
      m.advance y
    match x.r.wait with
    | .halves _ pick places olds =>
      let r := halfLanes (secondHalf pick) (readPlace x.w.ctx 2) (writePlaceNat x.w.ctx 2) (fun l => atomOperand code x.w d.toNat l) s.m
        (byAddress (fun l => mgetD places l 0) x.lanes)
      done r.1 x (joinHalves olds r.2)
    | _ =>
      withAddress s.m x a regs (fun addr =>
        match regsReady s.m x d.toNat (atomWrites code) with
        | .hold m k => m.hold x k
        | .bad e => deliverAll s.m x e
        | .go m =>
          let chk := fun l => spadCheck m x (addr l) n
          if !drained m x.w.uid then m.hold x .register
          else if x.lanes.any (fun l => match chk l with | .ok (core, off) => tileHeld m x core off n | .error _ => false) then m.hold x .register
          else
            match deliver m x (failing x chk) with
            | (m, none) => m
            | (m, some y) =>
              let place := fun l => match chk l with | .ok (core, off) => spadPlace core off | .error _ => 0
              let operand := fun l => atomOperand code y.w d.toNat l
              let gs := byAddress place y.lanes
              let y := y.taken m [srcI a]
              let m := takeAddress m x a
              if code = 0xE then
                let r := halfLanes (firstHalf m.free) (readPlace x.w.ctx 2) (writePlaceNat x.w.ctx 2) operand { m with free := m.free + gs.length } gs
                r.1.hold y (.halves 0 m.free (y.lanes.map (fun l => (l, place l))) r.2)
              else
                let r := atomLanes code (readPlace x.w.ctx n) (writePlaceNat x.w.ctx n) operand m gs
                done r.1 y r.2))

/-! The weight store. -/

/-- The bytes of a die's weight store: 192 MiB (R2, R175). -/
def storeSize : Nat := 192 * 2 ^ 20

/-- The offset in the die's store that a window-relative range names (R175, R178). -/
def wsTarget (s : State) (ctx off n : Nat) : Except FaultInfo Nat :=
  let p := s.partitionOf ctx
  if p.wsLimit < p.wsBase + off + n ∨ storeSize < p.wsBase + off + n then .error (mkFault .addr 0 7 off) else .ok (p.wsBase + off)

/-- The bank of a store offset (R175). -/
def wsBank (o : Nat) : Nat := natBits o 8 4
/-- Whether a refresh window of the bank of an offset is in progress on a die (R176). -/
def wsRefreshing (m : Mach) (die o : Nat) : Bool := (mget m.windows (die * 16 + wsBank o)).isSome

/-- `LDW` (R178): it stalls while a bank it reads is in its refresh window. -/
def execLdw (d a : BitVec 8) (t : BitVec 3) (s : State) : Out :=
  onWord s (fun x => withAddress s.m x a [] (fun addr =>
    match loadDst s.m x d (tyRegs t.toNat) with
    | .hold m k => m.hold x k
    | .bad e => deliverAll s.m x e
    | .go m =>
      let n := tyBytes t.toNat
      let die := dieOf x.core
      let chk := fun l => if addr l % n ≠ 0 then .error (mkFault .align 0 0 (addr l)) else wsTarget s x.w.ctx (addr l) n
      if x.lanes.any (fun l => match chk l with | .ok o => wsRefreshing m die o || wsRefreshing m die (o + n - 1) | .error _ => false) then
        m.hold x .register
      else
        match deliver m x (failing x chk) with
        | (m, none) => m
        | (m, some y) =>
          let vals := y.lanes.foldl (fun vals l =>
            match chk l with
            | .ok o => mset vals l (loadWords t.toNat (readBytes (m.wstore.getD die []) o n))
            | .error _ => vals) ([] : SMap (List Word))
          let (m, y) := pendLoad (takeAddress m x a) (y.taken m [srcI a]) d (tyRegs t.toNat) vals
          m.advance y))

/-- The start of the earliest window of a bank that has not ended (R176, R177). -/
def windowStart (mode : Mode) (bank now : Nat) : Nat :=
  let phase := match mode with | .steady => 6400 * bank | _ => 12800 * (bank / 2)
  if now < phase + 3200 then phase
  else phase + ((now - phase - 3200) / 102400 + 1) * 102400

/-- The refresh windows in progress at a counter value, for each die * 16 + bank (R176). -/
def refreshWindows (mode : Mode) (now : Nat) : SMap Nat :=
  (List.range 32).filterMap (fun k => let t := windowStart mode (k % 16) now; if t ≤ now then some (k, t) else none)

/-- `WSWIN` (R177). -/
def execWswin (d a : BitVec 8) (s : State) : Out :=
  onWord s (fun x => uniEffect s.m x [srcI a] d 2 (fun v m x =>
    let t : DWord := BitVec.ofNat 64 (windowStart s.mode ((arg v 0).toNat % 16) s.counter.toNat)
    .ok m x [DWord.lo t, DWord.hi t]))

/-- `WS_REFRESH_WINDOW` (R176): the bank's window begins or ends as the counter has it. -/
def execWsRefreshWindow (die bank : Nat) (s : State) : Out :=
  .next (
    if 2 ≤ die ∨ 16 ≤ bank then s
    else
      let t := windowStart s.mode bank s.counter.toNat
      let key := die * 16 + bank
      if t ≤ s.counter.toNat then s.withM { s.m with windows := mset s.m.windows key t }
      else s.withM { s.m with windows := mdel s.m.windows key })

/-! Pins. -/

/-- The page a pin instruction names: aligned, on the issuing core, in its space (R172). -/
def pinTarget (m : Mach) (x : Ex) (addr : Nat) : Except FaultInfo Nat :=
  if addr % 4096 ≠ 0 then .error (mkFault .align 0 0 addr)
  else
    match spadTarget m x.w.ctx x.core addr 4096 with
    | .error e => .error e
    | .ok (core, off) => if core = x.core then .ok (off / 4096) else .error (mkFault .spadRange 0 0 addr)

/-- The pages pinned on a core, by every context. DESIGN CHOICE: those of a context whose cluster state has been released (R428) count until the state is created again or
the context is retired (R172 is silent; log 123). -/
def corePins (m : Mach) (core : Nat) : Nat := m.ctxCores.foldl (fun n c => if c.1 % 512 = core then n + c.2.pins.length else n) 0

/-- `PGPIN` (R172). -/
def execPgpin (d a : BitVec 8) (s : State) : Out :=
  onWord s (fun x => uniEffect s.m x [srcI a] d 1 (fun v m x =>
    match pinTarget m x (arg v 0).toNat with
    | .error e => .bad e m
    | .ok page =>
      let c := m.ctxCore x.w.ctx x.core
      if c.pins.contains page then .ok m x [1]
      else if 48 ≤ corePins m x.core then .ok m x [0]
      else .ok (m.setCtxCore x.w.ctx x.core { c with pins := c.pins ++ [page] }) x [1]))

/-- `PGUNPIN` (R172). -/
def execPgunpin (a : BitVec 8) (s : State) : Out :=
  onWord s (fun x => uniEffect s.m x [srcI a] zeroSpec 0 (fun v m x =>
    match pinTarget m x (arg v 0).toNat with
    | .error e => .bad e m
    | .ok page => .ok (m.adjCtxCore x.w.ctx x.core (fun c => { c with pins := c.pins.filter (· ≠ page) })) x []))

/-! Barrier instructions. -/

/-- The offset of the barrier object a `BINIT` or `BWAIT` names (R167). -/
def barTarget (m : Mach) (x : Ex) (addr : Nat) : Except FaultInfo Nat :=
  if addr % 16 ≠ 0 then .error (mkFault .align 0 0 addr)
  else
    match spadTarget m x.w.ctx x.core addr 16 with
    | .error e => .error e
    | .ok (core, off) => if core = x.core then .ok off else .error (mkFault .spadRange 0 0 addr)

/-- `BINIT` (R167): one 16-byte write, after the warp's earlier stores (R305). -/
def execBinit (d a : BitVec 8) (s : State) : Out :=
  onWord s (fun x => uniEffect s.m x [srcI a, srcI d] zeroSpec 0 (fun v m x =>
    match barTarget m x (arg v 0).toNat with
    | .error e => .bad e m
    | .ok off =>
      if !drained m x.w.uid || tileHeld m x x.core off 16 then .hold (claimSources m x [srcI a, srcI d]) x .register
      else
        let m := m.adjCtxCore x.w.ctx x.core (fun c => { c with signals := mdel c.signals off })
        .ok (spadWrite m x.w.ctx x.core off (natToBytes 16 (arg v 1).toNat)) x []))

/-- What a `BWAIT` that returns acquires (R169, R307): the releases that the object's arrivals were, each at its scope: `.core` for a copy without a release. With one
wider than `.core` L1 is emptied. -/
def barAcquire (m : Mach) (x : Ex) (off : Nat) : Mach × Ex :=
  let srcs := mgetD (m.ctxCore x.w.ctx x.core).signals off []
  acquireRels (if srcs.any (fun r => 3 ≤ r.scope) then dropL1 m x.core else m) x 6 srcs

/-- `BWAIT` (R167): it waits until ARR = EXP or STAT is set. DESIGN CHOICE: the reserved bytes are checked at every try, so that one that waits may still fault
(R167 has the check before the wait; log 121). -/
def execBwait (d a : BitVec 8) (s : State) : Out :=
  onWord s (fun x => uniEffect s.m x [srcI a] d 1 (fun v m x =>
    match barTarget m x (arg v 0).toNat with
    | .error e => .bad e m
    | .ok off =>
      let (obj, m) := spadRead m x.w.ctx x.core off 16
      let stat := barWord obj 2
      if stat / 65536 ≠ 0 ∨ barWord obj 3 ≠ 0 then .bad (plainFault .reservedField) m
      else if barWord obj 1 = barWord obj 0 ∨ stat % 65536 ≠ 0 then
        let (m, x) := barAcquire m x off
        .ok m x [BitVec.ofNat 32 (stat % 65536)]
      else .hold (claimSources m x [srcI a]) x .blocking))

end Sys2Proof.Machine
end

