-- ==== Sys2Proof/Machine/Proctor.lean ====
section
/-! DEFINITION. The tile watch table and the Proctor: descriptors (R282), history (R283), predictions (R284), comparisons (R285), verdicts and their
reports (R286, R197), and the end of a publication (R296). -/

namespace Sys2Proof.Machine

/-- A report pushed to the queues of a core that a condition names; a full queue drops it (R196). -/
def pushReport (wanted : Queue → Bool) (v : Word) (c : CtxCore) : CtxCore :=
  { c with queues := c.queues.map (fun q =>
      if wanted q then
        if q.entries.length < 32 then { q with entries := q.entries ++ [v] } else { q with drops := if q.drops = BitVec.allOnes 32 then q.drops else q.drops + 1 }
      else q) }

/-! The descriptor (R282). -/

def WatchEntry.base (e : WatchEntry) : Nat := bytesToNat (e.desc.take 8)
def WatchEntry.len (e : WatchEntry) : Nat := bytesToNat ((e.desc.drop 8).take 4)
def WatchEntry.tabs (e : WatchEntry) : Nat := bytesToNat ((e.desc.drop 12).take 4)
def WatchEntry.trel (e : WatchEntry) : Nat := bytesToNat ((e.desc.drop 16).take 4)
def WatchEntry.tint (e : WatchEntry) : Nat := bytesToNat ((e.desc.drop 20).take 4)
def WatchEntry.hist (e : WatchEntry) : Nat := bytesToNat ((e.desc.drop 24).take 3)
def WatchEntry.linear (e : WatchEntry) : Bool := bytesToNat ((e.desc.drop 28).take 1) / 64 == 1
def WatchEntry.elt (e : WatchEntry) : Nat := slotElt e.slot
def WatchEntry.tle (e : WatchEntry) : Nat := slotTle e.slot

/-- The float type of an element code, and the bytes of its elements. -/
def floatType (elt : Nat) : Option (Fmt × Nat) :=
  if elt = 0x10 then some (fp16, 2) else if elt = 0x11 then some (bf16, 2) else if elt = 0x12 then some (fp32, 4) else none

/-- The bytes of an integer element code (R38), and whether it is signed. -/
def intBytes (elt : Nat) : Nat := if elt ≤ 2 then 1 else if elt ≤ 4 then 2 else 4
def intSigned (elt : Nat) : Bool := elt % 2 == 1

/-- Elements of `n` bytes. -/
def chunks (n : Nat) : Nat → List Byte → List Nat
  | 0, _ => []
  | k + 1, bs => bytesToNat (bs.take n) :: chunks n k (bs.drop n)

/-- The stored integers of an A tile of 16 rows: 0 in a row that is not usable; and whether every row is usable (R249, R284). -/
def tileInts (inner : Nat) (bytes : List Byte) : List Int × Bool :=
  let (vals, ok) := (List.range 16).foldl (fun (acc : List Int × Bool) m =>
    match (if acc.2 then decodeBlock inner (bytesToNat ((bytes.drop (128 * m)).take 128)) 0 else none) with
    | some b => (acc.1 ++ b.elems.map (fun e => termSum e.terms), true)
    | none => (acc.1 ++ List.replicate 32 0, false)) ([], true)
  (vals, ok)

/-- The integers of an integer tile, and whether it holds no block in error. -/
def integerTile (e : WatchEntry) (bytes : List Byte) : List Int × Bool :=
  if e.elt = 0x22 then tileInts e.tle bytes
  else
    let n := intBytes e.elt
    ((chunks n (e.len / n) bytes).map (fun x => if intSigned e.elt then toSigned (8 * n) x else (x : Int)), true)

/-- The range of an integer element. -/
def integerRange (e : WatchEntry) : Int × Int :=
  if e.elt = 0x22 then (if e.tle = 2 then (0, 255) else (-128, 127))
  else
    let w := 8 * intBytes e.elt
    if intSigned e.elt then (-(2 ^ (w - 1) : Nat), (2 ^ (w - 1) : Nat) - 1) else (0, (2 ^ w : Nat) - 1)

/-! Prediction (R284). -/

/-- One element of a held float prediction: the value, a NaN as the canonical one (R15, R284). -/
def holdFloat (f : Fmt) (a : Nat) : Nat := if f.decode a = .nan then f.nanBits else a

/-- One element of a linear float prediction. -/
def predictFloat (f : Fmt) (a b : Nat) : Nat :=
  f.round (((f.decode a).mul (.fin false 2 0)).add (f.decode b).neg)

/-- A row of a predicted A tile as bytes: its block, zeros to the end of its last 32-byte sector (R31), then bytes that nothing reads, which are unspecified. -/
def encodeRow (inner : Nat) (free : Nat) (vals : List Int) : List Byte :=
  let (bits, n) := encodeBlock inner vals 0
  let k := (n + 255) / 256 * 32
  natToBytes k bits ++ (List.range (128 - k)).map (fun i => Config.freeByte (free + i))

/-- The rows of a predicted A tile. -/
def encodeTile (inner free : Nat) (vals : List Int) : List Byte :=
  (List.range 16).flatMap (fun m => encodeRow inner (free + 128 * m) ((vals.drop (32 * m)).take 32))

/-- The prediction formed from V(n - 1) and V(n - 2): `linear` is false where it falls back to hold. -/
def predictTile (e : WatchEntry) (linear : Bool) (free : Nat) (a b : List Byte) : List Byte :=
  match floatType e.elt with
  | some (f, n) =>
    if linear then ((chunks n (e.len / n) a).zip (chunks n (e.len / n) b)).flatMap (fun p => natToBytes n (predictFloat f p.1 p.2))
    else (chunks n (e.len / n) a).flatMap (fun v => natToBytes n (holdFloat f v))
  | none =>
    let va := (integerTile e a).1
    let vb := (integerTile e b).1
    let (lo, hi) := integerRange e
    let vals : List Int := if linear then (va.zip vb).map (fun p => clampInt lo hi (2 * p.1 - p.2)) else va
    if e.elt = 0x22 then encodeTile e.tle free vals
    else
      let n := intBytes e.elt
      vals.flatMap (fun (v : Int) => natToBytes n (v % ((2 ^ (8 * n) : Nat) : Int)).toNat)

/-! Comparison (R285). -/

/-- The comparison of one float element: published R against predicted P, both as FP32 values. -/
def floatPasses (tabs trel : Nat) (r p : Fl) : Bool :=
  match r with
  | .nan => false
  | _ =>
    if r.cmp p = some .eq then true
    else
      let d := fp32.round (r.add p.neg)
      let mag := fun (x : Fl) => if x.isNeg then x.neg else x
      let rel := fp32.round ((fp32.decode trel).mul (mag r))
      let bound := fp32.add tabs rel
      match (mag (fp32.decode d)).cmp (fp32.decode bound) with
      | some .lt | some .eq => true
      | _ => false

/-- Whether a published tile passes against a prediction. -/
def tilePasses (e : WatchEntry) (real predicted : List Byte) : Bool :=
  match floatType e.elt with
  | some (f, n) =>
    ((chunks n (e.len / n) real).zip (chunks n (e.len / n) predicted)).all (fun p => floatPasses e.tabs e.trel (f.decode p.1) (f.decode p.2))
  | none =>
    let (r, ok) := integerTile e real
    ok && (r.zip (integerTile e predicted).1).all (fun p => (p.1 - p.2).natAbs ≤ e.tint)

/-! The table. -/

/-- Entry `k` of a context's table in a core's cluster. -/
def watchEntry (m : Mach) (ctx core k : Nat) : Option WatchEntry := mget (m.ctxCluster ctx core).watch k

/-- The scratchpad offset of version `v` of an entry (R283). -/
def WatchEntry.at_ (e : WatchEntry) (v : Nat) : Nat := e.hist % 2 ^ 21 + v % 3 * e.len

/-- Version `v` of an entry as its history holds it. -/
def readVersion (m : Mach) (ctx : Nat) (e : WatchEntry) (v : Nat) : List Byte × Mach := spadRead m ctx e.core (e.at_ v) e.len

/-- Every level of a context in a cluster: core, warp, level. -/
def clusterLevels (m : Mach) (ctx cluster : Nat) : List (Nat × Warp × Level) :=
  let resident := m.allWarps.filterMap (fun e => if clusterOf e.1 = cluster ∧ e.2.2.ctx = ctx then some (e.1, e.2.2) else none)
  let away := (m.saved.flatMap (·.2)).filterMap (fun sw => if clusterOf sw.core = cluster ∧ sw.warp.ctx = ctx then some (sw.core, sw.warp) else none)
  (resident ++ away).flatMap (fun e => e.2.levels.map (fun l => (e.1, e.2, l)))

/-- The verdict reports of a comparison (R286): to each core with levels that it decided. -/
def reportVerdicts (m : Mach) (ctx k version : Nat) (cores : List Nat) (pass : Bool) : Mach :=
  let v : Word := BitVec.ofNat 32 ((if pass then 2 ^ 31 else 0) + k * 2 ^ 24 + version % 65536)
  cores.eraseDups.foldl (fun m c =>
    m.adjCtxCore ctx c (pushReport (fun q => q.kind == 4 && (q.arg.getLsbD 5 || q.arg.toNat % 32 == k)) v)) m

/-- Whether a level waits, through a provisional publication, on a level of a list: one of the publisher's levels at or outside the one that
holds the publication (R286). -/
def waitsOn (all : List (Nat × Warp × Level)) (set : List (Nat × Warp × Level)) (x : Level) : Bool :=
  match x.provOf with
  | none => false
  | some u =>
    let theirs := (all.filter (fun e => e.2.1.uid == u)).map (·.2.2)
    let outward := theirs.dropWhile (fun l => !l.provEntry.contains x.entry)
    set.any (fun e => e.2.1.uid == u && outward.any (fun l => l.id == e.2.2.id))

/-- The undecided levels that lie in a set each of which waits on another of the set (R286): what is left after those that wait on none are
taken away. -/
def waitCycle (all : List (Nat × Warp × Level)) : Nat → List (Nat × Warp × Level) → List (Nat × Warp × Level)
  | 0, set => set
  | k + 1, set => waitCycle all k (set.filter (fun e => waitsOn all set e.2.2))

/-- Levels that wait on one another in a circle fail. -/
def failCycles (m : Mach) (ctx cluster : Nat) : Mach :=
  let all := clusterLevels m ctx cluster
  let start := all.filter (fun e => e.2.2.verdict.isNone && e.2.2.provOf.isSome)
  let bad := (waitCycle all start.length start).map (·.2.2.id)
  failLevels m ctx cluster (fun _ l => bad.contains l.id)

/-- The two predictions of version `n` as its history has them now, held and linear: V(n - 1) and V(n - 2) are read when the prediction is used (R283). -/
def predictions (m : Mach) (ctx : Nat) (e : WatchEntry) (n : Nat) : (Bool → List Byte) × Mach :=
  let (a, m) := readVersion m ctx e (n - 1)
  let (b, m) := readVersion m ctx e (n - 2)
  let free := m.free
  (fun linear => predictTile e linear free a b, { m with free := m.free + 2048 })

/-- The comparison of a publication of version `n` with every open level that waits on it: a failure is decided at once; a pass is decided when
the publication is final, and until then depends on its publisher. -/
def compareLevels (m : Mach) (ctx core k : Nat) (e : WatchEntry) (n : Nat) (real : List Byte) (final : Bool) (publisher : Nat) : Mach :=
  let cl := clusterOf core
  let mine := (clusterLevels m ctx cl).filter (fun x => x.2.2.entry == k && x.2.2.version.toNat == n && x.2.2.verdict.isNone)
  let (predict, m) := predictions m ctx e n
  let good := mine.filter (fun x => tilePasses e real (predict x.2.2.linear))
  let bad := mine.filter (fun x => !tilePasses e real (predict x.2.2.linear))
  let ids := fun (l : List (Nat × Warp × Level)) => l.map (·.2.2.id)
  let m := failLevels m ctx cl (fun _ l => (ids bad).contains l.id)
  let m := adjLevels m ctx cl (fun _ l =>
    if (ids good).contains l.id then (if final then { l with verdict := some true } else { l with provOf := some publisher }) else l)
  let m := reportVerdicts m ctx k n (bad.map (·.1)) false
  if final then reportVerdicts m ctx k n (good.map (·.1)) true else failCycles m ctx cl

/-- A provisional publication taken back (R286, R295): PROV := 0, the levels that passed on it fail, and its held write is dropped. -/
def withdrawEntry (m : Mach) (ctx core k : Nat) (e : WatchEntry) : Mach :=
  if !e.prov then m
  else
    let m := failLevels (adjWatch m ctx core k (fun e => { e with prov := false })) ctx (clusterOf core) (fun _ l => l.entry == k && l.provOf == some e.owner)
    adjClusterWarps m ctx (clusterOf core) (fun w =>
      if w.uid = e.owner then
        { w with levels := w.levels.map (fun l =>
            { l with provEntry := l.provEntry.filter (· ≠ k), held := l.held.filter (fun h => match h with | .publish j _ _ => j != k | _ => true) }) }
      else w)

/-- A PUBLICATION'S WRITE is performed, or its fault is recorded (R296): the version is final. A provisional one passes the levels that wait on it;
one made outside speculation is compared now. -/
def finishPublication (m : Mach) (st : Store) : Mach :=
  match st.entry with
  | none => m
  | some k =>
    match watchEntry m st.ctx st.core k with
    | none => m
    | some e =>
      let n := e.ver + 1
      let cl := clusterOf st.core
      let rels := (e.rels ++ st.srcs.map (RelSrc.after (lateOf m st.warp))).filter (fun r => !(stillLate m r.ids).isEmpty)
      if e.prov && e.owner == st.warp then
        let m := adjWatch m st.ctx st.core k (fun e => { e with prov := false, ver := n, rels := rels })
        let good := (clusterLevels m st.ctx cl).filter (fun x => x.2.2.entry == k && x.2.2.provOf == some st.warp && x.2.2.verdict.isNone)
        let m := adjLevels m st.ctx cl (fun _ l =>
          if l.entry == k && l.provOf == some st.warp && l.verdict.isNone then { l with verdict := some true, provOf := none } else l)
        reportVerdicts m st.ctx k n.toNat (good.map (·.1)) true
      else
        let (real, m) := readVersion m st.ctx e n.toNat
        let m := adjWatch m st.ctx st.core k (fun e => { e with ver := n, rels := rels })
        compareLevels m st.ctx st.core k e n.toNat real true st.warp

end Sys2Proof.Machine
end

