-- ==== Sys2Proof/Machine/Memops.lean ====
section
/-! DEFINITION. Global memory: loads (R144, R145), stores (R146, R148), atomics (R150 to R152), fences (R313), `DRAINST` (R154), prefetches (R153),
`ULDC` (R231), and the steps by which issued accesses return, are performed or fail (R113, R118, R134, R146, R184, R195, R380, R396, R108). -/

namespace Sys2Proof.Machine

/-! Addresses. -/

/-- The registers of an address pair. -/
def addrRegs (p : BitVec 6) : List Nat := [2 * p.toNat, 2 * p.toNat + 1]
/-- A lane's address. -/
def laneAddr (w : Warp) (p : BitVec 6) (l : Nat) : DWord := pairOf (w.regLane (2 * p.toNat) l) (w.regLane (2 * p.toNat + 1) l)

/-- Scopes wider than `.core`: an acquire at one of them reads at L2 and empties L1 (R134, R313). -/
def wideScope (sc : Nat) : Bool := 3 ≤ sc

/-- The stores of a lane that open levels hold, oldest first. -/
def heldStores (w : Warp) : List Store :=
  (w.levels.reverse.flatMap (·.held)).filterMap (fun h => match h with | .store st => some st | _ => none)

/-- The bytes that a lane's own issued stores, and then its held ones, name. -/
def namedBytes (s : State) (m : Mach) (w : Warp) (lane : Nat) : List (Nat × Option Byte) × List (Nat × Option Byte) :=
  (ownBytes s m false m.stores w.uid lane, ownBytes s m true (heldStores w) w.uid lane)

/-! The sync class (R142). -/

/-- Whether an address is homed on the other die, so that an access of a core crosses the bridge. -/
def crosses (core pa : Nat) : Bool := isHbm pa && homeDie pa != dieOf core

/-- The requests of a core's accumulate network that have crossed the bridge and wait for their replies: declarations and closes on their way to the directory, which is
die 0's; reservations; tile headers (R142). -/
def networkOut (m : Mach) (core : Nat) : Nat :=
  let away := fun (k : Nat) => dieOf k != dieOf core
  (m.dirQueue.filter (fun r => r.core == core && away 0)).length
    + m.chains.foldl (fun n c => n + (c.2.decls.filter (fun d => d.core == core && d.resv == 1 && away d.hop)).length) 0
    + (m.tiles.filter (fun t => t.2.src == core && !t.2.accepted && away t.2.dst)).length

/-- The sync-class requests that a core has in flight across the bridge. A word's requests are counted as one (log 101). -/
def syncOut (s : State) (m : Mach) (core : Nat) : Nat :=
  let atoms := m.stores.filter (fun st => st.core == core && (st.op matches .atomic ..) && (peekPa s m st.ctx core st.addr .atomic).any (crosses core))
  ((m.core core).warps.foldl (fun n e => n + (e.2.pends.filter (·.sync)).length) 0)
    + ((atoms.map (fun st => (st.warp, st.pc, st.run))).eraseDups).length + networkOut m core

/-- Whether a sync-class request of a core that crosses the bridge is held: eight wait for their replies (R142). -/
def syncFull (s : State) (m : Mach) (core : Nat) : Bool := 8 ≤ syncOut s m core

/-! Loads. -/

/-- What one lane of a load comes to. -/
inductive Loaded where
  | value (bs : List Byte) (srcs : List RelSrc) (ids : List Nat) (cross : Bool)   -- the releases that it reads, the writes that the other die has still to apply
                                -- (R301), and whether it crosses the bridge
  | fault (f : FaultInfo)
  | waits                       -- a first touch, an earlier atomic of the thread, or an uncached access behind earlier stores
  | closes                      -- a byte of a held atomic (R288)
  | remote (level : Nat)        -- in the pod window, with the level of its leaf
  deriving Repr

/-- The bytes of a load at a translated address, read through L1 or at L2, and the releases that it reads: through L1 those of the newest write, where the copy
holds what that write left. -/
def loadBytes (s : State) (m : Mach) (core : Nat) (t : Xlat) (va n : Nat) (l1 : Bool) : Res (List Byte × List RelSrc) :=
  let srcs := srcsRead m (dieOf core) t.pa n
  match (if l1 then mget (m.core core).l1 (t.pa / 32) else none) with
  | some _ =>
    let (bs, m) := readL1 s m core t.pa n
    .ok (bs, if srcs.isEmpty then [] else if (readPa s (dieOf core) m t.pa n).1 = bs then srcs else []) m
  | none =>
    (readAt s m core t va n).next (fun bs m =>
      .ok (bs, srcs) (if l1 then (readL1 s m core t.pa n).2 else dropSector m core t.pa))

/-- One lane's load: checked, translated, read through L1 or at L2, with the thread's own earlier stores laid over it (R301, R304, R288).
`acq` is an acquire wider than `.core`; `reply` says that the reply of a remote access has come. -/
def loadLane (s : State) (m : Mach) (x : Ex) (lane : Nat) (va : DWord) (n : Nat) (acq reply : Bool) : Loaded × Mach :=
  if va.toNat % n ≠ 0 then (.fault (mkFault .align 0 0 va.toNat), m)
  else
    match translate s m x.w.ctx x.core va .read with
    | .fault f m => (.fault f, m)
    | .wait m => (.waits, m)
    | .ok t m =>
      let cls := paClass s t.pa
      if cls = .pod ∧ !reply then (.remote t.level, m)
      else if t.mt = 2 ∧ !drained m x.w.uid then (.waits, m)
      else
        match loadBytes s m x.core t va.toNat n (t.mt = 0 && (cls != .pod) && !acq) with
        | .fault f m => (.fault f, m)
        | .wait m => (.waits, m)
        | .ok (bs, srcs) m =>
          let (own, held) := namedBytes s m x.w lane
          let look := fun i => match forwardByte held (t.pa + i) with | some b => (true, some b) | none => (false, forwardByte own (t.pa + i))
          let marks := (List.range n).map look
          if held.any (fun e => t.pa ≤ e.1 && e.1 < t.pa + n && e.2.isNone) then (.closes, m)
          else if marks.any (fun b => b.2 == some none) then (.waits, m)
          else (.value ((List.range n).map (fun i => match (look i).2 with | some (some b) => b | _ => bs.getD i 0)) srcs
                  (lateRead m (dieOf x.core) t.pa n) (crosses x.core t.pa), m)

/-- A warp as the agent of an access outside its words. -/
def Warp.reader (w : Warp) (core pos : Nat) (lanes : Word) (pc : Pc) : Ex :=
  { core := core, pos := pos, hand := false, grp := 0, w := w, g := Group.at_ lanes pc 0
    r := { start := pc, words := [], fetchFault := none, pos := 0, latches := [], nextPc := [], wait := .none, desc := [] } }

/-- The lanes of a load in ascending order. -/
def loadLanes (s : State) (x : Ex) (addr : Nat → DWord) (n : Nat) (acq reply : Bool) : Mach → List Nat → List (Nat × Loaded) × Mach
  | m, [] => ([], m)
  | m, l :: ls =>
    let (r, m) := loadLane s m x l (addr l) n acq reply
    let (rs, m) := loadLanes s x addr n acq reply m ls
    ((l, r) :: rs, m)

/-- A remote access begun: its destination is pending and the group waits for the reply (R395, R396). -/
def beginRemote (m : Mach) (x : Ex) (d count : Nat) (addrs : SMap (DWord × Nat)) : Mach :=
  let (m, x) := addPend m x .remote d count [] addrs
  m.hold x (.remote (m.nextId - 1))

/-- The releases that the lanes of a load read. -/
def loadedSrcs (rs : List (Nat × Loaded)) : List RelSrc :=
  (rs.flatMap (fun r => match r.2 with | .value _ srcs _ _ => srcs | _ => [])).eraseDups

/-- The writes that they read and that the other die has still to apply. -/
def loadedIds (rs : List (Nat × Loaded)) : List Nat := rs.flatMap (fun r => match r.2 with | .value _ _ ids _ => ids | _ => [])

/-- The warp with writes that it has read (R301). -/
def Ex.reads (x : Ex) (m : Mach) (ids : List Nat) : Ex := { x with w := { x.w with read := stillLate m (x.w.read ++ ids) } }

/-- A load or atomic as a synchronising read: what it reads is kept for a later acquire `FENCE`; with an acquire of its own at a scope what follows it is ordered
after the releases that it reads, and one wider than `.core` empties L1 (R134, R307). A read of a completion record's DONE acquires of itself (R169). -/
def syncRead (m : Mach) (x : Ex) (acq : Option Nat) (srcs : List RelSrc) : Mach × Ex :=
  let direct := srcs.filter (·.direct)
  let (m, x) := if direct.isEmpty then (m, x) else acquireRels (if direct.any (fun r => wideScope r.scope) then dropL1 m x.core else m) x 6 direct
  match acq with
  | some sc => acquireRels (if wideScope sc then dropL1 m x.core else m) x sc srcs
  | none => (m, { x with w := { x.w with seen := ((x.w.seen ++ srcs).eraseDups).filter (fun r => !(stillLate m r.ids).isEmpty) } })

/-- The warp with the loads fixed whose bytes an access from an address up names (R304): they are read no later. -/
def Warp.fixOver (w : Warp) (va : DWord) (n : Nat) : Warp :=
  { w with pends := w.pends.map (fun p =>
      if p.kind == .load && p.addrs.any (fun e => e.2.1.toNat < va.toNat + n && va.toNat < e.2.1.toNat + tyBytes e.2.2) then { p with addrs := [] } else p) }

/-- THE LOADS (R144): `uni` is `ULD`, whose access the lowest active lane makes. The values are read here, and written when the data returns; a plain load may read again
until then (`readAgain`; log 18). -/
def loadOp (s : State) (x : Ex) (uni : Bool) (d : BitVec 8) (p : BitVec 6) (o : BitVec 2) (sc : BitVec 3) (t : BitVec 3) : Mach :=
  match x.r.wait with
  | .remote _ => s.m.put x
  | _ =>
    match srcReady s.m x uni [] (addrRegs p) with
    | .hold m x k => m.hold x k
    | .bad e => deliverAll s.m x e
    | .go =>
      match loadDst s.m x d (tyRegs t.toNat) with
      | .hold m k => m.hold x k
      | .bad e => deliverAll s.m x e
      | .go m =>
        let n := tyBytes t.toNat
        let acq := if o.toNat = 1 then some sc.toNat else none
        let reply := x.r.wait == .released
        let lanes := if uni then [x.low] else x.lanes
        let (rs, m) := loadLanes s x (laneAddr x.w p) n (acq.any wideScope) reply m lanes
        let remote := rs.filterMap (fun r => match r.2 with | .remote k => some (r.1, (laneAddr x.w p r.1, k)) | _ => none)
        let sync := acq.isSome && rs.any (fun r => r.2 matches .value _ _ _ true)
        if rs.any (fun r => r.2 matches .closes) then
          (resolveLevels 4 m x).settle
        else if rs.any (fun r => r.2 matches .waits) || (sync && syncFull s m x.core) then m.hold x .register
        else
          let faults := rs.filterMap (fun r => match r.2 with | .fault f => some (r.1, f) | _ => none)
          let faults := if uni then (match faults with | (_, f) :: _ => x.lanes.map (fun l => (l, f)) | [] => []) else faults
          match deliver m x faults with
          | (m, none) => m
          | (m, some y) =>
            if !remote.isEmpty then
              beginRemote m y (if isV d then d.toNat else 128) (if isV d then tyRegs t.toNat else 0) remote
            else
              let valOf := fun l => (rs.find? (fun r => r.1 == l)).elim [] (fun r => match r.2 with | .value bs .. => loadWords t.toNat bs | _ => [])
              let vals := y.lanes.map (fun l => (l, valOf (if uni then x.low else l)))
              let (m, y) := syncRead m (y.touch (addrRegs p)) acq (loadedSrcs rs)
              let y := y.reads m (loadedIds rs)
              let y := { y with w := lanes.foldl (fun w l => w.fixOver (laneAddr w p l) n) y.w }
              let places := if acq.isSome then [] else (lanes.filter (inMask y.g.lanes)).map (fun l => (l, laneAddr y.w p l, t.toNat))
              let (m, y) := pendLoad m y d (tyRegs t.toNat) vals sync places
              m.advance y

/-- A lane's value of a pending load that has read again: a load of one address gives it to every lane (`ULD`). -/
def Pend.reread (p : Pend) (lane : Nat) (v : List Word) : Pend :=
  { p with vals := p.vals.map (fun e => if e.1 = lane ∨ p.addrs.length = 1 then (e.1, v) else e) }

/-- A PLAIN LOAD READS AGAIN before it returns (R302, R304): nothing that follows it in its thread is ordered after it, so it may be performed after that. -/
def readAgain (s : State) (core pos op lane : Nat) : State :=
  match s.m.warp? core pos with
  | none => s
  | some w =>
    match (w.pends.find? (fun p => p.id == op && p.kind == .load)).bind (fun p => (mget p.addrs lane).map (fun a => (p, a))) with
    | none => s
    | some (p, va, t) =>
      match loadLane s s.m (w.reader core pos p.lanes p.pc) lane va (tyBytes t) false false with
      | (.value bs srcs ids _, m) =>
        let (m, y) := syncRead m (w.reader core pos p.lanes p.pc) none srcs
        let y := y.reads m ids
        s.withM (m.setWarp core pos { y.w with pends := y.w.pends.map (fun q => if q.id = op then q.reread lane (loadWords t bs) else q) })
      | _ => s

/-- `LD` (R144, R145). -/
def execLd (d : BitVec 8) (p : BitVec 6) (o : BitVec 2) (k1 t : BitVec 3) (s : State) : Out := onWord s (fun x => loadOp s x false d p o k1 t)
/-- `ULD` (R144, R42). -/
def execUld (d : BitVec 8) (p : BitVec 6) (o : BitVec 2) (k1 t : BitVec 3) (s : State) : Out := onWord s (fun x => loadOp s x true d p o k1 t)

/-! Stores. -/

/-- The shadow space a core's open levels take (R289). -/
def shadowUsed (m : Mach) (core : Nat) : Nat :=
  (m.core core).warps.foldl (fun n e =>
    n + e.2.levels.foldl (fun n l =>
      n + 32 * l.shadow.length + (l.held.foldl (fun n h => n + match h with | .asend .. => 2048 | .copy _ => 64 | .publish .. => 64 | .store _ => 0) 0)) 0) 0

/-- The sectors that stores write and no earlier held effect of the warp holds. -/
def newSectors (w : Warp) (sts : List Store) : List Nat :=
  ((sts.flatMap Store.sectors).eraseDups).filter (fun k => !(w.levels.any (fun l => l.shadow.contains k)))

/-- Whether a store is combined with the one before it (R134): plain stores of one run of a warp, both within one sector. A store of a later run is not, since what is
combined is performed by the end of its run. -/
def joins (prev : Option Store) (st : Store) : Bool :=
  let plain := fun (o : Store) => (o.op matches .bytes _) && o.kind ≤ 7 && o.rel.isNone
  match prev with
  | some p => plain p && plain st && p.run == st.run && p.sectors.length == 1 && p.sectors == st.sectors
  | none => false

/-- Stores in their order, each marked as combined with the one before it or not. -/
def joinStores : Option Store → List Store → List Store
  | _, [] => []
  | prev, st :: sts => { st with joined := joins prev st } :: joinStores (some st) sts

/-- Stores issued: appended in the order of issue, or held by the innermost open level (R288); none when there is no shadow space left. -/
def issueStores (m : Mach) (x : Ex) (sts : List Store) : Option (Mach × Ex) :=
  match x.w.levels with
  | [] => some ({ m with stores := m.stores ++ joinStores (m.stores.reverse.find? (fun st => st.warp == x.w.uid)) sts }, x)
  | lv :: rest =>
    let secs := newSectors x.w sts
    if 65536 < shadowUsed m x.core + 32 * secs.length then none
    else
      let sts := joinStores (heldStores x.w).getLast? sts
      some (m, { x with w := { x.w with levels := { lv with held := lv.held ++ sts.map Held.store, shadow := lv.shadow ++ secs } :: rest } })

/-- Store entries numbered in order. -/
def numberStores (m : Mach) (sts : List Store) : Mach × List Store :=
  ({ m with nextId := m.nextId + sts.length }, (List.range sts.length).zip sts |>.map (fun e => { e.2 with seq := m.nextId + e.1 }))

/-- The releases that a write of the word is (R307): its own at a scope, and those that an earlier release `FENCE` makes it. -/
def wordReleases (x : Ex) (rel : Option Nat) : List RelSrc :=
  ((x.w.fenceRel ++ rel.toList).eraseDups).map (fun sc => { scope := sc, agent := x.agent, ids := x.w.know, direct := false })

/-- A store entry of the word being executed. -/
def storeEntry (x : Ex) (lanes : Word) (kind : Nat) (addr : DWord) (op : StoreOp) (rel : Option Nat) (acq : Option Nat := none) : Store :=
  { seq := 0, warp := x.w.uid, ctx := x.w.ctx, core := x.core, slot := x.w.homeSlot, lanes := lanes, pc := x.pc, run := x.w.runs, kind := kind
    addr := addr, op := op, rel := rel, acq := acq, srcs := wordReleases x rel, entry := none, joined := false, gang := x.w.gang, twin := false, place := none
    failed := none }

/-- How many bytes from its address up a store may name. -/
def Store.span (st : Store) : Nat := match st.op with | .bytes bs => bs.length | .atomic code _ => atomSize code

/-- THE STORES: alignment is precise; the entries follow. A held store that finds no shadow space closes the levels first (R289). -/
def storeOp (m : Mach) (x : Ex) (regs : List Nat) (srcs : List Src) (bad : Nat → Option FaultInfo) (entries : Ex → List Store) : Mach :=
  match srcReady m x false srcs regs with
  | .hold m x k => m.hold x k
  | .bad e => deliverAll m x e
  | .go =>
    match deliver m x (x.lanes.filterMap (fun l => (bad l).map (fun f => (l, f)))) with
    | (m, none) => m
    | (m, some y) =>
      let (m, sts) := numberStores m (entries y)
      let y := { y with w := sts.foldl (fun w st => w.fixOver st.addr st.span) y.w }
      match issueStores m y sts with
      | some (m, y) => (m.setCtxCore x.w.ctx x.core (takeSources (m.ctxCore x.w.ctx x.core) x srcs)).advance ((y.touch regs).taken m srcs)
      | none =>
        (resolveLevels 4 m y).settle

/-- The scope of a release, and of an acquire, from ORD and SC (R53). -/
def relScope (o : BitVec 2) (sc : BitVec 3) : Option Nat := if 2 ≤ o.toNat then some sc.toNat else none
def acqScope (o : BitVec 2) (sc : BitVec 3) : Option Nat := if o.toNat % 2 = 1 then some sc.toNat else none

/-- `ST` (R146, R147). -/
def execSt (d : BitVec 8) (p : BitVec 6) (o : BitVec 2) (k1 t : BitVec 3) (s : State) : Out :=
  onWord s (fun x => storeOp s.m x (addrRegs p ++ dataRegs t.toNat d) []
    (fun l => let a := (laneAddr x.w p l).toNat; if a % tyBytes t.toNat ≠ 0 then some (mkFault .align 0 0 a) else none)
    (fun y => y.lanes.map (fun l =>
      storeEntry y (laneBit l) t.toNat (laneAddr y.w p l) (.bytes ((storeData y.w t.toNat d l).map some)) (relScope o k1))))

/-- `STM` (R148): the bytes that the mask names; a mask of 0 stores nothing. -/
def execStm (d : BitVec 8) (p : BitVec 6) (b : BitVec 8) (s : State) : Out :=
  onWord s (fun x =>
    let cc := s.m.ctxCore x.w.ctx x.core
    let mask := fun l => (srcValue cc x (srcI b) 0 l).toNat % 16
    storeOp s.m x (addrRegs p ++ dataRegs 4 d) [srcI b] (fun _ => none)
      (fun y => (y.lanes.filter (fun l => mask l ≠ 0)).map (fun l =>
        let bytes := (storeData y.w 4 d l).zip (List.range 4) |>.map (fun e => if natBits (mask l) e.2 1 = 1 then some e.1 else none)
        storeEntry y (laneBit l) 7 (laneAddr y.w p l) (.bytes bytes) none)))

/-! Atomics. -/

/-- The entries of an `ATOM` with NR = 1: one for each merged group, or for each lane of `exch` and `cas`. `fadd2.b2` is two (R151), of which either may come
first (`high`, by the number of the group). DESIGN CHOICE: each half that faults records an entry of its own for each of its lanes; the spec does not say whether the two give one or two
(log 40). -/
def atomEntries (code : Nat) (rel acq : Option Nat) (high : Nat → Bool) (x : Ex) (p : BitVec 6) (d : Nat) : List Store :=
  let y := fun l => atomOperand code x.w d l
  (byAddress (fun l => (laneAddr x.w p l).toNat) x.lanes).zipIdx.flatMap (fun ((a, ls), i) =>
    let va : DWord := BitVec.ofNat 64 a
    if !atomMerges code then ls.map (fun l => storeEntry x (laneBit l) 8 va (.atomic code (y l)) rel acq)
    else
      let total := (mergeOperands code y ls).1
      if code = 0xE then
        let half := fun (h : Bool) => storeEntry x (maskOf ls) 8 (if h then va + 2 else va) (.atomic 16 (pieceOf h total)) rel acq
        [half (high i), { half (!high i) with twin := true }]
      else [storeEntry x (maskOf ls) 8 va (.atomic code total) rel acq])

/-- The translations of an atomic's lanes, in ascending order. -/
def atomXlats (s : State) (x : Ex) (addr : Nat → DWord) (n : Nat) : Mach → List Nat → List (Nat × Except FaultInfo Xlat) × Bool × Mach
  | m, [] => ([], false, m)
  | m, l :: ls =>
    let (r, w, m) : Option (Except FaultInfo Xlat) × Bool × Mach :=
      if (addr l).toNat % n ≠ 0 then (some (.error (mkFault .align 0 0 (addr l).toNat)), false, m)
      else
        match translate s m x.w.ctx x.core (addr l) .atomic with
        | .fault f m => (some (.error f), false, m)
        | .wait m => (none, true, m)
        | .ok t m =>
          if (paClass s t.pa matches .hbm _) && poisonedRange m t.pa n then (some (.error (mkFault .addr t.level 9 (addr l).toNat)), false, m)
          else (some (.ok t), false, m)
    let (rs, ws, m) := atomXlats s x addr n m ls
    (match r with | some r => (l, r) :: rs | none => rs, w || ws, m)

/-- An atomic's read of the newest value at L2, as a number, and its write (R301, R134): `o` makes it. -/
def atomRead (s : State) (n : Nat) (m : Mach) (pa : Nat) : Nat × Mach :=
  let (bs, m) := readPa s 2 m pa n
  (bytesToNat bs, if isHbm pa then fillL2 m pa n else m)
def atomWrite (s : State) (o : Writer) (n : Nat) (m : Mach) (pa v : Nat) : Mach :=
  dropSector (writeFrom s m o pa ((natToBytes n v).map some) true (srcsRead m 2 pa n)) o.agent.core pa

/-- The writer of a word's atomic, as one access. -/
def wordWriter (x : Ex) (access : Nat) (rel : Option Nat) : Writer :=
  { agent := x.agent, thread := x.w.uid, access := access, lanes := x.g.lanes, srcs := wordReleases x rel }

/-- The end of an `ATOM` with NR = 0: its old values are pending in the destination. -/
def finishAtom (m : Mach) (x : Ex) (code : Nat) (p : BitVec 6) (d : Nat) (sync : Bool) (olds : SMap Nat) : Mach :=
  let (m, x) := addPend m (x.touch (addrRegs p ++ (List.range (atomReads code)).map (· + d))) .load d (atomWrites code)
    (olds.map (fun e => (e.1, wordsOf (atomWrites code) e.2))) [] sync
  m.advance x

/-- An atomic as a read of the newest values of its locations. -/
def atomSync (m : Mach) (x : Ex) (acq : Option Nat) (n : Nat) (gs : List (Nat × List Nat)) : Mach × Ex :=
  let ids := gs.flatMap (fun g => lateRead m (dieOf x.core) g.1 n)
  let (m, x) := syncRead m x acq ((gs.flatMap (fun g => srcsRead m 2 g.1 n)).eraseDups)
  (m, x.reads m ids)

/-- An `ATOM` with NR = 0 performed at the locations of its lanes: the acquire takes in what it reads, the release what happens before it (R152). One half of
`fadd2.b2` is performed alone, and the other by the next turn of the warp (R151). -/
def performAtom (s : State) (m : Mach) (x : Ex) (code : Nat) (acq rel : Option Nat) (p : BitVec 6) (d : Nat) (pa : Nat → Nat) : Mach :=
  let n := atomSize code
  let gs := (byAddress (fun l => (laneAddr x.w p l).toNat) x.lanes).map (fun e => (pa (e.2.headD 0), e.2))
  let (m, x) := atomSync m x acq n gs
  let (access, m) := m.newId
  let o := wordWriter x access rel
  let operand := fun l => atomOperand code x.w d l
  if code = 0xE then
    let r := halfLanes (firstHalf m.free) (atomRead s 2) (atomWrite s o 2) operand { m with free := m.free + gs.length } gs
    r.1.hold x (.halves access m.free (x.lanes.map (fun l => (l, pa l))) r.2)
  else
    let r := atomLanes code (atomRead s n) (atomWrite s o n) operand m gs
    finishAtom r.1 x code p d (gs.any (fun g => crosses x.core g.1)) r.2

/-- `ATOM` (R150 to R152). With NR = 0 it is performed here, after the warp's earlier stores, and its old values return later; with NR = 1
its entries take their place among the warp's stores. -/
def execAtom (r : BitVec 1) (d : BitVec 8) (p : BitVec 6) (o : BitVec 2) (k1 : BitVec 3) (f : BitVec 4) (s : State) : Out :=
  let code := f.toNat
  let n := atomSize code
  let rel := relScope o k1
  let acq := acqScope o k1
  onWord s (fun x =>
    let regs := addrRegs p ++ (List.range (atomReads code)).map (· + d.toNat)
    if r = 1 then
      let m := if code = 0xE then { s.m with free := s.m.free + 32 } else s.m
      let sync := x.lanes.any (fun l => (peekPa s s.m x.w.ctx x.core (laneAddr x.w p l) .atomic).any (crosses x.core))
      if x.w.levels.isEmpty && sync && syncFull s s.m x.core then s.m.hold x .register
      else storeOp m x regs [] (fun l => let a := (laneAddr x.w p l).toNat; if a % n ≠ 0 then some (mkFault .align 0 0 a) else none)
        (fun y => atomEntries code rel acq (firstHalf s.m.free) y p d.toNat)
    else
      match x.r.wait with
      | .remote _ => s.m.put x
      | .halves access pick places olds =>
        let gs := (byAddress (fun l => (laneAddr x.w p l).toNat) x.lanes).map (fun e => (mgetD places (e.2.headD 0) 0, e.2))
        let (m, x) := atomSync s.m x acq n gs
        let h := halfLanes (secondHalf pick) (atomRead s 2) (atomWrite s (wordWriter x access rel) 2) (fun l => atomOperand code x.w d.toNat l) m gs
        finishAtom h.1 x code p d.toNat (gs.any (fun g => crosses x.core g.1)) (joinHalves olds h.2)
      | _ =>
        match srcReady s.m x false [] regs with
        | .hold m x k => m.hold x k
        | .bad e => deliverAll s.m x e
        | .go =>
          match regsReady s.m x d.toNat (atomWrites code) with
          | .hold m k => m.hold x k
          | .bad e => deliverAll s.m x e
          | .go m =>
            if !drained m x.w.uid then m.hold x .register
            else
              let (ts, waits, m) := atomXlats s x (laneAddr x.w p) n m x.lanes
              let sync := ts.any (fun t => match t.2 with | .ok t => crosses x.core t.pa | .error _ => false)
              if waits || (sync && syncFull s m x.core) then m.hold x .register
              else
                match deliver m x (ts.filterMap (fun t => match t.2 with | .error e => some (t.1, e) | .ok _ => none)) with
                | (m, none) => m
                | (m, some y) =>
                  let leaf := fun l => ((ts.find? (fun t => t.1 == l)).bind (fun t => match t.2 with | .ok t => some t | .error _ => none)).elim (0, 0)
                    (fun t => (t.pa, t.level))
                  let remote := y.lanes.filter (fun l => paClass s (leaf l).1 == .pod)
                  if !remote.isEmpty ∧ x.r.wait ≠ .released then
                    beginRemote m y d.toNat (atomWrites code) (remote.map (fun l => (l, (laneAddr x.w p l, (leaf l).2))))
                  else performAtom s m y code acq rel p d.toNat (fun l => (leaf l).1))

/-! Fences, drains and prefetches. -/

/-- Whether loads of a group have not returned yet. -/
def loadsOut (x : Ex) : Bool := x.w.pends.any (fun p => (p.kind == .load || p.kind == .remote) && p.lanes &&& x.g.lanes != 0)

/-- Whether every write of a warp is performed at a scope (R302): one wider than `.die` asks both dies to have applied it. -/
def performedAt (m : Mach) (uid sc : Nat) : Bool := drained m uid && (sc ≤ 4 || (lateOf m uid).isEmpty)

/-- AN ACQUIRE WITHOUT A READ OF ITS OWN (a fence's, a copy command's) at a scope: it takes in the releases that the warp's earlier reads have read, and those of
the cluster's other warps, whose scratchpad writes after a release `FENCE` it may have read (R307). -/
def fenceAcquire (m : Mach) (x : Ex) (sc : Nat) : Mach × Ex :=
  let near := (m.allWarps.filter (fun e => clusterOf e.1 == clusterOf x.core && e.2.2.uid != x.w.uid)).flatMap (fun (core, _, w) =>
    w.fenceRel.map (fun k => ({ scope := k, agent := w.agent core, ids := w.history m, direct := false } : RelSrc)))
  syncRead m x (some sc) (x.w.seen.map (fun r => { r with direct := false }) ++ near)

/-- `FENCE` (R313, R307): a release makes the warp's later writes releases of what happens before it. One that reaches both dies is a request of the sync class (R142). -/
def execFence (o : BitVec 2) (k1 : BitVec 3) (s : State) : Out :=
  onWord s (fun x =>
    let sc := k1.toNat
    if 5 ≤ sc ∧ syncFull s s.m x.core then s.m.hold x .register
    else if 2 ≤ o.toNat ∧ !performedAt s.m x.w.uid sc then s.m.hold x .register
    else if o.toNat % 2 = 1 ∧ loadsOut x then s.m.hold x .register
    else
      let (m, x) := if o.toNat % 2 = 1 then fenceAcquire s.m x sc else (s.m, x)
      let rels := if 2 ≤ o.toNat then (x.w.fenceRel ++ [sc]).eraseDups else x.w.fenceRel
      m.advance { x with w := { x.w with fenceRel := rels } })

/-- `DRAINST` (R154). -/
def execDrainst (s : State) : Out :=
  onWord s (fun x => if drained s.m x.w.uid then s.m.advance x else s.m.hold x .register)

/-- A prefetch (R153): each lane's line, where its page allows; nothing is reported. -/
def prefetch (s : State) (x : Ex) (l1 : Bool) (p : BitVec 6) : Mach :=
  match srcReady s.m x false [] (addrRegs p) with
  | .hold m x k => m.hold x k
  | .bad e => deliverAll s.m x e
  | .go =>
    let m := x.lanes.foldl (fun m l =>
      let line : DWord := BitVec.ofNat 64 ((laneAddr x.w p l).toNat / 64 * 64)
      match translate s m x.w.ctx x.core line .read false with
      | .ok t m =>
        if !isHbm t.pa ∨ t.mt = 2 ∨ (l1 ∧ t.mt ≠ 0) ∨ poisonedRange m t.pa 64 then m
        else if l1 then (readL1 s (readL1 s m x.core t.pa 32).2 x.core (t.pa + 32) 32).2
        else fillL2 m t.pa 64
      | .fault _ m => m
      | .wait m => m) s.m
    m.advance (x.touch (addrRegs p))

/-- `PREF.l1` (R153). -/
def execPrefL1 (p : BitVec 6) (s : State) : Out := onWord s (fun x => prefetch s x true p)
/-- `PREF.l2` (R153). -/
def execPrefL2 (p : BitVec 6) (s : State) : Out := onWord s (fun x => prefetch s x false p)

/-- `ULDC` (R231). -/
def execUldc (d a : BitVec 8) (w : BitVec 1) (s : State) : Out :=
  onWord s (fun x =>
    let count := if w = 1 then 2 else 1
    match srcReady s.m x true [srcI a] with
    | .hold m x k => m.hold x k
    | .bad e => deliverAll s.m x e
    | .go =>
      match regsReady s.m x d.toNat count with
      | .hold m k => m.hold x k
      | .bad e => deliverAll s.m x e
      | .go m =>
        let o := (srcValue (m.ctxCore x.w.ctx x.core) x (srcI a) 0 x.low).toNat % 2 ^ 32
        if o % (4 * count) ≠ 0 then deliverAll m x (mkFault .align 0 0 o)
        else if 384 < o + 4 * count then deliverAll m x (mkFault .addr 0 7 o)
        else
          let v := bytesToNat (((gridRecord m x.w).drop o).take (4 * count))
          let (m, y) := pendLoad (takeAddress m x a) (x.taken m [srcI a]) d count (x.lanes.map (fun l => (l, wordsOf count v)))
          m.advance y)

/-! Returning results. -/

/-- Register values written into a map of registers, lanes of a pending result. -/
def writeVals (regs : SMap LaneVec) (p : Pend) (vals : SMap (List Word)) : SMap LaneVec :=
  (List.range p.count).foldl (fun rs i =>
    let v := mergeVec (mgetD rs (p.reg + i) zeroVec) (p.lanes &&& maskOf (mkeys vals)) (fun l => (mgetD vals l []).getD i 0)
    mput zeroVec rs (p.reg + i) v) regs

/-- A pending result written into a warp (R186): its registers, those of the snapshots taken after it began, and the scoreboard. -/
def Warp.complete (w : Warp) (p : Pend) (vals : SMap (List Word)) : Warp :=
  let rs := (List.range p.count).map (· + p.reg)
  let gens := rs.foldl bumpGen w.gens
  { w with
    regs := writeVals w.regs p vals
    gens := gens
    away := rs.foldl (fun a r => if w.spilled.contains r && w.retains r (genOf w.gens r) then a ++ [(r, genOf w.gens r)] else a) w.away
    spilled := w.spilled.filter (fun r => !(p.reg ≤ r && r < p.reg + p.count))
    lru := w.usedAfter gens rs
    pends := w.pends.filter (fun q => q.id ≠ p.id)
    levels := w.levels.map (fun l =>
      if p.id < l.pendsFrom then
        { l with snapshot := { l.snapshot with regs := writeVals l.snapshot.regs p vals, gens := rs.foldl (fun g r => mset g r (genOf gens r)) l.snapshot.gens } }
      else l) }

/-- A warp changed where it is: in its position, or among the saved warps of a pre-empted context that stood there. -/
def adjWarpOrSaved (m : Mach) (core pos : Nat) (has : Warp → Bool) (f : Warp → Warp) : Mach :=
  match (m.warp? core pos).filter has with
  | some w => m.setWarp core pos (f w)
  | none =>
    { m with saved := m.saved.map (fun e => (e.1, e.2.map (fun sw => if sw.core = core ∧ sw.pos = pos ∧ has sw.warp then { sw with warp := f sw.warp } else sw))) }

/-- The pending result of a warp with an identity. -/
def Warp.pend? (w : Warp) (op : Nat) : Option Pend := w.pends.find? (fun p => p.id == op)

/-- The group that waits for a remote access goes on with what became of it. -/
def answerRemote (op : Nat) (k : Wait) (g : Group) : Group :=
  match g.run with
  | some r => if r.wait == .remote op then { g with run := some { r with wait := k } } else g
  | none => g

/-- `LOAD_RETURN` (R144, R186): the data is written into the pending destination; the reply of a remote access lets its word go on, a sequencer's too (`pos` is then
34 and its context's number). -/
def execLoadReturn (core pos op : Nat) (s : State) : Out :=
  .next (s.withM (if 34 ≤ pos then s.m.adjCtxCore (pos - 34) core (fun c => { c with seq := { c.seq with remote := c.seq.remote.map (fun r => (true, r.2)) } }) else adjWarpOrSaved s.m core pos (fun w => (w.pend? op).isSome) (fun w =>
    match w.pend? op with
    | some p =>
      match p.kind with
      | .load => w.complete p p.vals
      | .remote =>
        { w with pends := w.pends.filter (fun q => q.id ≠ op)
                 groups := w.groups.map (answerRemote op .released), hgroups := w.hgroups.map (answerRemote op .released) }
      | _ => w
    | none => w)))

/-- `SATCHEL_FILL` (R184): the fill takes a physical register, for which another warp may have to spill, and never faults. -/
def execSatchelFill (core pos op : Nat) (s : State) : Out :=
  .next (
    match (s.m.warp? core pos).bind (fun w => w.pend? op) with
    | some p =>
      if p.kind == .fill then
        match makeRoom 40 s.m core pos 1 with   -- the fill has taken no register before (R184)
        | .ok m => s.withM (m.adjWarp core pos (fun w =>
            { w with spilled := w.spilled.filter (· ≠ p.reg), pends := w.pends.filter (fun q => q.id ≠ op), lru := w.usedAfter w.gens [p.reg] }))
        | _ => s
      else s
    | none => s)

/-- A queue-fed load's pop from queue `k` of a context (R195): the entry, and the queue without it. Words that wait with the queue's entries read keep it as it is. -/
def popFed (m : Mach) (ctx core k : Nat) : Option (Word × Mach) :=
  let cc := m.ctxCore ctx core
  let q := cc.queues.getD k .fresh
  match q.entries with
  | e :: rest => if q.readers.isEmpty then some (e, m.setCtxCore ctx core { cc with queues := setAt cc.queues k { q with entries := rest } }) else none
  | [] => none

/-- The oldest queue-fed load of a warp for the queue of one of its pending results. -/
def Warp.oldestFed (w : Warp) (op : Nat) : Option (Pend × Nat) :=
  (w.pend? op).bind (fun p =>
    match p.kind with
    | .queueFed k => if (w.pends.find? (fun r => r.kind == .queueFed k)).any (fun r => r.id == op) then some (p, k) else none
    | _ => none)

/-- `QUEUE_FED_LOAD_WRITE` (R195): the warp's oldest queue-fed load of a queue pops an entry once there is one, and its lease ends. A warp that has ended pops it
too, and discards it (R189). -/
def execQueueFedLoadWrite (core pos op : Nat) (s : State) : Out :=
  .next (
    match s.m.warp? core pos with
    | some w =>
      match (w.oldestFed op).bind (fun e => (popFed s.m w.ctx core e.2).map (fun r => (e.1, r))) with
      | some (p, e, m) => s.withM (m.setWarp core pos (w.complete p ((maskLanes p.lanes).map (fun l => (l, [e])))))
      | none => s
    | none =>
      match (s.m.core core).leaving.find? (fun w => (w.oldestFed op).isSome) with
      | none => s
      | some w =>
        match (w.oldestFed op).bind (fun e => popFed s.m w.ctx core e.2) with
        | some (_, m) => s.withM (m.adjCore core (fun c => { c with leaving := endLeases (fun v p => v.uid == w.uid && p.id == op) c.leaving }))
        | none => s)

/-! Stores performed and recorded. -/

/-- The first issued store of a warp that may be performed now. The completion word's atomic of a slice waits for every earlier store of its
context (R357). -/
def nextStore (m : Mach) (warp : Nat) : Option Store :=
  match m.stores.find? (fun st => st.warp == warp) with
  | some st =>
    if st.warp = st.seq ∧ m.stores.any (fun o => o.seq < st.seq && o.ctx == st.ctx) then none else some st
  | none => none

/-- The machine without a store entry. -/
def dropStore (m : Mach) (seq : Nat) : Mach := { m with stores := m.stores.filter (fun st => st.seq ≠ seq) }

/-- The machine when a store has been performed or recorded: the version that it publishes is final, and the cluster state may be released (R296, R428). -/
def endStore (m : Mach) (st : Store) : Mach :=
  let m := dropStore (finishPublication m st) st.seq
  if st.entry.isSome then releaseCluster m st.ctx st.core else m

/-- A store entry changed. -/
def adjStore (m : Mach) (seq : Nat) (f : Store → Store) : Mach := { m with stores := m.stores.map (fun st => if st.seq = seq then f st else st) }

/-- The agent of a store. -/
def Store.agent (st : Store) : Agent := { ctx := st.ctx, core := st.core, warp := st.warp, gang := st.gang }

/-- The releases that a store is when it is performed: a slice's completion word follows every write (R357). -/
def Store.releases (m : Mach) (st : Store) : List RelSrc :=
  if st.warp = st.seq then [{ scope := 5, agent := st.agent, ids := m.late.map (·.id), direct := false }] else st.srcs

/-- Who makes a store's write. The two halves of an atomic are one access (R151). -/
def Store.writer (m : Mach) (st : Store) (lanes : Word) : Writer :=
  { agent := st.agent, thread := st.warp, access := if st.twin then st.seq - 1 else st.seq, lanes := lanes, srcs := st.releases m }

/-- Named bytes of a store written at L2 and merged into the core's own L1 copy. -/
def performBytes (s : State) (m : Mach) (st : Store) (lanes : Word) (parts : List (Xlat × List (Option Byte))) : Mach :=
  parts.foldl (fun m e => patchL1 (writeFrom s m (st.writer m lanes) e.1.pa e.2 (e.1.mt ≠ 2)) st.core e.1.pa e.2) m

/-- The aligned words of which a store names a byte. -/
def Store.words (st : Store) : List Nat := match st.op with | .bytes bs => namedWords st.addr.toNat bs | .atomic .. => []

/-- A store with its bytes in one aligned word alone, or with all but those. -/
def Store.only (st : Store) (word : Nat) (inside : Bool) : Store :=
  match st.op with
  | .bytes bs => { st with op := .bytes ((List.range bs.length).map (fun i => if ((st.addr.toNat + i) / 4 == word) == inside then bs.getD i none else none)) }
  | .atomic .. => st

/-- The stores combined with the first of a warp (R134): those right behind it. -/
def joinedStores (m : Mach) (st : Store) : List Store := ((m.stores.filter (fun o => o.warp == st.warp)).drop 1).takeWhile (·.joined)

/-- The bytes of a sector that stores within it name, a later one over an earlier. -/
def sectorBytes (sts : List Store) : List (Option Byte) :=
  (List.range 32).map (fun i => sts.foldl (fun b st =>
    match st.op with
    | .bytes bs => let o := st.addr.toNat % 32; if o ≤ i then (match bs.getD (i - o) none with | some v => some v | none => b) else b
    | .atomic .. => b) none)

/-- A warp changed by its identity, resident or saved. -/
def adjWarpOf (m : Mach) (uid : Nat) (f : Warp → Warp) : Mach :=
  let fix := fun (w : Warp) => if w.uid = uid then f w else w
  { m with cores := m.cores.map (fun c => if c.2.warps.any (fun e => e.2.uid == uid) then (c.1, { c.2 with warps := c.2.warps.map (fun e => (e.1, fix e.2)) }) else c)
           saved := m.saved.map (fun e => (e.1, e.2.map (fun sw => { sw with warp := fix sw.warp }))) }

/-- What an atomic with NR = 1 acquires as it is performed (R152, R307). -/
def storeAcquire (m : Mach) (st : Store) (srcs : List RelSrc) : Mach :=
  match st.acq with
  | some sc =>
    let m := acquireFrom (if wideScope sc then dropL1 m st.core else m) srcs sc st.agent
    let ids := acquired srcs sc st.agent
    adjWarpOf m st.warp (fun w => { w with know := stillLate m (w.know ++ ids) })
  | none => if srcs.isEmpty then m else adjWarpOf m st.warp (fun w => { w with seen := (w.seen ++ srcs).eraseDups })

/-- A store performed by itself. Bytes of an `STM` in two words are two accesses, in either order (R148): both are translated before the first is performed, and the
second keeps its place. -/
def performAlone (s : State) (m : Mach) (st : Store) (parts : List (Xlat × List (Option Byte))) : Mach :=
  let words := st.words
  if st.kind = 7 ∧ 1 < words.length then
    let word := words.getD (Config.freePick m.free % words.length) 0
    match storeTranslate s { m with free := m.free + 1 } (st.only word true) with
    | .ok part m =>
      match storeTranslate s m (st.only word false) with
      | .ok [(x, _)] m => adjStore (performBytes s m st st.lanes part) st.seq (fun o => { o.only word false with place := some (x.pa, x.mt) })
      | _ => m
    | _ => m
  else endStore (performBytes s m st st.lanes parts) st

/-- A WORD OF A PUBLICATION'S WRITE performed ahead of the others (R311), where the tile lies on one page; the rest stays with its place. -/
def storeWord (s : State) (warp word : Nat) : State :=
  match (nextStore s.m warp).filter (fun st => st.failed.isNone && st.kind == 9) with
  | none => s
  | some st =>
    match storeTranslate s s.m st, storeTranslate s s.m (st.only word true) with
    | .ok [_] _, .ok [part] m =>
      match storeTranslate s m (st.only word false) with
      | .ok [(x, _)] m => s.withM (adjStore (performBytes s m st st.lanes [part]) st.seq (fun o => { o.only word false with place := some (x.pa, x.mt) }))
      | _ => s
    | _, _ => s

/-- `STORE_PERFORMED` (R146, R134, R150): the oldest issued store of a warp is translated and performed at L2, with those combined with it, and merged into the
core's own L1 copy. -/
def execStorePerformed (warp : Nat) (s : State) : Out :=
  .next (
    match (nextStore s.m warp).filter (fun st => st.failed.isNone) with
    | none => s
    | some st =>
      match st.op with
      | .bytes _ =>
        match storeTranslate s s.m st with
        | .ok parts m =>
          match joinedStores s.m st, parts with
          | o :: more, [(x, _)] =>
            if x.mt = 2 then s.withM (performAlone s m st parts)
            else
              let all := st :: o :: more
              let m := performBytes s m st (all.foldl (fun l o => l ||| o.lanes) 0) [({ x with pa := x.pa / 32 * 32 }, sectorBytes all)]
              s.withM (all.foldl (fun m o => dropStore m o.seq) m)
          | _, _ => s.withM (performAlone s m st parts)
        | .wait m => s.withM m
        | .fault _ _ => s
      | .atomic code y =>
        match translate s s.m st.ctx st.core st.addr .atomic with
        | .ok t m =>
          let n := atomSize code
          if isHbm t.pa && poisonedRange m t.pa n then s
          else
            let srcs := srcsRead m 2 t.pa n
            let (v, m) := atomRead s n m t.pa
            let m := atomWrite s (st.writer m st.lanes) n m t.pa (atomComb code v y)
            s.withM (dropStore (storeAcquire m st srcs) st.seq)
        | .wait m => s.withM m
        | .fault _ _ => s)

/-- A store's fault recorded for its lowest lane that has no entry yet (R380): in the queue of the core where the warp is, once there is room;
as an event when no thread of the warp is left (R381). Until every lane of it is recorded the store stays, failed, and is not performed. -/
def recordStoreFault (m : Mach) (st : Store) (f : FaultInfo) : Mach :=
  let lane := lowLane st.lanes
  let rec_ : Record := { pc := st.pc, run := lane, imp := false, slot := st.slot, kind := st.kind, cause := f.cause, detail := f.detail, addr := f.addr }
  let e : SfqEntry := { entry := rec_, warp := st.warp, lane := lane, reported := false }
  let done := fun (m : Mach) =>
    let left := st.lanes &&& ~~~(laneBit lane)
    if left = 0 then endStore m st else adjStore m st.seq (fun o => { o with lanes := left, failed := some f })
  let resident := match m.findWarp st.warp with
    | some (core, _, _) => some core
    | none => if m.saved.any (fun e => e.2.any (fun sw => sw.warp.uid == st.warp)) || m.slices.any (fun sl => sl.2.saved.any (fun w => w.uid == st.warp)) then some st.core else none
  match resident with
  | none => done (raiseEvent m (sfqEvent st.core st.ctx e))
  | some core =>
    let c := m.ctxCore st.ctx core
    if 16 ≤ c.sfq.length then adjStore m st.seq (fun o => { o with failed := some f }) else done (m.setCtxCore st.ctx core { c with sfq := c.sfq ++ [e] })

/-- `STORE_FAULT_RECORD` (R380). -/
def execStoreFaultRecord (warp : Nat) (s : State) : Out :=
  .next (
    match nextStore s.m warp with
    | none => s
    | some st => match storeFault s st with | some (f, m) => s.withM (recordStoreFault m st f) | none => s)

/-! Translation steps. -/

/-- Where a first-touch mapping is made: at the entry, or at the first of its group of 16 (R112). -/
def TouchRequest.target (t : TouchRequest) : Nat := if t.level = 0 ∧ pteBit t.pte 9 then t.leafAt / 128 * 128 else t.leafAt

/-- `FIRST_TOUCH_MAP` (R113): the manager maps a free frame homed on the requesting die, or refuses. A request whose entry has changed meanwhile is dropped, and so is one
whose group a 64 KiB page maps by now. DESIGN CHOICE: for a request of a command processor, which lies on neither compute die, a frame of either die will do (the spec
names the requesting die alone; log 102). -/
def execFirstTouchMap (request frame : Nat) (s : State) : Out :=
  .next (
    match mget s.m.touches request with
    | none => s
    | some t =>
      let e := t.pte
      let made : DWord := BitVec.ofNat 64 ((e.toNat % 4096) / 2 % 2 * 2 + (e.toNat % 64) / 4 * 4 + (e.toNat % 4096) / 512 * 512 + 1 + frame * 4096)
      let bad := !pteBit e 2 || pteMalformed t.level (made &&& 0xFFF)
      let group := readPte s s.m t.target
      if readPte s s.m t.leafAt ≠ e ∨ (pteBit group 0 && pteBit group 2 && pteBit group 9) then s.withM { s.m with touches := mdel s.m.touches request }
      else if bad then s.withM { s.m with touches := mset s.m.touches request { t with refused := true } }
      else
        let pa := frame * 4096
        let last := pa + leafSize t.level made - 1
        let owned := (s.partitionOf t.ctx).frames.any (fun r => r.1 ≤ frame && last / 4096 < r.1 + r.2)
        let home := if t.die < 2 then homeDie pa = t.die ∧ homeDie last = t.die else homeDie pa < 2 ∧ homeDie last < 2
        if owned ∧ home ∧ pa % leafSize t.level made = 0 then
          let m := writePte s s.m t.target made
          s.withM { m with touches := mdel m.touches request }
        else s)

/-- `SHOOTDOWN` (R118): every TLB and walker cache of the context drops the entries that cover an address, once what used them is performed: the stores issued before it,
and an atomic one half of which is performed; its loads are read no later. -/
def execShootdown (ctx : Nat) (va : DWord) (s : State) : Out :=
  .next (
    let halfway := fun (w : Warp) => w.ctx == ctx && (w.groups ++ w.hgroups).any (fun g => g.run.any (fun r => r.wait matches .halves ..))
    if s.m.stores.any (fun st => st.ctx == ctx) || s.m.allWarps.any (fun e => halfway e.2.2) then s
    else s.withM { s.m with cores := s.m.cores.map (fun c => (c.1, { c.2 with warps := c.2.warps.map (fun e => (e.1, if e.2.ctx = ctx then e.2.fixLoads else e.2)) }))
                            tlb := s.m.tlb.filter (fun e => !(e.ctx == ctx && e.base ≤ va.toNat && va.toNat < e.base + e.size))
                            walks := s.m.walks.filter (fun e => !(e.ctx == ctx && e.index == va.toNat / 2 ^ (12 + 9 * e.level))) })

/-! Errors. -/

/-- An event of a link error (R396, type 0x08). -/
def linkEvent (ctx slot lane : Nat) (bits : Nat) : Event :=
  { type := 0x08, src := 2, ctx := ctx, who := whoWord slot lane, pay := natToBytes 16 bits, function := none }

/-- A warp wherever it is, resident or saved, with its core and position. -/
def warpAnywhere (m : Mach) (uid : Nat) : Option (Nat × Nat × Warp) :=
  match m.findWarp uid with
  | some e => some e
  | none => (m.saved.flatMap (·.2)).find? (fun sw => sw.warp.uid == uid) |>.map (fun sw => (sw.core, sw.pos, sw.warp))

/-- The level at which the walk for an address reads an entry of another package's memory. -/
def walkAway (s : State) (m : Mach) (ctx core : Nat) (va : DWord) (eng : Bool := false) : Option Nat :=
  if 2 ^ 48 ≤ va.toNat ∨ (tlbHit m ctx core va.toNat eng).isSome then none
  else
    let start := walkStart m (dieOf core) ctx va.toNat (s.ctx ctx).ptbase
    ((walkReads s m va.toNat start.1 start.2).zipIdx.find? (fun e => paClass s e.1 = .pod)).map (fun e => start.1 - e.2)

/-- A store that meets a link error, in its walk or where it lies: recorded, with its event. -/
def storeLinkError (s : State) (st : Store) : State :=
  let acc := match st.op with | .bytes _ => Access.write | .atomic .. => Access.atomic
  match translate s s.m st.ctx st.core st.addr acc with
  | .ok t m =>
    if paClass s t.pa = .pod || (walkAway s s.m st.ctx st.core st.addr).isSome then
      let f := mkFault .addr ((walkAway s s.m st.ctx st.core st.addr).getD t.level) 0xA st.addr.toNat
      let lane := lowLane st.lanes
      let r : Record := { pc := st.pc, run := lane, imp := false, slot := st.slot, kind := st.kind, cause := f.cause, detail := f.detail, addr := f.addr }
      s.withM (recordStoreFault (raiseEvent m (linkEvent st.ctx st.slot lane (sfqBits r))) st f)
    else s
  | _ => s

/-- A remote load or atomic that meets a link error: its group takes the fault in the remote lanes, with the event. -/
def loadLinkError (s : State) (core pos : Nat) (w : Warp) (p : Pend) : State :=
  let faults := p.addrs.map (fun e => (e.1, mkFault .addr e.2.2 0xA e.2.1.toNat))
  let first := (faults.headD (0, plainFault .addr)).2
  let r : Record := { pc := p.pc, run := p.run, imp := false, slot := 0, kind := 0, cause := .addr, detail := first.detail, addr := first.addr }
  let m := raiseEvent s.m (linkEvent w.ctx w.homeSlot ((mkeys p.addrs).headD 0) (recordBits r))
  s.withM (adjWarpOrSaved m core pos (fun v => v.uid == w.uid) (fun w =>
    { w with pends := w.pends.filter (fun q => q.id ≠ p.id)
             groups := w.groups.map (answerRemote p.id (.faulted faults)), hgroups := w.hgroups.map (answerRemote p.id (.faulted faults)) }))

/-- Where the model names the scratchpad backing of context and core: beyond every physical address (log 8). -/
def backingBase : Nat := 2 ^ 60

/-- `ECC_ERROR` (R108): a corrected error is counted, and reported at the threshold; an uncorrectable one poisons its sector. -/
def execEccError (addr : Nat) (uncorrectable : Bool) (s : State) : Out :=
  .next (s.withM (
    if !uncorrectable then
      let n := s.m.errors + 1
      let m := { s.m with errors := n }
      if n = Config.errorThreshold then
        let (pay, m) := openBytes m 16
        raiseEvent m { type := 0x09, src := min (homeDie addr) 2, ctx := 0, who := 0, pay := pay, function := none }
      else m
    else if backingBase ≤ addr then
      let k := (addr - backingBase) / 2 ^ 21
      let sec := (addr - backingBase) % 2 ^ 21 / 32
      s.m.adjCtxCore (k / 512) (k % 512) (fun c => { c with poisoned := if c.poisoned.contains sec then c.poisoned else c.poisoned ++ [sec] })
    else if isHbm addr then
      -- words that L2 has already masked are written since; a sector masked whole needs nothing of what is in error (R131)
      let w := (s.m.l2At (addr / 32)).wmask
      if w = 0xFF then s.m else { s.m with poison := mset s.m.poison (addr / 32) (w.setWidth 32) }
    else s.m))

end Sys2Proof.Machine
end

