-- ==== Sys2Proof/Machine/Term.lean ====
section
/-! DEFINITION. The term engine: gangs (R240 to R242), the Bell (R243, R250 to R252), a step's operands and values (R244 to R249), `TMMA`
(R253 to R256), `TBND` (R257), and the finish of a step (R251, R259 to R262). -/

namespace Sys2Proof.Machine

/-! `TCFG` and gangs. -/

/-- `TCFG` (R243): G is 4, 8, 16 or 32, D is RD + 1. -/
def execTcfg (r g : BitVec 2) (s : State) : Out :=
  onWord s (fun x => s.m.advance { x with w := { x.w with termG := 4 * 2 ^ g.toNat, termD := r.toNat + 1 } })

/-- The arrays of a core that no gang holds. -/
def freeArrays (c : Core) : List Nat := (List.range 4).filter (fun a => !(c.gangs.any (fun g => g.2.array == some a)))

/-- Whether a gang has its part on the core: its context runs there (`stopped` says of which contexts issue has stopped), and it has a member, or, when all have left it, a
warp of its context and a step that is issued (R239, R241, R262). -/
def Gang.present (stopped : Nat → Bool) (c : Core) (g : Gang) : Bool :=
  !stopped g.ctx && (g.members.any (fun p => c.warps.any (fun w => w.2.uid == p.1))
    || (g.members.isEmpty && g.steps.any (fun t => t.issued.isSome) && (c.warps.any (fun w => w.2.ctx == g.ctx) || c.leaving.any (fun w => w.ctx == g.ctx))))

/-- The gangs of a core that wait for an array, longest first (R241). -/
def waitingGangs (stopped : Nat → Bool) (c : Core) : List Nat :=
  (sortBy (fun e => e.2.since) (c.gangs.filter (fun e => e.2.array.isNone && e.2.present stopped c))).map (·.1)

/-- Free arrays bound to the gangs that have waited longest. DESIGN CHOICE: a gang takes the lowest-numbered free array; R241 says only a free array (log 129). -/
def bindArrays (stopped : Nat → Bool) : Nat → Core → Core
  | 0, c => c
  | k + 1, c =>
    match waitingGangs stopped c, freeArrays c with
    | g :: _, a :: _ => bindArrays stopped k { c with gangs := madj c.gangs g (fun x => { x with array := some a }), arrays := mdel c.arrays a }
    | _, _ => c

/-- `GANG_ARRAY_BIND` (R241): a free array is taken by the gang that has waited longest. -/
def execGangArrayBind (core : Nat) (s : State) : Out :=
  let stopped := fun ctx => s.stopped ctx core
  .next (if waitingGangs stopped (s.m.core core) = [] ∨ freeArrays (s.m.core core) = [] then s else s.withM (s.m.adjCore core (bindArrays stopped 1)))

/-- A gang formed of warps of a core, given by identity and slot; it takes a free array when no gang has waited longer (R241, R344). -/
def formGang (s : State) (m : Mach) (core ctx : Nat) (members : List (Nat × Nat)) : Nat × Mach :=
  let (id, m) := m.newId
  let m := m.adjCore core (fun c =>
    let c := bindArrays (fun ctx => s.stopped ctx core) 4 { c with gangs := mset c.gangs id { ctx := ctx, members := members, array := none, since := s.turn, nextStep := 0, steps := [] } }
    { c with warps := c.warps.map (fun e => if members.any (fun p => p.1 == e.2.uid) then (e.1, { e.2 with gang := some id, arrived := 0 }) else e) })
  (id, m)

/-- The masks with which a warp's groups wait at a `GANG` rendezvous that is not complete. -/
def gangWaits (w : Warp) : List Word :=
  if w.gang.isSome then [] else (w.groups ++ w.hgroups).filterMap (fun g => match g.run with | some r => (match r.wait with | .gang k => some k | _ => none) | none => none)

/-- The groups of a warp that wait at a `GANG` refused with `SYNC_MASK` (R242). -/
def refuseGang (w : Warp) : Warp :=
  let fix := fun (g : Group) => match g.run with
    | some r => (match r.wait with | .gang k => { g with run := some { r with wait := .refused (mkFault .syncMask 0 0 k.toNat) } } | _ => g)
    | none => g
  { w with groups := w.groups.map fix, hgroups := w.hgroups.map fix }

/-- Whether a slot of a rendezvous mask no longer holds it up: it holds no warp of the context, an exited warp, or one that waits with the
same mask (R241). -/
def gangReady (c : Core) (ctx : Nat) (mask : Word) (slot : Nat) : Bool :=
  match mget c.warps slot with
  | none => true
  | some w => w.ctx ≠ ctx || w.allExited || (gangWaits w).contains mask

/-- The result of a completed `GANG`. -/
def gangResult (array : Nat) (mask : Word) (pos : Nat) : Word :=
  BitVec.ofNat 32 (2 ^ 31 + array * 256 + ((maskLanes mask).filter (· < pos)).length)

/-- The rendezvous of a warp waiting with a mask, once its own wait is recorded in `m` (R241). -/
def gangMeet (s : State) (m : Mach) (x : Ex) (mask : Word) : Eff :=
  let done := fun (m : Mach) (x : Ex) (g : Nat) =>
    match (mget (m.core x.core).gangs g).bind (·.array) with
    | some a => Eff.ok m x [gangResult a mask x.pos]
    | none => .hold m x (.gang mask)
  match x.w.gang with
  | some g => done m x g
  | none =>
    let c := (m.put { x with r := { x.r with wait := .gang mask } }).core x.core
    if (maskLanes mask).all (gangReady c x.w.ctx mask) then
      let members := (maskLanes mask).filterMap (fun p =>
        match mget c.warps p with
        | some w => if w.ctx = x.w.ctx && (gangWaits w).contains mask then some (w.uid, p) else none
        | none => none)
      let (g, m) := formGang s m x.core x.w.ctx members
      done m { x with w := { x.w with gang := some g, arrived := 0 } } g
    else .hold m x (.gang mask)

/-- `GANG` (R241, R242). A warp that waits keeps its mask; a mailbox or queue that supplied it is taken when the rendezvous is complete (R72). -/
def execGang (d a : BitVec 8) (s : State) : Out :=
  onWord s (fun x =>
    match x.r.wait with
    | .gang mask =>
      match gangMeet s s.m x mask with
      | .ok m x res => completeUni m x [srcI a] d 1 res
      | .hold m x k => m.hold x k
      | _ => s.m.put x
    | _ => uniEffect s.m x [srcI a] d 1 (fun v m x =>
      let mask := arg v 0
      let m := leaveGang m x.core x.w
      let x := { x with w := { x.w with gang := none, arrived := 0 } }
      if 32 ≤ x.pos then .badOf (plainFault .illegalOp) m x   -- a Homeroom (R369)
      else if mask ≠ 0 ∧ !inMask mask x.pos then .badOf (mkFault .selfMask 0 0 mask.toNat) m x
      else if 6 < (maskLanes mask).length then .badOf (plainFault .reservedField) m x
      else
        let clash := (m.core x.core).warps.filter (fun e =>
          e.1 ≠ x.pos && e.2.ctx == x.w.ctx && (gangWaits e.2).any (fun k => k != mask && (inMask k x.pos || inMask mask e.1)))
        if clash.isEmpty then (if mask = 0 then .ok m x [0] else gangMeet s (claimSources m x [srcI a]) x mask)
        else .badOf (mkFault .syncMask 0 0 mask.toNat) (clash.foldl (fun m e => m.adjWarp x.core e.1 refuseGang) m) x))

/-! Operand tiles (R244, R246). -/

/-- The bytes of a member's B tile by ELT: 1 s8, 0x20 q4, 0x21 e8; and of one column. -/
def bTileBytes (elt : Nat) : Nat := if elt = 0x20 then 256 else 512
def bColBytes (elt : Nat) : Nat := if elt = 0x20 then 16 else 32
/-- The alignment of a B tile. -/
def bAlign (elt : Nat) : Nat := if elt = 0x20 then 16 else 32

/-- The elements of a column: integer weights along K. For `.q4`, `bs` is the block scale. -/
def columnInts (elt bs : Nat) (bytes : List Byte) : List Int :=
  if elt = 0x20 then bytes.flatMap (fun b => [codebookC (b.toNat % 16) * bs, codebookC (b.toNat / 16) * bs]) else bytes.map (·.toInt)

/-- The address of the scale word or exponent byte of a column at byte offset `o`, and its size (R246). -/
def scaleAt (slot : List Byte) (o : Nat) : Option (DWord × Nat) :=
  if slotElt slot = 0x20 then some (BitVec.ofNat 64 (slotSbb slot + 8 * (o / 128)), 8)
  else if slotElt slot = 0x21 then some (BitVec.ofNat 64 (slotSsb slot + o / 32), 1)
  else none

/-- A column's block scale and factor f(n) from its scale bytes (R246). -/
def columnFactor (slot : List Byte) (o : Nat) (scale : List Byte) : Nat × Factor :=
  let ascl := factorOf (slotAscl slot)
  if slotElt slot = 0x20 then
    let w := bytesToNat scale
    (natBits w (32 + 8 * (o / 32 % 4)) 8, mulFactor (mulFactor (factorOf (w % 2 ^ 32)) (some (1, -16))) ascl)
  else if slotElt slot = 0x21 then (0, mulFactor (some (1, e8Exp (bytesToNat scale))) ascl)
  else (0, ascl)

/-! What a step computes (R248, R249). -/

/-- The rows of an A tile: a row is usable when neither its block nor an earlier one is in error (R249). -/
def tileRows (inner : Nat) : List (List Byte) → List (Option TermBlock)
  | [] => []
  | b :: bs =>
    match decodeBlock inner (bytesToNat b) 0 with
    | some t => if t.len ≤ 1024 then some t :: tileRows inner bs else none :: bs.map (fun _ => none)
    | none => none :: bs.map (fun _ => none)

/-- The total of one element and whether a contribution was not finite (R248). -/
def elementTotal (slot : List Byte) (row : Option TermBlock) (col : List Int) (f : Factor) : Int × Bool :=
  match row with
  | none => (0, false)
  | some b =>
    let inner := slotTle slot
    let a := mulFactor (factorOf (slotAscl slot)) (if inner = 3 then some (1, e8Exp b.expo) else some (1, 0))
    let zp : Int := if inner = 2 ∧ slotZp slot ≠ 0 then -(slotZp slot : Int) else 0
    let ks := (List.range 32).map (fun k => ((b.elems.getD k { cost := 0, terms := [] }).terms, col.getD k 0))
    match mulFactor a f with
    | none => (0, zp ≠ 0 || ks.any (fun k => !k.1.isEmpty))
    | some (c, e) =>
      let eacc := slotEacc slot
      let sum := ks.foldl (fun t k => k.1.foldl (fun t u => t + alignInt (termValue u * k.2 * c) e eacc) t) 0
      (sum + (if zp = 0 then 0 else alignInt (zp * (col.foldl (· + ·) 0) * c) e eacc), false)

/-- A member's tile after a step, in the lanes given, with the ACCSTAT bits it sets: lane l holds row l / 2, columns 8 (l mod 2) up (R247). -/
def memberTile (aslot : List Byte) (rows : List (Option TermBlock)) (cols : List (List Int)) (fs : List Factor) (z : Bool) (w : Warp) (reg : Nat)
    (lanes : List Nat) : SMap (List Word) × Word :=
  lanes.foldl (fun (acc : SMap (List Word) × Word) l =>
    let (ws, bits) := (List.range 8).foldl (fun (p : List Word × Word) j =>
      let n := 8 * (l % 2) + j
      let base : DWord := if z then 0 else pairOf (w.regLane (reg + 2 * j) l) (w.regLane (reg + 2 * j + 1) l)
      let (t, inv) := elementTotal aslot (rows.getD (l / 2) none) (cols.getD n []) (fs.getD n none)
      let (v, b) := add64 (slotOvm aslot) base t
      (p.1 ++ [DWord.lo v, DWord.hi v], p.2 ||| b ||| (if inv then accInv else 0))) ([], 0)
    (mset acc.1 l ws, acc.2 ||| bits)) ([], 0)

/-! The Bell (R250 to R252). -/

/-- The cost of an element of a row: its term count as coded, 0 in a row that is not usable. -/
def rowCost (row : Option TermBlock) (k : Nat) : Nat :=
  match row with | some b => (b.elems.getD k { cost := 0, terms := [] }).cost | none => 0

/-- The largest of a list, 0 for an empty one. -/
def maxOf (ns : List Nat) : Nat := ns.foldl max 0

/-- The first cycle in which lane `k` may work on the row that follows the rows of `hist` (newest first): S of R250. -/
def rowStart (g d first : Nat) (hist : List (List Nat)) (k : Nat) : Nat :=
  let p := match hist[d - 1]? with
    | none => first
    | some row => 1 + maxOf ((row.drop (k / g * g)).take g)
  max ((match hist with | [] => first - 1 | row :: _ => row.getD k 0) + 1) p

/-- The last cycles of the next row in each lane: E of R250. -/
def rowEnds (g d first : Nat) (hist : List (List Nat)) (row : Option TermBlock) : List Nat :=
  (List.range 32).map (fun k => rowStart g d first hist k + rowCost row k - 1)

/-- The history after the rows of a step. -/
def stepEnds (g d first : Nat) (hist : List (List Nat)) (rows : List (Option TermBlock)) : List (List Nat) :=
  rows.foldl (fun h row => rowEnds g d first h row :: h) hist

/-- A step's timing on its array: its first cycle, its cycle count F, and the row ends it leaves (R251, R252). `now` is the number of the cycle
in progress. -/
def stepTiming (prev : Option ArrayState) (gang : Nat) (cfg : Nat × Nat) (now : Nat) (rows : List (Option TermBlock)) : Nat × Nat × ArrayState :=
  let last := match prev with | some p => maxOf (p.ends.headD []) | none => 0
  let chained : Bool := match prev with
    | some p => p.gang == gang && p.cfg == cfg && (List.range 32).all (fun k => now ≤ rowStart cfg.1 cfg.2 0 p.ends k)
    | none => false
  let first := if chained then last + 1 else max now (last + 1)
  let hist := if chained then (match prev with | some p => p.ends | none => []) else []
  let ends := (stepEnds cfg.1 cfg.2 first hist rows).take 16
  (first, maxOf (ends.headD []) + 7 - first, { gang := gang, cfg := cfg, ends := ends })

/-! `TMMA`. -/

/-- The offset in its space of a member's B tile. -/
def bOffset (sp : Bool) (b : Word) : Nat := if sp then b.toNat % 2 ^ 21 else b.toNat

/-- The checks of R254 steps 2 to 4 at a `TMMA`. -/
def tmmaCheck (s : State) (m : Mach) (x : Ex) (fa fb : List Byte) (sp : Bool) (aAddr bAddr : Word) : Option FaultInfo :=
  let belt := slotElt fb
  if slotElt fa ≠ 0x22 ∨ !(belt = 1 ∨ belt = 0x20 ∨ belt = 0x21) then some (plainFault .illegalOp)
  else if aAddr.toNat % 128 ≠ 0 then some (mkFault .align 0 0 aAddr.toNat)
  else if bAddr.toNat % bAlign belt ≠ 0 then some (mkFault .align 0 0 bAddr.toNat)
  else
    match spadTarget m x.w.ctx x.core aAddr.toNat 2048 with
    | .error e => some e
    | .ok _ =>
      match (if sp then (spadTarget m x.w.ctx x.core bAddr.toNat (bTileBytes belt)).map (fun _ => 0) else wsTarget s x.w.ctx bAddr.toNat (bTileBytes belt)) with
      | .error e => some e
      | .ok _ => none

/-- The scale words and exponent bytes a member's step will read, translated in column order (R254 step 6). -/
def scaleXlats (s : State) (ctx core : Nat) (fb : List Byte) (o : Nat) : Mach → List Nat → Res Unit
  | m, [] => .ok () m
  | m, n :: ns =>
    match scaleAt fb (o + n * bColBytes (slotElt fb)) with
    | none => scaleXlats s ctx core fb o m ns
    | some (va, _) => (translate s m ctx core va .read).next (fun _ m => scaleXlats s ctx core fb o m ns)

/-- The lowest slot of some step members (R240). -/
def leaderPos (ms : List StepMember) : Nat := ms.foldl (fun n p => min n p.pos) 34

/-- A member's part of a completed rendezvous: its tile is leased in the lanes active at its `TMMA`, and its group goes on (R255). -/
def memberIssues (turn gid n id : Nat) (p : StepMember) (w : Warp) : Warp :=
  let go := fun (g : Group) => match g.run with
    | some r => if r.wait = .tmma gid n then { g with run := some { r with pos := r.pos + 1, wait := .none, desc := [] } } else g
    | none => g
  { w with groups := w.groups.map go, hgroups := w.hgroups.map go, lastRun := turn
           pends := w.pends ++ [{ id := id, kind := .term gid n, lanes := p.lanes, reg := p.reg, count := 16, vals := [], pc := 0, run := 0, addrs := [], sync := false }] }

/-- Whether a tile is exactly one already leased to `TMMA`, so that the step joins the lease (R188). -/
def joinsLease (w : Warp) (lanes : Word) (reg : Nat) : Bool :=
  let taken := w.pends.filter (fun p => p.leased && p.lanes &&& lanes != 0 && p.reg < reg + 16 && reg < p.reg + p.count)
  !taken.isEmpty && taken.all (fun p => (p.kind matches .term ..) && p.reg == reg)

/-- The registers that a completed rendezvous takes: 16 for each member whose step joins no lease (R181). -/
def stepRegs (m : Mach) (core : Nat) (ms : List StepMember) : Nat :=
  16 * (ms.filter (fun p => (m.warp? core p.pos).any (fun w => w.uid == p.warp && !joinsLease w p.lanes p.reg))).length

/-- The registers of the tile that begins at one. -/
def tileRegs (reg : Nat) : List Nat := (List.range 16).map (· + reg)

/-- Whether a member's step reads its tile while part of it stands in the Satchel (R184). -/
def tileSpilled (m : Mach) (core : Nat) (p : StepMember) : Bool :=
  !p.z && (m.warp? core p.pos).any (fun w => w.uid == p.warp && (tileRegs p.reg).any w.spilled.contains)

/-- The rendezvous of step `n` of a gang completed, when every member has arrived, the gang holds an array, every tile that the step reads is resident, and there is room
for the leases (R255, R344, R184, R183): every member issues at once. -/
def completeStep (m : Mach) (turn core gid n : Nat) : Alloc :=
  match mget (m.core core).gangs gid with
  | none => .wait
  | some g =>
    match g.steps.find? (fun t => t.number == n && t.issued.isNone) with
    | none => .wait
    | some t =>
      if g.array.isNone || !(g.members.all (fun p => t.members.any (fun q => q.warp == p.1))) || t.members.any (tileSpilled m core) then .wait
      else
        let lead := leaderPos t.members
        match makeRoom 40 m core lead (stepRegs m core t.members) with
        | .ok m =>
          let cfg := match m.warp? core lead with | some w => (w.termG, w.termD) | none => t.cfg
          let t' := { t with issued := some m.cy, leader := lead, cfg := cfg }
          let m := m.adjCore core (fun c => { c with gangs := mset c.gangs gid { g with steps := g.steps.map (fun u => if u.number = n then t' else u) } })
          .ok (t.members.foldl (fun m p => let (id, m) := m.newId; m.adjWarp core p.pos (fun w => if w.uid = p.warp then memberIssues turn gid n id p w else w)) m)
        | r => r

/-- A member's arrival at its next step (R255). -/
def arriveStep (g : Gang) (p : StepMember) (n : Nat) : Gang :=
  let fresh : TermStep := { number := n, members := [], issued := none, leader := 0, cfg := (32, 1), loaded := none, first := 0, count := 0 }
  let steps := if g.steps.any (fun t => t.number == n) then g.steps else g.steps ++ [fresh]
  { g with nextStep := max g.nextStep (n + 1), steps := steps.map (fun t => if t.number = n then { t with members := t.members ++ [p] } else t) }

/-- The registers of a tile: for a step that joins a lease no result under way beside the leased ones (R186, R188), and otherwise as a block that it will write. -/
def tileReady (m : Mach) (x : Ex) (reg : Nat) : DstReady :=
  if joinsLease x.w x.g.lanes reg then
    if (tileRegs reg).any (fun r => x.w.pends.any (fun p => !p.leased && p.covers x.g.lanes r)) then .hold m .register else .go m
  else regsReady m x reg 16

/-- An arrival withdrawn: the warp's instruction has no effect (R183). -/
def withdrawStep (m : Mach) (x : Ex) (gid n : Nat) : Mach × Ex :=
  (m.adjCore x.core (fun c => { c with gangs := madj c.gangs gid (fun g =>
      { g with steps := g.steps.map (fun t => if t.number = n then { t with members := t.members.filter (fun p => p.warp ≠ x.w.uid) } else t) }) }),
   { x with w := { x.w with arrived := n } })

/-- A member that waits at the rendezvous of step `n`: a tile that it reads is refilled (R184); when no warp's Satchel has room for the registers that the leases need, a
member that needs some raises `SPILL_QUOTA` (R183). -/
def waitStep (s : State) (x : Ex) (gid n reg : Nat) (z : Bool) : Mach :=
  if !z && (tileRegs reg).any x.w.spilled.contains then
    let (m, x) := startFills s.m x (tileRegs reg)
    m.hold x (.tmma gid n)
  else
    match completeStep (s.m.put x) s.turn x.core gid n with
    | .ok m => m
    | .wait => s.m.hold x (.tmma gid n)
    | .quota =>
      if joinsLease x.w x.g.lanes reg then s.m.hold x (.tmma gid n)
      else
        let (m, x) := withdrawStep s.m x gid n
        deliverAll m x (mkFault .spillQuota 0 0 16)

/-- `TMMA` (R253 to R255). -/
def execTmma (d a : BitVec 8) (f g : BitVec 3) (z b : BitVec 1) (s : State) : Out :=
  onWord s (fun x =>
    match x.r.wait, x.w.gang with
    | _, none => deliverAll s.m x (plainFault .illegalOp)
    | k, some gid =>
      match (match k with | .tmma h n => if h = gid then some n else none | _ => none) with
      | some n => waitStep s x gid n d.toNat (z == 1)
      | none =>
        match srcReady s.m x true [srcW a] with
        | .hold m x k => m.hold x k
        | .bad e => deliverAll s.m x e
        | .go =>
          let v := srcValue (s.m.ctxCore x.w.ctx x.core) x (srcW a) 0 x.low
          let fa := formatSlot s.m x.w f.toNat
          let fb := formatSlot s.m x.w g.toNat
          match tmmaCheck s s.m x fa fb (b == 1) v.lo v.hi with
          | some e => deliverAll s.m x e
          | none =>
            match tileReady s.m x d.toNat with
            | .hold m k => m.hold x k
            | .bad e => deliverAll s.m x e
            | .go m =>
              if z = 0 ∧ (tileRegs d.toNat).any x.w.spilled.contains then   -- the step reads its tile, which is refilled first (R184)
                let (m, x) := startFills m x (tileRegs d.toNat)
                m.hold x .register
              else
              match scaleXlats s x.w.ctx x.core fb (bOffset (b == 1) v.hi) m (List.range 16) with
              | .fault e m => deliverAll m x e
              | .wait m => m.hold x .register
              | .ok _ m =>
                let n := x.w.arrived
                let p : StepMember := { warp := x.w.uid, pos := x.pos, lanes := x.g.lanes, reg := d.toNat, aAddr := v.lo, bAddr := v.hi, fa := fa, fb := fb
                                        z := z == 1, sp := b == 1, since := m.nextId }
                let m := m.adjCore x.core (fun c => { c with gangs := madj c.gangs gid (fun g => arriveStep g p n) })
                let m := m.hold { x with w := { x.w.touch (srcW a).regs with arrived := n + 1 } } (.tmma gid n)
                match completeStep m s.turn x.core gid n with
                | .ok m => m
                | _ => m)

/-! `TBND`. -/

/-- `TBND` (R257). -/
def execTbnd (d : BitVec 8) (sl : BitVec 3) (s : State) : Out :=
  onWord s (fun x => uniEffect s.m x [] d 1 (fun _ m x =>
    let slot := formatSlot m x.w sl.toNat
    if slotElt slot ≠ 0x22 then .bad (plainFault .illegalOp) m else .ok m x [BitVec.ofNat 32 (16 * tMax (slotTle slot) + 6)]))

/-- The bound from a tile's 16 block headers (R257). -/
def tbndTile (inner : Nat) (headers : List (List Byte)) : Nat :=
  6 + (headers.map (fun h => min (natBits (bytesToNat h) 12 3) (tMax inner))).foldl (· + ·) 0

/-- The headers of a tile's blocks. -/
def tileHeaders (m : Mach) (ctx core off : Nat) : Mach × List (List Byte) :=
  (List.range 16).foldl (fun (acc : Mach × List (List Byte)) i =>
    let (bs, m) := spadRead acc.1 ctx core (off + 128 * i) 2
    (m, acc.2 ++ [bs])) (m, [])

/-- `TBND.t` (R257): its destination is pending until the headers are read. -/
def execTbndT (d a : BitVec 8) (sl : BitVec 3) (s : State) : Out :=
  onWord s (fun x =>
    match srcReady s.m x true [srcI a] with
    | .hold m x k => m.hold x k
    | .bad e => deliverAll s.m x e
    | .go =>
      match regsReady s.m x d.toNat 1 with
      | .hold m k => m.hold x k
      | .bad e => deliverAll s.m x e
      | .go m =>
        let slot := formatSlot m x.w sl.toNat
        let addr := (srcValue (m.ctxCore x.w.ctx x.core) x (srcI a) 0 x.low).toNat % 2 ^ 32
        if slotElt slot ≠ 0x22 then deliverAll m x (plainFault .illegalOp)
        else if addr % 128 ≠ 0 then deliverAll m x (mkFault .align 0 0 addr)
        else
          match spadTarget m x.w.ctx x.core addr 2048 with
          | .error e => deliverAll m x e
          | .ok (core, off) =>
            if spadPoisoned (m.ctxCore x.w.ctx core) off 2048 then deliverAll m x (mkFault .addr 0 9 addr)
            else
              let (m, hs) := tileHeaders m x.w.ctx core off
              let v : Word := BitVec.ofNat 32 (tbndTile (slotTle slot) hs)
              let (m, y) := addPend (takeAddress m x a) (x.taken m [srcI a]) .load d.toNat 1 (x.lanes.map (fun l => (l, [v])))
              m.advance y)

/-! Loading a step's operands (R245, R249, R251, R256). -/

/-- A member's B tile loaded: its columns and factors; poisoned data, or a scale whose translation no longer holds, marks the step. None while a
weight-store bank refreshes or a scale's page is being mapped. -/
def loadColumns (s : State) (ctx core : Nat) (p : StepMember) (tile : List Byte) :
    Mach → List Nat → Option (Bool × List (List Int) × List Factor × Mach)
  | m, [] => some (false, [], [], m)
  | m, n :: ns =>
    let elt := slotElt p.fb
    let bytes := (tile.drop (n * bColBytes elt)).take (bColBytes elt)
    let o := bOffset p.sp p.bAddr + n * bColBytes elt
    let scale : Option (Bool × List Byte × Mach) :=
      match scaleAt p.fb o with
      | none => some (false, [], m)
      | some (va, k) => match readVa s m ctx core va k .read true with
        | .ok bs m => some (false, bs, m)
        | .fault _ m => some (true, [], m)
        | .wait _ => none
    match scale with
    | none => none
    | some (bad, sc, m) =>
      let (bs, f) := columnFactor p.fb o sc
      match loadColumns s ctx core p tile m ns with
      | none => none
      | some (worse, cols, fs, m) => some (bad || worse, columnInts elt bs bytes :: cols, f :: fs, m)

/-- A member's part loaded. -/
def loadMember (s : State) (m : Mach) (ctx core : Nat) (p : StepMember) : Option (Bool × (Nat × List (List Int) × List Factor) × Mach) :=
  let n := bTileBytes (slotElt p.fb)
  let tile : Option (Bool × List Byte × Mach) :=
    if p.sp then
      let c := peerCore core (natBits p.bAddr.toNat 21 3)
      let off := p.bAddr.toNat % 2 ^ 21
      let (bs, m) := spadRead m ctx c off n
      some (spadPoisoned (m.ctxCore ctx c) off n, bs, m)
    else
      let o := (s.partitionOf ctx).wsBase + p.bAddr.toNat
      if (List.range (n / 256 + 1)).any (fun i => wsRefreshing m (dieOf core) (min (o + 256 * i) (o + n - 1))) then none
      else some (false, readBytes (m.wstore.getD (dieOf core) []) o n, m)
  match tile with
  | none => none
  | some (bad, bs, m) =>
    match loadColumns s ctx core p bs m (List.range 16) with
    | none => none
    | some (worse, cols, fs, m) => some (bad || worse, (p.warp, cols, fs), m)

/-- The members' parts of a step loaded. -/
def loadMembers (s : State) (ctx core : Nat) : Mach → List StepMember → Option (Bool × List (Nat × List (List Int) × List Factor) × Mach)
  | m, [] => some (false, [], m)
  | m, p :: ps =>
    match loadMember s m ctx core p with
    | none => none
    | some (bad, r, m) =>
      match loadMembers s ctx core m ps with
      | none => none
      | some (worse, rs, m) => some (bad || worse, r :: rs, m)

/-- The first step of a gang that is issued and not loaded, when those before it are loaded. -/
def nextLoad (g : Gang) : Option TermStep :=
  match g.steps.find? (fun t => t.loaded.isNone) with
  | some t => if t.issued.isSome then some t else none
  | none => none

/-- The leader's member of a step. -/
def stepLeader (t : TermStep) : Option StepMember := t.members.find? (fun p => p.pos == t.leader)

/-- A STEP'S OPERANDS LOADED (R251): after every access that precedes the step in each member's program order. The step's first cycle and its
cycle count are fixed here. With `lost` a scale that lies in another package has met a link error: it counts as poisoned (R249, R396). -/
def loadStep (s : State) (core gid : Nat) (lost : Bool := false) : State :=
  match mget (s.m.core core).gangs gid with
  | none => s
  | some g =>
    match nextLoad g, g.array with
    | some t, some a =>
      if s.stopped g.ctx core then s
      else
      match stepLeader t with
      | none => s
      | some lead =>
        if s.m.stores.any (fun st => t.members.any (fun p => st.warp == p.warp && st.seq < p.since)) then s
        else
          let c := peerCore core (natBits lead.aAddr.toNat 21 3)
          let off := lead.aAddr.toNat % 2 ^ 21
          let (bytes, m) := spadRead s.m g.ctx c off 2048
          let blocks := (List.range 16).map (fun i => (bytes.drop (128 * i)).take 128)
          match loadMembers s g.ctx core m t.members with
          | none => s
          | some (bad, ms, m) =>
            let badA := spadPoisoned (m.ctxCore g.ctx c) off 2048
            -- the rows cost what they hold as coded, whatever became of the B operands (R250); DESIGN CHOICE: those of a poisoned A tile count no terms (log 126)
            let rows := if badA then List.replicate 16 none else tileRows (slotTle lead.fa) blocks
            let (first, count, st) := stepTiming (mget (m.core core).arrays a) gid t.cfg (m.cy + 1) rows
            let t' := { t with loaded := some { blocks := blocks, poisoned := bad || badA || lost, members := ms }, first := first, count := count }
            s.withM (m.adjCore core (fun c =>
              { c with arrays := mset c.arrays a st
                       gangs := mset c.gangs gid { g with steps := g.steps.map (fun u => if u.number = t.number then t' else u) } }))
    | _, _ => s

/-! The finish of a step. -/

/-- Whether a `.cyc` binding names some slot of a list (R197). -/
def cycNames (slots : List Nat) (q : Queue) : Bool := q.kind == 3 && (q.arg.getLsbD 5 || slots.contains (q.arg.toNat % 32))

/-- A member's result at the finish of a step: its tile written in the leased lanes, its lease ended, its ACCSTAT bits set. A lease that a squash
has cancelled takes nothing. -/
def finishMember (aslot : List Byte) (rows : List (Option TermBlock)) (o : Operands) (gid n : Nat) (p : StepMember) (w : Warp) : Warp :=
  match w.pends.find? (fun q => q.kind == .term gid n) with
  | none => w
  | some q =>
    let (cols, fs) := ((o.members.find? (fun e => e.1 == p.warp)).map (·.2)).getD ([], [])
    let (vals, bits) := memberTile aslot rows cols fs p.z w p.reg (maskLanes q.lanes)
    let inv := if o.poisoned || rows.any Option.isNone then accInv else 0
    (w.complete q vals).setAcc (bits ||| inv)

/-- `TERM_STEP_FINISH` (R251): the oldest step of a gang, once its last cycle has ended. -/
def execTermStepFinish (core gang : Nat) (s : State) : Out :=
  .next (
    match mget (s.m.core core).gangs gang with
    | none => s
    | some g =>
      match g.steps with
      | [] => s
      | t :: rest =>
        match t.loaded, stepLeader t with
        | some o, some lead =>
          if s.m.cy + 1 < t.first + t.count then s
          else
            let rows := if o.poisoned then List.replicate 16 none else tileRows (slotTle lead.fa) o.blocks
            let m := t.members.foldl (fun m p =>
              adjWarpOrSaved m core p.pos (fun w => w.uid == p.warp) (finishMember lead.fa rows o gang t.number p)) s.m
            let v : Word := BitVec.ofNat 32 (t.leader * 2 ^ 27 + min t.count 0xFFFFFF)
            let m := m.adjCtxCore g.ctx core (pushReport (cycNames (t.members.map (·.pos))) v)
            let dissolved := rest.all (fun u => u.issued.isNone) && g.members.isEmpty   -- the gang is dissolved and its last step has finished (R241)
            let m := m.adjCore core (fun c =>
              { c with gangs := if dissolved then mdel c.gangs gang else mset c.gangs gang { g with steps := rest }
                       leaving := endLeases (fun _ p => p.kind == .term gang t.number) c.leaving })
            s.withM (releaseCluster m g.ctx core)
        | _, _ => s)

end Sys2Proof.Machine
end

