-- ==== Sys2Proof/Machine/Accnet.lean ====
section
/-! DEFINITION. The accumulate network: the chain directory (R266 to R268), grants and reservations (R269 to R271), tiles and their answers
(R272, R273, R279), arrivals (R264, R265), `AWAIT` (R274), `ACLOSE` (R276), paged hops (R277). -/

namespace Sys2Proof.Machine

/-! The directory. -/

/-- The key of a chain. -/
def chainKey (ctx chain : Nat) : Nat := ctx * 65536 + chain
/-- A chain of the directory. -/
def Mach.chain? (m : Mach) (ctx chain : Nat) : Option Chain := mget m.chains (chainKey ctx chain)
/-- Whether a declaration is neither closed nor retired. -/
def Decl.isOpen (d : Decl) : Bool := !d.closed && !d.retired
/-- Whether a declaration receives, and whether it sends (R266). -/
def Decl.receives (d : Decl) : Bool := d.role == 2 || d.role == 3
def Decl.sends (d : Decl) : Bool := d.role == 1 || d.role == 3
/-- A warp's open declaration on a chain that satisfies `p`. -/
def ownDecl (m : Mach) (ctx chain uid : Nat) (p : Decl → Bool) : Option Decl :=
  (m.chain? ctx chain).bind (fun c => c.decls.find? (fun d => d.warp == uid && d.isOpen && p d))
/-- The declarations of a chain changed. -/
def adjChain (m : Mach) (ctx chain : Nat) (f : Decl → Decl) : Mach :=
  { m with chains := madj m.chains (chainKey ctx chain) (fun c => { c with decls := c.decls.map f }) }

/-- The core that a context names by die and number: the core it saw under that name (R278, R387). -/
def coreNamed (c : Context) (seen : Nat) : Nat :=
  match c.coreMap.find? (fun e => e.2 == seen) with | some e => e.1 | none => seen

/-- An accumulate-network fault: the chain id, with a detail code in bits [23:16] of the address field (R373). -/
def accFault (c : Cause) (chain detail : Nat) : FaultInfo := mkFault c 0 0 (chain + detail * 65536)

/-- The checks of R266 and R267 on the declaration words. -/
def declReserved (role lo hi : Nat) : Bool :=
  let ndie := natBits lo 15 1
  let ncore := natBits lo 7 8
  let nrc := natBits hi 16 8
  let exp := natBits hi 0 9
  natBits lo 0 7 ≠ 0 || natBits hi 24 8 ≠ 0 || natBits hi 9 7 ≠ 0
    || (if role = 2 then ndie ≠ 0 || ncore ≠ 0 || nrc < 1 || 64 < nrc else 143 < ncore || nrc ≠ 0)
    || (if role = 1 then exp ≠ 0 else exp < 1 || 256 < exp)

/-- Whether a core is reached from another along the recorded next hops (R268 detail 1). -/
def downstream (ds : List Decl) (target : Nat) : Nat → Nat → Bool
  | 0, _ => false
  | k + 1, core =>
    core == target ||
      (match ds.find? (fun d => d.core == core && d.isOpen && d.sends) with
      | some d => downstream ds target k d.hop
      | none => false)

/-- The refusal of a declaration by the directory (R268 step 3), if any. DESIGN CHOICE: nothing bounds the receiving relays recorded before a sink: R266 says at most 64
receiving cores and names no refusal for one more (log 127). -/
def declRefused (s : State) (m : Mach) (r : DirRequest) : Option Nat :=
  let ds := ((m.chain? r.ctx r.chain).elim [] (·.decls)).filter Decl.isOpen
  let d := r.decl
  let receivers := (ds.filter Decl.receives).length
  if d.sends ∧ downstream ds r.core (ds.length + 1) d.hop then some 1
  else if ds.any (fun e => e.core == r.core) then some 2
  else if d.role = 2 ∧ (ds.any (fun e => e.role == 2) ∨ d.nrc < receivers + 1) then some 3
  else if d.role = 3 ∧ ds.any (fun e => e.role == 2 && e.nrc < receivers + 1) then some 3
  else if d.sends ∧ !(s.coreInPartition r.ctx d.hop) then some 4
  else if (m.chain? r.ctx r.chain).isNone ∧ 256 ≤ (m.chains.filter (fun c => c.2.ctx == r.ctx)).length then some 5
  else none

/-- What becomes of a group that waits in a certain way. -/
def settleWait (p : Group → Wait → Bool) (k : Wait) (g : Group) : Group :=
  match g.run with
  | some r => if p g r.wait then { g with run := some { r with wait := k } } else g
  | none => g

/-- The groups of a warp that wait in a certain way, answered. -/
def Warp.answer (w : Warp) (p : Group → Wait → Bool) (k : Wait) : Warp :=
  { w with groups := w.groups.map (settleWait p k), hgroups := w.hgroups.map (settleWait p k) }

/-- A warp answered wherever it is: in its position or in the saved image of its context. -/
def answerWarp (m : Mach) (core pos uid : Nat) (p : Group → Wait → Bool) (k : Wait) : Mach :=
  adjWarpOrSaved m core pos (fun w => w.uid == uid) (fun w => w.answer p k)

/-- `ACHAIN` (R266 to R268): held until the directory has recorded or refused the declaration. -/
def execAchain (d a : BitVec 8) (p : BitVec 1) (r : BitVec 2) (s : State) : Out :=
  let role := r.toNat
  let srcs := srcW a :: (if p = 1 then [srcI d] else [])
  onWord s (fun x =>
    match x.r.wait with
    | .directory => s.m.put x
    | .released => completeUni s.m x srcs zeroSpec 0 []
    | _ => uniEffect s.m x srcs zeroSpec 0 (fun v m x =>
      let lo := (argPair v 0).lo.toNat
      let hi := (argPair v 0).hi.toNat
      let page := (arg v 1).toNat
      if declReserved role lo hi then .bad (plainFault .reservedField) m
      else
        match (if p = 1 then (pinTarget m x page).map some else .ok none) with
        | .error e => .bad e m
        | .ok pg =>
          let chain := lo / 65536
          let hop := coreNamed (s.ctx x.w.ctx) (natBits lo 15 1 * 144 + natBits lo 7 8)
          let decl : Decl := { core := x.core, warp := x.w.uid, role := role, page := pg, hop := hop, nrc := natBits hi 16 8, exp := natBits hi 0 9
                               resv := 0, closed := false, retired := false, buffer := none }
          let req : DirRequest := { warp := x.w.uid, lane := x.low, ctx := x.w.ctx, core := x.core, pos := x.pos, close := false, chain := chain, decl := decl }
          let m := claimSources m x srcs
          if dieOf x.core ≠ 0 ∧ syncFull s m x.core then .hold m x .register   -- the directory is die 0's (R142)
          else .hold { m with dirQueue := m.dirQueue ++ [req] } x .directory))

/-- The oldest request of a warp at the directory. -/
def warpRequest (m : Mach) (warp : Nat) (close : Bool) : Option DirRequest := m.dirQueue.find? (fun r => r.warp == warp && r.close == close)
/-- The directory without a request. -/
def dropRequest (m : Mach) (r : DirRequest) : Mach := { m with dirQueue := m.dirQueue.erase r }
/-- Whether a group is the one that made a request and waits for the directory. -/
def DirRequest.waiter (r : DirRequest) (g : Group) (k : Wait) : Bool := inMask g.lanes r.lane && k == .directory

/-- A declaration without a core among those of which its round has had an arrival. -/
def Decl.forget (core : Nat) (d : Decl) : Decl := { d with buffer := d.buffer.map (fun b => { b with senders := b.senders.filter (· ≠ core) }) }

/-- A declaration recorded: a new chain is opened by its first one. An older declaration of the core, closed or retired, gives way, and no arrival of an open round is the
new one's (R280). -/
def recordDecl (m : Mach) (r : DirRequest) : Mach :=
  let c : Chain := (m.chain? r.ctx r.chain).getD { ctx := r.ctx, id := r.chain, decls := [], granted := false, round := 0 }
  let others := (c.decls.filter (fun d => d.core ≠ r.core || d.isOpen)).map (Decl.forget r.core)
  { m with chains := mset m.chains (chainKey r.ctx r.chain) { c with decls := others ++ [r.decl] } }

/-- `ACHAIN_RECORD` (R268). -/
def execAchainRecord (warp : Nat) (s : State) : Out :=
  .next (
    match warpRequest s.m warp false with
    | none => s
    | some r =>
      let m := dropRequest s.m r
      s.withM (match declRefused s m r with
        | some d => answerWarp m r.core r.pos warp r.waiter (.refused (accFault .accCycle r.chain d))
        | none => answerWarp (recordDecl m r) r.core r.pos warp r.waiter .released))

/-- `ACLOSE` (R276): held until the close is recorded. -/
def execAclose (a : BitVec 8) (s : State) : Out :=
  onWord s (fun x =>
    match x.r.wait with
    | .directory => s.m.put x
    | .released => completeUni s.m x [srcI a] zeroSpec 0 []
    | _ => uniEffect s.m x [srcI a] zeroSpec 0 (fun v m x =>
      let chain := (arg v 0).toNat % 65536
      match ownDecl m x.w.ctx chain x.w.uid (fun _ => true) with
      | none => .ok m x []
      | some d =>
        if x.w.pends.any (fun p => match p.kind with | .await c _ _ => c == chain | _ => false) then .hold m x .register
        else
          let req : DirRequest := { warp := x.w.uid, lane := x.low, ctx := x.w.ctx, core := x.core, pos := x.pos, close := true, chain := chain, decl := d }
          let m := claimSources m x [srcI a]
          if dieOf x.core ≠ 0 ∧ syncFull s m x.core then .hold m x .register
          else .hold { m with dirQueue := m.dirQueue ++ [req] } x .directory))

/-- The declaration of a warp on a chain closed (R276, R280): its open round is discarded, the rounds it feeds are cut, its own reservation is
dropped, and reservations held toward it are only good for a refusal. -/
def closeDecl (m : Mach) (ctx chain warp : Nat) : Mach :=
  match ownDecl m ctx chain warp (fun _ => true) with
  | none => m
  | some d =>
    let mine := fun e => e.warp == warp && e.core == d.core && e.isOpen
    let key := chainKey ctx chain
    let onChain := fun (f : Mach → Mach) =>
      -- only this chain's declarations are touched
      let others := m.chains.filter (fun e => e.1 ≠ key)
      let m' := f { m with chains := m.chains.filter (fun e => e.1 == key) }
      { m' with chains := others.foldl (fun cs e => mset cs e.1 e.2) m'.chains }
    onChain (fun m =>
      let m := discardRounds (cutRounds m ctx mine) ctx mine
      let m := adjChain m ctx chain (fun e =>
        if mine e then { e with closed := true, resv := 0, buffer := none }
        else if d.receives && e.hop == d.core && e.isOpen && e.sends && e.resv == 2 then { e with resv := 3 } else e)
      dropDeadChains (settleRounds m))

/-- `ACLOSE_RECORD` (R276). -/
def execAcloseRecord (warp : Nat) (s : State) : Out :=
  .next (
    match warpRequest s.m warp true with
    | none => s
    | some r => s.withM (answerWarp (closeDecl (dropRequest s.m r) r.ctx r.chain warp) r.core r.pos warp r.waiter .released))

/-! Grants. -/

/-- Whether a chain waits for a grant: its sink and NRC receivers are recorded and a reservation waits (R269). -/
def chainWaits (c : Chain) : Bool :=
  let ds := c.decls.filter Decl.isOpen
  !c.granted && ds.any (fun d => d.resv == 1) &&
    (match ds.find? (fun d => d.role == 2) with
    | some k => (ds.filter Decl.receives).length == k.nrc
    | none => false)

/-- The pinned receiving cores of a chain. -/
def pinnedCores (c : Chain) : List Nat := (c.decls.filter (fun d => d.isOpen && d.receives && d.page.isNone)).map (·.core)

/-- The pinned buffers in use at a core by contexts that run there. -/
def buffersUsed (s : State) (m : Mach) (core : Nat) : Nat :=
  m.chains.foldl (fun n e =>
    if (s.ctx e.2.ctx).halted.contains core then n else n + (e.2.decls.filter (fun d => d.core == core && d.page.isNone && d.buffer.isSome)).length) 0

/-- An empty arrival buffer (R264). -/
def ArrivalBuffer.fresh : ArrivalBuffer := { sums := List.replicate 256 0, accepted := 0, count := 0, senders := [], cut := false, know := [] }

/-- `CHAIN_GRANT` (R269): every receiving core gets a buffer at once, in ascending chain id among chains that compete. -/
def execChainGrant (ctx chain : Nat) (s : State) : Out :=
  .next (
    match s.m.chain? ctx chain with
    | none => s
    | some c =>
      let pins := pinnedCores c
      let lower := s.m.chains.any (fun e => e.2.ctx == ctx && e.2.id < chain && chainWaits e.2 && (pinnedCores e.2).any pins.contains)
      let room := pins.all (fun k => buffersUsed s s.m k < 16)
      if chainWaits c && !lower && room then
        let (id, m) := s.m.newId
        let m := { m with chains := mset m.chains (chainKey ctx chain) { c with
          granted := true, round := id, decls := c.decls.map (fun d => if d.isOpen && d.receives then { d with buffer := some .fresh } else d) } }
        s.withM (c.decls.foldl (fun m d =>
          match (if d.isOpen && d.receives then d.page else none) with
          | some p => m.adjCtxCore ctx d.core (fun k => { k with rounds := if k.rounds.contains p then k.rounds else k.rounds ++ [p] })
          | none => m) m)
      else s)

/-! Sending. -/

/-- Whether the round at a core on a chain is open. -/
def roundOpen (m : Mach) (ctx chain core : Nat) : Bool :=
  (m.chain? ctx chain).any (fun c => c.granted && c.decls.any (fun d => d.core == core && d.isOpen && d.buffer.isSome))

/-- `ARSV` (R271). -/
def execArsv (a : BitVec 8) (s : State) : Out :=
  onWord s (fun x => uniEffect s.m x [srcI a] zeroSpec 0 (fun v m x =>
    let chain := (arg v 0).toNat % 65536
    match ownDecl m x.w.ctx chain x.w.uid Decl.sends with
    | none => .bad (accFault .accNorsv chain 1) m
    | some d =>
      if 2 ≤ d.resv then .ok m x []
      else
        let m := claimSources m x [srcI a]
        let mark := fun k => adjChain m x.w.ctx chain (fun e => if e.warp == x.w.uid && e.isOpen && e.sends then { e with resv := k } else e)
        if d.resv = 0 ∧ dieOf d.hop ≠ dieOf x.core ∧ syncFull s m x.core then .hold m x .register
        else if roundOpen m x.w.ctx chain d.hop then .ok (mark 2) x []
        else .hold (mark 1) x .reservation))

/-- The values of a tile in the layout of R247: element (m, n) in lane 2 m + n / 8, registers from `reg` + 2 (n mod 8). -/
def tileValues (w : Warp) (reg : Nat) : List DWord :=
  (List.range 256).map (fun i =>
    let l := 2 * (i / 16) + i % 16 / 8
    let r := reg + 2 * (i % 8)
    pairOf (w.regLane r l) (w.regLane (r + 1) l))

/-- Held sends of a warp on a chain. -/
def heldSends (w : Warp) (chain : Nat) : Nat :=
  w.levels.foldl (fun n l => n + (l.held.filter (fun h => match h with | .asend c _ _ => c == chain | _ => false)).length) 0

/-- `ASEND` (R272, R288): the tile is read at issue; in an open level the send is held. A mailbox or queue that names the chain is taken once the next hop has
accepted (R72). -/
def execAsend (d a : BitVec 8) (s : State) : Out :=
  onWord s (fun x =>
    let regs := (List.range 16).map (· + d.toNat)
    match x.r.wait with
    | .answer _ => s.m.put x
    | .released => (takeAddress s.m x a).advance (x.taken s.m [srcI a])
    | _ =>
      match srcReady s.m x true [srcI a] with
      | .hold m x k => m.hold x k
      | .bad e => deliverAll s.m x e
      | .go =>
        let chain := (srcValue (s.m.ctxCore x.w.ctx x.core) x (srcI a) 0 x.low).toNat % 65536
        if x.g.lanes ≠ BitVec.allOnes 32 then deliverAll s.m x (plainFault .illegalOp)
        else
          match ownDecl s.m x.w.ctx chain x.w.uid Decl.sends with
          | none => deliverAll s.m x (accFault .accNorsv chain 1)
          | some dc =>
            if dc.resv < 2 ∨ 0 < heldSends x.w chain then deliverAll s.m x (accFault .accNorsv chain 1)
            else
              match srcReady s.m x false [] regs with
              | .hold m x k => m.hold x k
              | .bad e => deliverAll s.m x e
              | .go =>
                let vals := tileValues x.w d.toNat
                let x := x.touch regs
                match x.w.levels with
                | [] =>
                  if dieOf dc.hop ≠ dieOf x.core ∧ syncFull s s.m x.core then (claimSources s.m x [srcI a]).hold x .register
                  else
                  let (id, m) := s.m.newId
                  let t : Tile := { ctx := x.w.ctx, chain := chain, src := x.core, dst := dc.hop, warp := x.w.uid, pos := x.pos, vals := vals
                                    accepted := false, round := 0, held := false, know := x.w.history m, since := id }
                  (claimSources { m with tiles := mset m.tiles id t } x [srcI a]).hold x (.answer id)
                | lv :: rest =>
                  if 65536 < shadowUsed s.m x.core + 2048 then
                    (resolveLevels 4 s.m x).settle
                  else
                    (takeAddress s.m x a).advance { x with w := { x.w with levels := { lv with held := lv.held ++ [.asend chain vals x.pc] } :: rest } })

/-- What the next hop answers to a tile's header (R273): the refusal and whether the reservation is dropped, or acceptance by a declaration. -/
def tileAnswer (s : State) (m : Mach) (t : Tile) : Except (FaultInfo × Bool) Decl :=
  match m.chain? t.ctx t.chain with
  | none => .error (accFault .accRetired t.chain 0, true)
  | some c =>
    let resv := (c.decls.find? (fun d => d.warp == t.warp && d.isOpen && d.sends)).elim 0 (·.resv)
    match (c.decls.find? (fun d => d.core == t.dst && d.receives)) with
    | none => .error (accFault (if resv = 4 then .accRetired else .accNorsv) t.chain (if resv = 4 then 0 else 2), true)
    | some d =>
      if d.page.isNone && s.stopped t.ctx t.dst then .error (accFault .accAbsent t.chain 0, false)
      else if d.retired ∨ resv = 4 then .error (accFault .accRetired t.chain 0, true)
      else
        match d.buffer with
        | some b => if d.closed ∨ resv = 3 ∨ d.exp ≤ b.accepted then .error (accFault .accNorsv t.chain 2, true) else .ok d
        | none => .error (accFault .accNorsv t.chain 2, true)

/-- A committed send leaves the level that held it. -/
def popHeldSend (w : Warp) : Warp :=
  { w with levels := w.levels.map (fun l => match l.held with | .asend .. :: hs => { l with held := hs } | _ => l) }

/-- The reservation of a tile's sender used or dropped. -/
def unreserve (m : Mach) (t : Tile) : Mach :=
  adjChain m t.ctx t.chain (fun e => if e.warp == t.warp && e.isOpen && e.sends then { e with resv := 0 } else e)

/-- What a group that waits for the answer to a tile waits for then: a refusal faults at its word; with an acceptance the `ASEND` goes on, and a commit. -/
def Wait.answered (k : Wait) (tile : Nat) (refusal : Option FaultInfo) : Wait :=
  let mine := k == .answer tile || (tile ≠ 0 && k.tile == tile)
  if !mine then k
  else
    match refusal, k with
    | some f, _ => .refused f
    | Option.none, .commit _ => .verdict
    | Option.none, .resolving _ fs b => .resolving 0 fs b
    | Option.none, _ => .released

/-- A warp with the answer to a tile given to the group that waits for it. -/
def Warp.tileAnswered (w : Warp) (tile : Nat) (refusal : Option FaultInfo) : Warp :=
  let fix := fun (g : Group) => { g with run := g.run.map (fun r => { r with wait := r.wait.answered tile refusal }) }
  { w with groups := w.groups.map fix, hgroups := w.hgroups.map fix }

/-- `ASEND_ANSWER` (R279): the answer reaches the sender; the reservation is used, kept or dropped. -/
def execAsendAnswer (tile : Nat) (s : State) : Out :=
  .next (
    match mget s.m.tiles tile with
    | none => s
    | some t =>
      if t.accepted then s
      else
        let tell := fun (m : Mach) (refusal : Option FaultInfo) =>
          adjWarpOrSaved m t.src t.pos (fun w => w.uid == t.warp) (fun w => (if t.held && refusal.isNone then popHeldSend w else w).tileAnswered tile refusal)
        s.withM (match tileAnswer s s.m t with
          | .error (f, drop) =>
            let m := { s.m with tiles := mdel s.m.tiles tile }
            tell (if drop then unreserve m t else m) (some f)
          | .ok d =>
            let m := adjChain s.m t.ctx t.chain (fun e =>
              if e.core == d.core && e.receives && e.isOpen then
                { e with buffer := e.buffer.map (fun b => { b with accepted := b.accepted + 1, senders := b.senders ++ [t.src] }) }
              else e)
            let round := (m.chain? t.ctx t.chain).elim 0 (·.round)
            tell { unreserve m t with tiles := mset m.tiles tile { t with accepted := true, round := round } } none))

/-! Arrivals. -/

/-- A tile added to a buffer: 72-bit sums, then the count (R265); and what happens before it (R275). -/
def ArrivalBuffer.add (b : ArrivalBuffer) (vals : List DWord) (know : List Nat) : ArrivalBuffer :=
  { b with sums := (b.sums.zip vals).map (fun e => e.1 + e.2.signExtend 72), count := b.count + 1, know := (b.know ++ know).eraseDups }

/-- A chain's scope (R275): the narrowest of `.core`, `.clus`, `.die` and `.dev` that holds every core declared in it. -/
def Chain.scope (c : Chain) : Nat :=
  let all := fun (f : Nat → Nat) => c.decls.all (fun d => c.decls.all (fun e => f d.core == f e.core))
  if all (fun k => k) then 2 else if all clusterOf then 3 else if all dieOf then 4 else 5

/-- The entry of an arrival notice (R197 KIND 5): chain id, the sender's die and number. -/
def arrWord (chain seen : Nat) : Word := BitVec.ofNat 32 (chain * 65536 + seen / 256 * 2 ^ 15 + seen % 256 * 2 ^ 7)

/-- Whether the round that accepted a tile is still open at its next hop: a close has discarded the buffer otherwise (R276). -/
def Tile.current (m : Mach) (t : Tile) : Bool :=
  (m.chain? t.ctx t.chain).any (fun c => c.granted && c.round == t.round && c.decls.any (fun e => e.core == t.dst && e.isOpen && e.buffer.isSome))

/-- `ACC_ARRIVAL` (R265, R275): after every earlier access of the sender is performed at the chain's scope. -/
def execAccArrival (tile : Nat) (s : State) : Out :=
  .next (
    match mget s.m.tiles tile with
    | none => s
    | some t =>
      if !t.accepted ∨ s.m.stores.any (fun st => st.warp == t.warp && st.seq < t.since) then s
      else if !t.current s.m then s.withM (releaseCluster { s.m with tiles := mdel s.m.tiles tile } t.ctx t.src)
      else
        let know := stillLate s.m (t.know ++ lateOf s.m t.warp)
        let m := if (s.m.chain? t.ctx t.chain).any (fun c => c.scope == 5) then settleLate s.m (fun w => know.contains w.id) else s.m
        let m := adjChain m t.ctx t.chain (fun e =>
          if e.core == t.dst && e.receives && e.isOpen then { e with buffer := e.buffer.map (fun b => b.add t.vals know) } else e)
        let m := { m with tiles := mdel m.tiles tile }
        let v := arrWord t.chain (coreSeen (s.ctx t.ctx) t.src)
        s.withM (releaseCluster (m.adjCtxCore t.ctx t.dst (pushReport (fun q => q.kind == 5 && q.arg.toNat % 65536 == t.chain) v)) t.ctx t.src))

/-! `AWAIT`. -/

/-- `AWAIT` (R274): the tile is leased, and the warp goes on. -/
def execAwait (d a : BitVec 8) (z : BitVec 1) (sl : BitVec 3) (s : State) : Out :=
  onWord s (fun x =>
    match srcReady s.m x true [srcI a] with
    | .hold m x k => m.hold x k
    | .bad e => deliverAll s.m x e
    | .go =>
      let chain := (srcValue (s.m.ctxCore x.w.ctx x.core) x (srcI a) 0 x.low).toNat % 65536
      if x.g.lanes ≠ BitVec.allOnes 32 ∨ slotElt (formatSlot s.m x.w sl.toNat) = 0 then deliverAll s.m x (plainFault .illegalOp)
      else if (ownDecl s.m x.w.ctx chain x.w.uid Decl.receives).isNone then deliverAll s.m x (accFault .accNorsv chain 3)
      else
        match srcReady s.m x false [] (if z = 1 then [] else (List.range 16).map (· + d.toNat)) with
        | .hold m x k => m.hold x k
        | .bad e => deliverAll s.m x e
        | .go =>
          match regsReady s.m x d.toNat 16 with
          | .hold m k => m.hold x k
          | .bad e => deliverAll s.m x e
          | .go m =>
            let (m, y) := addPend (takeAddress m x a) (x.taken m [srcI a]) (.await chain sl.toNat (z == 1)) d.toNat 16 []
            m.advance y)

/-- The tile after its buffer is added, lane by lane, with the bits it sets in ACCSTAT (R274). -/
def awaitTile (sat : Bool) (b : ArrivalBuffer) (z : Bool) (w : Warp) (reg : Nat) : SMap (List Word) × Word :=
  (List.range 32).foldl (fun (acc : SMap (List Word) × Word) l =>
    let (ws, bits) := (List.range 8).foldl (fun (p : List Word × Word) j =>
      let i := 16 * (l / 2) + 8 * (l % 2) + j
      let base : DWord := if z then 0 else pairOf (w.regLane (reg + 2 * j) l) (w.regLane (reg + 2 * j + 1) l)
      let (v, k) := add64 sat base (b.sums.getD i 0).toInt
      (p.1 ++ [DWord.lo v, DWord.hi v], p.2 ||| k)) ([], 0)
    (mset acc.1 l ws, acc.2 ||| bits)) ([], 0)

/-- `AWAIT_ADD` (R274, R280): when the count reaches EXP, or the round was cut short and every accepted tile has arrived. -/
def execAwaitAdd (core pos op : Nat) (s : State) : Out :=
  .next (
    match s.m.warp? core pos with
    | none => s
    | some w =>
      match w.pend? op with
      | none => s
      | some p =>
        match p.kind with
        | .await chain sl z =>
          match s.m.chain? w.ctx chain, ownDecl s.m w.ctx chain w.uid Decl.receives with
          | some c, some d =>
            match d.buffer with
            | none => s
            | some b =>
              if b.count = d.exp ∨ (b.cut ∧ b.count = b.accepted) then
                let (vals, bits) := awaitTile (slotOvm (formatSlot s.m w sl)) b z w p.reg
                let m := if c.scope ≤ 2 then s.m else dropL1 s.m core
                let m := if c.scope = 5 then acquireIds m core b.know else m   -- narrower, all that the rounds carry is of this die
                let w' := (w.complete p vals).setAcc (bits ||| (if b.cut then accInv else 0))
                let m := m.setWarp core pos { w' with know := stillLate m (w'.know ++ b.know) }
                let m := adjChain (freeRound m w.ctx core d.page) w.ctx chain (fun e => if e.warp == w.uid && e.isOpen && e.receives then { e with buffer := none } else e)
                s.withM (settleRounds m)
              else s
          | _, _ => s
        | _ => s)

end Sys2Proof.Machine
end

