-- ==== Sys2Proof/Machine/Runs.lean ====
section
/-! DEFINITION. Runs: fetching one (R62), ending one at its trailer (R65, R322, R381), convergence points (R326), serial mode
(R325), and the choice and preparation of the next word of a slot (R72, R190, R320, R350). -/

namespace Sys2Proof.Machine

/-! Fetching. -/

/-- Whether a word lies in the trailer's cells (R51). -/
def isTrail (w : Word) : Bool := w.toNat / 2 ^ 28 == 15

/-- The machine whose core holds a value of an instruction word among those it holds (R315). -/
def holdWord (m : Mach) (core word : Nat) (w : Word) : Mach :=
  m.adjCore core (fun c => let ws := mgetD c.code word []; { c with code := mset c.code word (if ws.contains w then ws else w :: ws) })

/-- The instruction word at a translated address as memory has it, held by the core from then on. -/
def fetchNow (s : State) (m : Mach) (core : Nat) (x : Xlat) (va : Nat) : Res Word :=
  (readAt s m core x va 4).next (fun bs m =>
    let w : Word := BitVec.ofNat 32 (bytesToNat bs)
    .ok w (holdWord m core (x.pa / 4) w))

/-- The instruction word at a translated address (R315): as memory has it, or any of the values that the core has read of it before and still holds. -/
def fetchWord (s : State) (m : Mach) (core : Nat) (x : Xlat) (va : Nat) : Res Word :=
  match mget (m.core core).code (x.pa / 4) with
  | none => fetchNow s m core x va
  | some ws =>
    let k := Config.freePick m.free % (ws.length + 1)
    let m := { m with free := m.free + 1 }
    match ws[k]? with
    | some w => .ok w m
    | none => fetchNow s m core x va

/-- A core reads an instruction word of HBM ahead of the run that will need it (R315). -/
def fetchAhead (m : Mach) (core word : Nat) : Mach :=
  if !isHbm (4 * word) || poisonedRange m (4 * word) 4 then m
  else holdWord m core word (BitVec.ofNat 32 (bytesToNat ((List.range 4).map (fun i => viewByte m (dieOf core) (4 * word + i)))))

/-- A core drops the oldest value that it holds of an instruction word. -/
def dropWord (m : Mach) (core word : Nat) : Mach :=
  m.adjCore core (fun c =>
    let ws := (mgetD c.code word []).dropLast
    { c with code := if ws.isEmpty then mdel c.code word else mset c.code word ws })

/-- A run from an address: at most `k` words, up to its `TRAIL`; and the fault of the first word that cannot be fetched (R62). -/
def fetchRun (s : State) (ctx core : Nat) : Nat → Mach → Pc → Res (List Word × Option FaultInfo)
  | 0, m, _ => .ok ([], none) m
  | k + 1, m, pc =>
    match (translate s m ctx core (pc.setWidth 64) .fetch).next (fun x m => fetchWord s m core x pc.toNat) with
    | .wait m => .wait m
    | .fault f m => .ok ([], some f) m
    | .ok w m =>
      if isTrail w then .ok ([w], none) m
      else (fetchRun s ctx core k m (pc + 4)).next (fun r m => .ok (w :: r.1, r.2) m)

/-- CV of a run's trailer, 0 where the trailer cannot be fetched or is itself in fault (R62, R65). -/
def runCv (words : List Word) : Bool :=
  match words.getLast? with
  | some w =>
    match decodeWord w with
    | .ok (.trail v c e f g h) => v == 1 && (staticFault (.trail v c e f g h)).isNone
    | _ => false
  | none => false

/-! Groups after a run. -/

/-- Whether a group is asleep. -/
def Group.asleep (g : Group) : Bool := match g.run with | some r => (r.wait matches .sleeping _) | none => false

/-- Groups that take a split-table entry: those not asleep (R319), but for one that serial mode left out and that is blocked still (R325). -/
def Group.takesEntry (g : Group) : Bool := !g.asleep && !(g.out && g.blocked)

/-- A group cut into one group a lane, for serial mode (R325). A group inside a run stays whole. -/
def splitGroup (g : Group) : List Group :=
  if g.run.isSome then [g] else (maskLanes g.lanes).map (fun l => { g with lanes := laneBit l })

/-- Whether a group can be chosen to issue, as far as its own waits say. -/
def Group.runnable (g : Group) : Bool := !g.blocked && !g.atConv

/-- The slot enters serial mode when its groups need more than the split table's 8 entries (R319, R325). -/
def Warp.enterSerial (w : Warp) : Warp :=
  if w.serial.isNone ∧ 8 < (w.groups.filter Group.takesEntry).length then
    let gs := w.groups.flatMap splitGroup
    let first := (gs.filter Group.runnable).foldl (fun n g => min n (lowLane g.lanes)) 31
    { w with groups := gs, serial := some (first, 0) }
  else w

/-- Groups joined to a slot at a run boundary (R319, R322). -/
def Warp.place (w : Warp) (gs : List Group) : Warp :=
  match w.serial with
  | some _ => { w with groups := w.groups ++ gs.flatMap splitGroup }
  | none => Warp.enterSerial { w with groups := regroup (w.groups ++ gs) }

/-- The counts of R325, R326 and R374 after the slot has issued a run, and its runs (R320). -/
def Warp.countRun (w : Warp) (lane : Nat) : Warp :=
  { w with
    groups := w.groups.map (fun g => { g with conv := g.conv.map (· + 1) })
    hgroups := w.hgroups.map (fun g => { g with conv := g.conv.map (· + 1) })
    runs := w.runs + 1
    parkRuns := w.parkRuns.map (· + 1)
    serial := w.serial.map (fun p => if p.1 = lane then (p.1, p.2 + 1) else p) }

/-- The warp moves to the pending set as its youngest member (R353, R354). -/
def leaveActive (m : Mach) (core pos : Nat) : Mach :=
  m.adjCore core (fun c =>
    if c.active.contains pos then
      { c with active := c.active.filter (· ≠ pos), pending := c.pending ++ [{ pos := pos, ready := 0 }] }
    else c)

/-! Reports of imprecise store faults (R381). -/

/-- The lane that owns a store-fault entry of a warp: the storing lane, or the lowest lane that has not exited. -/
def Warp.sfqOwner (w : Warp) (e : SfqEntry) : Nat :=
  if w.exited e.lane then ((List.range 32).filter (fun l => !w.exited l)).headD 0 else e.lane

/-- The entries a lane owns that are not reported yet, oldest first. -/
def dueEntries (m : Mach) (x : Ex) (l : Nat) : List SfqEntry :=
  (m.ctxCore x.w.ctx x.core).sfq.filter (fun e => e.warp == x.w.uid && !e.reported && x.w.sfqOwner e == l)

/-- The active lanes to which a report is made at this trailer (none in handler mode, R375). -/
def reportLanes (m : Mach) (x : Ex) : List Nat := if x.inHandler then [] else x.lanes.filter (fun l => !(dueEntries m x l).isEmpty)

/-- The reports made: each lane parks with the record of its oldest entry, and every entry it owns is marked. -/
def makeReports (m : Mach) (x : Ex) (next : Nat → Pc) : Mach × Ex :=
  let ls := reportLanes m x
  let y := ls.foldl (fun (y : Ex) l =>
    match dueEntries m x l with
    | [] => y
    | e :: _ =>
      y.park l { pc := x.pc, run := x.r.pos, imp := true, slot := 0, kind := 0, cause := e.entry.cause, detail := e.entry.detail, addr := e.entry.addr }
        (next l)) x
  let m := m.adjCtxCore x.w.ctx x.core (fun c =>
    { c with sfq := c.sfq.map (fun e => if e.warp == x.w.uid && ls.contains (x.w.sfqOwner e) then { e with reported := true } else e) })
  (m, y)

/-! The end of a run. -/

/-- The lanes of a list by where they go. -/
def byTarget (next : Nat → Pc) (ls : List Nat) : List (Pc × Word) :=
  (ls.map next).eraseDups.map (fun pc => (pc, maskOf (ls.filter (fun l => next l == pc))))

/-- Where a lane goes at the end of the run: its transfer's target, or the word after the `TRAIL`. -/
def Ex.nextPc (x : Ex) (l : Nat) : Pc := mgetD x.r.nextPc l (x.pc + 4)

/-- THE END OF A RUN at its trailer (R65, R322): the reports of R381, the lanes at their next PCs, the counts, the trailer's ranges. A
handler lane that has executed `RTE` leaves the handler group with its own depth (R378). -/
def finishRun (m : Mach) (x : Ex) (ranges : List Nat) : Mach :=
  let (m, y) := makeReports m x x.nextPc
  let ls := maskLanes y.g.lanes
  let low := x.low
  let w := { y.without with ranges := ranges }
  let w := w.countRun low
  let w :=
    if x.hand then
      let back := ls.filter (fun l => !(w.thread l).entered)
      let stay := ls.filter (fun l => (w.thread l).entered)
      let hs := regroup (w.hgroups ++ (byTarget x.nextPc stay).map (fun e => Group.at_ e.2 e.1 x.g.depth))
      { w with hgroups := hs, handler := !hs.isEmpty }.place (back.map (fun l => Group.at_ (laneBit l) (x.nextPc l) (w.thread l).depth))
    else w.place ((byTarget x.nextPc ls).map (fun e => Group.at_ e.2 e.1 x.g.depth))
  let m := m.setWarp x.core x.pos { w with displace := false }
  if w.displace then leaveActive m x.core x.pos else m

/-! Convergence points (R326, R327). -/

/-- The address of the word a group stands at. -/
def Group.wordPc (g : Group) : Pc := match g.run with | some r => r.start + BitVec.ofNat 48 (4 * r.pos) | none => g.pc

/-- A released group, its wait over. -/
def Group.release (g : Group) : Group := if g.atConv then { g with conv := none, passed := true } else g

/-- Groups released at a `CONV` word merged with those at the same word and depth. -/
def mergeAtConv (g : Group) : List Group → List Group
  | [] => [g]
  | h :: t =>
    if h.passed && g.passed && h.run.isSome && g.run.isSome && h.wordPc == g.wordPc && h.depth == g.depth then
      { h with lanes := h.lanes ||| g.lanes, idle := max h.idle g.idle } :: t
    else h :: mergeAtConv g t

/-- Groups after the waits of those that satisfy `p` are over, merged at their own PC and depth. -/
def releaseGroups (serial : Bool) (p : Group → Bool) (gs : List Group) : List Group :=
  let gs := gs.map (fun g => if p g then g.release else g)
  if serial then gs else regroup (gs.foldl (fun acc g => mergeAtConv g acc) [])

/-- Whether every group of a list waits at a convergence point or is blocked, and some waits at one (R326 (a), (b)). -/
def quiet (gs : List Group) : Bool := gs.any Group.atConv && gs.all (fun g => g.atConv || g.blocked)

/-- Whether all that is left in serial mode waits at one convergence point (R325). -/
def serialOver (gs : List Group) : Bool :=
  match gs.filter (fun g => !g.blocked) with
  | [] => false
  | g :: rest => g.atConv && rest.all (fun h => h.atConv && h.wordPc == g.wordPc && h.depth == g.depth)

/-- The slot after the releases of R325 and R326 (a), (b), or none when there is nothing to release. Lanes that are parked enter the
handler first (R374). -/
def Warp.releaseConv (w : Warp) : Option Warp :=
  if w.handler then
    if quiet w.hgroups then some { w with hgroups := releaseGroups false (fun _ => true) w.hgroups } else none
  else if !w.parkedLanes.isEmpty then none
  else if w.serial.isSome ∧ serialOver w.groups then
    some { w with serial := none, groups := (releaseGroups false (fun _ => true) w.groups).map (fun g => { g with out := g.blocked }) }
  else if quiet w.groups then some { w with groups := releaseGroups w.serial.isSome (fun _ => true) w.groups }
  else none

/-! Preparing the next word of a group. -/

/-- The words that resolve every open level before they issue (R288), so far as the word itself says. -/
def closing (i : Instr) : Bool :=
  (specifiers i).any (fun q => isMailbox q || isQueue q) ||
  (match i with
  | .atom r _ _ _ _ _ => r == 0
  | .atoms .. | .fence .. | .drainst | .gang .. | .achain .. | .arsv .. | .await .. | .aclose .. | .twatch .. | .spawn .. | .yieldj ..
  | .migr .. | .bar .. | .seqld .. | .seqgo .. | .qbind .. | .swr .. | .rte | .frec .. | .sfqpop .. | .termw .. | .trap .. | .bkpt | .exit =>
    true
  | _ => false)

/-- The words before which a warp's plain loads are read for good: those that R304 may order after them, by themselves or through the levels that they close. Loads,
an acquire too, and plain stores of other bytes, scratchpad reads and writes and register words are not ordered after a load on which they do not depend. -/
def fixesLoads (i : Instr) : Bool :=
  closing i ||
  (match i with
  | .st _ _ o _ _ => o != 0
  | .atom .. | .asend .. | .tmma .. | .tbndT .. | .pubt .. | .spect .. | .schk .. | .sabort .. | .cpy .. | .cpym .. | .gath .. | .binit .. | .bwait .. | .tsweep .. => true
  | _ => false)

/-- The words that wait while an `AWAIT` lease of their warp runs (R274): loads, stores, atomics, scratchpad accesses, engine commands. DESIGN CHOICE: R274 lists no
engine commands; the accumulate network's own words, of other chains too, `SPAWN` and `PREF` are taken to be among them (log 128). -/
def behindAwait : Instr → Bool
  | .ld .. | .uld .. | .st .. | .stm .. | .atom .. | .lds .. | .sts .. | .ldw .. | .atoms .. | .tmma .. | .tbndT .. | .asend .. | .await ..
  | .arsv .. | .achain .. | .aclose .. | .twatch .. | .pubt .. | .spect .. | .cpy .. | .cpym .. | .gath .. | .binit .. | .bwait .. | .tsweep ..
  | .spawn .. | .seqld .. | .seqgo .. | .prefL1 .. | .prefL2 .. => true
  | _ => false

/-- What preparing a group comes to. -/
inductive Prep where
  | idle                          -- it still waits, nothing has changed
  | done (m : Mach)               -- something happened without a word executing
  | word (m : Mach) (i : Instr)   -- a word executes: `cur` names the group
  deriving Repr

/-- Whether the latches a word reads are filled (R60). -/
def latchesFilled (i : Instr) (filled : Nat) : Bool := (specifiers i).all (fun q => !isLatch q || q.toNat - 0x80 < filled)

/-- The checks of R72 steps 1 to 5 at a word, in their order: the fault, or the instruction. -/
def checkWord (s : State) (x : Ex) (w : Word) : Except FaultInfo Instr :=
  match decodeWord w with
  | .error c => .error (plainFault c)
  | .ok i =>
    match staticFault i with
    | some c => .error (plainFault c)
    | none =>
      let outOfPlace := (x.r.pos == 23 && !isTrail w) || (runEnding i && (x.r.words[x.r.pos + 1]?.any (fun v => !isTrail v)))
      if outOfPlace then .error (plainFault .illegalOp)
      else if needsPrivilege i && !(s.ctx x.w.ctx).priv then .error (plainFault .priv)
      else if !latchesFilled i x.r.latches.length then .error (plainFault .staleLatch)
      else .ok i

/-- Whether a word has not begun what it waits for: the levels that it has to close are closed first. -/
def Wait.notBegun : Wait → Bool
  | .none | .register | .blocking | .room | .verdict | .commit _ => true
  | _ => false

/-- Whether a word resolves the open levels before it issues: a closing word (R288), or one that has begun to resolve them. A handler's word does not resolve
a level whose commit has stopped: the word that faulted does, when `RTE` executes it again (R290, log 98). -/
def mustClose (x : Ex) (i : Instr) : Bool :=
  !x.w.levels.isEmpty &&
    ((closing i && x.r.wait.notBegun && !(x.inHandler && x.w.levels.any (·.stopped))) || ((x.r.wait matches .verdict | .commit _) && !(i matches .schk ..)))

/-- Whether an issued acquire of a warp is not yet performed: an `ATOM` with NR = 1 (R152, R304). -/
def acquireOut (m : Mach) (uid : Nat) : Bool := m.stores.any (fun st => st.warp == uid && st.acq.isSome)

/-- Whether a word waits for its warp's `AWAIT` leases (R274) or acquires. -/
def heldBack (m : Mach) (x : Ex) (i : Instr) : Bool :=
  behindAwait i && (x.w.pends.any (fun p => p.kind matches .await ..) || acquireOut m x.w.uid)

/-- A word held until its levels are closed; `before` is the machine before the attempt. -/
def holdVerdict (before m : Mach) (x : Ex) (tile : Nat) : Prep :=
  let m := m.hold x (verdictWait tile)
  if m = before then .idle else .done m

/-- The faults of a word delivered: it stays at the word while its levels are resolved, and the lanes that did not fault go on as before. -/
def prepFaults (m : Mach) (x : Ex) (fs : List (Nat × FaultInfo)) : Prep :=
  match deliver m x fs with
  | (m', none) => if m' = m then .idle else .done m'
  | (m', some y) => .done (m'.put { y with r := { y.r with wait := y.r.wait.base } })

/-- The word at which a group stands, checked, its levels closed when it is a closing word: ready to execute, or what happened. -/
def prepWord (s : State) (m : Mach) (x : Ex) : Prep :=
  match x.r.wait with
  | .refused f => .done (deliverRefused m x f)
  | .faulted fs => prepFaults m { x with r := { x.r with wait := .none } } fs
  | .resolving _ fs _ => prepFaults m x fs
  | .halted => .idle
  | _ =>
    match x.r.words[x.r.pos]? with
    | none => .done (deliverAll m x (x.r.fetchFault.getD (plainFault .illegalOp)))
    | some w =>
      match checkWord s x w with
      | .error f => .done (deliverAll m x f)
      | .ok i =>
        let go := fun (m : Mach) (x : Ex) =>
          if heldBack m x i then Prep.done (m.hold x .register)
          else
            let x := if fixesLoads i then { x with w := x.w.fixLoads } else x
            .word { m.put x with cur := some { core := x.core, pos := x.pos, hand := x.hand, grp := x.grp } } i
        if mustClose x i then
          match resolveLevels 4 m x with
          | .resolved m x => go m { x with r := { x.r with wait := .none } }
          | .waiting m' x t => holdVerdict m m' x t
          | .squashed m => .done m
        else go m x

/-- The lanes of a group that take `BUDGET` at this run start (R350, R375). -/
def budgetLanes (x : Ex) : List Nat :=
  if x.inHandler ∨ x.r.pos ≠ 0 then []
  else if x.r.wait matches .none | .verdict | .commit _ then x.lanes.filter (inMask x.w.budgetDue) else []

/-- A group with its `BUDGET` traps taken first: the lanes park at the run start, once a speculating warp has resolved its levels. -/
def prepBudget (s : State) (m : Mach) (x : Ex) : Prep :=
  match budgetLanes x with
  | [] => prepWord s m x
  | ls =>
    match resolveLevels 4 m x with
    | .resolved m x =>
      let x := { x with w := { x.w with budgetDue := x.w.budgetDue &&& ~~~(maskOf ls) }, r := { x.r with wait := .none } }
      match takeFaults m x (ls.map (fun l => (l, plainFault .budget, x.pc))) with
      | (m, none) => .done m
      | (m, some x) => .done (m.putOrDrop x)
    | .waiting m' x t => holdVerdict m m' x t
    | .squashed m => .done m

/-- A group of a warp prepared: at a run boundary its run is fetched and its convergence point met, then its word is prepared. -/
def prepGroup (s : State) (core pos : Nat) (hand : Bool) (k : Nat) : Prep :=
  match s.m.warp? core pos with
  | none => .idle
  | some w =>
    match (if hand then w.hgroups else w.groups)[k]? with
    | none => .idle
    | some g =>
      if g.atConv then .idle
      else
        match g.run with
        | some r => prepBudget s s.m { core := core, pos := pos, hand := hand, grp := k, w := w, g := g, r := r }
        | none =>
          match fetchRun s w.ctx core 24 s.m g.pc with
          | .wait m => if m.touches = s.m.touches then .idle else .done m
          | .fault _ m => .done m
          | .ok (words, ff) m =>
            if runCv words ∧ !g.passed then
              let g := { g with conv := some 0 }
              .done (m.setWarp core pos (if hand then { w with hgroups := setAt w.hgroups k g } else { w with groups := setAt w.groups k g }))
            else
              let r : Run := { start := g.pc, words := words, fetchFault := ff, pos := 0, latches := [], nextPc := [], wait := .none, desc := [] }
              prepBudget s m { core := core, pos := pos, hand := hand, grp := k, w := w
                               g := { g with passed := false, idle := 0, out := false, run := some r }, r := r }

/-! Handler entry (R374). -/

/-- Whether a slot's other threads have run as far as R374 asks: each waits at a convergence point, is blocked, asleep, parked or exited, or the
slot has issued 256 runs since the first lane parked. -/
def handlerDue (w : Warp) : Bool :=
  !w.handler && !w.parkedLanes.isEmpty &&
    (w.groups.all (fun g => g.atConv || g.blocked) || w.parkRuns.any (fun n => 256 ≤ n))

/-! The choice of a group (R320, R325, R374). -/

/-- Whether a group comes before another in the order of R320: starved longest, then deepest, then lowest PC. -/
def Group.before (a b : Group) : Bool :=
  let sa := if 64 ≤ a.idle then a.idle else 0
  let sb := if 64 ≤ b.idle then b.idle else 0
  if sa ≠ sb then sb < sa
  else if 64 ≤ a.idle then a.pc.toNat < b.pc.toNat
  else if a.depth ≠ b.depth then b.depth < a.depth
  else a.wordPc.toNat < b.wordPc.toNat

/-- A numbered group put into its place in the order of R320. -/
def insertGroup (x : Nat × Group) : List (Nat × Group) → List (Nat × Group)
  | [] => [x]
  | y :: ys => if x.2.before y.2 then x :: y :: ys else y :: insertGroup x ys

/-- Groups with their places in a list. -/
def numbered (gs : List Group) : List (Nat × Group) := (List.range gs.length).zip gs

/-- The order in which the groups of a list are tried: one inside a run and not blocked goes on before any other starts. -/
def tryOrder (gs : List Group) : List Nat :=
  let ns := numbered gs
  let (inRun, rest) := ns.partition (fun e => e.2.inRun && !e.2.atConv)
  (inRun ++ (rest.foldl (fun acc e => insertGroup e acc) [])).map (·.1)

/-- Whether a group keeps the other groups of its warp from issuing: it resolves the levels before a fault of its word is delivered (R292), half of its
word is performed (R151), or it is in the middle of a sweep (R235). -/
def Group.resolving (g : Group) : Bool := match g.run with | some r => (r.wait matches .resolving .. | .halves .. | .sweeping) | none => false

/-- Whether a word of a warp is performed in part: it is completed even when issue has stopped (R386). -/
def Warp.midWord (w : Warp) : Bool := (w.groups ++ w.hgroups).any (fun g => g.run.any (fun r => r.wait matches .halves ..))

/-- The groups of a warp that may issue, in the order they are tried: in handler mode the handler group alone (R374); in serial mode the
group of the lane that runs, and groups that wait; a group alone that keeps the others from issuing; none when the slot is about to
enter handler mode, or halted at a breakpoint (R379). -/
def tryGroups (w : Warp) : List (Bool × Nat) :=
  let all := (numbered w.groups).map (fun e => (false, e)) ++ (numbered w.hgroups).map (fun e => (true, e))
  if all.any (fun e => e.2.2.run.any (fun r => r.wait == .halted)) ∨ handlerDue w then []
  else
    match all.find? (fun e => e.2.2.resolving) with
    | some e => [(e.1, e.2.1)]
    | none =>
      if w.handler then (tryOrder w.hgroups).map (fun k => (true, k))
      else
        match w.serial with
        | none => (tryOrder w.groups).map (fun k => (false, k))
        | some (l, n) =>
          ((numbered w.groups).filter (fun e => inMask e.2.lanes l && (n < 256 || e.2.inRun))).map (fun e => (false, e.1))

/-! One issue turn. -/

/-- The group at a place of a warp. -/
def Mach.groupAt (m : Mach) (core pos : Nat) (hand : Bool) (k : Nat) : Option Group :=
  (m.warp? core pos).bind (fun w => (if hand then w.hgroups else w.groups)[k]?)

/-- Whether a group stands at the same word of the same run as before. -/
def sameWord (before after : Option Group) : Bool :=
  match before.bind (·.run), after.bind (·.run) with
  | some b, some a => a.pos == b.pos && a.start == b.start
  | _, _ => false

/-- Whether a group still waits at the same word as before. -/
def stillWaits (before after : Option Group) : Bool :=
  match before.bind (·.run), after.bind (·.run) with
  | some b, some a => b.wait.idles && a.wait == b.wait && a.pos == b.pos && a.start == b.start
  | _, _ => false

/-- The pipes that may take a word (R2, R41, R48): the two lane pipes, 0 and 1, or the uniform pipe, 2. A `TRAIL` occupies no issue cycle (R62). -/
def pipesOf (w : Word) : List Nat := if isTrail w then [] else if w.toNat / 2 ^ 31 = 1 then [2] else [0, 1]

/-- The word at which a group stands. -/
def Group.word? (g : Group) : Option Word := g.run.bind (fun r => r.words[r.pos]?)

/-- What an attempt to issue comes to: the outcome, and the pipes of which a word that issues takes one. -/
structure Attempt where
  out   : Host.Outcome State Fault Refusal
  pipes : List Nat

/-- An attempt to issue a group's next word, as if the pipes were free: none when the group still waits. -/
def tryGroup (run : Instr → State → Host.Outcome State Fault Refusal) (s : State) (core pos : Nat) (hand : Bool) (k : Nat) : Option Attempt :=
  match prepGroup s core pos hand k with
  | .idle => none
  | .done m => some { out := .next (s.withM m), pipes := [] }
  | .word m i =>
    match run i (s.withM m) with
    | .next t =>
      let before := m.groupAt core pos hand k
      let after := t.m.groupAt core pos hand k
      let levels := fun (m : Mach) => (m.warp? core pos).map (·.levels)
      -- an attempt that finds its group waiting as before has come to nothing, unless a commit has got further
      if stillWaits (s.m.groupAt core pos hand k) after && levels s.m == levels t.m then none
      else
        some { out := .next { t with m := { t.m with cur := none } }
               pipes := if sameWord before after then [] else (before.bind Group.word?).elim [] pipesOf }
    | o => some { out := o, pipes := [] }

/-- The first attempt of a list that comes to something, with its group. -/
def tryFirst (run : Instr → State → Host.Outcome State Fault Refusal) (s : State) (core pos : Nat) : List (Bool × Nat) → Option ((Bool × Nat) × Attempt)
  | [] => none
  | e :: t => match tryGroup run s core pos e.1 e.2 with | some a => some (e, a) | none => tryFirst run s core pos t

/-- The groups of a warp that a place is counted in: its handler groups, or its groups. -/
def Warp.side (w : Warp) (hand : Bool) : List Group := if hand then w.hgroups else w.groups
/-- The warp with those groups replaced. -/
def Warp.setSide (w : Warp) (hand : Bool) (gs : List Group) : Warp := if hand then { w with hgroups := gs } else { w with groups := gs }

/-- A group that stands in a run of which it has just issued a word: it starves no longer (R320). -/
def restStarved (before : Warp) (e : Bool × Nat) (w : Warp) : Warp :=
  let old := (before.side e.1)[e.2]?
  match (w.side e.1)[e.2]? with
  | some g => if g.run.isSome && !sameWord old (some g) then w.setSide e.1 (setAt (w.side e.1) e.2 { g with idle := 0 }) else w
  | none => w

/-- A run more for the groups of a slot that were ready while another group issued one (R320), and none for the one that issued. -/
def countIdle (run : Instr → State → Host.Outcome State Fault Refusal) (before : Warp) (issued : Bool × Nat) (core pos : Nat) (t : State) : State :=
  match t.m.warp? core pos with
  | none => t
  | some w =>
    let w := restStarved before issued w
    if w.runs = before.runs ∨ w.serial.isSome then t.withM (t.m.setWarp core pos w)
    else
      let others := (numbered (before.side issued.1)).filter (fun e => issued.2 ≠ e.1)
      let waited := fun (e : Nat × Group) =>
        others.any (fun o => o.2.lanes == e.2.lanes && o.2.wordPc == e.2.wordPc && o.2.depth == e.2.depth) && !e.2.atConv
          && (tryGroup run t core pos issued.1 e.1).isSome
      t.withM (t.m.setWarp core pos
        (w.setSide issued.1 ((numbered (w.side issued.1)).map (fun e => if waited e then { e.2 with idle := e.2.idle + 1 } else e.2))))

/-- What an attempt of a warp leaves beside its outcome: a warp whose word issued is noted (R183), and the places of groups that no longer wait are given up. -/
def noteTurn (turn core pos : Nat) (a : Attempt) (m : Mach) : Mach :=
  let m := if a.pipes.isEmpty then m else m.adjWarp core pos (fun w => { w with lastRun := turn })
  match m.warp? core pos with
  | some w => purgeStale m core w
  | none => m

/-- An attempt to issue from a warp: a group's word, or the release of a convergence point. None when the warp is not ready. -/
def tryWarp (run : Instr → State → Host.Outcome State Fault Refusal) (s : State) (core pos : Nat) : Option Attempt :=
  match s.m.warp? core pos with
  | none => none
  | some w =>
    match tryFirst run s core pos (tryGroups w) with
    | some (e, a) =>
      some (match a.out with
        | .next t => let t := countIdle run w e core pos t; { a with out := .next (t.withM (noteTurn s.turn core pos a t.m)) }
        | _ => a)
    | none => w.releaseConv.map (fun w => { out := .next (s.withM (s.m.setWarp core pos w)), pipes := [] })

/-- The register blocks that a word names, where they are no single registers: each its first register's specifier and its length (R54, R57, R68). -/
def wideBlocks : Instr → List (BitVec 8 × Nat)
  | .iaddS64 d a _ | .iaddN64 d a _ | .callr d a | .cpy d a _ _ _ | .cpym d a _ _ _ | .cpyq d a => [(d, 2), (a, 2)]
  | .qscl _ _ a b => [(a, 2), (b, 2)]
  | .qdec _ _ a _ | .qlut _ _ a _ | .jmp a | .ret a | .sleepu a | .call a _ | .achain _ a _ _ | .twatch a _ | .spect _ a _ | .gath _ a _ _ _ _ _
  | .spawn _ a | .yieldj a | .migr _ a | .seqld _ a => [(a, 2)]
  | .qlutb d _ _ | .asend d _ | .await d _ _ _ => [(d, 16)]
  | .tmma d a _ _ _ _ => [(d, 16), (a, 2)]
  | .ld d _ _ _ t | .uld d _ _ _ t | .st d _ _ _ t | .lds d _ t | .ldw d _ t | .sts d _ t => [(d, tyRegs t.toNat)]
  | .atom _ d _ _ _ f | .atoms d _ f => [(d, max (atomReads f.toNat) (atomWrites f.toNat))]
  | .uldc d _ w => [(d, w.toNat + 1)]
  | .wswin d _ | .time d => [(d, 2)]
  | .tsweep d a _ _ => [(d, 4), (a, 4)]
  | .frec d | .sfqpop d => [(d, 4)]
  | _ => []

/-- The registers a word names, as far as a wait on them may let the warp be swapped out (R353). -/
def namedRegs (i : Instr) : List Nat :=
  let address := match i with
    | .ld _ p _ _ _ | .uld _ p _ _ _ | .st _ p _ _ _ | .stm _ p _ | .atom _ _ p _ _ _ | .prefL1 p | .prefL2 p => [2 * p.toNat, 2 * p.toNat + 1]
    | _ => []
  let blocks := (specifiers i).map (fun q => (q, ((wideBlocks i).find? (fun b => b.1 == q)).elim 1 (·.2)))
  address ++ (blocks.filter (fun b => isV b.1)).flatMap (fun b => (List.range b.2).map (· + b.1.toNat))

/-- Whether a group waits on a pending register that a range of the previous run's trailer names (R353). -/
def swapWait (w : Warp) (g : Group) : Bool :=
  match g.run with
  | some r =>
    r.wait == .register &&
      (match (r.words[r.pos]?).map decodeWord with
      | some (.ok i) => (namedRegs i).any (fun q => w.ranges.contains q && w.pendingIn g.lanes q)
      | _ => false)
  | none => false

/-- The active set after a warp has had its turn (R353): it leaves when all it could issue waits, or when it waits on a named register
while a pending warp is ready. -/
def settleActive (run : Instr → State → Host.Outcome State Fault Refusal) (s : State) (core pos : Nat) : State :=
  match s.m.warp? core pos with
  | none => s
  | some w =>
    let gs := if w.handler then w.hgroups else w.groups
    let waiting := gs.all (fun g => g.leaves || g.atConv)
    let swap := gs.any (swapWait w) && !(gs.any (fun g => g.runnable && !(g.run.any (fun r => r.wait == .register))))
    if waiting then s.withM (leaveActive s.m core pos)
    else if swap && (s.m.core core).pending.any (fun p => (tryWarp run s core p.pos).isSome) then s.withM (leaveActive s.m core pos)
    else s

/-! The choice of a warp (R352). -/

/-- The pipes that still take an attempt of a warp in this cy: each takes one word, and a warp issues one. -/
def Attempt.free (a : Attempt) (c : Core) (pos : Nat) : List Nat := a.pipes.filter (fun p => !c.issued.any (fun e => e.1 == p || e.2 == pos))

/-- How far a position stands behind the one that last issued to a pipe, in the round. DESIGN CHOICE: the round goes by slot numbers (R352 names no order; log 100). -/
def roundRank (c : Core) (pipe pos : Nat) : Nat := match mget c.lastIssue pipe with | some l => (pos + 63 - l) % 64 | none => pos

/-- Whether another active warp comes first to a pipe: it stands earlier in the round and has a ready word for it. -/
def anotherFirst (run : Instr → State → Host.Outcome State Fault Refusal) (s : State) (core pos pipe : Nat) : Bool :=
  let c := s.m.core core
  c.active.any (fun q =>
    q ≠ pos && roundRank c pipe q < roundRank c pipe pos && !((s.m.warp? core q).any (fun w => s.stopped w.ctx core))
      && (tryWarp run s core q).any (fun b => (b.free c q).contains pipe))

/-- The pipe that takes an attempt of a warp: the first free one to which no other warp comes first (R352; log 100). -/
def Attempt.pipe (run : Instr → State → Host.Outcome State Fault Refusal) (s : State) (core pos : Nat) (a : Attempt) : Option Nat :=
  (a.free (s.m.core core) pos).find? (fun p => !anotherFirst run s core pos p)

/-- The machine when a pipe has taken a word of a warp in this cy. -/
def notePipe (core pos pipe : Nat) (m : Mach) : Mach :=
  m.adjCore core (fun c => { c with issued := c.issued ++ [(pipe, pos)], lastIssue := mset c.lastIssue pipe pos })

/-- AN ISSUE TURN of a warp (R320, R352 to R354). A warp of the pending set first takes a free place of the active set, when no ready
pending warp is older; a warp that is not ready, finds no place, or whose word is not the next for its pipe does nothing. -/
def issueTurn (run : Instr → State → Host.Outcome State Fault Refusal) (s : State) (core pos : Nat) : Host.Outcome State Fault Refusal :=
  let c := s.m.core core
  let stopped := (s.m.warp? core pos).any (fun w => s.stopped w.ctx core && !w.midWord)
  let older := c.pending.takeWhile (fun p => p.pos ≠ pos)
  let place : Option State :=
    if stopped then none
    else if c.active.contains pos then some s
    else if c.pending.any (fun p => p.pos == pos) && c.active.length < 8 && older.all (fun p => (tryWarp run s core p.pos).isNone) then
      some (s.withM (s.m.setCore core { c with active := c.active ++ [pos], pending := c.pending.filter (fun p => p.pos ≠ pos) }))
    else none
  match place with
  | none => .next s
  | some s' =>
    match tryWarp run s' core pos with
    | none => .next (if c.active.contains pos then settleActive run s core pos else s)
    | some a =>
      let took := a.pipe run s' core pos
      if !a.pipes.isEmpty && took.isNone then .next s
      else
        match a.out with
        | .next t => .next (settleActive run (took.elim t (fun p => t.withM (notePipe core pos p t.m))) core pos)
        | o => o

end Sys2Proof.Machine
end

