-- ==== Sys2Proof/Machine/Control.lean ====
section
/-! DEFINITION. Threads and control: `SYNC` (R329), branches, calls and indirect transfers (R331, R332), `EXIT` (R334), `SLEEPU` (R335, R164),
`NOP`, `CONV`, `TRAP` and `BKPT` (R379), the trailer (R65, R381), and the steps that release, wake and switch groups. -/

namespace Sys2Proof.Machine

/-- `NOP` (R336): no effect; the run goes on. -/
def execNop (s : State) : Out := onWord s (fun x => s.m.advance x)

/-- `CONV` (R327): the group waits; when the wait is over it goes on with empty latches. -/
def execConv (s : State) : Out :=
  onWord s (fun x =>
    if x.g.passed then s.m.advance { x with g := { x.g with passed := false }, r := { x.r with latches := [] } }
    else s.m.put { x with g := { x.g with conv := some 0 } })

/-! Transfers. -/

/-- A target checked (R332, R41): outside the 48-bit space `ADDR` with detail 0x6, not word-aligned `ALIGN`. -/
def checkTarget (t : Int) : Except FaultInfo Pc :=
  if t < 0 ∨ 2 ^ 48 ≤ t then .error (mkFault .addr 0 6 (t % 2 ^ 48).toNat)
  else if t % 4 ≠ 0 then .error (mkFault .align 0 0 t.toNat)
  else .ok (BitVec.ofInt 48 t)

/-- The address the next run starts at: the word after the `TRAIL` that follows this word (R331). -/
def Ex.returnPc (x : Ex) : Pc := x.pc + 8

/-- A transfer that has been decided: each lane's next PC, its depth, and the link pair where there is one. -/
def transfer (m : Mach) (x : Ex) (srcs : List Src) (uni : Bool) (link : Option (BitVec 8)) (depth : Nat → Nat)
    (f : (Nat → List DWord) → Nat → Except FaultInfo Pc) : Mach :=
  match srcReady m x uni srcs with
  | .hold m x k => m.hold x k
  | .bad e => deliverAll m x e
  | .go =>
    match (match link with | some d => regsReady m x d.toNat 2 | none => .go m) with
    | .hold m k => m.hold x k
    | .bad e => deliverAll m x e
    | .go m =>
      let cc := m.ctxCore x.w.ctx x.core
      let tgt := f (fun l => srcValues cc x (if uni then x.low else l) srcs [])
      match deliver m x (x.lanes.filterMap (fun l => match tgt l with | .error e => some (l, e) | .ok _ => none)) with
      | (m, none) => m
      | (m, some y) =>
        let next := y.lanes.foldl (fun n l => match tgt l with | .ok pc => mset n l pc | .error _ => n) y.r.nextPc
        let w := match link with
          | some d =>
            let a := x.returnPc.setWidth 64
            (y.w.writeReg d.toNat y.g.lanes (fun _ => DWord.lo a)).writeReg (d.toNat + 1) y.g.lanes (fun _ => DWord.hi a)
          | none => y.w
        let y := { y with w := w, g := { y.g with depth := depth y.g.depth }, r := { y.r with nextPc := next } }
        (m.setCtxCore x.w.ctx x.core (takeSources cc x srcs)).advance (y.taken m srcs)

/-- Whether a conditional branch is taken (R64). -/
def branchTaken (c : BitVec 2) (v : Word) : Bool :=
  match c.toNat with
  | 0 => true
  | 1 => v ≠ 0
  | _ => v = 0

/-- The target of a branch (R64). -/
def branchTarget (x : Ex) (o : BitVec 15) : Pc := x.pc + BitVec.ofInt 48 (4 * o.toInt)

/-- `BRA` (R331): decided lane by lane. -/
def execBra (c : BitVec 2) (a : BitVec 8) (o : BitVec 15) (s : State) : Out :=
  onWord s (fun x => transfer s.m x [srcI a] false none id (fun vals l =>
    .ok (if branchTaken c (arg (vals l) 0) then branchTarget x o else x.returnPc)))

/-- `UBRA` (R331): decided once, in the lowest active lane. -/
def execUbra (c : BitVec 2) (a : BitVec 8) (o : BitVec 15) (s : State) : Out :=
  onWord s (fun x => transfer s.m x [srcI a] true none id (fun vals l =>
    .ok (if branchTaken c (arg (vals l) 0) then branchTarget x o else x.returnPc)))

/-- `CALL` (R331). -/
def execCall (a : BitVec 8) (o : BitVec 15) (s : State) : Out :=
  onWord s (fun x => transfer s.m x [] false (some a) (· + 1) (fun _ _ =>
    if x.g.depth = 65535 then .error (plainFault .illegalOp) else .ok (branchTarget x o)))

/-- `JMP` (R332). -/
def execJmp (a : BitVec 8) (s : State) : Out :=
  onWord s (fun x => transfer s.m x [srcW a] false none id (fun vals l => checkTarget (argPair (vals l) 0).toNat))

/-- `JMPR` (R332): relative to the word's own address. -/
def execJmpr (a : BitVec 8) (s : State) : Out :=
  onWord s (fun x => transfer s.m x [srcI a] false none id (fun vals l => checkTarget ((x.pc.toNat : Int) + (arg (vals l) 0).toInt)))

/-- `CALLR` (R332): A is read before D is written. -/
def execCallr (d a : BitVec 8) (s : State) : Out :=
  onWord s (fun x => transfer s.m x [srcW a] false (some d) (· + 1) (fun vals l =>
    if x.g.depth = 65535 then .error (plainFault .illegalOp) else checkTarget (argPair (vals l) 0).toNat))

/-- `RET` (R332). -/
def execRet (a : BitVec 8) (s : State) : Out :=
  onWord s (fun x => transfer s.m x [srcW a] false none (· - 1) (fun vals l =>
    if x.g.depth = 0 then .error (plainFault .illegalOp) else checkTarget (argPair (vals l) 0).toNat))

/-! The end of threads. -/

/-- Whether a warp's store that is combined with one before it is still to be performed: it is performed by the end of the run (R134). Stores that fault are never
performed, and no run waits for them (R382), nor for stores behind them that a full store-fault queue holds back (R380). -/
def joinedOut (s : State) (x : Ex) : Bool :=
  s.m.stores.any (fun st => st.warp == x.w.uid && st.joined && (storeFault s st).isNone) && (s.m.ctxCore x.w.ctx x.core).sfq.length < 16

/-- `EXIT` (R334): the active threads end at once, and their run with them, once its combined stores are performed (R134); the slot is free when its last thread has gone. A
handler lane's record goes with it. -/
def execExit (s : State) : Out :=
  onWord s (fun x =>
    let w := x.without
    let w := w.adjThreads x.lanes (fun t => { t with status := .exited, record := none, entered := false })
    let w := w.countRun x.low
    if joinedOut s x then s.m.hold x .register
    else if w.allExited then removeWarp (s.m.put x) x.core x.pos w else s.m.setWarp x.core x.pos w)

/-! Traps. -/

/-- `TRAP` (R379): each active lane parks with its code, and its resume point is the next word. -/
def execTrap (a : BitVec 8) (s : State) : Out :=
  onWord s (fun x =>
    match srcReady s.m x false [srcI a] with
    | .hold m x k => m.hold x k
    | .bad e => deliverAll s.m x e
    | .go =>
      let cc := s.m.ctxCore x.w.ctx x.core
      let code := fun l => ((srcValues cc x l [srcI a] []).headD 0).toNat % 2 ^ 32
      let m := s.m.setCtxCore x.w.ctx x.core (takeSources cc x [srcI a])
      match takeFaults m x (x.lanes.map (fun l => (l, mkFault .trap 0 0 (code l), x.pc + 4))) with
      | (m, none) => m
      | (m, some x) => m.putOrDrop x)

/-- The event by which a halted warp is reported to the debugger (R379, R400 type 0x07). -/
def bkptEvent (x : Ex) : Event :=
  { type := 0x07, src := dieOf x.core, ctx := x.w.ctx, who := whoWord x.w.homeSlot x.low, pay := natToBytes 16 (recordBits (x.record (plainFault .bkpt)))
    function := none }

/-- `BKPT` (R379): a trap, or under the debugger a halt of the warp, in handler mode too. -/
def execBkpt (s : State) : Out :=
  onWord s (fun x =>
    if (s.ctx x.w.ctx).debug then (raiseEvent s.m (bkptEvent x)).hold x .halted
    else
      match takeFaults s.m x (x.lanes.map (fun l => (l, plainFault .bkpt, x.pc + 4))) with
      | (m, none) => m
      | (m, some x) => m.putOrDrop x)

/-- The groups of a list that are halted at a breakpoint go on at the next word, which begins a run (R379, R190). -/
def resumeHalted (gs : List Group) : List Group :=
  regroup (gs.map (fun g =>
    match g.run with
    | some r => if r.wait == .halted then Group.at_ g.lanes (g.wordPc + 4) g.depth else g
    | none => g))

/-- `DEBUGGER_RESUME` (R379). -/
def execDebuggerResume (core pos : Nat) (s : State) : Out :=
  .next (s.withM (s.m.adjWarp core pos (fun w => { w with groups := resumeHalted w.groups, hgroups := resumeHalted w.hgroups })))

/-! `SYNC`. -/

/-- The lanes of a warp that are arrived at a `SYNC`, with their masks (R329): those that wait there, neither released nor failed. -/
def Warp.syncWaiting (w : Warp) : List (Nat × Word) :=
  (w.groups ++ w.hgroups).flatMap (fun g =>
    match g.run with
    | some r =>
      match r.wait with
      | .sync ms passed failed => ms.filter (fun e => inMask (g.lanes &&& ~~~(passed ||| failed)) e.1)
      | _ => []
    | none => [])

/-- Lanes of the warp's waiting groups marked as passed or as failed. -/
def Warp.markSync (w : Warp) (ok : Bool) (ls : List Nat) : Warp :=
  let fix := fun (g : Group) =>
    match g.run with
    | some r =>
      match r.wait with
      | .sync ms p f =>
        let mine := maskOf (ls.filter (fun l => inMask g.lanes l))
        { g with run := some { r with wait := if ok then .sync ms (p ||| mine) f else .sync ms p (f ||| mine) } }
      | _ => g
    | none => g
  { w with groups := w.groups.map fix, hgroups := w.hgroups.map fix }

/-- The check of R329 for one lane, among the lanes that are arrived at that moment: its mask is complete when every position it names is arrived or counts as exited.
A mismatch fails the lane and those of its mask that still wait. -/
def Warp.syncLane (arrived : List (Nat × Word)) (w : Warp) (l : Nat) : Warp :=
  let waits := fun (k : Nat) => w.syncWaiting.any (fun e => e.1 == k)
  match arrived.find? (fun e => e.1 == l && waits l) with
  | none => w
  | some (_, mask) =>
    let named := arrived.filter (fun e => inMask mask e.1)
    if (maskLanes mask).all (fun k => w.exited k || named.any (fun e => e.1 == k)) then
      w.markSync (named.all (fun e => e.2 == mask)) ((named.map (·.1)).filter waits)
    else w

/-- The checks of every arrived lane. DEDUCED: where the masks of several lanes complete at one moment, the checks are made in ascending lane order, and a lane that
one of them has released is spared by a later one (log 31). -/
def Warp.syncRound (w : Warp) : Warp := (List.range 32).foldl (Warp.syncLane w.syncWaiting) w

/-- A group at a `SYNC` after the checks: lanes that fail park; the group goes on, its sources taken, when every lane left in it may pass. -/
def settleSync (m : Mach) (x : Ex) (a : BitVec 8) : Mach :=
  let w := x.warp.syncRound
  match (if x.hand then w.hgroups else w.groups)[x.grp]?.bind (fun g => g.run.map (fun r => ({ x with w := w, g := g, r := r } : Ex))) with
  | none => m
  | some x =>
    match x.r.wait with
    | .sync ms passed failed =>
      match deliver m x ((maskLanes (failed &&& x.g.lanes)).map (fun l => (l, mkFault .syncMask 0 0 (mgetD ms l 0).toNat))) with
      | (m, none) => m
      | (m, some y) =>
        let m := retoken m x.core x.w x.g y.g
        if y.g.lanes &&& ~~~passed = 0 then (m.setCtxCore y.w.ctx y.core (takeSources (m.ctxCore y.w.ctx y.core) y [srcI a])).advance (y.taken m [srcI a])
        else m.put y
    | _ => m.put x

/-- `SYNC` (R329, R330). The masks are read as the group arrives, once the warp's earlier stores are performed; a mailbox or queue that supplies them is taken when
the group passes (R72). -/
def execSync (a : BitVec 8) (s : State) : Out :=
  onWord s (fun x =>
    match x.r.wait with
    | .sync .. => settleSync s.m x a
    | _ =>
      match srcReady s.m x false [srcI a] with
      | .hold m x k => m.hold x k
      | .bad e => deliverAll s.m x e
      | .go =>
        if !drained s.m x.w.uid then s.m.hold x .blocking
        else
          let cc := s.m.ctxCore x.w.ctx x.core
          let mask := fun l => ((srcValues cc x l [srcI a] []).headD 0).setWidth 32
          let bad := x.lanes.filter (fun l => !inMask (mask l) l)
          match deliver s.m x (bad.map (fun l => (l, mkFault .selfMask 0 0 (mask l).toNat))) with
          | (m, none) => m
          | (m, some y) =>
            settleSync (claimSources m y [srcI a]) { y with r := { y.r with wait := .sync (y.lanes.map (fun l => (l, mask l))) 0 0 } } a)

/-! `SLEEPU` and the promises (R163, R164, R335). -/

/-- The copies in flight that a warp watches, oldest first. -/
def watchedCopies (m : Mach) (uid : Nat) : List Copy := (mvals m.copies).filter (fun c => c.warp == uid && c.watched)

/-- The check made when a wake time is reached: the descriptor of the oldest watched copy whose promise has passed and that has not ended. -/
def missedPromise (m : Mach) (uid : Nat) (wake : DWord) : Option DWord :=
  ((watchedCopies m uid).find? (fun c => c.promise.toNat ≤ wake.toNat)).map (·.descAddr)

/-- The check of R164 for a group whose wake time is reached: it goes on, or parks with `PROMISE_MISS`. -/
def wakeCheck (m : Mach) (x : Ex) (wake : DWord) : Mach :=
  match missedPromise m x.w.uid wake with
  | none => m.advance x
  | some a => deliverAll m { x with r := { x.r with wait := .none } } (mkFault .promiseMiss 0 0 a.toNat)

/-- `SLEEPU` (R335): the group sleeps until the greatest wake time of its lanes. -/
def execSleepu (a : BitVec 8) (s : State) : Out :=
  onWord s (fun x =>
    match x.r.wait with
    | .sleeping t => if t.toNat ≤ s.counter.toNat then wakeCheck s.m x t else s.m.put x
    | _ =>
      match srcReady s.m x false [srcW a] with
      | .hold m x k => m.hold x k
      | .bad e => deliverAll s.m x e
      | .go =>
        let cc := s.m.ctxCore x.w.ctx x.core
        let t := x.lanes.foldl (fun t l => max t ((srcValues cc x l [srcW a] []).headD 0).toNat) 0
        if t ≤ s.counter.toNat then wakeCheck s.m x (BitVec.ofNat 64 t) else s.m.hold x (.sleeping (BitVec.ofNat 64 t)))

/-- The group that holds a lane, with its place, among the groups of a warp. -/
def groupOfLane (w : Warp) (l : Nat) : Option (Bool × Nat × Group) :=
  match (numbered w.groups).find? (fun e => inMask e.2.lanes l) with
  | some (k, g) => some (false, k, g)
  | none => ((numbered w.hgroups).find? (fun e => inMask e.2.lanes l)).map (fun e => (true, e.1, e.2))

/-- `SLEEPU_WAKE` (R335, R164): once the counter reads the wake time, the watched copies are checked. -/
def execSleepuWake (core pos lane : Nat) (s : State) : Out :=
  .next (match s.m.warp? core pos with
  | none => s
  | some w =>
    match groupOfLane w lane with
    | none => s
    | some (h, k, g) =>
      match g.run with
      | none => s
      | some r =>
        match r.wait with
        | .sleeping t =>
          if t.toNat ≤ s.counter.toNat then
            s.withM (wakeCheck s.m { core := core, pos := pos, hand := h, grp := k, w := w, g := g, r := r } t)
          else s
        | _ => s)

/-! The trailer. -/

/-- `TRAIL` (R65, R322, R381): the run ends; its ranges are those of G0 up. A speculating warp that has a store fault to report resolves its levels first. -/
def execTrail (v : BitVec 1) (c : BitVec 3) (e f g h : BitVec 6) (s : State) : Out :=
  onWord s (fun x =>
    let ranges := (([h, g, f, e].take c.toNat).flatMap (fun r => rangeRegs r.toNat))
    let _ := v
    if joinedOut s x then s.m.hold x .register
    else if (reportLanes s.m x).isEmpty ∨ x.w.levels.isEmpty then finishRun s.m x ranges
    else
      match resolveLevels 4 s.m x with
      | .resolved m x => finishRun m x ranges
      | r => r.settle)

/-! Steps of the slot. -/

/-- `CONVERGENCE_RELEASE` (R326 (c)): groups that have waited 256 runs of the slot's other threads go on. -/
def execConvergenceRelease (core pos : Nat) (s : State) : Out :=
  .next (s.withM (s.m.adjWarp core pos (fun w =>
    let old := fun (g : Group) => g.conv.any (fun n => 256 ≤ n)
    let same := fun (gs : List Group) (g : Group) => gs.any (fun h => old h && h.wordPc == g.wordPc && h.depth == g.depth)
    { w with groups := releaseGroups w.serial.isSome (same w.groups) w.groups, hgroups := releaseGroups false (same w.hgroups) w.hgroups })))

/-- The lane after `l` whose group does not wait at a convergence point, wrapping to the lowest (R325). -/
def nextSerial (w : Warp) (l : Nat) : Option Nat :=
  ((List.range 32).map (fun i => (l + 1 + i) % 32)).find? (fun k => w.groups.any (fun g => inMask g.lanes k && !g.atConv))

/-- `SERIAL_MODE_SWITCH` (R325): the running thread has completed 256 runs, or waits, or has gone, and the next one runs. -/
def execSerialModeSwitch (core pos : Nat) (s : State) : Out :=
  .next (s.withM (s.m.adjWarp core pos (fun w =>
    match w.serial with
    | none => w
    | some (l, n) =>
      let waits := fun (g : Group) => g.run.any (fun r => r.wait != .none) && !g.resolving
      let stays := n < 256 && w.groups.any (fun g => inMask g.lanes l && !g.atConv && !waits g)
      let inside := w.groups.any (fun g => inMask g.lanes l && g.run.isSome && !waits g)
      if stays ∨ inside then w else match nextSerial w l with | some k => { w with serial := some (k, 0) } | none => w)))

/-- `WARP_DISPLACEMENT` (R354): a pending warp ready for 2,048 cy finds no place; the warp longest in the active set leaves at its next run
boundary. -/
def execWarpDisplacement (core pos : Nat) (s : State) : Out :=
  .next (
    let c := s.m.core core
    match c.pending.find? (fun p => p.pos == pos), c.active with
    | some p, oldest :: _ =>
      if 2048 ≤ p.ready ∧ 8 ≤ c.active.length then
        let atBoundary := (s.m.warp? core oldest).any (fun w => (w.groups ++ w.hgroups).all (fun g => g.run.isNone))
        s.withM (if atBoundary then leaveActive s.m core oldest else s.m.adjWarp core oldest (fun w => { w with displace := true }))
      else s
    | _, _ => s)

/-- Whether a slice's counter has reached 0 and its trap is still to be raised (R350). -/
def Slice.runsOut (sl : Slice) : Bool := sl.budcnt == 0 && !sl.expired && sl.budget != 0xFFFFFFFF

/-- The warps of a slice, resident or saved, with each lane to take `BUDGET` at its next run boundary (R350). -/
def expireSlice (m : Mach) (id : Nat) (sl : Slice) : Mach :=
  let mark := fun (w : Warp) => if w.slice = id then { w with budgetDue := maskOf ((List.range 32).filter (fun l => !w.exited l)) } else w
  { m with slices := mset m.slices id { sl with expired := true, saved := sl.saved.map mark }
           cores := m.cores.map (fun c => (c.1, { c.2 with warps := c.2.warps.map (fun e => (e.1, mark e.2)) }))
           saved := m.saved.map (fun e => (e.1, e.2.map (fun sw => { sw with warp := mark sw.warp }))) }

/-- `BUDGET_EXPIRY` (R350): the counter has reached 0 (the tick counts it down), and each lane of the slice's warps takes `BUDGET` at its next run boundary. -/
def execBudgetExpiry (slice : Nat) (s : State) : Out :=
  .next (
    match mget s.m.slices slice with
    | none => s
    | some sl => if sl.runsOut then s.withM (expireSlice s.m slice sl) else s)

/-! Handler entry. -/

/-- `HANDLER_ENTRY` (R374): the parked lanes join one handler group at HVEC with depth 0; with HVEC 0 the lanes' records are reported and the
warp is terminated. -/
def execHandlerEntry (core pos : Nat) (s : State) : Out :=
  .next (
    match s.m.warp? core pos with
    | none => s
    | some w =>
      if !handlerDue w then s
      else
        let ls := w.parkedLanes
        let hvec := (s.ctx w.ctx).hvec
        if hvec = 0 then
          let m := ls.foldl (fun m l => match (w.thread l).record with
            | some r => raiseEvent m (recordEvent core w.ctx w.homeSlot l r)
            | none => m) s.m
          s.withM (terminateWarp m core pos)
        else
          let w := w.adjThreads ls (fun t => { t with entered := true })
          s.withM (s.m.setWarp core pos
            { w with handler := true, hgroups := [Group.at_ (maskOf ls) (hvec.setWidth 48) 0], parkRuns := none }))

end Sys2Proof.Machine
end

