-- ==== Sys2Proof/Machine/Spec.lean ====
section
/-! DEFINITION. The speculation instructions: `TWATCH` (R295), `PUBT` (R296), `SPECT` (R297), `SCHK` (R298), `SABORT` (R299). -/

namespace Sys2Proof.Machine

/-! `TWATCH`. -/

/-- The first check of R295 that a descriptor fails, given its format slot: `none` when it may be installed. -/
def watchReject (m : Mach) (x : Ex) (e : WatchEntry) : Option FaultInfo :=
  let flags := bytesToNat ((e.desc.drop 28).take 1)
  let flt := floatType e.elt
  let float := flt.isSome
  let allowed := float || (1 ≤ e.elt && e.elt ≤ 6) || (e.elt == 0x22 && (e.tle == 1 || e.tle == 2))
  let tolerance := fun (t : Nat) => match fp32.decode t with | .fin neg mag _ => (!neg || mag == 0) && (float || mag == 0) | _ => false
  let reserved := bytesToNat ((e.desc.drop 27).take 1) ≠ 0 || natBits flags 3 3 ≠ 0 || bytesToNat ((e.desc.drop 29).take 3) ≠ 0
  if e.elt = 0 then some (plainFault .illegalOp)
  else if reserved || !allowed || 2 ≤ flags / 64 || e.len % 64 ≠ 0 || e.len < 64 || 65536 < e.len || (e.elt == 0x22 && e.len != 2048)
      || e.base % 64 ≠ 0 || 2 ^ 48 ≤ e.base || !tolerance e.tabs || !tolerance e.trel || (float && e.tint != 0) then some (plainFault .reservedField)
  else
    match spadTarget m x.w.ctx x.core e.hist (3 * e.len) with
    | .error f => some f
    | .ok _ => if e.hist % 4096 ≠ 0 then some (mkFault .align 0 0 e.hist) else none

/-- An installed entry given up (R295, R286): its open levels fail, its provisional publication is withdrawn, and a write in flight no longer
counts as a version. -/
def freeEntry (m : Mach) (ctx core k : Nat) : Mach :=
  match watchEntry m ctx core k with
  | none => m
  | some e =>
    let m := failLevels m ctx (clusterOf core) (fun _ l => l.entry == k)
    let m := withdrawEntry m ctx core k e
    let m := { m with stores := m.stores.map (fun (st : Store) =>
      if st.ctx = ctx ∧ clusterOf st.core = clusterOf core ∧ st.entry = some k then { st with entry := none } else st) }
    m.adjCtxCluster ctx core (fun c => { c with watch := mdel c.watch k })

/-- `TWATCH` (R295). The descriptor is read after the warp's earlier stores are performed. -/
def execTwatch (a : BitVec 8) (k : BitVec 5) (s : State) : Out :=
  onWord s (fun x =>
    if a = zeroSpec then (freeEntry s.m x.w.ctx x.core k.toNat).advance x
    else uniEffect s.m x [srcW a] zeroSpec 0 (fun v m x =>
      let va := argPair v 0
      if va.toNat % 32 ≠ 0 then .bad (mkFault .align 0 0 va.toNat) m
      else if !drained m x.w.uid then .hold m x .register
      else
        match readMem s m x.w.ctx x.core va 32 with
        | .fault f m => .bad f m
        | .wait m => .hold m x .register
        | .ok desc m =>
          let fs := bytesToNat ((desc.drop 28).take 1) % 8
          let e : WatchEntry := { desc := desc, core := peerCore x.core (bytesToNat ((desc.drop 26).take 1) / 32), slot := formatSlot m x.w fs, ver := 0
                                  prov := false, owner := 0, rels := [] }
          match watchReject m x e with
          | some f => .bad f m
          | none => .ok ((freeEntry m x.w.ctx x.core k.toNat).adjCtxCluster x.w.ctx x.core (fun c => { c with watch := mset c.watch k.toNat e })) x []))

/-! `PUBT`. -/

/-- The alignment of a published tile or a prediction's destination. -/
def WatchEntry.align (e : WatchEntry) : Nat := if e.elt = 0x22 then 128 else 64

/-- Whether a publication of an entry outside speculation is still to be performed. -/
def publishing (m : Mach) (ctx core k : Nat) : Bool :=
  m.stores.any (fun st => st.ctx == ctx && clusterOf st.core == clusterOf core && st.entry == some k)

/-- The warp's levels as the machine has them now. -/
def Ex.refreshLevels (x : Ex) (m : Mach) : Ex :=
  match m.warp? x.core x.pos with | some w => { x with w := { x.w with levels := w.levels } } | none => x

/-- `PUBT` (R296). -/
def execPubt (d a : BitVec 8) (k : BitVec 5) (s : State) : Out :=
  let key := k.toNat
  onWord s (fun x =>
    match x.r.wait with
    | .publishing n =>
      if drained s.m x.w.uid then completeUni s.m x [] d 1 [n] else s.m.put x
    | _ => uniEffect s.m x [srcI a] d 1 (fun v m x =>
      let addr := (arg v 0).toNat
      match watchEntry m x.w.ctx x.core key with
      | none => .bad (plainFault .illegalOp) m
      | some e =>
        if addr % e.align ≠ 0 then .bad (mkFault .align 0 0 addr) m
        else
          match spadTarget m x.w.ctx x.core addr e.len with
          | .error f => .bad f m
          | .ok (from_, off) =>
            let n := e.ver + 1
            if e.prov ∧ e.owner = x.w.uid ∧ !x.w.levels.isEmpty then
              .gone (resolveLevels 4 m x).settle
            else if e.prov ∨ publishing m x.w.ctx x.core key then .hold (claimSources m x [srcI a]) x .room
            else if tileHeld m x e.core (e.at_ n.toNat) e.len then .hold (claimSources m x [srcI a]) x .register
            else
              let (tile, m) := spadRead m x.w.ctx from_ off e.len
              let m := spadWrite m x.w.ctx e.core (e.at_ n.toNat) tile
              let (m, sts) := numberStores m [{ storeEntry x (laneBit x.low) 9 (BitVec.ofNat 64 e.base) (.bytes (tile.map some)) (some 5) none with entry := some key }]
              match x.w.levels with
              | [] => .hold (({ m with stores := m.stores ++ sts }).setCtxCore x.w.ctx x.core (takeSources (m.ctxCore x.w.ctx x.core) x [srcI a])) (x.taken m [srcI a])
                  (.publishing n)
              | _ =>
                if 65536 < shadowUsed m x.core + 64 then
                  .gone (resolveLevels 4 s.m x).settle
                else
                  let m := adjWatch m x.w.ctx x.core key (fun e => { e with prov := true, owner := x.w.uid })
                  let m := compareLevels (m.put x) x.w.ctx x.core key e n.toNat tile false x.w.uid
                  let x := x.refreshLevels m
                  match x.w.levels with
                  | lv :: rest =>
                    let lv := { lv with held := lv.held ++ [.publish key n sts], provEntry := lv.provEntry ++ [key] }
                    let m := m.put { x with w := { x.w with levels := lv :: rest } }
                    let m := failCycles m x.w.ctx (clusterOf x.core)
                    .ok m (({ x with w := { x.w with levels := lv :: rest } } : Ex).refreshLevels m) [n]
                  | [] => .ok m x [n]))

/-! `SPECT`. -/

/-- `SPECT` (R297). -/
def execSpect (d a : BitVec 8) (k : BitVec 5) (s : State) : Out :=
  let key := k.toNat
  onWord s (fun x => uniEffect s.m x [srcW a] d 1 (fun v m x =>
    let addr := (argPair v 0).lo.toNat
    let n := max 1 (argPair v 0).hi.toNat
    match watchEntry m x.w.ctx x.core key with
    | none => .bad (plainFault .illegalOp) m
    | some e =>
      if addr % e.align ≠ 0 then .bad (mkFault .align 0 0 addr) m
      else
        match spadTarget m x.w.ctx x.core addr e.len with
        | .error f => .bad f m
        | .ok (dest, off) =>
          if dest ≠ x.core then .bad (mkFault .spadRange 0 0 addr) m
          else if tileHeld m x dest off e.len then .hold m x .register
          else
            let ver := e.ver.toNat
            if n ≤ ver then
              let (tile, m) := readVersion m x.w.ctx e (if ver ≤ n + 1 then n else ver)
              let (m, x) := acquireRels (dropL1 (spadWrite m x.w.ctx dest off tile) x.core) x 5 e.rels
              .ok m { x with w := { x.w with replay := clearReplay x.w.replay x.pc x.g.lanes } } [0]
            else if e.prov ∧ e.owner = x.w.uid ∧ !x.w.levels.isEmpty then
              .gone (resolveLevels 4 m x).settle
            else if ver + 1 < n ∨ e.prov ∨ ver = 0 ∨ 3 ≤ x.w.levels.length ∨ x.w.replays x.pc x.g.lanes then .hold m x .room
            else
              let linear := e.linear && ver ≠ 1
              let (predict, m) := predictions m x.w.ctx e n
              let m := spadWrite m x.w.ctx dest off (predict linear)
              let (id, m) := m.newId
              let lv : Level := { id := id, entry := key, version := BitVec.ofNat 32 n, linear := linear, verdict := none, provOf := none
                                  snapshot := takeSnapshot x.warp, specPc := x.pc, specLanes := x.g.lanes, held := [], shadow := [], provEntry := []
                                  pendsFrom := m.nextId, stopped := false }
              .ok m { x with w := { x.w with levels := lv :: x.w.levels } } [1]))

/-! `SCHK` and `SABORT`. -/

/-- `SCHK` (R298). -/
def execSchk (d : BitVec 8) (s : State) : Out :=
  onWord s (fun x => uniEffect s.m x [] d 1 (fun _ m x =>
    if x.w.levels.isEmpty then .ok m x [0]
    else
      match resolveInnermost m x with
      | .resolved m x => .ok m x [1]
      | .waiting m x t => .hold m x (verdictWait t)
      | .squashed m => .gone m))

/-- `SABORT` (R299). -/
def execSabort (s : State) : Out :=
  onWord s (fun x => if x.w.levels.isEmpty then s.m.advance x else squash s.m x.core x.pos x.warp 0)

end Sys2Proof.Machine
end

