-- ==== Sys2Proof/Machine/Engines.lean ====
section
/-! DEFINITION. The copy engines (R155 to R169) and the gather engine (R119 to R127): descriptors and their checks, the rows of a copy, the bags of a
gather, and their ends. -/

namespace Sys2Proof.Machine

/-! Shared by both engines. -/

/-- A field of a descriptor in bytes. -/
def dField (d : List Byte) (off n : Nat) : Nat := bytesToNat ((d.drop off).take n)

/-- What a transfer comes to: the bytes read or the number written before it ended, the fault that ended it, and whether it waits for a first
touch (R113). -/
structure Part (α : Type) where
  got   : α
  fault : Option FaultInfo
  waits : Bool
  m     : Mach
  deriving DecidableEq, Repr

/-- The prefix of a range of memory that an engine can read, page by page. -/
def readPrefix (s : State) (ctx core : Nat) (acc : Access) : Mach → List (DWord × Nat) → Part (List Byte)
  | m, [] => { got := [], fault := none, waits := false, m := m }
  | m, (va, n) :: ps =>
    match readVa s m ctx core va n acc true with
    | .ok bs m => let r := readPrefix s ctx core acc m ps; { r with got := bs ++ r.got }
    | .fault f m => { got := [], fault := some f, waits := false, m := m }
    | .wait m => { got := [], fault := none, waits := true, m := m }

/-- Named bytes that an engine writes to memory page by page at L2, and into the issuing core's own L1 copies. -/
def writePrefix (s : State) (ctx : Nat) (o : Writer) : Mach → List (DWord × Nat) → List (Option Byte) → Part Nat
  | m, [], _ => { got := 0, fault := none, waits := false, m := m }
  | m, (va, n) :: ps, bs =>
    match translate s m ctx o.agent.core va .write true true with
    | .ok t m =>
      let out := bs.take n
      let r := writePrefix s ctx o (patchL1 (writeFrom s m o t.pa out (t.mt ≠ 2)) o.agent.core t.pa out) ps (bs.drop n)
      { r with got := n + r.got }
    | .fault f m => { got := 0, fault := some f, waits := false, m := m }
    | .wait m => { got := 0, fault := none, waits := true, m := m }

/-- Named bytes written from a virtual address up. -/
def putMem (s : State) (m : Mach) (ctx : Nat) (o : Writer) (va : DWord) (bs : List (Option Byte)) : Part Nat :=
  writePrefix s ctx o m (pageParts (bs.length / 4096 + 2) va bs.length) bs

/-- The event of an engine's end (R401), and of a lost record (TYPE 0x03). -/
def engineEvent (type ctx core slot eng status : Nat) (f : FaultInfo) (descAddr : DWord) (index : Nat) : Event :=
  let cause := if status = 1 ∧ eng = 1 then 0x1C else if status = 2 then causeCode f.cause else 0
  let detail := if status = 2 then f.detail.toNat else 0
  { type := type, src := dieOf core, ctx := ctx, who := whoWord slot 0
    pay := natToBytes 8 descAddr.toNat ++ natToBytes 1 eng ++ natToBytes 1 status ++ natToBytes 1 cause ++ natToBytes 1 detail
      ++ natToBytes 4 (if status = 4 then 0 else index)
    function := none }

/-- FCAUSE of a record (R125, R168): cause in [7:0], walk level in [15:12], detail in [11:8]. -/
def fcause (status : Nat) (f : FaultInfo) : Nat := if status = 2 then causeCode f.cause + 256 * f.detail.toNat else 0

/-- How an engine command ends: its context, issuing core and slot, the engine, status, fault, descriptor address and index, its record, who writes it. -/
structure EngineEnd where
  ctx    : Nat
  slot   : Nat
  eng    : Nat
  status : Nat
  fault  : FaultInfo
  desc   : DWord
  index  : Nat
  record : Option (DWord × List Byte)
  writer : Writer
  deriving DecidableEq, Repr

/-- The machine with an event of an engine's end: of TYPE 0x0A where its status is not 0 (R401). -/
def EngineEnd.report (e : EngineEnd) (m : Mach) (type : Nat) : Mach :=
  if type = 0x0A ∧ e.status = 0 then m else raiseEvent m (engineEvent type e.ctx e.writer.agent.core e.slot e.eng e.status e.fault e.desc e.index)

/-- The record of an engine written, where there is one; a fault on it is reported as lost; and the event of a non-zero status. `waits` holds while the record's
page is being mapped. -/
def engineClose (s : State) (m : Mach) (e : EngineEnd) : Part Unit :=
  match e.record with
  | none => { got := (), fault := none, waits := false, m := e.report m 0x0A }
  | some (va, bs) =>
    let r := putMem s m e.ctx e.writer va (bs.map some)
    { got := (), fault := r.fault, waits := r.waits
      m := if r.waits then r.m else e.report (if r.fault.isSome then e.report r.m 0x03 else r.m) 0x0A }

/-- The machine with the first-touch requests of an attempt that has to be made again. -/
def keepTouches (m tried : Mach) : Mach := { m with touches := tried.touches, nextId := tried.nextId }

/-- A 64-byte descriptor read at issue, once the warp's issued stores are performed (R169, R127), with the held stores of its lowest active lane laid
over it (R288). DESIGN CHOICE: of what a command inside an open level reads, only the descriptor sees held stores; the index, offset and row reads of a `GATH`, and
a copy's reads, see memory, since R127 and R169 let them see the warp's earlier stores and R288 lets no other agent see a held one (log 103). -/
def readDesc (s : State) (m : Mach) (x : Ex) (va : DWord) : Res (List Byte) :=
  (translate s m x.w.ctx x.core va .read).next (fun t m =>
    (readAt s m x.core t va.toNat 64).next (fun bs m =>
      let held := (namedBytes s m x.w x.low).2
      .ok ((List.range 64).map (fun i => match forwardByte held (t.pa + i) with | some (some b) => b | _ => bs.getD i 0)) m))

/-! Copy descriptors (R155). -/

def cSrc (d : List Byte) : Nat := dField d 0 8
def cDst (d : List Byte) : Nat := dField d 8 8
def cNel (d : List Byte) : Nat := dField d 16 4
def cNrow (d : List Byte) : Nat := dField d 20 4
def cSstr (d : List Byte) : Nat := dField d 24 4
def cDstr (d : List Byte) : Nat := dField d 28 4
def cConv (d : List Byte) : Nat := dField d 32 1
def cSrct (d : List Byte) : Nat := dField d 33 1
def cSk (d : List Byte) : Nat := dField d 34 1 / 64
def cDk (d : List Byte) : Nat := dField d 34 1 / 16 % 4
def cFs (d : List Byte) : Nat := dField d 34 1 % 8
def cCrv (d : List Byte) : Bool := natBits (dField d 35 1) 3 1 == 1
def cIxv (d : List Byte) : Bool := natBits (dField d 35 1) 2 1 == 1
def cMxv (d : List Byte) : Bool := natBits (dField d 35 1) 1 1 == 1
def cBv (d : List Byte) : Bool := natBits (dField d 35 1) 0 1 == 1
def cBar (d : List Byte) : Nat := dField d 36 3
def cMask (d : List Byte) : Nat := dField d 39 1
def cMaxa (d : List Byte) : Nat := dField d 40 8
def cIxa (d : List Byte) : Nat := dField d 48 8
def cCra (d : List Byte) : Nat := dField d 56 8

/-- Whether the source is of a float type. -/
def cFloat (d : List Byte) : Bool := cSrct d == 0x12 || cSrct d == 0x11
/-- Whether the source, and the destination, hold term-list rows (R156). -/
def cSrcTl (d : List Byte) : Bool := cConv d == 4 || cConv d == 5
def cDstTl (d : List Byte) : Bool := cConv d == 1 || cConv d == 5
/-- Blocks of 32 elements in a row. -/
def cBlocks (d : List Byte) : Nat := (cNel d + 31) / 32

/-- Whether CONV, SRCT, slot and IXV are a combination of R157; a slot of type none is left to step 4 of R160. -/
def copyCombo (d slot : List Byte) : Bool :=
  let e := slotElt slot
  let none_ := e == 0
  (!cIxv d || cConv d == 1 || cConv d == 2) &&
    (match cConv d with
    | 0 => cSrct d == 0 && cFs d == 0
    | 1 => (cFloat d || cSrct d == 0x02) && (none_ || (e == 0x22 && (cSrct d != 0x02 || slotTle slot == 2)))
    | 2 => cFloat d && (none_ || e == 0x21)
    | 3 => cFloat d && (none_ || e == 1 || e == 2)
    | 4 | 5 => cSrct d == 0x22 && (none_ || e == 0x22)
    | _ => false)

/-- The alignment rules of R155 and R156 for the fields in use. -/
def copyAligned (d : List Byte) : Bool :=
  let unit := if cSrct d = 0x12 then 4 else if cSrct d = 0x11 then 2 else 1
  (!cBv d || cBar d % 16 == 0) && (!cMxv d || cMaxa d % 4 == 0) && (!cCrv d || cCra d % 16 == 0)
    && (!cSrcTl d || (cSrc d % 64 == 0 && cSstr d % 64 == 0)) && (!cDstTl d || (cDst d % 64 == 0 && cDstr d % 64 == 0))
    && (!cFloat d || (cSrc d % unit == 0 && (cNrow d ≤ 1 || cSstr d % unit == 0)))

/-- The checks of R160 step 3: `multi` is `CPYM`, `bnd` the BND bit. -/
def copyReserved (d slot : List Byte) (multi bnd : Bool) : Bool :=
  natBits (dField d 34 1) 3 1 ≠ 0 || dField d 35 1 / 16 ≠ 0 || cNel d < 1 || 2 ^ 20 < cNel d || cNrow d < 1 || 65536 < cNrow d || 2 ≤ cSk d || cDk d = 3
    || (cSk d = 1 && 2 ^ 32 ≤ cSrc d) || (cDk d ≠ 0 && 2 ^ 32 ≤ cDst d) || !copyAligned d || !copyCombo d slot
    || (cMxv d && !(cFloat d && 1 ≤ cConv d && cConv d ≤ 3)) || ((cDk d = 2) != bnd)
    || (if multi then cDk d ≠ 1 || cMask d = 0 else cMask d ≠ 0)

/-- The least number of bits a block of a slot's type takes (R25, R30): its header and 32 bits, and under TLE = e8 its exponent. -/
def blockBits (slot : List Byte) : Nat := if slotTle slot = 3 then 56 else 48

/-- The bytes of a source row, and of a destination row; a term-list row counts with the smallest length it can have. -/
def srcRowBytes (d slot : List Byte) : Nat :=
  match cConv d with
  | 0 => cNel d
  | 4 | 5 => (cBlocks d * blockBits slot + 255) / 256 * 32
  | _ => cNel d * (if cSrct d = 0x12 then 4 else if cSrct d = 0x11 then 2 else 1)
def dstRowBytes (d slot : List Byte) : Nat :=
  match cConv d with
  | 1 | 5 => (cBlocks d * blockBits slot + 255) / 256 * 32
  | 4 => cBlocks d * (if slotTle slot = 3 then 33 else 32)
  | _ => cNel d

/-- A range of rows checked against a context's space. -/
def rowsInSpace (m : Mach) (ctx core addr stride rows bytes : Nat) : Option FaultInfo :=
  match spadTarget m ctx core addr ((rows - 1) * stride + bytes) with | .error e => some e | .ok _ => none

/-- The checks of R160 step 5. -/
def copyRange (m : Mach) (ctx core : Nat) (d slot : List Byte) (multi : Bool) : Option FaultInfo :=
  let a := if cSk d = 1 then rowsInSpace m ctx core (cSrc d) (cSstr d) (cNrow d) (srcRowBytes d slot) else none
  let dst := if multi then cDst d / 2 ^ 24 * 2 ^ 24 + cDst d % 2 ^ 21 else cDst d
  let b := if cDk d = 1 then rowsInSpace m ctx core dst (cDstr d) (cNrow d) (dstRowBytes d slot) else none
  let bar := if multi then cBar d % 2 ^ 21 else cBar d
  let c := if cBv d then rowsInSpace m ctx core bar 0 1 16 else none
  match a, b with
  | some e, _ => some e
  | none, some e => some e
  | none, none => c

/-- Whether a die's weight store is in its read state (R179): a grid has dispatched a warp there, and not all of its warps have exited. -/
def storeReading (m : Mach) (die : Nat) : Bool :=
  m.grids.any (fun g => g.2.dies.contains die && ((g.2.phase != .ended && g.2.placed < g.2.total) || m.slices.any (fun sl => sl.2.grid == g.1)))

/-- The checks of R160 after the descriptor is read, in their order. -/
def copyReject (m : Mach) (x : Ex) (d slot : List Byte) (multi bnd : Bool) (descAddr : Nat) : Option FaultInfo :=
  if copyReserved d slot multi bnd then some (plainFault .reservedField)
  else if 1 ≤ cConv d ∧ slotElt slot = 0 then some (plainFault .illegalOp)
  else
    match copyRange m x.w.ctx x.core d slot multi with
    | some e => some e
    | none => if cDk d = 2 ∧ storeReading m (dieOf x.core) then some (mkFault .wsWrite 0 0 descAddr) else none

/-! Issuing a copy (R160, R163, R288). -/

/-- The grid of a warp. -/
def gridOf (w : Warp) : Nat := w.grid

/-- A promise (R163, R165): at least the counter's value plus 1, and no further than the counter reaches. -/
def promiseAt (counter : DWord) (slack : Nat) : DWord := counter + 1 + BitVec.ofNat 64 (slack % (2 ^ 64 - 1 - counter.toNat))

/-- The release of a copy (R169): it carries what happens before the command, the warp's own writes among it, beside the copy's. A read that finds DONE = 1 acquires it. -/
def copySrcs (m : Mach) (x : Ex) (rel : Option Nat) : List RelSrc :=
  rel.toList.map (fun sc => { scope := sc, agent := x.agent, ids := x.w.history m, direct := true })

/-- A copy started, held or not, and its promise: the counter plus 1 and more, or exactly that when held (R288). -/
def startCopy (s : State) (m : Mach) (x : Ex) (d slot : List Byte) (descAddr : DWord) (multi : Bool) (rel : Option Nat) (held : Bool) : Mach × DWord × Nat :=
  let (id, m) := m.newId
  let promise := if held then s.counter + 1 else promiseAt s.counter (Config.promiseSlack m.free)
  let c : Copy := { ctx := x.w.ctx, core := x.core, slot := x.w.homeSlot, warp := x.w.uid, grid := gridOf x.w, desc := d, descAddr := descAddr
                    fslot := slot, mcast := multi, rel := rel, srcs := copySrcs m x rel, promise := promise, watched := !held, since := id, held := held, row := 0
                    maxabs := 0, delivered := 0, told := 0, ahead := [], formed := none, early := [], stop := none, stepRow := false }
  ({ m with copies := mset m.copies id c, free := if held then m.free else m.free + 1 }, promise, id)

/-- THE COPY COMMANDS (R160). With an acquire the command makes it as it issues, before the engine's first read (R169). -/
def copyOp (s : State) (x : Ex) (multi : Bool) (d a : BitVec 8) (o : BitVec 2) (sc : BitVec 3) (bnd : Bool) : Mach :=
  uniEffect s.m x [srcW a] d 2 (fun v m x =>
    let va := argPair v 0
    let rel := relScope o sc
    let ok := fun (m : Mach) (x : Ex) (p : DWord) =>
      let (m, x) := match acqScope o sc with | some k => fenceAcquire m x k | none => (m, x)
      Eff.ok m x [DWord.lo p, DWord.hi p]
    let begin_ := fun (m : Mach) (x : Ex) (desc slot : List Byte) =>
      if 8 ≤ coreCopies m x.core then Eff.hold m x .room
      else let (m, p, _) := startCopy s m x desc slot va multi rel false; ok m x p
    let go := fun (m : Mach) (x : Ex) (desc : List Byte) =>
      let slot := formatSlot m x.w (cFs desc)
      match x.w.levels with
      | lv :: rest =>
        if !(rel.isSome || cDk desc ≠ 1) then begin_ m x desc slot
        else if 65536 < shadowUsed m x.core + 64 then
          match resolveLevels 4 m { x with r := { x.r with desc := desc } } with
          | .resolved m x => begin_ m x desc slot
          | .waiting m x t => .hold m x (verdictWait t)
          | .squashed m => .gone m
        else
          let (m, p, id) := startCopy s m x desc slot va multi rel true
          ok m { x with w := { x.w with levels := { lv with held := lv.held ++ [.copy id] } :: rest } } p
      | [] => begin_ m x desc slot
    if !x.r.desc.isEmpty then go m x x.r.desc
    else if va.toNat % 64 ≠ 0 then .bad (mkFault .align 0 0 va.toNat) m
    else if !drained m x.w.uid then .hold m x .register
    else
      match readDesc s m x va with
      | .fault f m => .bad f m
      | .wait m => .hold m x .register
      | .ok desc m =>
        match copyReject m x desc (formatSlot m x.w (cFs desc)) multi bnd va.toNat with
        | some f => .bad f m
        | none => go m x desc)

/-- `CPY` (R160, R161). -/
def execCpy (d a : BitVec 8) (o : BitVec 2) (k1 : BitVec 3) (b : BitVec 1) (s : State) : Out := onWord s (fun x => copyOp s x false d a o k1 (b == 1))
/-- `CPYM` (R160, R161). -/
def execCpym (d a : BitVec 8) (o : BitVec 2) (k1 : BitVec 3) (b : BitVec 1) (s : State) : Out := onWord s (fun x => copyOp s x true d a o k1 (b == 1))

/-- `CPYQ` (R165). DESIGN CHOICE: it finds the copies of the warp's own context alone; the rule says 'that this core issued' and is silent on another context's
copy from the same address (log 104). -/
def execCpyq (d a : BitVec 8) (s : State) : Out :=
  onWord s (fun x => uniEffect s.m x [srcW a] d 2 (fun v m x =>
    if (mvals m.copies).any (fun c => c.core == x.core && c.ctx == x.w.ctx && c.descAddr == argPair v 0) then
      let p := promiseAt s.counter (Config.promiseSlack m.free)
      .ok { m with free := m.free + 1 } x [DWord.lo p, DWord.hi p]
    else .ok m x [0, 0]))

/-! The rows of a copy (R157, R161). -/

/-- The elements counted when `n` bytes of a row have been written. -/
def RowOut.counted (r : RowOut) (n : Nat) : Nat :=
  match r.marks with
  | [] => n
  | ms => ms.foldl (fun c p => if p.1 ≤ n then p.2 else c) 0

/-- Bytes `off .. off + n - 1` of source row `r` as they are now. -/
def copyFetch (s : State) (m : Mach) (c : Copy) (r off n : Nat) : Part (List Byte) :=
  if cSk c.desc = 0 then
    let va : DWord := BitVec.ofNat 64 (cSrc c.desc + r * cSstr c.desc + off)
    readPrefix s c.ctx c.core .read m (pageParts (n / 4096 + 2) va n)
  else
    let core := peerCore c.core (natBits (cSrc c.desc) 21 3)
    let at_ := cSrc c.desc % 2 ^ 21 + r * cSstr c.desc + off
    if spadSize m c.ctx core < at_ + n then { got := [], fault := some (mkFault .spadRange 0 0 (cSrc c.desc)), waits := false, m := m }
    else if spadPoisoned (m.ctxCore c.ctx core) at_ n then { got := [], fault := some (mkFault .addr 0 9 at_), waits := false, m := m }
    else let (bs, m) := spadRead m c.ctx core at_ n; { got := bs, fault := none, waits := false, m := m }

/-- Bytes `off .. off + n - 1` of source row `r`, those that the engine has read ahead as it has read them. -/
def copyRead (s : State) (m : Mach) (c : Copy) (r off n : Nat) : Part (List Byte) :=
  let p := copyFetch s m c r off n
  { p with got := p.got.zipIdx.map (fun (b, i) => mgetD c.ahead (off + i) b) }

/-- A term-list stream being read sector by sector: the bytes so far and why no more come. -/
def growStream (s : State) (c : Copy) (r : Nat) (need : Nat) (p : Part (List Byte)) : Part (List Byte) :=
  let want := (need + 255) / 256 * 32
  if p.fault.isSome || p.waits || want ≤ p.got.length then p
  else
    let q := copyRead s p.m c r p.got.length (want - p.got.length)
    { q with got := p.got ++ q.got }

/-- The blocks of a term-list row read and checked one by one (R135, R33): each with its first and last bit; whether a block was in error. DESIGN CHOICE: the bits that PLEN
counts are read before the block is checked, so that a malformed block whose PLEN runs into bytes whose read faults stops with that fault (log 118). -/
def readBlocks (s : State) (c : Copy) (r inner : Nat) : Nat → Nat → Part (List Byte) → List (TermBlock × Nat × Nat) × Bool × Part (List Byte)
  | 0, _, p => ([], false, p)
  | k + 1, pos, p =>
    let p := growStream s c r (pos + 16) p
    if 8 * p.got.length < pos + 16 then ([], false, p)
    else
      let plen := natBits (bytesToNat p.got) pos 12
      let stop := pos + 16 + (if inner = 3 then 8 else 0) + plen
      let p := growStream s c r stop p
      if 8 * p.got.length < stop then ([], false, p)
      else
        match decodeBlock inner (bytesToNat p.got % 2 ^ stop) pos with
        | none => ([], true, p)
        | some b =>
          let (bs, bad, p) := readBlocks s c r inner k (pos + b.len) p
          ((b, pos, pos + b.len) :: bs, bad, p)

/-- The source elements of a row as FP32 patterns, or stored bytes. -/
def rowElements (srct : Nat) (bytes : List Byte) : List Nat :=
  if srct = 0x12 then chunks 4 (bytes.length / 4) bytes
  else if srct = 0x11 then (chunks 2 (bytes.length / 2) bytes).map (· * 65536)
  else bytes.map (·.toNat)

/-- The largest finite magnitude of FP32 patterns, as a pattern. -/
def largestMagnitude (vals : List Nat) : Nat :=
  vals.foldl (fun a v => match fp32.decode v with | .fin .. => max a (v % 2 ^ 31) | _ => a) 0

/-- Lists of 32 elements. -/
def blocksOf {α : Type} : Nat → List α → List (List α)
  | 0, _ => []
  | k + 1, xs => xs.take 32 :: blocksOf k (xs.drop 32)

/-- One block of an encoded term-list row: its bits and length. -/
def encodeRowBlock (slot : List Byte) (srct : Nat) (vals : List Nat) : Nat × Nat :=
  let pad := fun (xs : List Int) => xs ++ List.replicate (32 - xs.length) 0
  if srct = 0x02 then encodeBlock 2 (pad (vals.map (fun (v : Nat) => (v : Int)))) 0
  else if slotTle slot = 3 then let (x, ms) := e8Encode vals; encodeBlock 3 (pad ms) x
  else if slotTle slot = 2 then encodeBlock 2 (pad (vals.map (quantN8 slot))) 0
  else encodeBlock 1 (pad (vals.map (quantS8 slot))) 0

/-- An encoded row: its bits, their number, the bit at which each block starts, and the marks of what is counted. -/
def encodeRowBlocks (slot : List Byte) (srct : Nat) (bs : List (List Nat)) : Nat × Nat × List Nat × List (Nat × Nat) :=
  bs.foldl (fun (acc : Nat × Nat × List Nat × List (Nat × Nat)) b =>
    let (bits, n, starts, marks) := acc
    let (x, k) := encodeRowBlock slot srct b
    let total := ((marks.getLast?).elim 0 (·.2)) + b.length
    (bits + x * 2 ^ n, n + k, starts ++ [n], marks ++ [((n + k + 7) / 8, total)])) (0, 0, [], [])

/-- A byte of two's complement. -/
def intByte (v : Int) : Byte := BitVec.ofInt 8 v

/-- The conversion of one row (R157); an error is a wait for a page of the source that is being mapped. DESIGN CHOICE: after a decode error under CONV 5 the rest of
the last good block's 32-byte sector is written as zeros; R162 says only that every block before the failing one is written (log 105). -/
def convertRow (s : State) (m : Mach) (c : Copy) (r : Nat) : Except Mach (RowOut × Mach) :=
  let d := c.desc
  let inner := slotTle c.fslot
  if cSrcTl d then
    let (bs, bad, p) := readBlocks s c r inner (cBlocks d) 0 { got := [], fault := none, waits := false, m := m }
    if p.waits then .error p.m
    else
      let stop := if bad then some (1, plainFault .addr) else p.fault.map (fun f => (2, f))
      let upTo := fun k => min (cNel d) (32 * (k + 1))
      let nb := List.range bs.length
      if cConv d = 5 then
        let bits := (bs.getLast?).elim 0 (·.2.2)
        let bytes := natToBytes ((bits + 255) / 256 * 32) (bytesToNat p.got % 2 ^ bits)
        let marks := (nb.zip bs).map (fun e => ((e.2.2.2 + 7) / 8, upTo e.1))
        .ok ({ bytes := bytes, side := [], marks := if marks.isEmpty then [(0, 0)] else marks, maxabs := 0, stop := stop }, p.m)
      else
        let size := if inner = 3 then 33 else 32
        let bytes := bs.flatMap (fun e => (if inner = 3 then [BitVec.ofNat 8 e.1.expo] else []) ++ e.1.elems.map (fun t => intByte (termSum t.terms)))
        let marks := nb.map (fun k => (size * (k + 1), upTo k))
        .ok ({ bytes := bytes, side := [], marks := if marks.isEmpty then [(0, 0)] else marks, maxabs := 0, stop := stop }, p.m)
  else
    let p := copyRead s m c r 0 (srcRowBytes d c.fslot)
    if p.waits then .error p.m
    else
      let stop := p.fault.map (fun f => (2, f))
      let all := rowElements (cSrct d) p.got
      match cConv d with
      | 0 => .ok ({ bytes := p.got, side := [], marks := [], maxabs := 0, stop := stop }, p.m)
      | 3 =>
        let q := if slotElt c.fslot = 2 then quantN8 c.fslot else quantS8 c.fslot
        .ok ({ bytes := all.map (fun v => intByte (q v)), side := [], marks := [], maxabs := largestMagnitude all, stop := stop }, p.m)
      | k =>
        -- a row that stops delivers whole blocks
        let vals := if stop.isSome then all.take (all.length / 32 * 32) else all
        let bs := blocksOf ((vals.length + 31) / 32) vals
        if k = 1 then
          let (bits, n, starts, marks) := encodeRowBlocks c.fslot (cSrct d) bs
          let side := if cIxv d then starts.flatMap (natToBytes 4) else []
          .ok ({ bytes := natToBytes ((n + 255) / 256 * 32) bits, side := side, marks := if marks.isEmpty then [(0, 0)] else marks,
                  maxabs := if cFloat d then largestMagnitude vals else 0, stop := stop }, p.m)
        else
          let es := bs.map e8Encode
          let side := if cIxv d then es.map (fun e => BitVec.ofNat 8 e.1) else []
          .ok ({ bytes := es.flatMap (fun e => e.2.map intByte), side := side, marks := [], maxabs := largestMagnitude vals, stop := stop }, p.m)

/-- The cores that receive a copy's scratchpad data. -/
def copyCores (c : Copy) : List Nat :=
  if c.mcast then (List.range 8).filter (fun k => natBits (cMask c.desc) k 1 = 1) |>.map (peerCore c.core)
  else [peerCore c.core (natBits (cDst c.desc) 21 3)]

/-- The barrier objects that a copy counts into: core and offset. -/
def copyBars (c : Copy) : List (Nat × Nat) :=
  if !cBv c.desc then []
  else if c.mcast then (copyCores c).map (fun k => (k, cBar c.desc % 2 ^ 21))
  else [(peerCore c.core (natBits (cBar c.desc) 21 3), cBar c.desc % 2 ^ 21)]

/-- The agent of an engine command: it lies in the instances of the warp that issued it (R300). -/
def engineAgent (m : Mach) (ctx core warp : Nat) : Agent := { ctx := ctx, core := core, warp := warp, gang := (m.findWarp warp).bind (fun e => e.2.2.gang) }

/-- Who makes an engine command's writes: the engine, for the issuing warp. Its data writes are plain, and nothing orders them against one another (R160). -/
def engineWriter (m : Mach) (ctx core warp id : Nat) (srcs : List RelSrc) : Writer :=
  { agent := engineAgent m ctx core warp, thread := id, access := id, lanes := 0, srcs := srcs }

/-- Who makes a copy's writes. -/
def copyWriter (m : Mach) (id : Nat) (c : Copy) (srcs : List RelSrc) : Writer := engineWriter m c.ctx c.core c.warp id srcs

/-- What the signals of an engine command without a release are: an acquire at core scope of its own writes (R169, R127). -/
def plainRels (m : Mach) (ctx core warp id : Nat) : List RelSrc := [{ scope := 2, agent := engineAgent m ctx core warp, ids := lateOf m id, direct := true }]

/-- Named bytes delivered to row `r` of a copy's destination from an offset in it up (R161). -/
def deliverRow (s : State) (m : Mach) (id : Nat) (c : Copy) (r : Nat) (bs : List (Option Byte)) (at_ : Nat := 0) : Part Nat :=
  match cDk c.desc with
  | 0 => putMem s m c.ctx (copyWriter m id c []) (BitVec.ofNat 64 (cDst c.desc + r * cDstr c.desc + at_)) bs
  | 1 =>
    let off := cDst c.desc % 2 ^ 21 + r * cDstr c.desc + at_
    let fits := fun k => off + bs.length ≤ spadSize m c.ctx k
    if (copyCores c).all fits then
      { got := bs.length, fault := none, waits := false, m := (copyCores c).foldl (fun m k => spadWriteNamed m c.ctx k off bs) m }
    else { got := 0, fault := some (mkFault .spadRange 0 0 (cDst c.desc)), waits := false, m := m }
  | _ =>
    let off := cDst c.desc + r * cDstr c.desc + at_
    match wsTarget s c.ctx off bs.length with
    | .error f => { got := 0, fault := some f, waits := false, m := m }
    | .ok o =>
      let die := dieOf c.core
      { got := bs.length, fault := none, waits := false, m := { m with wstore := setAt m.wstore die (putBytes (m.wstore.getD die []) o bs) } }

/-- The side stream of row `r` (R156). -/
def deliverSide (s : State) (m : Mach) (id : Nat) (c : Copy) (r : Nat) (bs : List Byte) : Part Nat :=
  let n := if cConv c.desc = 1 then 4 * cBlocks c.desc else cBlocks c.desc
  putMem s m c.ctx (copyWriter m id c []) (BitVec.ofNat 64 (cIxa c.desc + r * n)) (bs.map some)

/-- Arrivals at a copy's barrier objects, and the releases that they are. -/
def copyArrive (m : Mach) (c : Copy) (n : Nat) (stopped : Bool) (srcs : List RelSrc := []) : Mach :=
  (copyBars c).foldl (fun m b => barArrive m c.ctx b.1 b.2 n stopped srcs) m

/-- The releases that a copy's arrivals are, and its record (R169): its own writes happen before them. -/
def arrivalRels (m : Mach) (id : Nat) (c : Copy) : List RelSrc :=
  if c.rel.isSome then c.srcs.map (RelSrc.after (lateOf m id)) else plainRels m c.ctx c.core c.warp id

/-- Whether everything that a copy's release follows is performed at its scope (R169): one wider than `.die` asks both dies to have applied it. -/
def releaseReady (m : Mach) (id : Nat) (c : Copy) : Bool :=
  c.rel.all (fun sc => sc ≤ 4 || ((lateOf m id).isEmpty && m.late.all (fun w => !c.srcs.any (fun r => r.ids.contains w.id))))

/-- Whether an engine command may start: everything its warp issued before it is performed. -/
def commandReady (m : Mach) (warp since : Nat) : Bool := m.stores.all (fun st => st.warp ≠ warp || since ≤ st.seq)

/-- A copy as its first row begins: the release of one that a commit has performed carries the warp's stores before it. -/
def Copy.begin (m : Mach) (id : Nat) (c : Copy) : Copy :=
  if c.row = 0 ∧ c.since ≠ id ∧ c.formed = none then { c with srcs := c.srcs.map (RelSrc.after (lateOf m c.warp)) } else c

/-- Whether the next row of a copy may be read and written. -/
def Copy.ready (c : Copy) (m : Mach) : Bool := !(c.held || c.stop.isSome || cNrow c.desc ≤ c.row || !commandReady m c.warp c.since)

/-- The next row of a copy: as it was converted, once a word of it has been written, or converted now. -/
def Copy.rowOut (c : Copy) (s : State) (m : Mach) : Except Mach (RowOut × Mach) :=
  match c.formed with
  | some out => .ok (out, m)
  | none => convertRow s m c c.row

/-- The word (by address / 4) of the next row's source, and of its destination, in which the byte at an offset of the row lies. -/
def Copy.srcWord (c : Copy) (i : Nat) : Nat := (cSrc c.desc + c.row * cSstr c.desc + i) / 4
def Copy.dstWord (c : Copy) (i : Nat) : Nat := (cDst c.desc + c.row * cDstr c.desc + i) / 4

/-- The bytes of the next row that are still to be written. -/
def Copy.unwritten (c : Copy) (bs : List Byte) : List (Option Byte) := bs.zipIdx.map (fun (b, i) => if c.early.contains (c.dstWord i) then none else some b)

/-- A WORD OF THE NEXT ROW'S SOURCE read ahead of the others (R311): engine reads are atomic by the aligned word alone. -/
def copyReadAhead (s : State) (id word : Nat) (c : Copy) : State :=
  let base := cSrc c.desc + c.row * cSstr c.desc
  let lo := 4 * word - base
  let n := 4 * word + 4 - max base (4 * word)
  let p := copyFetch s s.m c c.row lo n
  if !c.ready s.m || c.formed.isSome || 4 * word + 4 ≤ base || p.fault.isSome || p.waits then s
  else
    let ahead := p.got.zipIdx.foldl (fun a (b, i) => if (mget a (lo + i)).isSome then a else mset a (lo + i) b) c.ahead
    s.withM { p.m with copies := mset p.m.copies id { c with ahead := ahead } }

/-- A WORD OF THE NEXT ROW'S DESTINATION written ahead of the others (R311), where the whole row can be written. -/
def copyWriteAhead (s : State) (id word : Nat) (c : Copy) : State :=
  let c := c.begin s.m id
  if !c.ready s.m || c.early.contains word then s
  else
    match c.rowOut s s.m with
    | .error _ => s
    | .ok (out, m) =>
      let all := deliverRow s m id c c.row (c.unwritten out.bytes)
      let mine := (List.range out.bytes.length).filter (fun i => c.dstWord i == word)
      match mine with
      | [] => s
      | lo :: _ =>
        if all.fault.isSome || all.waits then s
        else
          let w := deliverRow s m id c c.row (mine.map (fun i => some (out.bytes.getD i 0))) lo
          s.withM { w.m with copies := mset w.m.copies id { c with formed := some out, early := c.early ++ [word] } }

/-- `COPY_ROW` (R161, R162): the next row of a copy, but for what the engine has read and written of it already. Under a release its arrivals are held back (R169). -/
def execCopyRow (copy : Nat) (s : State) : Out :=
  .next (
    match mget s.m.copies copy with
    | none => s
    | some c =>
      if !c.ready s.m then s
      else
        let c := c.begin s.m copy
        match c.rowOut s s.m with
        | .error m => s.withM m
        | .ok (out, m) =>
          let w := deliverRow s m copy c c.row (c.unwritten out.bytes)
          if w.waits then s.withM (keepTouches s.m w.m)
          else
            let sd := if w.fault.isSome || out.side.isEmpty then { w with got := 0 } else deliverSide s w.m copy c c.row out.side
            if sd.waits then s.withM (keepTouches s.m sd.m)
            else
              let stop := match w.fault, sd.fault with
                | some f, _ => some (2, f, c.row)
                | none, some f => some (2, f, c.row)
                | none, none => out.stop.map (fun p => (p.1, p.2, c.row))
              let n := out.counted w.got
              let m := if c.rel.isSome then sd.m else copyArrive sd.m c n stop.isSome (arrivalRels sd.m copy c)
              let c := { c with row := c.row + 1, ahead := [], formed := none, early := [], maxabs := BitVec.ofNat 32 (max c.maxabs.toNat out.maxabs), delivered := c.delivered + n, stop := stop }
              s.withM { m with copies := mset m.copies copy c })

/-- The completion record of a copy (R168). DESIGN CHOICE: FROW is 0 with STATUS 0 and 4, for which R168 gives it no meaning (log 122). -/
def copyRecord (c : Copy) (status : Nat) (f : FaultInfo) (row : Nat) : Option (DWord × List Byte) :=
  if cCrv c.desc then
    some (BitVec.ofNat 64 (cCra c.desc), natToBytes 4 (2 ^ 31 + status) ++ natToBytes 4 c.delivered ++ natToBytes 4 (fcause status f)
      ++ natToBytes 4 (if status = 1 ∨ status = 2 then row else 0))
  else none

/-- The magnitude fold of a copy (R159): one `max` at MAXA, a request of the sync class where it crosses the bridge (R142). -/
def copyFold (s : State) (m : Mach) (id : Nat) (c : Copy) : Res Unit :=
  let va : DWord := BitVec.ofNat 64 (cMaxa c.desc)
  (translate s m c.ctx c.core va .atomic true true).next (fun t m =>
    if isHbm t.pa && poisonedRange m t.pa 4 then .fault (mkFault .addr t.level 9 va.toNat) m
    else if crosses c.core t.pa && syncFull s m c.core then .wait m
    else
      let (v, m) := atomRead s 4 m t.pa
      .ok () (atomWrite s (copyWriter m id c []) 4 m t.pa (atomComb 0x5 v c.maxabs.toNat)))

/-- How a copy ends with a status. -/
def Copy.ends (c : Copy) (m : Mach) (id status : Nat) (f : FaultInfo) (row : Nat) : EngineEnd :=
  { ctx := c.ctx, slot := c.slot, eng := 0, status := status, fault := f, desc := c.descAddr, index := row, record := copyRecord c status f row
    writer := copyWriter m id c (arrivalRels m id c) }

/-- The counted bytes of a row whose arrival a release has held back: a whole row's, or what a stop has left of the last. -/
def Copy.heldRow (c : Copy) : Nat := min (cNel c.desc) (c.delivered - c.told * cNel c.desc)

/-- `COPY_END` (R161, R168): after the last row or a stop, the fold, the arrivals that a release has held back, row by row, the record and the event. -/
def execCopyEnd (copy : Nat) (s : State) : Out :=
  .next (
    match mget s.m.copies copy with
    | none => s
    | some c =>
      if c.held || (c.stop.isNone && c.row < cNrow c.desc) then s
      else
        let close := fun (m : Mach) (st : Nat × FaultInfo × Nat) =>
          if !releaseReady m copy c then s.withM { m with copies := mset m.copies copy { c with stop := some st } }
          else if c.rel.isSome ∧ !(copyBars c).isEmpty ∧ c.told < c.row then
            let m := copyArrive m c c.heldRow (st.1 ≠ 0 && c.row == c.told + 1) (arrivalRels m copy c)
            s.withM { m with copies := mset m.copies copy { c with stop := some st, told := c.told + 1 } }
          else
            let m := if c.rel.isSome ∧ c.row = 0 then copyArrive m c 0 (st.1 ≠ 0) (arrivalRels m copy c) else m
            let r := engineClose s m (c.ends m copy st.1 st.2.1 st.2.2)
            if r.waits then s.withM (keepTouches s.m r.m) else s.withM (releaseCluster { r.m with copies := mdel r.m.copies copy } c.ctx c.core)
        match c.stop with
        | some st => close s.m st
        | none =>
          if cMxv c.desc then
            match copyFold s s.m copy c with
            | .ok _ m => s.withM { m with copies := mset m.copies copy { c with stop := some (0, plainFault .addr, 0) } }
            | .wait m => s.withM m
            | .fault f m => s.withM { (if c.rel.isSome then m else copyArrive m c 0 true) with copies := mset m.copies copy { c with stop := some (2, f, cNrow c.desc - 1) } }
          else close s.m (0, plainFault .addr, 0))

end Sys2Proof.Machine
end

