-- ==== Sys2Proof/Machine/Gather.lean ====
section
/-! DEFINITION. The gather engine (R119 to R127): the descriptor and its checks, a bag's reduction, its output, the end. -/

namespace Sys2Proof.Machine

/-! The descriptor (R119). -/

def gIxb (d : List Byte) : Nat := dField d 0 8
def gBob (d : List Byte) : Nat := dField d 8 8
def gTb (d : List Byte) : Nat := dField d 16 8
def gNbag (d : List Byte) : Nat := dField d 24 4
def gNrow (d : List Byte) : Nat := dField d 28 4
def gRlen (d : List Byte) : Nat := dField d 32 2
def gBsz (d : List Byte) : Nat := dField d 34 2
def gRstr (d : List Byte) : Nat := dField d 36 4
def gDst (d : List Byte) : Nat := dField d 40 3
def gDstr (d : List Byte) : Nat := dField d 44 4
def gBar (d : List Byte) : Nat := dField d 48 3
def gBv (d : List Byte) : Bool := dField d 51 1 / 128 == 1
def gCra (d : List Byte) : Nat := dField d 56 8

/-- The parts of FN (R120): reduction, duplicates dropped, faulting range, index order, `.b` rows. -/
def fnRed (fn : Nat) : Nat := fn % 4
def fnFirst (fn : Nat) : Bool := natBits fn 2 1 == 1
def fnFlt (fn : Nat) : Bool := natBits fn 3 1 == 1
def fnIx (fn : Nat) : Bool := natBits fn 4 1 == 1
def fnB (fn : Nat) : Bool := natBits fn 5 1 == 1

/-- The bytes of a row element, and OB: the output bytes per bag. -/
def gElt (fn : Nat) : Nat := if fnB fn then 2 else 4
def gOb (fn : Nat) (d : List Byte) : Nat := gRlen d * (if fnRed fn = 0 then gElt fn else 4)

/-- The reserved fields, limits and alignments of R119. -/
def gatherReserved (d : List Byte) (fn : Nat) (queue : Bool) : Bool :=
  dField d 43 1 ≠ 0 || dField d 51 1 % 128 ≠ 0 || dField d 52 4 ≠ 0
    || gNbag d < 1 || 2 ^ 24 < gNbag d || gRlen d < 1 || 1024 < gRlen d
    || (if gBob d = 0 then gBsz d < 1 else gBsz d ≠ 0) || (fnRed fn = 0 && (gBob d ≠ 0 || gBsz d ≠ 1))
    || gRstr d % 64 ≠ 0 || gRstr d < gRlen d * gElt fn || gIxb d % 4 ≠ 0 || gBob d % 4 ≠ 0 || gTb d % 64 ≠ 0
    || gDst d % 4 ≠ 0 || (queue && gDst d ≠ 0) || gDstr d % 4 ≠ 0 || gDstr d < gOb fn d || gCra d % 32 ≠ 0 || (gBv d && gBar d % 16 ≠ 0)

/-- The range checks of R121. -/
def gatherRange (m : Mach) (ctx core : Nat) (d : List Byte) (fn : Nat) (queue : Bool) : Option FaultInfo :=
  match (if queue then none else rowsInSpace m ctx core (gDst d) (gDstr d) (gNbag d) (gOb fn d)) with
  | some e => some e
  | none => if gBv d then rowsInSpace m ctx core (gBar d) 0 1 16 else none

/-- FN of a `GATH` from its fields. -/
def gathFn (y w g u : BitVec 1) (r : BitVec 2) : Nat := r.toNat + 4 * u.toNat + 8 * g.toNat + 16 * w.toNat + 32 * y.toNat

/-- Gathers in flight that a core issued. -/
def coreGathers (m : Mach) (core : Nat) : Nat := (m.gathers.filter (fun c => c.2.core == core)).length

/-- `GATH` (R120, R121). DESIGN CHOICE: the queue that D names is checked before the alignment of the descriptor's address; the rules give no order between
R120's `ILLEGAL_OP` and R121's checks (log 106). -/
def execGath (d a : BitVec 8) (y w g u : BitVec 1) (r : BitVec 2) (s : State) : Out :=
  let fn := gathFn y w g u r
  onWord s (fun x => uniEffect s.m x [srcW a] zeroSpec 0 (fun v m x =>
    let va := argPair v 0
    let k := if isQueue d then some (d.toNat - 0x88) else none
    if k.any (fun q => ((m.ctxCore x.w.ctx x.core).queues.getD q .fresh).kind != 2) then .bad (plainFault .illegalOp) m
    else if va.toNat % 64 ≠ 0 then .bad (mkFault .align 0 0 va.toNat) m
    else if !drained m x.w.uid then .hold m x .register
    else
      match readDesc s m x va with
      | .fault f m => .bad f m
      | .wait m => .hold m x .register
      | .ok desc m =>
        if gatherReserved desc fn k.isSome then .bad (plainFault .reservedField) m
        else
          match gatherRange m x.w.ctx x.core desc fn k.isSome with
          | some f => .bad f m
          | none =>
            if 4 ≤ coreGathers m x.core then .hold m x .room
            else
              let (id, m) := m.newId
              let e : Gather := { ctx := x.w.ctx, core := x.core, slot := x.w.homeSlot, warp := x.w.uid, grid := gridOf x.w, desc := desc, descAddr := va
                                  fn := fn, queue := k, since := id, bag := 0, skip := 0, dups := 0, empty := 0, out := [], ahead := [], early := []
                                  last := (0, 0, 0), stop := none }
              .ok { m with gathers := mset m.gathers id e } x []))

/-! A bag (R122, R123). -/

/-- What reading a bag has come to. -/
structure Bag where
  rows : List (List Nat)         -- contributions, as FP32 patterns (or stored elements for `.none`)
  seen : List Nat
  skip : Nat
  dups : Nat
  stop : Option (Nat × FaultInfo × Nat)
  waits : Bool
  m    : Mach
  deriving DecidableEq, Repr

/-- A row's elements: `.b` widened to FP32 for a reduction. -/
def rowValues (fn : Nat) (bs : List Byte) : List Nat :=
  let es := chunks (gElt fn) (bs.length / gElt fn) bs
  if fnRed fn ≠ 0 ∧ fnB fn then es.map (· * 65536) else es

/-- Bytes of memory as a gather reads them: those that it has read ahead as it has read them (R311). -/
def Gather.read (g : Gather) (s : State) (m : Mach) (va : DWord) (n : Nat) (acc : Access) : Res (List Byte) :=
  (readMem s m g.ctx g.core va n acc true).next (fun bs m => .ok (bs.zipIdx.map (fun (b, i) => mgetD g.ahead (va.toNat + i) b)) m)

/-- The contributions of list positions `k` up, `n` of them. -/
def readBag (s : State) (g : Gather) : Nat → Nat → Bag → Bag
  | 0, _, b => b
  | n + 1, k, b =>
    match g.read s b.m (BitVec.ofNat 64 (gIxb g.desc + 4 * k)) 4 .read with
    | .wait m => { b with waits := true, m := m }
    | .fault f m => { b with stop := some (2, f, g.bag), m := m }
    | .ok bs m =>
      let x := bytesToNat bs
      let b := { b with m := m }
      if gNrow g.desc ≤ x then
        if fnFlt g.fn then { b with stop := some (1, plainFault .gathRange, k) } else readBag s g n (k + 1) { b with skip := b.skip + 1 }
      else if fnFirst g.fn && b.seen.contains x then readBag s g n (k + 1) { b with dups := b.dups + 1 }
      else
        match g.read s b.m (BitVec.ofNat 64 (gTb g.desc + x * gRstr g.desc)) (gRlen g.desc * gElt g.fn) .row with
        | .wait m => { b with waits := true, m := m }
        | .fault f m => { b with stop := some (2, f, g.bag), m := m }
        | .ok row m => readBag s g n (k + 1) { b with rows := b.rows ++ [rowValues g.fn row], seen := x :: b.seen, m := m }

/-- The sum of values in some order and parenthesisation, which the spec leaves open (R123): pairs are picked by free values. -/
def chSum : Nat → Nat → List Nat → Nat
  | 0, _, vs => vs.headD 0
  | k + 1, free, vs =>
    match vs with
    | [] => 0
    | [v] => v
    | _ =>
      let i := Config.freePick free % vs.length
      let rest := vs.eraseIdx i
      let j := Config.freePick (free + 1) % rest.length
      chSum k (free + 2) (fp32.add (vs.getD i 0) (rest.getD j 0) :: rest.eraseIdx j)

/-- The maximum of values (R123): a NaN gives the canonical NaN, +0 beats −0. -/
def maxSum (vs : List Nat) : Nat :=
  if vs.any (fun v => fp32.decode v = .nan) then fp32.nanBits
  else match vs with | [] => 0 | v :: rest => rest.foldl (fp32.minmax true) v

/-- A quotient by a count, rounded once (R122). -/
def meanOf (sum cnt : Nat) : Nat := match fp32.decode sum with | .fin neg mag e => fp32.roundRat neg mag cnt e | x => fp32.round x

/-- A value with a NaN as the canonical one (R15). -/
def canonNan (v : Nat) : Nat := if fp32.decode v = .nan then fp32.nanBits else v

/-- The reduction of one column of a bag that is not empty; a NaN result is canonical, that of a single contribution too (R123). -/
def reduceColumn (fn free : Nat) (vs : List Nat) : Nat :=
  let sum := if fnIx fn then (match vs with | [] => 0 | v :: rest => rest.foldl fp32.add v) else chSum vs.length free vs
  match fnRed fn with
  | 1 => canonNan sum
  | 2 => meanOf sum vs.length
  | _ => maxSum vs

/-- The output bytes of a bag, and how many free values it used. -/
def bagBytes (g : Gather) (free : Nat) (rows : List (List Nat)) : List Byte × Nat :=
  let cols := List.range (gRlen g.desc)
  if rows.isEmpty then (List.replicate (gOb g.fn g.desc) 0, 0)
  else if fnRed g.fn = 0 then (cols.flatMap (fun j => natToBytes (gElt g.fn) ((rows.headD []).getD j 0)), 0)
  else
    let step := 2 * rows.length
    (cols.flatMap (fun j => natToBytes 4 (reduceColumn g.fn (free + j * step) (rows.map (fun r => r.getD j 0)))), cols.length * step)

/-- The output of a bag as queue entries (R124): an odd last 16-bit element leaves the high half 0. -/
def queueWords (bs : List Byte) : List Word := (chunks 4 ((bs.length + 3) / 4) bs).map (BitVec.ofNat 32)

/-- The first and last list positions of a bag, read from the offset list when there is one. -/
def bagBounds (s : State) (g : Gather) (m : Mach) : Res (Nat × Nat) :=
  if gBob g.desc = 0 then .ok (g.bag * gBsz g.desc, g.bag * gBsz g.desc + gBsz g.desc) m
  else
    (g.read s m (BitVec.ofNat 64 (gBob g.desc + 4 * g.bag)) 4 .read).next (fun lo m =>
      (g.read s m (BitVec.ofNat 64 (gBob g.desc + 4 * g.bag + 4)) 4 .read).next (fun hi m => .ok (bytesToNat lo, bytesToNat hi) m))

/-- The barrier object of a gather: an arrival of `n` bytes. -/
def gatherArrive (m : Mach) (g : Gather) (n : Nat) (stopped : Bool) : Mach :=
  if gBv g.desc then barArrive m g.ctx (peerCore g.core (natBits (gBar g.desc) 21 3)) (gBar g.desc % 2 ^ 21) n stopped else m

/-- Whether the next bag of a gather may be read. -/
def Gather.ready (g : Gather) (m : Mach) : Bool := !(g.stop.isSome || gNbag g.desc ≤ g.bag || !g.out.isEmpty || !commandReady m g.warp g.since)

/-- What reading and reducing the next bag comes to. -/
inductive Bagged where
  | stop (st : Nat × FaultInfo × Nat) (m : Mach)
  | wait (m : Mach)
  | made (g : Gather) (bs : List Byte) (m : Mach)   -- the gather past it, and its output
  deriving Repr

/-- The next bag read and reduced (R122, R123). -/
def Gather.reduce (g : Gather) (s : State) : Bagged :=
  match bagBounds s g s.m with
  | .wait m => .wait m
  | .fault f m => .stop (2, f, g.bag) m
  | .ok (lo, hi) m =>
    if hi < lo then .stop (3, plainFault .addr, g.bag) m
    else
      let b := readBag s g (hi - lo) lo { rows := [], seen := [], skip := 0, dups := 0, stop := none, waits := false, m := m }
      if b.waits then .wait b.m
      else
        match b.stop with
        | some st => .stop st b.m
        | none =>
          let (bs, used) := bagBytes g b.m.free b.rows
          let none_ := if b.rows.isEmpty then 1 else 0
          .made { g with bag := g.bag + 1, skip := g.skip + b.skip, dups := g.dups + b.dups, empty := g.empty + none_, last := (b.skip, b.dups, none_), ahead := [] }
            bs { b.m with free := b.m.free + used }

/-- Where in scratchpad the output of the bag of a number goes: core and offset. -/
def Gather.place (g : Gather) (bag : Nat) : Nat × Nat := (peerCore g.core (natBits (gDst g.desc) 21 3), gDst g.desc % 2 ^ 21 + bag * gDstr g.desc)

/-- Bag output written to scratchpad, and its arrival. -/
def Gather.deliver (g : Gather) (m : Mach) (bag : Nat) (bs : List (Option Byte)) : Mach :=
  let (core, off) := g.place bag
  gatherArrive (spadWriteNamed m g.ctx core off bs) g (gOb g.fn g.desc) false

/-- The bytes that the words of `out` hold, none for those already written. -/
def Gather.unwritten (g : Gather) : List (Option Byte) :=
  (g.out.zipIdx.flatMap (fun (v, i) => (natToBytes 4 v.toNat).map (fun b => if g.early.contains i then none else some b))).take (gOb g.fn g.desc)

/-- `GATHER_BAG` (R122, R124): the next bag, written to scratchpad or made ready for the queue; or the rest of a bag of which the engine has written some words.
DESIGN CHOICE: what the engine has not read ahead of a bag it reads in one step (log 107). -/
def execGatherBag (gather : Nat) (s : State) : Out :=
  .next (
    match mget s.m.gathers gather with
    | none => s
    | some g =>
      if g.queue.isNone && !g.out.isEmpty then
        s.withM { g.deliver s.m (g.bag - 1) g.unwritten with gathers := mset s.m.gathers gather { g with out := [], early := [] } }
      else if !g.ready s.m then s
      else
        match g.reduce s with
        | .wait m => s.withM m
        | .stop st m => s.withM { (gatherArrive m g 0 true) with gathers := mset m.gathers gather { g with stop := some st } }
        | .made g' bs m =>
          match g.queue with
          | some _ => s.withM { m with gathers := mset m.gathers gather { g' with out := queueWords bs } }
          | none => s.withM { g.deliver m g.bag (bs.map some) with gathers := mset m.gathers gather g' })

/-- A WORD OF THE NEXT BAG'S LISTS OR ROWS read ahead of the others (R311, R126), by its address / 4. -/
def gatherReadAhead (s : State) (id word : Nat) (g : Gather) : State :=
  if !g.ready s.m || (mget g.ahead (4 * word)).isSome then s
  else
    match readMem s s.m g.ctx g.core (BitVec.ofNat 64 (4 * word)) 4 .read true with
    | .ok bs m => s.withM { m with gathers := mset m.gathers id { g with ahead := bs.zipIdx.foldl (fun a (b, i) => mset a (4 * word + i) b) g.ahead } }
    | _ => s

/-- A WORD OF A BAG'S OUTPUT written to scratchpad ahead of the others (R311): the bag is read and reduced first. -/
def gatherWriteAhead (s : State) (id word : Nat) (g : Gather) : State :=
  if g.queue.isSome then s
  else
    let made : Option (Gather × Mach) :=
      if !g.out.isEmpty then some (g, s.m)
      else if !g.ready s.m then none
      else match g.reduce s with | .made g' bs m => some ({ g' with out := queueWords bs }, m) | _ => none
    match made with
    | none => s
    | some (g, m) =>
      if g.out.length ≤ word || g.early.contains word then s
      else
        let (core, off) := g.place (g.bag - 1)
        let bs := ((g.unwritten.drop (4 * word)).take 4)
        s.withM { spadWriteNamed m g.ctx core (off + 4 * word) bs with gathers := mset m.gathers id { g with early := g.early ++ [word] } }

/-- A copy or a gather reads a word ahead of the rest of its row or bag (R311). -/
def engineRead (s : State) (id word : Nat) : State :=
  match mget s.m.copies id, mget s.m.gathers id with
  | some c, _ => copyReadAhead s id word c
  | none, some g => gatherReadAhead s id word g
  | none, none => s

/-- It writes a word ahead of the rest. -/
def engineWrite (s : State) (id word : Nat) : State :=
  match mget s.m.copies id, mget s.m.gathers id with
  | some c, _ => copyWriteAhead s id word c
  | none, some g => gatherWriteAhead s id word g
  | none, none => s

/-- `GATHER_QUEUE_PUSH` (R124, R197): the next entry, once the queue has room and earlier gathers to it are done; the engine never drops one. -/
def execGatherQueuePush (gather : Nat) (s : State) : Out :=
  .next (
    match mget s.m.gathers gather with
    | none => s
    | some g =>
      match g.queue, g.out with
      | some k, v :: rest =>
        let cc := s.m.ctxCore g.ctx g.core
        let q := cc.queues.getD k .fresh
        let earlier := s.m.gathers.any (fun e => e.1 < gather && e.2.core == g.core && e.2.ctx == g.ctx && e.2.queue == some k)
        if q.kind = 2 ∧ q.entries.length < 32 ∧ !earlier then
          let m := s.m.setCtxCore g.ctx g.core (pushQueue cc k v)
          let m := if rest.isEmpty then gatherArrive m g (gOb g.fn g.desc) false else m
          s.withM { m with gathers := mset m.gathers gather { g with out := rest } }
        else s
      | _, _ => s)

/-- The completion record of a gather (R125): SKIP, DUPS, BAGS and EMPTY count the bags written, so that of an abandoned gather leaves out the bag whose words the queue or
the scratchpad has still to take. DESIGN CHOICE: of a list position, SKIP or DUPS above 2^32 - 1 the record keeps the low 32 bits; R125 gives the fields 32 bits and is silent on
more (log 119). -/
def gatherRecord (g : Gather) (status : Nat) (f : FaultInfo) (index : Nat) : DWord × List Byte :=
  let (bags, skip, dups, empty) := if g.out.isEmpty then (0, 0, 0, 0) else (1, g.last)
  (BitVec.ofNat 64 (gCra g.desc),
    natToBytes 4 (2 ^ 31 + status) ++ natToBytes 4 (g.skip - skip) ++ natToBytes 4 (g.dups - dups) ++ natToBytes 4 (g.bag - bags)
      ++ natToBytes 4 (g.empty - empty)
      ++ natToBytes 4 (if 1 ≤ status ∧ status ≤ 3 then index else 0) ++ natToBytes 4 (fcause status f) ++ natToBytes 4 0)

/-- How a gather ends with a status. -/
def Gather.ends (g : Gather) (m : Mach) (id status : Nat) (f : FaultInfo) (index : Nat) : EngineEnd :=
  { ctx := g.ctx, slot := g.slot, eng := 1, status := status, fault := f, desc := g.descAddr, index := index, record := some (gatherRecord g status f index)
    writer := engineWriter m g.ctx g.core g.warp id (plainRels m g.ctx g.core g.warp id) }

/-- `GATHER_END` (R125). -/
def execGatherEnd (gather : Nat) (s : State) : Out :=
  .next (
    match mget s.m.gathers gather with
    | none => s
    | some g =>
      if (g.stop.isNone && g.bag < gNbag g.desc) || !g.out.isEmpty then s
      else
        let (status, f, index) := g.stop.getD (0, plainFault .addr, 0)
        let r := engineClose s s.m (g.ends s.m gather status f index)
        if r.waits then s.withM (keepTouches s.m r.m) else s.withM (releaseCluster { r.m with gathers := mdel r.m.gathers gather } g.ctx g.core))

end Sys2Proof.Machine
end

