-- ==== Sys2Proof/Machine/Sweep.lean ====
section
/-! DEFINITION. Tile sweeps (R232 to R238): iterator records, the checks, the element operations, and the sweep in sweep order, one element a
turn. -/

namespace Sys2Proof.Machine

/-- An iterator record (R232): the 96-bit layout word and the extent word. -/
structure SweepRec where
  layout : Nat
  extent : Nat
  deriving DecidableEq, Repr

def SweepRec.off (r : SweepRec) : Nat := natBits r.layout 0 21
def SweepRec.csel (r : SweepRec) : Nat := natBits r.layout 21 3
def SweepRec.stride (r : SweepRec) (k : Nat) : Int := toSigned 20 (natBits r.layout (24 + 20 * k) 20)
def SweepRec.perm (r : SweepRec) : Nat := natBits r.layout 84 4
def SweepRec.bc (r : SweepRec) (k : Nat) : Bool := natBits r.layout (88 + k) 1 == 1
def SweepRec.ext (r : SweepRec) (k : Nat) : Nat := natBits r.extent (10 * k) 10

/-- The record in four registers of a lane. -/
def sweepRec (w : Warp) (reg lane : Nat) : SweepRec :=
  let v := fun i => (w.regLane (reg + i) lane).toNat
  { layout := v 0 + v 1 * 2 ^ 32 + v 2 * 2 ^ 64, extent := v 3 }

/-- The bytes of an element type (R234). -/
def sweepBytes (t : Nat) : Nat := match t with | 0 | 3 | 4 => 4 | 1 | 2 => 2 | _ => 1

/-- The linear offset of an element, before the permutation (R233). -/
def SweepRec.linear (r : SweepRec) (i : List Nat) : Int :=
  (List.range 3).foldl (fun (o : Int) k => if r.bc k then o else o + (i.getD k 0 : Nat) * r.stride k) (r.off : Int)

/-- The offset of an element (R233). -/
def SweepRec.elem (r : SweepRec) (i : List Nat) : Nat :=
  let o := (r.linear i).toNat
  if 1 ≤ r.perm ∧ r.perm ≤ 5 then Nat.xor o ((o / 128 % 2 ^ r.perm) * 4) else o

/-- The first index in sweep order, from one on, that lies in the extents (R235): the index itself, or the next row's or plane's first; none past the last. An index
saved under other extents is taken up in the same order (log 61). -/
def sweepFrom (d : SweepRec) (i0 i1 i2 : Nat) : Option (List Nat) :=
  if d.ext 0 = 0 ∨ d.ext 1 = 0 then none
  else if i2 < d.ext 2 ∧ i1 < d.ext 1 ∧ i0 < d.ext 0 then some [i0, i1, i2]
  else if i2 < d.ext 2 ∧ i1 + 1 < d.ext 1 then some [0, i1 + 1, i2]
  else if i2 + 1 < d.ext 2 then some [0, 0, i2 + 1]
  else none

/-- The number of elements of a sweep. -/
def sweepCount (d : SweepRec) : Nat := d.ext 0 * d.ext 1 * d.ext 2

/-- The engine-counter field of an index (R237). -/
def sweepCounter (i : List Nat) : Nat := i.getD 0 0 + i.getD 1 0 * 2 ^ 10 + i.getD 2 0 * 2 ^ 20

/-- Whether a record's corner elements lie in its space (R236 step 4): `d` gives the extents. -/
def sweepInSpace (size bytes : Nat) (r d : SweepRec) : Bool :=
  (List.range 8).all (fun c =>
    let o := r.linear ((List.range 3).map (fun k => if natBits c k 1 = 1 then d.ext k - 1 else 0))
    0 ≤ o && o + bytes ≤ size)

/-- The checks of R236 steps 2 to 4: `d` the destination's record, `a` the source's. -/
def sweepReject (m : Mach) (x : Ex) (t : Nat) (d a : SweepRec) : Option FaultInfo :=
  let reserved := fun (r : SweepRec) => natBits r.layout 91 5 ≠ 0 || natBits r.extent 30 2 ≠ 0 || 6 ≤ r.perm
  let n := sweepBytes t
  let misaligned := fun (r : SweepRec) => r.off % n ≠ 0 || (List.range 3).any (fun k => !r.bc k && r.stride k % (n : Int) ≠ 0)
  if reserved d || reserved a || (List.range 3).any d.bc || (List.range 3).any (fun k => !a.bc k && a.ext k ≠ d.ext k) then some (plainFault .reservedField)
  else if misaligned d then some (mkFault .align 0 0 d.off)
  else if misaligned a then some (mkFault .align 0 0 a.off)
  else if sweepCount d = 0 then none
  else
    let size := fun (r : SweepRec) => spadSize m x.w.ctx (peerCore x.core r.csel)
    if !sweepInSpace (size d) n d d then some (mkFault .spadRange 0 0 (d.off + d.csel * 2 ^ 21))
    else if !sweepInSpace (size a) n a d then some (mkFault .spadRange 0 0 (a.off + a.csel * 2 ^ 21))
    else none

/-- The float type of a sweep's elements. -/
def sweepFloat (t : Nat) : Option Fmt := match t with | 0 => some fp32 | 1 => some fp16 | 2 => some bf16 | _ => none

/-- An integer result in its type: `.s32` and `.n32` wrap, `.s8` and `.n8` saturate (R234). -/
def sweepInt (t : Nat) (v : Int) : Nat :=
  match t with
  | 5 => (clampInt (-128) 127 v % 256).toNat
  | 6 => (clampInt 0 255 v).toNat
  | _ => (v % (2 ^ 32 : Nat)).toNat

/-- The integer an element stands for. -/
def sweepVal (t x : Nat) : Int := match t with | 3 => toSigned 32 x | 5 => toSigned 8 x | _ => x

/-- The element result of an operation: `d` the destination's element, `s` the source's (R234). -/
def sweepOp (op t d k : Nat) : Nat :=
  match sweepFloat t with
  | some f =>
    match op with
    | 0 => k
    | 1 => f.add d k
    | 2 => f.sub d k
    | 3 => f.mul d k
    | 4 => f.minmax false d k
    | 5 => f.minmax true d k
    | 6 => match f.decode k with | .nan => f.nanBits | v => if v.cmp (.fin false 0 0) = some .gt then k else 0
    | 7 => (fexp2 k)
    | 8 => (ftanh k)
    | _ => (frcp k)
  | none =>
    let a := sweepVal t d
    let b := sweepVal t k
    match op with
    | 0 => k
    | 1 => sweepInt t (a + b)
    | 2 => sweepInt t (a - b)
    | 3 => sweepInt t (a * b)
    | 4 => if a < b then d else k
    | 5 => if a < b then k else d
    | _ => if 0 < b then k else 0

/-- One element of a sweep read, computed and written; none when it meets poisoned backing (R236). -/
def sweepElement (m : Mach) (x : Ex) (op t : Nat) (d a : SweepRec) (i : List Nat) : Option Mach :=
  let b := sweepBytes t
  let dc := peerCore x.core d.csel
  let ac := peerCore x.core a.csel
  if spadPoisoned (m.ctxCore x.w.ctx ac) (a.elem i) b || spadPoisoned (m.ctxCore x.w.ctx dc) (d.elem i) b then none
  else
    let (sb, m) := spadRead m x.w.ctx ac (a.elem i) b
    let (db, m) := spadRead m x.w.ctx dc (d.elem i) b
    some (spadWrite m x.w.ctx dc (d.elem i) (natToBytes b (sweepOp op t (bytesToNat db) (bytesToNat sb))))

/-- The saved index from which the sweep at the word continues (R237): where lanes of its group have come back to it. -/
def Ex.sweepSaved (x : Ex) : Option (List Nat) :=
  match x.w.sweep with | some (pc, i, go) => if pc = x.pc ∧ go &&& x.g.lanes ≠ 0 then some i else none | none => none

/-- The warp with a saved index for the sweep at the word, from which its group goes on or not. -/
def Ex.sweepAt (x : Ex) (i : Option (List Nat)) (go : Bool) : Ex := { x with w := { x.w with sweep := i.map (fun i => (x.pc, i, if go then x.g.lanes else 0)) } }

/-- `TSWEEP` (R235 to R237), one element: the warp is held until the last is written. A sweep that a fault stopped, before its first element or in the middle, starts
at its saved index when `RTE` returns to it, and so does one that pre-emption has checkpointed; any other starts at (0, 0, 0). -/
def execTsweep (d a : BitVec 8) (o : BitVec 5) (t : BitVec 3) (s : State) : Out :=
  onWord s (fun x =>
    let hold := fun (m : Mach) (x : Ex) (k : Wait) => m.hold x (if x.r.wait = .sweeping then .sweeping else k)
    match srcReady s.m x true [] ((List.range 4).map (· + d.toNat) ++ (List.range 4).map (· + a.toNat)) with
    | .hold m x k => hold m x k
    | .bad e => deliverAll s.m x e
    | .go =>
      if !drained s.m x.w.uid then hold s.m x .register
      else
        let dr := sweepRec x.w d.toNat x.low
        let ar := sweepRec x.w a.toNat x.low
        match sweepReject s.m x t.toNat dr ar with
        | some f => deliverAll s.m (x.sweepAt x.sweepSaved false) f
        | none =>
          let i := x.sweepSaved.getD [0, 0, 0]
          match sweepFrom dr (i.getD 0 0) (i.getD 1 0) (i.getD 2 0) with
          | none => s.m.advance (x.sweepAt none false)
          | some i =>
            if tileHeld s.m x (peerCore x.core dr.csel) (dr.elem i) (sweepBytes t.toNat) then hold s.m x .register
            else
              match sweepElement s.m x o.toNat t.toNat dr ar i with
              | none => deliverAll s.m (x.sweepAt (some i) false) (mkFault .addr 0 9 (sweepCounter i))
              | some m =>
                match sweepFrom dr (i.getD 0 0 + 1) (i.getD 1 0) (i.getD 2 0) with
                | some j => m.hold (x.sweepAt (some j) true) .sweeping
                | none => m.advance (x.sweepAt none false))

end Sys2Proof.Machine
end

