-- ==== Sys2Proof/Machine/Sched.lean ====
section
/-! DEFINITION. Slices on a core: the cluster state (R428), the Registrar and dispatch (R348, R349), `QBIND` (R197, R198), `SPAWN` (R355 to R357),
`YIELDJ` (R358), `BAR` (R359) and migration (R367 to R370). -/

namespace Sys2Proof.Machine

/-! Levels as slices. -/

/-- The index of the core level of a record. -/
def coreLevel (record : List Byte) : Nat := ((List.range (levelCount record)).find? (fun k => levelDom record k == 3)).getD 0
/-- The slices in one unit of a level at or above the core level; with the number of levels, the slices of the grid. -/
def unitSize (record : List Byte) (k : Nat) : Nat :=
  (List.range k).foldl (fun n j => if coreLevel record ≤ j then n * levelExt record j else n) 1
/-- The level whose units are placed one after another (R344, R347): the outermost level of domain dev or pod; otherwise the level below the
outermost one, or the core level. -/
def placeLevel (record : List Byte) : Nat :=
  let top := levelCount record - 1
  if 6 ≤ levelDom record top then top else max (coreLevel record) (top - 1)
/-- The launch record of a grid. -/
def recordOf (m : Mach) (grid : Nat) : List Byte := (mget m.grids grid).elim (List.replicate 384 0) (·.record)

/-! The Registrar. -/

/-- A slice enqueued at a core with the core's next slice number (R348). -/
def enqueueSlice (m : Mach) (core : Nat) (sl : Slice) : Nat × Mach :=
  let (id, m) := m.newId
  let c := m.core core
  (id, { m with slices := mset m.slices id { sl with core := core, number := c.sliceCount } }.setCore core
    { c with registrar := c.registrar ++ [id], sliceCount := c.sliceCount + 1 })

/-- The free warp slots of a core, ascending. -/
def freeSlots (c : Core) : List Nat := (List.range 32).filter (fun p => (mget c.warps p).isNone)

/-- The queued slices of a core whose contexts run there. -/
def queuedSlices (s : State) (m : Mach) (core : Nat) : List (Nat × Slice) :=
  ((m.core core).registrar.filterMap (fun id => (mget m.slices id).map (fun sl => (id, sl)))).filter (fun e => !s.stopped e.2.ctx core)

/-- Whether a slice comes before another: the earlier deadline, then the lower number (R349). -/
def Slice.before (a b : Slice) : Bool := a.deadline.toNat < b.deadline.toNat || (a.deadline == b.deadline && a.number.toNat < b.number.toNat)

/-- The head slice of a core. -/
def headSlice (s : State) (m : Mach) (core : Nat) : Option (Nat × Slice) :=
  (queuedSlices s m core).foldl (fun best e => match best with | none => some e | some b => if e.2.before b.2 then some e else some b) none

/-- A context's state in the cluster of a core, created or grown for a grid (R428). -/
def openCluster (m : Mach) (ctx core pages : Nat) : Mach :=
  let cl := clusterOf core
  if m.holdsCluster ctx cl then { m with ctxClusters := madj m.ctxClusters (clKey ctx cl) (fun c => { c with pages := max c.pages pages }) }
  else
    { m with ctxClusters := mset m.ctxClusters (clKey ctx cl) { pages := pages, watch := [], freed := false }
             ctxCores := m.ctxCores.filter (fun c => !(c.1 / 512 == ctx && clusterOf (c.1 % 512) == cl)) }

/-- SPADP of a record. -/
def recordPages (record : List Byte) : Nat := dField record 52 2

/-- A warp as dispatch makes it (R349, R180). -/
def Warp.fresh (uid : Nat) (sl : Slice) (id index slot : Nat) : Warp :=
  { uid := uid, ctx := sl.ctx, grid := sl.grid, slice := id, index := index, homeSlot := slot
    threads := (List.range 32).map (fun l => if l < sl.lanes then { Thread.none with status := .running } else .none)
    groups := [Group.at_ (maskOf (List.range sl.lanes)) sl.entry 0]
    regs := (List.range 8).foldl (fun rs k => mput zeroVec rs k (List.replicate 32 (sl.args.getD k 0))) []
    gens := [], spilled := [], away := [], lru := [], pends := [], accstat := 0, termG := 32, termD := 1, gang := none, arrived := 0, barriers := [], levels := []
    replay := [], sweep := none, serial := none, handler := false, hgroups := [], parkRuns := none, budgetDue := 0, ranges := [], displace := false
    lastRun := 0, runs := 0, know := sl.know, seen := [], fenceRel := [], read := [] }

/-- The warps a slice puts into slots: new ones, or those it saved at a yield point, which may find other slots (R358). -/
def sliceToSlots (m : Mach) (id : Nat) (sl : Slice) (slots : List Nat) : List (Nat × Warp) × Mach :=
  if sl.saved.isEmpty then
    (((List.range sl.warps).zip slots).map (fun e => (e.2, Warp.fresh (m.nextId + e.1) sl id e.1 e.2)), { m with nextId := m.nextId + sl.warps })
  else ((slots.zip sl.saved).map (fun e => (e.1, { e.2 with homeSlot := e.1 })), m)

/-- The gangs of a slice formed at dispatch (R344). -/
def formGangs (s : State) (m : Mach) (sl : Slice) (ws : List (Nat × Warp)) : Mach :=
  if sl.perGang = 0 ∨ sl.spawned ∨ !sl.saved.isEmpty then m
  else
    (List.range (sl.warps / sl.perGang)).foldl (fun m g =>
      (formGang s m sl.core sl.ctx ((ws.filter (fun e => e.2.index / sl.perGang == g)).map (fun e => (e.2.uid, e.1)))).2) m

/-- A core with physical registers made free for warps that come to it, where that can be (R181, R183). -/
def roomForWarps (m : Mach) (core : Nat) (ws : List Warp) : Option Mach :=
  match makeRoom 600 m core 64 (ws.foldl (fun n w => n + w.physRegs) 0) with
  | .ok m => some m
  | .wait | .quota => none

/-- A slice's warps put into their slots: the counts of the slice begin, its gangs form (R344), and the dispatch of a spawned slice acquires what its `SPAWN`
released (R357). -/
def placeSliceWarps (s : State) (m : Mach) (id : Nat) (sl : Slice) (ws : List (Nat × Warp)) : Mach :=
  let m := m.adjCore sl.core (fun c =>
    { c with warps := ws.foldl (fun a e => mset a e.1 e.2) c.warps, registrar := c.registrar.filter (· ≠ id)
             pending := c.pending ++ ws.map (fun e => { pos := e.1, ready := 0 }) })
  let sl' := if sl.saved.isEmpty then { sl with budcnt := sl.budget, expired := false, left := sl.warps } else sl
  let m := { m with slices := mset m.slices id { sl' with dispatched := true, saved := [] }
                    grids := madj m.grids sl.grid (fun g => { g with dies := if g.dies.contains (dieOf sl.core) then g.dies else g.dies ++ [dieOf sl.core] }) }
  let m := if sl.spawned ∧ sl.saved.isEmpty then acquireIds (dropL1 m sl.core) sl.core sl.know else m
  formGangs s m sl ws

/-- DISPATCH of a slice on its core (R349, R428): the cluster state is created or grown, and the warps take slots and enter the pending set, once their registers
find room. -/
def dispatchSlice (s : State) (m : Mach) (id : Nat) : Mach :=
  match mget m.slices id with
  | none => m
  | some sl =>
    let (ws, m') := sliceToSlots (openCluster m sl.ctx sl.core (recordPages (recordOf m sl.grid))) id sl (freeSlots (m.core sl.core))
    match roomForWarps m' sl.core (ws.map (·.2)) with
    | some m' => placeSliceWarps s m' id sl ws
    | none => m

/-- Whether a boundary-mode copy in flight on a die holds back a grid that has not begun there (R179). -/
def boundaryHolds (m : Mach) (grid core : Nat) : Bool :=
  !((mget m.grids grid).any (fun g => g.dies.contains (dieOf core))) && m.copies.any (fun c => cDk c.2.desc == 2 && dieOf c.2.core == dieOf core)

/-- `SLICE_DISPATCH` (R349): the head slice dispatches when W slots are free; no later slice passes it. -/
def execSliceDispatch (core : Nat) (s : State) : Out :=
  .next (
    match headSlice s s.m core with
    | none => s
    | some (id, sl) =>
      if sl.warps ≤ (freeSlots (s.m.core core)).length && !boundaryHolds s.m sl.grid core then s.withM (dispatchSlice s s.m id) else s)

/-! `QBIND`. -/

/-- The port of a KIND and its argument, if it is one (R198). -/
def queuePort (kind : Nat) (a : Word) : Option (Nat × Nat) :=
  match kind with
  | 2 => some (2, 0)
  | 3 | 4 => some (kind, if a.getLsbD 5 then 32 else a.toNat % 32)
  | 5 => some (5, a.toNat % 65536)
  | _ => none

/-- A queue unbound and emptied. An entry that a waiting word has read stays until that word takes effect (R72). -/
def Queue.emptied (p : Queue) : Queue := { entries := p.entries.take p.readers.length, kind := 0, arg := 0, drops := 0, readers := p.readers }

/-- The queues of a core after `q` is bound: another queue that held the port is unbound and emptied (R198). -/
def bindQueue (qs : List Queue) (q kind : Nat) (a : Word) : List Queue :=
  (List.range qs.length).map (fun i =>
    let p := qs.getD i .fresh
    if i = q then { p.emptied with kind := kind, arg := a }
    else if (queuePort kind a).isSome ∧ queuePort p.kind p.arg = queuePort kind a then p.emptied
    else p)

/-- `QBIND` (R198, R199): after the warp's earlier pops of the queue. -/
def execQbind (d a : BitVec 8) (k q : BitVec 3) (s : State) : Out :=
  let i := q.toNat
  onWord s (fun x => uniEffect s.m x [srcI a] d 1 (fun v m x =>
    let cc := m.ctxCore x.w.ctx x.core
    let old := cc.queues.getD i .fresh
    if x.w.pends.any (fun p => p.kind == .queueFed i) then .hold m x .room
    else
      let popped := if isQueue a ∧ a.toNat - 0x88 = i then 1 else 0
      let n := min (old.entries.length - old.readers.length - popped + old.drops.toNat) 0xFFFFFFFF
      .ok (m.setCtxCore x.w.ctx x.core { cc with queues := bindQueue cc.queues i k.toNat (if k.toNat < 3 then 0 else arg v 0) }) x [BitVec.ofNat 32 n]))

/-! `SPAWN`. -/

def spEntry (d : List Byte) : Nat := dField d 0 8
def spCore (d : List Byte) : Nat := dField d 54 2

/-- The checks of R356 on a descriptor: `target` is the core it names. -/
def spawnReserved (s : State) (ctx : Nat) (d : List Byte) (target : Nat) : Bool :=
  2 ^ 48 ≤ spEntry d || spEntry d % 4 ≠ 0 || natBits (spCore d) 9 6 ≠ 0 || dField d 52 1 < 1 || 32 < dField d 52 1 || dField d 53 1 < 1 || 32 < dField d 53 1
    || dField d 56 8 % 4 ≠ 0 || 143 < spCore d % 256 || (natBits (spCore d) 15 1 = 1 && !s.coreInPartition ctx target)

/-- The slice that a descriptor describes (R355, R356). -/
def spawnedSlice (d : List Byte) (grid ctx : Nat) (parent : DWord) (know : List Nat) : Slice :=
  let dl : DWord := BitVec.ofNat 64 (dField d 40 8)
  { grid := grid, ctx := ctx, core := 0, number := 0, entry := BitVec.ofNat 48 (spEntry d), args := (List.range 8).map (fun i => BitVec.ofNat 32 (dField d (8 + 4 * i) 4))
    deadline := if dl = 0 then parent else dl, budget := BitVec.ofNat 32 (dField d 48 4), budcnt := BitVec.ofNat 32 (dField d 48 4)
    lanes := dField d 53 1, warps := dField d 52 1, perGang := 0, path := [], unit := [], spawned := true, cwa := BitVec.ofNat 64 (dField d 56 8)
    dispatched := false, left := dField d 52 1, saved := [], expired := false, know := know }

/-- `SPAWN` (R356, R357): a release at `.dev`, so the warp's stores are performed first. -/
def execSpawn (d a : BitVec 8) (s : State) : Out :=
  onWord s (fun x => uniEffect s.m x [srcW a] d 1 (fun v m x =>
    let va := argPair v 0
    if va.toNat % 64 ≠ 0 then .bad (mkFault .align 0 0 va.toNat) m
    else if !drained m x.w.uid then .hold m x .register
    else
      match readMem s m x.w.ctx x.core va 64 with
      | .fault f m => .bad f m
      | .wait m => .hold m x .register
      | .ok desc m =>
        let named := coreNamed (s.ctx x.w.ctx) (natBits (spCore desc) 8 1 * 144 + spCore desc % 256)
        if spawnReserved s x.w.ctx desc named then .bad (plainFault .reservedField) m
        else
          let target := if natBits (spCore desc) 15 1 = 1 then named else x.core
          if 64 ≤ (m.core target).registrar.length then .ok m x [0]
          else
            let parent := (sliceOf m x.w).elim 0 (·.deadline)
            .ok (enqueueSlice m target (spawnedSlice desc x.w.grid x.w.ctx parent (x.w.history m))).2 x [1]))

/-! The warps of a slice. -/

/-- Every warp changed, in its position and in saved images. -/
def adjAllWarps (m : Mach) (f : Warp → Warp) : Mach :=
  { m with cores := m.cores.map (fun c => (c.1, { c.2 with warps := c.2.warps.map (fun e => (e.1, f e.2)) }))
           saved := m.saved.map (fun e => (e.1, e.2.map (fun sw => { sw with warp := f sw.warp }))) }

/-- The warps of a slice, resident or saved by pre-emption. -/
def sliceWarps (m : Mach) (id : Nat) : List Warp :=
  (m.allWarps.map (·.2.2) ++ (m.saved.flatMap (·.2)).map (·.warp)).filter (fun w => w.slice == id)

/-- A group that leaves the word it waits at (`p`) for the next one. -/
def passWait (p : Wait → Bool) (g : Group) : Group :=
  match g.run with
  | some r => if p r.wait then { g with run := some { r with pos := r.pos + 1, wait := .none, desc := [] } } else g
  | none => g

/-- The groups of a warp that wait at a word (`p`) sent on. -/
def Warp.passWaits (p : Wait → Bool) (w : Warp) : Warp := { w with groups := w.groups.map (passWait p), hgroups := w.hgroups.map (passWait p) }

/-! `BAR`. -/

/-- The lanes of a warp that wait at a barrier of a level, by group, with their masks. -/
def barWaits (w : Warp) (k : Nat) : List (Word × Word) :=
  (w.groups ++ w.hgroups).filterMap (fun g =>
    match g.run with
    | some r => (match r.wait with | .bar j _ mask => if j = k then some (g.lanes, mask) else none | _ => none)
    | none => none)

/-- Whether a warp has arrived at its barrier of a level (R359). -/
def barArrived (w : Warp) (k : Nat) : Bool :=
  match barWaits w k with
  | [] => false
  | (l, mask) :: rest => (maskLanes mask).all (fun i => w.exited i || ((l, mask) :: rest).any (fun e => inMask e.1 i))

/-- The warps of the unit of level `k` that holds a warp, those that have ended left out; none while some slice of the unit is not dispatched. A
spawned slice is a unit of its own at every level from gang up. -/
def barUnit (m : Mach) (w : Warp) (k : Nat) : Option (List Warp) :=
  match sliceOf m w with
  | none => none
  | some sl =>
    let record := recordOf m w.grid
    let mine := sliceWarps m w.slice
    match levelDom record k with
    | 1 => some (mine.filter (fun v => v.uid == w.uid))
    | 2 => some (if sl.spawned then mine else mine.filter (fun v => v.index / sl.perGang == w.index / sl.perGang))
    | _ =>
      if sl.spawned ∨ levelDom record k = 3 then some mine
      else
        let u := sl.unit.getD k 0
        let slices := m.slices.filter (fun e => e.2.grid == sl.grid && !e.2.spawned && e.2.unit.getD k 0 == u)
        let placed := (mget m.grids sl.grid).elim 0 (·.placed) * unitSize record (placeLevel record)
        if (u + 1) * unitSize record k ≤ placed && slices.all (fun e => e.2.dispatched) then some (slices.flatMap (fun e => sliceWarps m e.1)) else none

/-- Whether a wait is at a barrier of a level. -/
def Wait.atBar (k : Nat) : Wait → Bool | .bar j _ _ => j == k | _ => false

/-- The groups of a warp that wait at a barrier of a level may go on. -/
def passBar (k : Nat) (w : Warp) : Warp :=
  let f := fun (g : Group) => match g.run with | some r => if r.wait.atBar k then { g with run := some { r with wait := .released } } else g | none => g
  { w with groups := w.groups.map f, hgroups := w.hgroups.map f, barriers := mset w.barriers k (mgetD w.barriers k 0 + 1) }

/-- What a barrier at a scope orders among the warps that take part (R359, R307): every write that happens before it happens before what follows it, and at a scope
wider than `.core` each participant's core reads afresh. -/
def barOrder (m : Mach) (us : List Warp) (sc : Nat) : Mach :=
  let ids := (us.flatMap (fun u => u.history m)).eraseDups
  let isMember := fun (v : Warp) => us.any (fun u => u.uid == v.uid)
  let m := if 5 ≤ sc then settleLate m (fun w => ids.contains w.id) else m
  let m := adjAllWarps m (fun v => if isMember v then { v with know := stillLate m ids } else v)
  if wideScope sc then ((m.allWarps.filter (fun e => isMember e.2.2)).map (·.1)).eraseDups.foldl dropL1 m else m

/-- The barrier of level `k` that a warp waits at, completed when every warp of its unit has arrived (R359): every arrived thread goes on. -/
def barSettle (m : Mach) (w : Warp) (k : Nat) : Mach :=
  match barUnit m w k with
  | none => m
  | some us =>
    if us.all (barArrived · k) then
      adjAllWarps (barOrder m us (levelScope (recordOf m w.grid) k)) (fun v => if us.any (fun u => u.uid == v.uid) then passBar k v else v)
    else m

/-- The groups of a warp that wait at a barrier of a level refused with `SYNC_MASK` (R359). -/
def refuseBar (k : Nat) (w : Warp) : Warp :=
  let f := fun (g : Group) =>
    match g.run with
    | some r => (match r.wait with
      | .bar j _ mask => if j = k then { g with run := some { r with wait := .refused (mkFault .syncMask 0 0 mask.toNat) } } else g
      | _ => g)
    | none => g
  { w with groups := w.groups.map f, hgroups := w.hgroups.map f }

/-- `BAR` (R359). The arrival is a release, so the warp's stores are performed first. A waiting group keeps the claim on its source, and takes it when it goes on:
a word that faults takes none (R72). -/
def execBar (a : BitVec 8) (k : BitVec 3) (s : State) : Out :=
  let lv := k.toNat
  onWord s (fun x =>
    match x.r.wait with
    | .bar .. => barSettle s.m x.warp lv
    | .released => completeUni s.m x [srcI a] zeroSpec 0 []
    | _ =>
      match srcReady s.m x true [srcI a] with
      | .hold m x k => m.hold x k
      | .bad e => deliverAll s.m x e
      | .go =>
        let record := gridRecord s.m x.w
        let cc := s.m.ctxCore x.w.ctx x.core
        let mask : Word := (srcValue cc x (srcI a) 0 x.low).setWidth 32
        let dom := levelDom record lv
        if levelCount record ≤ lv ∨ dom = 0 ∨ 6 ≤ dom then deliverAll s.m x (plainFault .illegalOp)
        else if x.g.lanes &&& ~~~mask ≠ 0 then deliverAll s.m x (mkFault .selfMask 0 0 mask.toNat)
        else if !drained s.m x.w.uid then s.m.hold x .blocking
        else if (barWaits x.w lv).any (fun e => e.2 ≠ mask) then deliverAll s.m { x with w := refuseBar lv x.w } (mkFault .syncMask 0 0 mask.toNat)
        else barSettle ((claimSources s.m x [srcI a]).hold x (.bar lv (mgetD x.w.barriers lv 0) mask)) x.w lv)

/-! `YIELDJ`. -/

/-- Whether every thread of a warp that has not exited waits at a `YIELDJ`; a parked thread does not. -/
def yielded (w : Warp) : Bool :=
  (List.range 32).all (fun l => w.exited l || (w.groups ++ w.hgroups).any (fun g => inMask g.lanes l && g.run.any (fun r => r.wait == .yield)))

/-- Whether a slice may be saved at its yield point (R358): its warps are in slots of its core, and hold no gang, lease, level or open declaration. -/
def mayYield (m : Mach) (sl : Slice) (ws : List Warp) : Bool :=
  ws.all (fun w =>
    (m.core sl.core).warps.any (fun e => e.1 < 32 && e.2.uid == w.uid) && w.gang.isNone && !(w.pends.any Pend.leased) && w.levels.isEmpty
      && !(m.chains.any (fun c => c.2.decls.any (fun d => d.warp == w.uid && d.isOpen))))

/-- The slice's warps saved and the slice enqueued again with its deadline and number; its slots are free. -/
def saveSlice (m : Mach) (id : Nat) (sl : Slice) (ws : List Warp) : Mach :=
  let mine := fun (w : Warp) => w.slice == id
  let c := m.core sl.core
  let gone := (c.warps.filter (fun e => mine e.2)).map (·.1)
  { m with slices := mset m.slices id { sl with saved := ws, dispatched := false } }.setCore sl.core
    { c with warps := c.warps.filter (fun e => !mine e.2), active := c.active.filter (fun p => !gone.contains p)
             pending := c.pending.filter (fun p => !gone.contains p.pos), registrar := c.registrar ++ [id] }

/-- The yield point of a slice, once every thread of it waits there (R358). -/
def yieldSettle (s : State) (m : Mach) (id : Nat) : Mach :=
  match mget m.slices id with
  | none => m
  | some sl =>
    let ws := sliceWarps m id
    if !ws.all yielded then m
    else
      let earlier := (queuedSlices s m sl.core).any (fun e => e.2.deadline.toNat < sl.deadline.toNat)
      let leaves := earlier && mayYield m sl ws && (m.core sl.core).registrar.length < 64
      if leaves && !(ws.all (fun w => w.pends.isEmpty)) then m
      else
        let sl := { sl with budcnt := sl.budget, expired := false }
        let pass := Warp.passWaits (fun k => k == .yield)
        if leaves then saveSlice m id sl (ws.map pass)
        else adjAllWarps { m with slices := mset m.slices id sl } (fun w => if w.slice = id then pass w else w)

/-- `YIELDJ` (R358). -/
def execYieldj (a : BitVec 8) (s : State) : Out :=
  onWord s (fun x =>
    match x.r.wait with
    | .yield => yieldSettle s s.m x.w.slice
    | _ =>
      match srcReady s.m x true [srcW a] with
      | .hold m x k => m.hold x k
      | .bad e => deliverAll s.m x e
      | .go =>
        let dl := srcValue (s.m.ctxCore x.w.ctx x.core) x (srcW a) 0 x.low
        let m := if dl = 0 then s.m else { s.m with slices := madj s.m.slices x.w.slice (fun sl => { sl with deadline := dl }) }
        yieldSettle s (m.hold x .yield) x.w.slice)

/-! `MIGR`. -/

/-- The cores of a context's partition on a die. -/
def partitionCores (s : State) (ctx die : Nat) : List Nat := (List.range 144).map (· + 144 * die) |>.filter (s.coreInPartition ctx)

/-- Whether a warp must stay (R368): threads outside the issuing group, serial mode, or an open declaration. -/
def mustStay (m : Mach) (x : Ex) : Bool :=
  (List.range 32).any (fun l => !x.w.exited l && !inMask x.g.lanes l) || x.w.serial.isSome
    || m.chains.any (fun c => c.2.decls.any (fun d => d.warp == x.w.uid && d.isOpen))

/-- `MIGR` (R367, R368): the warp leaves its gang, waits for its leases and issued accesses, and then for a Homeroom. -/
def execMigr (d a : BitVec 8) (s : State) : Out :=
  onWord s (fun x =>
    match x.r.wait with
    | .homeroom .. => s.m.put x
    | .migrated ok => completeUni s.m x [srcW a] d 1 [boolWord ok]
    | _ => uniEffect s.m x [srcW a] d 1 (fun v m x =>
      match translate s m x.w.ctx x.core (argPair v 0) .read with
      | .fault f m => .bad f m
      | .wait m => .hold m x .migrating
      | .ok t m =>
        let die := homeDie t.pa
        if die = dieOf x.core then .ok m x [1]
        else if mustStay m x ∨ 2 ≤ die ∨ partitionCores s x.w.ctx die = [] then .ok m x [0]
        else
          let m := leaveGang m x.core x.w
          let x := { x with w := { x.w with gang := none, arrived := 0 } }
          if !x.w.pends.isEmpty ∨ !drained m x.w.uid then .hold m x .migrating
          else .hold m x (.homeroom m.cy die)))

/-- The group of a warp that waits for a Homeroom: the cy since when, and the die. -/
def homeroomWait (w : Warp) : Option (Nat × Nat) :=
  ((w.groups ++ w.hgroups).filterMap (fun g => match g.run with | some r => (match r.wait with | .homeroom a b => some (a, b) | _ => none) | none => none)).head?

/-- The waits for a Homeroom since `cy` or before, answered. -/
def answerMigr (ok : Bool) (cy : Nat) (w : Warp) : Warp := w.answer (fun _ k => match k with | .homeroom since _ => since ≤ cy | _ => false) (.migrated ok)

/-- A warp moved from a position to a Homeroom of another core, with its store-fault entries; the context's state exists in the cluster it comes to, and the die it comes
to applies the thread's own writes, what happens before its next access and what it has read (R301, R305, R370). From then on it belongs to that core's instances of
scopes (R300). -/
def shipWarp (m : Mach) (core pos target home : Nat) (w : Warp) : Mach :=
  let m := openCluster m w.ctx target (recordPages (recordOf m w.grid))
  let mine := (m.ctxCore w.ctx core).sfq.filter (fun e => e.warp == w.uid)
  let m := m.adjCtxCore w.ctx core (fun c => { c with sfq := c.sfq.filter (fun e => e.warp ≠ w.uid) })
  let m := m.adjCtxCore w.ctx target (fun c => { c with sfq := c.sfq ++ mine })
  let m := m.adjCore core (fun c =>
    { c with warps := mdel c.warps pos, active := c.active.filter (· ≠ pos), pending := c.pending.filter (fun p => p.pos ≠ pos) })
  let m := settleLate m (fun l => l.die == dieOf target && (l.thread == w.uid || w.know.contains l.id || w.read.contains l.id))
  let m := { m with late := m.late.map (fun l => if l.thread = w.uid then { l with agent := { l.agent with core := target } } else l) }
  let m := (dropL1 m target).adjCore target (fun c => { c with warps := mset c.warps home (answerMigr true m.cy w), pending := c.pending ++ [{ pos := home, ready := 0 }] })
  releaseCluster m w.ctx core

/-- Whether a core can take a warp that migrates: room in the context's store-fault queue there (R380), and a free Homeroom, which is answered. -/
def freeHomeroom (m : Mach) (core target : Nat) (w : Warp) : Option Nat :=
  let mine := ((m.ctxCore w.ctx core).sfq.filter (fun e => e.warp == w.uid)).length
  if 16 < (m.ctxCore w.ctx target).sfq.length + mine then none else [32, 33].find? (fun h => (m.warp? target h).isNone)

/-- `MIGR_SHIP` (R367 to R369), within 4,096 cy: to the core with the issuing core's number where the partition holds it, otherwise to any core of the partition
there. -/
def execMigrShip (core pos target : Nat) (s : State) : Out :=
  .next (
    match s.m.warp? core pos with
    | none => s
    | some w =>
      match homeroomWait w with
      | none => s
      | some (since, die) =>
        let same := die * 144 + core % 144
        let allowed := dieOf target = die && s.coreInPartition w.ctx target && (target == same || !s.coreInPartition w.ctx same)
        if allowed && !s.stopped w.ctx core && !s.stopped w.ctx target && s.m.cy ≤ since + 4096 then
          match freeHomeroom s.m core target w, roomForWarps s.m target [w] with
          | some home, some m => s.withM (shipWarp m core pos target home w)
          | _, _ => s
        else s)

/-- `MIGR_TIMEOUT` (R368): no Homeroom came free within 4,096 cy. -/
def execMigrTimeout (core pos : Nat) (s : State) : Out :=
  .next (
    match (s.m.warp? core pos).bind homeroomWait with
    | some (since, _) => if since + 4096 ≤ s.m.cy then s.withM (s.m.adjWarp core pos (answerMigr false (s.m.cy - 4096))) else s
    | none => s)

end Sys2Proof.Machine
end

