-- ==== Sys2Proof/Machine/Sequencer.lean ====
section
/-! DEFINITION. The layer sequencer (R360 to R366): tables and their checks, `SEQLD`, `SEQGO`, and its step. -/

namespace Sys2Proof.Machine

/-! Tables (R361, R363). -/

/-- An entry from its 16 bytes. -/
def seqEntry (b : List Byte) : SeqEntry :=
  { word := BitVec.ofNat 32 (dField b 0 4), kind := dField b 4 1 / 64, ck := dField b 5 1 / 64, ca := dField b 5 1 / 16 % 4, test := dField b 6 1 / 32
    idx := dField b 6 1 % 32, wt := dField b 7 1 % 2 == 1, nt := dField b 8 2, nf := dField b 10 2 }

/-- The reserved fields of a header. -/
def seqHeaderReserved (h : List Byte) : Bool :=
  dField h 0 2 < 1 || 256 < dField h 0 2 || natBits (dField h 2 1) 4 3 ≠ 0 || dField h 3 5 ≠ 0 || dField h 24 8 ≠ 0

/-- The reserved fields of an entry, with NENT. -/
def seqEntryReserved (n : Nat) (b : List Byte) : Bool :=
  let e := seqEntry b
  dField b 4 1 % 64 ≠ 0 || dField b 5 1 % 16 ≠ 0 || dField b 7 1 / 2 ≠ 0 || dField b 12 4 ≠ 0 || e.kind = 3 || e.ca = 3 || 6 ≤ e.test
    || (e.test = 3 && 7 ≤ e.idx) || ((e.test = 4 || e.test = 5) && 16 ≤ e.idx) || n ≤ e.nt || n ≤ e.nf

/-- The words a sequencer executes (R363). -/
def seqCell : Instr → Bool
  | .uadd .. | .usub .. | .umul .. | .umad .. | .uand .. | .uor .. | .uxor .. | .ushl .. | .ushr .. | .usel .. | .umov .. | .umovi .. | .uhiw ..
  | .ucmpEq .. | .ucmpNe .. | .ucmpLtS32 .. | .ucmpLeS32 .. | .ucmpLtN32 .. | .ucmpLeN32 .. | .uld .. | .tbnd .. | .tbndT .. | .cpy .. | .cpym ..
  | .cpyq .. | .gath .. | .binit .. | .bwait .. | .pgpin .. | .pgunpin .. | .wswin .. | .tsweep .. => true
  | _ => false

/-- The specifiers a sequencer word may use: `s0` to `s15`, `zero`, small immediates and mailboxes. -/
def seqSpec (q : BitVec 8) : Bool := q.toNat < 16 || isZero q || isImm q || isMailbox q

/-- Whether the address pair of a word lies in `s0` to `s15`. -/
def seqPair : Instr → Bool
  | .uld _ p _ _ _ => p.toNat < 8
  | _ => true

/-- The instruction of a sequencer word, where it may stand in a table. -/
def seqDecode (w : Word) : Option Instr :=
  match decodeWord w with
  | .ok i => if (staticFault i).isNone && seqCell i && (specifiers i).all seqSpec && seqPair i then some i else none
  | .error _ => none

/-- The number of the first element of a list that satisfies a test. -/
def firstIndex {α : Type} (p : α → Bool) : List α → Option Nat
  | [] => none
  | a :: as => if p a then some 0 else (firstIndex p as).map (· + 1)

/-- The first entry of a table that fails a check, and its fault: reserved fields first, then words (R364). -/
def seqReject (n : Nat) (bs : List (List Byte)) : Option FaultInfo :=
  match firstIndex (seqEntryReserved n) bs with
  | some i => some (mkFault .reservedField 0 0 i)
  | none => (firstIndex (fun b => (seqEntry b).kind == 0 && (seqDecode (seqEntry b).word).isNone) bs).map (fun i => mkFault .illegalOp 0 0 i)

/-- The entries of a table read, in ascending order; a fault names the entry. -/
def readEntries (s : State) (ctx core : Nat) (va : DWord) : Nat → Nat → Mach → Res (List (List Byte))
  | 0, _, m => .ok [] m
  | n + 1, i, m =>
    match readMem s m ctx core (va + BitVec.ofNat 64 (96 + 16 * i)) 16 with
    | .fault f m => .fault { f with addr := BitVec.ofNat 48 i } m
    | .wait m => .wait m
    | .ok b m => (readEntries s ctx core va n (i + 1) m).next (fun bs m => .ok (b :: bs) m)

/-- The sequencer of a context on a core. -/
def Mach.seq (m : Mach) (ctx core : Nat) : Sequencer := (m.ctxCore ctx core).seq
def Mach.adjSeq (m : Mach) (ctx core : Nat) (f : Sequencer → Sequencer) : Mach := m.adjCtxCore ctx core (fun c => { c with seq := f c.seq })
/-- Whether a sequencer runs; one that has stopped and not yet reported it counts as running. -/
def Sequencer.busy (q : Sequencer) : Bool := q.running || q.stopping.isSome

/-- The words of a list of bytes. -/
def headerWords (h : List Byte) (off n : Nat) : List Word := (List.range n).map (fun i => BitVec.ofNat 32 (dField h (off + 4 * i) 4))

/-- A sequencer as a table loads it (R364). -/
def seqLoaded (grid : Nat) (h : List Byte) (bs : List (List Byte)) : Sequencer :=
  { table := bs.map seqEntry, regs := headerWords h 32 16, counters := headerWords h 8 4, cini := headerWords h 8 4
    smv := if dField h 2 1 / 128 = 1 then some (dField h 2 1 % 16) else none, current := 0, running := false, phase := 0, stopping := none, grid := grid, sweep := none, remote := none
    know := [], seen := [], fenceRel := [] }

/-- `SEQLD` (R364): a plain read after the warp's earlier accesses. -/
def execSeqld (d a : BitVec 8) (s : State) : Out :=
  onWord s (fun x => uniEffect s.m x [srcW a] d 1 (fun v m x =>
    let va := argPair v 0
    if (m.seq x.w.ctx x.core).busy then .ok m x [0]
    else if va.toNat % 64 ≠ 0 then .bad (mkFault .align 0 0 0xFFFF) m
    else if !drained m x.w.uid then .hold m x .register
    else
      match readMem s m x.w.ctx x.core va 96 with
      | .fault f m => .bad { f with addr := 0xFFFF } m
      | .wait m => .hold m x .register
      | .ok h m =>
        let n := dField h 0 2
        if seqHeaderReserved h then .bad (mkFault .reservedField 0 0 0xFFFF) m
        else
          match readEntries s x.w.ctx x.core va n 0 m with
          | .fault f m => .bad f m
          | .wait m => .hold m x .register
          | .ok bs m =>
            match seqReject n bs with
            | some f => .bad f m
            | none => .ok (m.adjSeq x.w.ctx x.core (fun _ => seqLoaded x.w.grid h bs)) x [BitVec.ofNat 32 n]))

/-- `SEQGO` (R365): a release at `.core`. -/
def execSeqgo (d a : BitVec 8) (s : State) : Out :=
  onWord s (fun x => uniEffect s.m x [srcI a] d 1 (fun v m x =>
    let q := m.seq x.w.ctx x.core
    let e := (arg v 0).toNat
    if q.busy ∨ q.table.isEmpty then .ok m x [0]
    else if q.table.length ≤ e then .bad (plainFault .reservedField) m
    else if !drained m x.w.uid then .hold m x .register
    else .ok (m.adjSeq x.w.ctx x.core (fun q => { q with running := true, current := e, phase := 0, grid := x.w.grid, sweep := none, remote := none,
                                                           know := stillLate m (q.know ++ x.w.history m) })) x [1]))

/-! The step (R366). -/

/-- The meaning of a sequencer word: the uniform instruction's own. -/
def seqExec (i : Instr) (s : State) : Out :=
  match i with
  | .uadd n d a b => execUadd n d a b s
  | .usub n d a b => execUsub n d a b s
  | .umul n d a b => execUmul n d a b s
  | .umad n d a b => execUmad n d a b s
  | .uand n d a b => execUand n d a b s
  | .uor n d a b => execUor n d a b s
  | .uxor n d a b => execUxor n d a b s
  | .ushl n d a b => execUshl n d a b s
  | .ushr n d a b => execUshr n d a b s
  | .usel n d a b => execUsel n d a b s
  | .umov n d a => execUmov n d a s
  | .umovi n d i => execUmovi n d i s
  | .uhiw n d i => execUhiw n d i s
  | .ucmpEq n d a b => execUcmpEq n d a b s
  | .ucmpNe n d a b => execUcmpNe n d a b s
  | .ucmpLtS32 n d a b => execUcmpLtS32 n d a b s
  | .ucmpLeS32 n d a b => execUcmpLeS32 n d a b s
  | .ucmpLtN32 n d a b => execUcmpLtN32 n d a b s
  | .ucmpLeN32 n d a b => execUcmpLeN32 n d a b s
  | .uld d p o k1 t => execUld d p o k1 t s
  | .tbnd d k1 => execTbnd d k1 s
  | .tbndT d a k1 => execTbndT d a k1 s
  | .cpy d a o k1 b => execCpy d a o k1 b s
  | .cpym d a o k1 b => execCpym d a o k1 b s
  | .cpyq d a => execCpyq d a s
  | .gath d a y w g u r => execGath d a y w g u r s
  | .binit d a => execBinit d a s
  | .bwait d a => execBwait d a s
  | .pgpin d a => execPgpin d a s
  | .pgunpin a => execPgunpin a s
  | .wswin d a => execWswin d a s
  | .tsweep d a o t => execTsweep d a o t s
  | _ => .next s

/-- The position at which a context's sequencer stands while it executes a word. -/
def seqPos (ctx : Nat) : Nat := 34 + ctx

/-- A sequencer as the one-lane agent that executes a word: `s0` to `s15` are its registers; it issues from slot 0x1F (R168, R401). What happens before the
word is what its `SEQGO`, the mailboxes it has taken and its acquires have told it. -/
def seqWarp (ctx : Nat) (q : Sequencer) (w : Word) (wait : Wait) : Warp :=
  let r : Run := { start := 0, words := [w], fetchFault := none, pos := 0, latches := [], nextPc := [], wait := wait, desc := [] }
  let regs := (List.range 16).foldl (fun rs k => mput zeroVec rs k (q.regs.getD k 0 :: List.replicate 31 0)) []
  { uid := 0, ctx := ctx, grid := q.grid, slice := 0, index := 0, homeSlot := 0x1F
    threads := (List.range 32).map (fun l => if l = 0 then { Thread.none with status := .running } else .none)
    groups := [{ Group.at_ 1 0 0 with run := some r }], regs := regs, gens := [], spilled := [], away := [], lru := [], pends := [], accstat := 0
    termG := 32, termD := 1, gang := none, arrived := 0, barriers := [], levels := [], replay := [], sweep := q.sweep.map (fun i => (0, i, 1)), serial := none
    handler := false, hgroups := [], parkRuns := none, budgetDue := 0, ranges := [], displace := false, lastRun := 0, runs := 0, know := q.know
    seen := q.seen, fenceRel := q.fenceRel, read := [] }

/-- What executing a word comes to for a sequencer: done, with the state of its registers; a fault; or a wait. -/
inductive SeqWord where
  | done (s : State)
  | fault (s : State) (c : Cause)
  | waits (s : State)
  deriving DecidableEq, Repr

/-- The results of a sequencer's accesses written at once. -/
def settlePends (w : Warp) : Warp := w.pends.foldl (fun w p => w.complete p p.vals) w

/-- A sequencer after its word has executed as the warp `v`: its registers, the index at which a sweep stands, and whether a load waits for the reply of another
package. -/
def Sequencer.after (q : Sequencer) (v : Warp) : Sequencer :=
  let v' := settlePends v
  let remote := v.groups.any (fun g => g.run.any (fun r => r.wait matches .remote _))
  { q with regs := (List.range 16).map (fun k => v'.regLane k 0), sweep := v.sweep.map (fun e => e.2.1), remote := if remote then some (false, false) else none
           know := v.know, seen := v.seen, fenceRel := v.fenceRel }

/-- A word executed by a sequencer: a load from the pod window waits for its reply first (R395), and a link error in it is a fault of the word (R396). -/
def seqRun (s : State) (ctx core : Nat) (w : Word) (i : Instr) : SeqWord :=
  let pos := seqPos ctx
  let q := s.m.seq ctx core
  match q.remote with
  | some (false, _) => .waits s
  | some (true, true) => .fault s .addr
  | reply =>
    let m := s.m.setWarp core pos (seqWarp ctx q w (if reply.isSome then .released else .none))
    let drop := fun (s : State) => s.withM { s.m.adjCore core (fun c => { c with warps := mdel c.warps pos }) with cur := none }
    match seqExec i (s.withM { m with cur := some { core := core, pos := pos, hand := false, grp := 0 } }) with
    | .next t =>
      match t.m.warp? core pos with
      | none => .waits (drop t)
      | some v =>
        let keep := fun (f : Sequencer → Sequencer) => (drop t).withM ((drop t).m.adjSeq ctx core f)
        match (v.thread 0).record with
        | some r => .fault (s.withM (purgeTokens (drop t).m ctx core 0)) r.cause
        | none =>
          if v.groups.any (fun g => g.run.any (fun r => 1 ≤ r.pos)) then .done (keep (fun q => { q.after v with sweep := none })) else .waits (keep (·.after v))
    | _ => .waits s

/-- Whether every copy, or gather, that a sequencer issued has ended: its operations carry no warp. -/
def seqCopiesDone (m : Mach) (ctx core : Nat) : Bool := m.copies.all (fun c => !(c.2.ctx == ctx && c.2.core == core && c.2.warp == 0))
def seqGathersDone (m : Mach) (ctx core : Nat) : Bool := m.gathers.all (fun c => !(c.2.ctx == ctx && c.2.core == core && c.2.warp == 0))

/-- A status line (R362). -/
def statusLine (m : Mach) (ctx core k : Nat) : Bool :=
  match k with
  | 0 => seqCopiesDone m ctx core
  | 1 => seqGathersDone m ctx core
  | 6 => storeReading m (dieOf core)
  | _ => !((m.core core).gangs.any (fun g => g.2.array == some (k - 2)))

/-- Whether an entry's TEST holds. -/
def seqTest (m : Mach) (ctx core : Nat) (e : SeqEntry) : Bool :=
  let c := (m.seq ctx core).counters.getD e.ck 0
  let full := ((m.ctxCore ctx core).mailboxes.getD e.idx .fresh).full
  match e.test with
  | 0 => true
  | 1 => c ≠ 0
  | 2 => c = 0
  | 3 => statusLine m ctx core e.idx
  | 4 => full
  | _ => !full

/-- The counters after an entry's CA. -/
def seqCount (q : Sequencer) (e : SeqEntry) : List Word :=
  let c := q.counters.getD e.ck 0
  match e.ca with
  | 1 => setAt q.counters e.ck (if c = 0 then 0 else c - 1)
  | 2 => setAt q.counters e.ck (q.cini.getD e.ck 0)
  | _ => q.counters

/-- A stop: its status word waits to be put into the mailbox SMB, where there is one. -/
def seqStop (m : Mach) (ctx core : Nat) (cause : Nat) : Mach :=
  let m := m.adjSeq ctx core (fun q =>
    { q with running := false, phase := 0, sweep := none, remote := none
             stopping := q.smv.map (fun _ => BitVec.ofNat 32 (q.current * 256 + cause * 65536 + (if cause = 0 then 0 else 2 ^ 31))) })
  if (m.seq ctx core).busy then m else releaseCluster m ctx core

/-- The report of a stop: the mailbox is filled in its turn (R192, R366). -/
def seqReport (m : Mach) (ctx core : Nat) (v : Word) : Mach :=
  let cc := m.ctxCore ctx core
  match cc.seq.smv with
  | none => releaseCluster (m.adjSeq ctx core (fun q => { q with stopping := none })) ctx core
  | some k =>
    let b := cc.mailboxes.getD k .fresh
    if b.full || !myTurn b.writers 0 then
      m.setCtxCore ctx core { cc with mailboxes := setAt cc.mailboxes k { b with writers := addToken 0 b.writers } }
    else releaseCluster ((m.setCtxCore ctx core (fillMailbox cc 0 k v (stillLate m cc.seq.know))).adjSeq ctx core (fun q => { q with stopping := none })) ctx core

/-- The end of an entry: its TEST, once it need wait no longer. -/
def seqMove (m : Mach) (ctx core : Nat) (e : SeqEntry) : Mach :=
  let holds := seqTest m ctx core e
  if e.wt && !holds then m else m.adjSeq ctx core (fun q => { q with phase := 0, current := if holds then e.nt else e.nf })

/-- `SEQUENCER_STEP` (R366). It waits where its word waits, for its TEST, and for room in the mailbox that reports a stop. -/
def execSequencerStep (ctx core : Nat) (s : State) : Out :=
  .next (
    let q := s.m.seq ctx core
    if s.stopped ctx core then s
    else
      match q.stopping with
      | some v => s.withM (seqReport s.m ctx core v)
      | none =>
        if !q.running then s
        else
          match q.table[q.current]? with
          | none => s
          | some e =>
            let after := fun (s : State) =>
              let m := s.m.adjSeq ctx core (fun q => { q with counters := seqCount q e, phase := 1 })
              s.withM (seqMove m ctx core e)
            if q.phase = 1 then s.withM (seqMove s.m ctx core e)
            else if e.kind = 2 then s.withM (seqStop s.m ctx core 0)
            else if e.kind = 1 then after s
            else
              match seqDecode e.word with
              | none => s
              | some i =>
                if needsPrivilege i && !(s.ctx ctx).priv then s.withM (seqStop s.m ctx core (causeCode .priv))
                else
                  match seqRun s ctx core e.word i with
                  | .done s => after s
                  | .waits s => s
                  | .fault s c => s.withM (seqStop s.m ctx core (causeCode c)))

/-! Link errors (R396). -/

/-- The link error that an access may meet, in its walk or where it lies in the pod window: `ADDR`, detail 0xA, the level of the entry. -/
def linkAt (s : State) (ctx core : Nat) (acc : Access) (va : DWord) (eng : Bool) : Option FaultInfo :=
  match walkAway s s.m ctx core va eng with
  | some level => some (mkFault .addr level 0xA va.toNat)
  | none =>
    match translate s s.m ctx core va acc false eng with
    | .ok t _ => if paClass s t.pa = .pod then some (mkFault .addr t.level 0xA va.toNat) else none
    | _ => none

/-- The link error that an access of an engine meets, in the first of its pages where there is one. -/
def engineLink (s : State) (ctx core : Nat) (acc : Access) (va : DWord) (n : Nat) : Option FaultInfo :=
  (pageParts (n / 4096 + 2) va n).findSome? (fun p => linkAt s ctx core acc p.1 true)

/-- The link error that the next row of a copy may meet: in its source, then in its destination, then in its side stream; after the last row, in the word of its fold. -/
def copyLink (s : State) (c : Copy) : Option FaultInfo :=
  let d := c.desc
  let at_ := fun (base stride : Nat) => (BitVec.ofNat 64 (base + c.row * stride) : DWord)
  let side := if cConv d = 1 then 4 * cBlocks d else cBlocks d
  if cNrow d ≤ c.row then (if cMxv d then engineLink s c.ctx c.core .atomic (BitVec.ofNat 64 (cMaxa d)) 4 else none)
  else
    [if cSk d = 0 then engineLink s c.ctx c.core .read (at_ (cSrc d) (cSstr d)) (srcRowBytes d c.fslot) else none,
     if cDk d = 0 then engineLink s c.ctx c.core .write (at_ (cDst d) (cDstr d)) (dstRowBytes d c.fslot) else none,
     if cIxv d then engineLink s c.ctx c.core .write (at_ (cIxa d) side) side else none].findSome? id

/-- The link error that the next bag of a gather may meet: in its lists, or in the table. -/
def gatherLink (s : State) (g : Gather) : Option FaultInfo :=
  let d := g.desc
  let look := fun (acc : Access) (a : Nat) => engineLink s g.ctx g.core acc (BitVec.ofNat 64 a) 4
  match (if gBob d = 0 then look .read (gIxb d + 4 * g.bag * gBsz d) else look .read (gBob d + 4 * g.bag)) with
  | some f => some f
  | none => match look .read (gIxb d) with | some f => some f | none => look .row (gTb d)

/-- The event of an engine's link error, with the fields of the engine's end (log 38). -/
def engineLinkEvent (ctx core slot eng : Nat) (f : FaultInfo) (desc : DWord) (index : Nat) : Event :=
  { engineEvent 0x08 ctx core slot eng 2 f desc index with src := 2 }

/-- An engine command whose record meets a link error: the record is lost, and the command ends (R125, R168, R396). -/
def loseRecord (m : Mach) (e : EngineEnd) (f : FaultInfo) : Mach :=
  e.report (e.report (raiseEvent m (engineLinkEvent e.ctx e.writer.agent.core e.slot e.eng f e.desc e.index)) 0x03) 0x0A

/-- How a copy ends whose record alone is left. -/
def Copy.atRecord (c : Copy) (m : Mach) (id : Nat) : Option EngineEnd :=
  let done := c.stop.isSome || (cNrow c.desc ≤ c.row && !cMxv c.desc)
  let st := c.stop.getD (0, plainFault .addr, 0)
  if !c.held && done && releaseReady m id c && (c.rel.isNone || (copyBars c).isEmpty || c.row ≤ c.told) && cCrv c.desc then some (c.ends m id st.1 st.2.1 st.2.2) else none

/-- How a gather ends whose record alone is left. -/
def Gather.atRecord (g : Gather) (m : Mach) (id : Nat) : Option EngineEnd :=
  let (status, f, index) := g.stop.getD (0, plainFault .addr, 0)
  if (g.stop.isSome || gNbag g.desc ≤ g.bag) && g.out.isEmpty then some (g.ends m id status f index) else none

/-- The link error that the record of an engine command may meet, and the command's end. -/
def recordLink (s : State) (e : Option EngineEnd) : Option (EngineEnd × FaultInfo) :=
  e.bind (fun e => e.record.bind (fun r => (engineLink s e.ctx e.writer.agent.core .write r.1 r.2.length).map (fun f => (e, f))))

/-- A copy stopped by a link error: nothing of the row it strikes is written (R162). -/
def stopCopyLink (s : State) (id : Nat) (c : Copy) : State :=
  match recordLink s (c.atRecord s.m id) with
  | some (e, f) =>
    let m := loseRecord s.m e f
    s.withM (releaseCluster { m with copies := mdel m.copies id } c.ctx c.core)
  | none =>
  match (if c.held || c.stop.isSome || !commandReady s.m c.warp c.since then none else copyLink s c) with
  | none => s
  | some f =>
    let row := min c.row (cNrow c.desc - 1)
    let m := raiseEvent (if c.rel.isSome then s.m else copyArrive s.m c 0 true (arrivalRels s.m id c)) (engineLinkEvent c.ctx c.core c.slot 0 f c.descAddr row)
    s.withM { m with copies := mset m.copies id { c with stop := some (2, f, row) } }

/-- A gather stopped by a link error (R125). -/
def stopGatherLink (s : State) (id : Nat) (g : Gather) : State :=
  match recordLink s (g.atRecord s.m id) with
  | some (e, f) =>
    let m := loseRecord s.m e f
    s.withM (releaseCluster { m with gathers := mdel m.gathers id } g.ctx g.core)
  | none =>
  match (if g.ready s.m then gatherLink s g else none) with
  | none => s
  | some f =>
    let m := raiseEvent (gatherArrive s.m g 0 true) (engineLinkEvent g.ctx g.core g.slot 1 f g.descAddr g.bag)
    s.withM { m with gathers := mset m.gathers id { g with stop := some (2, f, g.bag) } }

/-- The accesses that the word at which a group stands makes before it is held for a reply: by lane for a load or an atomic, in the lowest lane for a descriptor. A word
that has come so far as to wait for a reply is another matter (`loadLinkError`). -/
def wordAccesses (w : Warp) (g : Group) (i : Instr) : List (Nat × Access × DWord) :=
  let pair := fun (a : BitVec 8) (acc : Access) =>
    if isV a then [(lowLane g.lanes, acc, pairOf (w.regLane a.toNat (lowLane g.lanes)) (w.regLane (a.toNat + 1) (lowLane g.lanes)))] else []
  let each := fun (p : BitVec 6) (acc : Access) => (maskLanes g.lanes).map (fun l => (l, acc, laneAddr w p l))
  match i with
  | .cpy _ a .. | .cpym _ a .. | .gath _ a .. | .spawn _ a | .seqld _ a | .twatch a _ => pair a .read
  | .ld _ p .. => each p .read
  | .uld _ p .. => [(lowLane g.lanes, .read, laneAddr w p (lowLane g.lanes))]
  | .atom r _ p .. => if r = 0 then each p .atomic else []
  | _ => []

/-- Whether a word acts once for its group, so that a fault parks every active lane (R42). -/
def actsOnce : Instr → Bool
  | .ld .. | .atom .. => false
  | _ => true

/-- The link errors that the next accesses of a group may meet, by lane: in the fetch of its run, with the words before; or at its word, in a walk or a descriptor. A load
or atomic of the pod window waits for its reply first. -/
def groupLink (s : State) (w : Warp) (core : Nat) (g : Group) : Option (List Word × List (Nat × FaultInfo)) :=
  match g.run with
  | none =>
    if g.atConv then none
    else
      let words := match fetchRun s w.ctx core 24 s.m g.pc with | .ok (ws, _) _ => ws | _ => []
      ((List.range (words.length + 1)).findSome? (fun k =>
        (linkAt s w.ctx core .fetch ((g.pc + BitVec.ofNat 48 (4 * k)).setWidth 64) false).map (fun f => (k, f)))).bind (fun e =>
          if e.1 < words.length ∨ words.isEmpty then some (words.take e.1, (maskLanes g.lanes).map (fun l => (l, e.2))) else none)
  | some r =>
    match (if r.wait.notBegun then (r.words[r.pos]?).map decodeWord else none) with
    | some (.ok i) =>
      let found := (wordAccesses w g i).filterMap (fun (l, acc, va) =>
        if actsOnce i && !(i matches .uld ..) then (linkAt s w.ctx core acc va false).map (fun f => (l, f))
        else (walkAway s s.m w.ctx core va).map (fun level => (l, mkFault .addr level 0xA va.toNat)))
      match found with
      | [] => none
      | (_, f) :: _ => some ([], if actsOnce i then (maskLanes g.lanes).map (fun l => (l, f)) else found)
    | _ => none

/-- A group that has met link errors: it takes the faults at its word, or at the word of its run that could not be fetched. -/
def linkFaulted (words : List Word) (fs : List (Nat × FaultInfo)) (g : Group) : Group :=
  match g.run with
  | none =>
    { g with run := some { start := g.pc, words := words, fetchFault := fs.head?.map (·.2), pos := 0, latches := [], nextPc := [], wait := .none, desc := [] } }
  | some r => { g with run := some { r with wait := .faulted fs } }

/-- The first group of a list that may meet a link error takes it: the groups after, and the fault and its lane. -/
def linkFirst (s : State) (w : Warp) (core : Nat) : List Group → Option (List Group × FaultInfo × Nat)
  | [] => none
  | g :: gs =>
    match groupLink s w core g with
    | some (words, (l, f) :: fs) => some (linkFaulted words ((l, f) :: fs) g :: gs, f, l)
    | _ => (linkFirst s w core gs).map (fun e => (g :: e.1, e.2))

/-- A warp's fetch or descriptor read that meets a link error. -/
def warpLinkError (s : State) (core pos : Nat) (w : Warp) : State :=
  let found : Option (Warp × FaultInfo × Nat) := match linkFirst s w core w.groups with
    | some (gs, f) => some ({ w with groups := gs }, f)
    | none => (linkFirst s w core w.hgroups).map (fun e => ({ w with hgroups := e.1 }, e.2))
  match found.filter (fun _ => (s.m.warp? core pos).isSome) with
  | none => s
  | some (w, f, lane) =>
    let r : Record := { pc := 0, run := 0, imp := false, slot := 0, kind := 0, cause := f.cause, detail := f.detail, addr := f.addr }
    s.withM (raiseEvent (s.m.setWarp core pos w) (linkEvent w.ctx w.homeSlot lane (recordBits r)))

/-- A sequencer's load of the pod window that meets a link error: the word faults, and the sequencer stops (R366). -/
def seqLinkError (s : State) (ctx core : Nat) : State :=
  match (s.m.seq ctx core).remote with
  | some (false, _) =>
    let r : Record := { pc := 0, run := 0, imp := false, slot := 0, kind := 0, cause := .addr, detail := 0xA, addr := 0 }
    s.withM (raiseEvent (s.m.adjSeq ctx core (fun q => { q with remote := some (true, true) })) (linkEvent ctx 0x1F 0 (recordBits r)))
  | _ => s

/-- The core on which a gang with a step to be loaded has a scale in another package (R246), and its context and leader's slot. -/
def gangLink (s : State) (gid : Nat) : Option (Nat × Nat × Nat × FaultInfo) :=
  s.m.cores.findSome? (fun c => (mget c.2.gangs gid).bind (fun g => (nextLoad g).bind (fun t =>
    (t.members.findSome? (fun p => (List.range 16).findSome? (fun n =>
      (scaleAt p.fb (bOffset p.sp p.bAddr + n * bColBytes (slotElt p.fb))).bind (fun a => linkAt s g.ctx c.1 .read a.1 true)))).map (fun f => (c.1, g.ctx, t.leader, f)))))

/-- A step whose scales meet a link error: they count as poisoned, with the event. -/
def stepLinkError (s : State) (gid core ctx slot : Nat) (f : FaultInfo) : State :=
  let r : Record := { pc := 0, run := 0, imp := false, slot := 0, kind := 0, cause := f.cause, detail := f.detail, addr := f.addr }
  let t := loadStep s core gid true
  if t = s then s else t.withM (raiseEvent t.m (linkEvent ctx slot 0 (recordBits r)))

end Sys2Proof.Machine
end

