-- ==== Sys2Proof/Machine/Launch.lean ====
section
/-! DEFINITION. The command processors (R340, R345, R390, R391) and the work distributor (R346, R347): launch records and their checks, launches,
hand-over, placement, and the end of a grid (R314). -/

namespace Sys2Proof.Machine

/-! Launch records (R341 to R345). -/

/-- A rejection: CLASS, INDEX, FIELD (R345). -/
abbrev Reject := Nat × Nat × Nat

def recEntry (r : List Byte) : Nat := dField r 0 8
def recLanes (r : List Byte) : Nat := levelExt r 0
def recDep (r : List Byte) : Bool := dField r 57 1 % 2 == 1

/-- The EXT of the level of a domain, 1 for an absent one. -/
def domExt (r : List Byte) (dom : Nat) : Nat :=
  (((List.range (levelCount r)).find? (fun k => levelDom r k == dom)).map (levelExt r)).getD 1
/-- W: the warps of a slice (R343). -/
def recWarps (r : List Byte) : Nat := domExt r 1 * domExt r 2
/-- The warps that a gang level binds together; 0 with no gang level (R344). -/
def recPerGang (r : List Byte) : Nat := if (List.range (levelCount r)).any (fun k => levelDom r k == 2) then domExt r 1 else 0

/-- The header's first failure (R345 step 2). -/
def headerReject (r : List Byte) : Option Reject :=
  if recEntry r % 4 ≠ 0 then some (3, 0, 1)
  else if 256 < dField r 52 2 then some (3, 0, 2)
  else if 64 < dField r 54 2 then some (3, 0, 3)
  else if levelCount r < 1 ∨ 8 < levelCount r then some (3, 0, 4)
  else if 2 ^ 48 ≤ recEntry r ∨ dField r 57 1 / 2 ≠ 0 ∨ dField r 58 6 ≠ 0 then some (3, 0, 5)
  else none

/-- The range of EXT for a domain below another, or outermost (R343); that of dev or pod below another level is empty. A pair of domains for which the table gives no
range has none. -/
def extRange (dom : Nat) (above : Option Nat) : Option (Nat × Nat) :=
  match dom, above with
  | 0, _ => some (1, 32)
  | 1, some 2 => some (1, 6)
  | 1, some 3 => some (1, 32)
  | 2, some 3 => some (1, 32)
  | 3, some 4 => some (1, 8)
  | 3, some 5 => some (1, 144)
  | 3, some 6 | 3, some 7 => some (1, 288)
  | 4, some 5 => some (1, 18)
  | 4, some 6 | 4, some 7 => some (1, 36)
  | 5, some 6 | 5, some 7 => some (1, 2)
  | 6, some _ | 7, some _ => some (1, 0)
  | 6, none | 7, none => some (1, 1)
  | 3, none | 4, none | 5, none => some (1, 2 ^ 32 - 1)
  | _, _ => none

/-- The scope code of a domain (R343 rule 0x02). -/
def domScope (dom : Nat) : Nat := if dom = 0 then 0 else dom - 1

/-- The first rule that level `k` fails (R343). DESIGN CHOICE: an SC byte of 8 to 255, which R342 does not allow and R343 names under no FIELD code, fails rule 0x02
(log 108). -/
def levelRejects (r : List Byte) (k : Nat) : Option Nat :=
  let dom := levelDom r k
  let top := k + 1 = levelCount r
  let cores := ((List.range (k + 1)).filter (fun j => levelDom r j == 3)).length
  if dField r (66 + 8 * k) 2 ≠ 0 ∨ 7 < dom then some 4
  else if (if k = 0 then dom ≠ 0 else dom ≤ levelDom r (k - 1)) ∨ (top ∧ cores = 0) then some 1
  else if 7 < levelScope r k ∨ levelScope r k < domScope dom then some 2
  else
    let above := if top then none else some (levelDom r (k + 1))
    let outOfRange := match extRange dom above with | some (lo, hi) => levelExt r k < lo || hi < levelExt r k | none => false
    let highest := (dom == 1 || dom == 2) && above != some 2
    if outOfRange || (highest && 32 < recWarps r) then some 3 else none

/-- The first failure of the levels, then of the entries that must be zero (R345 step 3, R342). -/
def levelsReject (r : List Byte) : Option Reject :=
  let n := levelCount r
  match (List.range n).findSome? (fun k => (levelRejects r k).map (fun f => (2, k, f))) with
  | some e => some e
  | none => ((List.range 8).find? (fun k => n ≤ k && dField r (64 + 8 * k) 8 != 0)).map (fun k => (2, k, 4))

/-- The first failure of the slots (R345 step 4). -/
def slotsReject (r : List Byte) : Option Reject := (List.range 8).findSome? (fun k => (slotReject (recordSlot r k)).map (fun f => (1, k, f)))

/-- How many units of level `k` fit into the cores of a list that are usable: clusters are cut into units of a clus level, dies into units of a die
level (R344); the die units of one dev unit lie on distinct dies (R406). -/
def unitsFit (r : List Byte) (usable : Nat → Bool) (k : Nat) : Nat :=
  let cores := (List.range 288).filter usable
  let hasClus := (List.range (k + 1)).find? (fun j => levelDom r j == 4)
  let hasDie := (List.range (k + 1)).find? (fun j => levelDom r j == 5)
  -- slots for the units just below a die
  let perDie := fun (die : Nat) =>
    match hasClus with
    | some j => ((List.range 18).map (fun c => (cores.filter (fun q => clusterOf q == die * 18 + c)).length / unitSize r j)).foldl (· + ·) 0 * unitSize r j
    | none => (cores.filter (fun q => dieOf q == die)).length
  let room := match hasDie with
    | some j =>
      let most := fun (n : Nat) => if k ≠ j ∧ levelDom r k = 6 then min n 1 else n
      (most (perDie 0 / unitSize r j) + most (perDie 1 / unitSize r j)) * unitSize r j
    | none => perDie 0 + perDie 1
  room / unitSize r k

/-- Whether units are co-resident: placed at once on distinct cores (R344). -/
def coResident (r : List Byte) : Bool := coreLevel r < placeLevel r

/-- The resources' first failure (R345 step 5). What can be backed is the firmware's to say. -/
def resourceReject (s : State) (m : Mach) (ctx : Nat) (r : List Byte) : Option Reject :=
  if coResident r ∧ unitsFit r (s.coreInPartition ctx) (placeLevel r) = 0 then some (4, 0, 1)
  else if !Config.backsScratchpad m.free (dField r 52 2) then some (4, 0, 2)
  else if !Config.backsSatchels m.free (recWarps r * dField r 54 2) then some (4, 0, 3)
  else none

/-- The first failure of a record that has been read (R345). -/
def recordReject (s : State) (m : Mach) (ctx : Nat) (r : List Byte) : Option Reject :=
  match headerReject r with
  | some e => some e
  | none =>
    match levelsReject r with
    | some e => some e
    | none => match slotsReject r with | some e => some e | none => resourceReject s m ctx r

/-! Status words. -/

/-- The status word of a state (R345). -/
def statusWord (state : Nat) (rej : Reject) : Nat := state * 2 ^ 30 + rej.1 * 65536 + rej.2.1 * 256 + rej.2.2

/-- The core by which a command processor's accesses are named: it lies in no compute die. -/
def frontCore : Nat := 576

/-- A status word written for a context (R340). -/
def putStatus (s : State) (m : Mach) (ctx : Nat) (sta : DWord) (w : Nat) : Res Unit := writeMem s m ctx frontCore sta (natToBytes 8 w)

/-- The event of a grid that has ended or is rejected (R400, type 0x06). -/
def gridEvent (m : Mach) (ctx w : Nat) : Mach :=
  let (rest, m) := openBytes m 8
  raiseEvent m { type := 0x06, src := 2, ctx := ctx, who := 0, pay := natToBytes 8 w ++ rest, function := none }

/-! Command queues. -/

/-- A queue stopped at an entry, with its event (R390). -/
def stopQueue (m : Mach) (q entry ctx : Nat) : Mach :=
  let (pay, m) := openBytes m 16
  raiseEvent { m with queues := madj m.queues q (fun c => { c with err := BitVec.ofNat 32 (2 ^ 31 + entry) }) }
    { type := 0x05, src := 2, ctx := ctx, who := 0, pay := pay, function := none }

/-- Whether a queue takes entries: bound, not stopped, and not empty. -/
def queueReady (q : CmdQueue) : Bool := q.bound && q.err.toNat < 2 ^ 31 && q.head != q.tail

/-- The index after an entry. -/
def nextIndex (q : CmdQueue) : Word := BitVec.ofNat 32 ((q.head.toNat + 1) % 2 ^ q.logSize)

/-- The entry at HEAD, where its memory can be read (R390). Which of the writes that a die has still to apply it shows is open: entries that a plain store of TAIL
follows may be stale (R391). -/
def queueEntry (s : State) (q : CmdQueue) : Option (List Byte) × Mach :=
  let a := q.base + 64 * q.head.toNat
  if paClass s a = .reserved ∨ paClass s (a + 63) = .reserved ∨ (isHbm a ∧ poisonedRange s.m a 64) then (none, s.m)
  else
    let (bs, m) := readPa s (Config.freePick s.m.free % 3) { s.m with free := s.m.free + 1 } a 64
    (some bs, m)

/-- Whether an entry's reserved bytes are zero. -/
def entryClean (e : List Byte) : Bool := dField e 1 3 == 0 && dField e 6 2 == 0 && dField e 24 40 == 0

/-- Whether an entry stops its queue as it is taken (R390): a reserved OPC or byte, a context outside the partition, a misaligned address. -/
def entryBad (s : State) (q : CmdQueue) (e : List Byte) : Bool :=
  let known := (mget s.contexts (dField e 4 2)).any (fun c => c.partition == q.partition)
  1 < dField e 0 1 || !entryClean e || !known || dField e 16 8 % 8 ≠ 0 || dField e 8 8 % 64 ≠ 0

/-- The context that the event of a stopped queue names: the entry's, where it is one of the queue's partition (log 66). -/
def entryContext (s : State) (q : CmdQueue) (e : List Byte) : Nat :=
  let ctx := dField e 4 2
  if (mget s.contexts ctx).any (fun c => c.partition == q.partition) then ctx else 0

/-- The next entry of a queue taken: one that cannot be read, or that is bad, stops the queue; `f` handles any other. -/
def takeEntry (s : State) (queue : Nat) (f : CmdQueue → List Byte → Mach → State) : State :=
  let q := s.m.queue queue
  if !queueReady q then s
  else
    match queueEntry s q with
    | (none, m) => s.withM (stopQueue m queue q.head.toNat 0)
    | (some e, m) => if entryBad s q e then s.withM (stopQueue m queue q.head.toNat (entryContext s q e)) else f q e m

/-- `NO_OP_COMMAND` (R390): the entry at HEAD, when it is a no-op or stops the queue. -/
def execNoOpCommand (queue : Nat) (s : State) : Out :=
  .next (takeEntry s queue (fun q e m =>
    if dField e 0 1 ≠ 0 then s else s.withM { m with queues := mset m.queues queue { q with head := nextIndex q } }))

/-- A grid as its launch makes it. -/
def newGrid (queue ctx id entry : Nat) (record : List Byte) (deadline sta : DWord) : Grid :=
  { queue := queue, ctx := ctx, order := id, record := record, deadline := deadline, sta := sta, phase := .waiting
    total := unitSize record (levelCount record) / unitSize record (placeLevel record), placed := 0, entry := entry, dies := [] }

/-- The deadline of a launch: the counter plus DLOFF, saturating (R340). -/
def launchDeadline (counter : DWord) (r : List Byte) : DWord := BitVec.ofNat 64 (min (counter.toNat + dField r 40 8) (2 ^ 64 - 1))

/-- A record read and judged: its status word is written, and an accepted one becomes a grid that waits (R340 steps 1 to 3). None while a page is
being mapped. -/
def launchEntry (s : State) (queue : Nat) (q : CmdQueue) (e : List Byte) : Mach :=
  let ctx := dField e 4 2
  let sta : DWord := BitVec.ofNat 64 (dField e 16 8)
  let lra : DWord := BitVec.ofNat 64 (dField e 8 8)
  let bad := fun (m : Mach) => stopQueue m queue q.head.toNat ctx
  let taken := fun (m : Mach) => { m with queues := madj m.queues queue (fun c => { c with head := nextIndex q }) }
  let reject := fun (m : Mach) (r : Reject) =>
    match putStatus s m ctx sta (statusWord 3 r) with
    | .ok _ m => gridEvent (taken m) ctx (statusWord 3 r)
    | .fault _ m => bad m
    | .wait m => m
  match putStatus s s.m ctx sta (statusWord 0 (0, 0, 0)) with
  | .fault _ m => bad m
  | .wait m => m
  | .ok _ m =>
    match readMem s m ctx frontCore lra 384 with
    | .wait m => m
    | .fault f m => reject m (5, 0, f.detail.toNat)
    | .ok r m =>
      match recordReject s m ctx r with
      | some rej => reject { m with free := m.free + 1 } rej
      | none =>
        let (id, m) := ({ m with free := m.free + 1 } : Mach).newId
        taken { m with grids := mset m.grids id (newGrid queue ctx id q.head.toNat r (launchDeadline s.counter r) sta) }

/-- `LAUNCH` (R340, R390): the entry at HEAD, when it is a launch or stops the queue. -/
def execLaunch (queue : Nat) (s : State) : Out :=
  .next (takeEntry s queue (fun q e m => if dField e 0 1 = 0 then s else s.withM (launchEntry (s.withM m) queue q e)))

/-- `TAIL` (R391): a producer's doorbell. -/
def execTail (queue : Nat) (value : Word) (s : State) : Out :=
  .next (s.withM { s.m with queues := mset s.m.queues queue (tailWrite (s.m.queue queue) value) })

/-- `QUEUE_RESTART` (R390): the firmware lets a stopped queue take entries again. -/
def execQueueRestart (queue : Nat) (s : State) : Out :=
  .next (s.withM { s.m with queues := madj s.m.queues queue (fun q => if q.err.toNat < 2 ^ 31 then q else { q with err := 0 }) })

/-! Hand-over and placement. -/

/-- Whether the grids launched earlier from the same queue have ended (R346). -/
def earlierEnded (m : Mach) (g : Grid) : Bool := m.grids.all (fun e => !(e.2.queue == g.queue && e.2.order < g.order) || e.2.phase == .ended)

/-- A later state of a grid written into its status word; a fault there stops the queue at the grid's entry. False while the page is being mapped. -/
def gridStatus (s : State) (m : Mach) (g : Grid) (state : Nat) : Bool × Mach :=
  match putStatus s m g.ctx g.sta (statusWord state (0, 0, 0)) with
  | .ok _ m => (true, m)
  | .fault _ m => (true, stopQueue m g.queue g.entry g.ctx)
  | .wait m => (false, m)

/-- The words that cores hold as fetched, dropped: fetch is certain at a kernel boundary and at the start of a grid (R315). -/
def dropCode (m : Mach) : Mach := { m with cores := m.cores.map (fun c => (c.1, { c.2 with code := [] })) }

/-- `GRID_HANDOFF` (R340 step 5, R346). -/
def execGridHandoff (grid : Nat) (s : State) : Out :=
  .next (
    match mget s.m.grids grid with
    | none => s
    | some g =>
      if g.phase ≠ .waiting ∨ (recDep g.record && !earlierEnded s.m g) then s
      else
        match gridStatus s s.m g 1 with
        | (true, m) => s.withM (dropCode { m with grids := madj m.grids grid (fun g => { g with phase := .placing }) })
        | (false, m) => s.withM m)

/-- Whether physical registers can be found on a core (R181, R183). -/
def coreHasRoom (m : Mach) (core k : Nat) : Bool := match makeRoom 600 m core 64 k with | .ok _ => true | _ => false

/-- Whether a slice of a grid may be placed on a core: of the partition, with a free Registrar entry; for a co-resident unit, with free slots and registers for its
warps. -/
def coreUsable (s : State) (m : Mach) (id : Nat) (g : Grid) (core : Nat) : Bool :=
  s.coreInPartition g.ctx core && !s.stopped g.ctx core &&
    (if coResident g.record then recWarps g.record ≤ (freeSlots (m.core core)).length && coreHasRoom m core (8 * recWarps g.record) && !boundaryHolds m id core
     else (m.core core).registrar.length < 64)

/-- Whether the next unit of a grid can be placed. -/
def canPlace (s : State) (m : Mach) (id : Nat) (g : Grid) : Bool :=
  g.phase == .placing && g.placed < g.total && 0 < unitsFit g.record (coreUsable s m id g) (placeLevel g.record)

/-- Whether a grid is served before another: the earlier deadline, then the earlier launch (R347). -/
def Grid.before (a b : Grid) : Bool := a.deadline.toNat < b.deadline.toNat || (a.deadline == b.deadline && a.order < b.order)

/-- Whether cores agree with the levels of a unit: slices of one clus unit lie in one cluster, those of one die unit on one die, and those of two die units
below a dev level on distinct dies (R406). `first` is the number of the unit's first slice in the grid; `there` are the grid's slices already placed, by
number and core. -/
def coresAgree (r : List Byte) (first : Nat) (cores : List Nat) (there : List (Nat × Nat)) : Bool :=
  let mine := ((List.range cores.length).map (· + first)).zip cores
  (List.range (levelCount r)).all (fun k =>
    let place := if levelDom r k = 4 then some clusterOf else if levelDom r k = 5 then some dieOf else none
    match place with
    | none => true
    | some f =>
      let apart := levelDom r k = 5 ∧ k + 2 = levelCount r ∧ levelDom r (k + 1) = 6
      mine.all (fun a => (mine ++ there).all (fun b => if a.1 / unitSize r k = b.1 / unitSize r k then f a.2 == f b.2 else !apart || f a.2 != f b.2)))

/-- Slice `n` of a grid (R344): its index at each level, and which unit of each level holds it. -/
def gridSlice (g : Grid) (id n core : Nat) : Slice :=
  let r := g.record
  let ks := List.range (levelCount r)
  let unit := fun k => if k < coreLevel r then 0 else n / unitSize r k
  { grid := id, ctx := g.ctx, core := core, number := 0, entry := BitVec.ofNat 48 (recEntry r), args := (List.range 8).map (fun i => BitVec.ofNat 32 (dField r (8 + 4 * i) 4))
    deadline := g.deadline, budget := BitVec.ofNat 32 (dField r 48 4), budcnt := BitVec.ofNat 32 (dField r 48 4), lanes := recLanes r, warps := recWarps r
    perGang := recPerGang r, path := ks.map (fun k => if k < coreLevel r then 0 else unit k % levelExt r k), unit := ks.map unit
    spawned := false, cwa := 0, dispatched := false, left := recWarps r, saved := [], expired := false, know := [] }

/-- The number of a grid's slice: its unit at the core level. -/
def sliceIndex (r : List Byte) (sl : Slice) : Nat := sl.unit.getD (coreLevel r) 0

/-- The slices of a grid that stand on cores, by number and core. -/
def slicesThere (m : Mach) (id : Nat) (g : Grid) : List (Nat × Nat) :=
  (m.slices.filter (fun e => e.2.grid == id && !e.2.spawned)).map (fun e => (sliceIndex g.record e.2, e.2.core))

/-- `UNIT_PLACEMENT` (R347): the next unit of a grid goes to the cores named; grids with earlier deadlines whose next unit can be placed go first. The slices of a
co-resident unit dispatch at once. -/
def execUnitPlacement (grid : Nat) (cores : List Nat) (s : State) : Out :=
  .next (
    match mget s.m.grids grid with
    | none => s
    | some g =>
      let size := unitSize g.record (placeLevel g.record)
      let first := g.placed * size
      let there := slicesThere s.m grid g
      let held := s.m.grids.any (fun e => (s.ctx e.2.ctx).partition == (s.ctx g.ctx).partition && e.2.before g && canPlace s s.m e.1 e.2)
      if g.phase ≠ .placing ∨ g.total ≤ g.placed ∨ cores.length ≠ size ∨ held ∨ !cores.all (coreUsable s s.m grid g) ∨ cores.eraseDups.length ≠ cores.length
          ∨ !coresAgree g.record first cores there then s
      else
        let (ids, m) := (((List.range size).zip cores).foldl (fun (acc : List Nat × Mach) e =>
          let (id, m) := enqueueSlice acc.2 e.2 (gridSlice g grid (first + e.1) e.2)
          (acc.1 ++ [id], m)) ([], s.m))
        let m := { m with grids := madj m.grids grid (fun g => { g with placed := g.placed + 1 }) }
        s.withM (if coResident g.record then ids.foldl (fun m id => dispatchSlice s m id) m else m))

/-! The end of a grid. -/

/-- Whether a grid has ended (R314): every slice has, and every engine operation; no store or tile of a warp that has gone is on its way. -/
def gridDone (m : Mach) (id : Nat) (g : Grid) : Bool :=
  let lives := fun (uid : Nat) => (warpAnywhere m uid).isSome
  g.phase == .placing && g.total ≤ g.placed && !m.slices.any (fun e => e.2.grid == id) && !m.copies.any (fun c => c.2.grid == id)
    && !m.gathers.any (fun c => c.2.grid == id) && m.stores.all (fun st => st.ctx ≠ g.ctx || lives st.warp)
    && m.tiles.all (fun t => t.2.ctx ≠ g.ctx || lives t.2.warp)
    && !m.cores.any (fun c => c.2.gangs.any (fun e => e.2.ctx == g.ctx && e.2.members.isEmpty))

/-- THE KERNEL BOUNDARY after a grid (R314, R315): its writes are seen by every agent, every L1 is invalidated, and no core holds a fetched word any more. -/
def kernelBoundary (m : Mach) : Mach := let m := settleAll m; { m with cores := m.cores.map (fun c => (c.1, { c.2 with l1 := [], code := [] })) }

/-- `GRID_END` (R314, R346): the boundary, STATE 2, and word to the firmware. -/
def execGridEnd (grid : Nat) (s : State) : Out :=
  .next (
    match mget s.m.grids grid with
    | none => s
    | some g =>
      if !gridDone s.m grid g then s
      else
        match gridStatus s (kernelBoundary s.m) g 2 with
        | (false, m) => s.withM (keepTouches s.m m)
        | (true, m) => s.withM (gridEvent { m with grids := madj m.grids grid (fun g => { g with phase := .ended }) } g.ctx (statusWord 2 (0, 0, 0))))

/-! Link errors of the command processors (R396). -/

/-- The event of a link error that a command processor meets: it names no warp. -/
def frontLinkEvent (ctx : Nat) (f : FaultInfo) : Event :=
  linkEvent ctx 0x1F 0 (recordBits { pc := 0, run := 0, imp := false, slot := 0, kind := 0, cause := f.cause, detail := f.detail, addr := f.addr })

/-- The launch at HEAD of a command queue meets a link error. It is, by `which`: 0, on its entry, or 1, on the first write of its status word, and the queue stops (R390); 2, on
its record, and the launch is rejected (R345); 3, on the write of that rejection, and the queue stops. -/
def queueLinkError (s : State) (queue which : Nat) : State :=
  let q := s.m.queue queue
  let entryAt := q.base + 64 * q.head.toNat
  if !queueReady q then s
  else if which = 0 then
    if paClass s entryAt = .pod then s.withM (raiseEvent (stopQueue s.m queue q.head.toNat 0) (frontLinkEvent 0 (mkFault .addr 0 0xA entryAt))) else s
  else
    match queueEntry s q with
    | (none, _) => s
    | (some e, m) =>
      let ctx := dField e 4 2
      let sta : DWord := BitVec.ofNat 64 (dField e 16 8)
      let lra : DWord := BitVec.ofNat 64 (dField e 8 8)
      let stop := fun (m : Mach) (f : FaultInfo) => s.withM (raiseEvent (stopQueue m queue q.head.toNat ctx) (frontLinkEvent ctx f))
      if entryBad s q e ∨ dField e 0 1 = 0 then s
      else
        match which, linkAt s ctx frontCore .write sta false, putStatus s m ctx sta (statusWord 0 (0, 0, 0)) with
        | 1, some f, _ => stop s.m f
        | 2, _, .ok _ m =>
          match [lra, lra + 383].findSome? (fun a => linkAt s ctx frontCore .read a false) with
          | none => s
          | some f =>
            match putStatus s m ctx sta (statusWord 3 (5, 0, f.detail.toNat)) with
            | .ok _ m => s.withM (raiseEvent (gridEvent { m with queues := madj m.queues queue (fun c => { c with head := nextIndex q }) } ctx (statusWord 3 (5, 0, f.detail.toNat)))
                (frontLinkEvent ctx f))
            | _ => s
        | 3, some f, .ok _ m =>
          match readMem s m ctx frontCore lra 384 with
          | .fault _ m => stop m f
          | .ok r m => if (recordReject s m ctx r).isSome then stop m f else s
          | .wait _ => s
        | _, _, _ => s

/-- A grid that is handed over or ends meets a link error on its status word: its queue stops at the grid's entry, and the grid goes on (R390). -/
def gridLinkError (s : State) (grid : Nat) : State :=
  match mget s.m.grids grid with
  | none => s
  | some g =>
    match linkAt s g.ctx frontCore .write g.sta false with
    | none => s
    | some f =>
      let stop := fun (m : Mach) => raiseEvent (stopQueue m g.queue g.entry g.ctx) (frontLinkEvent g.ctx f)
      if g.phase = .waiting ∧ !(recDep g.record && !earlierEnded s.m g) then
        s.withM (stop (dropCode { s.m with grids := madj s.m.grids grid (fun g => { g with phase := .placing }) }))
      else if gridDone s.m grid g then
        s.withM (gridEvent (stop { kernelBoundary s.m with grids := madj s.m.grids grid (fun g => { g with phase := .ended }) }) g.ctx (statusWord 2 (0, 0, 0)))
      else s

/-- `LINK_ERROR` (R396): a remote load or atomic faults precisely in its remote lanes; a remote store is recorded; a copy or a gather stops, or loses its record; a fetch, a
walk or a descriptor read faults at its word; a term step's scales are unusable; a launch or a grid meets it as a fault on its record or status word. `op` is the identity of
the store, the pending result, the engine command, the gang or the grid; with warp 0 it is a sequencer's context * 512 + core, or a command queue * 512 + 508 and which access. -/
def execLinkError (warp op : Nat) (s : State) : Out :=
  .next (
    if warp = 0 ∧ (s.m.seq (op / 512) (op % 512)).remote.isSome then seqLinkError s (op / 512) (op % 512)
    else if warp = 0 ∧ 508 ≤ op % 512 then queueLinkError s (op / 512) (op % 512 - 508)
    else if warp = 0 ∧ (mget s.m.grids op).isSome then gridLinkError s op
    else
      match (nextStore s.m warp).filter (fun st => st.failed.isNone && st.seq == op), mget s.m.copies op, mget s.m.gathers op with
      | some st, _, _ => storeLinkError s st
      | none, some c, _ => stopCopyLink s op c
      | none, none, some g => stopGatherLink s op g
      | none, none, none =>
        match warpAnywhere s.m warp with
        | none => match gangLink s op with | some (core, ctx, slot, f) => stepLinkError s op core ctx slot f | none => s
        | some (core, pos, w) =>
          match (w.pend? op).filter (fun p => p.kind == .remote) with
          | some p => loadLinkError s core pos w p
          | none => warpLinkError s core pos w)

end Sys2Proof.Machine
end

