-- ==== Sys2Proof/Machine/Package.lean ====
section
/-! DEFINITION. The package around the cores: pre-emption and resumption (R386, R387), retirement and the resets (R388), boot (R398, R399), modes (R402),
the event arbiters (R400), the loops (R139), and accesses from outside (R389, R392, R393, R395). -/

namespace Sys2Proof.Machine

/-! Pre-emption. -/

/-- A context's attributes changed. -/
def State.adjCtx (s : State) (id : Nat) (f : Context → Context) : State := { s with contexts := madj s.contexts id f }

/-- Whether what a halt waits for is over on some cores (R386, R278): begun term steps, sends waiting for their answers, arrivals being added to pinned buffers;
and every issued store of the context there is performed or recorded, and no word is performed in part. -/
def haltReady (m : Mach) (ctx : Nat) (cores : List Nat) : Bool :=
  let pinned := fun (t : Tile) => (m.chain? t.ctx t.chain).any (fun c => c.decls.any (fun d => d.core == t.dst && d.isOpen && d.receives && d.page.isNone))
  m.stores.all (fun st => !(st.ctx == ctx && cores.contains st.core))
    && m.tiles.all (fun e => !(e.2.ctx == ctx && ((!e.2.accepted && cores.contains e.2.src) || (e.2.accepted && cores.contains e.2.dst && pinned e.2))))
    && cores.all (fun k => (m.core k).warps.all (fun e => e.2.ctx ≠ ctx || !e.2.midWord))
    && cores.all (fun k => (m.core k).gangs.all (fun g => g.2.ctx ≠ ctx || g.2.steps.all (fun t => t.loaded.isNone || m.cy + 1 < t.first)))

/-- A step whose first cycle has not passed is not begun: its operands are loaded again later. -/
def unloadStep (t : TermStep) : TermStep := { t with loaded := none }

/-- The warps of a context on a core saved (R386, R387): a group stands at its next word, and a run that has begun is kept with its latches and with the targets that its
transfers have decided, since a program sees pre-emption only as time (R190; log 81). Their gangs give up their arrays, the pins and the L1 contents are dropped. -/
def saveCore (m : Mach) (ctx core : Nat) : Mach :=
  let c := m.core core
  let mine := c.warps.filter (fun e => e.2.ctx == ctx)
  let gone := mine.map (·.1)
  let sws := mine.map (fun e => ({ core := core, pos := e.1, warp := e.2 } : SavedWarp))
  let m := { m with saved := mset m.saved ctx (mgetD m.saved ctx [] ++ sws) }
  let m := m.setCore core
    { c with warps := c.warps.filter (fun e => e.2.ctx ≠ ctx), active := c.active.filter (fun p => !gone.contains p), pending := c.pending.filter (fun p => !gone.contains p.pos)
             gangs := c.gangs.map (fun g => if g.2.ctx = ctx then (g.1, { g.2 with array := none, steps := g.2.steps.map unloadStep }) else g), l1 := [] }
  { m with ctxCores := madj m.ctxCores (ccKey ctx core) (fun k => { k with pins := [] }) }

/-- `PREEMPTION_REQUEST` (R386, R387): issue stops on the cores named; once what the halt waits for is over, the context's state there is saved. -/
def execPreemptionRequest (ctx : Nat) (cores : List Nat) (s : State) : Out :=
  .next (
    let c := s.ctx ctx
    let new := (cores.filter (fun k => s.coreInPartition ctx k && !c.halted.contains k)).eraseDups
    if new.isEmpty ∨ (mget s.contexts ctx).isNone then s
    else if !(new.all c.halting.contains) then s.adjCtx ctx (fun c => { c with halting := c.halting ++ new.filter (fun k => !c.halting.contains k) })
    else if haltReady s.m ctx new then
      (s.adjCtx ctx (fun c => { c with halting := c.halting.filter (fun k => !new.contains k), halted := c.halted ++ new })).withM
        (new.foldl (fun m k => saveCore m ctx k) s.m)
    else s)

/-- A list of pairs as a function on cores. -/
def coreFn (ps : List (Nat × Nat)) (k : Nat) : Nat := (ps.find? (fun p => p.1 == k)).elim k (·.2)

/-- Whether a context may be resumed with its halted cores at others (R387): the same cores, or whole clusters moved within their die to clusters in which the
context holds nothing. -/
def mayMove (s : State) (m : Mach) (ctx : Nat) (ps : List (Nat × Nat)) : Bool :=
  let from_ := ps.map (·.1)
  ps.all (fun p => s.coreInPartition ctx p.2 && dieOf p.1 == dieOf p.2) && (ps.map (·.2)).eraseDups.length == ps.length
    && ps.all (fun p => p.1 == p.2 ||
        (p.1 % 8 == p.2 % 8 && (List.range 8).all (fun i => from_.contains (peerCore p.1 i) && clusterOf (coreFn ps (peerCore p.1 i)) == clusterOf p.2)
          && (!m.holdsCluster ctx (clusterOf p.2) || from_.any (fun k => clusterOf k == clusterOf p.2 && coreFn ps k != k))))

/-- A map's keys changed, in key order. -/
def rekey {α : Type} (f : Nat → Nat) (l : SMap α) : SMap α := l.foldl (fun a e => mset a (f e.1) e.2) []

/-- An agent of a context after the context's cores are others: it belongs to the instances of scopes of its new core (R300). -/
def Agent.moved (ctx : Nat) (f : Nat → Nat) (a : Agent) : Agent := if a.ctx = ctx then { a with core := f a.core } else a
def RelSrc.moved (ctx : Nat) (f : Nat → Nat) (r : RelSrc) : RelSrc := { r with agent := r.agent.moved ctx f }
/-- A held effect whose warp stands on another core now. -/
def Held.moved (ctx : Nat) (f : Nat → Nat) : Held → Held
  | .store st => .store { st with core := f st.core, srcs := st.srcs.map (RelSrc.moved ctx f) }
  | .publish e v sts => .publish e v (sts.map (fun st => { st with core := f st.core, srcs := st.srcs.map (RelSrc.moved ctx f) }))
  | h => h

/-- The releases that a machine holds for whoever reads them, in memory and by agents, once a context's cores are others (R300, R417). -/
def movedRels (m : Mach) (ctx : Nat) (f : Nat → Nat) : Mach :=
  let rels := fun (l : List RelSrc) => l.map (RelSrc.moved ctx f)
  { m with late := m.late.map (fun l => { l with agent := l.agent.moved ctx f }), rels := m.rels.map (fun t => { t with srcs := rels t.srcs })
           stores := m.stores.map (fun st => { st with srcs := rels st.srcs }), copies := m.copies.map (fun c => (c.1, { c.2 with srcs := rels c.2.srcs }))
           apps := m.apps.map (fun a => (a.1, { a.2 with seen := rels a.2.seen }))
           cores := m.cores.map (fun c => (c.1, { c.2 with warps := c.2.warps.map (fun w => (w.1, { w.2 with seen := rels w.2.seen })) }))
           ctxCores := m.ctxCores.map (fun c =>
             (c.1, { c.2 with seq := { c.2.seq with seen := rels c.2.seq.seen }, signals := c.2.signals.map (fun e => (e.1, rels e.2)) }))
           ctxClusters := m.ctxClusters.map (fun c => (c.1, { c.2 with watch := c.2.watch.map (fun e => (e.1, { e.2 with rels := rels e.2.rels })) })) }

/-- The residue of a context's released state dropped from the clusters that its state comes to (R428). -/
def dropResidue (m : Mach) (ctx : Nat) (f : Nat → Nat) : Mach :=
  let comes := fun (cl : Nat) => (List.range 288).any (fun k => f k ≠ k && clusterOf (f k) == cl) && !m.holdsCluster ctx cl
  { m with ctxClusters := m.ctxClusters.filter (fun e => !(e.1 / 64 == ctx && comes (e.1 % 64)))
           ctxCores := m.ctxCores.filter (fun e => !(e.1 / 512 == ctx && comes (clusterOf (e.1 % 512)))) }

/-- What a context holds on its cores renamed when the cores are others (R387, R278): engines in flight, chains, slices, cluster state, and its releases. -/
def moveContext (m : Mach) (ctx : Nat) (f : Nat → Nat) : Mach :=
  let m := movedRels (dropResidue m ctx f) ctx f
  let decl := fun (d : Decl) => { d with core := f d.core, hop := f d.hop, buffer := d.buffer.map (fun (b : ArrivalBuffer) => { b with senders := b.senders.map f }) }
  let key := fun k => if k / 512 = ctx then ctx * 512 + f (k % 512) else k
  let clkey := fun k => if k / 64 = ctx then ctx * 64 + clusterOf (f ((k % 64) / 18 * 144 + (k % 64) % 18 * 8)) else k
  let ids := (m.slices.filter (fun e => e.2.ctx == ctx)).map (·.1)
  let carried := fun (core : Nat) => (m.core core).gangs.filter (fun g => g.2.ctx == ctx)
  let queued := fun (core : Nat) => (m.core core).registrar.filter ids.contains
  let ended := fun (core : Nat) => (m.core core).leaving.filter (fun w => w.ctx == ctx)
  let cores := mkeys m.cores
  let bare : Mach := { m with cores := m.cores.map (fun c =>
    (c.1, { c.2 with gangs := c.2.gangs.filter (fun g => g.2.ctx ≠ ctx), registrar := c.2.registrar.filter (fun i => !ids.contains i)
                     leaving := c.2.leaving.filter (fun w => w.ctx ≠ ctx) })) }
  let m := cores.foldl (fun a k => a.adjCore (f k) (fun c =>
    { c with gangs := (carried k).foldl (fun gs g => mset gs g.1 g.2) c.gangs, registrar := c.registrar ++ queued k, leaving := c.leaving ++ ended k })) bare
  { m with ctxCores := rekey key m.ctxCores
           ctxClusters := (rekey clkey m.ctxClusters).map (fun e =>
             (e.1, if e.1 / 64 = ctx then { e.2 with watch := e.2.watch.map (fun w => (w.1, { w.2 with core := f w.2.core })) } else e.2))
           slices := m.slices.map (fun e => (e.1, if e.2.ctx = ctx then { e.2 with core := f e.2.core } else e.2))
           copies := m.copies.map (fun e => (e.1, if e.2.ctx = ctx then { e.2 with core := f e.2.core } else e.2))
           gathers := m.gathers.map (fun e => (e.1, if e.2.ctx = ctx then { e.2 with core := f e.2.core } else e.2))
           stores := m.stores.map (fun st => if st.ctx = ctx then { st with core := f st.core } else st)
           tiles := m.tiles.map (fun e => (e.1, if e.2.ctx = ctx then { e.2 with src := f e.2.src, dst := f e.2.dst } else e.2))
           dirQueue := m.dirQueue.map (fun r => if r.ctx = ctx then { r with core := f r.core, decl := decl r.decl } else r)
           chains := m.chains.map (fun e => (e.1, if e.2.ctx = ctx then { e.2 with decls := e.2.decls.map decl } else e.2)) }

/-- A warp as it is restored (R338): the counts of runs start again at zero; its held stores leave from its new core. -/
def restoredWarp (ctx : Nat) (f : Nat → Nat) (w : Warp) : Warp :=
  let zero := fun (g : Group) => { g with conv := g.conv.map (fun _ => 0) }
  { w with groups := w.groups.map zero, hgroups := w.hgroups.map zero, serial := w.serial.map (fun p => (p.1, 0))
           levels := w.levels.map (fun l => { l with held := l.held.map (Held.moved ctx f) }), seen := w.seen.map (RelSrc.moved ctx f) }

/-- The names under which a context sees its cores after it is resumed elsewhere. -/
def movedNames (c : Context) (ps : List (Nat × Nat)) : SMap Nat :=
  let kept := c.coreMap.filter (fun e => !(ps.any (fun p => p.1 == e.1)))
  ps.foldl (fun a p =>
    let seen := mgetD c.coreMap p.1 p.1
    if seen = p.2 then mdel a p.2 else mset a p.2 seen) kept

/-- Whether the pinned buffers of a context's halted cores find room where these resume (R278). -/
def buffersFit (s : State) (ctx : Nat) (ps : List (Nat × Nat)) : Bool :=
  ps.all (fun p =>
    let mine := s.m.chains.foldl (fun n e => if e.2.ctx = ctx then n + (e.2.decls.filter (fun d => d.core == p.1 && d.page.isNone && d.buffer.isSome)).length else n) 0
    buffersUsed s s.m p.2 + mine ≤ 16)

/-- A saved warp that leaves as many of its registers in its Satchel as find room there (R185). -/
def packWarp (m : Mach) : Nat → Warp → Warp
  | 0, w => w
  | fuel + 1, w => if w.burst.isEmpty ∨ satchelQuota m w < (w.inSatchel + w.burst.length) * 128 then w else packWarp m fuel w.spill

/-- Some saved warps with physical registers made free for them where they come to stand. -/
def roomForSaved (m : Mach) (f : Nat → Nat) (sws : List SavedWarp) : Option Mach :=
  ((sws.map (fun sw => f sw.core)).eraseDups).foldl (fun a k => a.bind (fun m => roomForWarps m k ((sws.filter (fun sw => f sw.core == k)).map (·.warp)))) (some m)

/-- The placement in which the renamer restores some saved warps, and the machine with room for it: as they stood, or with what their Satchels hold put there (R185). -/
def restorePlaces (m : Mach) (f : Nat → Nat) (sws : List SavedWarp) : Option (List SavedWarp × Mach) :=
  let packed := sws.map (fun sw => { sw with warp := packWarp m 16 sw.warp })
  [sws, packed].findSome? (fun l => (roomForSaved m f l).map (fun m => (l, m)))

/-- `CONTEXT_RESUME` (R387): `cores` names, for each halted core in the order halted, the core that takes its place. Each warp returns to its position; pinned
buffers find room before a warp issues again (R278). No ordering is added or removed (R417). -/
def execContextResume (ctx : Nat) (cores : List Nat) (s : State) : Out :=
  .next (
    let c := s.ctx ctx
    let ps := c.halted.zip cores
    let f := coreFn ps
    let sws := mgetD s.m.saved ctx []
    if c.halted.isEmpty ∨ cores.length ≠ c.halted.length ∨ !mayMove s s.m ctx ps ∨ !buffersFit s ctx ps
        ∨ sws.any (fun sw => (s.m.warp? (f sw.core) sw.pos).isSome) then s
    else
      let moved := if ps.all (fun p => p.1 == p.2) then s.m else moveContext s.m ctx f
      match restorePlaces moved f sws with
      | none => s
      | some (sws, m) =>
      let m := sws.foldl (fun m sw => m.adjCore (f sw.core) (fun k =>
        { k with warps := mset k.warps sw.pos (restoredWarp ctx f sw.warp), pending := k.pending ++ [{ pos := sw.pos, ready := 0 }], l1 := [] })) m
      (s.adjCtx ctx (fun c => { c with halted := [], coreMap := movedNames c ps })).withM { m with saved := mdel m.saved ctx })

/-! Retirement and resets. -/

/-- An engine command of a context that is retired, ended with status 4 (R388). DESIGN CHOICE: a record whose page would have to be mapped first is lost, with its
event, since the context is gone before the memory manager can answer (log 109). -/
def retireEngine (s : State) (m : Mach) (e : EngineEnd) : Mach :=
  let r := engineClose s m e
  if r.waits then e.report (e.report m 0x03) 0x0A else r.m

/-- The events that are still held, of a context that is retired, with the function it was bound to, if any (R400); those of an earlier context of its id keep theirs. -/
def stampEvents (m : Mach) (ctx : Nat) (function : Option Nat) : Mach :=
  { m with arbiters := m.arbiters.map (fun a => { a with held := a.held.map (fun e => if e.2.ctx = ctx ∧ e.2.function.isNone then (e.1, { e.2 with function := some function }) else e) }) }

/-- The event of a context retired by a reset (R400, type 0x04). -/
def retiredEvent (m : Mach) (die ctx : Nat) : Mach :=
  let (pay, m) := openBytes m 16
  raiseEvent m { type := 0x04, src := die, ctx := ctx, who := 0, pay := pay, function := none }

/-- A context retired (R388), with the event of the die whose reset does it: its warps are gone, its engines end with status 4, its chains retire, and nothing of it
is left in the package. -/
def retireCtx (s : State) (ctx : Nat) (die : Option Nat := none) : State :=
  let m := { s.m with slices := s.m.slices.filter (fun e => e.2.ctx ≠ ctx), stores := s.m.stores.filter (fun st => st.ctx ≠ ctx) }
  let m := (m.allWarps.filter (fun e => e.2.2.ctx == ctx)).foldl (fun m e => terminateWarp m e.1 e.2.1) m
  let m := (mgetD m.saved ctx []).foldl (fun m sw => discardHeld m sw.core sw.warp sw.warp.levels) m
  let m := (m.copies.filter (fun e => e.2.ctx == ctx)).foldl (fun m e => retireEngine s m (e.2.ends m e.1 4 (plainFault .addr) 0)) m
  let m := (m.gathers.filter (fun e => e.2.ctx == ctx)).foldl (fun m e => retireEngine s m (e.2.ends m e.1 4 (plainFault .addr) 0)) m
  let m := match die with | some d => retiredEvent m d ctx | none => m
  let m := stampEvents m ctx (s.ctx ctx).function
  { s with
    contexts := mdel s.contexts ctx
    m := { m with
      copies := m.copies.filter (fun e => e.2.ctx ≠ ctx), gathers := m.gathers.filter (fun e => e.2.ctx ≠ ctx)
      chains := m.chains.filter (fun e => e.2.ctx ≠ ctx), dirQueue := m.dirQueue.filter (fun r => r.ctx ≠ ctx), tiles := m.tiles.filter (fun e => e.2.ctx ≠ ctx)
      stores := m.stores.filter (fun st => st.ctx ≠ ctx), saved := mdel m.saved ctx
      ctxCores := m.ctxCores.filter (fun e => e.1 / 512 ≠ ctx), ctxClusters := m.ctxClusters.filter (fun e => e.1 / 64 ≠ ctx)
      tlb := m.tlb.filter (fun e => e.ctx ≠ ctx), walks := m.walks.filter (fun e => e.ctx ≠ ctx), touches := m.touches.filter (fun e => e.2.ctx ≠ ctx)
      grids := m.grids.map (fun e => (e.1, if e.2.ctx = ctx then { e.2 with phase := .ended } else e.2))
      cores := m.cores.map (fun c => (c.1,
        { c.2 with gangs := c.2.gangs.filter (fun g => g.2.ctx ≠ ctx), leaving := c.2.leaving.filter (fun w => w.ctx ≠ ctx)
                   registrar := c.2.registrar.filter (fun i => (mget m.slices i).isSome) })) } }

/-- Whether a context has a core on a die. -/
def coresOnDie (s : State) (ctx die : Nat) : Bool := (s.partitionOf ctx).clusters.any (fun c => c / 18 == die)
/-- Whether a context can have a page on a die: its partition has frames there. -/
def pagesOnDie (s : State) (ctx die : Nat) : Bool :=
  (s.partitionOf ctx).frames.any (fun r => 0 < r.2 && (homeDie (r.1 * 4096) == die || homeDie ((r.1 + r.2 - 1) * 4096) == die))

/-- `CORE_RESET` (R388): every context with a core on the die is retired first, each with its event. -/
def execCoreReset (die : Nat) (s : State) : Out :=
  .next (
    let gone := (mkeys s.contexts).filter (fun c => coresOnDie s c die)
    let t := gone.foldl (fun t c => retireCtx t c (some die)) s
    t.withM { t.m with cores := t.m.cores.filter (fun c => dieOf c.1 ≠ die) })

/-- `UNCORE_RESET` (R388): made only after every context with a core or a page on the die has been retired; the die's memory contents are not kept. -/
def execUncoreReset (die : Nat) (s : State) : Out :=
  .next (
    if 2 ≤ die ∨ (mkeys s.contexts).any (fun c => coresOnDie s c die || pagesOnDie s c die) then s
    else
      let m := settleLate s.m (fun w => homeDie w.pa == die)
      s.withM { m with
        mem := m.mem.filter (fun e => homeDie e.1 ≠ die), poison := m.poison.filter (fun e => homeDie (32 * e.1) ≠ die)
        l2 := m.l2.filter (fun e => homeDie (32 * e.1) ≠ die), walks := m.walks.filter (fun e => e.die ≠ die)
        cores := m.cores.map (fun c => (c.1, { c.2 with l1 := c.2.l1.filter (fun e => homeDie (32 * e.1) ≠ die), code := c.2.code.filter (fun e => homeDie (4 * e.1) ≠ die) }))
        wstore := setAt m.wstore die [], flits := m.flits.filter (fun e => e.2.die ≠ die) })

/-- `PACKAGE_RESET` (R388): everything; the part restarts from boot. What is outside the package stays: the boot flash, host memory, the devices behind the root ports,
other packages. -/
def execPackageReset (s : State) : Out :=
  .next { State.reset with
    flash := s.flash, agenda := s.agenda, turn := s.turn
    m := { Mach.reset with mem := s.m.mem.filter (fun e => 0x1C000000000 ≤ e.1), free := s.m.free, nextId := s.m.nextId } }

/-! Boot (R398, R399). -/

/-- A list of cluster bytes in order: each at most 19, and distinct. -/
def clustersOk (bs : List Byte) : Bool := bs.all (fun b => b.toNat ≤ 19) && bs.eraseDups.length == bs.length

/-- Whether a configuration record is in order (R399). -/
def configOk (f : List Byte) : Bool :=
  f.take 4 == [0x4B, 0x43, 0x46, 0x47] && dField f 4 4 == 1 && clustersOk ((f.drop 8).take 18) && clustersOk ((f.drop 26).take 18) && dField f 44 1 ≤ 2
    && dField f 45 19 == 0 && dField f 120 4 == 0

/-- Whether every listed cluster passes its self-test. -/
def clustersTested (f : List Byte) : Bool :=
  ((f.drop 8).take 18).all (fun b => Config.selfTestPasses 0 b.toNat) && ((f.drop 26).take 18).all (fun b => Config.selfTestPasses 1 b.toNat)

/-- A 4-byte big-endian field, as RFC 8554 writes its fields. -/
def beField (f : List Byte) (off : Nat) : Nat := bytesToNat ((f.drop off).take 4).reverse

/-- Whether an LMS signature at an offset names LMOTS_SHA256_N32_W8 and LMS_SHA256_M32_H20: type codes 4 and 8, the latter after the 1,124 bytes of the
one-time signature. PRESUMED: codes and layout are those of RFC 8554, which R398 names (log 110). -/
def lmsForm (f : List Byte) (off : Nat) : Bool := beField f (off + 4) == 4 && beField f (off + 1128) == 8

/-- Whether an LMS public key at an offset names the same two algorithms (log 110). -/
def keyForm (f : List Byte) (off : Nat) : Bool := beField f off == 8 && beField f (off + 4) == 4

/-- Whether the record's signature, from byte 128 on, is an HSS signature of one or two levels, in form and in length (R398; log 110). -/
def signatureForm (f : List Byte) : Bool :=
  match beField f 128 with
  | 0 => dField f 124 4 == 1776 && lmsForm f 132
  | 1 => dField f 124 4 == 3604 && lmsForm f 132 && keyForm f 1904 && lmsForm f 1960
  | _ => false

/-- The step at which a boot fails, if any, from what the flash holds (R398). Whether a signature of the right form is the signer's is a free value of the flash. -/
def bootFailure (f : List Byte) : Option Nat :=
  if f.length ≤ 128 + dField f 124 4 then some 0x01
  else if !(signatureForm f && Config.signatureValid f) then some 0x02
  else if !(configOk f && clustersTested f) then some 0x03
  else if !(keyForm f 64 && Config.firmwareStarts f) then some 0x04
  else if !Config.endpointStarts f then some 0x05
  else none

/-- The package in another mode, the refresh windows as that mode's schedule has them (R176, R402). -/
def setMode (s : State) (mode : Mode) : State := { s with mode := mode, m := { s.m with windows := refreshWindows mode s.counter.toNat } }

/-- A mode of R399 and R402. -/
def modeOf (n : Nat) : Mode := if n = 1 then .cool else if n = 2 then .steady else .full

/-- `BOOT` (R398). -/
def execBoot (s : State) : Out :=
  .next (
    match s.boot with
    | .off =>
      match bootFailure s.flash with
      | some code => { s with boot := .failed code }
      | none => setMode { s with boot := .running } (modeOf (dField s.flash 44 1))
    | _ => s)

/-- `MODE_CHANGE` (R402): only while no grid runs. -/
def execModeChange (mode : Nat) (s : State) : Out :=
  .next (if 3 ≤ mode ∨ s.m.grids.any (fun g => g.2.phase == .placing) then s else setMode s (modeOf mode))

/-! Event arbiters (R400). -/

/-- An event as a 32-byte record, with the counter at acceptance. -/
def eventBytes (e : Event) (counter : DWord) : List Byte :=
  natToBytes 1 e.type ++ natToBytes 1 e.src ++ natToBytes 2 e.ctx ++ natToBytes 4 e.who.toNat ++ natToBytes 8 counter.toNat ++ e.pay.take 16

/-- The function that an event's context is bound to, or was when it was retired. -/
def eventFunction (s : State) (e : Event) : Option Nat := match e.function with | some f => f | none => (mget s.contexts e.ctx).bind (·.function)

/-- `EVENT_RECORD` (R400): an event enters the ring while there is space, and is forwarded as MSI-X vector 0 of its context's function. -/
def execEventRecord (arbiter event : Nat) (s : State) : Out :=
  .next (
    match s.m.arbiters[arbiter]? with
    | none => s
    | some a =>
      match mget a.held event with
      | none => s
      | some e =>
        if a.size ≤ a.used then s
        else
          let m := writePa s s.m (a.base + 32 * (a.head % a.size)) ((eventBytes e s.counter).map some)
          let m := { m with arbiters := setAt m.arbiters arbiter { a with head := a.head + 1, used := a.used + 1, held := mdel a.held event } }
          match eventFunction s e with
          | some f => s.withM { m with msix := mset m.msix (32 * f) (mgetD m.msix (32 * f) 0 + 1) }
          | none => s.withM m)

/-- `EVENT_RING_SPACE` (R400): the firmware frees records of a ring. -/
def execEventRingSpace (arbiter count : Nat) (s : State) : Out :=
  .next (
    match s.m.arbiters[arbiter]? with
    | none => s
    | some a => s.withM { s.m with arbiters := setAt s.m.arbiters arbiter { a with used := a.used - count } })

/-! The loops (R139). -/

/-- `INJECTION_CLAIM` (R139): a flit that has waited 64 cy claims a slot of its loop. -/
def execInjectionClaim (die loop stop : Nat) (s : State) : Out :=
  .next (s.withM { s.m with flits := s.m.flits.map (fun e =>
    (e.1, if e.2.die = die ∧ e.2.loop = loop ∧ e.2.stop = stop ∧ 64 ≤ e.2.waited then { e.2 with claimed := true } else e.2)) })

/-- A waiting flit enters its loop, unless another stop's claim takes the slot. -/
def enterLoop (m : Mach) (id : Nat) : Mach :=
  match mget m.flits id with
  | none => m
  | some f =>
    let claimed := m.flits.any (fun e => e.2.die == f.die && e.2.loop == f.loop && e.2.stop != f.stop && e.2.claimed)
    if claimed ∧ !f.claimed then m else { m with flits := mdel m.flits id }

/-! Accesses from outside. -/

/-- Whether a range lies in a window. -/
def inWindow (w : Option Window) (addr n : Nat) : Bool := w.any (fun w => w.base ≤ addr && addr + n ≤ w.base + w.size)

/-- Where a device's access lands: the physical address that a mapping of the firmware gives the whole range (R393). -/
def deviceTarget (s : State) (device addr n : Nat) : Option Nat :=
  ((mgetD s.iommu device []).find? (fun m => m.base ≤ addr && addr + n ≤ m.base + m.size)).map (fun m => m.pa + (addr - m.base))

/-- Where a host function's access lands: in its own queues' pages, or in its device-memory window (R392, R397). -/
def functionTarget (s : State) (function addr n : Nat) : Option Nat :=
  let own := match paClass s addr with | .queuePage q _ => (s.m.queue q).bound && (s.m.queue q).function == function | _ => false
  if own || inWindow (mget s.bars function) addr n then some addr else none

/-- `HOST_ACCESS` (R389, R392, R393): functions 0 to 128 of the endpoint; from 129 on, a device behind a root port, through the IOMMU mappings, among them to another
root port. Nothing else is forwarded. A load of HBM fills its sectors at L2 (R130). -/
def execHostAccess (function addr : Nat) (store : Bool) (data : List Byte) (s : State) : Out :=
  .next (
    match if 128 < function then deviceTarget s function addr data.length else functionTarget s function addr data.length with
    | some pa => if store then s.withM (writePa s s.m pa (data.map some)) else if pa + data.length ≤ 0x6000000000 then s.withM (fillL2 s.m pa data.length) else s
    | none => s)

/-- An atomic of an agent outside the compute dies at its L2 slice (R132): the old value, and the machine after it. It continues the release sequence that it reads (R307). -/
def outerAtomic (s : State) (m : Mach) (addr n code operand : Nat) : List Byte × Mach :=
  let srcs := srcsRead m 2 addr n
  let old := readBytes m.mem addr n
  let m := writePa s (fillL2 m addr n) addr ((natToBytes n (atomComb code (bytesToNat old) operand)).map some)
  let (id, m) := m.newId
  (old, if srcs.isEmpty then m else { m with rels := m.rels ++ [{ id := id, pa := addr, len := n, srcs := srcs }] })

/-- `POD_ACCESS` (R395): another package's load (kind 0), store (1) or atomic (2 + code, or 2 + 16 for one half of `fadd2.b2`, R151), performed at the owner's L2. The
value goes back over the link. -/
def execPodAccess (addr kind : Nat) (data : List Byte) (s : State) : Out :=
  .next (
    let code := kind - 2
    let n := if kind < 2 then data.length else if code = 0xE then 4 else atomSize code
    if 0x6000000000 < addr + n then s
    else if kind = 0 then s.withM (fillL2 s.m addr n)
    else if kind = 1 then s.withM (writePa s s.m addr (data.map some))
    else if (0xE < code ∧ code ≠ 16) ∨ addr % n ≠ 0 ∨ poisonedRange s.m addr n then s
    else s.withM (outerAtomic s s.m addr n code (bytesToNat data)).2)

/-! Application cores (R300, R316). -/

/-- An application core that has not accessed memory. -/
def AppCore.fresh : AppCore := { got := [], know := [], seen := [], fenced := false }

/-- The agent that an application core is: it lies in the instances of `.dev` and wider alone. -/
def appAgent (core : Nat) : Agent := { ctx := 0, core := 432 + 8 * core, warp := 0, gang := none }

/-- What an application core has read by a load or an atomic: an acquire acts as one at `.dev`. -/
def AppCore.reads (a : AppCore) (m : Mach) (core : Nat) (acq : Bool) (srcs : List RelSrc) (bs : List Byte) : AppCore :=
  if acq then { a with got := bs, know := stillLate m (a.know ++ acquired srcs 5 (appAgent core)) } else { a with got := bs, seen := (a.seen ++ srcs).eraseDups }

/-- The machine before a write of an application core: a release, of its own or by a fence before it, carries what happens before it to both dies (R308). -/
def appRelease (m : Mach) (a : AppCore) (rel : Bool) : Mach := if rel || a.fenced then settleLate m (fun w => a.know.contains w.id) else m

/-- AN ACCESS OF AN APPLICATION CORE to HBM (R316). It reads the newest value, and its writes are seen by every agent at once (log 17); it reaches no poisoned sector. -/
def appAccess (s : State) (core : Nat) (access : AppAccess) : Mach :=
  let m := s.m
  let a := mgetD m.apps core .fresh
  let keep := fun (m : Mach) (a : AppCore) => { m with apps := mset m.apps core a }
  let reach := fun (pa n : Nat) => pa + n ≤ 0x6000000000 && !poisonedRange m pa n
  match access with
  | .load pa n acq =>
    if 0 < n && reach pa n then keep (fillL2 m pa n) (a.reads m core acq (srcsRead m 2 pa n) (readBytes m.mem pa n)) else m
  | .store pa bs rel => if pa + bs.length ≤ 0x6000000000 then keep (writePa s (appRelease m a rel) pa (bs.map some)) a else m
  | .atomic pa code operand acq rel =>
    let n := atomSize code
    if code ≤ 0xD && pa % n = 0 && reach pa n then
      let a := a.reads m core acq (srcsRead m 2 pa n) (readBytes m.mem pa n)
      keep (outerAtomic s (appRelease m a rel) pa n code operand).2 a
    else m
  | .fence acq rel =>
    let a := if acq then { a with know := stillLate m (a.know ++ acquired a.seen 5 (appAgent core)), seen := [] } else a
    keep m { a with fenced := a.fenced || rel }

end Sys2Proof.Machine
end

