-- ==== Sys2Proof/Machine/Dispatch.lean ====
section
/-! DEFINITION. The one dispatch from an instruction or step to its meaning. -/

namespace Sys2Proof.Machine

def exec (i : Instr) (s : State) : Host.Outcome State Fault Refusal :=
  match i with
  | .iadd n d a b => Sys2Proof.Machine.execIadd n d a b s
  | .isub n d a b => Sys2Proof.Machine.execIsub n d a b s
  | .imul n d a b => Sys2Proof.Machine.execImul n d a b s
  | .imad n d a b => Sys2Proof.Machine.execImad n d a b s
  | .imulhS32 n d a b => Sys2Proof.Machine.execImulhS32 n d a b s
  | .imulhN32 n d a b => Sys2Proof.Machine.execImulhN32 n d a b s
  | .iaddS64 d a b => Sys2Proof.Machine.execIaddS64 d a b s
  | .iaddN64 d a b => Sys2Proof.Machine.execIaddN64 d a b s
  | .idot4S8 n d a b => Sys2Proof.Machine.execIdot4S8 n d a b s
  | .idot4N8 n d a b => Sys2Proof.Machine.execIdot4N8 n d a b s
  | .idot2S16 n d a b => Sys2Proof.Machine.execIdot2S16 n d a b s
  | .sel n d a b => Sys2Proof.Machine.execSel n d a b s
  | .qscl n d a b => Sys2Proof.Machine.execQscl n d a b s
  | .lxch n d a b => Sys2Proof.Machine.execLxch n d a b s
  | .movi n d k1 => Sys2Proof.Machine.execMovi n d k1 s
  | .hiw n d k1 => Sys2Proof.Machine.execHiw n d k1 s
  | .and n d a b => Sys2Proof.Machine.execAnd n d a b s
  | .or n d a b => Sys2Proof.Machine.execOr n d a b s
  | .xor n d a b => Sys2Proof.Machine.execXor n d a b s
  | .andn n d a b => Sys2Proof.Machine.execAndn n d a b s
  | .shl n d a b => Sys2Proof.Machine.execShl n d a b s
  | .shr n d a b => Sys2Proof.Machine.execShr n d a b s
  | .sar n d a b => Sys2Proof.Machine.execSar n d a b s
  | .fshl n d a b => Sys2Proof.Machine.execFshl n d a b s
  | .fshr n d a b => Sys2Proof.Machine.execFshr n d a b s
  | .bfx n d a b => Sys2Proof.Machine.execBfx n d a b s
  | .bfi n d a b => Sys2Proof.Machine.execBfi n d a b s
  | .imin n d a t => Sys2Proof.Machine.execImin n d a t s
  | .imax n d a t => Sys2Proof.Machine.execImax n d a t s
  | .fminF n d a => Sys2Proof.Machine.execFminF n d a s
  | .fmaxF n d a => Sys2Proof.Machine.execFmaxF n d a s
  | .pmin n d a t => Sys2Proof.Machine.execPmin n d a t s
  | .pmax n d a t => Sys2Proof.Machine.execPmax n d a t s
  | .mov n d a => Sys2Proof.Machine.execMov n d a s
  | .iabsS32 n d a => Sys2Proof.Machine.execIabsS32 n d a s
  | .clz n d a => Sys2Proof.Machine.execClz n d a s
  | .popc n d a => Sys2Proof.Machine.execPopc n d a s
  | .brev n d a => Sys2Proof.Machine.execBrev n d a s
  | .satn n d a t => Sys2Proof.Machine.execSatn n d a t s
  | .fclass n d a t => Sys2Proof.Machine.execFclass n d a t s
  | .fcvt n d a c => Sys2Proof.Machine.execFcvt n d a c s
  | .frcpF n d a => Sys2Proof.Machine.execFrcpF n d a s
  | .frsqF n d a => Sys2Proof.Machine.execFrsqF n d a s
  | .fsqrtF n d a => Sys2Proof.Machine.execFsqrtF n d a s
  | .fexp2F n d a => Sys2Proof.Machine.execFexp2F n d a s
  | .flog2F n d a => Sys2Proof.Machine.execFlog2F n d a s
  | .fsinF n d a => Sys2Proof.Machine.execFsinF n d a s
  | .fcosF n d a => Sys2Proof.Machine.execFcosF n d a s
  | .ftanhF n d a => Sys2Proof.Machine.execFtanhF n d a s
  | .qenc n d a k1 => Sys2Proof.Machine.execQenc n d a k1 s
  | .qdec n d a k1 => Sys2Proof.Machine.execQdec n d a k1 s
  | .qlutb d a k1 => Sys2Proof.Machine.execQlutb d a k1 s
  | .qlut n d a k1 => Sys2Proof.Machine.execQlut n d a k1 s
  | .poll n d a k1 => Sys2Proof.Machine.execPoll n d a k1 s
  | .redu n d a c => Sys2Proof.Machine.execRedu n d a c s
  | .scan n d a e c => Sys2Proof.Machine.execScan n d a e c s
  | .peers n d a k1 => Sys2Proof.Machine.execPeers n d a k1 s
  | .sync a => Sys2Proof.Machine.execSync a s
  | .icmpEq n d a b => Sys2Proof.Machine.execIcmpEq n d a b s
  | .icmpNe n d a b => Sys2Proof.Machine.execIcmpNe n d a b s
  | .icmpLtS32 n d a b => Sys2Proof.Machine.execIcmpLtS32 n d a b s
  | .icmpLeS32 n d a b => Sys2Proof.Machine.execIcmpLeS32 n d a b s
  | .icmpLtN32 n d a b => Sys2Proof.Machine.execIcmpLtN32 n d a b s
  | .icmpLeN32 n d a b => Sys2Proof.Machine.execIcmpLeN32 n d a b s
  | .fcmpEqF n d a b => Sys2Proof.Machine.execFcmpEqF n d a b s
  | .fcmpLtF n d a b => Sys2Proof.Machine.execFcmpLtF n d a b s
  | .fcmpLeF n d a b => Sys2Proof.Machine.execFcmpLeF n d a b s
  | .nop => Sys2Proof.Machine.execNop s
  | .conv => Sys2Proof.Machine.execConv s
  | .exit => Sys2Proof.Machine.execExit s
  | .jmp a => Sys2Proof.Machine.execJmp a s
  | .jmpr a => Sys2Proof.Machine.execJmpr a s
  | .callr d a => Sys2Proof.Machine.execCallr d a s
  | .ret a => Sys2Proof.Machine.execRet a s
  | .sleepu a => Sys2Proof.Machine.execSleepu a s
  | .bkpt => Sys2Proof.Machine.execBkpt s
  | .trap a => Sys2Proof.Machine.execTrap a s
  | .faddF n d a b => Sys2Proof.Machine.execFaddF n d a b s
  | .faddH n d a b => Sys2Proof.Machine.execFaddH n d a b s
  | .fsubF n d a b => Sys2Proof.Machine.execFsubF n d a b s
  | .fsubH n d a b => Sys2Proof.Machine.execFsubH n d a b s
  | .fmulF n d a b => Sys2Proof.Machine.execFmulF n d a b s
  | .fmulH n d a b => Sys2Proof.Machine.execFmulH n d a b s
  | .fmaF n d a b => Sys2Proof.Machine.execFmaF n d a b s
  | .fmaH n d a b => Sys2Proof.Machine.execFmaH n d a b s
  | .paddH2 n d a b => Sys2Proof.Machine.execPaddH2 n d a b s
  | .paddB2 n d a b => Sys2Proof.Machine.execPaddB2 n d a b s
  | .pmulH2 n d a b => Sys2Proof.Machine.execPmulH2 n d a b s
  | .pmulB2 n d a b => Sys2Proof.Machine.execPmulB2 n d a b s
  | .pfmaH2 n d a b => Sys2Proof.Machine.execPfmaH2 n d a b s
  | .pfmaB2 n d a b => Sys2Proof.Machine.execPfmaB2 n d a b s
  | .ld d p o k1 t => Sys2Proof.Machine.execLd d p o k1 t s
  | .st d p o k1 t => Sys2Proof.Machine.execSt d p o k1 t s
  | .stm d p b => Sys2Proof.Machine.execStm d p b s
  | .atom r d p o k1 f => Sys2Proof.Machine.execAtom r d p o k1 f s
  | .lds d a t => Sys2Proof.Machine.execLds d a t s
  | .sts d a t => Sys2Proof.Machine.execSts d a t s
  | .ldw d a t => Sys2Proof.Machine.execLdw d a t s
  | .atoms d a c => Sys2Proof.Machine.execAtoms d a c s
  | .fence o k1 => Sys2Proof.Machine.execFence o k1 s
  | .drainst => Sys2Proof.Machine.execDrainst s
  | .prefL1 p => Sys2Proof.Machine.execPrefL1 p s
  | .prefL2 p => Sys2Proof.Machine.execPrefL2 p s
  | .bra c a o => Sys2Proof.Machine.execBra c a o s
  | .call a o => Sys2Proof.Machine.execCall a o s
  | .uadd n d a b => Sys2Proof.Machine.execUadd n d a b s
  | .usub n d a b => Sys2Proof.Machine.execUsub n d a b s
  | .umul n d a b => Sys2Proof.Machine.execUmul n d a b s
  | .umad n d a b => Sys2Proof.Machine.execUmad n d a b s
  | .uand n d a b => Sys2Proof.Machine.execUand n d a b s
  | .uor n d a b => Sys2Proof.Machine.execUor n d a b s
  | .uxor n d a b => Sys2Proof.Machine.execUxor n d a b s
  | .ushl n d a b => Sys2Proof.Machine.execUshl n d a b s
  | .ushr n d a b => Sys2Proof.Machine.execUshr n d a b s
  | .usel n d a b => Sys2Proof.Machine.execUsel n d a b s
  | .umov n d a => Sys2Proof.Machine.execUmov n d a s
  | .umovi n d k1 => Sys2Proof.Machine.execUmovi n d k1 s
  | .uhiw n d k1 => Sys2Proof.Machine.execUhiw n d k1 s
  | .ubra c a o => Sys2Proof.Machine.execUbra c a o s
  | .uldc d a w => Sys2Proof.Machine.execUldc d a w s
  | .uld d p o k1 t => Sys2Proof.Machine.execUld d p o k1 t s
  | .ucmpEq n d a b => Sys2Proof.Machine.execUcmpEq n d a b s
  | .ucmpNe n d a b => Sys2Proof.Machine.execUcmpNe n d a b s
  | .ucmpLtS32 n d a b => Sys2Proof.Machine.execUcmpLtS32 n d a b s
  | .ucmpLeS32 n d a b => Sys2Proof.Machine.execUcmpLeS32 n d a b s
  | .ucmpLtN32 n d a b => Sys2Proof.Machine.execUcmpLtN32 n d a b s
  | .ucmpLeN32 n d a b => Sys2Proof.Machine.execUcmpLeN32 n d a b s
  | .tcfg r g => Sys2Proof.Machine.execTcfg r g s
  | .tmma d a f g z b => Sys2Proof.Machine.execTmma d a f g z b s
  | .tbnd d k1 => Sys2Proof.Machine.execTbnd d k1 s
  | .tbndT d a k1 => Sys2Proof.Machine.execTbndT d a k1 s
  | .gang d a => Sys2Proof.Machine.execGang d a s
  | .achain d a p r => Sys2Proof.Machine.execAchain d a p r s
  | .arsv a => Sys2Proof.Machine.execArsv a s
  | .asend d a => Sys2Proof.Machine.execAsend d a s
  | .await d a z k1 => Sys2Proof.Machine.execAwait d a z k1 s
  | .aclose a => Sys2Proof.Machine.execAclose a s
  | .twatch a k => Sys2Proof.Machine.execTwatch a k s
  | .pubt d a k => Sys2Proof.Machine.execPubt d a k s
  | .spect d a k => Sys2Proof.Machine.execSpect d a k s
  | .schk d => Sys2Proof.Machine.execSchk d s
  | .sabort => Sys2Proof.Machine.execSabort s
  | .cpy d a o k1 b => Sys2Proof.Machine.execCpy d a o k1 b s
  | .cpym d a o k1 b => Sys2Proof.Machine.execCpym d a o k1 b s
  | .cpyq d a => Sys2Proof.Machine.execCpyq d a s
  | .gath d a y w g u r => Sys2Proof.Machine.execGath d a y w g u r s
  | .binit d a => Sys2Proof.Machine.execBinit d a s
  | .bwait d a => Sys2Proof.Machine.execBwait d a s
  | .pgpin d a => Sys2Proof.Machine.execPgpin d a s
  | .pgunpin a => Sys2Proof.Machine.execPgunpin a s
  | .wswin d a => Sys2Proof.Machine.execWswin d a s
  | .tsweep d a o t => Sys2Proof.Machine.execTsweep d a o t s
  | .qbind d a k q => Sys2Proof.Machine.execQbind d a k q s
  | .spawn d a => Sys2Proof.Machine.execSpawn d a s
  | .yieldj a => Sys2Proof.Machine.execYieldj a s
  | .migr d a => Sys2Proof.Machine.execMigr d a s
  | .bar a k => Sys2Proof.Machine.execBar a k s
  | .seqld d a => Sys2Proof.Machine.execSeqld d a s
  | .seqgo d a => Sys2Proof.Machine.execSeqgo d a s
  | .srd d f => Sys2Proof.Machine.execSrd d f s
  | .swr a f => Sys2Proof.Machine.execSwr a f s
  | .time d => Sys2Proof.Machine.execTime d s
  | .rte => Sys2Proof.Machine.execRte s
  | .frec d => Sys2Proof.Machine.execFrec d s
  | .sfqpop d => Sys2Proof.Machine.execSfqpop d s
  | .termw d a => Sys2Proof.Machine.execTermw d a s
  | .trail v c e f g h => Sys2Proof.Machine.execTrail v c e f g h s
  | .launch queue => Sys2Proof.Machine.execLaunch queue s
  | .noOpCommand queue => Sys2Proof.Machine.execNoOpCommand queue s
  | .tail queue value => Sys2Proof.Machine.execTail queue value s
  | .gridHandoff grid => Sys2Proof.Machine.execGridHandoff grid s
  | .unitPlacement grid cores => Sys2Proof.Machine.execUnitPlacement grid cores s
  | .sliceDispatch core => Sys2Proof.Machine.execSliceDispatch core s
  | .gridEnd grid => Sys2Proof.Machine.execGridEnd grid s
  | .budgetExpiry slice => Sys2Proof.Machine.execBudgetExpiry slice s
  | .warpDisplacement core pos => Sys2Proof.Machine.execWarpDisplacement core pos s
  | .convergenceRelease core pos => Sys2Proof.Machine.execConvergenceRelease core pos s
  | .serialModeSwitch core pos => Sys2Proof.Machine.execSerialModeSwitch core pos s
  | .handlerEntry core pos => Sys2Proof.Machine.execHandlerEntry core pos s
  | .debuggerResume core pos => Sys2Proof.Machine.execDebuggerResume core pos s
  | .sleepuWake core pos lane => Sys2Proof.Machine.execSleepuWake core pos lane s
  | .loadReturn core pos op => Sys2Proof.Machine.execLoadReturn core pos op s
  | .satchelFill core pos op => Sys2Proof.Machine.execSatchelFill core pos op s
  | .queueFedLoadWrite core pos op => Sys2Proof.Machine.execQueueFedLoadWrite core pos op s
  | .storeFaultRecord warp => Sys2Proof.Machine.execStoreFaultRecord warp s
  | .firstTouchMap request frame => Sys2Proof.Machine.execFirstTouchMap request frame s
  | .shootdown ctx va => Sys2Proof.Machine.execShootdown ctx va s
  | .copyRow copy => Sys2Proof.Machine.execCopyRow copy s
  | .copyEnd copy => Sys2Proof.Machine.execCopyEnd copy s
  | .gatherBag gather => Sys2Proof.Machine.execGatherBag gather s
  | .gatherQueuePush gather => Sys2Proof.Machine.execGatherQueuePush gather s
  | .gatherEnd gather => Sys2Proof.Machine.execGatherEnd gather s
  | .termStepFinish core gang => Sys2Proof.Machine.execTermStepFinish core gang s
  | .gangArrayBind core => Sys2Proof.Machine.execGangArrayBind core s
  | .achainRecord warp => Sys2Proof.Machine.execAchainRecord warp s
  | .acloseRecord warp => Sys2Proof.Machine.execAcloseRecord warp s
  | .chainGrant ctx chain => Sys2Proof.Machine.execChainGrant ctx chain s
  | .asendAnswer tile => Sys2Proof.Machine.execAsendAnswer tile s
  | .accArrival tile => Sys2Proof.Machine.execAccArrival tile s
  | .awaitAdd core pos op => Sys2Proof.Machine.execAwaitAdd core pos op s
  | .sequencerStep ctx core => Sys2Proof.Machine.execSequencerStep ctx core s
  | .wsRefreshWindow die bank => Sys2Proof.Machine.execWsRefreshWindow die bank s
  | .injectionClaim die loop stop => Sys2Proof.Machine.execInjectionClaim die loop stop s
  | .migrShip core pos target => Sys2Proof.Machine.execMigrShip core pos target s
  | .migrTimeout core pos => Sys2Proof.Machine.execMigrTimeout core pos s
  | .preemptionRequest ctx cores => Sys2Proof.Machine.execPreemptionRequest ctx cores s
  | .contextResume ctx cores => Sys2Proof.Machine.execContextResume ctx cores s
  | .coreReset die => Sys2Proof.Machine.execCoreReset die s
  | .uncoreReset die => Sys2Proof.Machine.execUncoreReset die s
  | .packageReset => Sys2Proof.Machine.execPackageReset s
  | .boot => Sys2Proof.Machine.execBoot s
  | .modeChange mode => Sys2Proof.Machine.execModeChange mode s
  | .linkError warp op => Sys2Proof.Machine.execLinkError warp op s
  | .eventRecord arbiter event => Sys2Proof.Machine.execEventRecord arbiter event s
  | .storePerformed warp => Sys2Proof.Machine.execStorePerformed warp s
  | .eccError addr uncorrectable => Sys2Proof.Machine.execEccError addr uncorrectable s
  | .queueRestart queue => Sys2Proof.Machine.execQueueRestart queue s
  | .eventRingSpace arbiter count => Sys2Proof.Machine.execEventRingSpace arbiter count s
  | .hostAccess function addr store data => Sys2Proof.Machine.execHostAccess function addr store data s
  | .podAccess addr kind data => Sys2Proof.Machine.execPodAccess addr kind data s

end Sys2Proof.Machine
end

