-- ==== Sys2Proof/Machine/Place.lean ====
section
/-! DEFINITION. Placing one instruction where the next step fetches it (log 5): translation tables with one 1 GiB page in which virtual and physical addresses
agree, the word with an empty trailer after it, a context, and a warp of 32 lanes that stands at the word, whose issue is the next turn. -/

namespace Sys2Proof.Machine

/-- Where the top table, the next one and the instruction stand. -/
def placeTable : Nat := 0x1000
def placeNext : Nat := 0x2000
def placePc : Nat := 0x3000

/-- The entry that points to the next table: V. -/
def placePointer : Nat := placeNext + 1
/-- The leaf for frame 0: V, R, L, W, X, A, D. -/
def placeLeaf : Nat := 0xDF

/-- A trailer that names no range and no convergence point (R51). -/
def emptyTrail : Nat := 0xF0000000

/-- Memory with the tables, the instruction's word and the trailer. -/
def placeMem (mem : SMap Byte) (w : Nat) : SMap Byte :=
  writeBytes (writeBytes (writeBytes mem placeTable (natToBytes 8 placePointer)) placeNext (natToBytes 8 placeLeaf)) placePc (natToBytes 4 w ++ natToBytes 4 emptyTrail)

/-- The slice a placed warp is made from: 32 lanes at the instruction, every argument 0. -/
def placeSlice : Slice :=
  { grid := 0, ctx := 1, core := 0, number := 0, entry := BitVec.ofNat 48 placePc, args := [], deadline := 0, budget := 0xFFFFFFFF, budcnt := 0xFFFFFFFF, lanes := 32
    warps := 1, perGang := 0, path := [], unit := [], spawned := false, cwa := 0, dispatched := true, left := 1, saved := [], expired := false, know := [] }

/-- The context the placed warp runs in. -/
def placeContext : Context :=
  { partition := 0, ptbase := placeTable, priv := false, debug := false, hvec := 0, function := none, halting := [], halted := [], coreMap := [] }

/-- THE STATE WITH AN INSTRUCTION PLACED: its `nbits` bits, zeros above. -/
def placeWord (s : State) (nbits w : Nat) : State :=
  let warp := Warp.fresh s.m.nextId placeSlice 0 0 0
  let c := s.m.core 0
  let keep := fun (p : Nat) => !(p == placeTable / 32 || p == placeNext / 32 || p == placePc / 32)
  { s with
    boot := .running
    contexts := mset s.contexts 1 placeContext
    agenda := .issue 0 0 :: s.agenda
    m := { settleAll s.m with
      mem := placeMem s.m.mem (w % 2 ^ min nbits 32)
      poison := s.m.poison.filter (fun e => keep e.1)
      tlb := s.m.tlb.filter (fun e => e.ctx ≠ 1)
      walks := s.m.walks.filter (fun e => e.ctx ≠ 1)
      cores := mset s.m.cores 0 { c with warps := mset c.warps 0 warp, active := [0], pending := c.pending.filter (fun p => p.pos ≠ 0), code := [], issued := [] }
      nextId := s.m.nextId + 1 } }

end Sys2Proof.Machine
end

