-- ==== Sys2Proof/Machine/Turns.lean ====
section
/-! DEFINITION. One turn of the machine: the clock (R4, R5, R350, R354), the firmware's and the outside world's moves, and what moves next when the agenda
names nothing. Off, or halted by a failed boot, the part takes no turn but the clock's, the flash's, boot and package reset. -/

namespace Sys2Proof.Machine

/-- The dispatch from an instruction or step to its meaning, as a turn uses it. -/
abbrev Exec := Instr → State → Host.Outcome State Fault Refusal

/-! The clock. -/

/-- The counter after one cy: in cool mode a cy is 16/13 counts (R5). -/
def tickCounter (s : State) : State :=
  match s.mode with
  | .cool => { s with counter := s.counter + BitVec.ofNat 64 ((s.thirteenths + 16) / 13), thirteenths := (s.thirteenths + 16) % 13 }
  | _ => { s with counter := s.counter + 1 }

/-- Whether a slice's budget counts down in this cy (R350): it has a warp in a slot or a Homeroom of a core where its context is not pre-empted. -/
def budgetRuns (s : State) (id : Nat) (sl : Slice) : Bool :=
  sl.dispatched && sl.budget != 0xFFFFFFFF && sl.budcnt != 0 && s.m.allWarps.any (fun e => e.2.2.slice == id && !s.stopped sl.ctx e.1)

/-- The budget counters after one cy; a counter that reaches 0 raises the trap of its slice's warps (R350). -/
def tickBudgets (s : State) (m : Mach) : Mach :=
  let m : Mach := { m with slices := m.slices.map (fun e => (e.1, if budgetRuns s e.1 e.2 then { e.2 with budcnt := e.2.budcnt - 1 } else e.2)) }
  (m.slices.filter (fun e => e.2.dispatched && e.2.runsOut)).foldl (fun m e => expireSlice m e.1 e.2) m

/-- How long each pending warp has been ready (R354); the pipes are free again (R352). -/
def tickReady (run : Exec) (s : State) : Mach :=
  { s.m with cores := s.m.cores.map (fun c =>
      (c.1, { c.2 with issued := [], pending := c.2.pending.map (fun p =>
        let held := (s.m.warp? c.1 p.pos).any (fun w => s.stopped w.ctx c.1)
        { p with ready := if !held && (tryWarp run s c.1 p.pos).isSome then p.ready + 1 else 0 }) })) }

/-- ONE CYCLE of the arithmetic clock, with the refresh windows that the counter now begins and ends (R176). -/
def tick (run : Exec) (s : State) : State :=
  let m := tickBudgets s (tickReady run s)
  let m := { m with cy := m.cy + 1, flits := m.flits.map (fun e => (e.1, { e.2 with waited := e.2.waited + 1 })) }
  let s := tickCounter (s.withM m)
  s.withM { s.m with windows := refreshWindows s.mode s.counter.toNat }

/-! The firmware (R388, R390 to R394, R397, R400). -/

/-- Whether two ranges of numbers, each a first number and a count, have none in common. -/
def apart (a b : Nat × Nat) : Bool := a.1 + a.2 ≤ b.1 || b.1 + b.2 ≤ a.1

/-- Whether two partitions keep apart (R397): no cluster, no frame and no byte of the weight store is in both, on either die, since a section is written into every die's
store (R175; log 77). -/
def Partition.apart (p q : Partition) : Bool :=
  q.clusters.all (fun c => !p.clusters.contains c) && p.frames.all (fun a => q.frames.all (Machine.apart a))
    && Machine.apart (p.wsBase, p.wsLimit - p.wsBase) (q.wsBase, q.wsLimit - q.wsBase)

/-- A partition that the firmware may set (R339, R397): a number to 17, two or more clusters of the package, frames of HBM and a window of the weight store, all
apart from every other partition's, and no context in it. -/
def partitionOk (s : State) (n : Nat) (p : Partition) : Bool :=
  n < 18 && 2 ≤ p.clusters.length && p.clusters.eraseDups.length == p.clusters.length && p.clusters.all (· < 36)
    && p.frames.all (fun r => (r.1 + r.2) * 4096 ≤ 0x6000000000) && p.wsBase ≤ p.wsLimit && p.wsLimit ≤ storeSize
    && s.partitions.all (fun e => e.1 == n || p.apart e.2) && s.contexts.all (fun e => e.2.partition != n)

/-- Whether a function of the endpoint may serve a partition (R392, R397): a virtual function serves one only; the physical function is the firmware's. -/
def functionOk (s : State) (f partition : Nat) : Bool :=
  f ≤ 128 && (f == 0 || (s.m.queues.all (fun e => !e.2.bound || e.2.function != f || e.2.partition == partition)
    && s.contexts.all (fun e => e.2.function != some f || e.2.partition == partition)))

/-- A context as it begins: HVEC 0, running nowhere. -/
def newContext (c : Context) : Context := { c with hvec := 0, halting := [], halted := [], coreMap := [] }

/-- Whether a context may be set: an id from 1 to 65,535 that none has, in a partition, bound to a function of that partition or to none. -/
def contextOk (s : State) (id : Nat) (c : Context) : Bool :=
  1 ≤ id && id ≤ 65535 && (mget s.contexts id).isNone && (mget s.partitions c.partition).isSome && c.function.all (fun f => functionOk s f c.partition)

/-- A command queue as it is bound: empty, not stopped (R390). -/
def newQueue (q : CmdQueue) : CmdQueue := { q with bound := true, tail := 0, head := 0, err := 0 }

/-- Whether a command queue may be bound (R390): one of 256, of 2^4 to 2^12 entries, to a partition and to a function of it. The queue's own binding is the one
that is replaced. -/
def queueOk (s : State) (q : Nat) (c : CmdQueue) : Bool :=
  q < 256 && 4 ≤ c.logSize && c.logSize ≤ 12 && (mget s.partitions c.partition).isSome
    && functionOk (s.withM { s.m with queues := mdel s.m.queues q }) c.function c.partition

/-- An image's weight-store sections written in boundary mode (R91, R179): at an offset in the partition's window, on each die, while no grid reads the store there. -/
def loadSections (s : State) (partition offset : Nat) (bs : List Byte) : Mach :=
  match mget s.partitions partition with
  | none => s.m
  | some p =>
    if offset % 64 ≠ 0 ∨ p.wsLimit < p.wsBase + offset + bs.length ∨ [0, 1].any (storeReading s.m) then s.m
    else { s.m with wstore := [0, 1].foldl (fun w d => setAt w d (writeBytes (w.getD d []) (p.wsBase + offset) bs)) s.m.wstore }

/-- Bytes that an owner's agents write in host, device or pod memory: one range of one owner (R389, R394). -/
def outsideWrite (s : State) (a : Nat) (bs : List Byte) : Mach :=
  let there := match paClass s a with | .host | .rootPort _ | .pod => true | _ => false
  if there && (List.range bs.length).all (fun i => memKey s (a + i) == memKey s a + i && paClass s (a + i) == paClass s a) then writePa s s.m a (bs.map some) else s.m

/-- A turn of the package when it runs. -/
def runningTurn (run : Exec) (t : Turn) (s : State) : Host.Outcome State Fault Refusal :=
  match t with
  | .issue core pos => issueTurn run s core pos
  | .act i => run i s
  | .tick => .next (tick run s)
  | .loadOperands core gang => .next (loadStep s core gang)
  | .evictL1 core sec => .next (s.withM (s.m.adjCore core (fun c => { c with l1 := mdel c.l1 sec })))
  | .evictTlb i => .next (s.withM { s.m with tlb := s.m.tlb.eraseIdx i })
  | .evictWalk i => .next (s.withM { s.m with walks := s.m.walks.eraseIdx i })
  | .evictL2 sec => .next (s.withM (evictSector s.m sec))
  | .evictCode core word => .next (s.withM (dropWord s.m core word))
  | .fetchAhead core word => .next (if core < 288 then s.withM (fetchAhead s.m core word) else s)
  | .appCore core access => .next (s.withM (appAccess s core access))
  | .readAgain core pos op lane => .next (readAgain s core pos op lane)
  | .fillL1 core sec =>
    .next (if core < 288 && isHbm (32 * sec) && (mget s.m.poison sec).isNone then s.withM (readL1 s s.m core (32 * sec) 32).2 else s)
  | .engineRead engine place => .next (engineRead s engine place)
  | .engineWrite engine word => .next (engineWrite s engine word)
  | .storeWord warp word => .next (storeWord s warp word)
  | .apply w => .next (s.withM (applyLate s.m w))
  | .setFlash _ => .next s
  | .setPartition n p => .next (if partitionOk s n p then { s with partitions := mset s.partitions n p } else s)
  | .setContext id c => .next (if contextOk s id c then { s with contexts := mset s.contexts id (newContext c) } else s)
  | .setDebug id on => .next (s.adjCtx id (fun c => { c with debug := on }))
  | .retireContext id => .next (retireCtx s id)
  | .setQueue q c => .next (if queueOk s q c then s.withM { s.m with queues := mset s.m.queues q (newQueue c) } else s)
  | .setRing a base size =>
    .next (match s.m.arbiters[a]? with
      | some r => s.withM { s.m with arbiters := setAt s.m.arbiters a { r with base := base, size := size, head := 0, used := 0 } }
      | none => s)
  | .setPodSlot slot acc => .next (if slot < 1024 then { s with pod := mset s.pod slot acc } else s)
  | .setWindow f w => .next (if f ≤ 128 ∧ w.base + w.size ≤ 0x6000000000 then { s with bars := mset s.bars f w } else s)
  | .setHostBase b => .next { s with hostBase := b }
  | .setIommu f ms => .next (if 128 < f then { s with iommu := mset s.iommu f ms } else s)
  | .loadSections p off bs => .next (s.withM (loadSections s p off bs))
  | .ownPodSlot slot => .next { s with ownSlot := some slot }
  | .outside a bs => .next (s.withM (outsideWrite s a bs))
  | .flit die loop stop =>
    let (id, m) := s.m.newId
    .next (s.withM { m with flits := mset m.flits id { die := die, loop := loop, stop := stop, waited := 0, claimed := false } })
  | .enter f => .next (s.withM (enterLoop s.m f))

/-- A turn of the part while it is off or halted. -/
def idleTurn (run : Exec) (t : Turn) (s : State) : Host.Outcome State Fault Refusal :=
  match t with
  | .act .boot => run .boot s
  | .act .packageReset => run .packageReset s
  | .tick => .next (tick run s)
  | .setFlash bs => .next (if s.boot = .off then { s with flash := bs } else s)
  | _ => .next s

/-- A turn. -/
def takeTurn (run : Exec) (t : Turn) (s : State) : Host.Outcome State Fault Refusal :=
  match s.boot with
  | .running => runningTurn run t s
  | _ => idleTurn run t s

/-! What moves when the agenda names nothing: everything that can move, in rotation. -/

/-- Turns of the warps. -/
def warpTurns (m : Mach) : List Turn :=
  m.allWarps.flatMap (fun e =>
    let (core, pos, w) := e
    [.issue core pos, .act (.handlerEntry core pos), .act (.convergenceRelease core pos), .act (.serialModeSwitch core pos), .act (.warpDisplacement core pos),
     .act (.migrTimeout core pos)]
      ++ (w.groups ++ w.hgroups).map (fun g => .act (.sleepuWake core pos (lowLane g.lanes)))
      ++ w.pends.flatMap (fun p => [.act (.loadReturn core pos p.id), .act (.satchelFill core pos p.id), .act (.queueFedLoadWrite core pos p.id),
          .act (.awaitAdd core pos p.id)])
      ++ (match homeroomWait w with | some (_, die) => (List.range 144).map (fun k => .act (.migrShip core pos (die * 144 + k))) | none => []))

/-- Turns of the store pipes, and of the writes that a die has still to apply. -/
def storeTurns (m : Mach) : List Turn :=
  let pipes : List Turn := (m.stores.map (·.warp)).eraseDups.flatMap (fun u => [.act (.storePerformed u), .act (.storeFaultRecord u)])
  let applied : List Turn := m.late.map (fun w => .apply w.id)
  pipes ++ applied

/-- Turns of the copy and gather engines and of the sequencers. -/
def engineTurns (m : Mach) : List Turn :=
  let copies : List Turn := m.copies.flatMap (fun c => [.act (.copyRow c.1), .act (.copyEnd c.1)])
  let gathers : List Turn := m.gathers.flatMap (fun g => [.act (.gatherBag g.1), .act (.gatherQueuePush g.1), .act (.gatherEnd g.1)])
  let steps : List Turn := m.ctxCores.filterMap (fun c => if c.2.seq.busy then some (.act (.sequencerStep (c.1 / 512) (c.1 % 512))) else none)
  let replies : List Turn := m.ctxCores.filterMap (fun c => if c.2.seq.remote.isSome then some (.act (.loadReturn (c.1 % 512) (34 + c.1 / 512) 0)) else none)
  copies ++ gathers ++ steps ++ replies

/-- Turns of the term engines and of the leases of warps that have ended. -/
def gangTurns (m : Mach) : List Turn :=
  let gangs : List Turn := m.cores.flatMap (fun c => c.2.gangs.flatMap (fun g => [.loadOperands c.1 g.1, .act (.termStepFinish c.1 g.1), .act (.gangArrayBind c.1)]))
  let leases : List Turn := m.cores.flatMap (fun c => c.2.leaving.flatMap (fun w => w.pends.map (fun p => .act (.queueFedLoadWrite c.1 64 p.id))))
  gangs ++ leases

/-- Turns of the accumulate network. -/
def networkTurns (m : Mach) : List Turn :=
  let requests : List Turn := m.dirQueue.map (fun r => .act (if r.close then .acloseRecord r.warp else .achainRecord r.warp))
  let grants : List Turn := m.chains.map (fun c => .act (.chainGrant c.2.ctx c.2.id))
  let tiles : List Turn := m.tiles.flatMap (fun t => [.act (.asendAnswer t.1), .act (.accArrival t.1)])
  requests ++ grants ++ tiles

/-- A list cut into pieces of `n`, the short rest left out; `fuel` bounds the pieces. -/
def pieces (n : Nat) : Nat → List Nat → List (List Nat)
  | 0, _ => []
  | fuel + 1, l => if n = 0 ∨ l.length < n then [] else l.take n :: pieces n fuel (l.drop n)

/-- The cores a grid's next unit goes to when nobody names them: the first that may take it, cluster by cluster for a clus level and die by die for a die
level. -/
def defaultCores (s : State) (id : Nat) (g : Grid) : List Nat :=
  let r := g.record
  let k := placeLevel r
  let size := unitSize r k
  let there := slicesThere s.m id g
  let free := (List.range 288).filter (fun c => coreUsable s s.m id g c && (1 < size || coresAgree r g.placed [c] there))
  let levelOf := fun (dom : Nat) => (List.range (k + 1)).find? (fun j => levelDom r j == dom)
  let byCluster := fun (cs : List Nat) =>
    match levelOf 4 with
    | some j => (List.range 36).flatMap (fun c => (pieces (unitSize r j) 8 (cs.filter (fun q => clusterOf q == c))).flatten)
    | none => cs
  let all := match levelOf 5 with
    | some j => [0, 1].flatMap (fun d =>
        let us := pieces (unitSize r j) 144 (byCluster (free.filter (fun q => dieOf q == d)))
        (if j ≠ k ∧ levelDom r k = 6 then us.take 1 else us).flatten)
    | none => byCluster free
  all.take size

/-- Turns of the command processors, the work distributor, the Registrars and the arbiters. -/
def systemTurns (s : State) : List Turn :=
  let queues : List Turn := s.m.queues.flatMap (fun q => [.act (.launch q.1), .act (.noOpCommand q.1)])
  let grids : List Turn := s.m.grids.flatMap (fun g => [.act (.gridHandoff g.1), .act (.unitPlacement g.1 (defaultCores s g.1 g.2)), .act (.gridEnd g.1)])
  let slices : List Turn := (s.m.cores.filter (fun c => !c.2.registrar.isEmpty)).map (fun c => .act (.sliceDispatch c.1))
  let events : List Turn := (List.range s.m.arbiters.length).flatMap (fun a => (s.m.arbiters.getD a .fresh).held.map (fun e => .act (.eventRecord a e.1)))
  queues ++ grids ++ slices ++ events

/-- What moves next when the agenda is empty. -/
def defaultTurn (s : State) : Turn :=
  match s.boot with
  | .running =>
    let ts := [.tick] ++ warpTurns s.m ++ storeTurns s.m ++ engineTurns s.m ++ gangTurns s.m ++ networkTurns s.m ++ systemTurns s
    ts.getD (s.turn % ts.length) .tick
  | .off => .act .boot
  | .failed _ => .tick

end Sys2Proof.Machine
end

