-- ==== Sys2Proof/Machine/Step.lean ====
section
/-! DEFINITION. One step of the machine: the next turn of the agenda, or of the rotation when the agenda is empty; and a state in which the next step fetches and
runs one given instruction. -/

namespace Sys2Proof.Machine

/-- ONE STEP. -/
def step (s : State) : Host.Outcome State Fault Refusal :=
  match s.agenda with
  | t :: rest => takeTurn exec t { s with agenda := rest, turn := s.turn + 1 }
  | [] => takeTurn exec (defaultTurn s) { s with turn := s.turn + 1 }

/-- The state with an instruction placed where the next step fetches (log 5): the package runs, and the agenda's next turn is the issue of a warp that stands
at the instruction's word. -/
def State.withFetchWord (s : State) (nbits w : Nat) : State := placeWord s nbits w

end Sys2Proof.Machine
end

