-- ==== Sys2Proof/Safety.lean ====
section
/-! DEFINITION. The terms in which statements are made: what a word finds (operands, room for its result), what it leaves unchanged, what it writes, and
the invariant that every step keeps. -/

namespace Sys2Proof

open Machine

/-! What a word finds. -/

/-- The sources of a word are there and its destination has room (R186, R188, R192, R195): `m` is the machine after the spill bursts that made room
for the result, `s.m` itself where none was needed. -/
abbrev WordReady (s : State) (x : Ex) (uni : Bool) (srcs : List Src) (nw : Bool) (d : BitVec 8) (count : Nat) (m : Mach) : Prop :=
  srcReady s.m x uni srcs = .go ∧ dstReady s.m x srcs nw d count = .go m

/-- The per-context state of the core on which a word executes: mailboxes, queues, scratchpad, pins, store-fault entries. -/
def boxOf (s : State) (x : Ex) : CtxCore := s.m.ctxCore x.w.ctx x.core

/-- What the sources of a word deliver in a lane, in order (R200). -/
def operands (s : State) (x : Ex) (srcs : List Src) (l : Nat) : List DWord := srcValues (boxOf s x) x l srcs []

/-- A register that a specifier names is neither pending, nor spilled, in the lanes read. -/
def SourceSettled (x : Ex) (uni : Bool) (q : Src) : Prop :=
  ∀ r ∈ q.regs, x.w.spilled.contains r = false ∧ x.w.pendingIn (x.readMask uni) r = false

/-! What a word leaves unchanged. -/

/-- A warp without its registers and their places, its groups, and what its accesses have been ordered after (R307). -/
def warpRest (w : Warp) : Warp := { w with regs := [], gens := [], spilled := [], away := [], lru := [], groups := [], hgroups := [], know := [], seen := [], read := [] }

/-- A warp without the record of where its registers stand: another warp's word may move them to its Satchel (R183). -/
def unspilled (w : Warp) : Warp := { w with spilled := [], away := [] }

/-- A core without the warps in its slots. -/
def coreRest (c : Core) : Core := { c with warps := [] }

/-- A machine without its cores and without the per-context state on them. -/
def machRest (m : Mach) : Mach := { m with cores := [], ctxCores := [] }

/-- What a word is expected to leave: everything outside the cores and the per-context state on them (`m`: memory, weight stores, translation, stores, engines,
the networks, queues, counters); its core but for the warps in its slots (`c`: active and pending set, Registrar, gangs, arrays, L1); its warp but for
registers and groups (`w`: threads, ACCSTAT, pending results, term configuration, gang, levels, sweep, handler state); the per-context state of its core (`box`). -/
structure Rest where
  m   : Mach
  c   : Core
  w   : Warp
  box : CtxCore

/-- Nothing beside registers and groups changes. -/
def Rest.same (s : State) (x : Ex) : Rest := { m := s.m, c := s.m.core x.core, w := x.w, box := boxOf s x }

/-- THE FRAME OF A WORD executed at `x` in `s` and done in `t`, where its group then stands as `y`: the run stands at its next word and waits for nothing;
the lanes of the group, the warp's other groups, every other warp but for the places of its registers, every other core, and all that `e` lists stand as they should.
Registers and latches, and the per-context state of the cores, are the statement's own to say. -/
structure WordRuns (s : State) (x : Ex) (t : State) (y : Ex) (e : Rest) : Prop where
  here    : t.ex? = some y
  place   : y.core = x.core ∧ y.pos = x.pos ∧ y.hand = x.hand ∧ y.grp = x.grp
  run     : y.r = { x.r with pos := x.r.pos + 1, wait := .none, desc := [], latches := y.r.latches, nextPc := y.r.nextPc }
  group   : y.g = { x.g with run := some y.r, depth := y.g.depth, passed := y.g.passed }
  groups  : y.w.groups = if x.hand then x.w.groups else setAt x.w.groups x.grp y.g
  hgroups : y.w.hgroups = if x.hand then setAt x.w.hgroups x.grp y.g else x.w.hgroups
  warp    : warpRest y.w = warpRest e.w
  package : t = s.withM t.m
  below   : machRest t.m = machRest e.m
  own     : coreRest (t.m.core x.core) = coreRest e.c
  cores   : ∀ c, c ≠ x.core → t.m.core c = s.m.core c
  others  : ∀ p, p ≠ x.pos → (t.m.warp? x.core p).map unspilled = (s.m.warp? x.core p).map unspilled

/-- The frame of a word that touches no per-context state but its own core's, which is left as `e.box`. -/
structure WordDone (s : State) (x : Ex) (t : State) (y : Ex) (e : Rest) : Prop extends WordRuns s x t y e where
  box     : t.m.ctxCore x.w.ctx x.core = e.box
  boxes   : ∀ k, k ≠ ccKey x.w.ctx x.core → mgetD t.m.ctxCores k .fresh = mgetD s.m.ctxCores k .fresh

/-- Control state that only transfers of control write is as it was: next PCs, depth, latches. -/
structure FlowKept (x y : Ex) : Prop where
  nextPc : y.r.nextPc = x.r.nextPc
  depth  : y.g.depth = x.g.depth ∧ y.g.passed = x.g.passed

/-! What a word writes. -/

/-- Registers `d` up have received `count` words in the active lanes; every other register, and every other lane of these, holds what it held (R180). -/
def Written (x y : Ex) (d count : Nat) (res : Nat → List Word) : Prop :=
  ∀ r l, l < 32 → y.w.regLane r l = if d ≤ r ∧ r < d + count ∧ inMask x.g.lanes l then (res l).getD (r - d) 0 else x.w.regLane r l

/-- No register has changed. -/
def RegsKept (x y : Ex) : Prop := ∀ r l, l < 32 → y.w.regLane r l = x.w.regLane r l

/-- A result's latch: the active lanes' results, 0 in the other lanes (R59). -/
def latchOf (x : Ex) (res : Nat → Word) : LaneVec := (List.range 32).map (fun l => if inMask x.g.lanes l then res l else 0)

/-- The latches after a result: it is the newest, and at most three are kept (R59). -/
def latched (x : Ex) (res : Nat → Word) : List LaneVec := (latchOf x res :: x.r.latches).take 3

/-- The per-context state of a word's core after its sources are taken (mailboxes emptied, queue entries popped) and its result is delivered to a mailbox or a queue:
the result of the lowest active lane (R192, R195). `b` is that state with whatever else the word did to it; `know` are the writes that happen before a fill (R193). -/
def boxAfter (b : CtxCore) (x : Ex) (know : List Nat) (srcs : List Src) (nw : Bool) (d : BitVec 8) (v : Word) : CtxCore :=
  let b := takeSources b x srcs
  if nw then b
  else if isMailbox d then fillMailbox b (waitToken x.w x.g) (d.toNat - 0x90) v know
  else if isQueue d then pushQueue b (d.toNat - 0x88) v
  else b

/-- A RESULT OF `count` WORDS IS DELIVERED by a word (R61, R201): written to registers `d` up when D names a `v` register and NW is 0; delivered to a mailbox or queue;
discarded by `zero` or NW; nothing else of the machine changes but what `e` says. -/
structure Delivered (s : State) (x : Ex) (t : State) (y : Ex) (e : Rest) (srcs : List Src) (nw : Bool) (d : BitVec 8) (count : Nat) (res : Nat → List Word) : Prop where
  done : WordDone s x t y { e with box := boxAfter e.box x (x.fillKnow s.m srcs) srcs nw d ((res x.low).getD 0 0) }
  flow : FlowKept x y
  regs : if nw = false ∧ isV d = true then Written x y d.toNat count res else RegsKept x y

/-- A lane instruction of one result word has completed with the result `f l` in lane `l`, which fills the newest latch. -/
def LaneResults (s : State) (x : Ex) (srcs : List Src) (n : BitVec 1) (d : BitVec 8) (f : Nat → Word) (out : Host.Outcome State Fault Refusal) : Prop :=
  ∃ t y, out = .next t ∧ Delivered s x t y (.same s x) srcs (nwOf n) d 1 (fun l => [f l]) ∧ y.r.latches = latched x f

/-- A lane instruction of one result word has completed: `f` gives each lane's result from what its sources deliver there, and the result fills the newest latch. -/
def LaneResult (s : State) (x : Ex) (srcs : List Src) (n : BitVec 1) (d : BitVec 8) (f : List DWord → Word) (out : Host.Outcome State Fault Refusal) : Prop :=
  ∃ t y, out = .next t ∧ Delivered s x t y (.same s x) srcs (nwOf n) d 1 (fun l => [f (operands s x srcs l)])
    ∧ y.r.latches = latched x (fun l => f (operands s x srcs l))

/-- A uniform instruction of one result word has completed: computed once, in the lowest active lane, and delivered to every active lane (R42). -/
def UniformResult (s : State) (x : Ex) (srcs : List Src) (n : BitVec 1) (d : BitVec 8) (f : List DWord → Word) (out : Host.Outcome State Fault Refusal) : Prop :=
  ∃ t y, out = .next t ∧ Delivered s x t y (.same s x) srcs (nwOf n) d 1 (fun _ => [f (operands s x srcs x.low)])
    ∧ y.r.latches = latched x (fun _ => f (operands s x srcs x.low))

/-- A uniform instruction has delivered `count` words and filled no latch. -/
def UniformWords (s : State) (x : Ex) (e : Rest) (srcs : List Src) (d : BitVec 8) (count : Nat) (vs : List Word) (out : Host.Outcome State Fault Refusal) : Prop :=
  ∃ t y, out = .next t ∧ Delivered s x t y e srcs false d count (fun _ => vs) ∧ y.r.latches = x.r.latches

/-! Where lanes go, and what parks them. -/

/-- A TRANSFER HAS BEEN DECIDED for every active lane (R322, R331, R332): lane `l` goes to `tgt l` when the run ends, the group's depth is `depth`, and a link pair, where the
word has one, holds the next run's start. The latches stand. -/
structure Transferred (s : State) (x : Ex) (t : State) (y : Ex) (srcs : List Src) (link : Option (BitVec 8)) (depth : Nat) (tgt : Nat → Pc) : Prop where
  done    : WordDone s x t y { Rest.same s x with box := takeSources (boxOf s x) x srcs }
  next    : ∀ l, mget y.r.nextPc l = if l < 32 ∧ inMask x.g.lanes l then some (tgt l) else mget x.r.nextPc l
  depth   : y.g.depth = depth ∧ y.g.passed = x.g.passed
  latches : y.r.latches = x.r.latches
  regs    : match link with
    | some d => Written x y d.toNat 2 (fun _ => [(x.pc + 8).setWidth 32, ((x.pc + 8) >>> 32).setWidth 32])
    | none => RegsKept x y

/-- A warp without its threads, its groups, and the count that leads to the handler. -/
def warpThreads (w : Warp) : Warp := { w with threads := [], groups := [], parkRuns := none }

/-- A parked thread: its record at the word `x` stands at, the group's depth, and its resume point (R371, R372). -/
def parkedThread (x : Ex) (l : Nat) (f : FaultInfo) (resume : Pc) : Thread :=
  { x.w.thread l with
    status := .parked, depth := x.g.depth, rpc := resume.setWidth 64, entered := false
    record := some { pc := x.pc, run := x.r.pos, imp := false, slot := 0, kind := 0, cause := f.cause, detail := f.detail, addr := f.addr } }

/-- TAKING A FAULT OR TRAP in every active lane of a group outside the handler (R371, R372): each lane parks with its record, the group is gone, and nothing
else changes: no register, no other thread, no memory. `box` is the per-context state of the core afterwards. -/
structure AllParked (s : State) (x : Ex) (t : State) (f : Nat → FaultInfo) (resume : Pc) (box : CtxCore) : Prop where
  warp    : ∃ w, t.m.warp? x.core x.pos = some w ∧ warpThreads w = warpThreads x.w
    ∧ (∀ l, l < 32 → w.thread l = if inMask x.g.lanes l then parkedThread x l (f l) resume else x.w.thread l)
    ∧ w.groups = x.w.groups.take x.grp ++ x.w.groups.drop (x.grp + 1) ∧ w.parkRuns = some (x.w.parkRuns.getD 0)
  package : t = s.withM t.m
  below   : machRest t.m = machRest s.m
  own     : coreRest (t.m.core x.core) = coreRest (s.m.core x.core)
  cores   : ∀ c, c ≠ x.core → t.m.core c = s.m.core c
  others  : ∀ p, p ≠ x.pos → (t.m.warp? x.core p).map unspilled = (s.m.warp? x.core p).map unspilled
  box     : t.m.ctxCore x.w.ctx x.core = box
  boxes   : ∀ k, k ≠ ccKey x.w.ctx x.core → mgetD t.m.ctxCores k .fresh = mgetD s.m.ctxCores k .fresh

/-- A word outside the handler, in a group with a lane, whose warp has no open level: the conditions under which a fault of it is taken at once (R292, R375). -/
abbrev Plain (x : Ex) : Prop := x.hand = false ∧ x.g.lanes ≠ 0 ∧ x.w.levels = []

/-- The word has taken no effect: its group waits at it, for `k`, and nothing else changes (R190). -/
def Held (s : State) (x : Ex) (k : Wait) (out : Host.Outcome State Fault Refusal) : Prop :=
  out = .next (s.withM (s.m.put { x with r := { x.r with wait := k } }))

/-! Memory. -/

/-- An entry of the TLB that an access uses first, the core's own for a warp's and the cluster's for an engine's (`eng`), translates an address for a context, and the
leaf lets the access through (R115, R116); a write finds D set (R114). -/
abbrev Hit (s : State) (ctx core : Nat) (va : DWord) (acc : Access) (t : Xlat) (eng : Bool := false) : Prop :=
  va.toNat < 2 ^ 48 ∧ ∃ e ∈ tlbHit s.m ctx core va.toNat eng, e.core = l1Tlb core eng ∧ (acc.writes = true → pteBit e.pte 7 = true)
    ∧ t = leafXlat e.level e.pte va.toNat ∧ leafCheck s ctx acc e.level e.pte t.pa va.toNat = none

/-- Bytes of HBM as a die reads them: the ones before the writes that the die has still to apply (R303). -/
def viewBytes (m : Mach) (die pa n : Nat) : List Byte := (List.range n).map (fun i => viewByte m die (pa + i))

/-- A MACHINE AFTER READS ALONE: what L2 holds may have changed, and a die may have applied writes that its reader is now ordered after; no byte of memory has changed, no
sector has become or ceased to be poisoned, and nothing else has moved (R108, R128, R303, R307). -/
structure ReadOnly (m m' : Mach) : Prop where
  rest   : { m' with l2 := m.l2, poison := m.poison, late := m.late, rels := m.rels } = m
  poison : ∀ sec, (mget m'.poison sec).isSome = (mget m.poison sec).isSome
  late   : ∀ w ∈ m'.late, w ∈ m.late

/-- A MACHINE AFTER A WRITE of named bytes from a physical address of HBM up, by an agent of a core: memory has changed in those bytes alone, the core's die reads them, and beside
L2, poison, the cores, and what the dies have still to apply, nothing has moved (R130, R303). -/
structure WroteAt (m m' : Mach) (core pa : Nat) (bs : List (Option Byte)) : Prop where
  rest  : { m' with mem := m.mem, l2 := m.l2, poison := m.poison, late := m.late, rels := m.rels, nextId := m.nextId, free := m.free, cores := m.cores } = m
  bytes : ∀ a, readByte m'.mem a = match (if pa ≤ a then bs.getD (a - pa) none else none) with | some v => v | none => readByte m.mem a
  own   : ∀ i v, bs.getD i none = some v → viewByte m' (dieOf core) (pa + i) = v

/-- The address in a lane's register pair (R143). -/
def pairAt (x : Ex) (p : BitVec 6) (l : Nat) : DWord := x.w.regLane (2 * p.toNat + 1) l ++ x.w.regLane (2 * p.toNat) l

/-- The pending result that a load of `count` registers from `d` up leaves; `places` are the lanes' addresses and bytes where a plain load may still read again (R302), `sync`
marks a request of the sync class that crosses the bridge (R142). -/
def pendingLoad (id : Nat) (x : Ex) (d : BitVec 8) (count : Nat) (vals : SMap (List Word)) (places : SMap (DWord × Nat)) (sync : Bool) : Pend :=
  { id := id, kind := .load, lanes := x.g.lanes, reg := d.toNat, count := count, vals := vals, pc := x.pc, run := x.r.pos, addrs := places, sync := sync }

/-- A RESULT IS PENDING (R186, R144): the word is done, its destination will be written with `res l` in each active lane when the data returns (`LOAD_RETURN`), and no register
has changed yet; a destination that is no `v` register is discarded. `e` is what else the word leaves. -/
structure Issued (s : State) (x : Ex) (t : State) (y : Ex) (e : Rest) (srcs : List Src) (d : BitVec 8) (count : Nat) (res : Nat → List Word) : Prop where
  flow    : FlowKept x y
  regs    : RegsKept x y
  latches : y.r.latches = x.r.latches
  done    : ∃ (vals : SMap (List Word)) (places : SMap (DWord × Nat)) (sync : Bool), (∀ l ∈ x.lanes, mget vals l = some (res l)) ∧ WordDone s x t y
    { e with
      box := takeSources e.box x srcs
      m := if isV d then { e.m with nextId := e.m.nextId + 1 } else e.m
      w := if isV d then { e.w with pends := e.w.pends ++ [pendingLoad e.m.nextId x d count vals places sync] } else e.w }

/-- A word is done that writes no register: the flow, the registers and the latches stand, and `e` is what it leaves. -/
def Done (s : State) (x : Ex) (e : Rest) (out : Host.Outcome State Fault Refusal) : Prop :=
  ∃ t y, out = .next t ∧ WordDone s x t y e ∧ FlowKept x y ∧ RegsKept x y ∧ y.r.latches = x.r.latches

/-- The store entries of a word for some of its lanes, in ascending lane order (R146, R148). Each is the releases of a release `FENCE` before it and, with a scope, one of its own (R307). -/
def storesOf (s : State) (x : Ex) (ls : List Nat) (kind : Nat) (addr : Nat → DWord) (bytes : Nat → List (Option Byte)) (rel : Option Nat) : List Store :=
  (ls.zip (List.range ls.length)).map (fun e =>
    { seq := s.m.nextId + e.2, warp := x.w.uid, ctx := x.w.ctx, core := x.core, slot := x.w.homeSlot, lanes := laneBit e.1, pc := x.pc, run := x.w.runs, kind := kind
      addr := addr e.1, op := .bytes (bytes e.1), rel := rel, acq := none
      srcs := (x.w.fenceRel ++ rel.toList).eraseDups.map (fun sc => { scope := sc, agent := x.agent, ids := x.w.know, direct := false })
      entry := none, joined := false, gang := x.w.gang, twin := false, place := none, failed := none })

/-- A scratchpad address names `n` bytes at offset `off` of core `c`: aligned, inside the context's space, with no poisoned backing and no arrival round on the page
(R170, R171, R173, R277). -/
abbrev SpadAt (s : State) (x : Ex) (addr n c off : Nat) : Prop :=
  addr % n = 0 ∧ addr < 2 ^ 24 ∧ off = addr % 2 ^ 21 ∧ c = x.core / 8 * 8 + addr / 2 ^ 21 % 8 ∧ off + n ≤ (s.m.ctxCluster x.w.ctx x.core).pages * 4096
    ∧ spadPoisoned (s.m.ctxCore x.w.ctx c) off n = false ∧ (s.m.ctxCore x.w.ctx c).rounds.contains (off / 4096) = false

/-- The register value of a lane's scratchpad address or byte offset. -/
def addressOf (s : State) (x : Ex) (a : BitVec 8) (l : Nat) : Nat := (arg (operands s x [srcI a] l) 0).toNat

/-- What the scratchpads hold after a word that wrote `bytes l` at `off l` of core `c l` for its lanes in ascending order: where several lanes wrote, the highest one's byte
(R173); the rest of the per-context state is as it was, the address sources taken. -/
structure SpadsWritten (s : State) (x : Ex) (t : State) (srcs : List Src) (ls : List Nat) (c off : Nat → Nat) (bytes : Nat → List Byte) : Prop where
  bytes : ∀ k a, readByte (t.m.ctxCore x.w.ctx k).spad a =
    match (ls.filter (fun l => c l == k && off l ≤ a && a < off l + (bytes l).length)).getLast? with
    | some l => (bytes l).getD (a - off l) 0
    | none => readByte (s.m.ctxCore x.w.ctx k).spad a
  rest  : ∀ k, { t.m.ctxCore x.w.ctx k with spad := [], poisoned := [] }
    = { (if k = x.core then takeSources (boxOf s x) x srcs else s.m.ctxCore x.w.ctx k) with spad := [], poisoned := [] }
  clean : ∀ k, ∀ sec ∈ (t.m.ctxCore x.w.ctx k).poisoned, sec ∈ (s.m.ctxCore x.w.ctx k).poisoned
  boxes : ∀ k, k ≠ ccKey x.w.ctx x.core → (∀ l ∈ ls, k ≠ ccKey x.w.ctx (c l)) → mgetD t.m.ctxCores k .fresh = mgetD s.m.ctxCores k .fresh

/-! The invariant. -/

/-- What HVEC always holds (R384): an address whose bits [1:0] and [63:48] are zero. -/
def addressClean (v : DWord) : Bool := v &&& 0x0000FFFFFFFFFFFC == v

/-- WHAT THE TRUSTED FIRMWARE'S DIVISION OF THE PACKAGE KEEPS TO (R109, R384, R397, R398): partitions are numbered 0 to 17, have two or more distinct clusters of the
package each, frames of HBM and a window of the weight store, and share none of these; a context has an id from 1 to 65,535, a partition that exists, a clean HVEC and, where it is bound to
one, a function of the endpoint; a virtual function serves the contexts of one partition; before boot, and after a failed one, there is neither partition nor context. -/
structure FirmwareInv (s : State) : Prop where
  partitions : ∀ n p, mget s.partitions n = some p → n < 18 ∧ 2 ≤ p.clusters.length ∧ p.clusters.Nodup ∧ (∀ c ∈ p.clusters, c < 36)
    ∧ (∀ r ∈ p.frames, (r.1 + r.2) * 4096 ≤ 0x6000000000) ∧ p.wsBase ≤ p.wsLimit ∧ p.wsLimit ≤ 192 * 2 ^ 20
  apart      : ∀ n k p q, n ≠ k → mget s.partitions n = some p → mget s.partitions k = some q → (∀ c ∈ p.clusters, c ∉ q.clusters)
    ∧ (∀ a ∈ p.frames, ∀ b ∈ q.frames, a.1 + a.2 ≤ b.1 ∨ b.1 + b.2 ≤ a.1)
    ∧ (p.wsLimit ≤ q.wsBase ∨ q.wsLimit ≤ p.wsBase)
  contexts   : ∀ id c, mget s.contexts id = some c → 1 ≤ id ∧ id ≤ 65535 ∧ (mget s.partitions c.partition).isSome = true ∧ addressClean c.hvec = true
    ∧ ∀ f, c.function = some f → f ≤ 128
  functions  : ∀ i j c d f, mget s.contexts i = some c → mget s.contexts j = some d → c.function = some f → d.function = some f → f ≠ 0 → c.partition = d.partition
  idle       : s.boot ≠ .running → s.contexts = [] ∧ s.partitions = []

end Sys2Proof
end

