-- ==== Sys2Proof/WellFormed.lean ====
section
/-! DEFINITION. Well-formed instructions: the words that pass steps 1 to 3 of R72 by their own fields. A step without an
encoding has no fields to check. -/

namespace Sys2Proof

/-- An instruction no field of which R71 gives a fault. -/
def WellFormed (i : Instr) : Bool := (Machine.staticFault i).isNone

end Sys2Proof
end

