-- ==== Sys2Proof/Certificates/Slice0/Obligations.lean ====
section
/-! DEFINITION. The statements for the provers, family by family. Each says which rules of the spec it formalises. -/

open Sys2Proof Sys2Proof.Machine

/-! Lane arithmetic. -/

/-- R205: the integer instructions; a mod 2^32 product, sum or high half is written to D, and the 64-bit adds extend their single 32-bit position first.
R207: minimum and maximum with D, absolute value, bit counts and reversal, saturation to a narrow type. -/
def Obligations.IntegerArithmetic : Prop :=
  (∀ (s : State) (x : Ex) (n : BitVec 1) (d a b : BitVec 8) (m : Mach), s.ex? = some x →
       (WordReady s x false [srcI a, srcI b] (nwOf n) d 1 m →
         LaneResult s x [srcI a, srcI b] n d (fun v => BitVec.ofNat 32 ((arg v 0).toNat + (arg v 1).toNat)) (exec (.iadd n d a b) s)
         ∧ LaneResult s x [srcI a, srcI b] n d (fun v => BitVec.ofInt 32 ((arg v 0).toNat - (arg v 1).toNat : Int)) (exec (.isub n d a b) s)
         ∧ LaneResult s x [srcI a, srcI b] n d (fun v => BitVec.ofNat 32 ((arg v 0).toNat * (arg v 1).toNat)) (exec (.imul n d a b) s)
         ∧ LaneResult s x [srcI a, srcI b] n d (fun v => BitVec.ofInt 32 ((arg v 0).toInt * (arg v 1).toInt / 2 ^ 32)) (exec (.imulhS32 n d a b) s)
         ∧ LaneResult s x [srcI a, srcI b] n d (fun v => BitVec.ofNat 32 ((arg v 0).toNat * (arg v 1).toNat / 2 ^ 32)) (exec (.imulhN32 n d a b) s))
       ∧ (WordReady s x false [srcI a, srcI b, srcI d] (nwOf n) d 1 m →
         LaneResult s x [srcI a, srcI b, srcI d] n d (fun v => BitVec.ofNat 32 ((arg v 0).toNat * (arg v 1).toNat + (arg v 2).toNat)) (exec (.imad n d a b) s))
       ∧ (WordReady s x false [srcW a, srcI b] false d 2 m →
         (∃ t y, exec (.iaddS64 d a b) s = .next t
           ∧ Delivered s x t y (.same s x) [srcW a, srcI b] false d 2 (fun l =>
               let v := operands s x [srcW a, srcI b] l
               let r : DWord := argPair v 0 + (arg v 1).signExtend 64
               [r.setWidth 32, (r >>> 32).setWidth 32])
           ∧ y.r.latches = x.r.latches)
         ∧ (∃ t y, exec (.iaddN64 d a b) s = .next t
           ∧ Delivered s x t y (.same s x) [srcW a, srcI b] false d 2 (fun l =>
               let v := operands s x [srcW a, srcI b] l
               let r : DWord := argPair v 0 + (arg v 1).setWidth 64
               [r.setWidth 32, (r >>> 32).setWidth 32])
           ∧ y.r.latches = x.r.latches))
       ∧ decodeWord 0x06050607 = .ok (.imad 0 5 6 7))
  ∧ (∀ (s : State) (x : Ex) (n : BitVec 1) (d a : BitVec 8) (m : Mach), s.ex? = some x →
       (WordReady s x false [srcI a, srcI d] (nwOf n) d 1 m →
         LaneResult s x [srcI a, srcI d] n d (fun v => BitVec.ofInt 32 (min (arg v 1).toInt (arg v 0).toInt)) (exec (.imin n d a 0) s)
         ∧ LaneResult s x [srcI a, srcI d] n d (fun v => BitVec.ofNat 32 (min (arg v 1).toNat (arg v 0).toNat)) (exec (.imin n d a 1) s)
         ∧ LaneResult s x [srcI a, srcI d] n d (fun v => BitVec.ofInt 32 (max (arg v 1).toInt (arg v 0).toInt)) (exec (.imax n d a 0) s)
         ∧ LaneResult s x [srcI a, srcI d] n d (fun v => BitVec.ofNat 32 (max (arg v 1).toNat (arg v 0).toNat)) (exec (.imax n d a 1) s))
       ∧ (WordReady s x false [srcI a] (nwOf n) d 1 m →
         LaneResult s x [srcI a] n d (fun v => BitVec.ofNat 32 (arg v 0).toInt.natAbs) (exec (.iabsS32 n d a) s)
         ∧ LaneResult s x [srcI a] n d (fun v => BitVec.ofNat 32 (32 - (if (arg v 0).toNat = 0 then 0 else (arg v 0).toNat.log2 + 1))) (exec (.clz n d a) s)
         ∧ LaneResult s x [srcI a] n d (fun v => BitVec.ofNat 32 ((List.range 32).filter (fun i => (arg v 0).getLsbD i)).length) (exec (.popc n d a) s)
         ∧ LaneResult s x [srcI a] n d (fun v => (arg v 0).reverse) (exec (.brev n d a) s)
         ∧ LaneResult s x [srcI a] n d (fun v => BitVec.ofInt 32 (max (-128) (min 127 (arg v 0).toInt))) (exec (.satn n d a 0) s)
         ∧ LaneResult s x [srcI a] n d (fun v => BitVec.ofInt 32 (max 0 (min 255 (arg v 0).toInt))) (exec (.satn n d a 1) s)
         ∧ LaneResult s x [srcI a] n d (fun v => BitVec.ofInt 32 (max (-32768) (min 32767 (arg v 0).toInt))) (exec (.satn n d a 2) s)
         ∧ LaneResult s x [srcI a] n d (fun v => BitVec.ofInt 32 (max 0 (min 65535 (arg v 0).toInt))) (exec (.satn n d a 3) s)))

/-- R206: the dot products add exactly and saturate once. -/
def Obligations.DotProductsSaturateOnce : Prop :=
  (∀ (s : State) (x : Ex) (n : BitVec 1) (d a b : BitVec 8) (m : Mach), s.ex? = some x →
     WordReady s x false [srcI a, srcI b, srcI d] (nwOf n) d 1 m →
       (let byteS := fun (w : Word) (i : Nat) => ((w >>> (8 * i)).setWidth 8).toInt
        let halfS := fun (w : Word) (i : Nat) => ((w >>> (16 * i)).setWidth 16).toInt
        let byteN := fun (w : Word) (i : Nat) => (((w >>> (8 * i)).setWidth 8).toNat : Int)
        let sat := fun (lo hi t : Int) => BitVec.ofInt 32 (max lo (min hi t))
        LaneResult s x [srcI a, srcI b, srcI d] n d (fun v => sat (-2147483648) 2147483647
           ((arg v 2).toInt + byteS (arg v 0) 0 * byteS (arg v 1) 0 + byteS (arg v 0) 1 * byteS (arg v 1) 1 + byteS (arg v 0) 2 * byteS (arg v 1) 2
             + byteS (arg v 0) 3 * byteS (arg v 1) 3)) (exec (.idot4S8 n d a b) s)
        ∧ LaneResult s x [srcI a, srcI b, srcI d] n d (fun v => sat 0 4294967295
           ((arg v 2).toNat + byteN (arg v 0) 0 * byteN (arg v 1) 0 + byteN (arg v 0) 1 * byteN (arg v 1) 1 + byteN (arg v 0) 2 * byteN (arg v 1) 2
             + byteN (arg v 0) 3 * byteN (arg v 1) 3)) (exec (.idot4N8 n d a b) s)
        ∧ LaneResult s x [srcI a, srcI b, srcI d] n d (fun v => sat (-2147483648) 2147483647
           ((arg v 2).toInt + halfS (arg v 0) 0 * halfS (arg v 1) 0 + halfS (arg v 0) 1 * halfS (arg v 1) 1)) (exec (.idot2S16 n d a b) s)))
  ∧ decodeWord 0x1008090A = .ok (.idot4S8 0 8 9 10)

/-- R207, R195, R59: a `MOV` moves its source and fills a latch; from a queue to a `v` register it is the queue-fed load, which leases D in the active lanes and issues at once;
from a queue elsewhere it pops an entry and fills no latch. -/
def Obligations.MoveAndQueueFedLoad : Prop :=
  ∀ (s : State) (x : Ex) (n : BitVec 1) (d a : BitVec 8) (m : Mach), s.ex? = some x →
    (isQueue a = false → WordReady s x false [srcI a] (nwOf n) d 1 m → LaneResult s x [srcI a] n d (fun v => arg v 0) (exec (.mov n d a) s))
    ∧ (isQueue a = true → isV d = false → WordReady s x false [srcI a] false d 1 m →
        ∃ t y, exec (.mov n d a) s = .next t
          ∧ Delivered s x t y (.same s x) [srcI a] false d 1 (fun l => [arg (operands s x [srcI a] l) 0]) ∧ y.r.latches = x.r.latches)
    ∧ (isQueue a = true → isV d = true → ((boxOf s x).queues.getD (a.toNat - 0x88) .fresh).kind ≠ 0 → regsReady s.m x d.toNat 1 = .go m →
        ∃ t y p, exec (.mov n d a) s = .next t
          ∧ WordDone s x t y { Rest.same s x with m := { s.m with nextId := s.m.nextId + 1 }, w := { x.w with pends := x.w.pends ++ [p] } }
          ∧ FlowKept x y ∧ RegsKept x y ∧ y.r.latches = x.r.latches
          ∧ p.kind = .queueFed (a.toNat - 0x88) ∧ p.leased = true ∧ p.lanes = x.g.lanes ∧ p.reg = d.toNat ∧ p.count = 1)

/-- R208, R209: logic, shifts and bit fields. -/
def Obligations.LogicShiftsAndFields : Prop :=
  (∀ (s : State) (x : Ex) (n : BitVec 1) (d a b : BitVec 8) (m : Mach), s.ex? = some x →
     (WordReady s x false [srcI a, srcI b] (nwOf n) d 1 m →
       LaneResult s x [srcI a, srcI b] n d (fun v => arg v 0 &&& arg v 1) (exec (.and n d a b) s)
       ∧ LaneResult s x [srcI a, srcI b] n d (fun v => arg v 0 ||| arg v 1) (exec (.or n d a b) s)
       ∧ LaneResult s x [srcI a, srcI b] n d (fun v => arg v 0 ^^^ arg v 1) (exec (.xor n d a b) s)
       ∧ LaneResult s x [srcI a, srcI b] n d (fun v => arg v 0 &&& ~~~(arg v 1)) (exec (.andn n d a b) s)
       ∧ LaneResult s x [srcI a, srcI b] n d (fun v => if 32 ≤ (arg v 1).toNat then 0 else arg v 0 <<< (arg v 1).toNat) (exec (.shl n d a b) s)
       ∧ LaneResult s x [srcI a, srcI b] n d (fun v => if 32 ≤ (arg v 1).toNat then 0 else arg v 0 >>> (arg v 1).toNat) (exec (.shr n d a b) s)
       ∧ LaneResult s x [srcI a, srcI b] n d (fun v => (arg v 0).sshiftRight (arg v 1).toNat) (exec (.sar n d a b) s)
       ∧ LaneResult s x [srcI a, srcI b] n d (fun v =>
           let len := min ((arg v 1).toNat / 32 % 64) 32
           let f := (arg v 0 >>> ((arg v 1).toNat % 32)) &&& BitVec.ofNat 32 (2 ^ len - 1)
           if (arg v 1).getLsbD 11 ∧ 0 < len ∧ f.getLsbD (len - 1) then f ||| ~~~(BitVec.ofNat 32 (2 ^ len - 1)) else f) (exec (.bfx n d a b) s))
     ∧ (WordReady s x false [srcI a, srcI b, srcI d] (nwOf n) d 1 m →
       LaneResult s x [srcI a, srcI b, srcI d] n d (fun v =>
           (((((arg v 2).setWidth 64 <<< 32) ||| (arg v 0).setWidth 64) <<< ((arg v 1).toNat % 32)) >>> 32).setWidth 32) (exec (.fshl n d a b) s)
       ∧ LaneResult s x [srcI a, srcI b, srcI d] n d (fun v =>
           ((((arg v 0).setWidth 64 <<< 32) ||| (arg v 2).setWidth 64) >>> ((arg v 1).toNat % 32)).setWidth 32) (exec (.fshr n d a b) s)
       ∧ LaneResult s x [srcI a, srcI b, srcI d] n d (fun v =>
           let len := min ((arg v 1).toNat / 32 % 64) 32
           let mask : Word := BitVec.ofNat 32 (2 ^ len - 1) <<< ((arg v 1).toNat % 32)
           (arg v 2 &&& ~~~mask) ||| ((arg v 0 <<< ((arg v 1).toNat % 32)) &&& mask)) (exec (.bfi n d a b) s)))
  ∧ decodeWord 0x280304C5 = .ok (.shl 0 3 4 0xC5)
  ∧ decodeWord 0x32030405 = .ok (.bfx 0 3 4 5)

/-- R210, R211, R212: compares write 1 or 0; FP32 compares take +0 as −0 and give 0 for any NaN; select keeps D where its predicate is zero; constants. -/
def Obligations.CompareSelectConstants : Prop :=
  (∀ (s : State) (x : Ex) (n : BitVec 1) (d a b : BitVec 8) (i : BitVec 16) (m : Mach), s.ex? = some x →
     (WordReady s x false [srcI a, srcI b] (nwOf n) d 1 m →
       LaneResult s x [srcI a, srcI b] n d (fun v => if arg v 0 = arg v 1 then 1 else 0) (exec (.icmpEq n d a b) s)
       ∧ LaneResult s x [srcI a, srcI b] n d (fun v => if arg v 0 ≠ arg v 1 then 1 else 0) (exec (.icmpNe n d a b) s)
       ∧ LaneResult s x [srcI a, srcI b] n d (fun v => if (arg v 0).toInt < (arg v 1).toInt then 1 else 0) (exec (.icmpLtS32 n d a b) s)
       ∧ LaneResult s x [srcI a, srcI b] n d (fun v => if (arg v 0).toInt ≤ (arg v 1).toInt then 1 else 0) (exec (.icmpLeS32 n d a b) s)
       ∧ LaneResult s x [srcI a, srcI b] n d (fun v => if (arg v 0).toNat < (arg v 1).toNat then 1 else 0) (exec (.icmpLtN32 n d a b) s)
       ∧ LaneResult s x [srcI a, srcI b] n d (fun v => if (arg v 0).toNat ≤ (arg v 1).toNat then 1 else 0) (exec (.icmpLeN32 n d a b) s))
     ∧ (WordReady s x false [srcF a, srcF b] (nwOf n) d 1 m →
       let ord := fun (v : List DWord) => (fp32.decode (arg v 0).toNat).cmp (fp32.decode (arg v 1).toNat)
       LaneResult s x [srcF a, srcF b] n d (fun v => if ord v = some .eq then 1 else 0) (exec (.fcmpEqF n d a b) s)
       ∧ LaneResult s x [srcF a, srcF b] n d (fun v => if ord v = some .lt then 1 else 0) (exec (.fcmpLtF n d a b) s)
       ∧ LaneResult s x [srcF a, srcF b] n d (fun v => if ord v = some .lt ∨ ord v = some .eq then 1 else 0) (exec (.fcmpLeF n d a b) s))
     ∧ (WordReady s x false [srcI a, srcI b, srcI d] (nwOf n) d 1 m →
       LaneResult s x [srcI a, srcI b, srcI d] n d (fun v => if arg v 0 ≠ 0 then arg v 1 else arg v 2) (exec (.sel n d a b) s))
     ∧ (WordReady s x false [] (nwOf n) d 1 m → LaneResult s x [] n d (fun _ => i.setWidth 32) (exec (.movi n d i) s))
     ∧ (WordReady s x false [srcI d] (nwOf n) d 1 m →
       LaneResult s x [srcI d] n d (fun v => (i.setWidth 32 <<< 16) ||| ((arg v 0).setWidth 16).setWidth 32) (exec (.hiw n d i) s)))
  ∧ decodeWord 0x44030405 = .ok (.icmpLtS32 0 3 4 5)
  ∧ decodeWord 0x16030405 = .ok (.sel 0 3 4 5)
  ∧ decodeWord 0x1C021234 = .ok (.movi 0 2 0x1234)
  ∧ decodeWord 0x1E02ABCD = .ok (.hiw 0 2 0xABCD)

/-- R213 to R216: each scalar float result is the exact value of the decoded operands, rounded once to nearest even in its form (`Fmt.round`); minimum, maximum, class and
conversions. -/
def Obligations.ScalarFloat : Prop :=
  ∀ (s : State) (x : Ex) (n : BitVec 1) (d a b : BitVec 8) (m : Mach), s.ex? = some x →
    let F := fun (v : List DWord) (i : Nat) => fp32.decode (arg v i).toNat
    let H := fun (v : List DWord) (i : Nat) => fp16.decode ((arg v i).toNat % 65536)
    let f32 := fun (r : Fl) => BitVec.ofNat 32 (fp32.round r)
    let f16 := fun (r : Fl) => BitVec.ofNat 32 (fp16.round r)
    (WordReady s x false [srcF a, srcF b] (nwOf n) d 1 m →
      LaneResult s x [srcF a, srcF b] n d (fun v => f32 ((F v 0).add (F v 1))) (exec (.faddF n d a b) s)
      ∧ LaneResult s x [srcF a, srcF b] n d (fun v => f32 ((F v 0).add (F v 1).neg)) (exec (.fsubF n d a b) s)
      ∧ LaneResult s x [srcF a, srcF b] n d (fun v => f32 ((F v 0).mul (F v 1))) (exec (.fmulF n d a b) s))
    ∧ (WordReady s x false [srcH a, srcH b] (nwOf n) d 1 m →
      LaneResult s x [srcH a, srcH b] n d (fun v => f16 ((H v 0).add (H v 1))) (exec (.faddH n d a b) s)
      ∧ LaneResult s x [srcH a, srcH b] n d (fun v => f16 ((H v 0).add (H v 1).neg)) (exec (.fsubH n d a b) s)
      ∧ LaneResult s x [srcH a, srcH b] n d (fun v => f16 ((H v 0).mul (H v 1))) (exec (.fmulH n d a b) s))
    ∧ (WordReady s x false [srcF a, srcF b, srcF d] (nwOf n) d 1 m →
      LaneResult s x [srcF a, srcF b, srcF d] n d (fun v => f32 (((F v 0).mul (F v 1)).add (F v 2))) (exec (.fmaF n d a b) s))
    ∧ (WordReady s x false [srcH a, srcH b, srcH d] (nwOf n) d 1 m →
      LaneResult s x [srcH a, srcH b, srcH d] n d (fun v => f16 (((H v 0).mul (H v 1)).add (H v 2))) (exec (.fmaH n d a b) s))
    ∧ (WordReady s x false [srcF a, srcF d] (nwOf n) d 1 m →
      LaneResult s x [srcF a, srcF d] n d (fun v => BitVec.ofNat 32 (fp32.minmax false (arg v 1).toNat (arg v 0).toNat)) (exec (.fminF n d a) s)
      ∧ LaneResult s x [srcF a, srcF d] n d (fun v => BitVec.ofNat 32 (fp32.minmax true (arg v 1).toNat (arg v 0).toNat)) (exec (.fmaxF n d a) s))
    ∧ (∀ (q : Src) (t : BitVec 2), q = ⟨a, if t = 0 then .f32 else if t = 1 then .h16 else .b16⟩ → WordReady s x false [q] (nwOf n) d 1 m →
      LaneResult s x [q] n d (fun v => BitVec.ofNat 32 (if t = 0 then fp32.classMask (arg v 0).toNat else if t = 1 then fp16.classMask ((arg v 0).toNat % 65536)
        else bf16.classMask ((arg v 0).toNat % 65536))) (exec (.fclass n d a t) s))
    ∧ (∀ (q : Src) (c : BitVec 5), q = ⟨a, fcvtKind c.toNat⟩ → WordReady s x false [q] (nwOf n) d 1 m →
      LaneResult s x [q] n d (fun v =>
        let w := (arg v 0).toNat
        BitVec.ofInt 32 (if c = 0 then fp16.round (fp32.decode w) else if c = 1 then bf16.round (fp32.decode w) else if c = 2 then fp32.round (fp16.decode (w % 65536))
          else if c = 3 then fp32.round (bf16.decode (w % 65536)) else if c = 4 then fp16.round (bf16.decode (w % 65536)) else if c = 5 then bf16.round (fp16.decode (w % 65536))
          else if c = 6 then fp32.round (Fl.ofInt (arg v 0).toInt) else if c = 7 then fp32.round (Fl.ofInt w)
          else if c = 8 then floatToInt (-2147483648) 2147483647 w else floatToInt 0 4294967295 w)) (exec (.fcvt n d a c) s))

/-- R217: a special function gives one result for one input, in every lane, on every core and at every time: its result is a function of the source value alone.
R218: a packed instruction works on each half by itself, rounded in its own form, and nothing carries between the halves. -/
def Obligations.SpecialFunctionsAndPackedPairs : Prop :=
  (∀ (s : State) (x : Ex) (n : BitVec 1) (d a : BitVec 8) (m : Mach), s.ex? = some x → WordReady s x false [srcF a] (nwOf n) d 1 m →
       let r := fun (f : Nat → Nat) (v : List DWord) => (BitVec.ofNat 32 (f (arg v 0).toNat) : Word)
       LaneResult s x [srcF a] n d (r frcp) (exec (.frcpF n d a) s)
       ∧ LaneResult s x [srcF a] n d (r frsq) (exec (.frsqF n d a) s)
       ∧ LaneResult s x [srcF a] n d (r fsqrt) (exec (.fsqrtF n d a) s)
       ∧ LaneResult s x [srcF a] n d (r fexp2) (exec (.fexp2F n d a) s)
       ∧ LaneResult s x [srcF a] n d (r flog2) (exec (.flog2F n d a) s)
       ∧ LaneResult s x [srcF a] n d (r fsin) (exec (.fsinF n d a) s)
       ∧ LaneResult s x [srcF a] n d (r fcos) (exec (.fcosF n d a) s)
       ∧ LaneResult s x [srcF a] n d (r ftanh) (exec (.ftanhF n d a) s))
  ∧ (∀ (s : State) (x : Ex) (n : BitVec 1) (d a b : BitVec 8) (m : Mach), s.ex? = some x →
       let lo := fun (v : List DWord) (i : Nat) => (arg v i).toNat % 65536
       let hi := fun (v : List DWord) (i : Nat) => (arg v i).toNat / 65536
       let two := fun (h l : Nat) => (BitVec.ofNat 32 (h * 65536 + l) : Word)
       (WordReady s x false [srcH2 a, srcH2 b] (nwOf n) d 1 m →
         LaneResult s x [srcH2 a, srcH2 b] n d (fun v => two (fp16.add (hi v 0) (hi v 1)) (fp16.add (lo v 0) (lo v 1))) (exec (.paddH2 n d a b) s)
         ∧ LaneResult s x [srcH2 a, srcH2 b] n d (fun v => two (fp16.mul (hi v 0) (hi v 1)) (fp16.mul (lo v 0) (lo v 1))) (exec (.pmulH2 n d a b) s))
       ∧ (WordReady s x false [srcB2 a, srcB2 b] (nwOf n) d 1 m →
         LaneResult s x [srcB2 a, srcB2 b] n d (fun v => two (bf16.add (hi v 0) (hi v 1)) (bf16.add (lo v 0) (lo v 1))) (exec (.paddB2 n d a b) s)
         ∧ LaneResult s x [srcB2 a, srcB2 b] n d (fun v => two (bf16.mul (hi v 0) (hi v 1)) (bf16.mul (lo v 0) (lo v 1))) (exec (.pmulB2 n d a b) s))
       ∧ (WordReady s x false [srcH2 a, srcH2 b, srcH2 d] (nwOf n) d 1 m →
         LaneResult s x [srcH2 a, srcH2 b, srcH2 d] n d
           (fun v => two (fp16.fma (hi v 0) (hi v 1) (hi v 2)) (fp16.fma (lo v 0) (lo v 1) (lo v 2))) (exec (.pfmaH2 n d a b) s))
       ∧ (WordReady s x false [srcB2 a, srcB2 b, srcB2 d] (nwOf n) d 1 m →
         LaneResult s x [srcB2 a, srcB2 b, srcB2 d] n d
           (fun v => two (bf16.fma (hi v 0) (hi v 1) (hi v 2)) (bf16.fma (lo v 0) (lo v 1) (lo v 2))) (exec (.pfmaB2 n d a b) s))
       ∧ (WordReady s x false [srcH2 a, srcH2 d] (nwOf n) d 1 m →
         LaneResult s x [srcH2 a, srcH2 d] n d (fun v => two (fp16.minmax false (hi v 1) (hi v 0)) (fp16.minmax false (lo v 1) (lo v 0))) (exec (.pmin n d a 0) s)
         ∧ LaneResult s x [srcH2 a, srcH2 d] n d (fun v => two (fp16.minmax true (hi v 1) (hi v 0)) (fp16.minmax true (lo v 1) (lo v 0))) (exec (.pmax n d a 0) s))
       ∧ (WordReady s x false [srcB2 a, srcB2 d] (nwOf n) d 1 m →
         LaneResult s x [srcB2 a, srcB2 d] n d (fun v => two (bf16.minmax false (hi v 1) (hi v 0)) (bf16.minmax false (lo v 1) (lo v 0))) (exec (.pmin n d a 1) s)
         ∧ LaneResult s x [srcB2 a, srcB2 d] n d (fun v => two (bf16.minmax true (hi v 1) (hi v 0)) (bf16.minmax true (lo v 1) (lo v 0))) (exec (.pmax n d a 1) s)))

/-! Quantisation and the cross-lane instructions. -/

/-- R219: `QSCL` multiplies exactly, divides by a power of two to the nearest integer, ties to the even one, and saturates to `.s32`; it sets no ACCSTAT bit. -/
def Obligations.QuantiseScale : Prop :=
  (∀ (s : State) (x : Ex) (n : BitVec 1) (d a b : BitVec 8) (m : Mach), s.ex? = some x → WordReady s x false [srcW a, srcW b] (nwOf n) d 1 m →
     ∃ f : List DWord → Word, LaneResult s x [srcW a, srcW b] n d f (exec (.qscl n d a b) s)
       ∧ ∀ v, ∃ q : Int,
           let p : Int := (argPair v 0).toInt * ((argPair v 1).setWidth 32).toInt
           let t : Int := 2 ^ (((argPair v 1) >>> 32).toNat % 128)
           2 * (q * t - p) ≤ t ∧ -t ≤ 2 * (q * t - p) ∧ (2 * (q * t - p) = t ∨ 2 * (q * t - p) = -t → q % 2 = 0)
             ∧ f v = BitVec.ofInt 32 (max (-2147483648) (min 2147483647 q)))
  ∧ decodeWord 0x18041416 = .ok (.qscl 0 4 0x14 0x16)

/-- R220 to R223: `QENC` quantises under the slot, `QDEC` decodes one codebook weight, `QLUTB` builds a table of 16 products and `QLUT` reads an entry of such a table,
each with a slot whose element type it accepts.
R37, R220: what `QENC` writes is an octet of the slot's type, and a NaN gives ZP, or 0 in an `.s8` slot. -/
def Obligations.QuantiseAndTables : Prop :=
  (∀ (s : State) (x : Ex) (n : BitVec 1) (d a : BitVec 8) (k : BitVec 3) (m : Mach), s.ex? = some x →
       let slot := ((((mget s.m.grids x.w.grid).elim (List.replicate 384 0) (·.record)).drop (128 + 32 * k.toNat)).take 32)
       (WordReady s x false [srcF a] (nwOf n) d 1 m →
         (slotElt slot = 2 → LaneResult s x [srcF a] n d (fun v => BitVec.ofInt 32 (quantN8 slot (arg v 0).toNat)) (exec (.qenc n d a k) s))
         ∧ (slotElt slot = 1 → LaneResult s x [srcF a] n d (fun v => BitVec.ofInt 32 (quantS8 slot (arg v 0).toNat)) (exec (.qenc n d a k) s)))
       ∧ (slotElt slot = 0x20 → WordReady s x false [srcW a] (nwOf n) d 1 m →
         LaneResult s x [srcW a] n d (fun v =>
           let p : Int := codebookC ((argPair v 0).toNat % 16) * ((argPair v 0).toNat / 256 % 256 : Nat)
           BitVec.ofNat 32 (fp32.round (((Fl.ofInt p).mul (fp32.decode ((argPair v 0).toNat / 2 ^ 32))).mul (.fin false 1 (-16))))) (exec (.qdec n d a k) s))
       ∧ (slotElt slot = 2 ∨ slotElt slot = 1 → WordReady s x false [srcI a] false d 16 m →
         ∃ t y, exec (.qlutb d a k) s = .next t
           ∧ Delivered s x t y (.same s x) [srcI a] false d 16 (fun l =>
               let w := arg (operands s x [srcI a] l) 0
               let act : Int := if slotElt slot = 1 then (w.setWidth 8).toInt else (w.toNat % 256 : Nat) - (slotZp slot : Int)
               (List.range 16).map (fun k => BitVec.ofInt 32 (codebookC k * act)))
           ∧ y.r.latches = x.r.latches)
       ∧ (slotElt slot = 0x20 → WordReady s x false [srcW a] (nwOf n) d 1 m →
           let base := fun l => (argPair (operands s x [srcW a] l) 0).toNat / 2 ^ 32 % 128
           x.g.lanes ≠ 0 → (∀ l ∈ x.lanes, base l % 2 = 0 ∧ base l ≤ 112) →
           (∀ l ∈ x.lanes, ∀ j < 16, x.w.spilled.contains (base l + j) = false ∧ x.w.pendingIn (x.readMask false) (base l + j) = false) →
           LaneResults s x [srcW a] n d (fun l => x.w.regLane (base l + (argPair (operands s x [srcW a] l) 0).toNat % 16) l) (exec (.qlut n d a k) s)))
  ∧ (∀ (slot : List Byte) (v : Nat),
       0 ≤ quantN8 slot v ∧ quantN8 slot v ≤ 255 ∧ -128 ≤ quantS8 slot v ∧ quantS8 slot v ≤ 127
       ∧ (fp32.decode v = .nan → quantN8 slot v = slotZp slot ∧ quantS8 slot v = 0)
       ∧ (fp32.decode v = .inf false → quantN8 slot v = 255 ∧ quantS8 slot v = 127)
       ∧ (fp32.decode v = .inf true → quantN8 slot v = 0 ∧ quantS8 slot v = -128))

/-- R224: `LXCH` takes each lane's value from the lane its control word names. -/
def Obligations.LaneExchange : Prop :=
  (∀ (s : State) (x : Ex) (n : BitVec 1) (d a b : BitVec 8) (m : Mach), s.ex? = some x → WordReady s x false [srcI a, srcI b, srcI d] (nwOf n) d 1 m →
     let v := operands s x [srcI a, srcI b, srcI d]
     LaneResults s x [srcI a, srcI b, srcI d] n d (fun l =>
       let c := (arg (v l) 1).toNat
       let amt : Int := c % 32
       let k : Int :=
         if c / 32 % 4 = 0 then amt else if c / 32 % 4 = 1 then ((l : Int) + amt) % 32
         else if c / 32 % 4 = 2 then l + (if 16 ≤ amt then amt - 32 else amt) else (l ^^^ c % 32 : Nat)
       if k < 0 ∨ 31 < k then (if c / 128 % 2 = 1 then 0 else arg (v l) 2)
       else if inMask x.g.lanes k.toNat then arg (v k.toNat) 0 else 0) (exec (.lxch n d a b) s))
  ∧ decodeWord 0x1A030405 = .ok (.lxch 0 3 4 5)

/-- R225, R226, R228: polls and peer searches over the present members of each lane's mask.
R225, R371, R372: a lane whose member mask leaves the lane out parks with `SELF_MASK`, the mask in ADDR. -/
def Obligations.PollsPeersAndMasks : Prop :=
  (∀ (s : State) (x : Ex) (n : BitVec 1) (d a : BitVec 8) (m : Mach), s.ex? = some x → WordReady s x false [srcI a, srcI d] (nwOf n) d 1 m →
       let v := operands s x [srcI a, srcI d]
       let val := fun k => arg (v k) 0
       let mask := fun l => arg (v l) 1
       let there := fun l k => inMask (mask l) k && inMask x.g.lanes k && inMask (mask k) k
       let all := List.range 32
       let bit := fun (b : Bool) => if b then (1 : Word) else 0
       x.g.lanes ≠ 0 → (∀ l ∈ x.lanes, inMask (mask l) l) →
         LaneResults s x [srcI a, srcI d] n d (fun l => bit (all.all (fun k => !inMask (mask l) k || (there l k && val k ≠ 0)))) (exec (.poll n d a 0) s)
         ∧ LaneResults s x [srcI a, srcI d] n d (fun l => bit (all.any (fun k => there l k && val k ≠ 0))) (exec (.poll n d a 1) s)
         ∧ LaneResults s x [srcI a, srcI d] n d (fun l => maskOf (all.filter (fun k => there l k && val k ≠ 0))) (exec (.poll n d a 2) s)
         ∧ LaneResults s x [srcI a, srcI d] n d (fun l =>
             bit (all.all (fun k => !inMask (mask l) k || (there l k && val k ≠ 0)) || all.all (fun k => !there l k || val k = 0))) (exec (.poll n d a 3) s)
         ∧ LaneResults s x [srcI a, srcI d] n d (fun l => BitVec.ofNat 32 (all.filter (fun k => there l k && val k ≠ 0)).length) (exec (.poll n d a 4) s)
         ∧ LaneResults s x [srcI a, srcI d] n d (fun l => maskOf (all.filter (fun k => there l k && val k = val l))) (exec (.peers n d a 0) s)
         ∧ LaneResults s x [srcI a, srcI d] n d (fun l =>
             if all.all (fun k => !inMask (mask l) k || (there l k && val k = val l)) then mask l else 0) (exec (.peers n d a 1) s)
         ∧ LaneResults s x [srcI a, srcI d] n d (fun l =>
             BitVec.ofNat 32 ((all.find? (fun k => there l k && val k = val l)).getD l))
             (exec (.peers n d a 2) s))
  ∧ (∀ (s : State) (x : Ex) (n : BitVec 1) (d a : BitVec 8) (k : BitVec 5) (m : Mach), s.ex? = some x → WordReady s x false [srcI a, srcI d] (nwOf n) d 1 m → Plain x →
       let mask := fun l => arg (operands s x [srcI a, srcI d] l) 1
       (∀ l ∈ x.lanes, inMask (mask l) l = false) →
         let f := fun l => ({ cause := .selfMask, detail := 0, addr := (mask l).setWidth 48 } : FaultInfo)
         (∃ t, exec (.poll n d a k) s = .next t ∧ AllParked s x t f x.pc (boxOf s x))
         ∧ (∃ t, exec (.peers n d a k) s = .next t ∧ AllParked s x t f x.pc (boxOf s x)))

/-- R227: reductions and scans combine the present members' values one at a time in ascending lane order. A NaN result is the canonical one, which is the model's reading of
R15 for a single member (log entry 24). -/
def Obligations.ReductionsAndScans : Prop :=
  ∀ (s : State) (x : Ex) (n : BitVec 1) (d a : BitVec 8) (c : BitVec 4) (m : Mach), s.ex? = some x → c.toNat ≤ 10 →
    let q : Src := { spec := a, kind := if 8 ≤ c.toNat then .f32 else .int }
    let v := operands s x [q, srcI d]
    let mask := fun l => arg (v l) 1
    let members := fun l => (List.range 32).filter (fun k => inMask (mask l) k && inMask x.g.lanes k && inMask (mask k) k)
    let least := fun (p : Bool) (y z : Word) => if p then y else z
    let op : Word → Word → Word := fun y z =>
      (([y + z, least (y.sle z) y z, least (y.ule z) y z, least (y.sle z) z y, least (y.ule z) z y, y &&& z, y ||| z, y ^^^ z,
        BitVec.ofNat 32 (fp32.add y.toNat z.toNat), BitVec.ofNat 32 (fp32.minmax false y.toNat z.toNat), BitVec.ofNat 32 (fp32.minmax true y.toNat z.toNat)] : List Word)).getD c.toNat 0
    let start : Word := (([0, 0x7FFFFFFF, 0xFFFFFFFF, 0x80000000, 0, 0xFFFFFFFF, 0, 0, 0x80000000, 0x7F800000, 0xFF800000] : List Word)).getD c.toNat 0
    let total : List Word → Word := fun vs =>
      match vs with
      | [] => start
      | w :: ws => if 8 ≤ c.toNat ∧ fp32.decode (ws.foldl op w).toNat = .nan then 0x7FC00000 else ws.foldl op w
    WordReady s x false [q, srcI d] (nwOf n) d 1 m → x.g.lanes ≠ 0 → (∀ l ∈ x.lanes, inMask (mask l) l) →
      LaneResults s x [q, srcI d] n d (fun l => total ((members l).map (fun k => arg (v k) 0))) (exec (.redu n d a c) s)
      ∧ LaneResults s x [q, srcI d] n d (fun l => total (((members l).filter (fun k => k ≤ l)).map (fun k => arg (v k) 0))) (exec (.scan n d a 0 c) s)
      ∧ LaneResults s x [q, srcI d] n d (fun l => total (((members l).filter (fun k => k < l)).map (fun k => arg (v k) 0))) (exec (.scan n d a 1 c) s)

/-! The uniform ALU. -/

/-- R230, R42: each uniform ALU instruction computes what its lane counterpart computes, from the lowest active lane's sources, and delivers the result to every active lane. -/
def Obligations.UniformAlu : Prop :=
  ∀ (s : State) (x : Ex) (n : BitVec 1) (d a b : BitVec 8) (i : BitVec 16) (m : Mach), s.ex? = some x →
    let one := fun (p : Bool) => if p then (1 : Word) else 0
    (WordReady s x true [srcI a, srcI b] (nwOf n) d 1 m →
      UniformResult s x [srcI a, srcI b] n d (fun v => arg v 0 + arg v 1) (exec (.uadd n d a b) s)
      ∧ UniformResult s x [srcI a, srcI b] n d (fun v => arg v 0 - arg v 1) (exec (.usub n d a b) s)
      ∧ UniformResult s x [srcI a, srcI b] n d (fun v => arg v 0 * arg v 1) (exec (.umul n d a b) s)
      ∧ UniformResult s x [srcI a, srcI b] n d (fun v => arg v 0 &&& arg v 1) (exec (.uand n d a b) s)
      ∧ UniformResult s x [srcI a, srcI b] n d (fun v => arg v 0 ||| arg v 1) (exec (.uor n d a b) s)
      ∧ UniformResult s x [srcI a, srcI b] n d (fun v => arg v 0 ^^^ arg v 1) (exec (.uxor n d a b) s)
      ∧ UniformResult s x [srcI a, srcI b] n d (fun v => if 32 ≤ (arg v 1).toNat then 0 else arg v 0 <<< (arg v 1).toNat) (exec (.ushl n d a b) s)
      ∧ UniformResult s x [srcI a, srcI b] n d (fun v => if 32 ≤ (arg v 1).toNat then 0 else arg v 0 >>> (arg v 1).toNat) (exec (.ushr n d a b) s)
      ∧ UniformResult s x [srcI a, srcI b] n d (fun v => one (arg v 0 = arg v 1)) (exec (.ucmpEq n d a b) s)
      ∧ UniformResult s x [srcI a, srcI b] n d (fun v => one (arg v 0 ≠ arg v 1)) (exec (.ucmpNe n d a b) s)
      ∧ UniformResult s x [srcI a, srcI b] n d (fun v => one ((arg v 0).toInt < (arg v 1).toInt)) (exec (.ucmpLtS32 n d a b) s)
      ∧ UniformResult s x [srcI a, srcI b] n d (fun v => one ((arg v 0).toInt ≤ (arg v 1).toInt)) (exec (.ucmpLeS32 n d a b) s)
      ∧ UniformResult s x [srcI a, srcI b] n d (fun v => one ((arg v 0).toNat < (arg v 1).toNat)) (exec (.ucmpLtN32 n d a b) s)
      ∧ UniformResult s x [srcI a, srcI b] n d (fun v => one ((arg v 0).toNat ≤ (arg v 1).toNat)) (exec (.ucmpLeN32 n d a b) s))
    ∧ (WordReady s x true [srcI a, srcI b, srcI d] (nwOf n) d 1 m →
      UniformResult s x [srcI a, srcI b, srcI d] n d (fun v => arg v 0 * arg v 1 + arg v 2) (exec (.umad n d a b) s)
      ∧ UniformResult s x [srcI a, srcI b, srcI d] n d (fun v => if arg v 0 ≠ 0 then arg v 1 else arg v 2) (exec (.usel n d a b) s))
    ∧ (WordReady s x true [srcI a] (nwOf n) d 1 m → UniformResult s x [srcI a] n d (fun v => arg v 0) (exec (.umov n d a) s))
    ∧ (WordReady s x true [] (nwOf n) d 1 m → UniformResult s x [] n d (fun _ => i.setWidth 32) (exec (.umovi n d i) s))
    ∧ (WordReady s x true [srcI d] (nwOf n) d 1 m →
      UniformResult s x [srcI d] n d (fun v => (i.setWidth 32 <<< 16) ||| ((arg v 0).setWidth 16).setWidth 32) (exec (.uhiw n d i) s))

/-! What holds a word, and what parks its lanes. -/

/-- R200: what a source specifier delivers to a lane, by its class.
R186, R187, R188: a word that reads a pending register waits at issue and takes no effect; one that would write a register leased to an engine parks its lanes
with `LEASE_WRITE`; one that would write a register pending without a lease waits. -/
def Obligations.SourcesAndPendingRegisters : Prop :=
  (∀ (s : State) (x : Ex) (a : BitVec 8) (l : Nat),
       let v := operands s x [srcI a] l
       (a.toNat < 0x80 → arg v 0 = x.w.regLane a.toNat l)
       ∧ (a.toNat < 0x80 → argPair (operands s x [srcW a] l) 0 = (x.w.regLane (a.toNat + 1) l ++ x.w.regLane a.toNat l : BitVec 64))
       ∧ (∀ k < 3, a.toNat = 0x80 + k → arg v 0 = laneOf (x.r.latches.getD k zeroVec) l)
       ∧ (a.toNat = 0x83 → arg v 0 = 0)
       ∧ (a.toNat = 0x84 → arg v 0 = BitVec.ofNat 32 l)
       ∧ (a.toNat = 0x85 → arg v 0 = BitVec.ofNat 32 x.w.homeSlot)
       ∧ (∀ k < 8, a.toNat = 0x88 + k → arg v 0 = ((boxOf s x).queues.getD k .fresh).entries.getD 0 0
           ∧ arg (operands s x [srcI a, srcI a] l) 1 = ((boxOf s x).queues.getD k .fresh).entries.getD 1 0)
       ∧ (∀ k < 16, a.toNat = 0x90 + k → arg v 0 = ((boxOf s x).mailboxes.getD k .fresh).value
           ∧ arg (operands s x [srcI a, srcI a] l) 1 = ((boxOf s x).mailboxes.getD k .fresh).value)
       ∧ (0xC0 ≤ a.toNat → arg v 0 = BitVec.ofInt 32 ((a.toNat : Int) - 0xC0 - (if 0xE0 ≤ a.toNat then 64 else 0))))
  ∧ (∀ (s : State) (x : Ex) (n : BitVec 1) (d a b : BitVec 8), s.ex? = some x → a.toNat < 0x80 → b.toNat < 0x80 → d.toNat < 0x80 →
       (∀ r ∈ [a.toNat, b.toNat], x.w.spilled.contains r = false) →
       ((x.w.pendingIn x.g.lanes a.toNat = true ∨ x.w.pendingIn x.g.lanes b.toNat = true) → Held s x .register (exec (.iadd n d a b) s))
       ∧ (x.w.pendingIn x.g.lanes a.toNat = false → x.w.pendingIn x.g.lanes b.toNat = false →
           (Plain x → x.w.leasedIn x.g.lanes d.toNat = true → n = 0 →
             ∃ t, exec (.iadd n d a b) s = .next t ∧ AllParked s x t (fun _ => { cause := .leaseWrite, detail := 0, addr := 0 }) x.pc (boxOf s x))
           ∧ (x.w.leasedIn x.g.lanes d.toNat = false → x.w.pendingIn x.g.lanes d.toNat = true → n = 0 → Held s x .register (exec (.iadd n d a b) s))
           ∧ (n = 1 → ∃ t y, exec (.iadd n d a b) s = .next t ∧ RegsKept x y
               ∧ WordDone s x t y (.same s x) ∧ y.r.latches = latched x (fun l => x.w.regLane a.toNat l + x.w.regLane b.toNat l))))

/-! Control. -/

/-- R336, R327: `NOP` has no effect and the run goes on; a group that reaches `CONV` waits, and when its wait is over it goes on with every latch empty.
R328, R329: a `SYNC` whose mask names only lanes of its own group and exited positions passes at once; two lanes that name each other under different masks both raise
`SYNC_MASK`; a group whose warp has a store to be performed still waits, and one whose lanes have all been passed goes on. -/
def Obligations.NopConvSync : Prop :=
  (∀ (s : State) (x : Ex), s.ex? = some x →
       (∃ t y, exec .nop s = .next t ∧ WordDone s x t y (.same s x) ∧ FlowKept x y ∧ RegsKept x y ∧ y.r.latches = x.r.latches)
       ∧ (x.g.passed = true →
           ∃ t y, exec .conv s = .next t ∧ WordDone s x t y (.same s x) ∧ RegsKept x y ∧ y.r.latches = [] ∧ y.g.passed = false
             ∧ y.g.depth = x.g.depth ∧ y.r.nextPc = x.r.nextPc)
       ∧ (x.g.passed = false → exec .conv s = .next (s.withM (s.m.put { x with g := { x.g with conv := some 0 } }))))
  ∧ (∀ (s : State) (x : Ex) (a : BitVec 8), s.ex? = some x →
       let mask := fun (l : Nat) => arg (operands s x [srcI a] l) 0
       let alone := ∀ g ∈ x.w.groups ++ x.w.hgroups, ∀ r, g.run = some r → ∀ ms p f, r.wait ≠ .sync ms p f
       let met := fun (m : Word) => ∀ k < 32, inMask m k = true → inMask x.g.lanes k = true ∨ x.w.exited k = true
       (srcReady s.m x false [srcI a] = .go → drained s.m x.w.uid = true → alone →
         (∀ m, x.g.lanes ≠ 0 → (∀ l ∈ x.lanes, mask l = m) → x.g.lanes &&& ~~~m = 0 → met m →
           ∃ t y, exec (.sync a) s = .next t ∧ WordDone s x t y { Rest.same s x with box := takeSources (boxOf s x) x [srcI a] } ∧ FlowKept x y ∧ RegsKept x y
             ∧ y.r.latches = x.r.latches)
         ∧ (∀ i j, i < j → j < 32 → x.g.lanes = laneBit i ||| laneBit j → Plain x → mask i ≠ mask j → met (mask i) → met (mask j) →
             (∀ k ∈ [i, j], inMask (mask k) i = true ∧ inMask (mask k) j = true) →
             ∃ t, exec (.sync a) s = .next t
               ∧ AllParked s x t (fun l => { cause := .syncMask, detail := 0, addr := (mask l).setWidth 48 }) x.pc (boxOf s x)))
       ∧ (srcReady s.m x false [srcI a] = .go → drained s.m x.w.uid = false → alone → Held s x .blocking (exec (.sync a) s))
       ∧ (∀ ms p f, x.r.wait = .sync ms p f → x.w.syncWaiting = [] → x.g.lanes &&& ~~~p = 0 → f &&& x.g.lanes = 0 →
         ∃ t y, exec (.sync a) s = .next t ∧ WordDone s x t y { Rest.same s x with box := takeSources (boxOf s x) x [srcI a] } ∧ FlowKept x y ∧ RegsKept x y
           ∧ y.r.latches = x.r.latches))

/-- R331: branches are decided lane by lane, or once; `CALL` links and enters one level deeper. -/
def Obligations.BranchesAndCall : Prop :=
  ∀ (s : State) (x : Ex) (c : BitVec 2) (a : BitVec 8) (o : BitVec 15), s.ex? = some x → c.toNat < 3 →
    let there := x.pc + BitVec.ofInt 48 (4 * o.toInt)
    let take := fun (v : Word) => c = 0 ∨ (c = 1 ∧ v ≠ 0) ∨ (c = 2 ∧ v = 0)
    (srcReady s.m x false [srcI a] = .go →
      ∃ t y, exec (.bra c a o) s = .next t
        ∧ Transferred s x t y [srcI a] none x.g.depth (fun l => if take (arg (operands s x [srcI a] l) 0) then there else x.pc + 8))
    ∧ (srcReady s.m x true [srcI a] = .go →
      ∃ t y, exec (.ubra c a o) s = .next t
        ∧ Transferred s x t y [srcI a] none x.g.depth (fun _ => if take (arg (operands s x [srcI a] x.low) 0) then there else x.pc + 8))
    ∧ (∀ m, isV a = true → x.g.depth ≠ 65535 → regsReady s.m x a.toNat 2 = .go m →
      ∃ t y, exec (.call a o) s = .next t ∧ Transferred s x t y [] (some a) (x.g.depth + 1) (fun _ => there))
    ∧ (isV a = true → Plain x → x.g.depth = 65535 → (∃ m, regsReady s.m x a.toNat 2 = .go m) →
      ∃ t, exec (.call a o) s = .next t ∧ AllParked s x t (fun _ => { cause := .illegalOp, detail := 0, addr := 0 }) x.pc (boxOf s x))

/-- R332: the indirect transfers go to a word-aligned address of the 48-bit space; `CALLR` links and reads A first; `RET` leaves the depth one lower.
R332, R41: of each of them, a lane whose target lies outside the address space parks with `ADDR`, detail 0x6, one whose target is not word-aligned with `ALIGN`; `RET` at
depth 0, and `CALLR` at depth 65,535, park with `ILLEGAL_OP`; the PC stays at the transferring word. -/
def Obligations.IndirectTransfers : Prop :=
  (∀ (s : State) (x : Ex) (d a : BitVec 8), s.ex? = some x →
       let at_ := fun (l : Nat) => argPair (operands s x [srcW a] l) 0
       let good := ∀ l ∈ x.lanes, (at_ l).toNat < 2 ^ 48 ∧ (at_ l).toNat % 4 = 0
       (srcReady s.m x false [srcW a] = .go → good →
         (∃ t y, exec (.jmp a) s = .next t ∧ Transferred s x t y [srcW a] none x.g.depth (fun l => (at_ l).setWidth 48))
         ∧ (0 < x.g.depth → ∃ t y, exec (.ret a) s = .next t ∧ Transferred s x t y [srcW a] none (x.g.depth - 1) (fun l => (at_ l).setWidth 48))
         ∧ (∀ m, isV d = true → x.g.depth ≠ 65535 → regsReady s.m x d.toNat 2 = .go m →
             ∃ t y, exec (.callr d a) s = .next t ∧ Transferred s x t y [srcW a] (some d) (x.g.depth + 1) (fun l => (at_ l).setWidth 48)))
       ∧ (srcReady s.m x false [srcI a] = .go →
         let goal := fun (l : Nat) => (x.pc.toNat : Int) + (arg (operands s x [srcI a] l) 0).toInt
         (∀ l ∈ x.lanes, 0 ≤ goal l ∧ goal l < 2 ^ 48 ∧ goal l % 4 = 0) →
         ∃ t y, exec (.jmpr a) s = .next t ∧ Transferred s x t y [srcI a] none x.g.depth (fun l => BitVec.ofInt 48 (goal l))))
  ∧ (∀ (s : State) (x : Ex) (d a : BitVec 8), s.ex? = some x → Plain x →
       let at_ := fun (l : Nat) => argPair (operands s x [srcW a] l) 0
       let goal := fun (l : Nat) => (x.pc.toNat : Int) + (arg (operands s x [srcI a] l) 0).toInt
       let parks := fun (i : Instr) (c : Cause) (n : BitVec 8) (addr : Nat → BitVec 48) =>
         ∃ t, exec i s = .next t ∧ AllParked s x t (fun l => { cause := c, detail := n, addr := addr l }) x.pc (boxOf s x)
       let linked := isV d = true ∧ ∃ m, regsReady s.m x d.toNat 2 = .go m
       (srcReady s.m x false [srcW a] = .go →
         ((∀ l ∈ x.lanes, 2 ^ 48 ≤ (at_ l).toNat) →
           parks (.jmp a) .addr 6 (fun l => (at_ l).setWidth 48)
           ∧ (0 < x.g.depth → parks (.ret a) .addr 6 (fun l => (at_ l).setWidth 48))
           ∧ (linked → x.g.depth ≠ 65535 → parks (.callr d a) .addr 6 (fun l => (at_ l).setWidth 48)))
         ∧ ((∀ l ∈ x.lanes, (at_ l).toNat < 2 ^ 48 ∧ (at_ l).toNat % 4 ≠ 0) →
           parks (.jmp a) .align 0 (fun l => (at_ l).setWidth 48)
           ∧ (0 < x.g.depth → parks (.ret a) .align 0 (fun l => (at_ l).setWidth 48))
           ∧ (linked → x.g.depth ≠ 65535 → parks (.callr d a) .align 0 (fun l => (at_ l).setWidth 48)))
         ∧ (x.g.depth = 0 → parks (.ret a) .illegalOp 0 (fun _ => 0))
         ∧ (linked → x.g.depth = 65535 → parks (.callr d a) .illegalOp 0 (fun _ => 0)))
       ∧ (srcReady s.m x false [srcI a] = .go →
         ((∀ l ∈ x.lanes, goal l < 0 ∨ 2 ^ 48 ≤ goal l) → parks (.jmpr a) .addr 6 (fun l => BitVec.ofInt 48 (goal l)))
         ∧ ((∀ l ∈ x.lanes, 0 ≤ goal l ∧ goal l < 2 ^ 48 ∧ goal l % 4 ≠ 0) → parks (.jmpr a) .align 0 (fun l => BitVec.ofInt 48 (goal l)))))

/-- R371, R372, R379: `TRAP` and `BKPT` park each active lane with the trap's record and the next word as its resume point; under the debugger `BKPT` halts the warp, in handler mode too, and reports it,
and `DEBUGGER_RESUME` lets the halted group go on at the next word.
R379: the debugger's resumption: every group halted at a breakpoint stands at a run start after its word, and no group is halted any more. -/
def Obligations.TrapsAndBreakpoints : Prop :=
  (∀ (s : State) (x : Ex) (a : BitVec 8), s.ex? = some x →
       (x.hand = false → x.g.lanes ≠ 0 →
         (srcReady s.m x false [srcI a] = .go →
           ∃ t, exec (.trap a) s = .next t
             ∧ AllParked s x t (fun l => { cause := .trap, detail := 0, addr := (arg (operands s x [srcI a] l) 0).setWidth 48 }) (x.pc + 4) (takeSources (boxOf s x) x [srcI a]))
         ∧ ((s.ctx x.w.ctx).debug = false →
           ∃ t, exec .bkpt s = .next t ∧ AllParked s x t (fun _ => { cause := .bkpt, detail := 0, addr := 0 }) (x.pc + 4) (boxOf s x)))
       ∧ ((s.ctx x.w.ctx).debug = true → dieOf x.core < s.m.arbiters.length →
         ∃ t y e, exec .bkpt s = .next t ∧ t.ex? = some y ∧ y.r = { x.r with wait := .halted } ∧ RegsKept x y ∧ t.m.mem = s.m.mem
           ∧ (t.m.arbiters.getD (dieOf x.core) .fresh).held = mset (s.m.arbiters.getD (dieOf x.core) .fresh).held s.m.nextId e ∧ e.type = 7 ∧ e.ctx = x.w.ctx))
  ∧ (∀ (s : State) (core pos : Nat) (w : Warp), s.m.warp? core pos = some w →
       ∃ t v, exec (.debuggerResume core pos) s = .next t ∧ t.m.warp? core pos = some v
         ∧ { v with groups := [], hgroups := [] } = { w with groups := [], hgroups := [] }
         ∧ (∀ g ∈ v.groups ++ v.hgroups, ∀ r, g.run = some r → r.wait ≠ .halted)
         ∧ (∀ hand : Bool, ∀ g ∈ if hand then w.hgroups else w.groups, ∀ r l, g.run = some r → r.wait = .halted → inMask g.lanes l = true →
             ∃ h ∈ if hand then v.hgroups else v.groups, inMask h.lanes l = true ∧ h.run = none ∧ h.pc = r.start + BitVec.ofNat 48 (4 * r.pos) + 4 ∧ h.depth = g.depth)
         ∧ (∀ p, p ≠ pos → t.m.warp? core p = s.m.warp? core p) ∧ machRest t.m = machRest s.m)

/-- R334, R134: `EXIT` ends the active threads; the slot keeps its other threads, or is free when none is left. The run that it ends ends once the warp's combined stores are
performed. -/
def Obligations.ExitEndsThreads : Prop :=
  ∀ (s : State) (x : Ex), s.ex? = some x → x.hand = false →
    let gone := fun (l : Nat) => inMask x.g.lanes l = true ∨ x.w.exited l = true
    (joinedOut s x = true → Held s x .register (exec .exit s))
    ∧ (joinedOut s x = false → (∃ l < 32, ¬gone l) →
      ∃ t w, exec .exit s = .next t ∧ t.m.warp? x.core x.pos = some w ∧ w.regs = x.w.regs
        ∧ (∀ l < 32, inMask x.g.lanes l = true → (w.thread l).status = .exited ∧ (w.thread l).record = none)
        ∧ (∀ l < 32, inMask x.g.lanes l = false → w.thread l = x.w.thread l)
        ∧ (∀ p, p ≠ x.pos → t.m.warp? x.core p = s.m.warp? x.core p) ∧ machRest t.m = machRest s.m ∧ t.m.ctxCores = s.m.ctxCores)
    ∧ (joinedOut s x = false → (∀ l < 32, gone l) →
      ∃ t, exec .exit s = .next t ∧ t.m.warp? x.core x.pos = none ∧ (∀ p, p ≠ x.pos → t.m.warp? x.core p = s.m.warp? x.core p)
        ∧ (∀ c, c ≠ x.core → { t.m.core c with leaving := (s.m.core c).leaving } = s.m.core c) ∧ t.m.mem = s.m.mem ∧ t.m.grids = s.m.grids)

/-- R335, R164: `SLEEPU` holds its group until the counter reads the greatest wake time of its lanes; once it has been reached, a warp none of whose watched copies has missed its promise
goes on, and one that has such a copy takes `PROMISE_MISS`.
R335: a sleeping group wakes once the counter reads its time, and goes on at the next word when no promise is missed. -/
def Obligations.SleepUntil : Prop :=
  (∀ (s : State) (x : Ex) (a : BitVec 8), s.ex? = some x → srcReady s.m x false [srcW a] = .go → (∀ t, x.r.wait ≠ .sleeping t) →
       let t := x.lanes.foldl (fun t l => max t (argPair (operands s x [srcW a] l) 0).toNat) 0
       let late := (mvals s.m.copies).filter (fun c => c.warp == x.w.uid && c.watched && c.promise.toNat ≤ t)
       (t ≤ s.counter.toNat → late = [] →
         ∃ u y, exec (.sleepu a) s = .next u ∧ WordDone s x u y (.same s x) ∧ FlowKept x y ∧ RegsKept x y ∧ y.r.latches = x.r.latches)
       ∧ (t ≤ s.counter.toNat → Plain x → ∀ c, late.head? = some c →
         ∃ u, exec (.sleepu a) s = .next u ∧ AllParked s x u (fun _ => { cause := .promiseMiss, detail := 0, addr := c.descAddr.setWidth 48 }) x.pc (boxOf s x))
       ∧ (s.counter.toNat < t → Held s x (.sleeping (BitVec.ofNat 64 t)) (exec (.sleepu a) s)))
  ∧ (∀ (s : State) (x : Ex) (l : Nat) (t : DWord), s.ex? = some x → x.r.wait = .sleeping t → groupOfLane x.w l = some (x.hand, x.grp, x.g) → t.toNat ≤ s.counter.toNat →
       (∀ c ∈ mvals s.m.copies, c.warp = x.w.uid → c.watched = true → t.toNat < c.promise.toNat) →
       ∃ u y, exec (.sleepuWake x.core x.pos l) s = .next u ∧ WordDone s x u y (.same s x) ∧ FlowKept x y ∧ RegsKept x y ∧ y.r.latches = x.r.latches)

/-- R65, R322: at its trailer a run ends: every lane of the group stands at a run start, at the target of its transfer or at the word after the `TRAIL`, at the group's depth; no register
and no memory changes. It ends only once the stores of its warp that are combined with an earlier one are performed (R134). -/
def Obligations.TrailerEndsTheRun : Prop :=
  ∀ (s : State) (x : Ex) (v : BitVec 1) (c : BitVec 3) (e f g h : BitVec 6), s.ex? = some x →
    (joinedOut s x = true → Held s x .register (exec (.trail v c e f g h) s))
    ∧ (joinedOut s x = false → x.hand = false → x.w.displace = false → x.g.lanes ≠ 0 →
    (s.m.ctxCore x.w.ctx x.core).sfq.all (fun q => q.warp ≠ x.w.uid || q.reported) = true →
      ∃ t w, exec (.trail v c e f g h) s = .next t ∧ t.m.warp? x.core x.pos = some w ∧ w.regs = x.w.regs ∧ w.threads = x.w.threads ∧ w.levels = x.w.levels
        ∧ (∀ l < 32, inMask x.g.lanes l = true →
            ∃ k ∈ w.groups, inMask k.lanes l = true ∧ k.run = none ∧ k.depth = x.g.depth ∧ k.pc = (mget x.r.nextPc l).getD (x.pc + 4))
        ∧ w.ranges = ([h, g, f, e].take c.toNat).flatMap (fun q => (List.range (if q.toNat % 2 = 1 then 16 else 4)).map (· + 4 * (q.toNat / 2)) |>.filter (· < 128))
        ∧ (∀ p, p ≠ x.pos → t.m.warp? x.core p = s.m.warp? x.core p) ∧ (∀ k, k ≠ x.core → t.m.core k = s.m.core k) ∧ machRest t.m = machRest s.m
        ∧ t.m.ctxCore x.w.ctx x.core = boxOf s x)

/-! The steps of a warp slot. -/

/-- R326 (c), R325: a group that has waited 256 runs at a convergence point goes on; in serial mode the turn passes on after 256 runs, or when the running thread waits.
R354, R350: a pending warp ready for 2,048 cy displaces the oldest of a full active set, at once when that warp stands at run boundaries; a slice whose budget counter has reached 0
marks every thread of its warps for `BUDGET`, once. -/
def Obligations.ReleaseSerialModeDisplacementBudget : Prop :=
  (∀ (s : State) (core pos : Nat) (w : Warp), s.m.warp? core pos = some w →
       (∀ hand : Bool, ∀ g ∈ if hand then w.hgroups else w.groups, ∀ n l, g.conv = some n → 256 ≤ n → inMask g.lanes l = true →
         ∃ t v, exec (.convergenceRelease core pos) s = .next t ∧ t.m.warp? core pos = some v ∧ v.regs = w.regs ∧ v.threads = w.threads
           ∧ (∃ k ∈ if hand then v.hgroups else v.groups, inMask k.lanes l = true ∧ k.conv = none ∧ k.passed = true ∧ k.depth = g.depth) ∧ machRest t.m = machRest s.m)
       ∧ (∀ l n k, w.serial = some (l, n) →
           let waits := fun (g : Group) => g.resolving = false ∧ ∃ r, g.run = some r ∧ r.wait ≠ .none
           (256 ≤ n ∨ ∀ g ∈ w.groups, inMask g.lanes l = true → g.atConv = true ∨ waits g) →
           (∀ g ∈ w.groups, inMask g.lanes l = true → g.run = none ∨ waits g) →
           ((List.range 32).map (fun i => (l + 1 + i) % 32)).find? (fun k => w.groups.any (fun g => inMask g.lanes k && !g.atConv)) = some k →
           exec (.serialModeSwitch core pos) s = .next (s.withM (s.m.setWarp core pos { w with serial := some (k, 0) }))))
  ∧ (∀ (s : State),
       (∀ core pos p oldest rest w, (s.m.core core).pending.find? (fun q => q.pos == pos) = some p → (s.m.core core).active = oldest :: rest → 2048 ≤ p.ready →
         8 ≤ (s.m.core core).active.length → s.m.warp? core oldest = some w → (∀ g ∈ w.groups ++ w.hgroups, g.run = none) →
         ∃ t, exec (.warpDisplacement core pos) s = .next t ∧ (t.m.core core).active = rest.filter (· ≠ oldest)
           ∧ (t.m.core core).pending = (s.m.core core).pending ++ [{ pos := oldest, ready := 0 }] ∧ (t.m.core core).warps = (s.m.core core).warps
           ∧ machRest t.m = machRest s.m ∧ t.m.ctxCores = s.m.ctxCores)
       ∧ (∀ slice sl, mget s.m.slices slice = some sl → sl.budcnt = 0 → sl.expired = false → sl.budget ≠ 0xFFFFFFFF →
         let marked := fun (w : Warp) => { w with budgetDue := maskOf ((List.range 32).filter (fun l => !w.exited l)) }
         ∃ t, exec (.budgetExpiry slice) s = .next t
           ∧ (∃ q, mget t.m.slices slice = some q ∧ { q with saved := [] } = { sl with expired := true, saved := [] }
               ∧ q.saved = sl.saved.map (fun w => if w.slice = slice then marked w else w))
           ∧ (∀ core pos, t.m.warp? core pos = (s.m.warp? core pos).map (fun w => if w.slice = slice then marked w else w))
           ∧ (∀ core, coreRest (t.m.core core) = coreRest (s.m.core core)) ∧ t.m.ctxCores = s.m.ctxCores
           ∧ machRest { t.m with slices := s.m.slices, saved := s.m.saved } = machRest s.m))

/-- R374: when every other group of the slot waits, or 256 runs have gone by, the parked lanes join one handler group at HVEC with call depth 0, each lane keeping its own depth and
record; a record's presence, the registers and memory are untouched. -/
def Obligations.HandlerEntry : Prop :=
  ∀ (s : State) (core pos : Nat) (w : Warp), s.m.warp? core pos = some w → w.handler = false → (s.ctx w.ctx).hvec ≠ 0 →
    (∃ l < 32, (w.thread l).status = .parked ∧ (w.thread l).entered = false) →
    ((∀ g ∈ w.groups, g.atConv = true ∨ g.blocked = true) ∨ ∃ n, w.parkRuns = some n ∧ 256 ≤ n) →
    ∃ t v g, exec (.handlerEntry core pos) s = .next t ∧ t.m.warp? core pos = some v ∧ v.handler = true ∧ v.hgroups = [g]
      ∧ g.pc = ((s.ctx w.ctx).hvec).setWidth 48 ∧ g.depth = 0 ∧ g.run = none
      ∧ (∀ l < 32, inMask g.lanes l = ((w.thread l).status == .parked && !(w.thread l).entered))
      ∧ (∀ l < 32, v.thread l = { w.thread l with entered := (w.thread l).entered || (w.thread l).status == .parked })
      ∧ { v with handler := w.handler, hgroups := w.hgroups, threads := w.threads, parkRuns := w.parkRuns } = w
      ∧ (∀ p, p ≠ pos → t.m.warp? core p = s.m.warp? core p) ∧ machRest t.m = machRest s.m

/-! Global memory. -/

/-- R144, R145, R134, R142: a load of translated, aligned addresses by a warp without open levels or earlier stores in flight leaves its destination pending with what its die reads there, or,
through L1 and not as an acquire wider than `.core`, with what the core's L1 copy holds; `ULD` loads once for every active lane. Nothing is written. An acquire that crosses the bridge is held
while the core has 8 sync-class requests in flight. That the pending result holds what memory holds when the load issues, which `readAgain` may replace before it returns, is the model's choice
(log entry 18), and so is it that the warp's earlier loads of the same bytes are read no later (`fixOver`).
R54, R144, R146: a loaded value is sign-extended or zero-extended to its registers, and a store takes the low bytes of its registers, of a small immediate, or zeros. -/
def Obligations.GlobalLoads : Prop :=
  (∀ (s : State) (x : Ex) (d : BitVec 8) (p : BitVec 6) (o : BitVec 2) (k t : BitVec 3) (m : Mach) (at_ : Nat → Xlat), s.ex? = some x → t.toNat ≤ 6 → x.g.lanes ≠ 0 →
       x.w.levels = [] → s.m.stores.all (fun st => st.warp ≠ x.w.uid) = true → (∀ op, x.r.wait ≠ .remote op) → loadDst s.m x d (tyRegs t.toNat) = .go m →
       let wide := o = 1 ∧ 3 ≤ k.toNat
       let full := o = 1 ∧ 8 ≤ syncOut s s.m x.core
       let ready := fun (l : Nat) => (pairAt x p l).toNat % tyBytes t.toNat = 0 ∧ Hit s x.w.ctx x.core (pairAt x p l) .read (at_ l)
         ∧ (∃ die, paClass s (at_ l).pa = .hbm die) ∧ poisonedRange s.m (at_ l).pa (tyBytes t.toNat) = false
       let loaded := fun (l : Nat) (v : List Word) =>
         v = loadWords t.toNat (viewBytes s.m (dieOf x.core) (at_ l).pa (tyBytes t.toNat))
         ∨ ((at_ l).mt = 0 ∧ ¬wide ∧ ∃ sec, mget (s.m.core x.core).l1 ((at_ l).pa / 32) = some sec
             ∧ v = loadWords t.toNat ((sec.bytes.drop ((at_ l).pa % 32)).take (tyBytes t.toNat)))
       (srcReady s.m x false [] [2 * p.toNat, 2 * p.toNat + 1] = .go → (∀ l ∈ x.lanes, ready l) →
         ((∀ l ∈ x.lanes, full → crosses x.core (at_ l).pa = false) →
           ∃ u y l1 m' res, exec (.ld d p o k t) s = .next u ∧ (∀ l ∈ x.lanes, loaded l (res l)) ∧ (wide → l1 = []) ∧ ReadOnly s.m m'
             ∧ Issued s x u y { Rest.same s x with m := m', c := { s.m.core x.core with l1 := l1 }, w := x.lanes.foldl (fun w l => w.fixOver (pairAt x p l) (tyBytes t.toNat)) x.w }
                 [] d (tyRegs t.toNat) res)
         ∧ (full → (∃ l ∈ x.lanes, crosses x.core (at_ l).pa = true) →
           ∃ u y, exec (.ld d p o k t) s = .next u ∧ u.ex? = some y ∧ y.r = { x.r with wait := .register } ∧ RegsKept x y ∧ y.w.pends = x.w.pends))
       ∧ (srcReady s.m x true [] [2 * p.toNat, 2 * p.toNat + 1] = .go → ready x.low → (full → crosses x.core (at_ x.low).pa = false) →
         ∃ u y l1 m' v, exec (.uld d p o k t) s = .next u ∧ loaded x.low v ∧ (wide → l1 = []) ∧ ReadOnly s.m m'
           ∧ Issued s x u y { Rest.same s x with m := m', c := { s.m.core x.core with l1 := l1 }, w := x.w.fixOver (pairAt x p x.low) (tyBytes t.toNat) } [] d (tyRegs t.toNat)
               (fun _ => v)))
  ∧ ((∀ b0 b1 b2 b3 b4 b5 b6 b7 : Byte,
       loadWords 0 [b0] = [b0.signExtend 32] ∧ loadWords 1 [b0] = [b0.setWidth 32]
       ∧ loadWords 2 [b0, b1] = [(b1 ++ b0).signExtend 32] ∧ loadWords 3 [b0, b1] = [(b1 ++ b0).setWidth 32]
       ∧ loadWords 4 [b0, b1, b2, b3] = [b3 ++ b2 ++ b1 ++ b0]
       ∧ loadWords 5 [b0, b1, b2, b3, b4, b5, b6, b7] = [b3 ++ b2 ++ b1 ++ b0, b7 ++ b6 ++ b5 ++ b4])
     ∧ (∀ a b c d : Word, loadWords 6 (natToBytes 4 a.toNat ++ natToBytes 4 b.toNat ++ natToBytes 4 c.toNat ++ natToBytes 4 d.toNat) = [a, b, c, d])
     ∧ (∀ (w : Warp) (d : BitVec 8) (l t : Nat), isV d = true →
         let byte := fun (r i : Nat) => ((w.regLane (d.toNat + r) l) >>> (8 * i)).setWidth 8
         (t < 2 → storeData w t d l = [byte 0 0]) ∧ (t = 2 ∨ t = 3 → storeData w t d l = [byte 0 0, byte 0 1])
         ∧ (t = 4 → storeData w t d l = [byte 0 0, byte 0 1, byte 0 2, byte 0 3])
         ∧ (t = 5 → storeData w t d l = [byte 0 0, byte 0 1, byte 0 2, byte 0 3, byte 1 0, byte 1 1, byte 1 2, byte 1 3]))
     ∧ (∀ (w : Warp) (d : BitVec 8) (l : Nat), (d = 0x83 → storeData w 4 d l = [0, 0, 0, 0])
         ∧ (isImm d = true → storeData w 4 d l = natToBytes 4 (BitVec.ofInt 32 ((d.toNat : Int) - 0xC0 - (if 0xE0 ≤ d.toNat then 64 else 0))).toNat)))

/-- R146 to R149, R134, R288: `ST` and `STM` issue one store for each lane, in ascending order, behind the warp's earlier stores; a plain store in the sector of the one before it is combined
with it; in an open level with room the stores are held, and without room the level is closed first; a misaligned `ST`
parks its lane with `ALIGN`; an `STM` lane whose mask is 0 stores nothing. Memory changes only when the stores are performed.
R146, R130, R134, R148, R150, R380: the oldest issued store of a warp is performed where its address translates to, changing only the bytes it names, with the stores combined with it;
the bytes of an `STM` in two words, where it is not combined with others, are two accesses, both translated before the first; an atomic's location receives its combination; a store whose address does not translate is recorded, for its lowest lane, in the queue of
the core where its warp is, and memory is unchanged. -/
def Obligations.StoresIssueAndPerform : Prop :=
  (∀ (s : State) (x : Ex) (d : BitVec 8) (p : BitVec 6) (o : BitVec 2) (k t : BitVec 3) (b : BitVec 8), s.ex? = some x → t.toNat ≤ 6 →
       let regs := fun (n : Nat) => [2 * p.toNat, 2 * p.toNat + 1] ++ (if isV d then (List.range n).map (· + d.toNat) else [])
       let sts := storesOf s x x.lanes t.toNat (pairAt x p) (fun l => (storeData x.w t.toNat d l).map some) (if 2 ≤ o.toNat then some k.toNat else none)
       let mask := fun (l : Nat) => (arg (operands s x [srcI b] l) 0).toNat % 16
       let msts := storesOf s x (x.lanes.filter (fun l => mask l ≠ 0)) 7 (pairAt x p)
         (fun l => (List.range 4).map (fun i => if (mask l).testBit i then some ((storeData x.w 4 d l).getD i 0) else none)) none
       let issued := fun (sts : List Store) => ({ s.m with
         nextId := s.m.nextId + sts.length
         stores := s.m.stores ++ joinStores (s.m.stores.reverse.find? (fun st => st.warp == x.w.uid)) sts } : Mach)
       let fixed := fun (sts : List Store) => sts.foldl (fun w st => w.fixOver st.addr st.span) x.w   -- loads of those bytes are read no later (R304)
       let inLevel := fun (lv : Level) (rest : List Level) (sts : List Store) => ({ fixed sts with levels :=
         { lv with held := lv.held ++ (joinStores (heldStores x.w).getLast? sts).map Held.store, shadow := lv.shadow ++ newSectors x.w sts } :: rest } : Warp)
       let room := fun (sts : List Store) => shadowUsed s.m x.core + 32 * (newSectors x.w sts).length ≤ 65536
       (srcReady s.m x false [] (regs (tyRegs t.toNat)) = .go →
         ((∀ l ∈ x.lanes, (pairAt x p l).toNat % tyBytes t.toNat = 0) →
           (x.w.levels = [] → Done s x { Rest.same s x with m := issued sts, w := fixed sts } (exec (.st d p o k t) s))
           ∧ (∀ lv rest, x.w.levels = lv :: rest → room sts →
             Done s x { Rest.same s x with m := { s.m with nextId := s.m.nextId + sts.length }, w := inLevel lv rest sts } (exec (.st d p o k t) s))
           ∧ (∀ lv rest, x.w.levels = lv :: rest → ¬room sts → lv.verdict = none →
             ∃ u y, exec (.st d p o k t) s = .next u ∧ u.ex? = some y ∧ y.r = { x.r with wait := .verdict } ∧ RegsKept x y ∧ y.w.levels = x.w.levels
               ∧ u.m.stores = s.m.stores))
         ∧ (Plain x → (∀ l ∈ x.lanes, (pairAt x p l).toNat % tyBytes t.toNat ≠ 0) →
           ∃ u, exec (.st d p o k t) s = .next u ∧ AllParked s x u (fun l => { cause := .align, detail := 0, addr := (pairAt x p l).setWidth 48 }) x.pc (boxOf s x)))
       ∧ (srcReady s.m x false [srcI b] (regs 1) = .go →
           (x.w.levels = [] → Done s x { Rest.same s x with m := issued msts, w := fixed msts, box := takeSources (boxOf s x) x [srcI b] } (exec (.stm d p b) s))
           ∧ (∀ lv rest, x.w.levels = lv :: rest → room msts →
             Done s x { Rest.same s x with m := { s.m with nextId := s.m.nextId + msts.length }, w := inLevel lv rest msts, box := takeSources (boxOf s x) x [srcI b] }
               (exec (.stm d p b) s))))
  ∧ (∀ (s : State) (warp : Nat) (st : Store), nextStore s.m warp = some st → st.entry = none →
       let without := fun (gone : List Store) => ({ s.m with stores := s.m.stores.filter (fun o => gone.all (fun g => o.seq ≠ g.seq)) } : Mach)
       let inPlace := fun (bs : List (Option Byte)) => (∃ b, bs.head? = some (some b)) ∧ st.addr.toNat % 4096 + bs.length ≤ 4096
       let quiet := fun (u : State) => (∀ c, c ≠ st.core → u.m.core c = s.m.core c) ∧ { u.m.core st.core with l1 := [] } = { s.m.core st.core with l1 := [] } ∧ u = s.withM u.m
       (∀ bs at_ die, st.failed = none → st.place = none → st.op = .bytes bs → inPlace bs → Hit s st.ctx st.core st.addr .write at_ → paClass s at_.pa = .hbm die →
         (joinedStores s.m st = [] → ¬(st.kind = 7 ∧ 1 < st.words.length) →
           ∃ u, exec (.storePerformed warp) s = .next u ∧ WroteAt (without [st]) u.m st.core at_.pa bs ∧ quiet u)
         ∧ (∀ more, joinedStores s.m st = more → more ≠ [] → at_.mt ≠ 2 →
           ∃ u, exec (.storePerformed warp) s = .next u ∧ WroteAt (without (st :: more)) u.m st.core (at_.pa / 32 * 32) (sectorBytes (st :: more)) ∧ quiet u)
         ∧ (joinedStores s.m st = [] → st.kind = 7 → 1 < st.words.length →
           (∀ i < bs.length, Hit s st.ctx st.core (st.addr + BitVec.ofNat 64 i) .write { at_ with pa := at_.pa + i, left := at_.left - i }) →
           ∃ u, ∃ word ∈ st.words, exec (.storePerformed warp) s = .next u
             ∧ (let rest := at_.pa + ((List.range bs.length).takeWhile (fun i => (st.addr.toNat + i) / 4 = word || (bs.getD i none).isNone)).length
               WroteAt { s.m with stores := s.m.stores.map (fun o => if o.seq = st.seq then { o.only word false with place := some (rest, at_.mt) } else o) } u.m st.core at_.pa
                 ((List.range bs.length).map (fun i => if (st.addr.toNat + i) / 4 = word then bs.getD i none else none)))
             ∧ quiet u))
       ∧ (∀ code y at_ die, st.failed = none → st.op = .atomic code y → Hit s st.ctx st.core st.addr .atomic at_ → paClass s at_.pa = .hbm die →
         poisonedRange s.m at_.pa (atomSize code) = false →
         let new := natToBytes (atomSize code) (atomComb code (bytesToNat (viewBytes s.m 2 at_.pa (atomSize code))) y)
         ∃ u, exec (.storePerformed warp) s = .next u ∧ WroteAt (without [st]) { u.m with saved := s.m.saved } st.core at_.pa (new.map some) ∧ u = s.withM u.m)
       ∧ (∀ l f core pos w, (st.failed = some f ∨ (st.failed = none ∧ st.place = none ∧ ∃ bs, st.op = .bytes bs ∧ inPlace bs ∧ translate s s.m st.ctx st.core st.addr .write = .fault f s.m)) →
         st.lanes = laneBit l → l < 32 → s.m.findWarp st.warp = some (core, pos, w) → (s.m.ctxCore st.ctx core).sfq.length < 16 →
         ∃ u, exec (.storeFaultRecord warp) s = .next u ∧ u.m.mem = s.m.mem ∧ u.m.stores = s.m.stores.filter (fun o => o.seq ≠ st.seq)
           ∧ (u.m.ctxCore st.ctx core).sfq = (s.m.ctxCore st.ctx core).sfq ++
               [{ warp := st.warp, lane := l, reported := false
                  entry := { pc := st.pc, run := l, imp := false, slot := st.slot, kind := st.kind, cause := f.cause, detail := f.detail, addr := f.addr } }]))

/-- R150, R151, R142: an atomic that returns values is performed at once; with one active lane the location receives comb(old, operand) and the lane is owed the old value; lanes at one location
are merged into one atomic, and each is owed what it would have found after the lanes before it. `fadd2.b2` performs its halves one after the other, in two turns, either first. With NR = 1 an
atomic takes its place among the warp's stores and writes no register. One that crosses the bridge is held while the core has 8 sync-class requests in flight. -/
def Obligations.GlobalAtomics : Prop :=
  ∀ (s : State) (x : Ex) (d : BitVec 8) (p : BitVec 6) (o : BitVec 2) (k : BitVec 3) (f : BitVec 4), s.ex? = some x → x.core < 288 → f.toNat ≤ 14 → x.g.lanes ≠ 0 →
    let code := f.toNat
    let n := atomSize code
    let operand := fun l => atomOperand code x.w d.toNat l
    let words := fun (v : Nat) => (List.range (atomWrites code)).map (fun i => BitVec.ofNat 32 (v / 2 ^ (32 * i)))
    let half := fun (high : Bool) (v : Nat) => if high then v / 65536 else v % 65536
    let halfAt := fun (high : Bool) (pa : Nat) => if high then pa + 2 else pa
    let number := fun (pa k : Nat) => bytesToNat (viewBytes s.m 2 pa k)
    let issued := fun (u : State) (y : Ex) (pa k v : Nat) (res : Nat → List Word) => ∃ m' l1, WroteAt s.m m' x.core pa ((natToBytes k v).map some)
      ∧ Issued s x u y { Rest.same s x with m := m', c := { s.m.core x.core with l1 := l1 } } [] d (atomWrites code) res
    (srcReady s.m x false [] ([2 * p.toNat, 2 * p.toNat + 1] ++ (List.range (atomReads code)).map (· + d.toNat)) = .go → x.w.levels = [] →
      (∀ m at_ die, regsReady s.m x d.toNat (atomWrites code) = .go m → isV d = true → s.m.stores.all (fun st => st.warp ≠ x.w.uid) = true →
        (∀ op, x.r.wait ≠ .remote op) → (∀ a k ps os, x.r.wait ≠ .halves a k ps os) → (crosses x.core at_.pa = true → syncOut s s.m x.core < 8) →
        (pairAt x p x.low).toNat % n = 0 → Hit s x.w.ctx x.core (pairAt x p x.low) .atomic at_ → paClass s at_.pa = .hbm die → poisonedRange s.m at_.pa n = false →
        let old := number at_.pa n
        (∀ l, x.lanes = [l] → code ≠ 14 → ∃ u y, exec (.atom 0 d p o k f) s = .next u ∧ issued u y at_.pa n (atomComb code old (operand l)) (fun _ => words old))
        ∧ (∀ l ls, x.lanes = l :: ls → (∀ j ∈ ls, pairAt x p j = pairAt x p l) → ¬(9 ≤ code ∧ code ≤ 12) → code ≠ 14 →
          let before := fun (j : Nat) => (ls.takeWhile (· ≠ j)).foldl (fun v i => atomComb code v (operand i)) (operand l)
          ∃ u y, exec (.atom 0 d p o k f) s = .next u
            ∧ issued u y at_.pa n (atomComb code old (ls.foldl (fun v i => atomComb code v (operand i)) (operand l)))
                (fun j => words (if j = l then old else atomComb code old (before j))))
        ∧ (∀ l, x.lanes = [l] → code = 14 → ∃ u y m' access pick, let high := firstHalf pick 0
          exec (.atom 0 d p o k f) s = .next u ∧ u.ex? = some y ∧ RegsKept x y
          ∧ y.r = { x.r with wait := .halves access pick [(l, at_.pa)] [(l, if high then old / 65536 * 65536 else old % 65536)] }
          ∧ WroteAt s.m m' x.core (halfAt high at_.pa) ((natToBytes 2 (bf16.add (half high old) (half high (operand l)))).map some)
          ∧ machRest u.m = machRest m' ∧ u.m.ctxCores = s.m.ctxCores))
      ∧ (let sync := ∃ l ∈ x.lanes, ∃ pa, peekPa s s.m x.w.ctx x.core (pairAt x p l) .atomic = some pa ∧ crosses x.core pa = true
        (sync → 8 ≤ syncOut s s.m x.core → Held s x .register (exec (.atom 1 d p o k f) s))
        ∧ ((sync → syncOut s s.m x.core < 8) → (∀ l ∈ x.lanes, (pairAt x p l).toNat % n = 0) →
        ∃ sts : List Store, (∀ l ∈ x.lanes, ∃ st ∈ sts, inMask st.lanes l = true ∧ st.addr = pairAt x p l)
          ∧ (∀ st ∈ sts, st.warp = x.w.uid ∧ st.kind = 8 ∧ st.pc = x.pc ∧ st.rel = (if 2 ≤ o.toNat then some k.toNat else none)
              ∧ st.acq = (if o.toNat % 2 = 1 then some k.toNat else none))
          ∧ Done s x { Rest.same s x with
              m := { s.m with nextId := s.m.nextId + sts.length, stores := s.m.stores ++ sts, free := s.m.free + (if code = 14 then 32 else 0) }
              w := sts.foldl (fun w st => w.fixOver st.addr st.span) x.w } (exec (.atom 1 d p o k f) s))))
    ∧ (∀ access pick l pa v die, code = 14 → isV d = true → x.lanes = [l] → x.r.wait = .halves access pick [(l, pa)] [(l, v)] → paClass s pa = .hbm die →
      paClass s (pa + 2) = .hbm die →
      let high := firstHalf pick 0
      let other := half (!high) (number pa 4)
      ∃ u y, exec (.atom 0 d p o k f) s = .next u
        ∧ issued u y (halfAt (!high) pa) 2 (bf16.add other (half (!high) (operand l))) (fun _ => words (v + if high then other else 65536 * other)))

/-! Scratchpad, weight store, launch record. -/

/-- R173, R171, R256, R304: `LDS` leaves its destination pending with what the selected scratchpads hold; `STS`, once its warp's earlier stores are performed, writes the low bytes of its
registers, lane by lane in ascending order, and changes no other byte of any scratchpad; an address outside the space parks its lane with `SPAD_RANGE`.
R173, R150, R151: `ATOMS` combines as `ATOM` does, at the scratchpad that the address selects: one lane, and several lanes that name one location; `fadd2.b2` performs its halves one
after the other, in two turns, either first. -/
def Obligations.ScratchpadAccess : Prop :=
  (∀ (s : State) (x : Ex) (d a : BitVec 8) (t : BitVec 3) (c off : Nat → Nat), s.ex? = some x → t.toNat ≤ 6 →
       let n := tyBytes t.toNat
       let good := ∀ l ∈ x.lanes, SpadAt s x (addressOf s x a l) n (c l) (off l)
       (∀ m, srcReady s.m x false [srcI a] = .go → loadDst s.m x d (tyRegs t.toNat) = .go m → good →
         ∃ u y, exec (.lds d a t) s = .next u
           ∧ Issued s x u y (.same s x) [srcI a] d (tyRegs t.toNat) (fun l => loadWords t.toNat (readBytes (s.m.ctxCore x.w.ctx (c l)).spad (off l) n)))
       ∧ (srcReady s.m x false [srcI a] (if isV d then (List.range (tyRegs t.toNat)).map (· + d.toNat) else []) = .go →
         (drained s.m x.w.uid = false → Held s x .register (exec (.sts d a t) s))
         ∧ (drained s.m x.w.uid = true → good → (∀ l ∈ x.lanes, tileHeld s.m x (c l) (off l) n = false) →
           ∃ u y, exec (.sts d a t) s = .next u ∧ WordRuns s x u y (.same s x) ∧ FlowKept x y ∧ RegsKept x y ∧ y.r.latches = x.r.latches
             ∧ SpadsWritten s x u [srcI a] x.lanes c off (storeData x.w t.toNat d))
         ∧ (drained s.m x.w.uid = true → Plain x → (∀ l ∈ x.lanes, addressOf s x a l % n = 0 ∧ (2 ^ 24 ≤ addressOf s x a l
               ∨ (s.m.ctxCluster x.w.ctx x.core).pages * 4096 < addressOf s x a l % 2 ^ 21 + n)) →
             ∃ u, exec (.sts d a t) s = .next u
               ∧ AllParked s x u (fun l => { cause := .spadRange, detail := 0, addr := (arg (operands s x [srcI a] l) 0).setWidth 48 }) x.pc (boxOf s x))))
  ∧ (∀ (s : State) (x : Ex) (d a : BitVec 8) (f : BitVec 4) (c off : Nat), s.ex? = some x → f.toNat ≤ 14 →
       let code := f.toNat
       let n := atomSize code
       let operand := fun l => atomOperand code x.w d.toNat l
       let words := fun (v : Nat) => (List.range (atomWrites code)).map (fun i => BitVec.ofNat 32 (v / 2 ^ (32 * i)))
       let half := fun (high : Bool) (v : Nat) => if high then v / 65536 else v % 65536
       let old := bytesToNat (readBytes (s.m.ctxCore x.w.ctx c).spad off n)
       let owed := fun (y : Ex) (u : State) (vals : SMap (List Word)) => FlowKept x y ∧ RegsKept x y ∧ y.r.latches = x.r.latches
         ∧ WordRuns s x u y { Rest.same s x with
             m := { s.m with nextId := s.m.nextId + 1 }
             w := { x.w with pends := x.w.pends ++ [pendingLoad s.m.nextId x d (atomWrites code) vals [] false] } }
       (∀ m, srcReady s.m x false [srcI a] ((List.range (atomReads code)).map (· + d.toNat)) = .go → regsReady s.m x d.toNat (atomWrites code) = .go m →
         drained s.m x.w.uid = true → (∀ a k ps os, x.r.wait ≠ .halves a k ps os) →
         (∀ l ∈ x.lanes, SpadAt s x (addressOf s x a l) n c off) → tileHeld s.m x c off n = false →
           (∀ l ls, x.lanes = l :: ls → (ls = [] ∨ ¬(9 ≤ code ∧ code ≤ 12)) → code ≠ 14 →
             let before := fun (j : Nat) => (ls.takeWhile (· ≠ j)).foldl (fun v i => atomComb code v (operand i)) (operand l)
             ∃ u y vals, exec (.atoms d a f) s = .next u ∧ owed y u vals
               ∧ (∀ j ∈ x.lanes, mget vals j = some (words (if j = l then old else atomComb code old (before j))))
               ∧ SpadsWritten s x u [srcI a] [l] (fun _ => c) (fun _ => off)
                   (fun _ => natToBytes n (atomComb code old (ls.foldl (fun v i => atomComb code v (operand i)) (operand l)))))
           ∧ (∀ l, x.lanes = [l] → code = 14 → ∃ u y, let high := firstHalf s.m.free 0
               exec (.atoms d a f) s = .next u ∧ u.ex? = some y ∧ RegsKept x y
               ∧ y.r = { x.r with wait := .halves 0 s.m.free [(l, spadPlace c off)] [(l, if high then old / 65536 * 65536 else old % 65536)] }
               ∧ SpadsWritten s x u [srcI a] [l] (fun _ => c) (fun _ => if high then off + 2 else off)
                   (fun _ => natToBytes 2 (bf16.add (half high old) (half high (operand l))))
               ∧ machRest u.m = machRest { s.m with free := s.m.free + 1 }))
       ∧ (∀ access pick l v, code = 14 → x.lanes = [l] → x.r.wait = .halves access pick [(l, spadPlace c off)] [(l, v)] → off % 4 = 0 → off < 2 ^ 21 →
           (s.m.ctxCore x.w.ctx c).rounds.contains (off / 4096) = false →
           let high := firstHalf pick 0
           let other := half (!high) old
           ∃ u y vals, exec (.atoms d a f) s = .next u ∧ owed y u vals ∧ mget vals l = some (words (v + if high then other else 65536 * other))
             ∧ SpadsWritten s x u [] [l] (fun _ => c) (fun _ => if high then off else off + 2) (fun _ => natToBytes 2 (bf16.add other (half (!high) (operand l))))))

/-- R178, R231, R175: `LDW` leaves its destination pending with what the die's weight store holds in the partition's window, once no bank it reads is being refreshed; `ULDC` with what the
grid's launch-record copy holds; a misaligned offset parks with `ALIGN` and one past the window or the record with `ADDR`, detail 0x7.
R176, R177: each bank's windows begin where the counter leaves its phase modulo 102,400 and last 3,200 counts; `WSWIN` gives the start of the earliest window that has not ended, and the
refresh step opens or closes a bank's window as the counter has it. -/
def Obligations.WeightStoreAndLaunchRecord : Prop :=
  (∀ (s : State) (x : Ex) (d a : BitVec 8) (t : BitVec 3) (w : BitVec 1) (m : Mach), s.ex? = some x → t.toNat ≤ 6 →
       let n := tyBytes t.toNat
       let store := s.m.wstore.getD (x.core / 144) []
       let base := (s.partitionOf x.w.ctx).wsBase
       let limit := min (s.partitionOf x.w.ctx).wsLimit (192 * 2 ^ 20)
       (srcReady s.m x false [srcI a] = .go → loadDst s.m x d (tyRegs t.toNat) = .go m →
         ((∀ l ∈ x.lanes, addressOf s x a l % n = 0 ∧ base + addressOf s x a l + n ≤ limit
             ∧ (∀ i < n, mget s.m.windows (x.core / 144 * 16 + (base + addressOf s x a l + i) / 256 % 16) = none)) →
           ∃ u y, exec (.ldw d a t) s = .next u
             ∧ Issued s x u y (.same s x) [srcI a] d (tyRegs t.toNat) (fun l => loadWords t.toNat (readBytes store (base + addressOf s x a l) n)))
         ∧ (Plain x → (∀ l ∈ x.lanes, addressOf s x a l % n ≠ 0) →
           ∃ u, exec (.ldw d a t) s = .next u
             ∧ AllParked s x u (fun l => { cause := .align, detail := 0, addr := (arg (operands s x [srcI a] l) 0).setWidth 48 }) x.pc (boxOf s x))
         ∧ (Plain x → (∀ l ∈ x.lanes, addressOf s x a l % n = 0 ∧ limit < base + addressOf s x a l + n) →
           ∃ u, exec (.ldw d a t) s = .next u
             ∧ AllParked s x u (fun l => { cause := .addr, detail := 7, addr := (arg (operands s x [srcI a] l) 0).setWidth 48 }) x.pc (boxOf s x)))
       ∧ (let k := if w = 1 then 2 else 1
         let o := addressOf s x a x.low
         let record := (mget s.m.grids x.w.grid).elim (List.replicate 384 0) (·.record)
         srcReady s.m x true [srcI a] = .go → isV d = true → regsReady s.m x d.toNat k = .go m →
           (o % (4 * k) = 0 → o + 4 * k ≤ 384 → record.length = 384 →
             ∃ u y, exec (.uldc d a w) s = .next u ∧ Issued s x u y (.same s x) [srcI a] d k (fun _ => loadWords (3 + k) ((record.drop o).take (4 * k))))
           ∧ (Plain x → o % (4 * k) ≠ 0 →
             ∃ u, exec (.uldc d a w) s = .next u ∧ AllParked s x u (fun _ => { cause := .align, detail := 0, addr := BitVec.ofNat 48 o }) x.pc (boxOf s x))
           ∧ (Plain x → o % (4 * k) = 0 → 384 < o + 4 * k →
             ∃ u, exec (.uldc d a w) s = .next u ∧ AllParked s x u (fun _ => { cause := .addr, detail := 7, addr := BitVec.ofNat 48 o }) x.pc (boxOf s x))))
  ∧ (∀ (s : State),
       let phase := fun (b : Nat) => if s.mode = .steady then 6400 * b else 12800 * (b / 2)
       (∀ (x : Ex) (d a : BitVec 8) (m : Mach), s.ex? = some x → WordReady s x true [srcI a] false d 2 m →
         ∃ t : Nat, t % 102400 = phase (addressOf s x a x.low % 16) ∧ s.counter.toNat < t + 3200 ∧ (102400 ≤ t → t - 102400 + 3200 ≤ s.counter.toNat)
           ∧ UniformWords s x (.same s x) [srcI a] d 2 [BitVec.ofNat 32 t, BitVec.ofNat 32 (t / 2 ^ 32)] (exec (.wswin d a) s))
       ∧ (∀ die bank, die < 2 → bank < 16 →
         let begun := phase bank ≤ s.counter.toNat ∧ (s.counter.toNat - phase bank) % 102400 < 3200
         ∃ u, exec (.wsRefreshWindow die bank) s = .next u ∧ u = s.withM { s.m with windows := u.m.windows }
           ∧ mget u.m.windows (die * 16 + bank) = (if begun then some (s.counter.toNat - (s.counter.toNat - phase bank) % 102400) else none)
           ∧ ∀ k, k ≠ die * 16 + bank → mget u.m.windows k = mget s.m.windows k))

/-- R172, R167, R169: pins, at most 48 pages of the issuing core over all contexts; `BINIT` writes its object whole; `BWAIT` returns STAT once as many bytes have arrived as were expected or STAT
is set, and waits until then, its source, where that is a mailbox or a queue, kept for it; when one of the arrivals was a release wider than `.core` it empties the core's L1. -/
def Obligations.PinsAndBarrierObjects : Prop :=
  ∀ (s : State) (x : Ex) (d a : BitVec 8) (m : Mach), s.ex? = some x →
    let addr := addressOf s x a x.low
    let off := addr % 2 ^ 21
    let own := fun (align n : Nat) => addr % align = 0 ∧ addr < 2 ^ 24 ∧ addr / 2 ^ 21 = x.core % 8 ∧ off + n ≤ (s.m.ctxCluster x.w.ctx x.core).pages * 4096
    let box := boxOf s x
    (own 4096 4096 → WordReady s x true [srcI a] false d 1 m →
      (off / 4096 ∈ box.pins → UniformWords s x (.same s x) [srcI a] d 1 [1] (exec (.pgpin d a) s))
      ∧ (off / 4096 ∉ box.pins → 48 ≤ corePins s.m x.core → UniformWords s x (.same s x) [srcI a] d 1 [0] (exec (.pgpin d a) s))
      ∧ (off / 4096 ∉ box.pins → corePins s.m x.core < 48 →
          UniformWords s x { Rest.same s x with box := { box with pins := box.pins ++ [off / 4096] } } [srcI a] d 1 [1] (exec (.pgpin d a) s)))
    ∧ (own 4096 4096 → srcReady s.m x true [srcI a] = .go →
        Done s x { Rest.same s x with box := takeSources { box with pins := box.pins.filter (· ≠ off / 4096) } x [srcI a] } (exec (.pgunpin a) s))
    ∧ (own 16 16 → srcReady s.m x true [srcI a, srcI d] = .go → drained s.m x.w.uid = true → tileHeld s.m x x.core off 16 = false → box.rounds.contains (off / 4096) = false →
        ∃ sp po, Done s x { Rest.same s x with box := takeSources { box with spad := sp, poisoned := po, signals := mdel box.signals off } x [srcI a, srcI d] } (exec (.binit d a) s)
          ∧ (∀ sec ∈ po, sec ∈ box.poisoned) ∧ ∀ i, readByte sp i = if off ≤ i ∧ i < off + 16 then (natToBytes 16 (arg (operands s x [srcI a, srcI d] x.low) 1).toNat).getD (i - off) 0 else readByte box.spad i)
    ∧ (own 16 16 →
        let word := fun (i : Nat) => bytesToNat (readBytes box.spad (off + 4 * i) 4)
        word 2 < 2 ^ 16 → word 3 = 0 → box.rounds.contains (off / 4096) = false →
          (word 1 = word 0 ∨ word 2 ≠ 0 → WordReady s x true [srcI a] false d 1 m →
            ∃ m' l1, ReadOnly s.m m' ∧ l1 = (if ∃ r ∈ mgetD box.signals off [], 3 ≤ r.scope then [] else (s.m.core x.core).l1)
              ∧ UniformWords s x { Rest.same s x with m := m', c := { s.m.core x.core with l1 := l1 } } [srcI a] d 1 [BitVec.ofNat 32 (word 2)] (exec (.bwait d a) s))
          ∧ (word 1 ≠ word 0 → word 2 = 0 → WordReady s x true [srcI a] false d 1 s.m → 
            exec (.bwait d a) s = .next (s.withM ((claimSources s.m x [srcI a]).put { x with r := { x.r with wait := .blocking } }))))

/-! Fences, drains, prefetches. -/

/-- R313, R154, R153: a `FENCE` goes on once what it waits for is done: a release once its warp's stores are performed at its scope, an acquire once its lanes' loads have returned; as an
acquire wider than `.core` it empties the core's L1, and as a release it makes the warp's later writes releases at its scope. One at `.dev` or `.sys` is a request of the sync class, held while the core has 8 of them in flight. `DRAINST` goes on once every store of its warp is performed or recorded. A
prefetch always goes on and changes no register; where the translations of its lines are held it changes no byte of memory. -/
def Obligations.FencesAndPrefetches : Prop :=
  ∀ (s : State) (x : Ex) (o : BitVec 2) (k : BitVec 3) (p : BitVec 6), s.ex? = some x →
    let stores := s.m.stores.any (fun st => st.warp == x.w.uid)
    let late := s.m.late.any (fun w => w.thread == x.w.uid)
    let loads := x.w.pends.any (fun q => (q.kind == .load || q.kind == .remote) && q.lanes &&& x.g.lanes != 0)
    let waits := (5 ≤ k.toNat ∧ 8 ≤ syncOut s s.m x.core) ∨ (2 ≤ o.toNat ∧ (stores = true ∨ (5 ≤ k.toNat ∧ late = true))) ∨ (o.toNat % 2 = 1 ∧ loads = true)
    (¬waits → ∃ m' l1 fr, ReadOnly s.m m' ∧ l1 = (if o.toNat % 2 = 1 ∧ 3 ≤ k.toNat then [] else (s.m.core x.core).l1)
      ∧ fr = (if 2 ≤ o.toNat then (x.w.fenceRel ++ [k.toNat]).eraseDups else x.w.fenceRel)
      ∧ Done s x { Rest.same s x with m := m', c := { s.m.core x.core with l1 := l1 }, w := { x.w with fenceRel := fr } } (exec (.fence o k) s))
    ∧ (waits → Held s x .register (exec (.fence o k) s))
    ∧ (stores = false → Done s x (.same s x) (exec .drainst s))
    ∧ (stores = true → Held s x .register (exec .drainst s))
    ∧ (srcReady s.m x false [] [2 * p.toNat, 2 * p.toNat + 1] = .go →
        let held := ∀ l ∈ x.lanes, ∃ t, Hit s x.w.ctx x.core (BitVec.ofNat 64 ((pairAt x p l).toNat / 64 * 64)) .read t
        let touched := fun (m' : Mach) => ({ m' with mem := s.m.mem, tlb := s.m.tlb, walks := s.m.walks, l2 := s.m.l2, poison := s.m.poison } : Mach) = s.m ∧ (held → ReadOnly s.m m')
        (∃ m' lines, touched m' ∧ Done s x { Rest.same s x with m := m', c := { s.m.core x.core with l1 := lines } } (exec (.prefL1 p) s))
        ∧ (∃ m', touched m' ∧ Done s x { Rest.same s x with m := m' } (exec (.prefL2 p) s)))

/-! Results that come later. -/

/-- R144, R184, R186, R195, R396: a load's data is written into its registers in its lanes; the reply of a remote access lets its word go on; a refill makes its register resident without changing a value; a queue-fed load pops the oldest
entry into its register; each ends its pending result, and no other register changes. -/
def Obligations.ResultsReturn : Prop :=
  ∀ (s : State) (core pos op : Nat) (w : Warp) (p : Pend), s.m.warp? core pos = some w → w.pend? op = some p →
    (p.kind = .load → pos < 34 → (∀ l < 32, inMask p.lanes l = true → (mget p.vals l).isSome = true) →
      ∃ u v, exec (.loadReturn core pos op) s = .next u ∧ u.m.warp? core pos = some v ∧ v.pends = w.pends.filter (fun q => q.id ≠ op)
        ∧ (∀ r l, l < 32 → v.regLane r l = if p.reg ≤ r ∧ r < p.reg + p.count ∧ inMask p.lanes l then (mgetD p.vals l []).getD (r - p.reg) 0 else w.regLane r l)
        ∧ v.threads = w.threads ∧ v.groups = w.groups ∧ (∀ q, q ≠ pos → u.m.warp? core q = s.m.warp? core q) ∧ machRest u.m = machRest s.m ∧ u.m.ctxCores = s.m.ctxCores)
    ∧ (p.kind = .remote → pos < 34 →
      ∃ u v, exec (.loadReturn core pos op) s = .next u ∧ u.m.warp? core pos = some v ∧ v.pends = w.pends.filter (fun q => q.id ≠ op) ∧ v.regs = w.regs
        ∧ (∀ (i : Nat) g r, w.groups[i]? = some g → g.run = some r → r.wait = .remote op → ∃ h q, v.groups[i]? = some h ∧ h.run = some q ∧ q = { r with wait := .released })
        ∧ (∀ q, q ≠ pos → u.m.warp? core q = s.m.warp? core q) ∧ machRest u.m = machRest s.m ∧ u.m.ctxCores = s.m.ctxCores)
    ∧ (∀ m, p.kind = .fill → makeRoom 40 s.m core pos 1 = .ok m →
      ∃ u v, exec (.satchelFill core pos op) s = .next u ∧ u.m.warp? core pos = some v ∧ v.regs = w.regs ∧ v.spilled = w.spilled.filter (· ≠ p.reg)
        ∧ v.pends = w.pends.filter (fun q => q.id ≠ op) ∧ v.groups = w.groups ∧ machRest u.m = machRest s.m ∧ u.m.ctxCores = s.m.ctxCores)
    ∧ (∀ k e rest, p.kind = .queueFed k → ((s.m.ctxCore w.ctx core).queues.getD k .fresh).entries = e :: rest → k < (s.m.ctxCore w.ctx core).queues.length →
        ((s.m.ctxCore w.ctx core).queues.getD k .fresh).readers = [] →
        w.pends.find? (fun q => q.kind == .queueFed k) = some p → p.count = 1 →
      ∃ u v, exec (.queueFedLoadWrite core pos op) s = .next u ∧ u.m.warp? core pos = some v ∧ v.pends = w.pends.filter (fun q => q.id ≠ op)
        ∧ (∀ r l, l < 32 → v.regLane r l = if r = p.reg ∧ inMask p.lanes l then e else w.regLane r l)
        ∧ ((u.m.ctxCore w.ctx core).queues.getD k .fresh).entries = rest ∧ machRest u.m = machRest s.m)

/-! Translation and errors. -/

/-- R113, R114, R115, R118: a walk for an access that its leaf permits sets the leaf's A, and for a write its D, and one that ends at an absent or malformed entry faults with that entry's
level; the manager maps a first-touch entry to a frame with A and D clear and the entry's own attributes; a shootdown drops every translation of the address, and every pointer entry above it,
once the context's issued stores are performed and none of its atomics is half performed, and its loads are read no later.
R108, R131, R396, R400: an uncorrectable error poisons the sector it was found in, unless L2 holds every word of it newly written, and changes no byte; a link error answers a remote access
with `ADDR`, detail code 0xA with the level of its leaf, in its lanes, ends its pending result and is raised as an event of type 8; a remote store is recorded in the same way. -/
def Obligations.TranslationAndErrors : Prop :=
  (∀ (s : State),
       let inMemory := fun (a : Nat) => (∀ q off, paClass s a ≠ .queuePage q off) ∧ paClass s a ≠ .registers ∧ paClass s a ≠ .reserved
       (∀ ctx core va acc, va.toNat < 2 ^ 48 → tlbHit s.m ctx core va.toNat = none →
         let start := walkStart s.m (dieOf core) ctx va.toNat (s.ctx ctx).ptbase
         let found := walkFrom s s.m va.toNat none start.1 start.2
         (∀ l, found = .leaf l → inMemory l.at_ → leafCheck s ctx acc l.level l.pte (pteFrame l.pte + va.toNat % leafSize l.level l.pte) va.toNat = none →
           ∃ t m, translate s s.m ctx core va acc = .ok t m ∧ t.pa = pteFrame l.pte + va.toNat % leafSize l.level l.pte
             ∧ (readPte s m l.at_).getLsbD 6 = true ∧ (acc.writes = true → (readPte s m l.at_).getLsbD 7 = true)
             ∧ (∀ a, (a < memKey s l.at_ ∨ memKey s l.at_ + 8 ≤ a) → readByte m.mem a = readByte s.m.mem a))
         ∧ (∀ level d, found = .bad level d →
             ∃ m, ReadOnly s.m m ∧ translate s s.m ctx core va acc = .fault { cause := acc.missing, detail := BitVec.ofNat 8 (16 * level + d), addr := va.setWidth 48 } m))
       ∧ (∀ request frame t, mget s.m.touches request = some t → readPte s s.m t.leafAt = t.pte → t.pte.getLsbD 0 = false → t.pte.getLsbD 2 = true → t.pte.getLsbD 9 = false →
         t.level = 0 → inMemory t.leafAt → frame < 2 ^ 40 →
         let made : DWord := (BitVec.ofNat 64 frame <<< 12) ||| (t.pte &&& 0xE3E) ||| 1
         pteMalformed 0 (made &&& 0xFFF) = false → (∃ r ∈ (s.partitionOf t.ctx).frames, r.1 ≤ frame ∧ frame < r.1 + r.2) → homeDie (frame * 4096) < 2 →
         (t.die < 2 → homeDie (frame * 4096) = t.die) →
         ∃ u, exec (.firstTouchMap request frame) s = .next u ∧ readPte s u.m t.leafAt = made ∧ u.m.touches = mdel s.m.touches request
           ∧ (∀ a, (a < memKey s t.leafAt ∨ memKey s t.leafAt + 8 ≤ a) → readByte u.m.mem a = readByte s.m.mem a))
       ∧ (∀ ctx va, s.m.stores.all (fun st => st.ctx ≠ ctx) = true →
         (∀ e ∈ s.m.allWarps, e.2.2.ctx = ctx → ∀ g ∈ e.2.2.groups ++ e.2.2.hgroups, ∀ r, g.run = some r → ∀ a k ps os, r.wait ≠ .halves a k ps os) →
         ∃ u, exec (.shootdown ctx va) s = .next u ∧ u = s.withM { s.m with tlb := u.m.tlb, walks := u.m.walks, cores := u.m.cores }
           ∧ (∀ core pos, u.m.warp? core pos = (s.m.warp? core pos).map (fun w => if w.ctx = ctx then w.fixLoads else w))
           ∧ (∀ core, coreRest (u.m.core core) = coreRest (s.m.core core))
           ∧ (∀ e, e ∈ u.m.tlb ↔ e ∈ s.m.tlb ∧ ¬(e.ctx = ctx ∧ e.base ≤ va.toNat ∧ va.toNat < e.base + e.size))
           ∧ (∀ e, e ∈ u.m.walks ↔ e ∈ s.m.walks ∧ ¬(e.ctx = ctx ∧ e.index = va.toNat / 2 ^ (12 + 9 * e.level)))))
  ∧ (∀ (s : State),
       (∀ addr, addr < 0x6000000000 → (s.m.l2At (addr / 32)).wmask ≠ 0xFF →
         ∃ u, exec (.eccError addr true) s = .next u ∧ poisonedRange u.m addr 1 = true ∧ u = s.withM { s.m with poison := u.m.poison }
           ∧ (∀ k, k ≠ addr / 32 → mget u.m.poison k = mget s.m.poison k))
       ∧ (∀ addr, addr < 0x6000000000 → (s.m.l2At (addr / 32)).wmask = 0xFF → exec (.eccError addr true) s = .next s)
       ∧ (∀ addr, s.m.errors + 1 ≠ Config.errorThreshold → exec (.eccError addr false) s = .next (s.withM { s.m with errors := s.m.errors + 1 }))
       ∧ (∀ warp op core pos w p, warp ≠ 0 → nextStore s.m warp = none → mget s.m.copies op = none → mget s.m.gathers op = none →
           s.m.findWarp warp = some (core, pos, w) → s.m.warp? core pos = some w → w.pend? op = some p → p.kind = .remote → w.uid = warp → s.m.arbiters.length = 3 →
         ∃ u v e, exec (.linkError warp op) s = .next u ∧ u.m.warp? core pos = some v ∧ v.pends = w.pends.filter (fun q => q.id ≠ op) ∧ v.regs = w.regs
           ∧ (∀ (i : Nat) g r, w.groups[i]? = some g → g.run = some r → r.wait = .remote op →
               ∃ h q, v.groups[i]? = some h ∧ h.run = some q
                 ∧ q.wait = .faulted (p.addrs.map (fun z => (z.1, { cause := .addr, detail := BitVec.ofNat 8 (16 * z.2.2 + 0xA), addr := z.2.1.setWidth 48 }))))
           ∧ (u.m.arbiters.getD 2 .fresh).held = mset (s.m.arbiters.getD 2 .fresh).held s.m.nextId e ∧ e.type = 8 ∧ e.ctx = w.ctx ∧ u.m.mem = s.m.mem)
       ∧ (∀ warp st bs at_ l core pos w, warp ≠ 0 → nextStore s.m warp = some st → st.failed = none → st.entry = none → st.op = .bytes bs →
           Hit s st.ctx st.core st.addr .write at_ → paClass s at_.pa = .pod → st.lanes = laneBit l → l < 32 → s.m.findWarp st.warp = some (core, pos, w) →
           (s.m.ctxCore st.ctx core).sfq.length < 16 → s.m.arbiters.length = 3 →
         ∃ u e, exec (.linkError warp st.seq) s = .next u ∧ u.m.mem = s.m.mem ∧ u.m.stores = s.m.stores.filter (fun o => o.seq ≠ st.seq)
           ∧ (u.m.ctxCore st.ctx core).sfq = (s.m.ctxCore st.ctx core).sfq ++
               [{ warp := st.warp, lane := l, reported := false
                  entry := { pc := st.pc, run := l, imp := false, slot := st.slot, kind := st.kind, cause := .addr, detail := BitVec.ofNat 8 (16 * at_.level + 0xA)
                             addr := st.addr.setWidth 48 } }]
           ∧ (u.m.arbiters.getD 2 .fresh).held = mset (s.m.arbiters.getD 2 .fresh).held s.m.nextId e ∧ e.type = 8 ∧ e.ctx = st.ctx))

/-! The term engine. -/

/-- R243, R257: `TCFG` writes the warp's group size and run-ahead depth; `TBND` gives 16 × T_max + 6 of its slot; `TBND.t` leaves its destination pending with 6 more than the sum of the
tile's 16 row maxima as their headers give them.
R241, R242: `GANG` with mask 0 leaves the warp's gang and answers 0; with its own slot alone it forms a gang of one on a free array; a warp whose gang has come to hold an array is
answered 2^31 + 256 × array + its place; a mask that leaves out its own slot parks with `SELF_MASK`; one that meets a waiting warp's different mask refuses both with `SYNC_MASK`; and a
free array goes to the gang that has waited longest. That it is the lowest-numbered free array is the model's choice (log entry 129). -/
def Obligations.TermConfigurationBoundsGangs : Prop :=
  (∀ (s : State) (x : Ex) (d a : BitVec 8) (k : BitVec 3) (r g : BitVec 2) (m : Mach), s.ex? = some x →
       Done s x { Rest.same s x with w := { x.w with termG := 4 * 2 ^ g.toNat, termD := r.toNat + 1 } } (exec (.tcfg r g) s)
       ∧ (let inner := slotTle (formatSlot s.m x.w k.toNat)
         let most := if inner = 2 then 5 else 4
         slotElt (formatSlot s.m x.w k.toNat) = 0x22 →
           (WordReady s x true [] false d 1 m → UniformWords s x (.same s x) [] d 1 [BitVec.ofNat 32 (16 * most + 6)] (exec (.tbnd d k) s))
           ∧ (let addr := addressOf s x a x.low
             let c := x.core / 8 * 8 + addr / 2 ^ 21 % 8
             let off := addr % 2 ^ 21
             let box := s.m.ctxCore x.w.ctx c
             let rowMax := fun (i : Nat) => min ((readByte box.spad (off + 128 * i + 1)).toNat / 16 % 8) most
             srcReady s.m x true [srcI a] = .go → regsReady s.m x d.toNat 1 = .go m → isV d = true → addr % 128 = 0 → addr < 2 ^ 24 →
               off + 2048 ≤ (s.m.ctxCluster x.w.ctx x.core).pages * 4096 → spadPoisoned box off 2048 = false → box.rounds = [] →
               ∃ u y, exec (.tbndT d a k) s = .next u
                 ∧ Issued s x u y (.same s x) [srcI a] d 1 (fun _ => [BitVec.ofNat 32 (((List.range 16).map rowMax).foldl (· + ·) 6)]))))
  ∧ (∀ (s : State),
       (∀ (x : Ex) (d a : BitVec 8) (m : Mach), s.ex? = some x → x.pos < 32 → WordReady s x true [srcI a] false d 1 m →
         let mask := arg (operands s x [srcI a] x.low) 0
         let c := s.m.core x.core
         let answer := fun (array place : Nat) => BitVec.ofNat 32 (2 ^ 31 + 256 * array + place)
         let clash := fun (p : Nat) (w : Warp) => p ≠ x.pos ∧ w.ctx = x.w.ctx ∧ ∃ k ∈ gangWaits w, k ≠ mask ∧ (inMask k x.pos = true ∨ inMask mask p = true)
         (x.r.wait = .none → mask = 0 → (∀ e ∈ c.warps, ¬clash e.1 e.2) →
           ∃ gs, UniformWords s x { Rest.same s x with c := { c with gangs := gs }, w := { x.w with gang := none, arrived := 0 } } [srcI a] d 1 [0] (exec (.gang d a) s)
             ∧ (x.w.gang = none → gs = c.gangs)
             ∧ ∀ k g, x.w.gang = some k → (k, g) ∈ gs → msorted c.gangs = true → ∀ p ∈ g.members, p.1 ≠ x.w.uid)
         ∧ (x.r.wait = .none → x.w.gang = none → mask = laneBit x.pos →
           (∀ e ∈ c.warps, e.1 ≠ x.pos → gangWaits e.2 = [] ∧ e.2.uid ≠ x.w.uid) →
           s.stopped x.w.ctx x.core = false → waitingGangs (fun ctx => s.stopped ctx x.core) c = [] → c.gangs.all (fun e => e.1 < s.m.nextId) = true →
           ∀ array, array < 4 → (∀ e ∈ c.gangs, e.2.array ≠ some array) → (∀ b < array, ∃ e ∈ c.gangs, e.2.array = some b) →
             ∃ gs arrays, UniformWords s x { Rest.same s x with
                 m := { s.m with nextId := s.m.nextId + 1 }, c := { c with gangs := gs, arrays := arrays }, w := { x.w with gang := some s.m.nextId, arrived := 0 } }
                 [srcI a] d 1 [answer array 0] (exec (.gang d a) s)
               ∧ mget gs s.m.nextId = some { ctx := x.w.ctx, members := [(x.w.uid, x.pos)], array := some array, since := s.turn, nextStep := 0, steps := [] }
               ∧ ∀ k, k ≠ s.m.nextId → mget gs k = mget c.gangs k)
         ∧ (∀ held k g array, x.r.wait = .gang held → x.w.gang = some k → mget c.gangs k = some g → g.array = some array →
             UniformWords s x (.same s x) [srcI a] d 1 [answer array ((List.range x.pos).filter (fun p => inMask held p)).length] (exec (.gang d a) s))
         ∧ (x.r.wait = .none → x.w.gang = none → x.w.arrived = 0 → Plain x → m = s.m → mask ≠ 0 → inMask mask x.pos = false →
             ∃ u, exec (.gang d a) s = .next u
               ∧ AllParked s x u (fun _ => { cause := .selfMask, detail := 0, addr := BitVec.ofNat 48 mask.toNat }) x.pc (boxOf s x))
         ∧ (x.r.wait = .none → x.w.gang = none → Plain x → m = s.m → (mask ≠ 0 → inMask mask x.pos = true) → (maskLanes mask).length ≤ 6 →
             ∀ p w, s.m.warp? x.core p = some w → clash p w →
               ∃ u v, exec (.gang d a) s = .next u ∧ u.m.warp? x.core x.pos = some v
                 ∧ (∀ l, l < 32 → v.thread l = if inMask x.g.lanes l then parkedThread x l { cause := .syncMask, detail := 0, addr := BitVec.ofNat 48 mask.toNat } x.pc else x.w.thread l)
                 ∧ u.m.warp? x.core p = some (refuseGang w) ∧ coreRest (u.m.core x.core) = coreRest c ∧ machRest u.m = machRest s.m ∧ u.m.ctxCores = s.m.ctxCores))
       ∧ (∀ core k g array,
           let c := s.m.core core
           let waits := fun (e : Nat × Gang) => e ∈ c.gangs ∧ e.2.array = none ∧ e.2.present (fun ctx => s.stopped ctx core) c = true
           msorted c.gangs = true → waits (k, g) → (∀ e, waits e → e.1 ≠ k → g.since < e.2.since) →
           array < 4 → (∀ e ∈ c.gangs, e.2.array ≠ some array) → (∀ b < array, ∃ e ∈ c.gangs, e.2.array = some b) →
             ∃ u, exec (.gangArrayBind core) s = .next u ∧ machRest u.m = machRest s.m ∧ u.m.ctxCores = s.m.ctxCores
               ∧ (u.m.core core).warps = c.warps
               ∧ ∀ j, mget (u.m.core core).gangs j = if j = k then some { g with array := some array } else mget c.gangs j))

/-- R253, R255, R187: a `TMMA` whose checks pass arrives at its gang's next step and waits there; a gang of one issues at once, the 16 registers of the tile leased in the active lanes;
the rendezvous of several completes when all have arrived, the gang holds an array, the tiles that are read stand in registers and the core has registers for their leases, and every
member goes on with its tile leased. A warp of no gang parks with `ILLEGAL_OP`.
R247, R248, R259, R261, R187: the finish of a gang's oldest step adds to each member's tile, in the leased lanes and nowhere else, what the tiles make of each element, ends the lease,
sets the ACCSTAT bits met, and reports leader and cycle count in the `.cyc` queues that name a member. -/
def Obligations.TermSteps : Prop :=
  (∀ (s : State) (x : Ex) (d a : BitVec 8) (f g : BitVec 3) (z b : BitVec 1), s.ex? = some x →
       (x.w.gang = none → Plain x → ∃ u, exec (.tmma d a f g z b) s = .next u ∧ AllParked s x u (fun _ => { cause := .illegalOp, detail := 0, addr := 0 }) x.pc (boxOf s x))
       ∧ (∀ gid gang m, x.w.gang = some gid → mget (s.m.core x.core).gangs gid = some gang →
         let fa := formatSlot s.m x.w f.toNat
         let fb := formatSlot s.m x.w g.toNat
         let pair := srcValue (boxOf s x) x (srcW a) 0 x.low
         let n := x.w.arrived
         let me : StepMember := { warp := x.w.uid, pos := x.pos, lanes := x.g.lanes, reg := d.toNat, aAddr := pair.lo, bAddr := pair.hi, fa := fa, fb := fb
                                  z := z == 1, sp := b == 1, since := m.nextId }
         let lease : Pend := { id := m.nextId, kind := .term gid n, lanes := x.g.lanes, reg := d.toNat, count := 16, vals := [], pc := 0, run := 0, addrs := [], sync := false }
         x.r.wait = .none → isV d = true → x.pos < 34 → (z = 1 ∨ ∀ k < 16, x.w.spilled.contains (d.toNat + k) = false) → srcReady s.m x true [srcW a] = .go → tmmaCheck s s.m x fa fb (b == 1) pair.lo pair.hi = none → tileReady s.m x d.toNat = .go s.m →
         scaleXlats s x.w.ctx x.core fb (if b = 1 then pair.hi.toNat % 2 ^ 21 else pair.hi.toNat) s.m (List.range 16) = .ok () m → (∀ t ∈ gang.steps, t.number ≠ n) →
         (∀ q ∈ x.w.groups ++ x.w.hgroups, ∀ r, q.run = some r → r.wait ≠ .tmma gid n) →
           (gang.members = [(x.w.uid, x.pos)] → gang.array.isSome = true →
             ∃ u y gs, exec (.tmma d a f g z b) s = .next u ∧ FlowKept x y ∧ RegsKept x y ∧ y.r.latches = x.r.latches
               ∧ WordDone s x u y { m := { m with nextId := m.nextId + 1 }, c := { s.m.core x.core with gangs := gs }
                                    w := { x.w with arrived := n + 1, lastRun := s.turn, pends := x.w.pends ++ [lease] }, box := boxOf s x }
               ∧ mget gs gid = some { gang with
                   nextStep := max gang.nextStep (n + 1)
                   steps := gang.steps ++ [{ number := n, members := [me], issued := some s.m.cy, leader := x.pos, cfg := (x.w.termG, x.w.termD), loaded := none, first := 0, count := 0 }] })
           ∧ ((∃ p ∈ gang.members, p.1 ≠ x.w.uid) →
             ∃ u y, exec (.tmma d a f g z b) s = .next u ∧ u.ex? = some y ∧ y.r = { x.r with wait := .tmma gid n } ∧ y.w.arrived = n + 1 ∧ y.w.regs = x.w.regs ∧ y.w.pends = x.w.pends
               ∧ ∃ gang', mget (u.m.core x.core).gangs gid = some gang' ∧ gang'.members = gang.members
                 ∧ gang'.steps = gang.steps ++ [{ number := n, members := [me], issued := none, leader := 0, cfg := (32, 1), loaded := none, first := 0, count := 0 }]))
       ∧ (∀ gid gang n (step : TermStep), x.w.gang = some gid → mget (s.m.core x.core).gangs gid = some gang → x.r.wait = .tmma gid n → gang.array.isSome = true →
           gang.steps.find? (fun t => t.number == n && t.issued.isNone) = some step → (∀ p ∈ gang.members, ∃ q ∈ step.members, q.warp = p.1) →
           step.members.Pairwise (fun p q => p.pos ≠ q.pos) → 16 * step.members.length ≤ freeRegs s.m x.core →
           (z = 1 ∨ ∀ k < 16, x.w.spilled.contains (d.toNat + k) = false) → (∀ p ∈ step.members, tileSpilled s.m x.core p = false) →
           ∃ u, exec (.tmma d a f g z b) s = .next u
             ∧ (∃ gang', mget (u.m.core x.core).gangs gid = some gang' ∧ ∃ t ∈ gang'.steps, t.number = n ∧ t.members = step.members ∧ t.issued = some s.m.cy)
             ∧ ∀ p ∈ step.members, ∀ w, s.m.warp? x.core p.pos = some w → w.uid = p.warp →
                 ∃ v id, u.m.warp? x.core p.pos = some v ∧ v.regs = w.regs
                   ∧ v.pends = w.pends ++ [{ id := id, kind := .term gid n, lanes := p.lanes, reg := p.reg, count := 16, vals := [], pc := 0, run := 0, addrs := [], sync := false }]
                   ∧ ∀ (i : Nat) (h : Group) (r : Run), w.groups[i]? = some h → h.run = some r → r.wait = .tmma gid n →
                       v.groups[i]? = some { h with run := some { r with pos := r.pos + 1, wait := .none, desc := [] } }))
  ∧ (∀ (s : State) (core gid : Nat) (gang : Gang) (t : TermStep) (rest : List TermStep) (o : Operands) (lead : StepMember),
       mget (s.m.core core).gangs gid = some gang → gang.steps = t :: rest → t.loaded = some o → o.poisoned = false →
       t.members.find? (fun p => p.pos == t.leader) = some lead → t.first + t.count ≤ s.m.cy + 1 → t.members.Pairwise (fun p q => p.pos ≠ q.pos) →
       ∃ u, exec (.termStepFinish core gid) s = .next u ∧ u.m.mem = s.m.mem ∧ u.m.stores = s.m.stores ∧ u.m.wstore = s.m.wstore
         ∧ (∀ p ∈ t.members, ∀ w q, s.m.warp? core p.pos = some w → w.uid = p.warp → w.ctx = gang.ctx → w.pends.find? (fun e => e.kind == .term gid t.number) = some q →
             q.reg = p.reg → q.count = 16 →
             let rows := tileRows (slotTle lead.fa) o.blocks
             let part := ((o.members.find? (fun e => e.1 == p.warp)).map (·.2)).getD ([], [])
             let element := fun (l j : Nat) =>
               let n := 8 * (l % 2) + j
               let base : DWord := if p.z then 0 else w.regLane (p.reg + 2 * j + 1) l ++ w.regLane (p.reg + 2 * j) l
               add64 (slotOvm lead.fa) base (elementTotal lead.fa (rows.getD (l / 2) none) (part.1.getD n []) (part.2.getD n none)).1
             ∃ v, u.m.warp? core p.pos = some v ∧ v.pends = w.pends.filter (fun e => e.id ≠ q.id) ∧ v.groups = w.groups
               ∧ (∀ r l, l < 32 → v.regLane r l =
                   if p.reg ≤ r ∧ r < p.reg + 16 ∧ inMask q.lanes l then
                     (if (r - p.reg) % 2 = 0 then (element l ((r - p.reg) / 2)).1.setWidth 32 else ((element l ((r - p.reg) / 2)).1 >>> 32).setWidth 32)
                   else w.regLane r l)
               ∧ w.accstat &&& v.accstat = w.accstat
               ∧ (∀ l j, l < 32 → inMask q.lanes l = true → j < 8 → (element l j).2 &&& v.accstat = (element l j).2))
         ∧ (∀ (k : Nat) (q : Queue), (s.m.ctxCore gang.ctx core).queues[k]? = some q → q.kind = 3 → (q.arg.getLsbD 5 = true ∨ ∃ p ∈ t.members, p.pos = q.arg.toNat % 32) → q.entries.length < 32 →
               (u.m.ctxCore gang.ctx core).queues[k]? = some { q with entries := q.entries ++ [BitVec.ofNat 32 (t.leader * 2 ^ 27 + min t.count 0xFFFFFF)] }))

/-! The accumulate network. -/

/-- R266 to R269, R271, R276: `ACHAIN` and `ACLOSE` bring a request to the directory and wait until it is recorded or refused; the directory records a declaration that nothing forbids and
refuses one whose next hop is its own core; `ARSV` takes its reservation once the next hop's round is open, and waits until then; a grant opens a buffer at every receiving core at once.
R142: a request that would cross the bridge is held while the core has 8 sync-class requests in flight. R280: an arrival that the round has from a core is not one of a declaration that the core
makes later. -/
def Obligations.ChainsDeclareReserveClose : Prop :=
  ∀ (s : State),
    let heldAt := fun (x : Ex) (srcs : List Src) => (.next (s.withM ((claimSources s.m x srcs).put { x with r := { x.r with wait := .register } })) : Host.Outcome State Fault Refusal)
    (∀ (x : Ex) (d a : BitVec 8) (p : BitVec 1) (r : BitVec 2), s.ex? = some x →
      let srcs := srcW a :: (if p = 1 then [srcI d] else [])
      let pair := (operands s x srcs x.low).getD 0 0
      let page := (arg (operands s x srcs x.low) 1).toNat
      let lo := pair.toNat % 2 ^ 32
      let hi := pair.toNat / 2 ^ 32
      let ncore := lo / 2 ^ 7 % 2 ^ 8
      let ndie := lo / 2 ^ 15 % 2
      let nrc := hi / 2 ^ 16 % 2 ^ 8
      let exp := hi % 2 ^ 9
      srcReady s.m x true srcs = .go →
        (x.r.wait = .released → UniformWords s x (.same s x) srcs zeroSpec 0 [] (exec (.achain d a p r) s))
        ∧ (x.r.wait = .none → 1 ≤ r.toNat → lo % 2 ^ 7 = 0 → hi / 2 ^ 24 = 0 → hi / 2 ^ 9 % 2 ^ 7 = 0 →
          (if r = 2 then ncore = 0 ∧ ndie = 0 ∧ 1 ≤ nrc ∧ nrc ≤ 64 else ncore ≤ 143 ∧ nrc = 0) → (if r = 1 then exp = 0 else 1 ≤ exp ∧ exp ≤ 256) →
          (p = 1 → page % 4096 = 0 ∧ page < 2 ^ 24 ∧ page / 2 ^ 21 = x.core % 8 ∧ page % 2 ^ 21 + 4096 ≤ (s.m.ctxCluster x.w.ctx x.core).pages * 4096) →
            (dieOf x.core ≠ 0 → 8 ≤ syncOut s s.m x.core → exec (.achain d a p r) s = heldAt x srcs) ∧
            ((dieOf x.core ≠ 0 → syncOut s s.m x.core < 8) →
            let decl : Decl :=
              { core := x.core, warp := x.w.uid, role := r.toNat, page := if p = 1 then some (page % 2 ^ 21 / 4096) else none
                hop := coreNamed (s.ctx x.w.ctx) (ndie * 144 + ncore), nrc := nrc, exp := exp, resv := 0, closed := false, retired := false, buffer := none }
            let req : DirRequest := { warp := x.w.uid, lane := x.low, ctx := x.w.ctx, core := x.core, pos := x.pos, close := false, chain := lo / 2 ^ 16, decl := decl }
            exec (.achain d a p r) s = .next (s.withM ({ claimSources s.m x srcs with dirQueue := s.m.dirQueue ++ [req] }.put { x with r := { x.r with wait := .directory } })))))
    ∧ (∀ (x : Ex) (a : BitVec 8), s.ex? = some x → srcReady s.m x true [srcI a] = .go →
      let chain := addressOf s x a x.low % 2 ^ 16
      let mine := fun (d : Decl) => d.warp = x.w.uid ∧ d.closed = false ∧ d.retired = false
      let decls := (s.m.chain? x.w.ctx chain).elim [] (·.decls)
      (x.r.wait = .released ∨ (x.r.wait = .none ∧ ∀ d ∈ decls, ¬mine d) → UniformWords s x (.same s x) [srcI a] zeroSpec 0 [] (exec (.aclose a) s))
      ∧ (∀ d, decls.find? (fun d => d.warp == x.w.uid && !d.closed && !d.retired) = some d → x.r.wait = .none → x.w.pends = [] →
          (dieOf x.core ≠ 0 → 8 ≤ syncOut s s.m x.core → exec (.aclose a) s = heldAt x [srcI a])
          ∧ ((dieOf x.core ≠ 0 → syncOut s s.m x.core < 8) → exec (.aclose a) s = .next (s.withM ({ claimSources s.m x [srcI a] with dirQueue := s.m.dirQueue ++
            [({ warp := x.w.uid, lane := x.low, ctx := x.w.ctx, core := x.core, pos := x.pos, close := true, chain := chain, decl := d } : DirRequest)] }.put { x with r := { x.r with wait := .directory } }))))
      ∧ ((∀ d ∈ decls, mine d → d.role = 2) → Plain x →
          ∃ u, exec (.arsv a) s = .next u ∧ AllParked s x u (fun _ => { cause := .accNorsv, detail := 0, addr := BitVec.ofNat 48 (chain + 0x10000) }) x.pc (boxOf s x))
      ∧ (∀ c d, s.m.chain? x.w.ctx chain = some c → c.decls.find? (fun d => d.warp == x.w.uid && d.isOpen && d.sends) = some d →
          let held := fun (k : Nat) => c.decls.map (fun e => if e.warp = x.w.uid ∧ e.isOpen = true ∧ e.sends = true then { e with resv := k } else e)
          let round := c.granted = true ∧ ∃ e ∈ c.decls, e.core = d.hop ∧ e.isOpen = true ∧ e.buffer.isSome = true
          let full := d.resv = 0 ∧ dieOf d.hop ≠ dieOf x.core ∧ 8 ≤ syncOut s s.m x.core
          (2 ≤ d.resv → UniformWords s x (.same s x) [srcI a] zeroSpec 0 [] (exec (.arsv a) s))
          ∧ (full → exec (.arsv a) s = heldAt x [srcI a])
          ∧ (d.resv < 2 → ¬full → round → UniformWords s x { Rest.same s x with m := { s.m with chains := madj s.m.chains (chainKey x.w.ctx chain) (fun c => { c with decls := held 2 }) } }
              [srcI a] zeroSpec 0 [] (exec (.arsv a) s))
          ∧ (d.resv < 2 → ¬full → ¬round → exec (.arsv a) s = .next (s.withM
              ({ claimSources s.m x [srcI a] with chains := madj s.m.chains (chainKey x.w.ctx chain) (fun c => { c with decls := held 1 }) }.put { x with r := { x.r with wait := .reservation } })))))
    ∧ (∀ warp (q : DirRequest) w, s.m.dirQueue.find? (fun q => q.warp == warp && q.close == false) = some q → s.m.warp? q.core q.pos = some w → w.uid = warp →
      let decls := (s.m.chain? q.ctx q.chain).elim [] (·.decls)
      let live := decls.filter Decl.isOpen
      let receivers := (live.filter Decl.receives).length
      let answered := fun (u : State) (k : Wait) => ∃ v, u.m.warp? q.core q.pos = some v ∧ v.regs = w.regs ∧ v.pends = w.pends ∧ v.threads = w.threads
        ∧ ∀ (i : Nat) (g : Group) (r : Run), w.groups[i]? = some g → g.run = some r → r.wait = .directory → inMask g.lanes q.lane = true → v.groups[i]? = some { g with run := some { r with wait := k } }
      ((q.decl.role = 2 ∨ (q.decl.hop ≠ q.core ∧ (∀ e ∈ live, e.core = q.decl.hop → e.role = 2) ∧ s.coreInPartition q.ctx q.decl.hop = true)) → (∀ e ∈ live, e.core ≠ q.core) →
        (q.decl.role = 2 → (∀ e ∈ live, e.role ≠ 2) ∧ receivers + 1 ≤ q.decl.nrc) → (q.decl.role = 3 → ∀ e ∈ live, e.role = 2 → receivers + 1 ≤ e.nrc) →
        ((s.m.chain? q.ctx q.chain).isSome = true ∨ (s.m.chains.filter (fun c => c.2.ctx == q.ctx)).length < 256) →
          ∃ u c, exec (.achainRecord warp) s = .next u ∧ answered u .released ∧ u.m.chain? q.ctx q.chain = some c ∧ q.decl ∈ c.decls ∧ (∀ e ∈ live, e.forget q.core ∈ c.decls)
            ∧ u.m.dirQueue = s.m.dirQueue.erase q ∧ u.m.mem = s.m.mem ∧ (∀ k, k ≠ chainKey q.ctx q.chain → mget u.m.chains k = mget s.m.chains k))
      ∧ (q.decl.role = 1 ∨ q.decl.role = 3 → q.decl.hop = q.core →
          ∃ u, exec (.achainRecord warp) s = .next u ∧ answered u (.refused { cause := .accCycle, detail := 0, addr := BitVec.ofNat 48 (q.chain + 0x10000) })
            ∧ u.m.chains = s.m.chains ∧ u.m.mem = s.m.mem))
    ∧ (∀ warp (q : DirRequest) w d, s.m.dirQueue.find? (fun q => q.warp == warp && q.close == true) = some q → s.m.warp? q.core q.pos = some w → w.uid = warp →
      ownDecl s.m q.ctx q.chain warp (fun _ => true) = some d → msorted s.m.chains = true →
        ∃ u v, exec (.acloseRecord warp) s = .next u ∧ u.m.warp? q.core q.pos = some v ∧ v.regs = w.regs ∧ v.pends = w.pends
          ∧ (∀ (i : Nat) (g : Group) (r : Run), w.groups[i]? = some g → g.run = some r → r.wait = .directory → inMask g.lanes q.lane = true → v.groups[i]? = some { g with run := some { r with wait := .released } })
          ∧ (∀ c, u.m.chain? q.ctx q.chain = some c → ∀ e ∈ c.decls, e.warp = warp → e.core = d.core → e.isOpen = false)
          ∧ u.m.mem = s.m.mem ∧ u.m.stores = s.m.stores)
    ∧ (∀ ctx chain c k, s.m.chain? ctx chain = some c → c.granted = false → (∃ d ∈ c.decls, d.isOpen = true ∧ d.resv = 1) →
      (c.decls.filter Decl.isOpen).find? (fun d => d.role == 2) = some k → ((c.decls.filter Decl.isOpen).filter Decl.receives).length = k.nrc →
      (∀ e ∈ s.m.chains, e.2.ctx = ctx → chain ≤ e.2.id) → (∀ d ∈ c.decls, d.page = none → buffersUsed s s.m d.core < 16) →
        ∃ u, exec (.chainGrant ctx chain) s = .next u ∧ u.m.mem = s.m.mem ∧ u.m.cores = s.m.cores ∧ (∀ j, j ≠ chainKey ctx chain → mget u.m.chains j = mget s.m.chains j)
          ∧ u.m.chain? ctx chain = some { c with granted := true, round := s.m.nextId, decls := c.decls.map (fun d => if d.isOpen = true ∧ d.receives = true then { d with buffer := some .fresh } else d) })

/-- R265, R272 to R275, R279, R280, R288: `ASEND` reads its tile in all 32 lanes and waits for the answer, or is held by an open level; the answer accepts the tile into the round, or refuses
it, and the sender goes on or faults; an accepted tile is added, as 72-bit sums, once the sender's earlier stores are performed, and discarded when the round
that accepted it is over; `AWAIT` leases its tile and the sums are added to it when the
round is complete, INV being set for a round cut short. -/
def Obligations.TilesTravel : Prop :=
  ∀ (s : State),
    (∀ (x : Ex) (d a : BitVec 8), s.ex? = some x →
      let chain := addressOf s x a x.low % 2 ^ 16
      let fits := fun (dc : Decl) => ownDecl s.m x.w.ctx chain x.w.uid Decl.sends = some dc ∧ 2 ≤ dc.resv
      (x.r.wait = .released → Done s x { Rest.same s x with box := takeSources (boxOf s x) x [srcI a] } (exec (.asend d a) s))
      ∧ (∀ dc, x.r.wait = .none → srcReady s.m x true [srcI a] = .go → srcReady s.m x false [] ((List.range 16).map (· + d.toNat)) = .go → x.g.lanes = BitVec.allOnes 32 →
          fits dc → heldSends x.w chain = 0 →
          let full := dieOf dc.hop ≠ dieOf x.core ∧ 8 ≤ syncOut s s.m x.core
          (x.w.levels = [] → full → ∃ u y, exec (.asend d a) s = .next u ∧ u.ex? = some y ∧ y.r = { x.r with wait := .register } ∧ RegsKept x y
            ∧ u.m.tiles = s.m.tiles ∧ u.m.chains = s.m.chains ∧ u.m.mem = s.m.mem)
          ∧ (x.w.levels = [] → ¬full → ∃ u y t, exec (.asend d a) s = .next u ∧ u.ex? = some y ∧ y.r = { x.r with wait := .answer s.m.nextId } ∧ RegsKept x y
            ∧ mget u.m.tiles s.m.nextId = some t ∧ t.ctx = x.w.ctx ∧ t.chain = chain ∧ t.src = x.core ∧ t.dst = dc.hop ∧ t.warp = x.w.uid ∧ t.accepted = false
            ∧ (∀ i j, i < 16 → j < 16 → t.vals.getD (16 * i + j) 0 = x.w.regLane (d.toNat + 2 * (j % 8) + 1) (2 * i + j / 8) ++ x.w.regLane (d.toNat + 2 * (j % 8)) (2 * i + j / 8))
            ∧ u.m.mem = s.m.mem ∧ u.m.chains = s.m.chains ∧ u.m.stores = s.m.stores)
          ∧ (∀ lv rest, x.w.levels = lv :: rest → shadowUsed s.m x.core + 2048 ≤ 65536 →
              Done s x { Rest.same s x with
                w := { x.w with levels := { lv with held := lv.held ++ [.asend chain (tileValues x.w d.toNat) x.pc] } :: rest }
                box := takeSources (boxOf s x) x [srcI a] } (exec (.asend d a) s)))
      ∧ (x.r.wait = .none → Plain x → srcReady s.m x true [srcI a] = .go →
          (x.g.lanes ≠ BitVec.allOnes 32 →
            ∃ u, exec (.asend d a) s = .next u ∧ AllParked s x u (fun _ => { cause := .illegalOp, detail := 0, addr := 0 }) x.pc (boxOf s x))
          ∧ (x.g.lanes = BitVec.allOnes 32 → (∀ dc, ¬fits dc) →
            ∃ u, exec (.asend d a) s = .next u ∧ AllParked s x u (fun _ => { cause := .accNorsv, detail := 0, addr := BitVec.ofNat 48 (chain + 0x10000) }) x.pc (boxOf s x))))
    ∧ (∀ tile (t : Tile) c d w, mget s.m.tiles tile = some t → t.accepted = false → t.held = false → s.m.chain? t.ctx t.chain = some c →
      c.decls.find? (fun d => d.core == t.dst && d.receives) = some d → s.m.warp? t.src t.pos = some w → w.uid = t.warp →
      let unused := c.decls.map (fun e => if e.warp = t.warp ∧ e.isOpen = true ∧ e.sends = true then { e with resv := 0 } else e)
      let answered := fun (u : State) (k : Wait) => ∃ v, u.m.warp? t.src t.pos = some v ∧ v.regs = w.regs
        ∧ ∀ (i : Nat) (g : Group) (r : Run), w.groups[i]? = some g → g.run = some r → r.wait = .answer tile → v.groups[i]? = some { g with run := some { r with wait := k } }
      let resv := (c.decls.find? (fun d => d.warp == t.warp && d.isOpen && d.sends)).elim 0 (·.resv)
      let refused := fun (u : State) (cause : Cause) (detail : Nat) => u.m.tiles = mdel s.m.tiles tile ∧
        answered u (.refused { cause := cause, detail := 0, addr := BitVec.ofNat 48 (t.chain + detail * 65536) })
      (d.page = none → s.stopped t.ctx t.dst = true → ∃ u, exec (.asendAnswer tile) s = .next u ∧ refused u .accAbsent 0 ∧ u.m.chains = s.m.chains)
      ∧ (¬(d.page = none ∧ s.stopped t.ctx t.dst = true) → (d.retired = true ∨ resv = 4) →
          ∃ u, exec (.asendAnswer tile) s = .next u ∧ refused u .accRetired 0 ∧ u.m.chain? t.ctx t.chain = some { c with decls := unused })
      ∧ (¬(d.page = none ∧ s.stopped t.ctx t.dst = true) → d.retired = false → resv ≠ 4 → (∀ b, d.buffer = some b → d.closed = true ∨ resv = 3 ∨ d.exp ≤ b.accepted) →
          ∃ u, exec (.asendAnswer tile) s = .next u ∧ refused u .accNorsv 2 ∧ u.m.chain? t.ctx t.chain = some { c with decls := unused })
      ∧ (∀ b, ¬(d.page = none ∧ s.stopped t.ctx t.dst = true) → d.retired = false → d.closed = false → d.buffer = some b → b.accepted < d.exp →
          (∃ e, c.decls.find? (fun d => d.warp == t.warp && d.isOpen && d.sends) = some e ∧ e.resv = 2) →
          ∃ u, exec (.asendAnswer tile) s = .next u ∧ answered u .released ∧ mget u.m.tiles tile = some { t with accepted := true, round := c.round }
            ∧ ∃ c', u.m.chain? t.ctx t.chain = some c' ∧ c'.decls.length = c.decls.length
              ∧ ∀ (i : Nat) e, c.decls[i]? = some e → ∃ e', c'.decls[i]? = some e'
                ∧ (e.warp = t.warp ∧ e.isOpen = true ∧ e.sends = true → e'.resv = 0)
                ∧ (e.core = d.core ∧ e.receives = true ∧ e.isOpen = true → e'.buffer = e.buffer.map (fun b => { b with accepted := b.accepted + 1, senders := b.senders ++ [t.src] }))))
    ∧ (∀ tile (t : Tile) c, mget s.m.tiles tile = some t → t.accepted = true → (∀ st ∈ s.m.stores, st.warp = t.warp → t.since ≤ st.seq) → s.m.chain? t.ctx t.chain = some c →
      let open_ := c.granted = true ∧ c.round = t.round ∧ ∃ e ∈ c.decls, e.core = t.dst ∧ e.isOpen = true ∧ e.buffer.isSome = true
      (open_ → ∃ u know, exec (.accArrival tile) s = .next u ∧ u.m.tiles = mdel s.m.tiles tile ∧ u.m.mem = s.m.mem ∧ (∀ core pos, u.m.warp? core pos = s.m.warp? core pos)
        ∧ u.m.chain? t.ctx t.chain = some { c with decls := c.decls.map (fun e => if e.core = t.dst ∧ e.receives = true ∧ e.isOpen = true
            then { e with buffer := e.buffer.map (fun b =>
              { b with sums := List.zipWith (fun p v => p + v.signExtend 72) b.sums t.vals, count := b.count + 1, know := (b.know ++ know).eraseDups }) } else e) })
      ∧ (¬open_ → exec (.accArrival tile) s = .next (s.withM (releaseCluster { s.m with tiles := mdel s.m.tiles tile } t.ctx t.src))))
    ∧ (∀ (x : Ex) (d a : BitVec 8) (z : BitVec 1) (f : BitVec 3) m, s.ex? = some x →
      let chain := addressOf s x a x.low % 2 ^ 16
      srcReady s.m x true [srcI a] = .go → x.g.lanes = BitVec.allOnes 32 → slotElt (formatSlot s.m x.w f.toNat) ≠ 0 → (ownDecl s.m x.w.ctx chain x.w.uid Decl.receives).isSome = true →
      (z = 0 → srcReady s.m x false [] ((List.range 16).map (· + d.toNat)) = .go) → regsReady s.m x d.toNat 16 = .go m →
        Done s x { Rest.same s x with
          m := { s.m with nextId := s.m.nextId + 1 }, box := takeSources (boxOf s x) x [srcI a]
          w := { x.w with pends := x.w.pends ++ [{ id := s.m.nextId, kind := .await chain f.toNat (z == 1), lanes := x.g.lanes, reg := d.toNat, count := 16, vals := [], pc := x.pc
                                                   run := x.r.pos, addrs := [], sync := false }] } } (exec (.await d a z f) s))
    ∧ (∀ core pos op w p chain f z c d b, s.m.warp? core pos = some w → w.pend? op = some p → p.kind = .await chain f z → p.count = 16 → p.lanes = BitVec.allOnes 32 → s.m.chain? w.ctx chain = some c →
      ownDecl s.m w.ctx chain w.uid Decl.receives = some d → d.buffer = some b → (b.count = d.exp ∨ (b.cut = true ∧ b.count = b.accepted)) →
      let element := fun (l j : Nat) =>
        let base : DWord := if z then 0 else w.regLane (p.reg + 2 * j + 1) l ++ w.regLane (p.reg + 2 * j) l
        add64 (slotOvm (formatSlot s.m w f)) base (b.sums.getD (16 * (l / 2) + 8 * (l % 2) + j) 0).toInt
      ∃ u v, exec (.awaitAdd core pos op) s = .next u ∧ u.m.warp? core pos = some v ∧ v.pends = w.pends.filter (fun q => q.id ≠ p.id) ∧ v.groups = w.groups
        ∧ (∀ r l, l < 32 → v.regLane r l =
            if p.reg ≤ r ∧ r < p.reg + 16 then (if (r - p.reg) % 2 = 0 then (element l ((r - p.reg) / 2)).1.setWidth 32 else ((element l ((r - p.reg) / 2)).1 >>> 32).setWidth 32)
            else w.regLane r l)
        ∧ w.accstat &&& v.accstat = w.accstat ∧ (b.cut = true → v.accstat.getLsbD 2 = true) ∧ (∀ l j, l < 32 → j < 8 → (element l j).2 &&& v.accstat = (element l j).2)
        ∧ (∀ c', u.m.chain? w.ctx chain = some c' → ∀ e ∈ c'.decls, e.warp = w.uid → e.isOpen = true → e.receives = true → e.buffer = none)
        ∧ u.m.mem = s.m.mem ∧ u.m.stores = s.m.stores)

/-! Speculative tiles. -/

/-- R283, R286, R295, R296: `TWATCH` frees or installs an entry, version 0; `PUBT` outside speculation writes its tile into the history slot of the next version, issues the global write as a
release at `.dev` with KIND 9, waits until it is performed and answers the version; the write's performance makes the version final and decides each level that waits on it. -/
def Obligations.VersionsPublished : Prop :=
  ∀ (s : State),
    (∀ (x : Ex) (a : BitVec 8) (k : BitVec 5), s.ex? = some x →
      let entry := watchEntry s.m x.w.ctx x.core
      (entry k.toNat = none → Done s x (.same s x) (exec (.twatch zeroSpec k) s))
      ∧ (∀ e, entry k.toNat = some e → e.prov = false → (∀ e ∈ s.m.allWarps, e.2.2.levels = []) → (∀ e ∈ s.m.saved, ∀ sw ∈ e.2, sw.warp.levels = []) →
          ∃ cs sts, Done s x { Rest.same s x with m := { s.m with ctxClusters := cs, stores := sts } } (exec (.twatch zeroSpec k) s)
            ∧ (∀ j, watchEntry { s.m with ctxClusters := cs } x.w.ctx x.core j = if j = k.toNat then none else entry j)
            ∧ (∀ st ∈ sts, st.ctx = x.w.ctx → clusterOf st.core = clusterOf x.core → st.entry ≠ some k.toNat)
            ∧ sts.map (fun st => { st with entry := none }) = s.m.stores.map (fun st => { st with entry := none }))
      ∧ (∀ m desc, a ≠ zeroSpec → srcReady s.m x true [srcW a] = .go → entry k.toNat = none →
          let va := (operands s x [srcW a] x.low).getD 0 0
          let field := fun (pos n : Nat) => bytesToNat ((desc.drop pos).take n)
          let e : WatchEntry := { desc := desc, core := x.core / 8 * 8 + field 26 1 / 32, slot := formatSlot m x.w (field 28 1 % 8), ver := 0, prov := false, owner := 0, rels := [] }
          va.toNat % 32 = 0 → drained s.m x.w.uid = true → readMem s s.m x.w.ctx x.core va 32 = .ok desc m → watchReject m x e = none →
            ∃ cs, UniformWords s x { m := { m with ctxClusters := cs }, c := m.core x.core, w := x.w, box := boxOf s x } [srcW a] zeroSpec 0 [] (exec (.twatch a k) s)
              ∧ ∀ j, watchEntry { m with ctxClusters := cs } x.w.ctx x.core j = if j = k.toNat then some e else entry j))
    ∧ (∀ (x : Ex) (d a : BitVec 8) (k : BitVec 5) e m, s.ex? = some x → watchEntry s.m x.w.ctx x.core k.toNat = some e →
      (∀ n, x.r.wait = .publishing n → drained s.m x.w.uid = true → WordReady s x true [] false d 1 m → UniformWords s x (.same s x) [] d 1 [n] (exec (.pubt d a k) s))
      ∧ (let addr := addressOf s x a x.low
        let source := x.core / 8 * 8 + addr / 2 ^ 21 % 8
        let slot := e.hist % 2 ^ 21 + (e.ver + 1).toNat % 3 * e.len
        let tile := readBytes (s.m.ctxCore x.w.ctx source).spad (addr % 2 ^ 21) e.len
        x.r.wait = .none → WordReady s x true [srcI a] false d 1 m → x.w.levels = [] → addr % (if e.elt = 0x22 then 128 else 64) = 0 → addr < 2 ^ 24 →
        addr % 2 ^ 21 + e.len ≤ (s.m.ctxCluster x.w.ctx x.core).pages * 4096 → e.prov = false → publishing s.m x.w.ctx x.core k.toNat = false → tileHeld s.m x e.core slot e.len = false →
        (s.m.ctxCore x.w.ctx source).rounds = [] → (s.m.ctxCore x.w.ctx e.core).rounds = [] →
          ∃ u y, exec (.pubt d a k) s = .next u ∧ u.ex? = some y ∧ y.r = { x.r with wait := .publishing (e.ver + 1) } ∧ RegsKept x y ∧ u.m.mem = s.m.mem
            ∧ (∀ i, readByte (u.m.ctxCore x.w.ctx e.core).spad i =
                if slot ≤ i ∧ i < slot + e.len then tile.getD (i - slot) 0 else readByte (s.m.ctxCore x.w.ctx e.core).spad i)
            ∧ (∀ c, c ≠ e.core → (u.m.ctxCore x.w.ctx c).spad = (s.m.ctxCore x.w.ctx c).spad)
            ∧ u.m.stores = s.m.stores ++ [{ seq := s.m.nextId, warp := x.w.uid, ctx := x.w.ctx, core := x.core, slot := x.w.homeSlot, lanes := laneBit x.low, pc := x.pc, run := x.w.runs, kind := 9
                                            addr := BitVec.ofNat 64 e.base, op := .bytes (tile.map some), rel := some 5, acq := none
                                            srcs := ((x.w.fenceRel ++ [5]).eraseDups).map (fun sc => { scope := sc, agent := x.agent, ids := x.w.know, direct := false })
                                            entry := some k.toNat, joined := false, gang := x.w.gang, twin := false, place := none, failed := none }]))
    ∧ (∀ warp (st : Store) k e bs b at_ die, nextStore s.m warp = some st → st.failed = none → st.place = none → st.kind = 9 → joinedStores s.m st = [] → st.entry = some k →
      watchEntry s.m st.ctx st.core k = some e → e.prov = false →
      st.op = .bytes bs → bs.head? = some (some b) → st.addr.toNat % 4096 + bs.length ≤ 4096 → Hit s st.ctx st.core st.addr .write at_ → paClass s at_.pa = .hbm die →
      (s.m.ctxCore st.ctx e.core).rounds = [] → ((clusterLevels s.m st.ctx (clusterOf st.core)).map (·.2.2.id)).Nodup →
      (s.m.allWarps.any (fun r => clusterOf r.1 == clusterOf st.core && r.2.2.ctx == st.ctx)) = true →
        let version := fun (v : Nat) => readBytes (s.m.ctxCore st.ctx e.core).spad (e.hist % 2 ^ 21 + v % 3 * e.len) e.len
        let n := (e.ver + 1).toNat
        ∃ u rels, exec (.storePerformed warp) s = .next u ∧ u.m.stores = s.m.stores.filter (fun o => o.seq ≠ st.seq)
          ∧ (∀ a, readByte u.m.mem a = match (if at_.pa ≤ a then bs.getD (a - at_.pa) none else none) with | some v => v | none => readByte s.m.mem a)
          ∧ watchEntry u.m st.ctx st.core k = some { e with ver := e.ver + 1, rels := rels }
          ∧ ∀ core pos w (i : Nat) lv, s.m.warp? core pos = some w → clusterOf core = clusterOf st.core → w.ctx = st.ctx → w.levels[i]? = some lv → lv.entry = k →
              lv.version = e.ver + 1 → lv.verdict = none →
              ∃ v lv' free, u.m.warp? core pos = some v ∧ v.levels[i]? = some lv' ∧ v.regs = w.regs
                ∧ lv'.verdict = some (tilePasses e (version n) (predictTile e lv.linear free (version (n - 1)) (version (n - 2)))))

/-- R284, R287, R290, R291, R297 to R299: `SPECT` copies a version that is published and is then an acquire, predicts the next one and opens a level, or waits; `SCHK` answers 0 with no level, waits for a verdict,
moves an inner level's effects outward, performs the outermost level's after its acquire, so that its releases carry what that has learned (R317), or squashes; `SABORT` squashes. A squash restores the snapshot's registers and performs no held effect. -/
def Obligations.Speculation : Prop :=
  ∀ (s : State) (x : Ex), s.ex? = some x →
    let squashed := fun (lv : Level) (outer : List Level) (out : Host.Outcome State Fault Refusal) => ∃ u v, out = .next u ∧ u.m.warp? x.core x.pos = some v
      ∧ v.regs = lv.snapshot.regs ∧ v.gens = lv.snapshot.gens ∧ v.levels = outer ∧ v.accstat = x.w.accstat ∧ v.termG = lv.snapshot.termG ∧ v.termD = lv.snapshot.termD
      ∧ v.groups = regroup lv.snapshot.groups ∧ v.replay = markReplay x.w.replay lv.specPc lv.specLanes ∧ v.pends = x.w.pends.filter (fun p => p.id < lv.pendsFrom)
      ∧ u.m.mem = s.m.mem ∧ u.m.stores = s.m.stores ∧ (∀ c k, (u.m.ctxCore c k).spad = (s.m.ctxCore c k).spad)
    (∀ (d a : BitVec 8) (k : BitVec 5) m e, WordReady s x true [srcW a] false d 1 m → watchEntry s.m x.w.ctx x.core k.toNat = some e →
      let pair := (operands s x [srcW a] x.low).getD 0 0
      let addr := pair.toNat % 2 ^ 32
      let n := max 1 (pair.toNat / 2 ^ 32)
      let off := addr % 2 ^ 21
      let version := fun (v : Nat) => readBytes (s.m.ctxCore x.w.ctx e.core).spad (e.hist % 2 ^ 21 + v % 3 * e.len) e.len
      let wrote := fun (box : CtxCore) (bs : List Byte) => { box with spad := [], poisoned := [] } = { boxOf s x with spad := [], poisoned := [] }
        ∧ (∀ i, readByte box.spad i = if off ≤ i ∧ i < off + bs.length then bs.getD (i - off) 0 else readByte (boxOf s x).spad i)
        ∧ ∀ sec ∈ box.poisoned, sec ∈ (boxOf s x).poisoned
      addr % (if e.elt = 0x22 then 128 else 64) = 0 → addr < 2 ^ 24 → addr / 2 ^ 21 = x.core % 8 → off + e.len ≤ (s.m.ctxCluster x.w.ctx x.core).pages * 4096 →
      tileHeld s.m x x.core off e.len = false → (boxOf s x).rounds = [] → (s.m.ctxCore x.w.ctx e.core).rounds = [] →
        (n ≤ e.ver.toNat → ∃ m' box, ReadOnly s.m m' ∧ wrote box (version (if e.ver.toNat - 1 ≤ n then n else e.ver.toNat))
          ∧ UniformWords s x { m := m', c := { s.m.core x.core with l1 := [] }, w := { x.w with replay := clearReplay x.w.replay x.pc x.g.lanes }, box := box }
              [srcW a] d 1 [0] (exec (.spect d a k) s))
        ∧ (n = e.ver.toNat + 1 → e.prov = false → e.ver ≠ 0 → x.w.levels.length < 3 → x.w.replays x.pc x.g.lanes = false → ∃ box lv free,
          wrote box (predictTile e lv.linear free (version e.ver.toNat) (version (e.ver.toNat - 1)))
          ∧ UniformWords s x { m := { s.m with nextId := s.m.nextId + 1, free := s.m.free + 2048 }, c := s.m.core x.core, w := { x.w with levels := lv :: x.w.levels }, box := box }
              [srcW a] d 1 [1] (exec (.spect d a k) s)
          ∧ lv.entry = k.toNat ∧ lv.version = BitVec.ofNat 32 n ∧ lv.linear = (e.linear && e.ver.toNat != 1) ∧ lv.verdict = none ∧ lv.held = [] ∧ lv.shadow = []
          ∧ lv.specPc = x.pc ∧ lv.specLanes = x.g.lanes ∧ lv.snapshot.regs = x.w.regs ∧ lv.snapshot.gens = x.w.gens ∧ lv.snapshot.groups = x.warp.groups.map snapGroup
          ∧ lv.snapshot.termG = x.w.termG ∧ lv.snapshot.termD = x.w.termD ∧ lv.snapshot.arrived = x.w.arrived)
        ∧ (let own := e.prov = true ∧ e.owner = x.w.uid ∧ x.w.levels ≠ []
          (e.ver.toNat + 1 < n → ¬own → m = s.m → Held s x .room (exec (.spect d a k) s))
          ∧ (e.ver.toNat < n → own → (∃ lv rest, x.w.levels = lv :: rest ∧ lv.verdict = none) → m = s.m → Held s x .verdict (exec (.spect d a k) s))))
    ∧ (∀ (d : BitVec 8) m, WordReady s x true [] false d 1 m →
      (x.w.levels = [] → UniformWords s x (.same s x) [] d 1 [0] (exec (.schk d) s))
      ∧ ∀ lv outer, x.w.levels = lv :: outer →
        (lv.verdict = none → m = s.m → Held s x .verdict (exec (.schk d) s))
        ∧ (∀ o rest, lv.verdict = some true → outer = o :: rest → UniformWords s x { Rest.same s x with w := { x.w with levels :=
            { o with held := o.held ++ lv.held, shadow := o.shadow ++ lv.shadow, provEntry := o.provEntry ++ lv.provEntry } :: rest } } [] d 1 [1] (exec (.schk d) s))
        ∧ (∀ sts : List Store, let rels := (mget (s.m.ctxCluster x.w.ctx x.core).watch lv.entry).elim [] (·.rels)
            lv.verdict = some true → outer = [] → lv.held = sts.map .store → ∃ m', ReadOnly s.m m' ∧ UniformWords s x { Rest.same s x with
            m := { m' with stores := s.m.stores ++ sts.map (Store.committed (stillLate m' (x.w.know ++ acquired rels 5 x.agent))) }, c := { s.m.core x.core with l1 := [] }, w := { x.w with levels := [] } } [] d 1 [1] (exec (.schk d) s))
        ∧ (lv.verdict = some false → squashed lv outer (exec (.schk d) s)))
    ∧ (x.w.levels = [] → Done s x (.same s x) (exec .sabort s))
    ∧ (∀ lv outer, x.w.levels = lv :: outer → squashed lv outer (exec .sabort s))

/-! The engines. -/

/-- R160, R163, R165, R169, R288, R120, R121: `CPY` and `CPYM` whose descriptor passes the checks start their copy and answer its promise, a value above the counter's; inside a level a copy
that is held is promised for the counter plus 1; with an acquire the command makes it as it issues; a check that fails parks every active lane and starts nothing; `CPYQ` answers a fresh promise
while the core has a copy of the warp's own context from the descriptor in flight and 0 otherwise (that another context's copies do not count is the model's choice, log 104); `GATH` starts its gather. A ninth copy and a fifth gather wait. The size of a promise is a free value. -/
def Obligations.EngineCommandsStart : Prop :=
  ∀ (s : State) (x : Ex) (d a : BitVec 8) (m : Mach), s.ex? = some x →
    let va := (operands s x [srcW a] x.low).getD 0 0
    let halves := fun (p : DWord) => [p.setWidth 32, (p >>> 32).setWidth 32]
    let ahead := fun (p : DWord) => s.counter.toNat + 1 < 2 ^ 64 → s.counter.toNat + 1 ≤ p.toNat
    (∀ (o : BitVec 2) (k : BitVec 3) (b : BitVec 1) desc m₁, WordReady s x true [srcW a] false d 2 m → va.toNat % 64 = 0 → drained s.m x.w.uid = true → x.r.desc = [] →
      readDesc s s.m x va = .ok desc m₁ →
      let slot := formatSlot s.m x.w ((desc.getD 34 0).toNat % 8)
      let global := (desc.getD 34 0).toNat / 16 % 4 ≠ 1
      let rel := if 2 ≤ o.toNat then some k.toNat else none
      let l1 := if o.toNat % 2 = 1 ∧ 3 ≤ k.toNat then [] else (s.m.core x.core).l1
      let copy := fun (multi : Bool) (p : DWord) (held : Bool) => ({
        ctx := x.w.ctx, core := x.core, slot := x.w.homeSlot, warp := x.w.uid, grid := x.w.grid, desc := desc, descAddr := va, fslot := slot, mcast := multi, rel := rel
        srcs := copySrcs m₁ x rel, promise := p, watched := !held, since := m₁.nextId, held := held, row := 0, maxabs := 0, delivered := 0, told := 0, ahead := [], formed := none, early := [], stop := none, stepRow := false } : Copy)
      let starts := fun (multi : Bool) (run : Host.Outcome State Fault Refusal) =>
       (∀ f, copyReject m₁ x desc slot multi (b == 1) va.toNat = some f → Plain x → m = s.m → m₁ = s.m → ∃ u, run = .next u ∧ AllParked s x u (fun _ => f) x.pc (boxOf s x))
       ∧ (copyReject m₁ x desc slot multi (b == 1) va.toNat = none →
        (coreCopies s.m x.core < 8 → (x.w.levels = [] ∨ (o.toNat < 2 ∧ ¬global)) → ∃ p m', ahead p ∧ ReadOnly m₁ m' ∧ (o.toNat % 2 = 0 → m' = m₁) ∧ UniformWords s x { Rest.same s x with
            m := { m' with copies := mset m₁.copies m₁.nextId (copy multi p false), nextId := m₁.nextId + 1, free := m₁.free + 1 }, c := { s.m.core x.core with l1 := l1 } }
            [srcW a] d 2 (halves p) run)
        ∧ (∀ lv rest, x.w.levels = lv :: rest → (2 ≤ o.toNat ∨ global) → shadowUsed m x.core + 64 ≤ 65536 → ∃ m', ReadOnly m₁ m' ∧ (o.toNat % 2 = 0 → m' = m₁) ∧ UniformWords s x {
              m := { m' with copies := mset m₁.copies m₁.nextId (copy multi (s.counter + 1) true), nextId := m₁.nextId + 1 }, c := { s.m.core x.core with l1 := l1 }
              w := { x.w with levels := { lv with held := lv.held ++ [.copy m₁.nextId] } :: rest }, box := boxOf s x } [srcW a] d 2 (halves (s.counter + 1)) run)
        ∧ (8 ≤ coreCopies s.m x.core → x.w.levels = [] → m = s.m → m₁ = s.m → Held s x .room run))
      starts false (exec (.cpy d a o k b) s) ∧ starts true (exec (.cpym d a o k b) s))
    ∧ (WordReady s x true [srcW a] false d 2 m →
      let inFlight := ∃ c ∈ s.m.copies, c.2.core = x.core ∧ c.2.ctx = x.w.ctx ∧ c.2.descAddr = va
      (¬inFlight → UniformWords s x (.same s x) [srcW a] d 2 [0, 0] (exec (.cpyq d a) s))
      ∧ (inFlight → ∃ p, ahead p ∧ UniformWords s x { Rest.same s x with m := { s.m with free := s.m.free + 1 } } [srcW a] d 2 (halves p) (exec (.cpyq d a) s)))
    ∧ (∀ (y w g u : BitVec 1) (r : BitVec 2) desc m₁, srcReady s.m x true [srcW a] = .go → va.toNat % 64 = 0 → drained s.m x.w.uid = true → readDesc s s.m x va = .ok desc m₁ →
      (isQueue d = true → ((boxOf s x).queues.getD (d.toNat - 0x88) .fresh).kind = 2) →
      let fn := r.toNat + 4 * u.toNat + 8 * g.toNat + 16 * w.toNat + 32 * y.toNat
      gatherReserved desc fn (isQueue d) = false → gatherRange s.m x.w.ctx x.core desc fn (isQueue d) = none →
        (coreGathers s.m x.core < 4 → UniformWords s x { Rest.same s x with m := { m₁ with
            gathers := mset m₁.gathers m₁.nextId { ctx := x.w.ctx, core := x.core, slot := x.w.homeSlot, warp := x.w.uid, grid := x.w.grid, desc := desc, descAddr := va, fn := fn
                                                   queue := if isQueue d then some (d.toNat - 0x88) else none, since := m₁.nextId, bag := 0, skip := 0, dups := 0, empty := 0, out := [], ahead := [], early := []
                                                   last := (0, 0, 0), stop := none }
            nextId := m₁.nextId + 1 } } [srcW a] zeroSpec 0 [] (exec (.gath d a y w g u r) s))
        ∧ (4 ≤ coreGathers s.m x.core → m₁ = s.m → Held s x .room (exec (.gath d a y w g u r) s)))

/-- R156, R157, R161, R166, R168, R169: a row of a plain copy is written unchanged to scratchpad (of every receiving core), to memory or to its die's weight store, and its bytes count as arrived at its barrier
objects, or, under a release, are counted there, row by row, once the copy's last write is performed at the release's scope; after the last row a copy without fold ends, its record, where it has one,
holding DONE, status 0 and the counted bytes. -/
def Obligations.CopiesRun : Prop :=
  ∀ (s : State) (id : Nat) (c : Copy), mget s.m.copies id = some c → c.held = false → c.stop = none → c.ahead = [] → c.formed = none → c.early = [] →
    let field := fun (pos n : Nat) => bytesToNat ((c.desc.drop pos).take n)
    let nrow := field 20 4
    let word := fun (m : Mach) (k off i : Nat) => bytesToNat (readBytes (m.ctxCore c.ctx k).spad (off + 4 * i) 4)
    let cores := if c.mcast then (List.range 8).filter (fun k => field 39 1 / 2 ^ k % 2 = 1) |>.map (· + c.core / 8 * 8) else [c.core / 8 * 8 + field 8 8 / 2 ^ 21 % 8]
    let bars := if c.mcast then cores else [c.core / 8 * 8 + field 36 3 / 2 ^ 21 % 8]
    let bar := field 36 3 % 2 ^ 21
    let arrived := fun (u : State) (n : Nat) => ∀ k ∈ bars, word u.m k bar 0 = word s.m k bar 0 ∧ word u.m k bar 1 = (word s.m k bar 1 + n) % 2 ^ 32
      ∧ word u.m k bar 2 % 2 ^ 16 = (if word s.m k bar 2 % 2 ^ 16 = 0 ∧ word s.m k bar 0 < (word s.m k bar 1 + n) % 2 ^ 32 then 2 else word s.m k bar 2 % 2 ^ 16)
    let plain := ∀ k, clusterOf k = clusterOf c.core → (s.m.ctxCore c.ctx k).rounds = []
    (c.row < nrow → (∀ st ∈ s.m.stores, st.warp = c.warp → c.since ≤ st.seq) → field 32 1 = 0 →
      ∀ bs, (if field 34 1 / 64 = 0 then
          ∃ t die, let va : DWord := BitVec.ofNat 64 (field 0 8 + c.row * field 24 4)
            field 0 8 + c.row * field 24 4 < 2 ^ 48 ∧ va.toNat % 4096 + field 16 4 ≤ 4096 ∧ Hit s c.ctx c.core va .read t true ∧ paClass s t.pa = .hbm die
              ∧ poisonedRange s.m t.pa (field 16 4) = false ∧ bs = viewBytes s.m (dieOf c.core) t.pa (field 16 4)
        else
          let k := c.core / 8 * 8 + field 0 8 / 2 ^ 21 % 8
          let off := field 0 8 % 2 ^ 21 + c.row * field 24 4
          off + field 16 4 ≤ (s.m.ctxCluster c.ctx c.core).pages * 4096 ∧ spadPoisoned (s.m.ctxCore c.ctx k) off (field 16 4) = false ∧ (s.m.ctxCore c.ctx k).rounds = []
            ∧ bs = readBytes (s.m.ctxCore c.ctx k).spad off (field 16 4)) → 0 < field 16 4 →
      let after := { c.begin s.m id with row := c.row + 1, delivered := c.delivered + field 16 4 }
      let counts := field 35 1 % 2 = 1 ∧ c.rel = none
      let counted := fun (u : State) => if counts then arrived u (field 16 4) else u.m.ctxCores = s.m.ctxCores
      let inBar := fun (k i : Nat) => counts ∧ k ∈ bars ∧ bar ≤ i ∧ i < bar + 16
      plain →
      (field 34 1 / 16 % 4 = 1 →
        let off := field 8 8 % 2 ^ 21 + c.row * field 28 4
        off + field 16 4 ≤ (s.m.ctxCluster c.ctx c.core).pages * 4096 → (counts → bar + 16 ≤ off ∨ off + field 16 4 ≤ bar ∨ ∀ k ∈ bars, k ∉ cores) →
          ∃ u, exec (.copyRow id) s = .next u ∧ u.m.mem = s.m.mem ∧ u.m.cores = s.m.cores ∧ mget u.m.copies id = some after ∧ (counts → arrived u (field 16 4))
            ∧ ∀ k i, ¬inBar k i →
              readByte (u.m.ctxCore c.ctx k).spad i = if k ∈ cores ∧ off ≤ i ∧ i < off + field 16 4 then bs.getD (i - off) 0 else readByte (s.m.ctxCore c.ctx k).spad i)
      ∧ (∀ t die, let va : DWord := BitVec.ofNat 64 (field 8 8 + c.row * field 28 4)
          field 34 1 / 16 % 4 = 0 → va.toNat % 4096 + field 16 4 ≤ 4096 → Hit s c.ctx c.core va .write t true → paClass s t.pa = .hbm die →
          ∃ u m', exec (.copyRow id) s = .next u ∧ u = s.withM { m' with copies := mset s.m.copies id after, ctxCores := u.m.ctxCores } ∧ WroteAt s.m m' c.core t.pa (bs.map some) ∧ counted u
            ∧ ∀ k i, ¬inBar k i → readByte (u.m.ctxCore c.ctx k).spad i = readByte (s.m.ctxCore c.ctx k).spad i)
      ∧ (field 34 1 / 16 % 4 = 2 → s.m.wstore.length = 2 → c.core < 288 →
        let p := s.partitionOf c.ctx
        let off := p.wsBase + field 8 8 + c.row * field 28 4
        let die := dieOf c.core
        off + field 16 4 ≤ p.wsLimit → off + field 16 4 ≤ 192 * 2 ^ 20 →
          ∃ u, exec (.copyRow id) s = .next u ∧ u.m.mem = s.m.mem ∧ u.m.cores = s.m.cores ∧ mget u.m.copies id = some after ∧ counted u
            ∧ (∀ i, readByte (u.m.wstore.getD die []) i = if off ≤ i ∧ i < off + field 16 4 then bs.getD (i - off) 0 else readByte (s.m.wstore.getD die []) i)
            ∧ u.m.wstore.getD (1 - die) [] = s.m.wstore.getD (1 - die) []))
    ∧ (nrow ≤ c.row → field 35 1 / 2 % 2 = 0 → (∃ w ∈ s.m.allWarps, clusterOf w.1 = clusterOf c.core ∧ w.2.2.ctx = c.ctx) →
      let told := c.rel = none ∨ (releaseReady s.m id c = true ∧ 0 < c.row ∧ (field 35 1 % 2 = 0 ∨ c.row ≤ c.told))
      let waiting := some (0, plainFault .addr, 0)
      (told → field 35 1 / 8 % 2 = 0 → ∃ u, exec (.copyEnd id) s = .next u ∧ u = s.withM { s.m with copies := mdel s.m.copies id })
      ∧ (∀ t die, told → field 35 1 / 8 % 2 = 1 → let va : DWord := BitVec.ofNat 64 (field 56 8)
          va.toNat % 16 = 0 → Hit s c.ctx c.core va .write t true → paClass s t.pa = .hbm die →
          ∃ u m', exec (.copyEnd id) s = .next u ∧ u = s.withM { m' with copies := mdel s.m.copies id }
            ∧ WroteAt s.m m' c.core t.pa ((natToBytes 4 (2 ^ 31) ++ natToBytes 4 c.delivered ++ natToBytes 4 0 ++ natToBytes 4 0).map some))
      ∧ (c.rel.isSome = true → releaseReady s.m id c = false → exec (.copyEnd id) s = .next (s.withM { s.m with copies := mset s.m.copies id { c with stop := waiting } }))
      ∧ (c.rel.isSome = true → releaseReady s.m id c = true → field 35 1 % 2 = 1 → c.told < c.row → bars ≠ [] → plain →
        ∃ u, exec (.copyEnd id) s = .next u ∧ mget u.m.copies id = some { c with stop := waiting, told := c.told + 1 } ∧ u.m.mem = s.m.mem
          ∧ arrived u (min (field 16 4) (c.delivered - c.told * field 16 4))))

/-- R122 to R125: a bag in index order, its lists and rows as `readBag` reads them, in one state but for the words that the engine has read ahead (log 107), is reduced column by column, each addition
rounded, and written to its place in scratchpad, or what is left of it when some of its words have been written; an empty bag writes zeros; an index out of range under `.flt`
stops the gather with the bag unwritten; queue output is pushed one entry at a time while there is room; a gather that has ended writes its record and raises an event when its status is not 0. -/
def Obligations.GathersRun : Prop :=
  ∀ (s : State) (id : Nat) (g : Gather), mget s.m.gathers id = some g →
    (∀ lo hi m rows skip dups seen, g.stop = none → g.bag < gNbag g.desc → g.out = [] → commandReady s.m g.warp g.since = true → g.queue = none → gBv g.desc = false →
      bagBounds s g s.m = .ok (lo, hi) m → lo ≤ hi → fnRed g.fn = 1 → fnIx g.fn = true → gRlen g.desc * 4 = gOb g.fn g.desc →
      (∃ m', readBag s g (hi - lo) lo { rows := [], seen := [], skip := 0, dups := 0, stop := none, waits := false, m := m }
          = { rows := rows, seen := seen, skip := skip, dups := dups, stop := none, waits := false, m := m' } ∧ m'.ctxCores = s.m.ctxCores) →
      let core := g.core / 8 * 8 + gDst g.desc / 2 ^ 21 % 8
      let off := gDst g.desc % 2 ^ 21 + g.bag * gDstr g.desc
      let column := fun (j : Nat) => rows.map (fun (r : List Nat) => r.getD j 0)
      let total := fun (j : Nat) => match column j with
        | [] => 0
        | v :: rest => let sum := rest.foldl fp32.add v; if fp32.decode sum = .nan then 0x7FC00000 else sum
      (s.m.ctxCore g.ctx core).rounds = [] →
        ∃ u, exec (.gatherBag id) s = .next u
          ∧ mget u.m.gathers id = some { g with
              bag := g.bag + 1, skip := g.skip + skip, dups := g.dups + dups, empty := g.empty + (if rows = [] then 1 else 0), last := (skip, dups, if rows = [] then 1 else 0), ahead := [] }
          ∧ ∀ i, readByte (u.m.ctxCore g.ctx core).spad i =
              if off ≤ i ∧ i < off + 4 * gRlen g.desc then BitVec.ofNat 8 (total ((i - off) / 4) / 2 ^ (8 * ((i - off) % 4))) else readByte (s.m.ctxCore g.ctx core).spad i)
    ∧ (g.queue = none → g.out ≠ [] → gBv g.desc = false →
      let core := g.core / 8 * 8 + gDst g.desc / 2 ^ 21 % 8
      let off := gDst g.desc % 2 ^ 21 + (g.bag - 1) * gDstr g.desc
      (s.m.ctxCore g.ctx core).rounds = [] →
        ∃ u, exec (.gatherBag id) s = .next u ∧ mget u.m.gathers id = some { g with out := [], early := [] } ∧ u.m.mem = s.m.mem
          ∧ ∀ i, readByte (u.m.ctxCore g.ctx core).spad i =
              if off ≤ i ∧ i < off + min (gOb g.fn g.desc) (4 * g.out.length) ∧ (i - off) / 4 ∉ g.early then
                BitVec.ofNat 8 ((g.out.getD ((i - off) / 4) 0).toNat / 2 ^ (8 * ((i - off) % 4)))
              else readByte (s.m.ctxCore g.ctx core).spad i)
    ∧ (∀ t die, let va : DWord := BitVec.ofNat 64 (gIxb g.desc + 4 * (g.bag * gBsz g.desc))
      g.stop = none → g.bag < gNbag g.desc → g.out = [] → g.ahead = [] → commandReady s.m g.warp g.since = true → gBv g.desc = false → gBob g.desc = 0 → 0 < gBsz g.desc → fnFlt g.fn = true →
      va.toNat % 4 = 0 → Hit s g.ctx g.core va .read t true → paClass s t.pa = .hbm die → poisonedRange s.m t.pa 4 = false → gNrow g.desc ≤ bytesToNat (viewBytes s.m (dieOf g.core) t.pa 4) →
        ∃ u f, exec (.gatherBag id) s = .next u ∧ mget u.m.gathers id = some { g with stop := some (1, f, g.bag * gBsz g.desc) } ∧ u.m.ctxCores = s.m.ctxCores ∧ u.m.mem = s.m.mem)
    ∧ (∀ k v rest, g.queue = some k → g.out = v :: rest → gBv g.desc = false → ((s.m.ctxCore g.ctx g.core).queues.getD k .fresh).kind = 2 →
      ((s.m.ctxCore g.ctx g.core).queues.getD k .fresh).entries.length < 32 → k < (s.m.ctxCore g.ctx g.core).queues.length →
      (∀ e ∈ s.m.gathers, e.1 < id → e.2.core = g.core → e.2.ctx = g.ctx → e.2.queue ≠ some k) →
        ∃ u, exec (.gatherQueuePush id) s = .next u ∧ mget u.m.gathers id = some { g with out := rest } ∧ u.m.mem = s.m.mem
          ∧ ((u.m.ctxCore g.ctx g.core).queues.getD k .fresh).entries = ((s.m.ctxCore g.ctx g.core).queues.getD k .fresh).entries ++ [v]
          ∧ ∀ j, j ≠ k → (u.m.ctxCore g.ctx g.core).queues.getD j .fresh = (s.m.ctxCore g.ctx g.core).queues.getD j .fresh)
    ∧ (∀ status f index t die, let va : DWord := BitVec.ofNat 64 (gCra g.desc)
      g.stop.getD (0, plainFault .addr, 0) = (status, f, index) → (g.stop.isSome = true ∨ gNbag g.desc ≤ g.bag) → g.out = [] → va.toNat % 32 = 0 → Hit s g.ctx g.core va .write t true →
      paClass s t.pa = .hbm die → (∃ w ∈ s.m.allWarps, clusterOf w.1 = clusterOf g.core ∧ w.2.2.ctx = g.ctx) → status < 256 → s.m.arbiters.length = 3 → g.core < 288 →
      let record := natToBytes 4 (2 ^ 31 + status) ++ natToBytes 4 g.skip ++ natToBytes 4 g.dups ++ natToBytes 4 g.bag ++ natToBytes 4 g.empty
        ++ natToBytes 4 (if 1 ≤ status ∧ status ≤ 3 then index else 0) ++ natToBytes 4 (if status = 2 then causeCode f.cause + 256 * f.detail.toNat else 0) ++ natToBytes 4 0
      ∃ u m', exec (.gatherEnd id) s = .next u ∧ WroteAt s.m m' g.core t.pa (record.map some)
        ∧ (status = 0 → u = s.withM { m' with gathers := mdel s.m.gathers id })
        ∧ (status ≠ 0 → ∃ i e, u.m.gathers = mdel s.m.gathers id ∧ u.m.mem = m'.mem ∧ u.m.ctxCores = s.m.ctxCores ∧ e.type = 0x0A ∧ e.ctx = g.ctx
            ∧ (u.m.arbiters.getD (g.core / 144) .fresh).held = mset (s.m.arbiters.getD (g.core / 144) .fresh).held i e))

/-- R232 to R237: a sweep that passes its checks does its next element in sweep order: the element of each operand is read, the result written in its place; the word is done once the last is written and
holds its group until then, and lanes that come back to it go on at its saved element; a sweep without elements is done at once; a check that fails parks every active lane. -/
def Obligations.TileSweeps : Prop :=
  ∀ (s : State) (x : Ex) (d a : BitVec 8) (o : BitVec 5) (t : BitVec 3), s.ex? = some x →
    let dr := sweepRec x.w d.toNat x.low
    let ar := sweepRec x.w a.toNat x.low
    let start := match x.w.sweep with | some (pc, i, back) => if pc = x.pc ∧ back &&& x.g.lanes ≠ 0 then i else [0, 0, 0] | none => [0, 0, 0]
    let core := fun (r : SweepRec) => x.core / 8 * 8 + r.csel
    let n := if t.toNat = 0 ∨ t.toNat = 3 ∨ t.toNat = 4 then 4 else if t.toNat = 1 ∨ t.toNat = 2 then 2 else 1
    let finished := fun (u : State) (y : Ex) => WordRuns s x u y { Rest.same s x with w := { x.w with sweep := none } } ∧ FlowKept x y ∧ RegsKept x y ∧ y.r.latches = x.r.latches
    srcReady s.m x true [] ((List.range 4).map (· + d.toNat) ++ (List.range 4).map (· + a.toNat)) = .go → drained s.m x.w.uid = true →
      (∀ f, sweepReject s.m x t.toNat dr ar = some f → Plain x → x.w.sweep = none →
        ∃ u, exec (.tsweep d a o t) s = .next u ∧ AllParked s x u (fun _ => f) x.pc (boxOf s x))
      ∧ (sweepReject s.m x t.toNat dr ar = none → dr.ext 0 * dr.ext 1 * dr.ext 2 = 0 → start = [0, 0, 0] →
        ∃ u y, exec (.tsweep d a o t) s = .next u ∧ finished u y ∧ u.m.ctxCores = s.m.ctxCores)
      ∧ (∀ i0 i1 i2, sweepReject s.m x t.toNat dr ar = none → start = [i0, i1, i2] → i0 < dr.ext 0 → i1 < dr.ext 1 → i2 < dr.ext 2 →
        let i := [i0, i1, i2]
        (∀ c, (s.m.ctxCore x.w.ctx c).poisoned = [] ∧ (s.m.ctxCore x.w.ctx c).rounds = []) → tileHeld s.m x (core dr) (dr.elem i) n = false →
        let read := fun (r : SweepRec) => bytesToNat (readBytes (s.m.ctxCore x.w.ctx (core r)).spad (r.elem i) n)
        let result := sweepOp o.toNat t.toNat (read dr) (read ar)
        let next := if i0 + 1 < dr.ext 0 then some [i0 + 1, i1, i2] else if i1 + 1 < dr.ext 1 then some [0, i1 + 1, i2] else if i2 + 1 < dr.ext 2 then some [0, 0, i2 + 1] else none
        ∃ u y, exec (.tsweep d a o t) s = .next u
          ∧ (∀ c k, readByte (u.m.ctxCore x.w.ctx c).spad k =
              if c = core dr ∧ dr.elem i ≤ k ∧ k < dr.elem i + n then (natToBytes n result).getD (k - dr.elem i) 0 else readByte (s.m.ctxCore x.w.ctx c).spad k)
          ∧ (∀ c, { u.m.ctxCore x.w.ctx c with spad := [] } = { s.m.ctxCore x.w.ctx c with spad := [] })
          ∧ (next = none → finished u y)
          ∧ (∀ j, next = some j → u.ex? = some y ∧ y.r = { x.r with wait := .sweeping } ∧ RegsKept x y ∧ y.w.sweep = some (x.pc, j, x.g.lanes) ∧ machRest u.m = machRest s.m))

/-! Queues, slices, barriers, migration, the layer sequencer. -/

/-- R197, R198, R355, R356: `QBIND` empties its queue but for entries that a waiting word has read (R72), takes a port from the queue that held it, binds, and answers what it discarded; `SPAWN`
enqueues the slice its descriptor describes, with the core's next slice number, and answers 1, or 0 where the Registrar is full; a descriptor out of its limits parks with `RESERVED_FIELD`. That a slice's
number is the core's count before it is enqueued is the model's reading (log 65). -/
def Obligations.QueueBindingAndSpawn : Prop :=
  ∀ (s : State) (x : Ex) (d a : BitVec 8) (m : Mach), s.ex? = some x →
    (∀ (k q : BitVec 3), WordReady s x true [srcI a] false d 1 m → (boxOf s x).queues.length = 8 → (∀ p ∈ x.w.pends, p.kind ≠ .queueFed q.toNat) →
      let old := (boxOf s x).queues.getD q.toNat .fresh
      let value : Word := if k.toNat < 3 then 0 else arg (operands s x [srcI a] x.low) 0
      let emptied := fun (p : Queue) => p.entries.take p.readers.length
      let discarded := min (old.entries.length - old.readers.length - (if a.toNat = 0x88 + q.toNat then 1 else 0) + old.drops.toNat) (2 ^ 32 - 1)
      ∃ qs, UniformWords s x { Rest.same s x with box := { boxOf s x with queues := qs } } [srcI a] d 1 [BitVec.ofNat 32 discarded] (exec (.qbind d a k q) s)
        ∧ qs.length = 8 ∧ qs.getD q.toNat .fresh = { entries := emptied old, kind := k.toNat, arg := value, drops := 0, readers := old.readers }
        ∧ ∀ i < 8, i ≠ q.toNat → qs.getD i .fresh =
            let p := (boxOf s x).queues.getD i .fresh
            if (queuePort k.toNat value).isSome = true ∧ queuePort p.kind p.arg = queuePort k.toNat value then { entries := emptied p, kind := 0, arg := 0, drops := 0, readers := p.readers } else p)
    ∧ (∀ desc m', WordReady s x true [srcW a] false d 1 m →
      let va := (operands s x [srcW a] x.low).getD 0 0
      let field := fun (pos n : Nat) => bytesToNat ((desc.drop pos).take n)
      let named := coreNamed (s.ctx x.w.ctx) (field 54 2 / 2 ^ 8 % 2 * 144 + field 54 2 % 2 ^ 8)
      let target := if field 54 2 / 2 ^ 15 % 2 = 1 then named else x.core
      let home := m'.core target
      va.toNat % 64 = 0 → drained s.m x.w.uid = true → readMem s m x.w.ctx x.core va 64 = .ok desc m' →
        (spawnReserved s x.w.ctx desc named = false →
          (64 ≤ home.registrar.length →
            UniformWords s x { m := m', c := m'.core x.core, w := x.w, box := boxOf s x } [srcW a] d 1 [0] (exec (.spawn d a) s))
          ∧ (home.registrar.length < 64 →
            ∃ u y sl, exec (.spawn d a) s = .next u ∧ u.ex? = some y ∧ y.r = { x.r with pos := x.r.pos + 1, wait := .none, desc := [] }
              ∧ (isV d = true → Written x y d.toNat 1 (fun _ => [1])) ∧ (d = zeroSpec → RegsKept x y)
              ∧ (u.m.core target).registrar = home.registrar ++ [m'.nextId] ∧ (u.m.core target).sliceCount = home.sliceCount + 1 ∧ u.m.mem = m'.mem
              ∧ mget u.m.slices m'.nextId = some sl ∧ sl.core = target ∧ sl.number = home.sliceCount ∧ sl.grid = x.w.grid ∧ sl.ctx = x.w.ctx ∧ sl.spawned = true
              ∧ sl.entry = BitVec.ofNat 48 (field 0 8) ∧ sl.args = (List.range 8).map (fun i => BitVec.ofNat 32 (field (8 + 4 * i) 4)) ∧ sl.budget = BitVec.ofNat 32 (field 48 4)
              ∧ sl.warps = field 52 1 ∧ sl.lanes = field 53 1 ∧ sl.cwa = BitVec.ofNat 64 (field 56 8) ∧ sl.dispatched = false ∧ sl.expired = false
              ∧ (field 40 8 ≠ 0 → sl.deadline = BitVec.ofNat 64 (field 40 8))
              ∧ (∀ p, field 40 8 = 0 → mget s.m.slices x.w.slice = some p → sl.deadline = p.deadline)))
        ∧ (spawnReserved s x.w.ctx desc named = true → Plain x → m = s.m → m' = s.m →
          ∃ u, exec (.spawn d a) s = .next u ∧ AllParked s x u (fun _ => { cause := .reservedField, detail := 0, addr := 0 }) x.pc (boxOf s x)))

/-- R359: `BAR` parks with `ILLEGAL_OP` at a level that the grid does not have or whose domain is lane, dev or pod, and with `SELF_MASK` when an active lane is not a member; it waits until
every member lane has arrived; at a level of domain warp that completes the barrier, and when every warp of the unit has arrived every waiting group may go on and the warps' count rises; a group
that may go on takes its source and is done. -/
def Obligations.Barriers : Prop :=
  ∀ (s : State) (x : Ex) (a : BitVec 8) (k : BitVec 3), s.ex? = some x →
    let lv := k.toNat
    let record := gridRecord s.m x.w
    let mask := arg (operands s x [srcI a] x.low) 0
    let legal := lv < levelCount record ∧ levelDom record lv ≠ 0 ∧ levelDom record lv < 6
    let arrives := srcReady s.m x true [srcI a] = .go ∧ x.r.wait = .none ∧ legal ∧ x.g.lanes &&& mask = x.g.lanes ∧ drained s.m x.w.uid = true ∧ barWaits x.w lv = []
    (¬legal → x.r.wait = .none → srcReady s.m x true [srcI a] = .go → Plain x →
      ∃ u, exec (.bar a k) s = .next u ∧ AllParked s x u (fun _ => { cause := .illegalOp, detail := 0, addr := 0 }) x.pc (boxOf s x))
    ∧ (legal → x.r.wait = .none → srcReady s.m x true [srcI a] = .go → x.g.lanes &&& mask ≠ x.g.lanes → Plain x →
      ∃ u, exec (.bar a k) s = .next u ∧ AllParked s x u (fun _ => { cause := .selfMask, detail := 0, addr := BitVec.ofNat 48 mask.toNat }) x.pc (boxOf s x))
    ∧ (∀ sl, arrives → levelDom record lv = 1 → mget s.m.slices x.w.slice = some sl → msorted s.m.cores = true → msorted (s.m.core x.core).warps = true →
      s.m.allWarps.filter (fun e => e.2.2.uid == x.w.uid) = [(x.core, x.pos, x.w)] → (∀ e ∈ s.m.saved, ∀ sw ∈ e.2, sw.warp.uid ≠ x.w.uid) →
        ∃ u y, exec (.bar a k) s = .next u ∧ u.ex? = some y ∧ RegsKept x y ∧ u.m.mem = s.m.mem ∧ u.m.stores = s.m.stores
          ∧ ((∀ l < 32, inMask mask l = true → x.w.exited l = true ∨ inMask x.g.lanes l = true) →
              y.r = { x.r with wait := .released } ∧ warpRest y.w = warpRest { x.w with barriers := mset x.w.barriers lv (mgetD x.w.barriers lv 0 + 1) }
                ∧ (u.m.core x.core).l1 = if 3 ≤ levelScope record lv then [] else (s.m.core x.core).l1)
          ∧ ((∃ l < 32, inMask mask l = true ∧ x.w.exited l = false ∧ inMask x.g.lanes l = false) →
              y.r = { x.r with wait := .bar lv (mgetD x.w.barriers lv 0) mask } ∧ warpRest y.w = warpRest x.w))
    ∧ (∀ j c q us, x.r.wait = .bar j c q → barUnit s.m x.warp lv = some us → us.all (barArrived · lv) = true →
      ∃ u, exec (.bar a k) s = .next u ∧ u.m.mem = s.m.mem ∧ u.m.stores = s.m.stores ∧ u.m.ctxCores = s.m.ctxCores
        ∧ ∀ core pos w, s.m.warp? core pos = some w →
            ∃ v, u.m.warp? core pos = some v ∧ v.regs = w.regs ∧ v.pends = w.pends ∧ v.threads = w.threads
              ∧ ((∀ e ∈ us, e.uid ≠ w.uid) → v = w)
              ∧ ((∃ e ∈ us, e.uid = w.uid) → v.barriers = mset w.barriers lv (mgetD w.barriers lv 0 + 1)
                  ∧ ∀ (i : Nat) (g : Group) (r : Run) n e, w.groups[i]? = some g → g.run = some r → r.wait = .bar lv n e →
                      v.groups[i]? = some { g with run := some { r with wait := .released } }))
    ∧ (x.r.wait = .released → Done s x { Rest.same s x with box := takeSources (boxOf s x) x [srcI a] } (exec (.bar a k) s))

/-- R348, R349, R358: `YIELDJ` of a slice whose one warp stands there whole sets the deadline, reloads the budget counter and goes on, or, where a slice with an earlier deadline is queued and
nothing holds the warp, saves it, frees its slot and queues the slice again; the Registrar dispatches its head slice into the free slots, each warp as the table of R349 has it. That warp i takes the i-th lowest free
slot is the model's reading (log 76). -/
def Obligations.YieldAndDispatch : Prop :=
  ∀ (s : State),
    (∀ (x : Ex) (a : BitVec 8) sl, s.ex? = some x → x.r.wait = .none → srcReady s.m x true [srcW a] = .go → mget s.m.slices x.w.slice = some sl →
      (∀ l < 32, x.w.exited l = true ∨ inMask x.g.lanes l = true) → x.pos < 32 → sl.core = x.core → msorted s.m.cores = true → msorted (s.m.core x.core).warps = true →
      s.m.allWarps.filter (fun e => e.2.2.slice == x.w.slice) = [(x.core, x.pos, x.w)] → (∀ e ∈ s.m.saved, ∀ sw ∈ e.2, sw.warp.slice ≠ x.w.slice) →
      let given := (operands s x [srcW a] x.low).getD 0 0
      let deadline := if given = 0 then sl.deadline else given
      let earlier := ∃ e ∈ queuedSlices s s.m x.core, e.1 ≠ x.w.slice ∧ e.2.deadline.toNat < deadline.toNat
      x.w.slice ∉ (s.m.core x.core).registrar → (∀ q ∈ x.w.groups ++ x.w.hgroups, ∀ r, q.run = some r → r.wait ≠ .yield) →
        (¬earlier → Done s x { Rest.same s x with m := { s.m with slices := mset s.m.slices x.w.slice { sl with deadline := deadline, budcnt := sl.budget, expired := false } } } (exec (.yieldj a) s))
        ∧ (earlier → x.w.gang = none → x.w.pends = [] → x.w.levels = [] → (∀ c ∈ s.m.chains, ∀ d ∈ c.2.decls, d.warp = x.w.uid → d.isOpen = false) →
          (s.m.core x.core).registrar.length < 64 →
          ∃ u sl' w, exec (.yieldj a) s = .next u ∧ u.m.warp? x.core x.pos = none ∧ (u.m.core x.core).registrar = (s.m.core x.core).registrar ++ [x.w.slice]
            ∧ mget u.m.slices x.w.slice = some sl' ∧ sl'.saved = [w] ∧ sl'.dispatched = false ∧ sl'.deadline = deadline ∧ sl'.number = sl.number ∧ sl'.budcnt = sl.budget
            ∧ w.regs = x.w.regs ∧ w.threads = x.w.threads ∧ w.accstat = x.w.accstat ∧ u.m.mem = s.m.mem))
    ∧ (∀ core id sl, headSlice s s.m core = some (id, sl) → mget s.m.slices id = some sl → sl.core = core → sl.warps ≤ (freeSlots (s.m.core core)).length → sl.saved = [] → 8 * sl.warps ≤ freeRegs s.m core →
      (∀ e ∈ s.m.copies, (e.2.desc.getD 34 0).toNat / 16 % 4 ≠ 2) → sl.args.length = 8 →
        ∃ u, exec (.sliceDispatch core) s = .next u ∧ u.m.mem = s.m.mem ∧ (u.m.core core).registrar = (s.m.core core).registrar.filter (· ≠ id)
          ∧ (∃ sl', mget u.m.slices id = some sl' ∧ sl'.dispatched = true ∧ sl'.budcnt = sl.budget ∧ sl'.left = sl.warps)
          ∧ (∀ p, (∀ i < sl.warps, (freeSlots (s.m.core core))[i]? ≠ some p) → (u.m.warp? core p).map (·.regs) = (s.m.warp? core p).map (·.regs))
          ∧ ∀ i p, i < sl.warps → (freeSlots (s.m.core core))[i]? = some p → ∃ w, u.m.warp? core p = some w ∧ w.slice = id ∧ w.index = i ∧ w.homeSlot = p ∧ w.ctx = sl.ctx
              ∧ w.grid = sl.grid ∧ w.accstat = 0 ∧ w.termG = 32 ∧ w.termD = 1 ∧ w.groups = [Group.at_ (maskOf (List.range sl.lanes)) sl.entry 0]
              ∧ (∀ l < 32, (w.thread l).status = if l < sl.lanes then .running else .empty)
              ∧ (∀ r l, l < 32 → w.regLane r l = if r < 8 then sl.args.getD r 0 else 0)
              ∧ (∃ q ∈ (u.m.core core).pending, q.pos = p))

/-- R367 to R369: `MIGR` answers 1 on the address's home die, 0 where the warp must stay, and otherwise waits for a Homeroom there, out of its gang; shipping moves the warp with its registers
and threads, within 4,096 cy, into a free Homeroom of the core of its own number and empties its position; after 4,096 cy without one it answers 0. -/
def Obligations.Migration : Prop :=
  ∀ (s : State),
    (∀ (x : Ex) (d a : BitVec 8) m t, s.ex? = some x → WordReady s x true [srcW a] false d 1 m →
      let va := (operands s x [srcW a] x.low).getD 0 0
      let die := homeDie t.pa
      let mustStay := (∃ l < 32, x.w.exited l = false ∧ inMask x.g.lanes l = false) ∨ x.w.serial.isSome = true
        ∨ (∃ c ∈ s.m.chains, ∃ e ∈ c.2.decls, e.warp = x.w.uid ∧ e.isOpen = true) ∨ 2 ≤ die ∨ partitionCores s x.w.ctx die = []
      (∀ ok, x.r.wait = .migrated ok → UniformWords s x (.same s x) [srcW a] d 1 [if ok then 1 else 0] (exec (.migr d a) s))
      ∧ (x.r.wait = .none → Hit s x.w.ctx x.core va .read t →
        (die = x.core / 144 → UniformWords s x (.same s x) [srcW a] d 1 [1] (exec (.migr d a) s))
        ∧ (die ≠ x.core / 144 → mustStay → UniformWords s x (.same s x) [srcW a] d 1 [0] (exec (.migr d a) s))
        ∧ (die ≠ x.core / 144 → ¬mustStay → x.w.pends = [] → drained s.m x.w.uid = true →
          ∃ u y, exec (.migr d a) s = .next u ∧ u.ex? = some y ∧ y.r = { x.r with wait := .homeroom s.m.cy die } ∧ y.w.gang = none ∧ RegsKept x y ∧ u.m.mem = s.m.mem)))
    ∧ (∀ core pos since die w home, s.m.warp? core pos = some w → homeroomWait w = some (since, die) → since ≤ s.m.cy → s.m.cy ≤ since + 4096 → s.coreInPartition w.ctx (die * 144 + core % 144) = true →
      let target := die * 144 + core % 144
      (home = 32 ∨ home = 33) → s.m.warp? target home = none → (home = 33 → (s.m.warp? target 32).isSome = true) → target ≠ core → dieOf target = die →
      s.stopped w.ctx core = false → s.stopped w.ctx target = false → w.physRegs ≤ freeRegs s.m target →
      (s.m.ctxCore w.ctx target).sfq.length + ((s.m.ctxCore w.ctx core).sfq.filter (fun e => e.warp == w.uid)).length ≤ 16 →
        ∃ u v, exec (.migrShip core pos target) s = .next u ∧ u.m.warp? core pos = none ∧ u.m.warp? target home = some v ∧ v.regs = w.regs ∧ v.spilled = w.spilled ∧ v.threads = w.threads
          ∧ v.accstat = w.accstat ∧ v.termG = w.termG ∧ v.termD = w.termD ∧ v.homeSlot = w.homeSlot ∧ v.slice = w.slice ∧ u.m.mem = s.m.mem
          ∧ (∀ (i : Nat) (g : Group) (r : Run), w.groups[i]? = some g → g.run = some r → r.wait = .homeroom since die → v.groups[i]? = some { g with run := some { r with wait := .migrated true } })
          ∧ (∀ c p, (c, p) ≠ (core, pos) → (c, p) ≠ (target, home) → u.m.warp? c p = s.m.warp? c p))
    ∧ (∀ core pos since die w, s.m.warp? core pos = some w → homeroomWait w = some (since, die) →
      (s.m.cy < since + 4096 → exec (.migrTimeout core pos) s = .next s)
      ∧ (since + 4096 ≤ s.m.cy → ∃ u v, exec (.migrTimeout core pos) s = .next u ∧ u.m.warp? core pos = some v ∧ v.regs = w.regs ∧ v.threads = w.threads ∧ u.m.mem = s.m.mem
          ∧ ∀ (i : Nat) (g : Group) (r : Run), w.groups[i]? = some g → g.run = some r → r.wait = .homeroom since die → v.groups[i]? = some { g with run := some { r with wait := .migrated false } }))

/-- R361, R363 to R366: `SEQLD` loads a table that passes its checks into a stopped sequencer and `SEQGO` starts it at an entry, each answering 0 while it runs; a step applies the entry's
counter action and goes on at NT or NF as its TEST has it, stops at a stop entry with a status word, and executes a word as the uniform instruction does, on `s0` to `s15`. That a stop
whose status word has still to reach its mailbox counts as running is the model's reading (log 62). -/
def Obligations.LayerSequencer : Prop :=
  ∀ (s : State),
    (∀ (x : Ex) (d a : BitVec 8) m, s.ex? = some x →
      let q := (boxOf s x).seq
      let busy := q.running = true ∨ q.stopping.isSome = true
      (WordReady s x true [srcW a] false d 1 m →
        (busy → UniformWords s x (.same s x) [srcW a] d 1 [0] (exec (.seqld d a) s))
        ∧ (∀ h m1 bs m2, let va := (operands s x [srcW a] x.low).getD 0 0
            let n := bytesToNat (h.take 2)
            ¬busy → va.toNat % 64 = 0 → drained s.m x.w.uid = true → readMem s m x.w.ctx x.core va 96 = .ok h m1 → seqHeaderReserved h = false →
            readEntries s x.w.ctx x.core va n 0 m1 = .ok bs m2 → seqReject n bs = none → ∃ q' : Sequencer,
              UniformWords s x { m := m2, c := m2.core x.core, w := x.w, box := { boxOf s x with seq := q' } } [srcW a] d 1 [BitVec.ofNat 32 n] (exec (.seqld d a) s)
                ∧ q'.table = bs.map seqEntry ∧ q'.running = false ∧ q'.current = 0
                ∧ q'.regs = (List.range 16).map (fun i => BitVec.ofNat 32 (bytesToNat ((h.drop (32 + 4 * i)).take 4)))
                ∧ q'.counters = (List.range 4).map (fun i => BitVec.ofNat 32 (bytesToNat ((h.drop (8 + 4 * i)).take 4))) ∧ q'.cini = q'.counters))
      ∧ (WordReady s x true [srcI a] false d 1 m → let e := (arg (operands s x [srcI a] x.low) 0).toNat
        (busy ∨ q.table = [] → UniformWords s x (.same s x) [srcI a] d 1 [0] (exec (.seqgo d a) s))
        ∧ (¬busy → q.table ≠ [] → e < q.table.length → drained s.m x.w.uid = true →
          ∃ known, UniformWords s x { Rest.same s x with
              box := { boxOf s x with seq := { q with running := true, current := e, phase := 0, grid := x.w.grid, sweep := none, remote := none, know := known } } } [srcI a] d 1 [1] (exec (.seqgo d a) s))
        ∧ (¬busy → q.table ≠ [] → q.table.length ≤ e → Plain x → m = s.m →
          ∃ u, exec (.seqgo d a) s = .next u ∧ AllParked s x u (fun _ => { cause := .reservedField, detail := 0, addr := 0 }) x.pc (boxOf s x))))
    ∧ (∀ ctx core e, let q := s.m.seq ctx core
      s.stopped ctx core = false → q.stopping = none → q.running = true → q.table[q.current]? = some e → q.phase = 0 →
      let box := s.m.ctxCore ctx core
      let moved := fun (u : State) (q' : Sequencer) => u.m.ctxCore ctx core = { box with seq := q' } ∧ machRest u.m = machRest s.m ∧ u.m.cores = s.m.cores
      let count := fun (e : SeqEntry) => let c := q.counters.getD e.ck 0
        if e.ca = 1 then q.counters.set e.ck (if c = 0 then 0 else c - 1) else if e.ca = 2 then q.counters.set e.ck (q.cini.getD e.ck 0) else q.counters
      (e.kind = 1 → e.wt = false → e.test ≤ 2 → ∃ u, exec (.sequencerStep ctx core) s = .next u
        ∧ moved u { q with counters := count e, phase := 0, current :=
            if e.test = 0 ∨ (e.test = 1 ∧ (count e).getD e.ck 0 ≠ 0) ∨ (e.test = 2 ∧ (count e).getD e.ck 0 = 0) then e.nt else e.nf })
      ∧ (∀ k, e.kind = 2 → q.smv = some k → ∃ u, exec (.sequencerStep ctx core) s = .next u
        ∧ moved u { q with running := false, phase := 0, sweep := none, remote := none, stopping := some (BitVec.ofNat 32 (q.current * 256)) })
      ∧ (∀ (d a b : BitVec 8), d.toNat < 16 → a.toNat < 16 → b.toNat < 16 → e.kind = 0 → e.word = (BitVec.ofNat 32 (0x80000000 + 65536 * d.toNat + 256 * a.toNat + b.toNat)) →
        e.wt = false → e.test = 0 → e.ca = 0 → q.regs.length = 16 → q.sweep = none → q.remote = none → s.m.warp? core (34 + ctx) = none →
        ∃ u, exec (.sequencerStep ctx core) s = .next u ∧ u.m.mem = s.m.mem
          ∧ u.m.ctxCore ctx core = { box with seq := { q with regs := q.regs.set d.toNat (q.regs.getD a.toNat 0 + q.regs.getD b.toNat 0), phase := 0, current := e.nt } }))
    ∧ (∀ ctx core v k, let q := s.m.seq ctx core
      s.stopped ctx core = false → q.stopping = some v → q.smv = some k → let b := (s.m.ctxCore ctx core).mailboxes.getD k .fresh
      b.full = false → b.writers = [] → k < (s.m.ctxCore ctx core).mailboxes.length → (∃ w ∈ s.m.allWarps, clusterOf w.1 = clusterOf core ∧ w.2.2.ctx = ctx) →
        ∃ u known, exec (.sequencerStep ctx core) s = .next u ∧ (u.m.ctxCore ctx core).mailboxes.getD k .fresh = { b with value := v, full := true, know := known } ∧ (u.m.seq ctx core).stopping = none
          ∧ machRest u.m = machRest s.m ∧ u.m.cores = s.m.cores)

/-! System instructions. -/

/-- R344, R384, R385: `SRD` delivers each listed register, CORE as the context's core map has it, LIDX at every level by its domain, PMASK over every handler group; numbers from 0x40 up park with `ILLEGAL_OP`; `SWR` writes ACCSTAT's three bits, the context's HVEC with its low and high bits cleared, and
the lane registers of each active lane, RPC in handler mode alone, and a register it may not write parks; `TIME` delivers the counter. -/
def Obligations.SystemRegisters : Prop :=
  ∀ (s : State) (x : Ex) (d a f : BitVec 8) (m : Mach), s.ex? = some x →
    (WordReady s x false [] false d 1 m →
      let c := s.ctx x.w.ctx
      let reads := fun (v : Nat → Word) => ∃ u y, exec (.srd d f) s = .next u ∧ Delivered s x u y (.same s x) [] false d 1 (fun l => [v l]) ∧ y.r.latches = x.r.latches
      let half := fun (v : DWord) (high : Bool) => if high then (v >>> 32).setWidth 32 else v.setWidth 32
      let mine := ((boxOf s x).sfq.filter (fun e => e.warp == x.w.uid)).length
      let all := (boxOf s x).sfq.length
      (f = 0x00 → reads (fun _ => x.w.accstat))
      ∧ (f = 0x01 → let seen := mgetD c.coreMap x.core x.core
          reads (fun _ => BitVec.ofNat 32 (seen / 144 * 256 + seen % 144)))
      ∧ (f = 0x02 → reads (fun _ => BitVec.ofNat 32 c.partition))
      ∧ (f = 0x03 → x.w.ctx < 2 ^ 16 → reads (fun _ => BitVec.ofNat 32 x.w.ctx))
      ∧ (f = 0x04 → reads (fun _ => if c.priv then 1 else 0))
      ∧ (∀ sl, mget s.m.slices x.w.slice = some sl →
          (f = 0x10 ∨ f = 0x11 → reads (fun _ => half sl.number (f == 0x11)))
          ∧ (f = 0x12 ∨ f = 0x13 → reads (fun _ => half sl.deadline (f == 0x13)))
          ∧ (f = 0x14 → reads (fun _ => sl.budcnt))
          ∧ (8 ≤ f.toNat → f.toNat < 16 → let k := f.toNat - 8
              let dom := levelDom (gridRecord s.m x.w) k
              (levelCount (gridRecord s.m x.w) ≤ k → reads (fun _ => 0))
              ∧ (k < levelCount (gridRecord s.m x.w) →
                (dom = 0 → reads (fun l => BitVec.ofNat 32 l))
                ∧ (0 < dom → sl.spawned = true → reads (fun _ => 0))
                ∧ (0 < dom → sl.spawned = false → reads (fun _ => BitVec.ofNat 32 (
                    if dom = 1 then (if sl.perGang = 0 then x.w.index else x.w.index % sl.perGang) else if dom = 2 then x.w.index / sl.perGang else sl.path.getD k 0))))))
      ∧ (f = 0x18 ∨ f = 0x19 → reads (fun _ => half c.hvec (f == 0x19)))
      ∧ (f = 0x1A ∨ f = 0x1B → reads (fun l => half (x.w.thread l).rpc (f == 0x1B)))
      ∧ (f = 0x1C → reads (fun l => (x.w.thread l).hs0)) ∧ (f = 0x1D → reads (fun l => (x.w.thread l).hs1))
      ∧ (f = 0x1E → reads (fun _ => BitVec.ofNat 32 ((if x.w.handler then 1 else 0) + (if c.debug then 2 else 0))))
      ∧ (f = 0x1F → ∃ v : Word, reads (fun _ => v) ∧ ∀ l < 32, inMask v l = x.w.hgroups.any (fun g => inMask g.lanes l))
      ∧ (f = 0x20 → mine < 32 → all ≤ 16 → reads (fun _ => BitVec.ofNat 32 (mine + 2 ^ 8 * all + (if all = 16 then 2 ^ 16 else 0))))
      ∧ (0x40 ≤ f.toNat → Plain x → m = s.m → ∃ u, exec (.srd d f) s = .next u ∧ AllParked s x u (fun _ => { cause := .illegalOp, detail := 0, addr := 0 }) x.pc (boxOf s x)))
    ∧ (srcReady s.m x false [srcI a] = .go →
      let v := fun (l : Nat) => arg (operands s x [srcI a] l) 0
      let c := s.ctx x.w.ctx
      let e := { Rest.same s x with box := takeSources (boxOf s x) x [srcI a] }
      let lanes := fun (t : Nat → Thread → Thread) => ∃ ts, Done s x { e with w := { x.w with threads := ts } } (exec (.swr a f) s)
        ∧ ∀ l < 32, ts.getD l .none = if inMask x.g.lanes l then t l (x.w.thread l) else x.w.thread l
      (f = 0x00 → Done s x { e with w := { x.w with accstat := v x.low &&& 7 } } (exec (.swr a f) s))
      ∧ (f = 0x18 ∨ f = 0x19 → mget s.contexts x.w.ctx = some c → ∃ u, exec (.swr a f) s = .next u
          ∧ u.contexts = mset s.contexts x.w.ctx { c with hvec := (if f = 0x18 then (c.hvec >>> 32).setWidth 32 ++ v x.low else v x.low ++ c.hvec.setWidth 32) &&& 0x0000FFFFFFFFFFFC }
          ∧ Done s x e (.next { u with contexts := s.contexts }))
      ∧ (x.w.handler = true → f = 0x1A → lanes (fun l t => { t with rpc := ((t.rpc >>> 32).setWidth 32 ++ v l) &&& 0x0000FFFFFFFFFFFC }))
      ∧ (x.w.handler = true → f = 0x1B → lanes (fun l t => { t with rpc := (v l ++ t.rpc.setWidth 32) &&& 0x0000FFFFFFFFFFFC }))
      ∧ (f = 0x1C → lanes (fun l t => { t with hs0 := v l })) ∧ (f = 0x1D → lanes (fun l t => { t with hs1 := v l }))
      ∧ (f.toNat ∉ [0x00, 0x18, 0x19, 0x1C, 0x1D] → (f = 0x1A ∨ f = 0x1B → x.w.handler = false) → Plain x →
          ∃ u, exec (.swr a f) s = .next u ∧ AllParked s x u (fun _ => { cause := .illegalOp, detail := 0, addr := 0 }) x.pc (boxOf s x)))
    ∧ (WordReady s x true [] false d 2 m → UniformWords s x (.same s x) [] d 2 [s.counter.setWidth 32, (s.counter >>> 32).setWidth 32] (exec (.time d) s))

/-- R377, R378, R383: `FREC` gives each active lane its own record, or zeros; `RTE` outside the handler parks with `ILLEGAL_OP` and in it discards each active lane's record and sends the lane to
its RPC, where a sweep that stopped there goes on in it (R237); `SFQPOP` takes the oldest reported entry of the warp, or gives zeros; `TERMW` removes a warp of the context on the core and answers 1, or 0 where there is none, and of the executing
warp leaves nothing. -/
def Obligations.HandlerInstructions : Prop :=
  ∀ (s : State) (x : Ex) (d a : BitVec 8) (m : Mach), s.ex? = some x →
    let words := fun (n : Nat) => (List.range 4).map (fun i => BitVec.ofNat 32 (n / 2 ^ (32 * i)))
    let bits := fun (r : Record) (slot kind : Nat) => r.addr.toNat + kind * 2 ^ 52 + r.detail.toNat * 2 ^ 56 + causeCode r.cause * 2 ^ 64 + slot * 2 ^ 72 + r.run % 32 * 2 ^ 77 + r.pc.toNat / 4 * 2 ^ 82
    (WordReady s x false [] false d 4 m → (∀ l r, (x.w.thread l).record = some r → r.imp = false) →
      ∃ u y, exec (.frec d) s = .next u ∧ Delivered s x u y (.same s x) [] false d 4 (fun l => match (x.w.thread l).record with | some r => words (bits r 0 0) | none => words 0)
        ∧ y.r.latches = x.r.latches)
    ∧ (x.hand = false → Plain x → ∃ u, exec .rte s = .next u ∧ AllParked s x u (fun _ => { cause := .illegalOp, detail := 0, addr := 0 }) x.pc (boxOf s x))
    ∧ (x.hand = true → ∃ u y ts sweep, exec .rte s = .next u ∧ WordDone s x u y { Rest.same s x with w := { x.w with threads := ts, sweep := sweep } } ∧ RegsKept x y ∧ y.r.latches = x.r.latches
        ∧ (x.w.sweep = none → sweep = none)
        ∧ (∀ pc i back, x.w.sweep = some (pc, i, back) → ∃ b, sweep = some (pc, i, b)
            ∧ ∀ l < 32, inMask b l = if inMask x.g.lanes l then (x.w.thread l).rpc.setWidth 48 == pc else inMask back l)
        ∧ (∀ l < 32, ts.getD l .none = if inMask x.g.lanes l then { x.w.thread l with status := .running, record := none, entered := false } else x.w.thread l)
        ∧ (∀ l < 32, mget y.r.nextPc l = if inMask x.g.lanes l then some ((x.w.thread l).rpc.setWidth 48) else mget x.r.nextPc l)
        ∧ y.g.depth = x.g.depth)
    ∧ (WordReady s x true [] false d 4 m →
      let mine := fun (e : SfqEntry) => e.warp = x.w.uid ∧ e.reported = true
      ((∀ e ∈ (boxOf s x).sfq, ¬mine e) → UniformWords s x (.same s x) [] d 4 (words 0) (exec (.sfqpop d) s))
      ∧ (∀ before e after, (boxOf s x).sfq = before ++ e :: after → (∀ o ∈ before, ¬mine o) → mine e →
          UniformWords s x { Rest.same s x with box := { boxOf s x with sfq := before ++ after } } [] d 4 (words (bits e.entry (e.entry.slot % 32) (e.entry.kind % 16))) (exec (.sfqpop d) s)))
    ∧ (WordReady s x true [srcI a] false d 1 m →
      let t := (arg (operands s x [srcI a] x.low) 0).toNat
      (34 ≤ t → t ≠ 2 ^ 32 - 1 → Plain x → m = s.m → ∃ u, exec (.termw d a) s = .next u ∧ AllParked s x u (fun _ => { cause := .illegalOp, detail := 0, addr := 0 }) x.pc (boxOf s x))
      ∧ (t < 34 → t ≠ x.pos → (∀ w, s.m.warp? x.core t = some w → w.ctx ≠ x.w.ctx) → UniformWords s x (.same s x) [srcI a] d 1 [0] (exec (.termw d a) s))
      ∧ (∀ w, t < 34 → t ≠ x.pos → s.m.warp? x.core t = some w → w.ctx = x.w.ctx → (∀ lv ∈ w.levels, lv.provEntry = []) →
          ∃ u y, exec (.termw d a) s = .next u ∧ u.m.warp? x.core t = none ∧ u.ex? = some y ∧ y.r = { x.r with pos := x.r.pos + 1, wait := .none, desc := [] }
            ∧ (isV d = true → Written x y d.toNat 1 (fun _ => [1])) ∧ u.m.mem = s.m.mem ∧ (∀ st ∈ s.m.stores, st ∈ u.m.stores))
      ∧ (t = 2 ^ 32 - 1 ∨ t = x.pos → x.pos < 34 → ∃ u, exec (.termw d a) s = .next u ∧ u.m.warp? x.core x.pos = none ∧ u.m.mem = s.m.mem
          ∧ (∀ st ∈ s.m.stores, st ∈ u.m.stores) ∧ (∀ p, p ≠ x.pos → (u.m.warp? x.core p).map (fun w => (w.regs, w.threads)) = (s.m.warp? x.core p).map (fun w => (w.regs, w.threads)))))

/-! The command processors, the work distributor, pre-emption, resets, boot, events, accesses from outside. -/

/-- R340, R345, R390, R391: the command processor takes the entry at HEAD and HEAD moves on, modulo the ring; a no-op does nothing else; a launch whose record passes its checks becomes a
waiting grid with the deadline of R340, its status word 0, and one that fails is rejected with its class, index and field; an entry that cannot be read or is out of order stops the queue with ERR
and an event of type 0x05, until it is restarted; a TAIL write that would pass HEAD is ignored. Reading "would pass HEAD" as an index nearer to HEAD than TAIL is the model's
(log 79), and so is that HEAD stays at the entry that stopped the queue and a restart, which clears ERR, takes that entry again (log 67). -/
def Obligations.CommandQueues : Prop :=
  ∀ (s : State) (k : Nat), s.m.arbiters.length = 3 →
    let q := s.m.queue k
    let a := q.base + 64 * q.head.toNat
    let size := 2 ^ q.logSize
    let ready := q.bound = true ∧ q.err.toNat < 2 ^ 31 ∧ q.head ≠ q.tail
    let next := BitVec.ofNat 32 ((q.head.toNat + 1) % size)
    let stops := fun (out : Host.Outcome State Fault Refusal) => ∃ u i ev, out = .next u ∧ u = s.withM u.m ∧ u.m.queue k = { q with err := BitVec.ofNat 32 (2 ^ 31 + q.head.toNat) }
      ∧ (∀ j, j ≠ k → u.m.queue j = s.m.queue j) ∧ u.m.mem = s.m.mem ∧ u.m.cores = s.m.cores ∧ u.m.grids = s.m.grids
      ∧ (u.m.arbiters.getD 2 .fresh).held = mset (s.m.arbiters.getD 2 .fresh).held i ev ∧ ev.type = 0x05 ∧ ev.src = 2
    (¬ready → exec (.noOpCommand k) s = .next s ∧ exec (.launch k) s = .next s)
    ∧ (a + 64 ≤ 0x6000000000 → poisonedRange s.m a 64 = true → queueEntry s q = (none, s.m))
    ∧ (a + 64 ≤ 0x6000000000 → poisonedRange s.m a 64 = false → ∃ die < 3, queueEntry s q = (some (viewBytes s.m die a 64), { s.m with free := s.m.free + 1 }))
    ∧ (paClass s a = .reserved → queueEntry s q = (none, s.m))
    ∧ (∀ m0, ready → queueEntry s q = (none, m0) → stops (exec (.noOpCommand k) s) ∧ stops (exec (.launch k) s))
    ∧ (∀ e m0, ready → queueEntry s q = (some e, m0) →
      let field := fun (pos n : Nat) => bytesToNat ((e.drop pos).take n)
      let clean := field 1 3 = 0 ∧ field 6 2 = 0 ∧ field 24 40 = 0
      let known := ∃ c, mget s.contexts (field 4 2) = some c ∧ c.partition = q.partition
      let lra := BitVec.ofNat 64 (field 8 8)
      let sta := BitVec.ofNat 64 (field 16 8)
      let good := field 0 1 ≤ 1 ∧ clean ∧ known ∧ field 16 8 % 8 = 0 ∧ field 8 8 % 64 = 0
      let s0 := s.withM m0
      (¬good → stops (exec (.noOpCommand k) s) ∧ stops (exec (.launch k) s))
      ∧ (good → field 0 1 = 0 → exec (.launch k) s = .next s
          ∧ ∃ qs, exec (.noOpCommand k) s = .next (s.withM { m0 with queues := qs }) ∧ mget qs k = some { q with head := next } ∧ ∀ j, j ≠ k → mget qs j = mget m0.queues j)
      ∧ (good → field 0 1 = 1 → exec (.noOpCommand k) s = .next s ∧
        ∀ m1, writeMem s0 m0 (field 4 2) frontCore sta (natToBytes 8 0) = .ok () m1 →
          (∀ r m2, readMem s0 m1 (field 4 2) frontCore lra 384 = .ok r m2 → recordReject s0 m2 (field 4 2) r = none →
            ∃ u g, exec (.launch k) s = .next u ∧ u = s.withM u.m ∧ u.m.mem = m2.mem ∧ u.m.cores = m2.cores ∧ u.m.grids = mset m2.grids m2.nextId g
              ∧ (∀ c, mget m2.queues k = some c → mget u.m.queues k = some { c with head := next }) ∧ (∀ j, j ≠ k → mget u.m.queues j = mget m2.queues j)
              ∧ g.queue = k ∧ g.ctx = field 4 2 ∧ g.record = r ∧ g.phase = .waiting ∧ g.placed = 0 ∧ g.sta = sta
              ∧ g.deadline.toNat = min (s.counter.toNat + bytesToNat ((r.drop 40).take 8)) (2 ^ 64 - 1))
          ∧ (∀ r m2 rej m3, readMem s0 m1 (field 4 2) frontCore lra 384 = .ok r m2 → recordReject s0 m2 (field 4 2) r = some rej →
            writeMem s0 { m2 with free := m2.free + 1 } (field 4 2) frontCore sta (natToBytes 8 (3 * 2 ^ 30 + rej.1 * 2 ^ 16 + rej.2.1 * 2 ^ 8 + rej.2.2)) = .ok () m3 →
              ∃ u, exec (.launch k) s = .next u ∧ u = s.withM u.m ∧ u.m.mem = m3.mem ∧ u.m.cores = m3.cores ∧ u.m.grids = m3.grids
                ∧ (∀ c, mget m3.queues k = some c → mget u.m.queues k = some { c with head := next }))
          ∧ (∀ f m2 m3, readMem s0 m1 (field 4 2) frontCore lra 384 = .fault f m2 → writeMem s0 m2 (field 4 2) frontCore sta (natToBytes 8 (3 * 2 ^ 30 + 5 * 2 ^ 16 + f.detail.toNat)) = .ok () m3 →
              ∃ u, exec (.launch k) s = .next u ∧ u = s.withM u.m ∧ u.m.mem = m3.mem ∧ u.m.cores = m3.cores ∧ u.m.grids = m3.grids)))
    ∧ (∀ v : Word, let ahead := (v.toNat + size - q.head.toNat) % size
        let pending := (q.tail.toNat + size - q.head.toNat) % size
        ∃ u, exec (.tail k v) s = .next (s.withM { s.m with queues := u }) ∧ (∀ j, j ≠ k → mget u j = mget s.m.queues j)
          ∧ mget u k = some (if v.toNat < size ∧ pending ≤ ahead then { q with tail := v } else q))
    ∧ (∃ u, exec (.queueRestart k) s = .next (s.withM { s.m with queues := u }) ∧ (∀ j, j ≠ k → mget u j = mget s.m.queues j)
        ∧ mgetD u k .fresh = (if 2 ^ 31 ≤ q.err.toNat then { q with err := 0 } else q))

/-- R314, R340, R344, R346, R347: a waiting grid is handed over with status 1, one with DEP = 1 only once the grids launched before it from its queue have ended; the next unit of a grid goes
to cores that can take its slices, unless a grid with an earlier deadline comes first, and the slices of a co-resident unit dispatch at once; a grid whose work is over ends: status 2, every write applied by
every die, every L1 empty, no fetched word kept, an event of type 0x06 with the status word. A slice's number is the core's count before it is enqueued (log 65); when a grid's work is over is
log 70: both are the model's. -/
def Obligations.GridsPlacedAndEnded : Prop :=
  ∀ (s : State) (id : Nat) (g : Grid), mget s.m.grids id = some g →
    let dep := (g.record.getD 57 0).toNat % 2 = 1
    let held := dep ∧ ∃ e ∈ s.m.grids, e.2.queue = g.queue ∧ e.2.order < g.order ∧ e.2.phase ≠ .ended
    (g.phase = .waiting → ¬held → ∀ m, writeMem s s.m g.ctx frontCore g.sta (natToBytes 8 (2 ^ 30)) = .ok () m →
      ∃ u, exec (.gridHandoff id) s = .next u ∧ u = s.withM { m with grids := u.m.grids, cores := u.m.cores } ∧ (∀ c, u.m.core c = { m.core c with code := [] })
        ∧ ∀ h, mget m.grids id = some h → u.m.grids = mset m.grids id { h with phase := .placing })
    ∧ (g.phase ≠ .waiting ∨ held → exec (.gridHandoff id) s = .next s)
    ∧ (∀ cores, let size := unitSize g.record (placeLevel g.record)
        let first := ∃ e ∈ s.m.grids, (s.ctx e.2.ctx).partition = (s.ctx g.ctx).partition ∧ canPlace s s.m e.1 e.2 = true
          ∧ (e.2.deadline.toNat < g.deadline.toNat ∨ (e.2.deadline = g.deadline ∧ e.2.order < g.order))
        let fits := g.phase = .placing ∧ g.placed < g.total ∧ cores.length = size ∧ cores.Nodup ∧ (∀ c ∈ cores, coreUsable s s.m id g c = true)
          ∧ coresAgree g.record (g.placed * size) cores (slicesThere s.m id g) = true
        (¬fits ∨ first → exec (.unitPlacement id cores) s = .next s)
        ∧ (fits → ¬first → ∃ u, exec (.unitPlacement id cores) s = .next u ∧ u = s.withM u.m ∧ u.m.mem = s.m.mem ∧ u.m.stores = s.m.stores
            ∧ (∃ h, mget u.m.grids id = some h ∧ { h with dies := g.dies } = { g with placed := g.placed + 1 })
            ∧ ∀ (i c : Nat), cores[i]? = some c → ∃ sl, mget u.m.slices (s.m.nextId + i) = some sl ∧ sl.grid = id ∧ sl.ctx = g.ctx ∧ sl.core = c ∧ sl.number = (s.m.core c).sliceCount
                ∧ sl.entry = BitVec.ofNat 48 (bytesToNat (g.record.take 8)) ∧ sl.deadline = g.deadline ∧ sl.spawned = false
                ∧ (coreLevel g.record < placeLevel g.record → sl.dispatched = true ∧ (u.m.core c).registrar = ((s.m.core c).registrar ++ [s.m.nextId + i]).filter (· ≠ s.m.nextId + i))
                ∧ (¬coreLevel g.record < placeLevel g.record → sl.dispatched = false ∧ (u.m.core c).registrar = (s.m.core c).registrar ++ [s.m.nextId + i])))
    ∧ (gridDone s.m id g = true → ∀ m, writeMem s (kernelBoundary s.m) g.ctx frontCore g.sta (natToBytes 8 (2 * 2 ^ 30)) = .ok () m → m.arbiters.length = 3 →
      ∃ u ev, exec (.gridEnd id) s = .next u ∧ u = s.withM u.m ∧ u.m.mem = m.mem ∧ u.m.slices = m.slices ∧ (∀ c, (u.m.core c).l1 = [] ∧ (u.m.core c).code = []) ∧ u.m.late = [] ∧ (∀ c p, u.m.warp? c p = m.warp? c p)
        ∧ mget u.m.grids id = (mget m.grids id).map (fun h => { h with phase := .ended })
        ∧ (u.m.arbiters.getD 2 .fresh).held = mset (m.arbiters.getD 2 .fresh).held m.nextId ev ∧ ev.type = 0x06 ∧ ev.ctx = g.ctx ∧ ev.pay.take 8 = natToBytes 8 (2 * 2 ^ 30))
    ∧ ((∃ e ∈ s.m.slices, e.2.grid = id) → exec (.gridEnd id) s = .next s)

/-- R386, R387: a pre-emption request stops issue on the core it names; once the context's stores there, begun term steps and sends are over, its warps are saved as they stand, in the middle of
a run with its latches and decided targets, and its pins and L1 are dropped; on resumption each warp stands at its position again, on the core that takes its core's place, as it was saved but for
its counts of runs; where no placement finds physical registers the resumption waits. That a run cut in its middle keeps its latches and decided targets, which R387's table lists as dropped, is the
model's (log 81); so are the places of resumption (log 75). -/
def Obligations.PreemptionAndResume : Prop :=
  ∀ (s : State) (ctx : Nat) (c : Context), mget s.contexts ctx = some c →
    (∀ k, s.coreInPartition ctx k = true → k ∉ c.halted →
      (k ∉ c.halting → exec (.preemptionRequest ctx [k]) s = .next { s with contexts := mset s.contexts ctx { c with halting := c.halting ++ [k] } })
      ∧ (k ∈ c.halting → haltReady s.m ctx [k] = false → exec (.preemptionRequest ctx [k]) s = .next s)
      ∧ (k ∈ c.halting → haltReady s.m ctx [k] = true → msorted (s.m.core k).warps = true →
        ∃ u sws, exec (.preemptionRequest ctx [k]) s = .next u ∧ u = { s with contexts := u.contexts, m := u.m } ∧ u.m.mem = s.m.mem ∧ u.m.stores = s.m.stores
          ∧ u.contexts = mset s.contexts ctx { c with halting := c.halting.filter (fun j => j ≠ k), halted := c.halted ++ [k] }
          ∧ u.m.saved = mset s.m.saved ctx (mgetD s.m.saved ctx [] ++ sws) ∧ (u.m.core k).l1 = [] ∧ (u.m.ctxCore ctx k).pins = []
          ∧ { u.m.ctxCore ctx k with pins := [] } = { s.m.ctxCore ctx k with pins := [] } ∧ (∀ j, j ≠ k → u.m.core j = s.m.core j)
          ∧ (∀ p w, s.m.warp? k p = some w → w.ctx ≠ ctx → u.m.warp? k p = some w)
          ∧ ∀ p w, s.m.warp? k p = some w → w.ctx = ctx → u.m.warp? k p = none
              ∧ ∃ v ∈ sws, v.core = k ∧ v.pos = p ∧ v.warp = w))
    ∧ (∀ cores, let ps := c.halted.zip cores
        let f := coreFn ps
        let sws := mgetD s.m.saved ctx []
        c.halted ≠ [] → cores.length = c.halted.length → mayMove s s.m ctx ps = true → buffersFit s ctx ps = true → (∀ sw ∈ sws, s.m.warp? (f sw.core) sw.pos = none) →
        let moved := if cores = c.halted then s.m else moveContext s.m ctx f
        (restorePlaces moved f sws = none → exec (.contextResume ctx cores) s = .next s)
        ∧ ((sws.map (fun sw => (f sw.core, sw.pos))).Nodup → (∀ k, ((sws.filter (fun sw => f sw.core == k)).map (fun sw => sw.warp.physRegs)).sum ≤ freeRegs moved k) →
          ∃ u d, exec (.contextResume ctx cores) s = .next u ∧ u.m.mem = s.m.mem ∧ u.contexts = mset s.contexts ctx d ∧ { d with coreMap := c.coreMap } = { c with halted := [] }
            ∧ mget u.m.saved ctx = none ∧ (cores = c.halted → ∀ j, mgetD d.coreMap j j = mgetD c.coreMap j j)
            ∧ ∀ sw ∈ sws, ∃ w, u.m.warp? (f sw.core) sw.pos = some w ∧ w.uid = sw.warp.uid ∧ w.regs = sw.warp.regs ∧ w.spilled = sw.warp.spilled ∧ w.threads = sw.warp.threads ∧ w.accstat = sw.warp.accstat
                ∧ w.termG = sw.warp.termG ∧ w.termD = sw.warp.termD ∧ w.pends = sw.warp.pends ∧ w.handler = sw.warp.handler ∧ w.gang = sw.warp.gang ∧ w.slice = sw.warp.slice
                ∧ w.groups = sw.warp.groups.map (fun g => { g with conv := g.conv.map (fun _ => 0) }) ∧ (∃ q ∈ (u.m.core (f sw.core)).pending, q.pos = sw.pos)))

/-- R388: a core reset retires every context with a core on the die, each with its event, and empties the die's cores, and leaves memory as it was where no engine of such a context runs; an uncore
reset, made only when no context has a core or a page on the die, loses its memory and its weight store; a package reset leaves the state of reset, but for what is outside the package. What lost
memory reads as is the model's choice (log 3); that the issued stores of a retired context are dropped and memory stands is log 73, and what a package reset leaves is log 74. -/
def Obligations.Resets : Prop :=
  ∀ (s : State),
    (∀ die, die < 2 → s.m.arbiters.length = 3 →
      let gone := fun (ctx : Nat) => (mget s.contexts ctx).isSome = true ∧ coresOnDie s ctx die = true
      ∃ u, exec (.coreReset die) s = .next u ∧ u = { s with contexts := u.contexts, m := u.m }
        ∧ (∀ k, dieOf k = die → u.m.core k = .fresh) ∧ (∀ ctx, gone ctx → mget u.contexts ctx = none) ∧ (∀ ctx, ¬gone ctx → mget u.contexts ctx = mget s.contexts ctx)
        ∧ (∀ ctx, gone ctx → (∀ e ∈ u.m.copies, e.2.ctx ≠ ctx) ∧ (∀ e ∈ u.m.gathers, e.2.ctx ≠ ctx) ∧ (∀ e ∈ u.m.chains, e.2.ctx ≠ ctx) ∧ (∀ e ∈ u.m.slices, e.2.ctx ≠ ctx)
            ∧ (∀ e ∈ u.m.stores, e.ctx ≠ ctx) ∧ mget u.m.saved ctx = none ∧ ∃ e ∈ (u.m.arbiters.getD die .fresh).held, e.2.type = 0x04 ∧ e.2.ctx = ctx ∧ e.2.src = die)
        ∧ ((∀ e ∈ s.m.copies, ¬gone e.2.ctx) → (∀ e ∈ s.m.gathers, ¬gone e.2.ctx) → u.m.mem = s.m.mem ∧ u.m.poison = s.m.poison) ∧ u.m.wstore = s.m.wstore)
    ∧ (∀ die, let held := ∃ ctx ∈ s.contexts.map (·.1), coresOnDie s ctx die = true ∨ pagesOnDie s ctx die = true
        (held → exec (.uncoreReset die) s = .next s)
        ∧ (¬held → die < 2 → s.m.wstore.length = 2 → ∃ u, exec (.uncoreReset die) s = .next u ∧ u = s.withM u.m ∧ u.m.wstore.getD die [] = [] ∧ u.m.wstore.getD (1 - die) [] = s.m.wstore.getD (1 - die) []
            ∧ (∀ a, readByte u.m.mem a = if homeDie a = die then unlistedByte else readByte s.m.mem a) ∧ u.m.queues = s.m.queues ∧ (∀ w ∈ u.m.late, w ∈ s.m.late ∧ homeDie w.pa ≠ die)
            ∧ (∀ c p, u.m.warp? c p = s.m.warp? c p) ∧ ∀ c, ∀ e ∈ (u.m.core c).l1, homeDie (32 * e.1) ≠ die))
    ∧ (∃ u, exec .packageReset s = .next u ∧ { u with flash := [], agenda := [], turn := 0, m := { u.m with mem := [], free := 0, nextId := 1 } } = State.reset ∧ u.flash = s.flash
        ∧ ∀ a, readByte u.m.mem a = if 0x1C000000000 ≤ a then readByte s.m.mem a else unlistedByte)

/-- R398, R399, R402: boot reads the flash and fails with the code of the first step that fails, or leaves the package running in the record's mode; after boot nothing boots again; a mode
change takes effect only while no grid runs. That a flash too short for its record, signature and firmware fails step 1 is the model's reading (log 88), the form of a signature and
of a key that of RFC 8554 (log 110). -/
def Obligations.BootAndModes : Prop :=
  ∀ (s : State),
    let f := s.flash
    let at_ := fun (i : Nat) => (f.getD i 0).toNat
    let mode := fun (n : Nat) => if n = 1 then Mode.cool else if n = 2 then Mode.steady else Mode.full
    let moved := fun (t u : State) (n : Nat) => u = { t with mode := mode n, m := { t.m with windows := u.m.windows } }
    let long := 128 + bytesToNat ((f.drop 124).take 4) < f.length
    let order := f.take 4 = [0x4B, 0x43, 0x46, 0x47] ∧ bytesToNat ((f.drop 4).take 4) = 1 ∧ (∀ i < 36, at_ (8 + i) ≤ 19)
      ∧ (∀ i < 18, ∀ j < 18, i ≠ j → at_ (8 + i) ≠ at_ (8 + j) ∧ at_ (26 + i) ≠ at_ (26 + j)) ∧ at_ 44 ≤ 2 ∧ (∀ i, 45 ≤ i → i < 64 → at_ i = 0) ∧ (∀ i, 120 ≤ i → i < 124 → at_ i = 0)
    let tested := ∀ i < 18, Config.selfTestPasses 0 (at_ (8 + i)) = true ∧ Config.selfTestPasses 1 (at_ (26 + i)) = true
    let signed := signatureForm f = true ∧ Config.signatureValid f = true
    let starts := keyForm f 64 = true ∧ Config.firmwareStarts f = true
    let fails := fun (n : Nat) => exec .boot s = .next { s with boot := .failed n }
    (s.boot ≠ .off → exec .boot s = .next s)
    ∧ (s.boot = .off → (¬long → fails 0x01)
      ∧ (long → ¬signed → fails 0x02)
      ∧ (long → signed → ¬(order ∧ tested) → fails 0x03)
      ∧ (long → signed → order → tested → ¬starts → fails 0x04)
      ∧ (long → signed → order → tested → starts → Config.endpointStarts f = false → fails 0x05)
      ∧ (long → signed → order → tested → starts → Config.endpointStarts f = true →
          ∃ u, exec .boot s = .next u ∧ moved { s with boot := .running } u (at_ 44)))
    ∧ (∀ n, n < 3 → (∀ e ∈ s.m.grids, e.2.phase ≠ .placing) → ∃ u, exec (.modeChange n) s = .next u ∧ moved s u n)
    ∧ (∀ n, (∃ e ∈ s.m.grids, e.2.phase = .placing) → exec (.modeChange n) s = .next s)

/-- R139, R389, R391 to R395, R400: an arbiter writes an event it accepts as a 32-byte record with the counter, raises the count of MSI-X vector 0 of the context's function, and accepts nothing while
its ring is full; a flit that has waited 64 cy claims; a function's store reaches its own queue pages and its window, and a device's the physical address that the IOMMU maps, and nothing else; another
package's store or atomic is performed in the owner's memory. That the page at 0x100_0000_0000 + 4096 * k is queue k's is the model's choice (log 6). -/
def Obligations.EventsAndOutside : Prop :=
  ∀ (s : State),
    (∀ k a id ev, s.m.arbiters[k]? = some a → mget a.held id = some ev → ev.pay.length = 16 →
      let there := a.base + 32 * (a.head % a.size)
      let record := natToBytes 1 ev.type ++ natToBytes 1 ev.src ++ natToBytes 2 ev.ctx ++ natToBytes 4 ev.who.toNat ++ natToBytes 8 s.counter.toNat ++ ev.pay
      (a.size ≤ a.used → exec (.eventRecord k id) s = .next s)
      ∧ (a.used < a.size → there + 32 ≤ 0x6000000000 → ∃ u m', exec (.eventRecord k id) s = .next u ∧ WroteAt s.m m' frontCore there (record.map some)
          ∧ u = s.withM { m' with arbiters := s.m.arbiters.set k { a with head := a.head + 1, used := a.used + 1, held := mdel a.held id }, msix := u.m.msix }
          ∧ u.m.msix = (match (match ev.function with | some f => f | none => (mget s.contexts ev.ctx).bind (·.function)) with
              | some f => mset s.m.msix (32 * f) (mgetD s.m.msix (32 * f) 0 + 1)
              | none => s.m.msix)))
    ∧ (∀ k n a, s.m.arbiters[k]? = some a → exec (.eventRingSpace k n) s = .next (s.withM { s.m with arbiters := s.m.arbiters.set k { a with used := a.used - n } }))
    ∧ (∀ die loop stop, ∃ fs, exec (.injectionClaim die loop stop) s = .next (s.withM { s.m with flits := fs }) ∧ fs.length = s.m.flits.length
        ∧ ∀ (i id : Nat) (f : Flit), s.m.flits[i]? = some (id, f) → fs[i]? = some (id, { f with claimed := f.claimed || (f.die == die && f.loop == loop && f.stop == stop && 64 ≤ f.waited) }))
    ∧ (∀ fn a (data : List Byte), ∃ m', exec (.hostAccess fn a false data) s = .next (s.withM m') ∧ ReadOnly s.m m')
    ∧ (∀ fn a (data : List Byte) (w : Window), fn ≤ 128 → mget s.bars fn = some w → w.base ≤ a → a + data.length ≤ w.base + w.size → data ≠ [] → a + data.length ≤ 0x6000000000 →
        ∃ m', exec (.hostAccess fn a true data) s = .next (s.withM m') ∧ WroteAt s.m m' frontCore a (data.map some))
    ∧ (∀ dev a (data : List Byte) (w : IoMapping), 128 < dev → (mgetD s.iommu dev []).find? (fun v => v.base ≤ a && a + data.length ≤ v.base + v.size) = some w → data ≠ [] →
        w.pa + (a - w.base) + data.length ≤ 0x6000000000 →
          ∃ m', exec (.hostAccess dev a true data) s = .next (s.withM m') ∧ WroteAt s.m m' frontCore (w.pa + (a - w.base)) (data.map some))
    ∧ (∀ fn k v, fn ≤ 128 → k < 256 → (s.m.queue k).bound = true → (s.m.queue k).function = fn →
        ∃ u t, exec (.hostAccess fn (0x10000000000 + 4096 * k) true (natToBytes 4 v)) s = .next u ∧ exec (.tail k (BitVec.ofNat 32 v)) s = .next t
          ∧ u.m.queues = t.m.queues ∧ u.m.mem = s.m.mem ∧ u.m.cores = s.m.cores)
    ∧ (∀ fn a (data : List Byte), fn ≤ 128 → (∀ w, mget s.bars fn = some w → ¬(w.base ≤ a ∧ a + data.length ≤ w.base + w.size)) →
        (∀ k off, paClass s a = .queuePage k off → (s.m.queue k).bound = false ∨ (s.m.queue k).function ≠ fn) → exec (.hostAccess fn a true data) s = .next s)
    ∧ (∀ dev a (data : List Byte), 128 < dev → (∀ w ∈ mgetD s.iommu dev [], ¬(w.base ≤ a ∧ a + data.length ≤ w.base + w.size)) → exec (.hostAccess dev a true data) s = .next s)
    ∧ (∀ a (data : List Byte), (∃ m', exec (.podAccess a 0 data) s = .next (s.withM m') ∧ ReadOnly s.m m')
        ∧ (a + data.length ≤ 0x6000000000 → data ≠ [] → ∃ m', exec (.podAccess a 1 data) s = .next (s.withM m') ∧ WroteAt s.m m' frontCore a (data.map some))
        ∧ (∀ code, (code ≤ 0xE ∨ code = 16) → let n := if code = 0xE then 4 else atomSize code
          a + n ≤ 0x6000000000 → a % n = 0 → poisonedRange s.m a n = false →
            let new := natToBytes n (atomComb code (bytesToNat (readBytes s.m.mem a n)) (bytesToNat data))
            ∃ m', exec (.podAccess a (2 + code) data) s = .next (s.withM m') ∧ WroteAt s.m m' frontCore a (new.map some)))

/-! Words, the step, reset, and what every step keeps. -/

/-- R41 to R51, R66 to R70: words that the spec writes out, or put together from its formats, decode to the instructions they stand for, one or more of each format; a word of no row and a word
with a reserved field decode to none. -/
def Obligations.WordsDecode : Prop :=
  decodeWord 0x000303C1 = .ok (.iadd 0 0x03 0x03 0xC1)                  -- IADD v3, v3, 1
  ∧ decodeWord 0x498303D0 = .ok (.icmpLtN32 1 0x83 0x03 0xD0)           -- ICMP.lt.n32.nw zero, v3, 16
  ∧ decodeWord 0x3E070828 = .ok (.redu 0 0x07 0x08 0x8)                 -- REDU.fadd.f v7, v8
  ∧ decodeWord 0x1E02ABCD = .ok (.hiw 0 0x02 0xABCD)                    -- HIW v2, 0xABCD
  ∧ decodeWord 0x7214C818 = .ok (.st 0x14 50 0 0 6)                     -- ST.n128 v20, [w100]
  ∧ decodeWord 0x700619B0 = .ok (.ld 0x06 6 1 5 4)                      -- LD.n32.acq.dev v6, [w12]
  ∧ decodeWord 0x74051009 = .ok (.stm 0x05 4 0x09)                      -- STM v5, [w8], v9
  ∧ decodeWord 0x76030C00 = .ok (.atom 0 0x03 3 0 0 0)                  -- ATOM.add.n32 v3, [w6]
  ∧ decodeWord 0x78040945 = .ok (.ldw 0x04 0x09 5)                      -- LDW.n64 w4, v9
  ∧ decodeWord 0x7A032000 = .ok (.prefL2 8)                             -- PREF.l2 [w16]
  ∧ decodeWord 0x9B0B7FFF = .ok (.ubra 2 0x16 0x7FFF)                   -- UBRA.z v22, one word back
  ∧ decodeWord 0x5283C509 = .ok (.trap 0xC5)                            -- TRAP 5
  ∧ decodeWord 0xAE30082B = .ok (.tmma 0x30 0x08 1 2 1 1)               -- TMMA.z.sp v48, w8, f1, f2
  ∧ decodeWord 0xC0041498 = .ok (.cpy 0x04 0x14 2 3 0)                  -- CPY.rel.clus w4, w20
  ∧ decodeWord 0xB40F1483 = .ok (.achain 0x0F 0x14 1 3)                 -- ACHAIN.rly.pg v15, w20
  ∧ decodeWord 0xFA000142 = .ok (.trail 1 2 0 0 5 2)                    -- TRAIL with CV and two ranges
  ∧ decodeWord 0xEE000000 = .error .illegalOp
  ∧ decodeWord 0x52838200 = .error .reservedField                       -- NOP with a field that must hold 0x83

/-- R41 to R51, R66 to R70: DECODING INVERTS ENCODING, for every instruction that has an encoding with every operand at every value: the decoder gives back the instruction from its word, and a word
it reads as an instruction is that instruction's only word; the steps of the part that are no instruction words, and they alone, have none. -/
def Obligations.EncodingRoundTrip : Prop :=
  (∀ i w, encode i = some w → decodeWord w = .ok i)
  ∧ (∀ i w, decodeWord w = .ok i → encode i = some w)
  ∧ (∀ i, encode i = none ↔ isEvent i = true)

/-- R109, R384, R397, R398: WHAT EVERY STEP KEEPS: the division of the package into partitions and contexts stays in order, whatever word issues or step is taken, HVEC keeps its zero bits, and before
boot there is no context. The model's own in it: the weight-store windows of partitions lie apart, and what the firmware's moves are held to (log 77); and no partition stands after a boot that failed,
at its step 5 too, though R398 sets partitions at step 4. -/
def Obligations.FirmwareInvariantKept : Prop := ∀ s t : State, FirmwareInv s → step s = .next t → FirmwareInv t

/-- R176, R191, R194, R281, R360, R380, R388, R397, R398, R428: THE PACKAGE AFTER RESET: not booted; no partition, context, grid, queue or warp; what a context would find on a core as R428 creates it; the division in
order; and the first step boots. The counter at 0, and so banks 0 and 1 of each die in their windows, and memory that reads as 0 are the model's choices (log 2, 3). -/
def Obligations.ResetState : Prop :=
  let s := State.reset
  s.boot = .off ∧ s.partitions = [] ∧ s.contexts = [] ∧ s.m.grids = [] ∧ s.m.queues = [] ∧ s.m.chains = [] ∧ s.m.copies = [] ∧ s.m.gathers = [] ∧ s.m.stores = []
    ∧ (∀ core pos, s.m.warp? core pos = none)
    ∧ (∀ ctx core, let c := s.m.ctxCore ctx core
        (∀ a, readByte c.spad a = 0) ∧ c.mailboxes.length = 16 ∧ (∀ b ∈ c.mailboxes, b.full = false ∧ b.value = 0) ∧ c.queues.length = 8
          ∧ (∀ q ∈ c.queues, q.kind = 0 ∧ q.entries = [] ∧ q.drops = 0) ∧ c.seq.running = false ∧ c.seq.table = [] ∧ c.sfq = [] ∧ (s.m.ctxCluster ctx core).watch = [])
    ∧ s.counter = 0 ∧ (∀ die < 2, ∀ bank < 16, (mget s.m.windows (die * 16 + bank)).isSome = decide (bank < 2)) ∧ (∀ a, readByte s.m.mem a = 0)
    ∧ Memory.wf s.m.mem = true ∧ FirmwareInv s ∧ step s = exec .boot { s with turn := 1 }

/-- R41, R62, R72, R190, R315, R352: A STEP RUNS THE DECODED INSTRUCTION. When the next turn of a running package is the issue of a warp of the active set whose first group to try stands at a word, in a run under way
or in the run fetched at its PC, and the word decodes to a well-formed instruction that passes the checks of R72, then the step is that instruction's meaning, executed with `cur` naming the group; where a pipe is free
for it and the round comes to this warp there, it is done, and afterwards `cur` names none, the ready groups passed over have a run more, the word is noted, and the warp may leave the active set; otherwise nothing issues.
The first word of a fetched run is the four bytes at its PC, little-endian, or a word that the core holds from there. A warp whose context is halted on its core issues nothing but the rest of a word begun. The round by
slot numbers, and the lowest free pipe, are the model's (log 100). Of a warp with an open level, an `AWAIT` lease or an acquire still to be performed, whose words may wait first, nothing is stated here. -/
def Obligations.StepRunsTheWord : Prop :=
  ∀ (s : State) (core pos k : Nat) (hand : Bool) (rest : List Turn) (w : Warp) (tried : List (Bool × Nat)),
    s.boot = .running → s.agenda = .issue core pos :: rest → s.m.warp? core pos = some w →
    let now := { s with agenda := rest, turn := s.turn + 1 }
    (s.stopped w.ctx core = true → w.midWord = false → step s = .next now)
    ∧ ∀ (g g' : Group) (r : Run) (m : Mach) (word : Word) (i : Instr),
      s.stopped w.ctx core = false → (s.m.core core).active.contains pos = true → tryGroups w = (hand, k) :: tried → (if hand then w.hgroups else w.groups)[k]? = some g → g.atConv = false →
      ((g.run = some r ∧ m = s.m ∧ g' = g)
        ∨ ∃ words ff, g.run = none ∧ fetchRun now w.ctx core 24 s.m g.pc = .ok (words, ff) m ∧ (runCv words = true → g.passed = true)
          ∧ r = { start := g.pc, words := words, fetchFault := ff, pos := 0, latches := [], nextPc := [], wait := .none, desc := [] }
          ∧ g' = { g with passed := false, idle := 0, out := false, run := some r }) →
      r.wait = .none → r.words[r.pos]? = some word → decodeWord word = .ok i → WellFormed i = true →
      (r.pos = 23 → isTrail word = true) → (runEnding i = true → ∀ v, r.words[r.pos + 1]? = some v → isTrail v = true) →
      (needsPrivilege i = true → (s.ctx w.ctx).priv = true) → latchesFilled i r.latches.length = true →
      w.levels = [] → (hand = true ∨ w.budgetDue &&& g.lanes = 0) → (∀ p ∈ w.pends, (p.kind matches .await ..) = false) → (∀ st ∈ s.m.stores, st.warp = w.uid → st.acq = none) →
        let x : Ex := { core := core, pos := pos, hand := hand, grp := k, w := if fixesLoads i then w.fixLoads else w, g := g', r := r }
        let there := now.withM { m.put x with cur := some { core := core, pos := pos, hand := hand, grp := k } }
        there.ex?.isSome = true
        ∧ (∀ t, exec i there = .next t → stillWaits (now.m.groupAt core pos hand k) (t.m.groupAt core pos hand k) = false →
            let pipes := if sameWord (there.m.groupAt core pos hand k) (t.m.groupAt core pos hand k) || isTrail word then [] else if word.toNat / 2 ^ 31 = 1 then [2] else [0, 1]
            let a : Attempt := { out := .next { t with m := { t.m with cur := none } }, pipes := pipes }
            let t' := countIdle exec w (hand, k) core pos { t with m := { t.m with cur := none } }
            let noted := t'.withM (noteTurn now.turn core pos a t'.m)
            let free := fun (p : Nat) => (∀ e ∈ (s.m.core core).issued, e.1 ≠ p ∧ e.2 ≠ pos) ∧ anotherFirst exec now core pos p = false
            (pipes = [] → step s = .next (settleActive exec noted core pos))
            ∧ (∀ before p after, pipes = before ++ p :: after → (∀ q ∈ before, ¬free q) → free p → step s = .next (settleActive exec (noted.withM (notePipe core pos p noted.m)) core pos))
            ∧ (pipes ≠ [] → (∀ p ∈ pipes, ¬free p) → step s = .next now))
        ∧ (∀ f, exec i there = .fault f → step s = .fault f) ∧ (∀ f, exec i there = .refused f → step s = .refused f)
        ∧ (g.run = none → ∀ t, Hit now w.ctx core (g.pc.setWidth 64) .fetch t → t.pa < 0x6000000000 →
            let there := BitVec.ofNat 32 (bytesToNat (viewBytes s.m (dieOf core) t.pa 4))
            (∀ held, mget (s.m.core core).code (t.pa / 4) = some held → word ∈ held ∨ word = there) ∧ (mget (s.m.core core).code (t.pa / 4) = none → word = there))
end

