-- ==== Sys2Proof/Laws/Maps.lean ====
section
/-! SUPPORT. The laws of maps by number and of byte memory: reading after writing, at the same key and at every other; and every operation on memory keeps its
canonical form. -/

namespace Sys2Proof.Machine

variable {α : Type}

/-! Reading a changed map. -/

@[simp] theorem mget_nil (k : Nat) : mget ([] : SMap α) k = none := rfl

theorem mget_mset_same (m : SMap α) (k : Nat) (v : α) : mget (mset m k v) k = some v := by
  induction m with
  | nil => simp [mset, mget]
  | cons e t ih =>
    obtain ⟨k', v'⟩ := e
    simp only [mset]
    split
    · simp [mget]
    · split
      · simp [mget]
      · rename_i h _
        simp [mget, h, ih]

theorem mget_mset_other (m : SMap α) {j k : Nat} (h : j ≠ k) (v : α) : mget (mset m k v) j = mget m j := by
  induction m with
  | nil => simp [mset, mget, h]
  | cons e t ih =>
    obtain ⟨k', v'⟩ := e
    simp only [mset]
    split
    · rename_i hk
      subst hk
      simp [mget, h]
    · split
      · simp [mget, h]
      · simp only [mget]
        split <;> simp_all

theorem mget_mset (m : SMap α) (j k : Nat) (v : α) : mget (mset m k v) j = if j = k then some v else mget m j := by
  split
  · rename_i h
    rw [h, mget_mset_same]
  · rename_i h
    exact mget_mset_other m h v

theorem mget_mdel_same (m : SMap α) (k : Nat) : mget (mdel m k) k = none := by
  induction m with
  | nil => rfl
  | cons e t ih =>
    obtain ⟨k', v'⟩ := e
    simp only [mdel]
    split
    · exact ih
    · rename_i h
      simp [mget, h, ih]

theorem mget_mdel_other (m : SMap α) {j k : Nat} (h : j ≠ k) : mget (mdel m k) j = mget m j := by
  induction m with
  | nil => rfl
  | cons e t ih =>
    obtain ⟨k', v'⟩ := e
    simp only [mdel]
    split
    · rename_i hk
      subst hk
      simp [mget, h, ih]
    · simp only [mget]
      split <;> simp_all

theorem mgetD_mput [DecidableEq α] (d : α) (m : SMap α) (j k : Nat) (v : α) : mgetD (mput d m k v) j d = if j = k then v else mgetD m j d := by
  unfold mgetD mput
  by_cases hv : v = d
  · simp only [hv, if_true]
    split
    · rename_i h
      simp [h, mget_mdel_same]
    · rename_i h
      rw [mget_mdel_other m h]
  · simp only [hv, if_false, mget_mset]
    split <;> simp

theorem mgetD_mset (m : SMap α) (j k : Nat) (v d : α) : mgetD (mset m k v) j d = if j = k then v else mgetD m j d := by
  unfold mgetD
  rw [mget_mset]
  split <;> simp

/-! Byte memory: a read after a write. -/

theorem readByte_writeByte (m : SMap Byte) (a b : Nat) (v : Byte) : readByte (writeByte m b v) a = if a = b then v else readByte m a := mgetD_mput ..

theorem readByte_writeBytes_outside (bs : List Byte) (m : SMap Byte) (a b : Nat) (h : a < b ∨ b + bs.length ≤ a) :
    readByte (writeBytes m b bs) a = readByte m a := by
  induction bs generalizing m b with
  | nil => rfl
  | cons v vs ih =>
    simp only [List.length_cons] at h
    rw [writeBytes, ih _ _ (by omega), readByte_writeByte, if_neg (by omega)]

theorem readByte_writeBytes_inside (bs : List Byte) (m : SMap Byte) (b i : Nat) (h : i < bs.length) :
    readByte (writeBytes m b bs) (b + i) = bs.getD i 0 := by
  induction bs generalizing m b i with
  | nil => simp at h
  | cons v vs ih =>
    cases i with
    | zero =>
      rw [writeBytes, readByte_writeBytes_outside _ _ _ _ (by omega), readByte_writeByte]
      simp
    | succ i =>
      have := ih (writeByte m b v) (b + 1) i (by simpa using h)
      rw [writeBytes, show b + (i + 1) = b + 1 + i by omega, this]
      simp

/-! The canonical form. -/

/-- Rising keys, all of them above a bound. -/
def risesFrom (b : Nat) : SMap α → Bool
  | [] => true
  | (k, _) :: t => b ≤ k && risesFrom (k + 1) t

theorem risesFrom_mono {b c : Nat} (h : c ≤ b) (m : SMap α) (hm : risesFrom b m = true) : risesFrom c m = true := by
  cases m with
  | nil => rfl
  | cons e t => simp only [risesFrom, Bool.and_eq_true, decide_eq_true_eq] at hm ⊢; exact ⟨by omega, hm.2⟩

theorem msorted_cons (e : Nat × α) (t : SMap α) : msorted (e :: t) = risesFrom (e.1 + 1) t := by
  induction t generalizing e with
  | nil => rfl
  | cons f t ih =>
    have hf : msorted (f :: t) = risesFrom (f.1 + 1) t := ih f
    show (decide (e.1 < f.1) && msorted (f :: t)) = (decide (e.1 + 1 ≤ f.1) && risesFrom (f.1 + 1) t)
    rw [hf]
    rfl

theorem msorted_iff (m : SMap α) : msorted m = risesFrom 0 m := by
  cases m with
  | nil => rfl
  | cons e t => rw [msorted_cons]; simp [risesFrom]

theorem risesFrom_mset (m : SMap α) (b k : Nat) (v : α) (hb : b ≤ k) (hm : risesFrom b m = true) : risesFrom b (mset m k v) = true := by
  induction m generalizing b with
  | nil => simp [mset, risesFrom, hb]
  | cons e t ih =>
    obtain ⟨k', v'⟩ := e
    simp only [risesFrom, Bool.and_eq_true, decide_eq_true_eq] at hm
    simp only [mset]
    split
    · rename_i h
      subst h
      simp [risesFrom, hb, hm.2]
    · split
      · rename_i h1 h2
        simp only [risesFrom, Bool.and_eq_true, decide_eq_true_eq]
        exact ⟨hb, by omega, hm.2⟩
      · rename_i h1 h2
        simp only [risesFrom, Bool.and_eq_true, decide_eq_true_eq]
        exact ⟨hm.1, ih _ (by omega) hm.2⟩

theorem risesFrom_mdel (m : SMap α) (b k : Nat) (hm : risesFrom b m = true) : risesFrom b (mdel m k) = true := by
  induction m generalizing b with
  | nil => rfl
  | cons e t ih =>
    obtain ⟨k', v'⟩ := e
    simp only [risesFrom, Bool.and_eq_true, decide_eq_true_eq] at hm
    simp only [mdel]
    split
    · exact risesFrom_mono (by omega) _ (ih _ hm.2)
    · simp only [risesFrom, Bool.and_eq_true, decide_eq_true_eq]
      exact ⟨hm.1, ih _ hm.2⟩

theorem msorted_mset (m : SMap α) (k : Nat) (v : α) (hm : msorted m = true) : msorted (mset m k v) = true := by
  rw [msorted_iff] at hm ⊢
  exact risesFrom_mset m 0 k v (Nat.zero_le _) hm

theorem msorted_mdel (m : SMap α) (k : Nat) (hm : msorted m = true) : msorted (mdel m k) = true := by
  rw [msorted_iff] at hm ⊢
  exact risesFrom_mdel m 0 k hm

theorem mset_all (p : Nat × α → Bool) (m : SMap α) (k : Nat) (v : α) (hv : p (k, v) = true) (hm : m.all p = true) : (mset m k v).all p = true := by
  induction m with
  | nil => simp [mset, hv]
  | cons e t ih =>
    obtain ⟨k', v'⟩ := e
    simp only [List.all_cons, Bool.and_eq_true] at hm
    simp only [mset]
    split
    · simp [hv, hm.2]
    · split
      · simp [hv, hm.1, hm.2]
      · simp [hm.1, ih hm.2]

theorem mdel_all (p : Nat × α → Bool) (m : SMap α) (k : Nat) (hm : m.all p = true) : (mdel m k).all p = true := by
  induction m with
  | nil => rfl
  | cons e t ih =>
    obtain ⟨k', v'⟩ := e
    simp only [List.all_cons, Bool.and_eq_true] at hm
    simp only [mdel]
    split
    · exact ih hm.2
    · simp [hm.1, ih hm.2]

theorem wf_writeByte (m : SMap Byte) (a : Nat) (v : Byte) (hm : Memory.wf m = true) : Memory.wf (writeByte m a v) = true := by
  simp only [Memory.wf, Bool.and_eq_true] at hm ⊢
  unfold writeByte mput unlistedByte
  split
  · exact ⟨msorted_mdel m a hm.1, mdel_all _ m a hm.2⟩
  · rename_i h
    exact ⟨msorted_mset m a v hm.1, mset_all _ m a v (by simpa using h) hm.2⟩

theorem wf_writeBytes (bs : List Byte) (m : SMap Byte) (a : Nat) (hm : Memory.wf m = true) : Memory.wf (writeBytes m a bs) = true := by
  induction bs generalizing m a with
  | nil => exact hm
  | cons b bs ih => exact ih _ _ (wf_writeByte m a b hm)

theorem wf_putBytes (bs : List (Option Byte)) (m : SMap Byte) (a : Nat) (hm : Memory.wf m = true) : Memory.wf (putBytes m a bs) = true := by
  induction bs generalizing m a with
  | nil => exact hm
  | cons b bs ih =>
    cases b with
    | none => exact ih _ _ hm
    | some v => exact ih _ _ (wf_writeByte m a v hm)

theorem risesFrom_filter (p : Nat × α → Bool) (m : SMap α) (b : Nat) (hm : risesFrom b m = true) : risesFrom b (m.filter p) = true := by
  induction m generalizing b with
  | nil => rfl
  | cons e t ih =>
    obtain ⟨k', v'⟩ := e
    simp only [risesFrom, Bool.and_eq_true, decide_eq_true_eq] at hm
    simp only [List.filter_cons]
    split
    · simp only [risesFrom, Bool.and_eq_true, decide_eq_true_eq]
      exact ⟨hm.1, ih _ hm.2⟩
    · exact risesFrom_mono (by omega) _ (ih _ hm.2)

/-- The memory that a reset keeps in part is canonical. -/
theorem wf_filter (p : Nat × Byte → Bool) (m : SMap Byte) (hm : Memory.wf m = true) : Memory.wf (m.filter p) = true := by
  simp only [Memory.wf, Bool.and_eq_true] at hm ⊢
  refine ⟨?_, ?_⟩
  · rw [msorted_iff] at hm ⊢
    exact risesFrom_filter p m 0 hm.1
  · rw [List.all_eq_true] at hm ⊢
    exact fun e he => hm.2 e (List.mem_of_mem_filter he)

/-- The memory of the reset state is canonical. -/
theorem wf_reset : Memory.wf State.reset.m.mem = true := rfl

/-- A write of named bytes leaves every byte outside its range. -/
theorem readByte_putBytes_outside (bs : List (Option Byte)) (m : SMap Byte) (a b : Nat) (h : a < b ∨ b + bs.length ≤ a) :
    readByte (putBytes m b bs) a = readByte m a := by
  induction bs generalizing m b with
  | nil => rfl
  | cons v vs ih =>
    simp only [List.length_cons] at h
    cases v with
    | none => rw [putBytes, ih _ _ (by omega)]
    | some v => rw [putBytes, ih _ _ (by omega), readByte_writeByte, if_neg (by omega)]

end Sys2Proof.Machine
end

