-- ==== Sys2Proof/Laws/State.lean ====
section
/-! SUPPORT. The laws of State's updates: what each named update leaves in each part it can be asked for. Later proofs rewrite with these and unfold no record update. -/

namespace Sys2Proof.Machine

/-! `withM`. -/

@[simp] theorem withM_m (s : State) (m : Mach) : (s.withM m).m = m := rfl
@[simp] theorem withM_boot (s : State) (m : Mach) : (s.withM m).boot = s.boot := rfl
@[simp] theorem withM_flash (s : State) (m : Mach) : (s.withM m).flash = s.flash := rfl
@[simp] theorem withM_mode (s : State) (m : Mach) : (s.withM m).mode = s.mode := rfl
@[simp] theorem withM_counter (s : State) (m : Mach) : (s.withM m).counter = s.counter := rfl
@[simp] theorem withM_thirteenths (s : State) (m : Mach) : (s.withM m).thirteenths = s.thirteenths := rfl
@[simp] theorem withM_partitions (s : State) (m : Mach) : (s.withM m).partitions = s.partitions := rfl
@[simp] theorem withM_contexts (s : State) (m : Mach) : (s.withM m).contexts = s.contexts := rfl
@[simp] theorem withM_pod (s : State) (m : Mach) : (s.withM m).pod = s.pod := rfl
@[simp] theorem withM_ownSlot (s : State) (m : Mach) : (s.withM m).ownSlot = s.ownSlot := rfl
@[simp] theorem withM_bars (s : State) (m : Mach) : (s.withM m).bars = s.bars := rfl
@[simp] theorem withM_iommu (s : State) (m : Mach) : (s.withM m).iommu = s.iommu := rfl
@[simp] theorem withM_hostBase (s : State) (m : Mach) : (s.withM m).hostBase = s.hostBase := rfl
@[simp] theorem withM_agenda (s : State) (m : Mach) : (s.withM m).agenda = s.agenda := rfl
@[simp] theorem withM_turn (s : State) (m : Mach) : (s.withM m).turn = s.turn := rfl
@[simp] theorem withM_withM (s : State) (m n : Mach) : (s.withM m).withM n = s.withM n := rfl
@[simp] theorem withM_self (s : State) : s.withM s.m = s := rfl
@[simp] theorem withM_ctx (s : State) (m : Mach) (c : Nat) : (s.withM m).ctx c = s.ctx c := rfl
@[simp] theorem withM_partitionOf (s : State) (m : Mach) (c : Nat) : (s.withM m).partitionOf c = s.partitionOf c := rfl
@[simp] theorem withM_stopped (s : State) (m : Mach) (c k : Nat) : (s.withM m).stopped c k = s.stopped c k := rfl

/-! Cores, warps, per-context state. -/

@[simp] theorem core_setCore (m : Mach) (j k : Nat) (c : Core) : (m.setCore k c).core j = if j = k then c else m.core j := by
  simp [Mach.core, Mach.setCore, mgetD_mset]

@[simp] theorem core_adjCore (m : Mach) (j k : Nat) (f : Core → Core) : (m.adjCore k f).core j = if j = k then f (m.core k) else m.core j := by
  simp [Mach.adjCore]

@[simp] theorem core_setWarp (m : Mach) (j k p : Nat) (w : Warp) :
    (m.setWarp k p w).core j = if j = k then { m.core k with warps := mset (m.core k).warps p w } else m.core j := by
  simp [Mach.setWarp]

@[simp] theorem warp?_setWarp (m : Mach) (j k p q : Nat) (w : Warp) :
    (m.setWarp k p w).warp? j q = if j = k ∧ q = p then some w else m.warp? j q := by
  by_cases hj : j = k
  · subst hj; by_cases hq : q = p <;> simp [Mach.warp?, mget_mset, hq]
  · simp [Mach.warp?, hj]

@[simp] theorem ctxCores_setWarp (m : Mach) (k p : Nat) (w : Warp) : (m.setWarp k p w).ctxCores = m.ctxCores := rfl
@[simp] theorem cur_setWarp (m : Mach) (k p : Nat) (w : Warp) : (m.setWarp k p w).cur = m.cur := rfl
@[simp] theorem stores_setWarp (m : Mach) (k p : Nat) (w : Warp) : (m.setWarp k p w).stores = m.stores := rfl
@[simp] theorem mem_setWarp (m : Mach) (k p : Nat) (w : Warp) : (m.setWarp k p w).mem = m.mem := rfl
@[simp] theorem ctxCore_setWarp (m : Mach) (k p : Nat) (w : Warp) (c j : Nat) : (m.setWarp k p w).ctxCore c j = m.ctxCore c j := rfl

@[simp] theorem cores_setCtxCore (m : Mach) (c k : Nat) (b : CtxCore) : (m.setCtxCore c k b).cores = m.cores := rfl
@[simp] theorem core_setCtxCore (m : Mach) (c k : Nat) (b : CtxCore) (j : Nat) : (m.setCtxCore c k b).core j = m.core j := rfl
@[simp] theorem warp?_setCtxCore (m : Mach) (c k : Nat) (b : CtxCore) (j p : Nat) : (m.setCtxCore c k b).warp? j p = m.warp? j p := rfl
@[simp] theorem cur_setCtxCore (m : Mach) (c k : Nat) (b : CtxCore) : (m.setCtxCore c k b).cur = m.cur := rfl
@[simp] theorem ctxCore_setCtxCore_same (m : Mach) (c k : Nat) (b : CtxCore) : (m.setCtxCore c k b).ctxCore c k = b := by
  simp [Mach.ctxCore, Mach.setCtxCore, mgetD_mset]
theorem box_setCtxCore_other (m : Mach) (c k : Nat) (b : CtxCore) (j : Nat) (h : j ≠ ccKey c k) :
    mgetD (m.setCtxCore c k b).ctxCores j .fresh = mgetD m.ctxCores j .fresh := by
  simp [Mach.setCtxCore, mgetD_mset, h]

/-! What the updates of a core, of a context's state on a core and on a cluster, and of the next identity leave. -/

@[simp] theorem mem_setCore (m : Mach) (k : Nat) (c : Core) : (m.setCore k c).mem = m.mem := rfl
@[simp] theorem poison_setCore (m : Mach) (k : Nat) (c : Core) : (m.setCore k c).poison = m.poison := rfl
@[simp] theorem l2_setCore (m : Mach) (k : Nat) (c : Core) : (m.setCore k c).l2 = m.l2 := rfl
@[simp] theorem late_setCore (m : Mach) (k : Nat) (c : Core) : (m.setCore k c).late = m.late := rfl
@[simp] theorem rels_setCore (m : Mach) (k : Nat) (c : Core) : (m.setCore k c).rels = m.rels := rfl
@[simp] theorem wstore_setCore (m : Mach) (k : Nat) (c : Core) : (m.setCore k c).wstore = m.wstore := rfl
@[simp] theorem tlb_setCore (m : Mach) (k : Nat) (c : Core) : (m.setCore k c).tlb = m.tlb := rfl
@[simp] theorem stores_setCore (m : Mach) (k : Nat) (c : Core) : (m.setCore k c).stores = m.stores := rfl
@[simp] theorem grids_setCore (m : Mach) (k : Nat) (c : Core) : (m.setCore k c).grids = m.grids := rfl
@[simp] theorem slices_setCore (m : Mach) (k : Nat) (c : Core) : (m.setCore k c).slices = m.slices := rfl
@[simp] theorem copies_setCore (m : Mach) (k : Nat) (c : Core) : (m.setCore k c).copies = m.copies := rfl
@[simp] theorem gathers_setCore (m : Mach) (k : Nat) (c : Core) : (m.setCore k c).gathers = m.gathers := rfl
@[simp] theorem chains_setCore (m : Mach) (k : Nat) (c : Core) : (m.setCore k c).chains = m.chains := rfl
@[simp] theorem tiles_setCore (m : Mach) (k : Nat) (c : Core) : (m.setCore k c).tiles = m.tiles := rfl
@[simp] theorem saved_setCore (m : Mach) (k : Nat) (c : Core) : (m.setCore k c).saved = m.saved := rfl
@[simp] theorem arbiters_setCore (m : Mach) (k : Nat) (c : Core) : (m.setCore k c).arbiters = m.arbiters := rfl
@[simp] theorem queues_setCore (m : Mach) (k : Nat) (c : Core) : (m.setCore k c).queues = m.queues := rfl
@[simp] theorem nextId_setCore (m : Mach) (k : Nat) (c : Core) : (m.setCore k c).nextId = m.nextId := rfl
@[simp] theorem free_setCore (m : Mach) (k : Nat) (c : Core) : (m.setCore k c).free = m.free := rfl
@[simp] theorem cur_setCore (m : Mach) (k : Nat) (c : Core) : (m.setCore k c).cur = m.cur := rfl
@[simp] theorem ctxCores_setCore (m : Mach) (k : Nat) (c : Core) : (m.setCore k c).ctxCores = m.ctxCores := rfl
@[simp] theorem ctxClusters_setCore (m : Mach) (k : Nat) (c : Core) : (m.setCore k c).ctxClusters = m.ctxClusters := rfl
@[simp] theorem mem_setCtxCore (m : Mach) (c k : Nat) (b : CtxCore) : (m.setCtxCore c k b).mem = m.mem := rfl
@[simp] theorem poison_setCtxCore (m : Mach) (c k : Nat) (b : CtxCore) : (m.setCtxCore c k b).poison = m.poison := rfl
@[simp] theorem l2_setCtxCore (m : Mach) (c k : Nat) (b : CtxCore) : (m.setCtxCore c k b).l2 = m.l2 := rfl
@[simp] theorem late_setCtxCore (m : Mach) (c k : Nat) (b : CtxCore) : (m.setCtxCore c k b).late = m.late := rfl
@[simp] theorem rels_setCtxCore (m : Mach) (c k : Nat) (b : CtxCore) : (m.setCtxCore c k b).rels = m.rels := rfl
@[simp] theorem wstore_setCtxCore (m : Mach) (c k : Nat) (b : CtxCore) : (m.setCtxCore c k b).wstore = m.wstore := rfl
@[simp] theorem tlb_setCtxCore (m : Mach) (c k : Nat) (b : CtxCore) : (m.setCtxCore c k b).tlb = m.tlb := rfl
@[simp] theorem stores_setCtxCore (m : Mach) (c k : Nat) (b : CtxCore) : (m.setCtxCore c k b).stores = m.stores := rfl
@[simp] theorem grids_setCtxCore (m : Mach) (c k : Nat) (b : CtxCore) : (m.setCtxCore c k b).grids = m.grids := rfl
@[simp] theorem slices_setCtxCore (m : Mach) (c k : Nat) (b : CtxCore) : (m.setCtxCore c k b).slices = m.slices := rfl
@[simp] theorem copies_setCtxCore (m : Mach) (c k : Nat) (b : CtxCore) : (m.setCtxCore c k b).copies = m.copies := rfl
@[simp] theorem gathers_setCtxCore (m : Mach) (c k : Nat) (b : CtxCore) : (m.setCtxCore c k b).gathers = m.gathers := rfl
@[simp] theorem chains_setCtxCore (m : Mach) (c k : Nat) (b : CtxCore) : (m.setCtxCore c k b).chains = m.chains := rfl
@[simp] theorem tiles_setCtxCore (m : Mach) (c k : Nat) (b : CtxCore) : (m.setCtxCore c k b).tiles = m.tiles := rfl
@[simp] theorem saved_setCtxCore (m : Mach) (c k : Nat) (b : CtxCore) : (m.setCtxCore c k b).saved = m.saved := rfl
@[simp] theorem arbiters_setCtxCore (m : Mach) (c k : Nat) (b : CtxCore) : (m.setCtxCore c k b).arbiters = m.arbiters := rfl
@[simp] theorem queues_setCtxCore (m : Mach) (c k : Nat) (b : CtxCore) : (m.setCtxCore c k b).queues = m.queues := rfl
@[simp] theorem nextId_setCtxCore (m : Mach) (c k : Nat) (b : CtxCore) : (m.setCtxCore c k b).nextId = m.nextId := rfl
@[simp] theorem free_setCtxCore (m : Mach) (c k : Nat) (b : CtxCore) : (m.setCtxCore c k b).free = m.free := rfl
@[simp] theorem ctxClusters_setCtxCore (m : Mach) (c k : Nat) (b : CtxCore) : (m.setCtxCore c k b).ctxClusters = m.ctxClusters := rfl
@[simp] theorem mem_adjCtxCluster (m : Mach) (c k : Nat) (f : CtxCluster → CtxCluster) : (m.adjCtxCluster c k f).mem = m.mem := rfl
@[simp] theorem poison_adjCtxCluster (m : Mach) (c k : Nat) (f : CtxCluster → CtxCluster) : (m.adjCtxCluster c k f).poison = m.poison := rfl
@[simp] theorem l2_adjCtxCluster (m : Mach) (c k : Nat) (f : CtxCluster → CtxCluster) : (m.adjCtxCluster c k f).l2 = m.l2 := rfl
@[simp] theorem late_adjCtxCluster (m : Mach) (c k : Nat) (f : CtxCluster → CtxCluster) : (m.adjCtxCluster c k f).late = m.late := rfl
@[simp] theorem rels_adjCtxCluster (m : Mach) (c k : Nat) (f : CtxCluster → CtxCluster) : (m.adjCtxCluster c k f).rels = m.rels := rfl
@[simp] theorem wstore_adjCtxCluster (m : Mach) (c k : Nat) (f : CtxCluster → CtxCluster) : (m.adjCtxCluster c k f).wstore = m.wstore := rfl
@[simp] theorem tlb_adjCtxCluster (m : Mach) (c k : Nat) (f : CtxCluster → CtxCluster) : (m.adjCtxCluster c k f).tlb = m.tlb := rfl
@[simp] theorem stores_adjCtxCluster (m : Mach) (c k : Nat) (f : CtxCluster → CtxCluster) : (m.adjCtxCluster c k f).stores = m.stores := rfl
@[simp] theorem grids_adjCtxCluster (m : Mach) (c k : Nat) (f : CtxCluster → CtxCluster) : (m.adjCtxCluster c k f).grids = m.grids := rfl
@[simp] theorem slices_adjCtxCluster (m : Mach) (c k : Nat) (f : CtxCluster → CtxCluster) : (m.adjCtxCluster c k f).slices = m.slices := rfl
@[simp] theorem copies_adjCtxCluster (m : Mach) (c k : Nat) (f : CtxCluster → CtxCluster) : (m.adjCtxCluster c k f).copies = m.copies := rfl
@[simp] theorem gathers_adjCtxCluster (m : Mach) (c k : Nat) (f : CtxCluster → CtxCluster) : (m.adjCtxCluster c k f).gathers = m.gathers := rfl
@[simp] theorem chains_adjCtxCluster (m : Mach) (c k : Nat) (f : CtxCluster → CtxCluster) : (m.adjCtxCluster c k f).chains = m.chains := rfl
@[simp] theorem tiles_adjCtxCluster (m : Mach) (c k : Nat) (f : CtxCluster → CtxCluster) : (m.adjCtxCluster c k f).tiles = m.tiles := rfl
@[simp] theorem saved_adjCtxCluster (m : Mach) (c k : Nat) (f : CtxCluster → CtxCluster) : (m.adjCtxCluster c k f).saved = m.saved := rfl
@[simp] theorem arbiters_adjCtxCluster (m : Mach) (c k : Nat) (f : CtxCluster → CtxCluster) : (m.adjCtxCluster c k f).arbiters = m.arbiters := rfl
@[simp] theorem queues_adjCtxCluster (m : Mach) (c k : Nat) (f : CtxCluster → CtxCluster) : (m.adjCtxCluster c k f).queues = m.queues := rfl
@[simp] theorem nextId_adjCtxCluster (m : Mach) (c k : Nat) (f : CtxCluster → CtxCluster) : (m.adjCtxCluster c k f).nextId = m.nextId := rfl
@[simp] theorem free_adjCtxCluster (m : Mach) (c k : Nat) (f : CtxCluster → CtxCluster) : (m.adjCtxCluster c k f).free = m.free := rfl
@[simp] theorem cur_adjCtxCluster (m : Mach) (c k : Nat) (f : CtxCluster → CtxCluster) : (m.adjCtxCluster c k f).cur = m.cur := rfl
@[simp] theorem cores_adjCtxCluster (m : Mach) (c k : Nat) (f : CtxCluster → CtxCluster) : (m.adjCtxCluster c k f).cores = m.cores := rfl
@[simp] theorem ctxCores_adjCtxCluster (m : Mach) (c k : Nat) (f : CtxCluster → CtxCluster) : (m.adjCtxCluster c k f).ctxCores = m.ctxCores := rfl
@[simp] theorem newId_fst (m : Mach) : m.newId.1 = m.nextId := rfl
@[simp] theorem newId_snd (m : Mach) : m.newId.2 = { m with nextId := m.nextId + 1 } := rfl

/-! Registers. -/

theorem getD_mergeVec (old : LaneVec) (mask : Word) (f : Nat → Word) (l : Nat) (h : l < 32) :
    (mergeVec old mask f).getD l 0 = if inMask mask l then f l else old.getD l 0 := by
  simp [mergeVec, List.getD, h]

@[simp] theorem writeReg_groups (w : Warp) (r : Nat) (k : Word) (f : Nat → Word) : (w.writeReg r k f).groups = w.groups := rfl
@[simp] theorem writeReg_hgroups (w : Warp) (r : Nat) (k : Word) (f : Nat → Word) : (w.writeReg r k f).hgroups = w.hgroups := rfl

/-- A register written in the lanes of a mask keeps its other lanes, and every other register keeps all of them (R180). -/
theorem regLane_writeReg (w : Warp) (r q : Nat) (k : Word) (f : Nat → Word) (l : Nat) (h : l < 32) :
    (w.writeReg r k f).regLane q l = if q = r ∧ inMask k l then f l else w.regLane q l := by
  unfold Warp.regLane Warp.reg Warp.writeReg
  simp only [mgetD_mput, laneOf]
  by_cases hq : q = r
  · subst hq
    rw [if_pos rfl, getD_mergeVec _ _ _ _ h]
    simp [Warp.reg, mgetD]
  · simp [hq]

end Sys2Proof.Machine
end

