-- ==== Sys2Proof/Laws/Ops.lean ====
section
/-! SUPPORT. What each shared operation can do, said once: room for a result, the end of a word, delivery of a result, and the shared operations of register and uniform
instructions. -/

namespace Sys2Proof.Machine

/-! Room made by spill bursts. -/

/-- Two machines that differ only in where the registers of other warps of a core stand. -/
structure SpillsOnly (m m' : Mach) (core pos : Nat) : Prop where
  below  : machRest m' = machRest m
  boxes  : m'.ctxCores = m.ctxCores
  rest   : coreRest (m'.core core) = coreRest (m.core core)
  cores  : ∀ c, c ≠ core → m'.core c = m.core c
  own    : m'.warp? core pos = m.warp? core pos
  others : ∀ p, p ≠ pos → (m'.warp? core p).map unspilled = (m.warp? core p).map unspilled

theorem SpillsOnly.refl (m : Mach) (core pos : Nat) : SpillsOnly m m core pos :=
  ⟨rfl, rfl, rfl, fun _ _ => rfl, rfl, fun _ _ => rfl⟩

theorem SpillsOnly.trans {m n o : Mach} {core pos : Nat} (h : SpillsOnly m n core pos) (k : SpillsOnly n o core pos) : SpillsOnly m o core pos :=
  ⟨k.below.trans h.below, k.boxes.trans h.boxes, k.rest.trans h.rest, fun c hc => (k.cores c hc).trans (h.cores c hc), k.own.trans h.own,
   fun p hp => (k.others p hp).trans (h.others p hp)⟩

/-- Sorting by a measure neither adds nor loses an element. -/
theorem mem_insertBy {α : Type} (f : α → Nat) (a x : α) (ys : List α) : a ∈ insertBy f x ys ↔ a = x ∨ a ∈ ys := by
  fun_induction insertBy f x ys <;> grind

theorem mem_sortBy {α : Type} (f : α → Nat) (a : α) (l : List α) : a ∈ sortBy f l ↔ a ∈ l := by
  unfold sortBy
  induction l using List.reverseRecOn with
  | nil => rfl
  | append_singleton l x ih => simp [mem_insertBy, ih, or_comm]

/-- A candidate for a spill burst stands in a slot of the core, and is not the warp that asks. -/
theorem spillCandidates_ne {m : Mach} {core pos : Nat} {e : Nat × Warp} (h : e ∈ spillCandidates m core pos) : e.1 ≠ pos ∧ e ∈ (m.core core).warps := by
  simp only [spillCandidates, List.mem_append, mem_sortBy, List.mem_filter, Bool.and_eq_true, decide_eq_true_eq] at h
  tauto

theorem unspilled_spill (w : Warp) : unspilled w.spill = unspilled w := rfl

theorem spillsOnly_adjWarp (m : Mach) (core pos p : Nat) (h : p ≠ pos) : SpillsOnly m (m.adjWarp core p Warp.spill) core pos := by
  cases hw : m.warp? core p with
  | none => rw [Mach.adjWarp, hw]; exact .refl ..
  | some w =>
    rw [Mach.adjWarp, hw]
    exact {
      below := rfl
      boxes := rfl
      rest := by simp [coreRest]
      cores := fun c hc => by simp [hc]
      own := by simp [Ne.symm h]
      others := fun q _ => by
        by_cases hq : q = p
        · simp [hq, hw, unspilled_spill]
        · simp [hq] }

/-- Room for a result moves nothing but registers of other warps of the core to their Satchels (R183). -/
theorem makeRoom_spills (fuel : Nat) (m : Mach) (core pos k : Nat) : ∀ {m' : Mach}, makeRoom fuel m core pos k = .ok m' → SpillsOnly m m' core pos := by
  fun_induction makeRoom fuel m core pos k with
  | case2 => rintro _ ⟨⟩; exact .refl ..
  | case5 _ _ _ _ _ _ _ _ he ih =>
    exact fun h => (spillsOnly_adjWarp _ _ _ _ (spillCandidates_ne (List.mem_of_find?_eq_some he)).1).trans (ih h)
  | _ => rintro _ ⟨⟩

/-- A destination that is ready has at most made room. -/
theorem regsReady_spills {m m' : Mach} {x : Ex} {r count : Nat} (h : regsReady m x r count = .go m') : SpillsOnly m m' x.core x.pos := by
  dsimp only [regsReady] at h
  split_ifs at h
  · exact DstReady.go.inj h ▸ .refl ..
  · revert h
    cases hk : makeRoom 40 m x.core x.pos count with
    | ok n => rintro ⟨⟩; exact makeRoom_spills _ _ _ _ _ hk
    | _ => simp

theorem dstReady_spills {m m' : Mach} {x : Ex} {srcs : List Src} {nw : Bool} {d : BitVec 8} {count : Nat} (h : dstReady m x srcs nw d count = .go m') :
    SpillsOnly m m' x.core x.pos := by
  by_cases hv : nw = false ∧ isV d = true
  · exact regsReady_spills (by simpa [dstReady, hv.1, hv.2] using h)
  · have : m' = m := by simp only [dstReady] at h; grind
    exact this ▸ .refl ..

/-! The end of a word. -/

/-- What `ex?` says of the state: the warp stands in its position, and the group in its place. -/
theorem ex?_some {s : State} {x : Ex} (h : s.ex? = some x) :
    s.m.cur = some { core := x.core, pos := x.pos, hand := x.hand, grp := x.grp } ∧ s.m.warp? x.core x.pos = some x.w
      ∧ (if x.hand then x.w.hgroups else x.w.groups)[x.grp]? = some x.g ∧ x.g.run = some x.r := by
  revert h
  fun_cases State.ex? s with
  | case5 => rintro ⟨⟩; exact ⟨‹_›, ‹_›, ‹_›, ‹_›⟩
  | _ => simp

/-- The word put back, as `ex?` finds it. -/
def Ex.settled (z : Ex) : Ex := { z with w := z.warp, g := { z.g with run := some z.r } }

theorem groups_warp (z : Ex) : z.warp.groups = if z.hand then z.w.groups else setAt z.w.groups z.grp { z.g with run := some z.r } := by
  unfold Ex.warp; split <;> simp_all

theorem hgroups_warp (z : Ex) : z.warp.hgroups = if z.hand then setAt z.w.hgroups z.grp { z.g with run := some z.r } else z.w.hgroups := by
  unfold Ex.warp; split <;> simp_all

theorem warpRest_warp (z : Ex) : warpRest z.warp = warpRest z.w := by unfold Ex.warp; split <;> rfl
@[simp] theorem regs_warp (z : Ex) : z.warp.regs = z.w.regs := by unfold Ex.warp; split <;> rfl
@[simp] theorem regLane_warp (z : Ex) (r l : Nat) : z.warp.regLane r l = z.w.regLane r l := by unfold Warp.regLane Warp.reg; rw [regs_warp]

/-- A group that stood among its warp's is found again once it has been put back. -/
theorem ex?_put {s : State} {m : Mach} {z : Ex} (hc : m.cur = some { core := z.core, pos := z.pos, hand := z.hand, grp := z.grp })
    (hg : z.grp < (if z.hand then z.w.hgroups else z.w.groups).length) : (s.withM (m.put z)).ex? = some z.settled := by
  have h1 : (m.put z).cur = some { core := z.core, pos := z.pos, hand := z.hand, grp := z.grp } := hc
  have h2 : (m.put z).warp? z.core z.pos = some z.warp := by simp [Mach.put]
  have h3 : (if z.hand then z.warp.hgroups else z.warp.groups)[z.grp]? = some { z.g with run := some z.r } := by
    rw [groups_warp, hgroups_warp]
    split at hg <;> rename_i hh
    · simp [hh, setAt, hg]
    · simp [hh, setAt, hg]
  unfold State.ex?
  simp only [withM_m, h1, h2]
  simp only [h3, Ex.settled]

/-- The word of `z` done and put back: its run stands at its next word and waits for nothing. -/
def Ex.finished (z : Ex) : Ex := ({ z with r := { z.r with pos := z.r.pos + 1, wait := .none, desc := [] } } : Ex).settled

@[simp] theorem regLane_finished (z : Ex) (r l : Nat) : z.finished.w.regLane r l = z.w.regLane r l := regLane_warp _ r l

/-- What a word may have come to before it is put back: `m` differs from the state's machine only as the word's own statement says and in where registers of other warps stand;
`z` stands in the place of `x`, with its effect on warp, group and run. -/
structure WordEnd (s : State) (x : Ex) (m : Mach) (z : Ex) : Prop where
  cur    : m.cur = s.m.cur
  place  : z.core = x.core ∧ z.pos = x.pos ∧ z.hand = x.hand ∧ z.grp = x.grp
  groups : z.w.groups = x.w.groups ∧ z.w.hgroups = x.w.hgroups
  run    : z.r = { x.r with latches := z.r.latches, nextPc := z.r.nextPc, wait := z.r.wait, desc := z.r.desc }
  group  : { z.g with run := none } = { x.g with run := none, depth := z.g.depth, passed := z.g.passed }
  cores  : ∀ c, c ≠ x.core → m.core c = s.m.core c
  others : ∀ p, p ≠ x.pos → (m.warp? x.core p).map unspilled = (s.m.warp? x.core p).map unspilled
  boxes  : ∀ k, k ≠ ccKey x.w.ctx x.core → mgetD m.ctxCores k .fresh = mgetD s.m.ctxCores k .fresh

theorem WordEnd.setCtxCore {s : State} {x : Ex} {m : Mach} {z : Ex} (h : WordEnd s x m z) (cc : CtxCore) : WordEnd s x (m.setCtxCore x.w.ctx x.core cc) z :=
  { h with boxes := fun k hk => (box_setCtxCore_other _ _ _ _ _ hk).trans (h.boxes k hk) }

/-- What a word leaves counts only as far as the frame looks at it. -/
theorem wordDone_congr {s : State} {x : Ex} {t : State} {y : Ex} {e e' : Rest} (h : WordDone s x t y e) (hm : machRest e.m = machRest e'.m)
    (hc : coreRest e.c = coreRest e'.c) (hw : warpRest e.w = warpRest e'.w) (hb : e.box = e'.box) : WordDone s x t y e' :=
  { h with below := h.below.trans hm, own := h.own.trans hc, warp := h.warp.trans hw, box := h.box.trans hb }

/-- THE END OF A WORD. -/
theorem wordDone_of {s : State} {x : Ex} (hx : s.ex? = some x) {m : Mach} {z : Ex} (h : WordEnd s x m z) :
    WordDone s x (s.withM (m.advance z)) z.finished { m := m, c := m.core x.core, w := z.w, box := m.ctxCore x.w.ctx x.core } := by
  obtain ⟨cur, -, there, -⟩ := ex?_some hx
  obtain ⟨p1, p2, p3, p4⟩ := h.place
  have pos : (m.advance z).core x.core = { m.core x.core with warps := mset (m.core x.core).warps x.pos z.finished.w } := by
    simp [Mach.advance, Mach.put, p1, p2]; rfl
  exact {
    here := ex?_put (z := { z with r := { z.r with pos := z.r.pos + 1, wait := .none, desc := [] } }) (by simp [p1, p2, p3, p4, h.cur, cur]) (by
      simpa [p3, p4, h.groups] using (List.getElem?_eq_some_iff.mp there).1)
    place := h.place
    run := by
      have := congrArg (fun r : Run => { r with pos := r.pos + 1, wait := .none, desc := [] }) h.run
      exact this
    group := by
      have := congrArg (fun g : Group => { g with run := some z.finished.r }) h.group
      exact this
    groups := by
      show (Ex.warp _).groups = _
      rw [groups_warp]; simp [p3, p4, h.groups]; rfl
    hgroups := by
      show (Ex.warp _).hgroups = _
      rw [hgroups_warp]; simp [p3, p4, h.groups]; rfl
    warp := warpRest_warp _
    package := rfl
    below := rfl
    own := by rw [withM_m, pos]; rfl
    cores := fun c hc => by simp [Mach.advance, Mach.put, p1, hc, h.cores]
    others := fun p hp => by simp [Mach.advance, Mach.put, p2, hp, h.others]
    box := rfl
    boxes := h.boxes }

/-- THE END OF A WORD that leaves `cc` as the per-context state of its core. -/
theorem wordDone_advance {s : State} {x : Ex} (hx : s.ex? = some x) {m : Mach} {z : Ex} (cc : CtxCore) (h : WordEnd s x m z) :
    WordDone s x (s.withM ((m.setCtxCore x.w.ctx x.core cc).advance z)) z.finished { m := m, c := m.core x.core, w := z.w, box := cc } :=
  wordDone_congr (wordDone_of hx (h.setCtxCore cc)) rfl rfl rfl (ctxCore_setCtxCore_same ..)

theorem WordEnd.same (s : State) (x : Ex) : WordEnd s x s.m x where
  cur := rfl
  place := ⟨rfl, rfl, rfl, rfl⟩
  groups := ⟨rfl, rfl⟩
  run := rfl
  group := rfl
  cores _ _ := rfl
  others _ _ := rfl
  boxes _ _ := rfl

/-- A word without an effect of its own: the run goes on. -/
theorem advance_done {s : State} {x : Ex} (hx : s.ex? = some x) :
    ∃ y, WordDone s x (s.withM (s.m.advance x)) y (.same s x) ∧ FlowKept x y ∧ RegsKept x y ∧ y.r.latches = x.r.latches :=
  ⟨_, wordDone_of hx (.same s x), { nextPc := rfl, depth := ⟨rfl, rfl⟩ }, fun _ _ _ => regLane_finished .., rfl⟩

/-! Results. -/

theorem SpillsOnly.box {m m' : Mach} {core pos : Nat} (h : SpillsOnly m m' core pos) (c k : Nat) : m'.ctxCore c k = m.ctxCore c k := by
  simp only [Mach.ctxCore, h.boxes]

theorem SpillsOnly.cur {m m' : Mach} {core pos : Nat} (h : SpillsOnly m m' core pos) : m'.cur = m.cur :=
  show (machRest m').cur = (machRest m).cur by rw [h.below]

/-- A word whose only effect beside its own warp is the room made for its result. -/
theorem SpillsOnly.wordEnd {s : State} {x z : Ex} {m : Mach} (sp : SpillsOnly s.m m x.core x.pos)
    (place : z.core = x.core ∧ z.pos = x.pos ∧ z.hand = x.hand ∧ z.grp = x.grp)
    (groups : z.w.groups = x.w.groups ∧ z.w.hgroups = x.w.hgroups)
    (run : z.r = { x.r with latches := z.r.latches, nextPc := z.r.nextPc, wait := z.r.wait, desc := z.r.desc })
    (group : { z.g with run := none } = { x.g with run := none, depth := z.g.depth, passed := z.g.passed }) : WordEnd s x m z :=
  { cur := sp.cur, place, groups, run, group, cores := sp.cores, others := sp.others, boxes := fun k _ => by rw [sp.boxes] }

/-- `count` registers written one after another in the lanes of a mask (R180). -/
theorem regLane_writeRegs (count d : Nat) (k : Word) (f : Nat → Nat → Word) (w : Warp) (r l : Nat) (h : l < 32) :
    ((List.range count).foldl (fun w i => w.writeReg (d + i) k (f i)) w).regLane r l
      = if d ≤ r ∧ r < d + count ∧ inMask k l then f (r - d) l else w.regLane r l := by
  induction count with
  | zero => simp; omega
  | succ n ih =>
    rw [List.range_succ, List.foldl_append]
    simp only [List.foldl_cons, List.foldl_nil]
    rw [regLane_writeReg _ _ _ _ _ _ h, ih]
    by_cases hr : r = d + n
    · subst hr
      by_cases hm : inMask k l <;> simp [hm]
    · by_cases hc : d ≤ r ∧ r < d + n ∧ inMask k l
      · have : d ≤ r ∧ r < d + (n + 1) ∧ inMask k l := ⟨hc.1, by omega, hc.2.2⟩
        simp [hr, hc, this]
      · have : ¬(d ≤ r ∧ r < d + (n + 1) ∧ inMask k l) := fun ⟨a, b, c⟩ => hc ⟨a, by omega, c⟩
        simp [hr, hc, this]

/-- Writing registers leaves all of a warp but its registers and their places. -/
theorem foldl_writeReg_rest (is : List Nat) (d : Nat) (k : Word) (f : Nat → Nat → Word) (w : Warp) :
    warpRest (is.foldl (fun w i => w.writeReg (d + i) k (f i)) w) = warpRest w
      ∧ (is.foldl (fun w i => w.writeReg (d + i) k (f i)) w).groups = w.groups
      ∧ (is.foldl (fun w i => w.writeReg (d + i) k (f i)) w).hgroups = w.hgroups := by
  induction is generalizing w with
  | nil => exact ⟨rfl, rfl, rfl⟩
  | cons i is ih => exact ih (w.writeReg (d + i) k (f i))

/-- `writeDst` changes nothing of the word but its warp, and of that the registers of a `v` destination alone. -/
theorem writeDst_word (cc : CtxCore) (z : Ex) (know : List Nat) (d : BitVec 8) (count : Nat) (res : Nat → List Word) :
    (writeDst cc z know d count res).2 = { z with w := (writeDst cc z know d count res).2.w }
      ∧ warpRest (writeDst cc z know d count res).2.w = warpRest z.w
      ∧ (writeDst cc z know d count res).2.w.groups = z.w.groups ∧ (writeDst cc z know d count res).2.w.hgroups = z.w.hgroups := by
  unfold writeDst
  split
  · exact ⟨rfl, foldl_writeReg_rest _ _ _ (fun i l => (res l).getD i 0) _⟩
  · repeat' split
    all_goals simp

/-- What `writeDst` leaves in the registers. -/
theorem writeDst_regs (cc : CtxCore) (z : Ex) (know : List Nat) (d : BitVec 8) (count : Nat) (res : Nat → List Word) (r l : Nat) (hl : l < 32) :
    (writeDst cc z know d count res).2.w.regLane r l
      = if isV d = true ∧ d.toNat ≤ r ∧ r < d.toNat + count ∧ inMask z.g.lanes l then (res l).getD (r - d.toNat) 0 else z.w.regLane r l := by
  unfold writeDst
  by_cases hv : isV d = true
  · simpa only [hv, if_true, true_and] using regLane_writeRegs count d.toNat z.g.lanes (fun i l => (res l).getD i 0) z.w r l hl
  · simp only [hv, Bool.false_eq_true, false_and, if_false]
    repeat' split
    all_goals rfl

/-- What `writeDst` leaves in the mailboxes and queues: a specifier names a register, a mailbox or a queue, no two of them. -/
theorem writeDst_box (cc : CtxCore) (z : Ex) (know : List Nat) (d : BitVec 8) (count : Nat) (res : Nat → List Word) :
    (writeDst cc z know d count res).1 = if isMailbox d then fillMailbox cc (waitToken z.w z.g) (d.toNat - 0x90) ((res z.low).getD 0 0) know
      else if isQueue d then pushQueue cc (d.toNat - 0x88) ((res z.low).getD 0 0) else cc := by
  unfold writeDst
  by_cases hv : isV d = true
  · have hm : isMailbox d = false := by simp only [isV, isMailbox, decide_eq_true_eq, decide_eq_false_iff_not, Bool.and_eq_false_iff] at *; omega
    have hq : isQueue d = false := by simp only [isV, isQueue, decide_eq_true_eq, decide_eq_false_iff_not, Bool.and_eq_false_iff] at *; omega
    simp [hv, hm, hq]
  · simp only [hv, Bool.false_eq_true, if_false]
    repeat' split
    all_goals rfl

/-- Taking sources changes what the warp knows of other agents' writes, and its order of registers, alone. -/
theorem taken_word (x : Ex) (m : Mach) (srcs : List Src) :
    x.taken m srcs = { x with w := { x.w with know := (x.taken m srcs).w.know, lru := (x.taken m srcs).w.lru } } := by
  unfold Ex.taken Ex.touch Ex.learn Warp.touch
  split <;> rfl

/-- What happens before a fill is the same with room made (R183, R193). -/
theorem SpillsOnly.fillKnow {m m' : Mach} {core pos : Nat} (h : SpillsOnly m m' core pos) (x : Ex) (srcs : List Src) : x.fillKnow m' srcs = x.fillKnow m srcs := by
  have hl : m'.late = m.late := (congrArg Mach.late h.below : (machRest m').late = (machRest m).late)
  simp only [Ex.fillKnow, Ex.taken, Ex.learn, takenKnow, Warp.history, stillLate, lateOf, Mach.ctxCore, h.boxes, hl]

/-- A result delivered by `writeDst` and `advance`, the sources taken: the frame and the registers. `m` is the machine with room made, `z` the word with whatever else it did
to its warp and run. -/
theorem delivered_writeDst {s : State} {x : Ex} (hx : s.ex? = some x) {m : Mach} {z : Ex} (h : WordEnd s x m z) (uid : z.w.uid = x.w.uid) (regs : RegsKept x z)
    (next : z.r.nextPc = x.r.nextPc) (group : z.g = x.g) (srcs : List Src) (nw : Bool) (d : BitVec 8) (count : Nat) (res : Nat → List Word) (m' : Mach)
    {know : List Nat} (hk : know = x.fillKnow s.m srcs) :
    let cy := if nw then (takeSources (m.ctxCore x.w.ctx x.core) x srcs, z) else writeDst (takeSources (m.ctxCore x.w.ctx x.core) x srcs) z know d count res
    ∃ y, Delivered s x (s.withM ((m.setCtxCore x.w.ctx x.core cy.1).advance (cy.2.taken m' srcs))) y
          { m := m, c := m.core x.core, w := z.w, box := m.ctxCore x.w.ctx x.core } srcs nw d count res
        ∧ y.r.latches = z.r.latches := by
  intro cy
  have word : cy.2 = { z with w := cy.2.w } ∧ warpRest cy.2.w = warpRest z.w ∧ cy.2.w.groups = z.w.groups ∧ cy.2.w.hgroups = z.w.hgroups := by
    simp only [cy]; split
    · exact ⟨rfl, rfl, rfl, rfl⟩
    · exact writeDst_word ..
  have box : cy.1 = boxAfter (m.ctxCore x.w.ctx x.core) x (x.fillKnow s.m srcs) srcs nw d ((res x.low).getD 0 0) := by
    have hl : z.low = x.low := by simp only [Ex.low, group]
    have ht : waitToken z.w z.g = waitToken x.w x.g := by simp only [waitToken, uid, group]
    simp only [cy, boxAfter]; split
    · rfl
    · rw [writeDst_box, hl, ht, hk]
  have reg : ∀ r l, l < 32 → cy.2.w.regLane r l = if (nw = false ∧ isV d = true) ∧ d.toNat ≤ r ∧ r < d.toNat + count ∧ inMask x.g.lanes l
      then (res l).getD (r - d.toNat) 0 else x.w.regLane r l := by
    intro r l hl
    simp only [cy]; split
    · rename_i hn; simp [hn, regs r l hl]
    · rename_i hn; rw [writeDst_regs _ _ _ _ _ _ _ _ hl, regs r l hl, group]; simp [hn]
  set v := cy.2.taken m' srcs with hv
  have hword : v = { z with w := v.w } := by rw [hv, taken_word]; rw [word.1]
  have hrest : warpRest v.w = warpRest z.w ∧ v.w.groups = z.w.groups ∧ v.w.hgroups = z.w.hgroups ∧ ∀ r l, v.w.regLane r l = cy.2.w.regLane r l := by
    rw [hv, taken_word]; exact ⟨word.2.1, word.2.2.1, word.2.2.2, fun _ _ => rfl⟩
  have ends : WordEnd s x m v := {
    h with
    place := by rw [hword]; exact h.place
    groups := ⟨hrest.2.1.trans h.groups.1, hrest.2.2.1.trans h.groups.2⟩
    run := by rw [hword]; exact h.run
    group := by rw [hword]; exact h.group }
  refine ⟨v.finished, ⟨wordDone_congr (wordDone_advance hx cy.1 ends) rfl rfl hrest.1 box, ⟨?_, ?_⟩, ?_⟩, ?_⟩
  · rw [hword]; exact next
  · rw [hword]; show z.g.depth = _ ∧ z.g.passed = _; rw [group]; exact ⟨rfl, rfl⟩
  · split
    · rename_i hc
      intro r l hl
      rw [regLane_finished, hrest.2.2.2, reg r l hl]; simp only [hc, and_self, true_and]
    · rename_i hc
      intro r l hl
      rw [regLane_finished, hrest.2.2.2, reg r l hl, if_neg (fun k => hc k.1)]
  · rw [hword]; rfl

/-- A word that latches its result has changed nothing but its latches. -/
theorem shiftLatches_word (x : Ex) (out : Nat → List Word) :
    shiftLatches x out = { x with r := { x.r with latches := latched x (fun l => (out l).getD 0 0) } } := rfl

/-- WHAT `regOp` DOES when its sources are there, its destination has room, and no lane faults. -/
theorem regOp_done {s : State} {x : Ex} (hx : s.ex? = some x) {uni : Bool} {srcs : List Src} {nw : Bool} {d : BitVec 8} {count : Nat} {latch : Bool}
    {f : (Nat → List DWord) → Nat → Except FaultInfo (List Word)} {m : Mach} (hr : WordReady s x uni srcs nw d count m)
    (hf : laneFaults x uni (f (fun l => operands s x srcs (if uni then x.low else l))) = []) :
    ∃ y, Delivered s x (s.withM (regOp s.m x uni srcs nw d count latch f)) y (.same s x) srcs nw d count
        (okResult x uni (f (fun l => operands s x srcs (if uni then x.low else l))))
      ∧ y.r.latches = if latch then latched x (fun l => (okResult x uni (f (fun l => operands s x srcs (if uni then x.low else l))) l).getD 0 0) else x.r.latches := by
  obtain ⟨hs, hd⟩ := hr
  have sp := dstReady_spills hd
  have hbox : m.ctxCore x.w.ctx x.core = boxOf s x := sp.box _ _
  set vals : Nat → List DWord := fun l => operands s x srcs (if uni then x.low else l) with hvals
  have hv : (fun l => srcValues (m.ctxCore x.w.ctx x.core) x (if uni then x.low else l) srcs []) = vals := by
    funext l; simp only [hvals, operands, hbox]
  set out := okResult x uni (f vals) with hout
  obtain ⟨z, hz, hword⟩ : ∃ z : Ex, z = (if latch then shiftLatches x out else x)
      ∧ z = { x with r := { x.r with latches := if latch then latched x (fun l => (out l).getD 0 0) else x.r.latches } } :=
    ⟨_, rfl, by split <;> rfl⟩
  have ends : WordEnd s x m z :=
    sp.wordEnd (by rw [hword]; exact ⟨rfl, rfl, rfl, rfl⟩) (by rw [hword]; exact ⟨rfl, rfl⟩) (by rw [hword]) (by rw [hword])
  obtain ⟨y, hy, hl⟩ := delivered_writeDst hx ends (by rw [hword]) (fun r l _ => by rw [hword]) (by rw [hword]) (by rw [hword]) srcs nw d count out m (sp.fillKnow x srcs)
  have same : regOp s.m x uni srcs nw d count latch f =
      let cy := if nw then (takeSources (m.ctxCore x.w.ctx x.core) x srcs, z) else writeDst (takeSources (m.ctxCore x.w.ctx x.core) x srcs) z (x.fillKnow m srcs) d count out
      (m.setCtxCore x.w.ctx x.core cy.1).advance (cy.2.taken m srcs) := by
    unfold regOp
    simp only [hs, hd, hv, hf, deliver, hz]
    rfl
  rw [same]
  refine ⟨y, ⟨wordDone_congr hy.done sp.below sp.rest (by rw [hword]; rfl) (by rw [hbox]; rfl), hy.flow, hy.regs⟩, hl.trans (by rw [hword])⟩

theorem laneFaults_ok (x : Ex) (uni : Bool) (g : Nat → List Word) : laneFaults x uni (fun l => .ok (g l)) = [] := by
  unfold laneFaults
  split
  · rfl
  · simp

theorem okResult_ok (x : Ex) (uni : Bool) (g : Nat → List Word) : okResult x uni (fun l => .ok (g l)) = fun l => g (if uni then x.low else l) := rfl

/-- A meaning over the word being executed answers a next state. -/
theorem onWord_next {s : State} {x : Ex} (hx : s.ex? = some x) (f : Ex → Mach) : onWord s f = .next (s.withM (f x)) := by
  simp only [onWord, hx]

/-- A lane instruction of one word completes when it is ready. -/
theorem laneOp_result {s : State} {x : Ex} (hx : s.ex? = some x) {srcs : List Src} {n : BitVec 1} {d : BitVec 8} {m : Mach}
    (hr : WordReady s x false srcs (nwOf n) d 1 m) (f : List DWord → Word) : LaneResult s x srcs n d f (laneOp s srcs n d f) := by
  obtain ⟨y, hy, hl⟩ := regOp_done hx (latch := true) (f := fun vals l => .ok [f (vals l)]) hr (laneFaults_ok ..)
  exact ⟨_, y, onWord_next hx _, hy, hl⟩

/-- A uniform instruction of one word completes when it is ready. -/
theorem uniOp_result {s : State} {x : Ex} (hx : s.ex? = some x) {srcs : List Src} {n : BitVec 1} {d : BitVec 8} {m : Mach}
    (hr : WordReady s x true srcs (nwOf n) d 1 m) (f : List DWord → Word) : UniformResult s x srcs n d f (uniOp s srcs n d f) := by
  obtain ⟨y, hy, hl⟩ := regOp_done hx (latch := true) (f := fun vals l => .ok [f (vals l)]) hr (laneFaults_ok ..)
  exact ⟨_, y, onWord_next hx _, hy, hl⟩

/-- WHAT `uniEffect` DOES when its sources are there, its destination has room, and its effect is made: `m` is the machine with room made, `m'` and `z` the machine and the
word after the effect. -/
theorem uniEffect_done {s : State} {x : Ex} (hx : s.ex? = some x) {srcs : List Src} {d : BitVec 8} {count : Nat} {f : List DWord → Mach → Ex → Eff} {m m' : Mach} {z : Ex}
    {vs : List Word} (hr : WordReady s x true srcs false d count m) (hf : f (operands s x srcs x.low) m x = .ok m' z vs) (h : WordEnd s x m' z)
    (regs : RegsKept x z) (uid : z.w.uid = x.w.uid ∧ z.w.ctx = x.w.ctx) (next : z.r.nextPc = x.r.nextPc) (group : z.g = x.g) :
    ∃ y, Delivered s x (s.withM (uniEffect s.m x srcs d count f)) y { m := m', c := m'.core x.core, w := z.w, box := m'.ctxCore x.w.ctx x.core } srcs false d count (fun _ => vs)
      ∧ y.r.latches = z.r.latches := by
  obtain ⟨hs, hd⟩ := hr
  have hv : srcValues (m.ctxCore x.w.ctx x.core) x x.low srcs [] = operands s x srcs x.low := by simp only [operands, boxOf, (dstReady_spills hd).box]
  have htake : ∀ cc, takeSources cc z srcs = takeSources cc x srcs := fun cc => by
    have : waitToken z.w z.g = waitToken x.w x.g := by simp only [waitToken, uid.1, group]
    dsimp only [takeSources]; rw [this]
  obtain ⟨y, hy, hl⟩ := delivered_writeDst hx h uid.1 regs next group srcs false d count (fun _ => vs) m' ((dstReady_spills hd).fillKnow x srcs)
  have ctx : ∀ cc know, (writeDst cc z know d count (fun _ => vs)).2.w.ctx = x.w.ctx ∧ (writeDst cc z know d count (fun _ => vs)).2.core = x.core := fun cc know => by
    obtain ⟨e, k, -⟩ := writeDst_word cc z know d count (fun _ => vs)
    exact ⟨(congrArg Warp.ctx k).trans uid.2, (congrArg Ex.core e).trans h.place.1⟩
  have same : uniEffect s.m x srcs d count f =
      let cy := writeDst (takeSources (m'.ctxCore x.w.ctx x.core) x srcs) z (x.fillKnow m srcs) d count (fun _ => vs)
      (m'.setCtxCore x.w.ctx x.core cy.1).advance (cy.2.taken m' srcs) := by
    unfold uniEffect
    simp only [hs, hd, hv, hf, uid.2, h.place.1, htake, ctx]
  rw [same]
  exact ⟨y, hy, hl⟩

/-- A group with a lane has its lowest lane among its lanes. -/
theorem low_active (x : Ex) (h : x.g.lanes ≠ 0) : inMask x.g.lanes x.low = true ∧ x.low ∈ x.lanes := by
  have : maskLanes x.g.lanes ≠ [] := by
    intro hn
    apply h
    apply BitVec.eq_of_getLsbD_eq
    intro i hi
    by_contra hb
    have : i ∈ maskLanes x.g.lanes := by
      simp [maskLanes, hi]; cases hc : x.g.lanes.getLsbD i <;> simp_all
    rw [hn] at this; simp at this
  have hm : x.low ∈ x.lanes := by
    unfold Ex.low lowLane Ex.lanes
    cases hh : maskLanes x.g.lanes with
    | nil => exact absurd hh this
    | cons a l => simp
  refine ⟨?_, hm⟩
  have := hm
  simp [Ex.lanes, maskLanes] at this
  exact this.2

/-- A lane instruction of one result word none of whose lanes faults. -/
theorem laneResults_of {s : State} {x : Ex} (hx : s.ex? = some x) {srcs : List Src} {n : BitVec 1} {d : BitVec 8} {m : Mach}
    (hr : WordReady s x false srcs (nwOf n) d 1 m) (hn : x.g.lanes ≠ 0) {f : (Nat → List DWord) → Nat → Except FaultInfo (List Word)} {g : Nat → Word}
    (hf : ∀ l ∈ x.lanes, f (operands s x srcs) l = .ok [g l]) :
    LaneResults s x srcs n d g (.next (s.withM (regOp s.m x false srcs (nwOf n) d 1 true f))) := by
  obtain ⟨y, hy, hl⟩ := regOp_done hx (latch := true) (f := f) hr (by
    unfold laneFaults
    simp only [Bool.false_eq_true, if_false]
    rw [List.filterMap_eq_nil_iff]
    intro l hl; simp [hf l hl])
  have hok : ∀ l ∈ x.lanes, okResult x false (f (operands s x srcs)) l = [g l] := by
    intro l hl; simp [okResult, hf l hl]
  simp only [Bool.false_eq_true, if_false] at hy hl
  refine ⟨_, y, rfl, ⟨?_, hy.flow, ?_⟩, ?_⟩
  · have h := hy.done
    rw [hok _ (low_active x hn).2] at h
    exact h
  · have h := hy.regs
    split
    · rename_i hc; rw [if_pos hc] at h
      intro r l hl
      rw [h r l hl]
      by_cases hk : d.toNat ≤ r ∧ r < d.toNat + 1 ∧ inMask x.g.lanes l
      · rw [if_pos hk, if_pos hk]
        rw [show (fun l => operands s x srcs l) = operands s x srcs from rfl, hok l (by simp [Ex.lanes, maskLanes, hl]; exact hk.2.2)]
      · rw [if_neg hk, if_neg hk]
    · rename_i hc; rw [if_neg hc] at h; exact h
  · rw [hl]
    simp only [if_true, latched, latchOf]
    congr 2
    apply List.map_congr_left
    intro l hl
    have hl := List.mem_range.mp hl
    by_cases hk : inMask x.g.lanes l
    · rw [if_pos hk, if_pos hk]
      rw [hok l (by simp [Ex.lanes, maskLanes, hl]; exact hk)]; rfl
    · rw [if_neg hk, if_neg hk]

/-- A cross-lane instruction each of whose lanes is in its own mask (R225). -/
theorem crossOp_of {s : State} {x : Ex} (hx : s.ex? = some x) {q : Src} {n : BitVec 1} {d : BitVec 8} {m : Mach}
    (hr : WordReady s x false [q, srcI d] (nwOf n) d 1 m) (hn : x.g.lanes ≠ 0) (hm : ∀ l ∈ x.lanes, inMask (arg (operands s x [q, srcI d] l) 1) l)
    {f : Word → List Nat → (Nat → Word) → Nat → Word} {g : Nat → Word}
    (hf : ∀ l ∈ x.lanes, f (arg (operands s x [q, srcI d] l) 1) (present x.g.lanes (fun k => arg (operands s x [q, srcI d] k) 1) (arg (operands s x [q, srcI d] l) 1))
        (fun k => arg (operands s x [q, srcI d] k) 0) l = g l) :
    LaneResults s x [q, srcI d] n d g (crossOp s q n d f) := by
  unfold crossOp
  rw [onWord_next hx]
  refine laneResults_of hx hr hn (fun l hl => ?_)
  simp only [hm l hl, Bool.not_true, Bool.false_eq_true, if_false, hf l hl]

end Sys2Proof.Machine
end

