-- ==== Sys2Proof/Laws/Faults.lean ====
section
/-! SUPPORT. What taking a fault or trap does, said once: every active lane of a group outside the handler parks, and nothing else changes (R371, R372). -/

namespace Sys2Proof.Machine

theorem thread_adjThreads (w : Warp) (ls : List Nat) (f : Thread → Thread) (l : Nat) (h : l < 32) :
    (w.adjThreads ls f).thread l = if ls.contains l then f (w.thread l) else w.thread l := by
  simp [Warp.adjThreads, Warp.thread, h]

theorem inMask_without (k : Word) (a l : Nat) (h : l < 32) : inMask (k &&& ~~~(laneBit a)) l = (inMask k l && !decide (l = a)) := by
  simp only [inMask, laneBit, BitVec.getLsbD_and, BitVec.getLsbD_not, BitVec.getLsbD_ofNat, Nat.testBit_two_pow, h, decide_true, Bool.true_and, eq_comm]

/-- The lanes `ls` of the word `x` have parked, and `y` is the word then. -/
structure Parks (x y : Ex) (ls : List Nat) (f : Nat → FaultInfo) (resume : Pc) : Prop where
  word    : y = { x with w := y.w, g := { x.g with lanes := y.g.lanes } }
  rest    : warpThreads y.w = warpThreads x.w
  groups  : y.w.groups = x.w.groups
  count   : y.w.parkRuns = if ls = [] then x.w.parkRuns else some (x.w.parkRuns.getD 0)
  lanes   : ∀ l, l < 32 → inMask y.g.lanes l = (inMask x.g.lanes l && !ls.contains l)
  threads : ∀ l, l < 32 → y.w.thread l = if ls.contains l then parkedThread x l (f l) resume else x.w.thread l

/-- One more lane parks. -/
theorem Parks.snoc {x z : Ex} {ls : List Nat} {f : Nat → FaultInfo} {resume : Pc} (h : Parks x z ls f resume) {a : Nat} (ha : a < 32) (fresh : a ∉ ls) :
    Parks x (z.park a (x.record (f a)) resume) (ls ++ [a]) f resume where
  word := by
    have : z.park a (x.record (f a)) resume = { z with w := (z.park a (x.record (f a)) resume).w, g := { z.g with lanes := (z.park a (x.record (f a)) resume).g.lanes } } := rfl
    rw [this, h.word]
  rest := h.rest
  groups := h.groups
  count := by
    show some (z.w.parkRuns.getD 0) = _
    rw [h.count]
    split <;> simp
  lanes l hl := by
    show inMask (z.g.lanes &&& ~~~(laneBit a)) l = _
    rw [inMask_without _ _ _ hl, h.lanes l hl]
    by_cases he : l = a <;> simp [he]
  threads l hl := by
    have depth : z.g.depth = x.g.depth := by rw [h.word]
    have there : (z.park a (x.record (f a)) resume).w.thread l = (z.w.adjThreads [a] (fun _ =>
        { z.w.thread a with status := .parked, depth := z.g.depth, record := some (x.record (f a)), rpc := resume.setWidth 64, entered := false })).thread l := rfl
    rw [there, thread_adjThreads _ _ _ _ hl]
    by_cases he : l = a
    · subst he
      simp [h.threads l hl, fresh, parkedThread, depth, Ex.record]
    · simp [he, h.threads l hl]

/-- All of `ls` park one after another. -/
theorem parks_foldl (x : Ex) (ls : List Nat) (f : Nat → FaultInfo) (resume : Pc) (hn : ls.Nodup) (hb : ∀ l ∈ ls, l < 32) :
    Parks x (ls.foldl (fun z l => z.park l (z.record (f l)) resume) x) ls f resume := by
  induction ls using List.reverseRecOn with
  | nil => exact { word := rfl, rest := rfl, groups := rfl, count := rfl, lanes := by simp, threads := by simp }
  | append_singleton ls a ih =>
    rw [List.nodup_append] at hn
    have parked := ih hn.1 (fun l hl => hb l (List.mem_append_left _ hl))
    rw [List.foldl_concat]
    generalize ls.foldl (fun z l => z.park l (z.record (f l)) resume) x = z at parked ⊢
    have same : z.record (f a) = x.record (f a) := by rw [parked.word]; rfl
    rw [same]
    exact parked.snoc (hb a (by simp)) (fun hc => hn.2.2 a hc a (by simp) rfl)

theorem lanes_nodup (x : Ex) : x.lanes.Nodup := List.nodup_range.filter _
theorem lanes_lt (x : Ex) : ∀ l ∈ x.lanes, l < 32 := fun _ h => by simp [Ex.lanes, maskLanes] at h; exact h.1
theorem lanes_contains (x : Ex) (l : Nat) (h : l < 32) : x.lanes.contains l = inMask x.g.lanes l := by
  simp [Ex.lanes, maskLanes, h, inMask]

/-- A group with a lane has a first lane and the others after it. -/
theorem lanes_cons {x : Ex} (h : x.g.lanes ≠ 0) : ∃ a ls, x.lanes = a :: ls :=
  List.exists_cons_of_ne_nil (List.ne_nil_of_mem (low_active x h).2)

/-- A machine that is the state's own, as far as the frame of a fault looks at it. -/
structure SameBelow (s : State) (x : Ex) (m : Mach) : Prop where
  below  : machRest m = machRest s.m
  own    : coreRest (m.core x.core) = coreRest (s.m.core x.core)
  cores  : ∀ c, c ≠ x.core → m.core c = s.m.core c
  others : ∀ p, p ≠ x.pos → (m.warp? x.core p).map unspilled = (s.m.warp? x.core p).map unspilled
  boxes  : ∀ k, k ≠ ccKey x.w.ctx x.core → mgetD m.ctxCores k .fresh = mgetD s.m.ctxCores k .fresh

theorem SameBelow.refl (s : State) (x : Ex) : SameBelow s x s.m where
  below := rfl
  own := rfl
  cores _ _ := rfl
  others _ _ := rfl
  boxes _ _ := rfl

theorem SpillsOnly.sameBelow {s : State} {x : Ex} {m : Mach} (h : SpillsOnly s.m m x.core x.pos) : SameBelow s x m :=
  { below := h.below, own := h.rest, cores := h.cores, others := h.others, boxes := fun k _ => by rw [h.boxes] }

/-- Once all its lanes have parked, a group is gone. -/
theorem Parks.allParked {s : State} {x y : Ex} {f : Nat → FaultInfo} {resume : Pc} (h : Parks x y x.lanes f resume) (hh : x.hand = false) (hn : x.g.lanes ≠ 0)
    {m : Mach} (hm : SameBelow s x m) : y.g.lanes = 0 ∧ AllParked s x (s.withM (m.putOrDrop y)) f resume (m.ctxCore x.w.ctx x.core) := by
  have empty : y.g.lanes = 0 := by
    apply BitVec.eq_of_getLsbD_eq
    intro l hl
    have := h.lanes l hl
    rw [lanes_contains x l hl] at this
    simpa [inMask] using this
  have gone : m.putOrDrop y = m.setWarp x.core x.pos { y.w with groups := x.w.groups.take x.grp ++ x.w.groups.drop (x.grp + 1) } := by
    simp only [Mach.putOrDrop, empty, if_true]
    rw [h.word]
    simp [Ex.without, hh, h.groups]
  obtain ⟨a, ls, hls⟩ := lanes_cons hn
  refine ⟨empty, ?_⟩
  rw [gone]
  exact {
    warp := ⟨{ y.w with groups := x.w.groups.take x.grp ++ x.w.groups.drop (x.grp + 1) }, by simp, h.rest,
      fun l hl => (h.threads l hl).trans (by rw [lanes_contains x l hl]), rfl, by simpa [hls] using h.count⟩
    package := rfl
    below := hm.below
    own := by simpa [coreRest] using hm.own
    cores := fun c hc => by simp [hc, hm.cores c hc]
    others := fun p hp => by simp [hp, hm.others p hp]
    box := rfl
    boxes := hm.boxes }

/-- THE SHARED OPERATION for faults and traps: every active lane of a group outside the handler takes `f`, with the resume point `resume`. -/
theorem takeFaults_all {s : State} {x : Ex} (hh : x.hand = false) (hn : x.g.lanes ≠ 0) (f : Nat → FaultInfo) (resume : Pc) {m : Mach} (hm : SameBelow s x m) :
    ∃ y, takeFaults m x (x.lanes.map (fun l => (l, f l, resume))) = (m, some y) ∧ y.g.lanes = 0
      ∧ AllParked s x (s.withM (m.putOrDrop y)) f resume (m.ctxCore x.w.ctx x.core) := by
  refine ⟨_, ?_, (parks_foldl x x.lanes f resume (lanes_nodup x) (lanes_lt x)).allParked hh hn hm⟩
  obtain ⟨a, ls, hls⟩ := lanes_cons hn
  simp only [takeFaults, hls, List.map_cons, Ex.inHandler, hh, Bool.false_eq_true, if_false, List.foldl_cons, List.foldl_map]

/-- A precise fault of every active lane, where the warp has no open level (R292). -/
theorem deliver_all {s : State} {x : Ex} (hp : Plain x) (f : Nat → FaultInfo) {m : Mach} (hm : SameBelow s x m) :
    ∃ m', deliver m x (x.lanes.map (fun l => (l, f l))) = (m', none) ∧ AllParked s x (s.withM m') f x.pc (m.ctxCore x.w.ctx x.core) := by
  obtain ⟨hh, hn, levels⟩ := hp
  obtain ⟨y, took, gone, parked⟩ := takeFaults_all hh hn f x.pc hm
  refine ⟨_, ?_, parked⟩
  obtain ⟨a, ls, hls⟩ := lanes_cons hn
  have took : takeFaults m x ((x.lanes.map (fun l => (l, f l))).map (fun e => (e.1, e.2, x.pc))) = (m, some y) := by simpa [List.map_map, Function.comp_def] using took
  have closed : resolveLevels 4 m x = .resolved m x := by simp [resolveLevels, levels]
  unfold deliver
  rw [hls] at took ⊢
  simp only [List.map_cons] at took ⊢
  simp only [closed, took, gone, if_true]

/-- The machine itself is a machine that differs by nothing. -/
theorem deliverAll_parks {s : State} {x : Ex} (hp : Plain x) (f : FaultInfo) : AllParked s x (s.withM (deliverAll s.m x f)) (fun _ => f) x.pc (boxOf s x) := by
  obtain ⟨m', e, h⟩ := deliver_all hp (fun _ => f) (.refl s x)
  rw [deliverAll, e]
  exact h

end Sys2Proof.Machine
end

