-- ==== Sys2Proof/Laws/Control.lean ====
section
/-! SUPPORT. What the shared operation of transfers does when every active lane's target is good (R331, R332). -/

namespace Sys2Proof.Machine

theorem mget_foldl_mset {α : Type} (f : Nat → α) (ls : List Nat) (m : SMap α) (k : Nat) :
    mget (ls.foldl (fun n l => mset n l (f l)) m) k = if k ∈ ls then some (f k) else mget m k := by
  induction ls using List.reverseRecOn with
  | nil => simp
  | append_singleton ls a ih => rw [List.foldl_concat, mget_mset]; grind

/-- The targets of the lanes that have one, where each of `ls` has. -/
theorem foldl_targets (t : Nat → Except FaultInfo Pc) (tgt : Nat → Pc) (ls : List Nat) (n : SMap Pc) (h : ∀ l ∈ ls, t l = .ok (tgt l)) :
    ls.foldl (fun n l => match t l with | .ok pc => mset n l pc | .error _ => n) n = ls.foldl (fun n l => mset n l (tgt l)) n :=
  List.foldl_ext _ _ _ (fun n l hl => by rw [h l hl])

/-- The link pair is written in the active lanes, and nothing else of the warp's registers. -/
theorem regLane_link (w : Warp) (d : Nat) (k lo hi : Word) (r l : Nat) (h : l < 32) :
    ((w.writeReg d k (fun _ => lo)).writeReg (d + 1) k (fun _ => hi)).regLane r l
      = if d ≤ r ∧ r < d + 2 ∧ inMask k l then [lo, hi].getD (r - d) 0 else w.regLane r l := by
  have := regLane_writeRegs 2 d k (fun i _ => [lo, hi].getD i 0) w r l h
  rw [← this]
  rfl

/-- The warp with its link pair written, where there is one. -/
def linked (x : Ex) : Option (BitVec 8) → Warp
  | some d => (x.w.writeReg d.toNat x.g.lanes (fun _ => DWord.lo (x.returnPc.setWidth 64))).writeReg (d.toNat + 1) x.g.lanes (fun _ => DWord.hi (x.returnPc.setWidth 64))
  | none => x.w

/-- A transfer whose targets are good in every active lane. -/
theorem transfer_done {s : State} {x : Ex} (hx : s.ex? = some x) {srcs : List Src} {uni : Bool} {link : Option (BitVec 8)} {depth : Nat → Nat}
    {f : (Nat → List DWord) → Nat → Except FaultInfo Pc} {m : Mach} {tgt : Nat → Pc}
    (hs : srcReady s.m x uni srcs = .go) (hl : (match link with | some d => regsReady s.m x d.toNat 2 | none => .go s.m) = .go m)
    (hf : ∀ l ∈ x.lanes, f (fun l => operands s x srcs (if uni then x.low else l)) l = .ok (tgt l)) :
    ∃ y, Transferred s x (s.withM (transfer s.m x srcs uni link depth f)) y srcs link (depth x.g.depth) tgt := by
  have sp : SpillsOnly s.m m x.core x.pos := by
    cases link with
    | none => cases hl; exact .refl ..
    | some d => exact regsReady_spills hl
  have hv : (fun l => srcValues (m.ctxCore x.w.ctx x.core) x (if uni then x.low else l) srcs []) = fun l => operands s x srcs (if uni then x.low else l) := by
    funext l; simp only [operands, boxOf, sp.box]
  set at_ := f (fun l => operands s x srcs (if uni then x.low else l)) with hat
  have good : x.lanes.filterMap (fun l => match at_ l with | .error e => some (l, e) | .ok _ => none) = [] :=
    List.filterMap_eq_nil_iff.mpr (fun l hl => by rw [hf l hl])
  set z : Ex := { x with w := linked x link, g := { x.g with depth := depth x.g.depth }, r := { x.r with nextPc := x.lanes.foldl (fun n l => mset n l (tgt l)) x.r.nextPc } } with hz
  have done : transfer s.m x srcs uni link depth f = (m.setCtxCore x.w.ctx x.core (takeSources (m.ctxCore x.w.ctx x.core) x srcs)).advance (z.taken m srcs) := by
    unfold transfer
    simp only [hs]
    cases link with
    | none =>
      cases hl
      simp only [hv, ← hat]
      erw [good]
      simp only [deliver]
      erw [foldl_targets _ _ _ _ hf]
      rfl
    | some d =>
      simp only [] at hl
      simp only [hl, hv, ← hat]
      erw [good]
      simp only [deliver]
      erw [foldl_targets _ _ _ _ hf]
      rfl
  have warp : warpRest (linked x link) = warpRest x.w ∧ (linked x link).groups = x.w.groups ∧ (linked x link).hgroups = x.w.hgroups := by
    cases link <;> exact ⟨rfl, rfl, rfl⟩
  have ends : WordEnd s x m (z.taken m srcs) := by
    rw [taken_word]
    exact sp.wordEnd ⟨rfl, rfl, rfl, rfl⟩ warp.2 rfl rfl
  have regs : ∀ r l, (z.taken m srcs).finished.w.regLane r l = (linked x link).regLane r l := fun r l => by rw [regLane_finished, taken_word]; rfl
  have run : (z.taken m srcs).finished.r.nextPc = z.r.nextPc ∧ (z.taken m srcs).finished.r.latches = x.r.latches := by rw [taken_word]; exact ⟨rfl, rfl⟩
  rw [done]
  refine ⟨_, wordDone_congr (wordDone_advance hx _ ends) sp.below sp.rest ?_ ?_, ?_, ?_, run.2, ?_⟩
  · rw [taken_word]; exact warp.1
  · simp only [boxOf, sp.box]
  · intro l
    rw [run.1, hz, mget_foldl_mset]
    exact if_congr (by simp only [Ex.lanes, maskLanes, List.mem_filter, List.mem_range, inMask]) rfl rfl
  · rw [taken_word]; exact ⟨rfl, rfl⟩
  · cases link with
    | none => exact fun r l _ => regs r l
    | some d =>
      intro r l h
      have words : DWord.lo (x.returnPc.setWidth 64) = (x.pc + 8).setWidth 32 ∧ DWord.hi (x.returnPc.setWidth 64) = ((x.pc + 8) >>> 32).setWidth 32 := by
        constructor <;> apply BitVec.eq_of_toNat_eq <;> simp [DWord.lo, DWord.hi, Ex.returnPc]
        rw [Nat.mod_eq_of_lt (a := (BitVec.toNat x.pc + 8) % 281474976710656) (by omega)]
      rw [regs, linked, regLane_link _ _ _ _ _ _ _ h, words.1, words.2]

end Sys2Proof.Machine
end

