-- ==== Sys2Proof/Laws/Exec.lean ====
section
/-! SUPPORT. Which meaning the dispatcher calls, one lemma per constructor, so that no proof unfolds `exec`. -/

namespace Sys2Proof.Machine

@[simp] theorem exec_iadd {n d a b s} : exec (.iadd n d a b) s = execIadd n d a b s := rfl
@[simp] theorem exec_isub {n d a b s} : exec (.isub n d a b) s = execIsub n d a b s := rfl
@[simp] theorem exec_imul {n d a b s} : exec (.imul n d a b) s = execImul n d a b s := rfl
@[simp] theorem exec_imad {n d a b s} : exec (.imad n d a b) s = execImad n d a b s := rfl
@[simp] theorem exec_imulhS32 {n d a b s} : exec (.imulhS32 n d a b) s = execImulhS32 n d a b s := rfl
@[simp] theorem exec_imulhN32 {n d a b s} : exec (.imulhN32 n d a b) s = execImulhN32 n d a b s := rfl
@[simp] theorem exec_iaddS64 {d a b s} : exec (.iaddS64 d a b) s = execIaddS64 d a b s := rfl
@[simp] theorem exec_iaddN64 {d a b s} : exec (.iaddN64 d a b) s = execIaddN64 d a b s := rfl
@[simp] theorem exec_idot4S8 {n d a b s} : exec (.idot4S8 n d a b) s = execIdot4S8 n d a b s := rfl
@[simp] theorem exec_idot4N8 {n d a b s} : exec (.idot4N8 n d a b) s = execIdot4N8 n d a b s := rfl
@[simp] theorem exec_idot2S16 {n d a b s} : exec (.idot2S16 n d a b) s = execIdot2S16 n d a b s := rfl
@[simp] theorem exec_sel {n d a b s} : exec (.sel n d a b) s = execSel n d a b s := rfl
@[simp] theorem exec_qscl {n d a b s} : exec (.qscl n d a b) s = execQscl n d a b s := rfl
@[simp] theorem exec_lxch {n d a b s} : exec (.lxch n d a b) s = execLxch n d a b s := rfl
@[simp] theorem exec_movi {n d k1 s} : exec (.movi n d k1) s = execMovi n d k1 s := rfl
@[simp] theorem exec_hiw {n d k1 s} : exec (.hiw n d k1) s = execHiw n d k1 s := rfl
@[simp] theorem exec_and {n d a b s} : exec (.and n d a b) s = execAnd n d a b s := rfl
@[simp] theorem exec_or {n d a b s} : exec (.or n d a b) s = execOr n d a b s := rfl
@[simp] theorem exec_xor {n d a b s} : exec (.xor n d a b) s = execXor n d a b s := rfl
@[simp] theorem exec_andn {n d a b s} : exec (.andn n d a b) s = execAndn n d a b s := rfl
@[simp] theorem exec_shl {n d a b s} : exec (.shl n d a b) s = execShl n d a b s := rfl
@[simp] theorem exec_shr {n d a b s} : exec (.shr n d a b) s = execShr n d a b s := rfl
@[simp] theorem exec_sar {n d a b s} : exec (.sar n d a b) s = execSar n d a b s := rfl
@[simp] theorem exec_fshl {n d a b s} : exec (.fshl n d a b) s = execFshl n d a b s := rfl
@[simp] theorem exec_fshr {n d a b s} : exec (.fshr n d a b) s = execFshr n d a b s := rfl
@[simp] theorem exec_bfx {n d a b s} : exec (.bfx n d a b) s = execBfx n d a b s := rfl
@[simp] theorem exec_bfi {n d a b s} : exec (.bfi n d a b) s = execBfi n d a b s := rfl
@[simp] theorem exec_imin {n d a t s} : exec (.imin n d a t) s = execImin n d a t s := rfl
@[simp] theorem exec_imax {n d a t s} : exec (.imax n d a t) s = execImax n d a t s := rfl
@[simp] theorem exec_fminF {n d a s} : exec (.fminF n d a) s = execFminF n d a s := rfl
@[simp] theorem exec_fmaxF {n d a s} : exec (.fmaxF n d a) s = execFmaxF n d a s := rfl
@[simp] theorem exec_pmin {n d a t s} : exec (.pmin n d a t) s = execPmin n d a t s := rfl
@[simp] theorem exec_pmax {n d a t s} : exec (.pmax n d a t) s = execPmax n d a t s := rfl
@[simp] theorem exec_mov {n d a s} : exec (.mov n d a) s = execMov n d a s := rfl
@[simp] theorem exec_iabsS32 {n d a s} : exec (.iabsS32 n d a) s = execIabsS32 n d a s := rfl
@[simp] theorem exec_clz {n d a s} : exec (.clz n d a) s = execClz n d a s := rfl
@[simp] theorem exec_popc {n d a s} : exec (.popc n d a) s = execPopc n d a s := rfl
@[simp] theorem exec_brev {n d a s} : exec (.brev n d a) s = execBrev n d a s := rfl
@[simp] theorem exec_satn {n d a t s} : exec (.satn n d a t) s = execSatn n d a t s := rfl
@[simp] theorem exec_fclass {n d a t s} : exec (.fclass n d a t) s = execFclass n d a t s := rfl
@[simp] theorem exec_fcvt {n d a c s} : exec (.fcvt n d a c) s = execFcvt n d a c s := rfl
@[simp] theorem exec_frcpF {n d a s} : exec (.frcpF n d a) s = execFrcpF n d a s := rfl
@[simp] theorem exec_frsqF {n d a s} : exec (.frsqF n d a) s = execFrsqF n d a s := rfl
@[simp] theorem exec_fsqrtF {n d a s} : exec (.fsqrtF n d a) s = execFsqrtF n d a s := rfl
@[simp] theorem exec_fexp2F {n d a s} : exec (.fexp2F n d a) s = execFexp2F n d a s := rfl
@[simp] theorem exec_flog2F {n d a s} : exec (.flog2F n d a) s = execFlog2F n d a s := rfl
@[simp] theorem exec_fsinF {n d a s} : exec (.fsinF n d a) s = execFsinF n d a s := rfl
@[simp] theorem exec_fcosF {n d a s} : exec (.fcosF n d a) s = execFcosF n d a s := rfl
@[simp] theorem exec_ftanhF {n d a s} : exec (.ftanhF n d a) s = execFtanhF n d a s := rfl
@[simp] theorem exec_qenc {n d a k1 s} : exec (.qenc n d a k1) s = execQenc n d a k1 s := rfl
@[simp] theorem exec_qdec {n d a k1 s} : exec (.qdec n d a k1) s = execQdec n d a k1 s := rfl
@[simp] theorem exec_qlutb {d a k1 s} : exec (.qlutb d a k1) s = execQlutb d a k1 s := rfl
@[simp] theorem exec_qlut {n d a k1 s} : exec (.qlut n d a k1) s = execQlut n d a k1 s := rfl
@[simp] theorem exec_poll {n d a k1 s} : exec (.poll n d a k1) s = execPoll n d a k1 s := rfl
@[simp] theorem exec_redu {n d a c s} : exec (.redu n d a c) s = execRedu n d a c s := rfl
@[simp] theorem exec_scan {n d a e c s} : exec (.scan n d a e c) s = execScan n d a e c s := rfl
@[simp] theorem exec_peers {n d a k1 s} : exec (.peers n d a k1) s = execPeers n d a k1 s := rfl
@[simp] theorem exec_sync {a s} : exec (.sync a) s = execSync a s := rfl
@[simp] theorem exec_icmpEq {n d a b s} : exec (.icmpEq n d a b) s = execIcmpEq n d a b s := rfl
@[simp] theorem exec_icmpNe {n d a b s} : exec (.icmpNe n d a b) s = execIcmpNe n d a b s := rfl
@[simp] theorem exec_icmpLtS32 {n d a b s} : exec (.icmpLtS32 n d a b) s = execIcmpLtS32 n d a b s := rfl
@[simp] theorem exec_icmpLeS32 {n d a b s} : exec (.icmpLeS32 n d a b) s = execIcmpLeS32 n d a b s := rfl
@[simp] theorem exec_icmpLtN32 {n d a b s} : exec (.icmpLtN32 n d a b) s = execIcmpLtN32 n d a b s := rfl
@[simp] theorem exec_icmpLeN32 {n d a b s} : exec (.icmpLeN32 n d a b) s = execIcmpLeN32 n d a b s := rfl
@[simp] theorem exec_fcmpEqF {n d a b s} : exec (.fcmpEqF n d a b) s = execFcmpEqF n d a b s := rfl
@[simp] theorem exec_fcmpLtF {n d a b s} : exec (.fcmpLtF n d a b) s = execFcmpLtF n d a b s := rfl
@[simp] theorem exec_fcmpLeF {n d a b s} : exec (.fcmpLeF n d a b) s = execFcmpLeF n d a b s := rfl
@[simp] theorem exec_nop {s} : exec .nop s = execNop s := rfl
@[simp] theorem exec_conv {s} : exec .conv s = execConv s := rfl
@[simp] theorem exec_exit {s} : exec .exit s = execExit s := rfl
@[simp] theorem exec_jmp {a s} : exec (.jmp a) s = execJmp a s := rfl
@[simp] theorem exec_jmpr {a s} : exec (.jmpr a) s = execJmpr a s := rfl
@[simp] theorem exec_callr {d a s} : exec (.callr d a) s = execCallr d a s := rfl
@[simp] theorem exec_ret {a s} : exec (.ret a) s = execRet a s := rfl
@[simp] theorem exec_sleepu {a s} : exec (.sleepu a) s = execSleepu a s := rfl
@[simp] theorem exec_bkpt {s} : exec .bkpt s = execBkpt s := rfl
@[simp] theorem exec_trap {a s} : exec (.trap a) s = execTrap a s := rfl
@[simp] theorem exec_faddF {n d a b s} : exec (.faddF n d a b) s = execFaddF n d a b s := rfl
@[simp] theorem exec_faddH {n d a b s} : exec (.faddH n d a b) s = execFaddH n d a b s := rfl
@[simp] theorem exec_fsubF {n d a b s} : exec (.fsubF n d a b) s = execFsubF n d a b s := rfl
@[simp] theorem exec_fsubH {n d a b s} : exec (.fsubH n d a b) s = execFsubH n d a b s := rfl
@[simp] theorem exec_fmulF {n d a b s} : exec (.fmulF n d a b) s = execFmulF n d a b s := rfl
@[simp] theorem exec_fmulH {n d a b s} : exec (.fmulH n d a b) s = execFmulH n d a b s := rfl
@[simp] theorem exec_fmaF {n d a b s} : exec (.fmaF n d a b) s = execFmaF n d a b s := rfl
@[simp] theorem exec_fmaH {n d a b s} : exec (.fmaH n d a b) s = execFmaH n d a b s := rfl
@[simp] theorem exec_paddH2 {n d a b s} : exec (.paddH2 n d a b) s = execPaddH2 n d a b s := rfl
@[simp] theorem exec_paddB2 {n d a b s} : exec (.paddB2 n d a b) s = execPaddB2 n d a b s := rfl
@[simp] theorem exec_pmulH2 {n d a b s} : exec (.pmulH2 n d a b) s = execPmulH2 n d a b s := rfl
@[simp] theorem exec_pmulB2 {n d a b s} : exec (.pmulB2 n d a b) s = execPmulB2 n d a b s := rfl
@[simp] theorem exec_pfmaH2 {n d a b s} : exec (.pfmaH2 n d a b) s = execPfmaH2 n d a b s := rfl
@[simp] theorem exec_pfmaB2 {n d a b s} : exec (.pfmaB2 n d a b) s = execPfmaB2 n d a b s := rfl
@[simp] theorem exec_ld {d p o k1 t s} : exec (.ld d p o k1 t) s = execLd d p o k1 t s := rfl
@[simp] theorem exec_st {d p o k1 t s} : exec (.st d p o k1 t) s = execSt d p o k1 t s := rfl
@[simp] theorem exec_stm {d p b s} : exec (.stm d p b) s = execStm d p b s := rfl
@[simp] theorem exec_atom {r d p o k1 f s} : exec (.atom r d p o k1 f) s = execAtom r d p o k1 f s := rfl
@[simp] theorem exec_lds {d a t s} : exec (.lds d a t) s = execLds d a t s := rfl
@[simp] theorem exec_sts {d a t s} : exec (.sts d a t) s = execSts d a t s := rfl
@[simp] theorem exec_ldw {d a t s} : exec (.ldw d a t) s = execLdw d a t s := rfl
@[simp] theorem exec_atoms {d a c s} : exec (.atoms d a c) s = execAtoms d a c s := rfl
@[simp] theorem exec_fence {o k1 s} : exec (.fence o k1) s = execFence o k1 s := rfl
@[simp] theorem exec_drainst {s} : exec .drainst s = execDrainst s := rfl
@[simp] theorem exec_prefL1 {p s} : exec (.prefL1 p) s = execPrefL1 p s := rfl
@[simp] theorem exec_prefL2 {p s} : exec (.prefL2 p) s = execPrefL2 p s := rfl
@[simp] theorem exec_bra {c a o s} : exec (.bra c a o) s = execBra c a o s := rfl
@[simp] theorem exec_call {a o s} : exec (.call a o) s = execCall a o s := rfl
@[simp] theorem exec_uadd {n d a b s} : exec (.uadd n d a b) s = execUadd n d a b s := rfl
@[simp] theorem exec_usub {n d a b s} : exec (.usub n d a b) s = execUsub n d a b s := rfl
@[simp] theorem exec_umul {n d a b s} : exec (.umul n d a b) s = execUmul n d a b s := rfl
@[simp] theorem exec_umad {n d a b s} : exec (.umad n d a b) s = execUmad n d a b s := rfl
@[simp] theorem exec_uand {n d a b s} : exec (.uand n d a b) s = execUand n d a b s := rfl
@[simp] theorem exec_uor {n d a b s} : exec (.uor n d a b) s = execUor n d a b s := rfl
@[simp] theorem exec_uxor {n d a b s} : exec (.uxor n d a b) s = execUxor n d a b s := rfl
@[simp] theorem exec_ushl {n d a b s} : exec (.ushl n d a b) s = execUshl n d a b s := rfl
@[simp] theorem exec_ushr {n d a b s} : exec (.ushr n d a b) s = execUshr n d a b s := rfl
@[simp] theorem exec_usel {n d a b s} : exec (.usel n d a b) s = execUsel n d a b s := rfl
@[simp] theorem exec_umov {n d a s} : exec (.umov n d a) s = execUmov n d a s := rfl
@[simp] theorem exec_umovi {n d k1 s} : exec (.umovi n d k1) s = execUmovi n d k1 s := rfl
@[simp] theorem exec_uhiw {n d k1 s} : exec (.uhiw n d k1) s = execUhiw n d k1 s := rfl
@[simp] theorem exec_ubra {c a o s} : exec (.ubra c a o) s = execUbra c a o s := rfl
@[simp] theorem exec_uldc {d a w s} : exec (.uldc d a w) s = execUldc d a w s := rfl
@[simp] theorem exec_uld {d p o k1 t s} : exec (.uld d p o k1 t) s = execUld d p o k1 t s := rfl
@[simp] theorem exec_ucmpEq {n d a b s} : exec (.ucmpEq n d a b) s = execUcmpEq n d a b s := rfl
@[simp] theorem exec_ucmpNe {n d a b s} : exec (.ucmpNe n d a b) s = execUcmpNe n d a b s := rfl
@[simp] theorem exec_ucmpLtS32 {n d a b s} : exec (.ucmpLtS32 n d a b) s = execUcmpLtS32 n d a b s := rfl
@[simp] theorem exec_ucmpLeS32 {n d a b s} : exec (.ucmpLeS32 n d a b) s = execUcmpLeS32 n d a b s := rfl
@[simp] theorem exec_ucmpLtN32 {n d a b s} : exec (.ucmpLtN32 n d a b) s = execUcmpLtN32 n d a b s := rfl
@[simp] theorem exec_ucmpLeN32 {n d a b s} : exec (.ucmpLeN32 n d a b) s = execUcmpLeN32 n d a b s := rfl
@[simp] theorem exec_tcfg {r g s} : exec (.tcfg r g) s = execTcfg r g s := rfl
@[simp] theorem exec_tmma {d a f g z b s} : exec (.tmma d a f g z b) s = execTmma d a f g z b s := rfl
@[simp] theorem exec_tbnd {d k1 s} : exec (.tbnd d k1) s = execTbnd d k1 s := rfl
@[simp] theorem exec_tbndT {d a k1 s} : exec (.tbndT d a k1) s = execTbndT d a k1 s := rfl
@[simp] theorem exec_gang {d a s} : exec (.gang d a) s = execGang d a s := rfl
@[simp] theorem exec_achain {d a p r s} : exec (.achain d a p r) s = execAchain d a p r s := rfl
@[simp] theorem exec_arsv {a s} : exec (.arsv a) s = execArsv a s := rfl
@[simp] theorem exec_asend {d a s} : exec (.asend d a) s = execAsend d a s := rfl
@[simp] theorem exec_await {d a z k1 s} : exec (.await d a z k1) s = execAwait d a z k1 s := rfl
@[simp] theorem exec_aclose {a s} : exec (.aclose a) s = execAclose a s := rfl
@[simp] theorem exec_twatch {a k s} : exec (.twatch a k) s = execTwatch a k s := rfl
@[simp] theorem exec_pubt {d a k s} : exec (.pubt d a k) s = execPubt d a k s := rfl
@[simp] theorem exec_spect {d a k s} : exec (.spect d a k) s = execSpect d a k s := rfl
@[simp] theorem exec_schk {d s} : exec (.schk d) s = execSchk d s := rfl
@[simp] theorem exec_sabort {s} : exec .sabort s = execSabort s := rfl
@[simp] theorem exec_cpy {d a o k1 b s} : exec (.cpy d a o k1 b) s = execCpy d a o k1 b s := rfl
@[simp] theorem exec_cpym {d a o k1 b s} : exec (.cpym d a o k1 b) s = execCpym d a o k1 b s := rfl
@[simp] theorem exec_cpyq {d a s} : exec (.cpyq d a) s = execCpyq d a s := rfl
@[simp] theorem exec_gath {d a y w g u r s} : exec (.gath d a y w g u r) s = execGath d a y w g u r s := rfl
@[simp] theorem exec_binit {d a s} : exec (.binit d a) s = execBinit d a s := rfl
@[simp] theorem exec_bwait {d a s} : exec (.bwait d a) s = execBwait d a s := rfl
@[simp] theorem exec_pgpin {d a s} : exec (.pgpin d a) s = execPgpin d a s := rfl
@[simp] theorem exec_pgunpin {a s} : exec (.pgunpin a) s = execPgunpin a s := rfl
@[simp] theorem exec_wswin {d a s} : exec (.wswin d a) s = execWswin d a s := rfl
@[simp] theorem exec_tsweep {d a o t s} : exec (.tsweep d a o t) s = execTsweep d a o t s := rfl
@[simp] theorem exec_qbind {d a k q s} : exec (.qbind d a k q) s = execQbind d a k q s := rfl
@[simp] theorem exec_spawn {d a s} : exec (.spawn d a) s = execSpawn d a s := rfl
@[simp] theorem exec_yieldj {a s} : exec (.yieldj a) s = execYieldj a s := rfl
@[simp] theorem exec_migr {d a s} : exec (.migr d a) s = execMigr d a s := rfl
@[simp] theorem exec_bar {a k s} : exec (.bar a k) s = execBar a k s := rfl
@[simp] theorem exec_seqld {d a s} : exec (.seqld d a) s = execSeqld d a s := rfl
@[simp] theorem exec_seqgo {d a s} : exec (.seqgo d a) s = execSeqgo d a s := rfl
@[simp] theorem exec_srd {d f s} : exec (.srd d f) s = execSrd d f s := rfl
@[simp] theorem exec_swr {a f s} : exec (.swr a f) s = execSwr a f s := rfl
@[simp] theorem exec_time {d s} : exec (.time d) s = execTime d s := rfl
@[simp] theorem exec_rte {s} : exec .rte s = execRte s := rfl
@[simp] theorem exec_frec {d s} : exec (.frec d) s = execFrec d s := rfl
@[simp] theorem exec_sfqpop {d s} : exec (.sfqpop d) s = execSfqpop d s := rfl
@[simp] theorem exec_termw {d a s} : exec (.termw d a) s = execTermw d a s := rfl
@[simp] theorem exec_trail {v c e f g h s} : exec (.trail v c e f g h) s = execTrail v c e f g h s := rfl
@[simp] theorem exec_launch {queue s} : exec (.launch queue) s = execLaunch queue s := rfl
@[simp] theorem exec_noOpCommand {queue s} : exec (.noOpCommand queue) s = execNoOpCommand queue s := rfl
@[simp] theorem exec_tail {queue value s} : exec (.tail queue value) s = execTail queue value s := rfl
@[simp] theorem exec_gridHandoff {grid s} : exec (.gridHandoff grid) s = execGridHandoff grid s := rfl
@[simp] theorem exec_unitPlacement {grid cores s} : exec (.unitPlacement grid cores) s = execUnitPlacement grid cores s := rfl
@[simp] theorem exec_sliceDispatch {core s} : exec (.sliceDispatch core) s = execSliceDispatch core s := rfl
@[simp] theorem exec_gridEnd {grid s} : exec (.gridEnd grid) s = execGridEnd grid s := rfl
@[simp] theorem exec_budgetExpiry {slice s} : exec (.budgetExpiry slice) s = execBudgetExpiry slice s := rfl
@[simp] theorem exec_warpDisplacement {core pos s} : exec (.warpDisplacement core pos) s = execWarpDisplacement core pos s := rfl
@[simp] theorem exec_convergenceRelease {core pos s} : exec (.convergenceRelease core pos) s = execConvergenceRelease core pos s := rfl
@[simp] theorem exec_serialModeSwitch {core pos s} : exec (.serialModeSwitch core pos) s = execSerialModeSwitch core pos s := rfl
@[simp] theorem exec_handlerEntry {core pos s} : exec (.handlerEntry core pos) s = execHandlerEntry core pos s := rfl
@[simp] theorem exec_debuggerResume {core pos s} : exec (.debuggerResume core pos) s = execDebuggerResume core pos s := rfl
@[simp] theorem exec_sleepuWake {core pos lane s} : exec (.sleepuWake core pos lane) s = execSleepuWake core pos lane s := rfl
@[simp] theorem exec_loadReturn {core pos op s} : exec (.loadReturn core pos op) s = execLoadReturn core pos op s := rfl
@[simp] theorem exec_satchelFill {core pos op s} : exec (.satchelFill core pos op) s = execSatchelFill core pos op s := rfl
@[simp] theorem exec_queueFedLoadWrite {core pos op s} : exec (.queueFedLoadWrite core pos op) s = execQueueFedLoadWrite core pos op s := rfl
@[simp] theorem exec_storeFaultRecord {warp s} : exec (.storeFaultRecord warp) s = execStoreFaultRecord warp s := rfl
@[simp] theorem exec_firstTouchMap {request frame s} : exec (.firstTouchMap request frame) s = execFirstTouchMap request frame s := rfl
@[simp] theorem exec_shootdown {ctx va s} : exec (.shootdown ctx va) s = execShootdown ctx va s := rfl
@[simp] theorem exec_copyRow {copy s} : exec (.copyRow copy) s = execCopyRow copy s := rfl
@[simp] theorem exec_copyEnd {copy s} : exec (.copyEnd copy) s = execCopyEnd copy s := rfl
@[simp] theorem exec_gatherBag {gather s} : exec (.gatherBag gather) s = execGatherBag gather s := rfl
@[simp] theorem exec_gatherQueuePush {gather s} : exec (.gatherQueuePush gather) s = execGatherQueuePush gather s := rfl
@[simp] theorem exec_gatherEnd {gather s} : exec (.gatherEnd gather) s = execGatherEnd gather s := rfl
@[simp] theorem exec_termStepFinish {core gang s} : exec (.termStepFinish core gang) s = execTermStepFinish core gang s := rfl
@[simp] theorem exec_gangArrayBind {core s} : exec (.gangArrayBind core) s = execGangArrayBind core s := rfl
@[simp] theorem exec_achainRecord {warp s} : exec (.achainRecord warp) s = execAchainRecord warp s := rfl
@[simp] theorem exec_acloseRecord {warp s} : exec (.acloseRecord warp) s = execAcloseRecord warp s := rfl
@[simp] theorem exec_chainGrant {ctx chain s} : exec (.chainGrant ctx chain) s = execChainGrant ctx chain s := rfl
@[simp] theorem exec_asendAnswer {tile s} : exec (.asendAnswer tile) s = execAsendAnswer tile s := rfl
@[simp] theorem exec_accArrival {tile s} : exec (.accArrival tile) s = execAccArrival tile s := rfl
@[simp] theorem exec_awaitAdd {core pos op s} : exec (.awaitAdd core pos op) s = execAwaitAdd core pos op s := rfl
@[simp] theorem exec_sequencerStep {ctx core s} : exec (.sequencerStep ctx core) s = execSequencerStep ctx core s := rfl
@[simp] theorem exec_wsRefreshWindow {die bank s} : exec (.wsRefreshWindow die bank) s = execWsRefreshWindow die bank s := rfl
@[simp] theorem exec_injectionClaim {die loop stop s} : exec (.injectionClaim die loop stop) s = execInjectionClaim die loop stop s := rfl
@[simp] theorem exec_migrShip {core pos target s} : exec (.migrShip core pos target) s = execMigrShip core pos target s := rfl
@[simp] theorem exec_migrTimeout {core pos s} : exec (.migrTimeout core pos) s = execMigrTimeout core pos s := rfl
@[simp] theorem exec_preemptionRequest {ctx cores s} : exec (.preemptionRequest ctx cores) s = execPreemptionRequest ctx cores s := rfl
@[simp] theorem exec_contextResume {ctx cores s} : exec (.contextResume ctx cores) s = execContextResume ctx cores s := rfl
@[simp] theorem exec_coreReset {die s} : exec (.coreReset die) s = execCoreReset die s := rfl
@[simp] theorem exec_uncoreReset {die s} : exec (.uncoreReset die) s = execUncoreReset die s := rfl
@[simp] theorem exec_packageReset {s} : exec .packageReset s = execPackageReset s := rfl
@[simp] theorem exec_boot {s} : exec .boot s = execBoot s := rfl
@[simp] theorem exec_modeChange {mode s} : exec (.modeChange mode) s = execModeChange mode s := rfl
@[simp] theorem exec_linkError {warp op s} : exec (.linkError warp op) s = execLinkError warp op s := rfl
@[simp] theorem exec_eventRecord {arbiter event s} : exec (.eventRecord arbiter event) s = execEventRecord arbiter event s := rfl
@[simp] theorem exec_storePerformed {warp s} : exec (.storePerformed warp) s = execStorePerformed warp s := rfl
@[simp] theorem exec_eccError {addr uncorrectable s} : exec (.eccError addr uncorrectable) s = execEccError addr uncorrectable s := rfl
@[simp] theorem exec_queueRestart {queue s} : exec (.queueRestart queue) s = execQueueRestart queue s := rfl
@[simp] theorem exec_eventRingSpace {arbiter count s} : exec (.eventRingSpace arbiter count) s = execEventRingSpace arbiter count s := rfl
@[simp] theorem exec_hostAccess {function addr store data s} : exec (.hostAccess function addr store data) s = execHostAccess function addr store data s := rfl
@[simp] theorem exec_podAccess {addr kind data s} : exec (.podAccess addr kind data) s = execPodAccess addr kind data s := rfl

end Sys2Proof.Machine
end

