-- ==== Sys2Proof/Tests/Slice0.lean ====
section
/-! SUPPORT. Tests: words of the spec decode as they should, ill-formed words are refused, and every statement's hypotheses are met together by a state. -/

namespace Sys2Proof.Tests

set_option Elab.async false

open Machine

/-! A small state: context 1 runs one warp of 32 lanes at core 0, position 0. -/

/-- A warp whose group has a run under way; every register reads 0. -/
def warp0 : Warp :=
  { Warp.fresh 5 placeSlice 0 0 0 with
    groups := [{ Group.at_ 0xFFFFFFFF 0x3000 0 with
      run := some { start := 0x3000, words := [], fetchFault := none, pos := 0, latches := [], nextPc := [], wait := .none, desc := [] } }] }

/-- A warp in whose lanes registers hold given values. -/
def holding (l : List (Nat × Word)) : Warp := { warp0 with regs := l.map (fun e => (e.1, List.replicate 32 e.2)) }
/-- A warp whose group is changed. -/
def grouped (w : Warp) (f : Group → Group) : Warp := { w with groups := w.groups.map f }
/-- A warp whose group waits. -/
def waits (w : Warp) (k : Wait) : Warp := grouped w (fun g => { g with run := g.run.map (fun r => { r with wait := k }) })

/-- The package with such a warp: `w` the warp, `c` the core's per-context state, `m` changes the machine. -/
def withWarp (w : Warp) (c : CtxCore := .fresh) (m : Mach → Mach := fun m => m) : State :=
  { State.reset with
    boot := .running, partitions := [(0, { clusters := [0, 1, 18], frames := [], wsBase := 0, wsLimit := 0x10000 })], contexts := [(1, placeContext)]
    m := m { Mach.reset with
      nextId := 10, cur := some { core := 0, pos := 0, hand := false, grp := 0 }, ctxCores := [(ccKey 1 0, c)], ctxClusters := [(clKey 1 0, { pages := 4, watch := [], freed := false })]
      cores := [(0, { Core.fresh with warps := [(0, w)], active := [0] })] } }

/-- The word's place in such a state. -/
def exOf (w : Warp) : Ex := { core := 0, pos := 0, hand := false, grp := 0, w := w, g := w.groups.headD default, r := (w.groups.headD default).run.getD default }

/-- A word finds its sources and room for its result, with no register moved: uniform or not, sources, NW, D, and the number of registers. -/
abbrev Finds (s : State) (x : Ex) (e : Bool × List Src × Bool × BitVec 8 × Nat) : Prop := WordReady s x e.1 e.2.1 e.2.2.1 e.2.2.2.1 e.2.2.2.2 s.m

def s0 : State := withWarp warp0
def x0 : Ex := exOf warp0

/-! Lane arithmetic and the cross-lane instructions. -/

theorem witness_IntegerArithmetic :
    s0.ex? = some x0 ∧ ∀ e ∈ ([(false, [srcI 1, srcI 2], nwOf 0, 3, 1), (false, [srcI 1, srcI 2, srcI 127], nwOf 1, 127, 1), (false, [srcW 2, srcI 0xFF], false, 126, 2),
      (false, [srcI 1, srcI 3], nwOf 0, 3, 1), (false, [srcI 0x83], nwOf 0, 0x83, 1)] : List _), Finds s0 x0 e := by decide +kernel
theorem witness_DotProductsSaturateOnce : s0.ex? = some x0 ∧ Finds s0 x0 (false, [srcI 9, srcI 10, srcI 8], nwOf 0, 8, 1) := by decide +kernel

/-- Queues 0 to 7 bound and holding one entry. -/
def queueBox : CtxCore := { CtxCore.fresh with queues := List.replicate 8 { Queue.fresh with kind := 1, entries := [5] } }
def sq : State := withWarp warp0 queueBox
theorem witness_MoveAndQueueFedLoad :
    (s0.ex? = some x0 ∧ isQueue 3 = false ∧ Finds s0 x0 (false, [srcI 3], nwOf 0, 4, 1))
    ∧ (sq.ex? = some x0 ∧ isQueue 0x88 = true ∧ isQueue 0x8F = true ∧ isV 0x83 = false ∧ Finds sq x0 (false, [srcI 0x88], false, 0x83, 1) ∧ Finds sq x0 (false, [srcI 0x8F], false, 0x83, 1))
    ∧ (isV 127 = true ∧ ((boxOf sq x0).queues.getD ((0x8F : BitVec 8).toNat - 0x88) .fresh).kind ≠ 0 ∧ regsReady sq.m x0 127 1 = .go sq.m) := by decide +kernel

theorem witness_LogicShiftsAndFields : s0.ex? = some x0 ∧ Finds s0 x0 (false, [srcI 4, srcI 0xC5], nwOf 0, 3, 1) ∧ Finds s0 x0 (false, [srcI 1, srcI 2, srcI 3], nwOf 0, 3, 1) := by decide +kernel
theorem witness_CompareSelectConstants :
    s0.ex? = some x0 ∧ ∀ e ∈ ([(false, [srcI 4, srcI 5], nwOf 0, 3, 1), (false, [srcF 4, srcF 5], nwOf 0, 3, 1), (false, [srcI 4, srcI 5, srcI 3], nwOf 0, 3, 1), (false, [], nwOf 0, 2, 1),
      (false, [srcI 2], nwOf 0, 2, 1)] : List _), Finds s0 x0 e := by decide +kernel
theorem witness_ScalarFloat :
    s0.ex? = some x0 ∧ ∀ e ∈ ([(false, [srcF 4, srcF 5], nwOf 0, 3, 1), (false, [srcH 4, srcH 5], nwOf 0, 3, 1), (false, [srcF 4, srcF 5, srcF 3], nwOf 0, 3, 1), (false, [srcH 4, srcH 5, srcH 3], nwOf 0, 3, 1),
      (false, [srcF 4, srcF 3], nwOf 0, 3, 1), (false, [⟨4, .f32⟩], nwOf 0, 3, 1), (false, [⟨4, .h16⟩], nwOf 0, 3, 1), (false, [⟨4, .b16⟩], nwOf 0, 3, 1),
      (false, [⟨4, fcvtKind 0⟩], nwOf 0, 3, 1), (false, [⟨4, fcvtKind 9⟩], nwOf 0, 3, 1)] : List _), Finds s0 x0 e := by decide +kernel
theorem witness_SpecialFunctionsAndPackedPairs :
    s0.ex? = some x0 ∧ ∀ e ∈ ([(false, [srcF 7], nwOf 0, 6, 1), (false, [srcH2 4, srcH2 5], nwOf 0, 3, 1), (false, [srcB2 4, srcB2 5], nwOf 0, 3, 1), (false, [srcH2 4, srcH2 5, srcH2 3], nwOf 0, 3, 1),
      (false, [srcB2 4, srcB2 5, srcB2 3], nwOf 0, 3, 1), (false, [srcH2 4, srcH2 3], nwOf 0, 3, 1), (false, [srcB2 4, srcB2 3], nwOf 0, 3, 1)] : List _), Finds s0 x0 e := by decide +kernel
theorem witness_QuantiseScale : s0.ex? = some x0 ∧ Finds s0 x0 (false, [srcW 0x14, srcW 0x16], nwOf 0, 4, 1) := by decide +kernel

/-- A launch record: entry 0x3000, levels lane 32, warp 1, core 1 (outermost), slots `f0` `.s8`, `f1` `.n8`, `f2` `.q4`, `f3` `.tl` of `.n8`. -/
def record0 : List Byte :=
  (natToBytes 8 0x3000 ++ List.replicate 48 0 ++ [3, 0] ++ List.replicate 6 0)
    ++ ([0, 0, 0, 0] ++ natToBytes 4 32) ++ ([1, 0, 0, 0] ++ natToBytes 4 1) ++ ([3, 2, 0, 0] ++ natToBytes 4 1) ++ List.replicate 40 0
    ++ ([1] ++ List.replicate 31 0) ++ ([2] ++ List.replicate 31 0) ++ ([0x20] ++ List.replicate 31 0) ++ ([0x22, 0x51] ++ List.replicate 30 0) ++ List.replicate 128 0
def grid0 : Grid :=
  { queue := 0, ctx := 1, order := 1, record := record0, deadline := 9, sta := 0x100, phase := .placing, total := 1, placed := 1, entry := 0, dies := [0] }
def withGrid (w : Warp) : State := withWarp w .fresh (fun m => { m with grids := [(0, grid0)] })
theorem witness_QuantiseAndTables :
    let s := withGrid (holding [(5, 16)])
    let x := exOf (holding [(5, 16)])
    let slot := fun (k : Nat) => ((((mget s.m.grids x.w.grid).elim (List.replicate 384 0) (·.record)).drop (128 + 32 * k)).take 32)
    s.ex? = some x ∧ (slotElt (slot 0) = 1 ∧ slotElt (slot 1) = 2 ∧ slotElt (slot 2) = 0x20)
      ∧ (∀ e ∈ ([(false, [srcF 6], nwOf 0, 8, 1), (false, [srcW 20], nwOf 0, 8, 1), (false, [srcI 9], false, 16, 16), (false, [srcW 4], nwOf 0, 8, 1)] : List _), Finds s x e)
      ∧ x.g.lanes ≠ 0 ∧ (let base := fun l => (argPair (operands s x [srcW 4] l) 0).toNat / 2 ^ 32 % 128
          (∀ l ∈ x.lanes, base l % 2 = 0 ∧ base l ≤ 112)
            ∧ ∀ l ∈ x.lanes, ∀ j < 16, x.w.spilled.contains (base l + j) = false ∧ x.w.pendingIn (x.readMask false) (base l + j) = false) := by decide +kernel

theorem witness_LaneExchange : s0.ex? = some x0 ∧ Finds s0 x0 (false, [srcI 4, srcI 5, srcI 3], nwOf 0, 3, 1) := by decide +kernel

/-- Every lane's member mask in v3 names lanes 0 to 31. -/
def wAll : Warp := holding [(3, 0xFFFFFFFF)]
theorem witness_PollsPeersAndMasks :
    ((withWarp wAll).ex? = some (exOf wAll) ∧ Finds (withWarp wAll) (exOf wAll) (false, [srcI 4, srcI 3], nwOf 0, 3, 1) ∧ (exOf wAll).g.lanes ≠ 0
      ∧ ∀ l ∈ (exOf wAll).lanes, inMask (arg (operands (withWarp wAll) (exOf wAll) [srcI 4, srcI 3] l) 1) l)
    ∧ (s0.ex? = some x0 ∧ Finds s0 x0 (false, [srcI 4, srcI 3], nwOf 0, 3, 1) ∧ Plain x0 ∧ ∀ l ∈ x0.lanes, inMask (arg (operands s0 x0 [srcI 4, srcI 3] l) 1) l = false) := by decide +kernel
theorem witness_ReductionsAndScans :
    (withWarp wAll).ex? = some (exOf wAll) ∧ (0 : BitVec 4).toNat ≤ 10 ∧ (10 : BitVec 4).toNat ≤ 10 ∧ Finds (withWarp wAll) (exOf wAll) (false, [⟨4, .int⟩, srcI 3], nwOf 0, 3, 1)
      ∧ Finds (withWarp wAll) (exOf wAll) (false, [⟨4, .f32⟩, srcI 3], nwOf 0, 3, 1) ∧ (exOf wAll).g.lanes ≠ 0
      ∧ ∀ l ∈ (exOf wAll).lanes, inMask (arg (operands (withWarp wAll) (exOf wAll) [⟨4, .f32⟩, srcI 3] l) 1) l := by decide +kernel
theorem witness_UniformAlu :
    s0.ex? = some x0 ∧ ∀ e ∈ ([(true, [srcI 4, srcI 5], nwOf 0, 3, 1), (true, [srcI 4, srcI 5, srcI 3], nwOf 1, 3, 1), (true, [srcI 4], nwOf 0, 3, 1), (true, [], nwOf 0, 3, 1),
      (true, [srcI 3], nwOf 0, 3, 1)] : List _), Finds s0 x0 e := by decide +kernel
theorem witness_UniformAlu_queue : sq.ex? = some x0 ∧ Finds sq x0 (true, [srcI 0x8F], false, 3, 1) := by decide +kernel

/-! What holds a word; control. -/

/-- A result that a load owes to v4 in every lane, and one that an `AWAIT` owes to v32. -/
def owedLoad : Pend := { id := 7, kind := .load, lanes := 0xFFFFFFFF, reg := 4, count := 1, vals := [], pc := 0, run := 0, addrs := [], sync := false }
def owedLease : Pend := { id := 8, kind := .queueFed 0, lanes := 0xFFFFFFFF, reg := 3, count := 1, vals := [], pc := 0, run := 0, addrs := [], sync := false }
def wOwed : Warp := { warp0 with pends := [owedLoad, owedLease] }
theorem witness_SourcesAndPendingRegisters :
    let s := withWarp wOwed
    let x := exOf wOwed
    s.ex? = some x ∧ (∀ r ∈ [4, 5, 6], x.w.spilled.contains r = false) ∧ x.w.pendingIn x.g.lanes 4 = true
      ∧ (x.w.pendingIn x.g.lanes 5 = false ∧ x.w.pendingIn x.g.lanes 6 = false ∧ Plain x ∧ x.w.leasedIn x.g.lanes 3 = true)
      ∧ (x.w.leasedIn x.g.lanes 4 = false ∧ x.w.pendingIn x.g.lanes 4 = true) := by decide +kernel

/-- A warp whose group has passed its convergence point; one whose lanes are 0 and 1 with different masks in v3; one that waits at a `SYNC` all of whose lanes may pass. -/
def wPassed : Warp := grouped warp0 (fun g => { g with passed := true })
def wPair : Warp := grouped { warp0 with regs := [(3, [7, 3] ++ List.replicate 30 0)], threads := (List.range 32).map (fun l => if l < 2 then { Thread.none with status := .running } else .none) } (fun g => { g with lanes := 3 })
/-- A store of the warp that is still to be performed. -/
def store0 : Store :=
  { seq := 3, warp := 5, ctx := 1, core := 0, slot := 0, lanes := 1, pc := 0x3000, kind := 1, addr := 0x8000, op := .bytes [some 7], rel := none, acq := none, srcs := []
    run := 0, gang := none, twin := false, place := none, entry := none, joined := false, failed := none }
def storing (w : Warp) (st : Store) : State := withWarp w .fresh (fun m => { m with stores := [st] })
def wMet : Warp := waits warp0 (.sync [] 0xFFFFFFFF 0)
theorem witness_NopConvSync_conv : (withWarp wPassed).ex? = some (exOf wPassed) ∧ (exOf wPassed).g.passed = true ∧ s0.ex? = some x0 ∧ x0.g.passed = false := by decide +kernel

theorem witness_NopConvSync_sync :
    ((withWarp wAll).ex? = some (exOf wAll) ∧ srcReady (withWarp wAll).m (exOf wAll) false [srcI 3] = .go ∧ drained (withWarp wAll).m 5 = true ∧ (exOf wAll).g.lanes ≠ 0
      ∧ (∀ l ∈ (exOf wAll).lanes, arg (operands (withWarp wAll) (exOf wAll) [srcI 3] l) 0 = 0xFFFFFFFF) ∧ (exOf wAll).g.lanes &&& ~~~0xFFFFFFFF = 0
      ∧ ∀ k < 32, inMask 0xFFFFFFFF k = true → inMask (exOf wAll).g.lanes k = true)
    ∧ (let x := exOf wPair
       let mask := fun (l : Nat) => arg (operands (withWarp wPair) x [srcI 3] l) 0
       (withWarp wPair).ex? = some x ∧ srcReady (withWarp wPair).m x false [srcI 3] = .go ∧ drained (withWarp wPair).m 5 = true ∧ x.g.lanes = laneBit 0 ||| laneBit 1 ∧ Plain x ∧ mask 0 ≠ mask 1
        ∧ (∀ i < 2, ∀ k < 32, inMask (mask i) k = true → inMask x.g.lanes k = true ∨ x.w.exited k = true) ∧ ∀ k ∈ [0, 1], inMask (mask k) 0 = true ∧ inMask (mask k) 1 = true)
    ∧ ((storing wAll store0).ex? = some (exOf wAll) ∧ srcReady (storing wAll store0).m (exOf wAll) false [srcI 3] = .go ∧ drained (storing wAll store0).m 5 = false)
    ∧ (∀ w ∈ [wAll, wPair], ∀ g ∈ w.groups ++ w.hgroups, g.run.all (fun r => match r.wait with | .sync .. => false | _ => true) = true)
    ∧ ((withWarp wMet).ex? = some (exOf wMet) ∧ (exOf wMet).r.wait = .sync [] 0xFFFFFFFF 0 ∧ (exOf wMet).w.syncWaiting = [] ∧ (exOf wMet).g.lanes &&& ~~~0xFFFFFFFF = 0 ∧ 0 &&& (exOf wMet).g.lanes = 0) := by decide +kernel

/-- A group as deep as calls go. -/
def wDeep : Warp := grouped warp0 (fun g => { g with depth := 65535 })
def sDeep : State := withWarp wDeep
theorem witness_BranchesAndCall :
    (s0.ex? = some x0 ∧ (0 : BitVec 2).toNat < 3 ∧ (2 : BitVec 2).toNat < 3 ∧ srcReady s0.m x0 false [srcI 7] = .go ∧ srcReady s0.m x0 true [srcI 0xC0] = .go
      ∧ isV 126 = true ∧ x0.g.depth ≠ 65535 ∧ regsReady s0.m x0 126 2 = .go s0.m)
    ∧ (sDeep.ex? = some (exOf wDeep) ∧ Plain (exOf wDeep) ∧ (exOf wDeep).g.depth = 65535 ∧ regsReady sDeep.m (exOf wDeep) 126 2 = .go sDeep.m) := by decide +kernel

/-- The last word of the address space in w20. -/
def wTarget : Warp := grouped (holding [(20, 0xFFFFFFFC), (21, 0xFFFF)]) (fun g => { g with depth := 1 })
theorem witness_IndirectTransfers_go :
    let s := withWarp wTarget
    let x := exOf wTarget
    s.ex? = some x ∧ srcReady s.m x false [srcW 20] = .go ∧ (∀ l ∈ x.lanes, (argPair (operands s x [srcW 20] l) 0).toNat < 2 ^ 48 ∧ (argPair (operands s x [srcW 20] l) 0).toNat % 4 = 0)
      ∧ 0 < x.g.depth ∧ isV 2 = true ∧ x.g.depth ≠ 65535 ∧ regsReady s.m x 2 2 = .go s.m
      ∧ srcReady s.m x false [srcI 9] = .go ∧ ∀ l ∈ x.lanes, let goal := (x.pc.toNat : Int) + (arg (operands s x [srcI 9] l) 0).toInt; 0 ≤ goal ∧ goal < 2 ^ 48 ∧ goal % 4 = 0 := by decide +kernel

/-- A warp with one of the registers v9, w20 set, at a call depth; where it finds the sources of an indirect transfer and room for a link in w2. -/
def wBound (regs : List (Nat × Word)) (depth : Nat) : Warp := grouped (holding regs) (fun g => { g with depth := depth })
abbrev Leaves (w : Warp) : Prop :=
  (withWarp w).ex? = some (exOf w) ∧ Plain (exOf w) ∧ srcReady (withWarp w).m (exOf w) false [srcW 20] = .go ∧ srcReady (withWarp w).m (exOf w) false [srcI 9] = .go ∧ isV 2 = true
    ∧ regsReady (withWarp w).m (exOf w) 2 2 = .go (withWarp w).m
theorem witness_IndirectTransfers_fault :
    let at_ := fun (w : Warp) (l : Nat) => (argPair (operands (withWarp w) (exOf w) [srcW 20] l) 0).toNat
    let goal := fun (w : Warp) (l : Nat) => ((exOf w).pc.toNat : Int) + (arg (operands (withWarp w) (exOf w) [srcI 9] l) 0).toInt
    (∀ d ∈ [0, 1, 65535], Leaves (wBound [(21, 0x10000)] d) ∧ (exOf (wBound [(21, 0x10000)] d)).g.depth = d ∧ ∀ l ∈ (exOf (wBound [(21, 0x10000)] d)).lanes, 2 ^ 48 ≤ at_ (wBound [(21, 0x10000)] d) l)
    ∧ (Leaves (wBound [(20, 0x4002)] 1) ∧ (exOf (wBound [(20, 0x4002)] 1)).g.depth = 1
      ∧ ∀ l ∈ (exOf (wBound [(20, 0x4002)] 1)).lanes, at_ (wBound [(20, 0x4002)] 1) l < 2 ^ 48 ∧ at_ (wBound [(20, 0x4002)] 1) l % 4 ≠ 0)
    ∧ (Leaves (wBound [(9, 0xFFFFCFFC)] 0) ∧ ∀ l ∈ (exOf (wBound [(9, 0xFFFFCFFC)] 0)).lanes, goal (wBound [(9, 0xFFFFCFFC)] 0) l < 0)
    ∧ (Leaves (wBound [(9, 2)] 0) ∧ ∀ l ∈ (exOf (wBound [(9, 2)] 0)).lanes, 0 ≤ goal (wBound [(9, 2)] 0) l ∧ goal (wBound [(9, 2)] 0) l < 2 ^ 48 ∧ goal (wBound [(9, 2)] 0) l % 4 ≠ 0) := by and_intros <;> decide +kernel

/-- The warp's group in handler mode. -/
def handled (w : Warp) : Warp := { w with groups := [], hgroups := w.groups, handler := true }
/-- The context under the debugger. -/
def sDebug : State := { s0 with contexts := [(1, { placeContext with debug := true })] }
theorem witness_TrapsAndBreakpoints :
    (s0.ex? = some x0 ∧ x0.hand = false ∧ x0.g.lanes ≠ 0 ∧ srcReady s0.m x0 false [srcI 0xC5] = .go ∧ (s0.ctx x0.w.ctx).debug = false)
    ∧ (sDebug.ex? = some x0 ∧ (sDebug.ctx x0.w.ctx).debug = true ∧ dieOf x0.core < sDebug.m.arbiters.length)
    ∧ ((withWarp (waits warp0 .halted)).m.warp? 0 0 = some (waits warp0 .halted) ∧ ∃ g ∈ (waits warp0 .halted).groups, g.run.any (fun r => r.wait == .halted) = true ∧ inMask g.lanes 31 = true)
    ∧ (∃ g ∈ (handled (waits warp0 .halted)).hgroups, g.run.any (fun r => r.wait == .halted) = true ∧ inMask g.lanes 31 = true) := by decide +kernel

/-- A group of lane 0 in a warp of 32 threads. -/
def wLane0 : Warp := grouped warp0 (fun g => { g with lanes := 1 })
theorem witness_ExitEndsThreads :
    ((withWarp wLane0).ex? = some (exOf wLane0) ∧ (exOf wLane0).hand = false ∧ joinedOut (withWarp wLane0) (exOf wLane0) = false ∧ ∃ l < 32, ¬(inMask (exOf wLane0).g.lanes l = true ∨ (exOf wLane0).w.exited l = true))
    ∧ (s0.ex? = some x0 ∧ x0.hand = false ∧ joinedOut s0 x0 = false ∧ ∀ l < 32, inMask x0.g.lanes l = true ∨ x0.w.exited l = true) := by decide +kernel

/-- A copy of the warp that is watched with promise 0; a sleeping group; a wake time of 1 in w6. -/
def copy0 : Copy :=
  { ctx := 1, core := 0, slot := 0, warp := 5, grid := 0, desc := List.replicate 64 0, descAddr := 0x5000, fslot := List.replicate 32 0, mcast := false, rel := none, srcs := [], promise := 0, watched := true
    since := 9, held := false, row := 0, maxabs := 0, delivered := 0, told := 0, ahead := [], formed := none, early := [], stop := none, stepRow := false }
def sLate : State := withWarp warp0 .fresh (fun m => { m with copies := [(9, copy0)] })
def wSleeps : Warp := waits warp0 (.sleeping 0)
theorem witness_SleepUntil :
    (s0.ex? = some x0 ∧ srcReady s0.m x0 false [srcW 6] = .go ∧ x0.lanes.foldl (fun t l => max t (argPair (operands s0 x0 [srcW 6] l) 0).toNat) 0 ≤ s0.counter.toNat
      ∧ (mvals s0.m.copies).filter (fun c => c.warp == x0.w.uid && c.watched && c.promise.toNat ≤ 0) = [])
    ∧ (sLate.ex? = some x0 ∧ Plain x0 ∧ x0.lanes.foldl (fun t l => max t (argPair (operands sLate x0 [srcW 6] l) 0).toNat) 0 ≤ sLate.counter.toNat
      ∧ ((mvals sLate.m.copies).filter (fun c => c.warp == x0.w.uid && c.watched && c.promise.toNat ≤ 0)).head? = some copy0)
    ∧ ((withWarp (holding [(6, 1)])).counter.toNat < (exOf (holding [(6, 1)])).lanes.foldl (fun t l => max t (argPair (operands (withWarp (holding [(6, 1)])) (exOf (holding [(6, 1)])) [srcW 6] l) 0).toNat) 0)
    ∧ ((withWarp wSleeps).ex? = some (exOf wSleeps) ∧ (exOf wSleeps).r.wait = .sleeping 0 ∧ groupOfLane (exOf wSleeps).w 31 = some ((exOf wSleeps).hand, (exOf wSleeps).grp, (exOf wSleeps).g)
      ∧ (0 : DWord).toNat ≤ (withWarp wSleeps).counter.toNat ∧ (withWarp wSleeps).m.copies = []) := by decide +kernel

theorem witness_TrailerEndsTheRun :
    s0.ex? = some x0 ∧ joinedOut s0 x0 = false ∧ x0.hand = false ∧ x0.w.displace = false ∧ x0.g.lanes ≠ 0 ∧ (s0.m.ctxCore x0.w.ctx x0.core).sfq.all (fun q => q.warp ≠ x0.w.uid || q.reported) = true := by decide +kernel

/-- A warp that stands at run starts: waiting at a convergence point for 256 runs; in serial mode with lane 0's 256 runs over. -/
def wConv : Warp := { warp0 with groups := [{ Group.at_ 0xFFFFFFFF 0x3000 0 with conv := some 256 }] }
def wSerial : Warp := { warp0 with groups := [Group.at_ 1 0x3000 0, Group.at_ 2 0x4000 0], serial := some (0, 256) }
/-- The running thread waits. -/
def wTurn : Warp := { waits warp0 .register with groups := ((waits warp0 .register).groups.map (fun g => { g with lanes := 1 })) ++ [Group.at_ 2 0x4000 0], serial := some (0, 3) }
def wIdle : Warp := { warp0 with groups := [Group.at_ 0xFFFFFFFF 0x3000 0] }
/-- Core 0 with a full active set, oldest position 0, and a pending warp at position 8 ready for 2,048 cy. -/
def sFull : State := withWarp wIdle .fresh (fun m => m.setCore 0 { m.core 0 with active := [0, 1, 2, 3, 4, 5, 6, 7], pending := [{ pos := 8, ready := 2048 }] })
def slice0 : Slice := { placeSlice with budget := 100, budcnt := 0 }
theorem witness_ReleaseSerialModeDisplacementBudget :
    ((withWarp wConv).m.warp? 0 0 = some wConv ∧ ∃ g ∈ wConv.groups, g.conv = some 256 ∧ inMask g.lanes 31 = true)
    ∧ ((withWarp wSerial).m.warp? 0 0 = some wSerial ∧ wSerial.serial = some (0, 256) ∧ (∀ g ∈ wSerial.groups, inMask g.lanes 0 = true → g.run = none)
      ∧ ((List.range 32).map (fun i => (0 + 1 + i) % 32)).find? (fun k => wSerial.groups.any (fun g => inMask g.lanes k && !g.atConv)) = some 1)
    ∧ ((withWarp wTurn).m.warp? 0 0 = some wTurn ∧ wTurn.serial = some (0, 3) ∧ (∀ g ∈ wTurn.groups, inMask g.lanes 0 = true → g.resolving = false ∧ g.run.any (fun r => r.wait != .none) = true)
      ∧ ((List.range 32).map (fun i => (0 + 1 + i) % 32)).find? (fun k => wTurn.groups.any (fun g => inMask g.lanes k && !g.atConv)) = some 1)
    ∧ ((sFull.m.core 0).pending.find? (fun q => q.pos == 8) = some { pos := 8, ready := 2048 } ∧ (sFull.m.core 0).active = [0, 1, 2, 3, 4, 5, 6, 7] ∧ sFull.m.warp? 0 0 = some wIdle
      ∧ ∀ g ∈ wIdle.groups ++ wIdle.hgroups, g.run = none)
    ∧ (let s := withWarp warp0 .fresh (fun m => { m with slices := [(0, slice0)] })
       mget s.m.slices 0 = some slice0 ∧ slice0.budcnt = 0 ∧ slice0.expired = false ∧ slice0.budget ≠ 0xFFFFFFFF ∧ s.m.warp? 0 0 = some warp0 ∧ warp0.slice = 0) := by decide +kernel

/-- A warp with lane 0 parked and no group left to run; one whose other group runs, 256 runs after. -/
def parked0 : List Thread := { Thread.none with status := .parked } :: List.replicate 31 Thread.none
def wParked : Warp := { warp0 with groups := [], threads := parked0, parkRuns := some 0 }
def wParked256 : Warp := { warp0 with groups := [Group.at_ 2 0x3000 0], threads := parked0, parkRuns := some 256 }
def sHvec (w : Warp) : State := { withWarp w with contexts := [(1, { placeContext with hvec := 0x8000 })] }
theorem witness_HandlerEntry :
    ((sHvec wParked).m.warp? 0 0 = some wParked ∧ wParked.handler = false ∧ ((sHvec wParked).ctx wParked.ctx).hvec ≠ 0 ∧ (∃ l < 32, (wParked.thread l).status = .parked ∧ (wParked.thread l).entered = false)
      ∧ ∀ g ∈ wParked.groups, g.atConv = true ∨ g.blocked = true)
    ∧ ((sHvec wParked256).m.warp? 0 0 = some wParked256 ∧ (∃ l < 32, (wParked256.thread l).status = .parked ∧ (wParked256.thread l).entered = false) ∧ wParked256.parkRuns = some 256) := by decide +kernel


/-! Memory. -/

/-- Entries of the TLBs of core 0 and of cluster 0: one 1 GiB page at 0, read, write, execute, accessed, dirty. -/
def tlb0 : TlbEntry := { ctx := 1, cluster := 0, core := some 0, base := 0, size := 2 ^ 30, frame := 0, pte := 0xDF, level := 2, leafAt := 0x2000 }
def tlbs : List TlbEntry := [tlb0, { tlb0 with core := none }]
def withTlb (w : Warp) (c : CtxCore := .fresh) (m : Mach → Mach := fun m => m) : State := withWarp w c (fun n => m { n with tlb := tlbs })
def atVa (va : Nat) : Xlat := { pa := va, mt := 0, level := 2, left := 2 ^ 30 - va }
/-- The same page in the other die's memory. -/
def farther (m : Mach) : Mach := { m with tlb := [{ tlb0 with frame := 0x3000000000, pte := 0x30000000DF }] }
def atFar (va : Nat) : Xlat := { atVa va with pa := 0x3000000000 + va }

/-- An address in w12 = 0x8000. -/
def wAddr : Warp := holding [(12, 0x8000)]
def sAddr : State := withTlb wAddr
def xAddr : Ex := exOf wAddr
/-- A core's other warp has eight sync-class requests in flight across the bridge. -/
def crowdedAt (core : Nat) (m : Mach) : Mach :=
  m.setWarp core 1 { warp0 with uid := 6, pends := (List.range 8).map (fun i => { owedLoad with id := 40 + i, reg := 100 + i, sync := true }) }
def crowded (m : Mach) : Mach := crowdedAt 0 m
def sCrowd : State := withTlb wAddr .fresh (fun m => farther (crowded m))
theorem witness_GlobalLoads :
    (sAddr.ex? = some xAddr ∧ (6 : BitVec 3).toNat ≤ 6 ∧ xAddr.g.lanes ≠ 0 ∧ xAddr.w.levels = [] ∧ sAddr.m.stores.all (fun st => st.warp ≠ xAddr.w.uid) = true ∧ xAddr.r.wait = .none
      ∧ loadDst sAddr.m xAddr 4 (tyRegs 6) = .go sAddr.m ∧ loadDst sAddr.m xAddr 0x83 (tyRegs 0) = .go sAddr.m
      ∧ srcReady sAddr.m xAddr false [] [12, 13] = .go ∧ srcReady sAddr.m xAddr true [] [12, 13] = .go ∧ syncOut sAddr sAddr.m 0 < 8
      ∧ ∀ l ∈ xAddr.lanes, pairAt xAddr 6 l = 0x8000 ∧ (pairAt xAddr 6 l).toNat % tyBytes 6 = 0 ∧ Hit sAddr 1 0 0x8000 .read (atVa 0x8000) ∧ paClass sAddr 0x8000 = .hbm 0
        ∧ poisonedRange sAddr.m 0x8000 (tyBytes 6) = false)
    ∧ (sCrowd.ex? = some xAddr ∧ srcReady sCrowd.m xAddr false [] [12, 13] = .go ∧ loadDst sCrowd.m xAddr 4 (tyRegs 4) = .go sCrowd.m ∧ 8 ≤ syncOut sCrowd sCrowd.m 0
      ∧ (∀ l ∈ xAddr.lanes, (pairAt xAddr 6 l).toNat % tyBytes 4 = 0 ∧ Hit sCrowd 1 0 (pairAt xAddr 6 l) .read (atFar 0x8000))
      ∧ paClass sCrowd (atFar 0x8000).pa = .hbm 1 ∧ poisonedRange sCrowd.m (atFar 0x8000).pa 4 = false ∧ ∃ l ∈ xAddr.lanes, crosses 0 (atFar 0x8000).pa = true) := by decide +kernel

/-- A level open in the warp; one whose shadow space is full and whose verdict is open. -/
def level0 : Level := { (default : Level) with id := 1, pendsFrom := 9 }
def wLevel : Warp := { wAddr with levels := [level0] }
def wShadow : Warp := { wAddr with levels := [{ level0 with held := List.replicate 32 (.asend 0 [] 0) }] }
def wSkew : Warp := holding [(12, 0x8001)]
/-- A word's sources with other registers that it reads. -/
abbrev Reads (s : State) (x : Ex) (srcs : List Src) (rs : List Nat) : Prop := srcReady s.m x false srcs rs = .go
def stored (x : Ex) : List Store := storesOf s0 x x.lanes 4 (pairAt x 6) (fun l => (storeData x.w 4 20 l).map some) none
theorem witness_StoresIssueAndPerform_issue :
    (sAddr.ex? = some xAddr ∧ Reads sAddr xAddr [] [12, 13, 20, 21, 22, 23] ∧ (∀ l ∈ xAddr.lanes, (pairAt xAddr 6 l).toNat % tyBytes 6 = 0) ∧ xAddr.w.levels = []
      ∧ Reads sAddr xAddr [srcI 9] [12, 13, 20])
    ∧ ((withTlb wLevel).ex? = some (exOf wLevel) ∧ Reads (withTlb wLevel) (exOf wLevel) [] [12, 13, 20] ∧ Reads (withTlb wLevel) (exOf wLevel) [srcI 9] [12, 13, 20]
      ∧ shadowUsed (withTlb wLevel).m 0 + 32 * (newSectors wLevel (stored (exOf wLevel))).length ≤ 65536)
    ∧ ((withTlb wShadow).ex? = some (exOf wShadow) ∧ Reads (withTlb wShadow) (exOf wShadow) [] [12, 13, 20] ∧ (wShadow.levels.all (fun l => l.verdict == none) = true)
      ∧ ¬shadowUsed (withTlb wShadow).m 0 + 32 * (newSectors wShadow (stored (exOf wShadow))).length ≤ 65536)
    ∧ ((withTlb wSkew).ex? = some (exOf wSkew) ∧ Reads (withTlb wSkew) (exOf wSkew) [] [12, 13, 20] ∧ Plain (exOf wSkew)
      ∧ ∀ l ∈ (exOf wSkew).lanes, (pairAt (exOf wSkew) 6 l).toNat % tyBytes 4 ≠ 0) := by and_intros <;> decide +kernel

/-- A store of the warp's lane 31 to the last byte of a page; with one combined with it in its sector; an `STM` of bytes in two words; an atomic; a store past the mapped page; a
store that a link error has failed. -/
def storeEnd : Store := { store0 with seq := 6, lanes := laneBit 31, kind := 0, addr := 0x8FFF, op := .bytes [some 0xAB] }
def storeWith : Store := { storeEnd with seq := 7, addr := 0x8FE0, joined := true }
def storeMask : Store := { storeEnd with kind := 7, addr := 0x8FFA, op := .bytes [some 1, none, some 2, some 3] }
def storeAtom : Store := { storeEnd with addr := 0x8000, kind := 8, op := .atomic 0 5 }
def storePast : Store := { storeEnd with addr := 0x1000000000000 }
def storeLost : Store := { storeEnd with failed := some { cause := .addr, detail := 8, addr := 0x8FFF } }
def performing (sts : List Store) : State := withTlb warp0 .fresh (fun m => { m with stores := sts })
/-- A store is its warp's next, names its first byte, and stays in its page. -/
abbrev InPlace (sts : List Store) (st : Store) (bs : List (Option Byte)) : Prop :=
  nextStore (performing sts).m 5 = some st ∧ st.entry = none ∧ st.failed = none ∧ st.place = none ∧ st.op = .bytes bs ∧ (bs.head?.join).isSome = true ∧ st.addr.toNat % 4096 + bs.length ≤ 4096
    ∧ Hit (performing sts) 1 0 st.addr .write (atVa st.addr.toNat) ∧ paClass (performing sts) st.addr.toNat = .hbm 0
/-- A warp with a combined store still to be performed waits at `EXIT` and at its trailer. -/
theorem witness_ExitAndTrailerWait :
    let s := performing [{ storeEnd with seq := 5 }, storeWith]
    s.ex? = some x0 ∧ x0.hand = false ∧ joinedOut s x0 = true := by decide +kernel

def lostBy (st : Store) : FaultInfo := { cause := .addr, detail := 6, addr := st.addr.setWidth 48 }
theorem witness_StoresIssueAndPerform_perform :
    (InPlace [storeEnd] storeEnd [some 0xAB] ∧ joinedStores (performing [storeEnd]).m storeEnd = [] ∧ storeEnd.kind ≠ 7)
    ∧ (InPlace [storeEnd, storeWith] storeEnd [some 0xAB] ∧ joinedStores (performing [storeEnd, storeWith]).m storeEnd = [storeWith] ∧ (atVa 0x8FFF).mt ≠ 2)
    ∧ (InPlace [storeMask] storeMask [some 1, none, some 2, some 3] ∧ joinedStores (performing [storeMask]).m storeMask = [] ∧ storeMask.kind = 7 ∧ 1 < storeMask.words.length
      ∧ ∀ i < 4, Hit (performing [storeMask]) 1 0 (storeMask.addr + BitVec.ofNat 64 i) .write { atVa 0x8FFA with pa := 0x8FFA + i, left := 2 ^ 30 - 0x8FFA - i })
    ∧ (nextStore (performing [storeAtom]).m 5 = some storeAtom ∧ storeAtom.op = .atomic 0 5 ∧ storeAtom.failed = none ∧ Hit (performing [storeAtom]) 1 0 0x8000 .atomic (atVa 0x8000)
      ∧ paClass (performing [storeAtom]) 0x8000 = .hbm 0 ∧ poisonedRange (performing [storeAtom]).m 0x8000 (atomSize 0) = false)
    ∧ (nextStore (performing [storePast]).m 5 = some storePast ∧ storePast.failed = none ∧ storePast.place = none ∧ storePast.op = .bytes [some 0xAB]
      ∧ translate (performing [storePast]) (performing [storePast]).m 1 0 storePast.addr .write = .fault (lostBy storePast) (performing [storePast]).m
      ∧ nextStore (performing [storeLost]).m 5 = some storeLost ∧ storeLost.failed.isSome = true ∧ storePast.lanes = laneBit 31
      ∧ ∀ st ∈ [storePast, storeLost], st.entry = none ∧ (performing [st]).m.findWarp 5 = some (0, 0, warp0) ∧ ((performing [st]).m.ctxCore 1 0).sfq.length < 16) := by and_intros <;> decide +kernel

/-- The address held by lane 0 alone; by lanes 0 to 31; half of an `fadd2.b2` performed at it. -/
def wOne : Warp := grouped wAddr (fun g => { g with lanes := 1 })
def wHalf : Warp := waits wOne (.halves 10 0 [(0, 0x8000)] [(0, 0x10000)])
/-- What an atomic that returns values finds at the address: its code, D, and the lanes. -/
abbrev AtomReady (w : Warp) (code d : Nat) : Prop :=
  (withTlb w).ex? = some (exOf w) ∧ w.levels = [] ∧ (exOf w).g.lanes ≠ 0 ∧ Reads (withTlb w) (exOf w) [] ([12, 13] ++ (List.range (atomReads code)).map (· + d))
    ∧ regsReady (withTlb w).m (exOf w) d (atomWrites code) = .go (withTlb w).m ∧ (withTlb w).m.stores.all (fun st => st.warp ≠ w.uid) = true ∧ (exOf w).r.wait = .none
    ∧ crosses 0 0x8000 = false ∧ pairAt (exOf w) 6 (exOf w).low = 0x8000 ∧ 0x8000 % atomSize code = 0 ∧ Hit (withTlb w) 1 0 0x8000 .atomic (atVa 0x8000)
    ∧ paClass (withTlb w) 0x8000 = .hbm 0 ∧ poisonedRange (withTlb w).m 0x8000 (atomSize code) = false
theorem witness_GlobalAtomics_unreturned :
    (sAddr.ex? = some xAddr ∧ xAddr.w.levels = [] ∧ Reads sAddr xAddr [] [12, 13, 3] ∧ syncOut sAddr sAddr.m 0 < 8 ∧ ∀ l ∈ xAddr.lanes, (pairAt xAddr 6 l).toNat % atomSize 0 = 0)
    ∧ (sCrowd.ex? = some xAddr ∧ Reads sCrowd xAddr [] [12, 13, 3] ∧ 8 ≤ syncOut sCrowd sCrowd.m 0
      ∧ ∃ l ∈ xAddr.lanes, peekPa sCrowd sCrowd.m 1 0 (pairAt xAddr 6 l) .atomic = some 0x3000008000 ∧ crosses 0 0x3000008000 = true) := by decide +kernel
theorem witness_GlobalAtomics :
    (AtomReady wOne 13 4 ∧ AtomReady wOne 14 3 ∧ isV 3 = true ∧ (14 : BitVec 4).toNat ≤ 14 ∧ (exOf wOne).lanes = [0] ∧ 0 < 288 ∧ ∀ l ∈ (exOf wOne).lanes, (pairAt (exOf wOne) 6 l).toNat % atomSize 14 = 0)
    ∧ (AtomReady wAddr 0 3 ∧ xAddr.lanes = 0 :: (List.range 31).map (· + 1) ∧ (∀ j ∈ (List.range 31).map (· + 1), pairAt xAddr 6 j = pairAt xAddr 6 0) ∧ ¬(9 ≤ 0 ∧ 0 ≤ 12))
    ∧ ((withTlb wHalf).ex? = some (exOf wHalf) ∧ Reads (withTlb wHalf) (exOf wHalf) [] [12, 13, 3] ∧ (exOf wHalf).lanes = [0] ∧ (exOf wHalf).r.wait = .halves 10 0 [(0, 0x8000)] [(0, 0x10000)]
      ∧ paClass (withTlb wHalf) 0x8000 = .hbm 0 ∧ paClass (withTlb wHalf) 0x8002 = .hbm 0) := by and_intros <;> decide +kernel

/-- A scratchpad address: the last aligned 16 bytes of the context's four pages on core 1, for every lane and for lane 1 alone; one past them; half of an `fadd2.b2` performed there. -/
def wSpad : Warp := holding [(9, 0x203FF0)]
def wSpad1 : Warp := grouped wSpad (fun g => { g with lanes := 2 })
def wFar : Warp := holding [(9, 0x204000)]
def wSpadHalf : Warp := waits wSpad1 (.halves 0 0 [(1, spadPlace 1 0x3FF0)] [(1, 3)])
theorem witness_ScratchpadAccess :
    (let s := withWarp wSpad
     let x := exOf wSpad
     s.ex? = some x ∧ (6 : BitVec 3).toNat ≤ 6 ∧ (∀ l ∈ x.lanes, addressOf s x 9 l = 0x203FF0) ∧ SpadAt s x 0x203FF0 (tyBytes 6) 1 0x3FF0 ∧ Reads s x [srcI 9] [] ∧ loadDst s.m x 4 (tyRegs 6) = .go s.m
      ∧ Reads s x [srcI 9] [4, 5, 6, 7] ∧ drained s.m 5 = true ∧ tileHeld s.m x 1 0x3FF0 16 = false
      ∧ Reads s x [srcI 9] ((List.range (atomReads 13)).map (· + 3)) ∧ regsReady s.m x 3 (atomWrites 13) = .go s.m ∧ x.r.wait = .none
      ∧ SpadAt s x 0x203FF0 (atomSize 13) 1 0x3FF0 ∧ x.lanes = 0 :: (List.range 31).map (· + 1) ∧ ¬(9 ≤ 13 ∧ 13 ≤ 12))
    ∧ ((storing wSpad store0).ex? = some (exOf wSpad) ∧ Reads (storing wSpad store0) (exOf wSpad) [srcI 9] [4] ∧ drained (storing wSpad store0).m 5 = false)
    ∧ (let s := withWarp wFar
       let x := exOf wFar
       s.ex? = some x ∧ Plain x ∧ Reads s x [srcI 9] [4] ∧ drained s.m 5 = true
        ∧ ∀ l ∈ x.lanes, addressOf s x 9 l % 4 = 0 ∧ (2 ^ 24 ≤ addressOf s x 9 l ∨ (s.m.ctxCluster x.w.ctx x.core).pages * 4096 < addressOf s x 9 l % 2 ^ 21 + 4)) := by decide +kernel
theorem witness_ScratchpadAccess_one :
    (let s := withWarp wSpad1
     let x := exOf wSpad1
     s.ex? = some x ∧ drained s.m 5 = true ∧ x.r.wait = .none ∧ x.lanes = [1] ∧ ∀ code ∈ [9, 14], Reads s x [srcI 9] ((List.range (atomReads code)).map (· + 3)) ∧ regsReady s.m x 3 (atomWrites code) = .go s.m
      ∧ (∀ l ∈ x.lanes, addressOf s x 9 l = 0x203FF0) ∧ SpadAt s x 0x203FF0 (atomSize code) 1 0x3FF0 ∧ tileHeld s.m x 1 0x3FF0 (atomSize code) = false)
    ∧ ((withWarp wSpadHalf).ex? = some (exOf wSpadHalf) ∧ (exOf wSpadHalf).lanes = [1] ∧ (exOf wSpadHalf).r.wait = .halves 0 0 [(1, spadPlace 1 0x3FF0)] [(1, 3)]
      ∧ 0x3FF0 % 4 = 0 ∧ 0x3FF0 < 2 ^ 21 ∧ ((withWarp wSpadHalf).m.ctxCore 1 1).rounds.contains (0x3FF0 / 4096) = false) := by decide +kernel

/-- Offsets in v9: 0x200, in bank 2, outside its refresh window at counter 0; the window's last 16 bytes and one past them; 376, the record's last pair; 377; 384. -/
def wOff (n : Word) : Warp := holding [(9, n)]
abbrev Windowed (w : Warp) : Prop :=
  (withWarp w).ex? = some (exOf w) ∧ srcReady (withWarp w).m (exOf w) false [srcI 9] = .go ∧ loadDst (withWarp w).m (exOf w) 4 (tyRegs 6) = .go (withWarp w).m
    ∧ ∀ l ∈ (exOf w).lanes, addressOf (withWarp w) (exOf w) 9 l % 16 = 0
      ∧ ((withWarp w).partitionOf 1).wsBase + addressOf (withWarp w) (exOf w) 9 l + 16 ≤ min ((withWarp w).partitionOf 1).wsLimit (192 * 2 ^ 20)
      ∧ ∀ i < 16, mget (withWarp w).m.windows ((((withWarp w).partitionOf 1).wsBase + addressOf (withWarp w) (exOf w) 9 l + i) / 256 % 16) = none
theorem witness_WeightStoreAndLaunchRecord :
    Windowed (wOff 0x200) ∧ Windowed (wOff 0xFFF0)
    ∧ ((withWarp (wOff 0x208)).ex? = some (exOf (wOff 0x208)) ∧ srcReady (withWarp (wOff 0x208)).m (exOf (wOff 0x208)) false [srcI 9] = .go ∧ loadDst (withWarp (wOff 0x208)).m (exOf (wOff 0x208)) 4 (tyRegs 6) = .go (withWarp (wOff 0x208)).m
      ∧ Plain (exOf (wOff 0x208)) ∧ ∀ l ∈ (exOf (wOff 0x208)).lanes, addressOf (withWarp (wOff 0x208)) (exOf (wOff 0x208)) 9 l % tyBytes 6 ≠ 0)
    ∧ (Plain (exOf (wOff 0x10000)) ∧ ∀ l ∈ (exOf (wOff 0x10000)).lanes, addressOf s0 (exOf (wOff 0x10000)) 9 l % 16 = 0
      ∧ min (s0.partitionOf 1).wsLimit (192 * 2 ^ 20) < (s0.partitionOf 1).wsBase + addressOf s0 (exOf (wOff 0x10000)) 9 l + 16)
    ∧ (let s := withGrid (wOff 376)
       let x := exOf (wOff 376)
       s.ex? = some x ∧ srcReady s.m x true [srcI 9] = .go ∧ isV 4 = true ∧ regsReady s.m x 4 2 = .go s.m ∧ addressOf s x 9 x.low % 8 = 0 ∧ addressOf s x 9 x.low + 8 ≤ 384
        ∧ ((mget s.m.grids x.w.grid).elim (List.replicate 384 0) (·.record)).length = 384)
    ∧ (Plain (exOf (wOff 377)) ∧ addressOf (withGrid (wOff 377)) (exOf (wOff 377)) 9 (exOf (wOff 377)).low % 4 ≠ 0)
    ∧ (Plain (exOf (wOff 384)) ∧ addressOf (withGrid (wOff 384)) (exOf (wOff 384)) 9 (exOf (wOff 384)).low % 4 = 0 ∧ 384 < addressOf (withGrid (wOff 384)) (exOf (wOff 384)) 9 (exOf (wOff 384)).low + 4)
    ∧ (s0.ex? = some x0 ∧ Finds s0 x0 (true, [srcI 2], false, 6, 2) ∧ 1 < 2 ∧ 15 < 16) := by and_intros <;> decide +kernel

/-! Local stores, results, translation, the term engine. -/

/-- v9 = 0x1000, page 1 of the own scratchpad; v9 = 0x3FF0, its last 16 bytes. -/
def wPage : Warp := holding [(9, 0x1000)]
def wLast : Warp := holding [(9, 0x3FF0)]
abbrev Owns (s : State) (x : Ex) (addr align n : Nat) : Prop :=
  addressOf s x 9 x.low = addr ∧ addr % align = 0 ∧ addr < 2 ^ 24 ∧ addr / 2 ^ 21 = x.core % 8 ∧ addr % 2 ^ 21 + n ≤ (s.m.ctxCluster x.w.ctx x.core).pages * 4096
/-- Pages pinned by the context, and by another one on the same core. -/
def pinned (ps others : List Nat) : State := withWarp wPage { CtxCore.fresh with pins := ps } (fun m => m.setCtxCore 2 0 { CtxCore.fresh with pins := others })
theorem witness_PinsAndBarrierObjects_pins :
    (∀ ps ∈ [[1], [2], []], let s := pinned ps []
     s.ex? = some (exOf wPage) ∧ Owns s (exOf wPage) 0x1000 4096 4096 ∧ Finds s (exOf wPage) (true, [srcI 9], false, 3, 1) ∧ srcReady s.m (exOf wPage) true [srcI 9] = .go)
    ∧ 0x1000 / 4096 ∈ (boxOf (pinned [1] []) (exOf wPage)).pins
    ∧ (0x1000 / 4096 ∉ (boxOf (pinned [2] (List.replicate 47 3)) (exOf wPage)).pins ∧ 48 ≤ corePins (pinned [2] (List.replicate 47 3)).m 0)
    ∧ (0x1000 / 4096 ∉ (boxOf (pinned [2] (List.replicate 46 3)) (exOf wPage)).pins ∧ corePins (pinned [2] (List.replicate 46 3)).m 0 < 48) := by decide +kernel
/-- A barrier object at 0x3FF0 with the given words; two releases arrived, one as wide as the cluster. -/
def sObject (bytes : SMap Byte) (rels : List RelSrc := []) : State := withWarp wLast { CtxCore.fresh with spad := bytes, signals := [(0x3FF0, rels)] }
def word (s : State) (i : Nat) : Nat := bytesToNat (readBytes (boxOf s (exOf wLast)).spad (0x3FF0 + 4 * i) 4)
abbrev ObjectAt (s : State) : Prop :=
  s.ex? = some (exOf wLast) ∧ Owns s (exOf wLast) 0x3FF0 16 16 ∧ (boxOf s (exOf wLast)).rounds.contains 3 = false ∧ Finds s (exOf wLast) (true, [srcI 9], false, 3, 1) ∧ word s 3 = 0
theorem witness_PinsAndBarrierObjects_barrier :
    (ObjectAt (sObject []) ∧ srcReady (sObject []).m (exOf wLast) true [srcI 9, srcI 3] = .go ∧ drained (sObject []).m wLast.uid = true ∧ tileHeld (sObject []).m (exOf wLast) 0 0x3FF0 16 = false
      ∧ word (sObject []) 1 = word (sObject []) 0 ∧ word (sObject []) 2 < 2 ^ 16)
    ∧ (let s := sObject [(0x3FF0, 8), (0x3FF8, 0xFF), (0x3FF9, 0xFF)] [{ scope := 3, agent := warp0.agent 1, ids := [], direct := false }]
       ObjectAt s ∧ word s 1 ≠ word s 0 ∧ word s 2 = 0xFFFF ∧ ∃ r ∈ mgetD (boxOf s (exOf wLast)).signals 0x3FF0 [], 3 ≤ r.scope)
    ∧ (ObjectAt (sObject [(0x3FF0, 8)]) ∧ word (sObject [(0x3FF0, 8)]) 1 ≠ word (sObject [(0x3FF0, 8)]) 0 ∧ word (sObject [(0x3FF0, 8)]) 2 = 0) := by decide +kernel

/-- A write of the warp's that the other die has still to apply; addresses in w126 = 0x8038. -/
def sBehind : State := withWarp warp0 .fresh (fun m => { m with late := [{ id := 2, die := 1, agent := warp0.agent 0, thread := 5, access := 0, lanes := 1, pa := 0x8000, old := [some 0], carry := [] }] })
def wPref : Warp := holding [(126, 0x8038)]
theorem witness_FencesAndPrefetches :
    (s0.ex? = some x0 ∧ s0.m.stores.any (fun st => st.warp == x0.w.uid) = false ∧ s0.m.late.any (fun w => w.thread == x0.w.uid) = false ∧ x0.w.pends = [])
    ∧ (sCrowd.ex? = some xAddr ∧ 5 ≤ (5 : BitVec 3).toNat ∧ 8 ≤ syncOut sCrowd sCrowd.m 0) ∧ syncOut s0 s0.m 0 < 8
    ∧ ((storing warp0 store0).ex? = some x0 ∧ 2 ≤ (2 : BitVec 2).toNat ∧ (storing warp0 store0).m.stores.any (fun st => st.warp == x0.w.uid) = true)
    ∧ (sBehind.ex? = some x0 ∧ 5 ≤ (7 : BitVec 3).toNat ∧ sBehind.m.late.any (fun w => w.thread == x0.w.uid) = true)
    ∧ ((withWarp wOwed).ex? = some (exOf wOwed) ∧ (1 : BitVec 2).toNat % 2 = 1 ∧ (exOf wOwed).w.pends.any (fun q => (q.kind == .load || q.kind == .remote) && q.lanes &&& (exOf wOwed).g.lanes != 0) = true)
    ∧ ((withTlb wPref).ex? = some (exOf wPref) ∧ Reads (withTlb wPref) (exOf wPref) [] [126, 127]
      ∧ ∀ l ∈ (exOf wPref).lanes, (pairAt (exOf wPref) 63 l).toNat / 64 * 64 = 0x8000 ∧ Hit (withTlb wPref) 1 0 0x8000 .read (atVa 0x8000)) := by decide +kernel

/-- Results owed: by a load, with its values; by a refill; by a queue-fed load; by a remote load for which the group waits. -/
def owed1 : Pend := { owedLoad with vals := (List.range 32).map (fun l => (l, [7])) }
def owed2 : Pend := { owedLoad with id := 8, kind := .fill }
def owed3 : Pend := { owedLease with id := 9 }
def owed4 : Pend := { owedLoad with kind := .remote, addrs := [(0, 0x8000, 2)] }
def owing (p : Pend) : Warp := { warp0 with pends := [p] }
def wRemote : Warp := waits (owing owed4) (.remote 7)
theorem witness_ResultsReturn :
    ((withWarp (owing owed1)).m.warp? 0 0 = some (owing owed1) ∧ (owing owed1).pend? 7 = some owed1 ∧ owed1.kind = .load ∧ ∀ l < 32, inMask owed1.lanes l = true → (mget owed1.vals l).isSome = true)
    ∧ ((withWarp wRemote).m.warp? 0 0 = some wRemote ∧ wRemote.pend? 7 = some owed4 ∧ owed4.kind = .remote ∧ ∃ g ∈ wRemote.groups, g.run.any (fun r => r.wait == .remote 7) = true)
    ∧ ((withWarp (owing owed2)).m.warp? 0 0 = some (owing owed2) ∧ (owing owed2).pend? 8 = some owed2 ∧ owed2.kind = .fill ∧ makeRoom 40 (withWarp (owing owed2)).m 0 0 1 = .ok (withWarp (owing owed2)).m)
    ∧ (let s := withWarp (owing owed3) queueBox
       s.m.warp? 0 0 = some (owing owed3) ∧ (owing owed3).pend? 9 = some owed3 ∧ owed3.kind = .queueFed 0 ∧ ((s.m.ctxCore 1 0).queues.getD 0 .fresh).entries = 5 :: [] ∧ 0 < (s.m.ctxCore 1 0).queues.length
        ∧ ((s.m.ctxCore 1 0).queues.getD 0 .fresh).readers = [] ∧ (owing owed3).pends.find? (fun q => q.kind == .queueFed 0) = some owed3 ∧ owed3.count = 1) := by decide +kernel

/-- Translation tables in memory and empty TLBs, the second entry absent; a first-touch entry at 0x2000; a sector that L2 holds newly written whole; a store to another package's memory. -/
def sTables : State := withWarp warp0 .fresh (fun m => { m with mem := placeMem [] 0 })
def touch0 : TouchRequest := { leafAt := 0x2000, level := 0, pte := 6, die := 0, ctx := 1, refused := false }
def framed : Partition := { clusters := [0, 1], frames := [(0x2FFFFFF, 1)], wsBase := 0, wsLimit := 0 }
def sTouch : State := { withWarp warp0 .fresh (fun m => { m with touches := [(1, touch0)], mem := [(0x2000, 6)] }) with partitions := [(0, framed)] }
def leaf0 : Leaf := { level := 2, at_ := 0x2000, pte := 0xDF }
def foundAt (va : Nat) : WalkEnd := let start := walkStart sTables.m 0 1 va (sTables.ctx 1).ptbase; walkFrom sTables sTables.m va none start.1 start.2
def wholeSector : L2Sector := { val := true, drt := true, wmask := 0xFF }
def sPod : State := { withWarp warp0 .fresh (fun m => { m with stores := [storeEnd], tlb := [{ tlb0 with pte := 0x10080000000DF }] }) with pod := [(1, 7)] }
def atPod : Xlat := { atVa 0x8FFF with pa := 0x1008000000000 + 0x8FFF }
/-- A page-table entry lies in memory. -/
abbrev InMemory (s : State) (a : Nat) : Prop := paClass s a = .hbm 0
theorem witness_TranslationAndErrors :
    InMemory sTables leaf0.at_ ∧ InMemory sTouch touch0.leafAt ∧ 0x2FFFFFF < 2 ^ 40
    ∧ ((0x3FFFFFFF : DWord).toNat < 2 ^ 48 ∧ tlbHit sTables.m 1 0 0x3FFFFFFF = none ∧ foundAt 0x3FFFFFFF = .leaf leaf0
      ∧ leafCheck sTables 1 .write leaf0.level leaf0.pte (pteFrame leaf0.pte + 0x3FFFFFFF % leafSize leaf0.level leaf0.pte) 0x3FFFFFFF = none
      ∧ tlbHit sTables.m 1 0 0x40000000 = none ∧ foundAt 0x40000000 = .bad 2 1)
    ∧ (mget sTouch.m.touches 1 = some touch0 ∧ readPte sTouch sTouch.m touch0.leafAt = touch0.pte ∧ touch0.pte.getLsbD 0 = false ∧ touch0.pte.getLsbD 2 = true ∧ touch0.pte.getLsbD 9 = false ∧ touch0.level = 0
      ∧ pteMalformed 0 (((BitVec.ofNat 64 0x2FFFFFF <<< 12) ||| (touch0.pte &&& 0xE3E) ||| 1) &&& 0xFFF) = false ∧ (∃ r ∈ (sTouch.partitionOf touch0.ctx).frames, r.1 ≤ 0x2FFFFFF ∧ 0x2FFFFFF < r.1 + r.2)
      ∧ homeDie (0x2FFFFFF * 4096) = 0)
    ∧ (s0.m.stores.all (fun st => st.ctx ≠ 1) = true ∧ ∀ e ∈ s0.m.allWarps, ∀ g ∈ e.2.2.groups ++ e.2.2.hgroups, g.run.all (fun r => match r.wait with | .halves .. => false | _ => true) = true)
    ∧ (0x5FFFFFFFFF < 0x6000000000 ∧ (s0.m.l2At (0x5FFFFFFFFF / 32)).wmask ≠ 0xFF ∧ ((withWarp warp0 .fresh (fun m => { m with l2 := [(4, wholeSector)] })).m.l2At (0x80 / 32)).wmask = 0xFF)
    ∧ (let s := withWarp wRemote
       5 ≠ 0 ∧ nextStore s.m 5 = none ∧ mget s.m.copies 7 = none ∧ mget s.m.gathers 7 = none ∧ s.m.findWarp 5 = some (0, 0, wRemote) ∧ s.m.warp? 0 0 = some wRemote ∧ wRemote.pend? 7 = some owed4
        ∧ owed4.kind = .remote ∧ wRemote.uid = 5 ∧ s.m.arbiters.length = 3)
    ∧ (nextStore sPod.m 5 = some storeEnd ∧ storeEnd.failed = none ∧ storeEnd.entry = none ∧ storeEnd.op = .bytes [some 0xAB] ∧ Hit sPod 1 0 0x8FFF .write atPod ∧ paClass sPod atPod.pa = .pod
      ∧ storeEnd.lanes = laneBit 31 ∧ sPod.m.findWarp 5 = some (0, 0, warp0) ∧ (sPod.m.ctxCore 1 0).sfq.length < 16 ∧ sPod.m.arbiters.length = 3) := by and_intros <;> decide +kernel
theorem witness_TranslationAndErrors_threshold : ∃ s : State, s.m.errors + 1 ≠ Config.errorThreshold :=
  ⟨s0.withM { s0.m with errors := Config.errorThreshold }, fun h => Nat.succ_ne_self Config.errorThreshold h⟩

/-- A warp in gang 6; a gang of one with array 0; a gang without one. -/
def gang6 : Gang := { ctx := 1, members := [(5, 0)], array := some 0, since := 0, nextStep := 0, steps := [] }
def wGang : Warp := { warp0 with gang := some 6 }
def ganged (w : Warp) (g : Gang) (grids : List (Nat × Grid) := [(0, grid0)]) : State :=
  withWarp w .fresh (fun m => { m.setCore 0 { m.core 0 with gangs := [(6, g)] } with grids := grids })
theorem witness_TermConfigurationBoundsGangs_bounds :
    let s := withGrid warp0
    s.ex? = some x0 ∧ slotElt (formatSlot s.m x0.w (3 : BitVec 3).toNat) = 0x22 ∧ Finds s x0 (true, [], false, 5, 1) ∧ addressOf s x0 9 x0.low = 0 ∧ srcReady s.m x0 true [srcI 9] = .go ∧ regsReady s.m x0 5 1 = .go s.m
      ∧ isV 5 = true ∧ 0 + 2048 ≤ (s.m.ctxCluster x0.w.ctx x0.core).pages * 4096 ∧ spadPoisoned (s.m.ctxCore 1 0) 0 2048 = false ∧ (s.m.ctxCore 1 0).rounds = [] := by decide +kernel
def wAnswered : Warp := waits wGang (.gang 1)
def gangless : Core := (ganged wGang { gang6 with array := none }).m.core 0
/-- The group's mask for `GANG`, and what the warp finds. -/
abbrev Ganging (w : Warp) (mask : Word) : Prop :=
  (withWarp w).ex? = some (exOf w) ∧ w.gang = none ∧ w.arrived = 0 ∧ (exOf w).r.wait = .none ∧ (exOf w).pos < 32 ∧ Finds (withWarp w) (exOf w) (true, [srcI 9], false, 3, 1)
    ∧ arg (operands (withWarp w) (exOf w) [srcI 9] (exOf w).low) 0 = mask
theorem witness_TermConfigurationBoundsGangs_gangs :
    Ganging warp0 0
    ∧ (Ganging (holding [(9, 1)]) (laneBit 0) ∧ (∀ e ∈ ((withWarp (holding [(9, 1)])).m.core 0).warps, e.1 = 0) ∧ waitingGangs (fun ctx => (withWarp (holding [(9, 1)])).stopped ctx 0) ((withWarp (holding [(9, 1)])).m.core 0) = []
      ∧ (withWarp (holding [(9, 1)])).stopped 1 0 = false ∧ (∀ e ∈ ((withWarp (holding [(9, 1)])).m.core 0).warps, gangWaits e.2 = []) ∧ (s0.m.core 0).gangs = [])
    ∧ ((ganged wAnswered gang6).ex? = some (exOf wAnswered) ∧ (exOf wAnswered).r.wait = .gang 1 ∧ wAnswered.gang = some 6 ∧ mget ((ganged wAnswered gang6).m.core 0).gangs 6 = some gang6 ∧ gang6.array = some 0
      ∧ Finds (ganged wAnswered gang6) (exOf wAnswered) (true, [srcI 9], false, 3, 1))
    ∧ (Ganging (holding [(9, 2)]) 2 ∧ Plain (exOf (holding [(9, 2)])) ∧ inMask 2 0 = false)
    ∧ (msorted gangless.gangs = true ∧ (6, { gang6 with array := none }) ∈ gangless.gangs ∧ Gang.present (fun ctx => (ganged wGang { gang6 with array := none }).stopped ctx 0) gangless { gang6 with array := none } = true ∧ (∀ e ∈ gangless.gangs, e.1 = 6)
      ∧ ∀ e ∈ gangless.gangs, e.2.array ≠ some 0) := by decide +kernel

/-- Another warp of the core waits at `GANG` for positions 0 and 1: a `GANG` of position 0 alone clashes with it, and one that leaves its gang. -/
def wClashes : Warp := waits { warp0 with uid := 6 } (.gang 3)
def sClashes (w : Warp) : State := withWarp w .fresh (fun m => m.setWarp 0 1 wClashes)
theorem witness_TermConfigurationBoundsGangs_clash :
    ∀ e ∈ [(holding [(9, 1)], (1 : Word)), (warp0, 0)],
      let s := sClashes e.1
      let x := exOf e.1
      s.ex? = some x ∧ x.pos < 32 ∧ Finds s x (true, [srcI 9], false, 3, 1) ∧ x.r.wait = .none ∧ x.w.gang = none ∧ Plain x ∧ arg (operands s x [srcI 9] x.low) 0 = e.2
        ∧ (e.2 ≠ 0 → inMask e.2 x.pos = true) ∧ (maskLanes e.2).length ≤ 6 ∧ s.m.warp? 0 1 = some wClashes ∧ wClashes.ctx = x.w.ctx
        ∧ gangWaits wClashes = [3] ∧ 3 ≠ e.2 ∧ inMask 3 x.pos = true := by decide +kernel

/-- A step that warp 5 has arrived at alone in a gang of one and in a gang of two; a step that is loaded and over. -/
def member5 : StepMember := { warp := 5, pos := 0, lanes := 0xFFFFFFFF, reg := 32, aAddr := 0, bAddr := 0, fa := recordSlot record0 3, fb := recordSlot record0 0, z := true, sp := true, since := 10 }
def step5 : TermStep := { number := 0, members := [member5], issued := none, leader := 0, cfg := (32, 1), loaded := none, first := 0, count := 0 }
def gangTwo : Gang := { gang6 with members := [(5, 0), (77, 1)] }
def wTmma : Warp := waits { wGang with arrived := 1 } (.tmma 6 0)
def operands5 : Operands := { blocks := [], poisoned := false, members := [(5, [], [])] }
def over5 : TermStep := { step5 with issued := some 0, loaded := some operands5, first := 1, count := 0 }
/-- Everything that `TMMA` checks on arrival is in order. -/
abbrev Arrives (g : Gang) : Prop :=
  let s := ganged wGang g
  let x := exOf wGang
  s.ex? = some x ∧ mget (s.m.core x.core).gangs 6 = some g ∧ srcReady s.m x true [srcW 8] = .go ∧ tmmaCheck s s.m x (formatSlot s.m x.w 3) (formatSlot s.m x.w 0) true 0 0 = none
    ∧ srcValue (boxOf s x) x (srcW 8) 0 x.low = 0 ∧ tileReady s.m x 32 = .go s.m ∧ scaleXlats s 1 0 (formatSlot s.m x.w 0) 0 s.m (List.range 16) = .ok () s.m ∧ ∀ t ∈ g.steps, t.number ≠ 0
theorem witness_TermSteps_arrive :
    (s0.ex? = some x0 ∧ x0.w.gang = none ∧ Plain x0)
    ∧ (wGang.gang = some 6 ∧ (exOf wGang).r.wait = .none ∧ isV 32 = true ∧ (exOf wGang).pos < 34 ∧ (∀ k < 16, wGang.spilled.contains ((32 : BitVec 8).toNat + k) = false)
      ∧ ∀ q ∈ wGang.groups ++ wGang.hgroups, q.run.all (fun r => r.wait != .tmma 6 0) = true)
    ∧ (Arrives gang6 ∧ gang6.members = [(wGang.uid, 0)] ∧ gang6.array.isSome = true) ∧ (Arrives gangTwo ∧ ∃ p ∈ gangTwo.members, p.1 ≠ wGang.uid) := by decide +kernel
def gangArrived : Gang := { gang6 with steps := [step5] }
def gangOver : Gang := { gang6 with steps := [over5] }
def wLeased : Warp := { wGang with pends := [{ owedLease with kind := .term 6 0, reg := 32, count := 16 }] }
theorem witness_TermSteps_issue_finish :
    ((ganged wTmma gangArrived).ex? = some (exOf wTmma) ∧ wTmma.gang = some 6 ∧ mget ((ganged wTmma gangArrived).m.core 0).gangs 6 = some gangArrived ∧ (exOf wTmma).r.wait = .tmma 6 0
      ∧ gangArrived.array.isSome = true ∧ gangArrived.steps.find? (fun t => t.number == 0 && t.issued.isNone) = some step5 ∧ (∀ p ∈ gangArrived.members, ∃ q ∈ step5.members, q.warp = p.1)
      ∧ step5.members.Pairwise (fun p q => p.pos ≠ q.pos) ∧ 16 * step5.members.length ≤ freeRegs (ganged wTmma gangArrived).m 0
      ∧ (∀ k < 16, wTmma.spilled.contains ((32 : BitVec 8).toNat + k) = false) ∧ ∀ p ∈ step5.members, tileSpilled (ganged wTmma gangArrived).m 0 p = false)
    ∧ (mget ((ganged wLeased gangOver).m.core 0).gangs 6 = some gangOver ∧ gangOver.steps = over5 :: [] ∧ over5.loaded = some operands5 ∧ operands5.poisoned = false
      ∧ over5.members.find? (fun p => p.pos == over5.leader) = some member5 ∧ over5.first + over5.count ≤ (ganged wLeased gangOver).m.cy + 1 ∧ over5.members.Pairwise (fun p q => p.pos ≠ q.pos)
      ∧ (ganged wLeased gangOver).m.warp? 0 member5.pos = some wLeased ∧ wLeased.uid = member5.warp ∧ wLeased.ctx = gangOver.ctx
      ∧ (wLeased.pends.find? (fun e => e.kind == .term 6 0)).any (fun q => q.reg == member5.reg && q.count == 16) = true) := by decide +kernel

/-! The accumulate network. -/

/-- Chain 7 of context 1: a source on core 0 toward core 1, a sink on core 1. -/
def source0 (resv : Nat) : Decl := { core := 0, warp := 5, role := 1, page := none, hop := 1, nrc := 0, exp := 0, resv := resv, closed := false, retired := false, buffer := none }
def sink1 (b : Option ArrivalBuffer) : Decl := { core := 1, warp := 77, role := 2, page := none, hop := 0, nrc := 1, exp := 256, resv := 0, closed := false, retired := false, buffer := b }
def chain7 (granted : Bool) (ds : List Decl) : Chain := { ctx := 1, id := 7, decls := ds, granted := granted, round := 4 }
def chained (w : Warp) (granted : Bool) (ds : List Decl) : State := withWarp w .fresh (fun m => { m with chains := [(chainKey 1 7, chain7 granted ds)] })
/-- v9 and v20 = chain 7; the second word of a declaration in v21. -/
def wChain (lo hi : Word) : Warp := holding [(9, 7), (20, lo), (21, hi)]
/-- A request of warp 5 at the directory, to declare (`c` false) or to close. -/
def request (c : Bool) (d : Decl) : DirRequest := { warp := 5, lane := 0, ctx := 1, core := 0, pos := 0, close := c, chain := 7, decl := d }
def requested (ds : List Decl) (q : DirRequest) : State := withWarp (waits (wChain 0 0) .directory) .fresh (fun m => { m with chains := [(chainKey 1 7, chain7 false ds)], dirQueue := [q] })
def wDone : Warp := waits (wChain 0 0) .released

/-- What `ACHAIN` reads from w20 and, for a paged buffer, from v9, with which it is recorded: `r` its role, `p` whether it names a page. -/
def wDeclares (lo hi page : Word) : Warp := holding [(9, page), (20, lo), (21, hi)]
abbrev Declares (w : Warp) (r lo hi : Nat) (p : Bool) : Prop :=
  let s := withWarp w
  let x := exOf w
  let srcs := srcW 20 :: (if p then [srcI 9] else [])
  let page := (arg (operands s x srcs x.low) 1).toNat
  s.ex? = some x ∧ srcReady s.m x true srcs = .go ∧ x.r.wait = .none ∧ 1 ≤ r ∧ (operands s x srcs x.low).getD 0 0 = BitVec.ofNat 64 (lo + 2 ^ 32 * hi) ∧ lo % 2 ^ 7 = 0 ∧ hi / 2 ^ 24 = 0 ∧ hi / 2 ^ 9 % 2 ^ 7 = 0
    ∧ (if r = 2 then lo / 2 ^ 7 % 2 ^ 9 = 0 ∧ 1 ≤ hi / 2 ^ 16 ∧ hi / 2 ^ 16 ≤ 64 else lo / 2 ^ 7 % 2 ^ 8 ≤ 143 ∧ hi / 2 ^ 16 % 2 ^ 8 = 0) ∧ (if r = 1 then hi % 2 ^ 9 = 0 else 1 ≤ hi % 2 ^ 9 ∧ hi % 2 ^ 9 ≤ 256)
    ∧ (p = true → page % 4096 = 0 ∧ page < 2 ^ 24 ∧ page / 2 ^ 21 = x.core % 8 ∧ page % 2 ^ 21 + 4096 ≤ (s.m.ctxCluster x.w.ctx x.core).pages * 4096)
/-- A sink of 64 receivers and 256 arrivals; a source toward die 1 core 143; a sink with its buffer at page 3. -/
theorem witness_ChainsDeclareReserveClose_declare :
    ((withWarp wDone).ex? = some (exOf wDone) ∧ srcReady (withWarp wDone).m (exOf wDone) true [srcW 20] = .go ∧ (exOf wDone).r.wait = .released)
    ∧ Declares (wDeclares 0x70000 0x400100 0) 2 0x70000 0x400100 false ∧ Declares (wDeclares 0x7C780 0 0) 1 0x7C780 0 false ∧ Declares (wDeclares 0x70000 0x400100 0x3000) 2 0x70000 0x400100 true :=
  ⟨by decide +kernel, by decide +kernel, by decide +kernel, by decide +kernel⟩
theorem witness_ChainsDeclareReserveClose_close_reserve :
    (let s := chained (wChain 0 0) true [source0 0, sink1 (some .fresh)]
     let x := exOf (wChain 0 0)
     let decls := (s.m.chain? x.w.ctx 7).elim [] (·.decls)
     s.ex? = some x ∧ srcReady s.m x true [srcI 9] = .go ∧ addressOf s x 9 x.low % 2 ^ 16 = 7 ∧ decls.find? (fun d => d.warp == x.w.uid && !d.closed && !d.retired) = some (source0 0) ∧ x.r.wait = .none ∧ x.w.pends = []
      ∧ s.m.chain? x.w.ctx 7 = some (chain7 true [source0 0, sink1 (some .fresh)]) ∧ decls.find? (fun d => d.warp == x.w.uid && d.isOpen && d.sends) = some (source0 0) ∧ (source0 0).resv < 2
      ∧ ∃ e ∈ decls, e.core = (source0 0).hop ∧ e.isOpen = true ∧ e.buffer.isSome = true)
    ∧ (let s := chained (wChain 0 0) false [source0 1, sink1 none]
       s.m.chain? 1 7 = some (chain7 false [source0 1, sink1 none]) ∧ [source0 1, sink1 none].find? (fun d => d.warp == 5 && d.isOpen && d.sends) = some (source0 1) ∧ (source0 1).resv < 2 ∧ (chain7 false [source0 1, sink1 none]).granted ≠ true)
    ∧ [source0 2].find? (fun d => d.warp == 5 && d.isOpen && d.sends) = some (source0 2) ∧ 2 ≤ (source0 2).resv
    ∧ (let s := chained (wChain 0 0) false [{ sink1 none with core := 0, warp := 5 }]
       s.ex? = some (exOf (wChain 0 0)) ∧ (∀ d ∈ (s.m.chain? 1 7).elim [] (·.decls), d.role = 2) ∧ Plain (exOf (wChain 0 0)))
    ∧ (let s := chained (wChain 0 0) false [sink1 none]
       ∀ d ∈ (s.m.chain? 1 7).elim [] (·.decls), ¬(d.warp = 5 ∧ d.closed = false ∧ d.retired = false)) := by decide +kernel
/-- Such a warp on core 144, of die 1, where another warp has eight sync-class requests in flight. -/
def eastern (w : Warp) (m : Mach → Mach := fun m => m) : State :=
  { withWarp w with m := m (crowdedAt 144 { Mach.reset with
      nextId := 10, cur := some { core := 144, pos := 0, hand := false, grp := 0 }, ctxCores := [(ccKey 1 144, .fresh)], ctxClusters := [(clKey 1 18, { pages := 4, watch := [], freed := false })]
      cores := [(144, { Core.fresh with warps := [(0, w)], active := [0] })] }) }
def exEast (w : Warp) : Ex := { exOf w with core := 144 }
/-- Chain 7 with the warp's own declaration, toward core 144. -/
def farChain (resv : Nat) (m : Mach) : Mach := { m with chains := [(chainKey 1 7, chain7 true [{ source0 resv with hop := 144 }])] }
theorem witness_ChainsDeclareReserveClose_full :
    (let s := eastern (wDeclares 0x70000 0x400100 0)
     let x := exEast (wDeclares 0x70000 0x400100 0)
     s.ex? = some x ∧ srcReady s.m x true [srcW 20] = .go ∧ x.r.wait = .none ∧ (operands s x [srcW 20] x.low).getD 0 0 = BitVec.ofNat 64 (0x70000 + 2 ^ 32 * 0x400100) ∧ dieOf x.core ≠ 0 ∧ 8 ≤ syncOut s s.m x.core)
    ∧ (let s := eastern (wChain 0 0) (farChain 0)
       let x := exEast (wChain 0 0)
       s.ex? = some x ∧ srcReady s.m x true [srcI 9] = .go ∧ x.r.wait = .none ∧ x.w.pends = [] ∧ dieOf x.core ≠ 0 ∧ 8 ≤ syncOut s s.m x.core
        ∧ ((s.m.chain? x.w.ctx 7).elim [] (·.decls)).find? (fun d => d.warp == x.w.uid && !d.closed && !d.retired) = some { source0 0 with hop := 144 })
    ∧ (let s := withWarp (wChain 0 0) .fresh (fun m => farChain 0 (crowded m))
       s.ex? = some (exOf (wChain 0 0)) ∧ srcReady s.m (exOf (wChain 0 0)) true [srcI 9] = .go ∧ (s.m.chain? 1 7).any (fun c => c.decls == [{ source0 0 with hop := 144 }]) = true ∧ dieOf 144 ≠ dieOf 0 ∧ 8 ≤ syncOut s s.m 0) := by
  and_intros <;> decide +kernel
theorem witness_ChainsDeclareReserveClose_directory :
    (let q := request false (source0 0)
     let s := requested [sink1 none] q
     let live := [sink1 none].filter Decl.isOpen
     s.m.dirQueue.find? (fun q => q.warp == 5 && q.close == false) = some q ∧ s.m.warp? q.core q.pos = some (waits (wChain 0 0) .directory) ∧ (s.m.chain? q.ctx q.chain).elim [] (·.decls) = [sink1 none]
      ∧ q.decl.hop ≠ q.core ∧ (∀ e ∈ live, e.core = q.decl.hop → e.role = 2) ∧ s.coreInPartition q.ctx q.decl.hop = true ∧ (∀ e ∈ live, e.core ≠ q.core) ∧ (s.m.chain? q.ctx q.chain).isSome = true)
    ∧ (let q := request false { source0 0 with hop := 0 }
       let s := requested [] q
       s.m.dirQueue.find? (fun q => q.warp == 5 && q.close == false) = some q ∧ q.decl.role = 1 ∧ q.decl.hop = q.core)
    ∧ (let q := request true (source0 0)
       let s := requested [source0 0, sink1 none] q
       s.m.dirQueue.find? (fun q => q.warp == 5 && q.close == true) = some q ∧ s.m.warp? q.core q.pos = some (waits (wChain 0 0) .directory) ∧ ownDecl s.m q.ctx q.chain 5 (fun _ => true) = some (source0 0) ∧ msorted s.m.chains = true)
    ∧ (let c := chain7 false [source0 1, sink1 none]
       let s := chained warp0 false c.decls
       s.m.chain? 1 7 = some c ∧ c.granted = false ∧ (∃ d ∈ c.decls, d.isOpen = true ∧ d.resv = 1) ∧ (c.decls.filter Decl.isOpen).find? (fun d => d.role == 2) = some (sink1 none)
        ∧ ((c.decls.filter Decl.isOpen).filter Decl.receives).length = (sink1 none).nrc ∧ (∀ e ∈ s.m.chains, e.2.ctx = 1 → 7 ≤ e.2.id) ∧ (∀ d ∈ c.decls, d.page = none → buffersUsed s s.m d.core < 16)) := by decide +kernel

/-- Arrival buffers: empty; full; complete; cut short. Tiles of warp 5 toward core 1. -/
def buffer1 (accepted count : Nat) (cut : Bool) : ArrivalBuffer := { ArrivalBuffer.fresh with accepted := accepted, count := count, cut := cut }
def tile1 (acc : Bool) : Tile := { ctx := 1, chain := 7, src := 0, dst := 1, warp := 5, pos := 0, vals := List.replicate 256 0xFFFFFFFFFFFFFFFF, accepted := acc, round := 4, held := false, know := [], since := 10 }
def travelling (w : Warp) (d : Decl) (acc : Bool) : State := withWarp w .fresh (fun m => { m with chains := [(chainKey 1 7, chain7 true [source0 2, d])], tiles := [(3, tile1 acc)] })
def wSpec : Warp := { wChain 0 0 with levels := [level0] }
abbrev Sends (w : Warp) : Prop :=
  let s := chained w true [source0 2, sink1 (some .fresh)]
  let x := exOf w
  s.ex? = some x ∧ addressOf s x 9 x.low % 2 ^ 16 = 7 ∧ x.r.wait = .none ∧ srcReady s.m x true [srcI 9] = .go ∧ srcReady s.m x false [] ((List.range 16).map (· + (32 : BitVec 8).toNat)) = .go
    ∧ x.g.lanes = BitVec.allOnes 32 ∧ ownDecl s.m x.w.ctx 7 x.w.uid Decl.sends = some (source0 2) ∧ 2 ≤ (source0 2).resv ∧ heldSends x.w 7 = 0
def wPart : Warp := grouped (wChain 0 0) (fun g => { g with lanes := 0x7FFFFFFF })
theorem witness_TilesTravel_full :
    let s := withWarp (wChain 0 0) .fresh (fun m => farChain 2 (crowded m))
    let x := exOf (wChain 0 0)
    s.ex? = some x ∧ x.r.wait = .none ∧ srcReady s.m x true [srcI 9] = .go ∧ srcReady s.m x false [] ((List.range 16).map (· + (32 : BitVec 8).toNat)) = .go ∧ x.g.lanes = BitVec.allOnes 32
      ∧ ownDecl s.m x.w.ctx 7 x.w.uid Decl.sends = some { source0 2 with hop := 144 } ∧ heldSends x.w 7 = 0 ∧ x.w.levels = [] ∧ dieOf 144 ≠ dieOf x.core ∧ 8 ≤ syncOut s s.m x.core := by decide +kernel
theorem witness_TilesTravel_send :
    (Sends (wChain 0 0) ∧ (wChain 0 0).levels = []) ∧ (Sends wSpec ∧ wSpec.levels = [level0] ∧ shadowUsed (withWarp wSpec).m 0 + 2048 ≤ 65536)
    ∧ ((withWarp wDone).ex? = some (exOf wDone) ∧ (exOf wDone).r.wait = .released)
    ∧ (let s := chained (wChain 0 0) true [source0 1, sink1 none]
       let x := exOf (wChain 0 0)
       s.ex? = some x ∧ Plain x ∧ srcReady s.m x true [srcI 9] = .go ∧ x.g.lanes = BitVec.allOnes 32 ∧ ∀ dc ∈ ownDecl s.m x.w.ctx 7 x.w.uid Decl.sends, ¬2 ≤ dc.resv)
    ∧ (let s := chained wPart true [source0 2]
       s.ex? = some (exOf wPart) ∧ Plain (exOf wPart) ∧ srcReady s.m (exOf wPart) true [srcI 9] = .go ∧ (exOf wPart).g.lanes ≠ BitVec.allOnes 32) := by decide +kernel
def sinkAt (n : Nat) : Decl := sink1 (some (buffer1 n 0 false))
def sinkRetired : Decl := { sink1 none with closed := true, retired := true }
def wAsks : Warp := waits (wChain 0 0) (.answer 3)
/-- A tile on its way under a reservation whose receiver is gone, or retired. -/
def resvOf (n : Nat) : State := (travelling wAsks (sinkAt 0) false).withM { (travelling wAsks (sinkAt 0) false).m with chains := [(chainKey 1 7, chain7 true [source0 n, sinkAt 0])] }
/-- The tile on its way to a sink. -/
abbrev Asks (s : State) (d : Decl) : Prop :=
  mget s.m.tiles 3 = some (tile1 false) ∧ s.m.chain? 1 7 = some (chain7 true [source0 2, d]) ∧ [source0 2, d].find? (fun d => d.core == 1 && d.receives) = some d ∧ s.m.warp? 0 0 = some wAsks ∧ wAsks.uid = 5
theorem witness_TilesTravel_answer :
    (Asks (travelling wAsks (sinkAt 255) false) (sinkAt 255) ∧ (travelling wAsks (sinkAt 255) false).stopped 1 1 = false ∧ (buffer1 255 0 false).accepted < (sinkAt 255).exp
      ∧ ∃ e ∈ [source0 2, sinkAt 255].find? (fun d => d.warp == 5 && d.isOpen && d.sends), e.resv = 2)
    ∧ (let s := { travelling wAsks (sink1 none) false with contexts := [(1, { placeContext with halting := [1] })] }
       Asks s (sink1 none) ∧ (sink1 none).page = none ∧ s.stopped 1 1 = true)
    ∧ (Asks (travelling wAsks sinkRetired false) sinkRetired ∧ sinkRetired.retired = true)
    ∧ (Asks (travelling wAsks (sinkAt 256) false) (sinkAt 256) ∧ ∀ b ∈ (sinkAt 256).buffer, (sinkAt 256).exp ≤ b.accepted)
    ∧ (∀ n ∈ [3, 4], (resvOf n).m.chain? 1 7 = some (chain7 true [source0 n, sinkAt 0]) ∧ mget (resvOf n).m.tiles 3 = some (tile1 false) ∧ (resvOf n).m.warp? 0 0 = some wAsks
      ∧ ([source0 n, sinkAt 0].find? (fun d => d.warp == 5 && d.isOpen && d.sends)).elim 0 (·.resv) = n ∧ (sinkAt 0).retired = false ∧ (sinkAt 0).closed = false)
    ∧ (let s := travelling (wChain 0 0) (sinkAt 1) true
       mget s.m.tiles 3 = some (tile1 true) ∧ (∀ st ∈ s.m.stores, st.warp = 5 → (tile1 true).since ≤ st.seq) ∧ s.m.chain? 1 7 = some (chain7 true [source0 2, sinkAt 1])
        ∧ (chain7 true []).round = (tile1 true).round ∧ ∃ e ∈ [source0 2, sinkAt 1], e.core = 1 ∧ e.isOpen = true ∧ e.buffer.isSome = true)
    ∧ (let s := travelling (wChain 0 0) (sink1 none) true
       mget s.m.tiles 3 = some (tile1 true) ∧ s.m.chain? 1 7 = some (chain7 true [source0 2, sink1 none]) ∧ ∀ e ∈ [source0 2, sink1 none], e.buffer = none) := by decide +kernel
def awaits : Pend := { id := 7, kind := .await 7 3 false, lanes := BitVec.allOnes 32, reg := 32, count := 16, vals := [], pc := 0x3000, run := 0, addrs := [], sync := false }
theorem witness_TilesTravel_await :
    (let s := chained (wChain 0 0) true [{ sink1 (some .fresh) with warp := 5, core := 0 }]
     let s := s.withM { s.m with grids := [(0, grid0)] }
     let x := exOf (wChain 0 0)
     s.ex? = some x ∧ addressOf s x 9 x.low % 2 ^ 16 = 7 ∧ srcReady s.m x true [srcI 9] = .go ∧ x.g.lanes = BitVec.allOnes 32 ∧ slotElt (formatSlot s.m x.w 3) ≠ 0 ∧ (ownDecl s.m x.w.ctx 7 x.w.uid Decl.receives).isSome = true
      ∧ srcReady s.m x false [] ((List.range 16).map (· + (32 : BitVec 8).toNat)) = .go ∧ regsReady s.m x 32 16 = .go s.m)
    ∧ (awaits.count = 16 ∧ awaits.lanes = BitVec.allOnes 32 ∧ ∀ b ∈ [buffer1 256 256 false, buffer1 2 2 true],
        let d := { sink1 (some b) with warp := 5, core := 0 }
        let s := chained (owing awaits) true [d]
        s.m.warp? 0 0 = some (owing awaits) ∧ (owing awaits).pend? 7 = some awaits ∧ s.m.chain? 1 7 = some (chain7 true [d]) ∧ ownDecl s.m 1 7 5 Decl.receives = some d ∧ d.buffer = some b ∧ (b.count = d.exp ∨ (b.cut = true ∧ b.count = b.accepted))) := by decide +kernel

/-! Speculative tiles. -/

/-- A descriptor: base 0x8000, LEN 64, no tolerance, history at page 0 of core 0, slot `f0` (`.s8`); its entry at version `v`. -/
def desc0 : List Byte := natToBytes 8 0x8000 ++ natToBytes 4 64 ++ List.replicate 20 0
def entry0 (v : Word) : WatchEntry := { desc := desc0, core := 0, slot := [1] ++ List.replicate 31 0, ver := v, prov := false, owner := 0, rels := [] }
def watching (w : Warp) (es : List (Nat × WatchEntry)) (m : Mach → Mach := fun m => m) : State :=
  withTlb w .fresh (fun n => m { n with ctxClusters := [(clKey 1 0, { pages := 4, watch := es, freed := false })], grids := [(0, grid0)] })
/-- The bytes of a read that succeeds, and the machine after it. -/
def Res.toOption {α : Type} : Res α → Option (α × Mach)
  | .ok a m => some (a, m)
  | _ => none
def wDesc : Warp := holding [(20, 0x9000)]
def sDesc : State := watching wDesc [] (fun n => { n with mem := writeBytes [] 0x9000 desc0 })
def readAt (s : State) (m : Mach) (x : Ex) (va : DWord) (n : Nat) : Mach := ((Res.toOption (readMem s m x.w.ctx x.core va n)).map (·.2)).getD .reset
def mDesc : Mach := readAt sDesc sDesc.m (exOf wDesc) 0x9000 32
def sWatch : State := watching warp0 [(31, entry0 1)]
theorem witness_VersionsPublished_watch :
    (s0.ex? = some x0 ∧ watchEntry s0.m 1 0 (31 : BitVec 5).toNat = none)
    ∧ (sWatch.ex? = some x0 ∧ watchEntry sWatch.m x0.w.ctx x0.core (31 : BitVec 5).toNat = some (entry0 1) ∧ (entry0 1).prov = false ∧ (∀ e ∈ sWatch.m.allWarps, e.2.2.levels = [])
      ∧ ∀ e ∈ sWatch.m.saved, ∀ sw ∈ e.2, sw.warp.levels = [])
    ∧ ((20 : BitVec 8) ≠ zeroSpec ∧ sDesc.ex? = some (exOf wDesc) ∧ srcReady sDesc.m (exOf wDesc) true [srcW 20] = .go ∧ watchEntry sDesc.m 1 0 31 = none
      ∧ (operands sDesc (exOf wDesc) [srcW 20] (exOf wDesc).low).getD 0 0 = 0x9000 ∧ 0x9000 % 32 = 0 ∧ drained sDesc.m 5 = true
      ∧ readMem sDesc sDesc.m 1 0 0x9000 32 = .ok desc0 mDesc ∧ formatSlot mDesc wDesc 0 = (entry0 0).slot ∧ watchReject mDesc (exOf wDesc) (entry0 0) = none) := by decide +kernel

/-- A tile at 0x1000 of the own scratchpad; its publication waits; its global write is the next store, and a level awaits the version. -/
def wTile : Warp := holding [(9, 0x1000)]
def wTold : Warp := waits wTile (.publishing 2)
def storePub : Store := { store0 with kind := 9, op := .bytes (List.replicate 64 (some 7)), rel := some 5, entry := some 31 }
def wAwaits : Warp := { wTile with levels := [{ level0 with entry := 31, version := 2 }] }
def sPub : State := watching wAwaits [(31, entry0 1)] (fun n => { n with stores := [storePub] })
def sTile : State := watching wTile [(31, entry0 1)]
theorem witness_VersionsPublished_publish :
    ((watching wTold [(31, entry0 1)]).ex? = some (exOf wTold) ∧ watchEntry (watching wTold [(31, entry0 1)]).m 1 0 31 = some (entry0 1) ∧ (exOf wTold).r.wait = .publishing 2
      ∧ drained (watching wTold [(31, entry0 1)]).m 5 = true ∧ Finds (watching wTold [(31, entry0 1)]) (exOf wTold) (true, [], false, 5, 1))
    ∧ (sTile.ex? = some (exOf wTile) ∧ watchEntry sTile.m 1 0 31 = some (entry0 1) ∧ addressOf sTile (exOf wTile) 9 (exOf wTile).low = 0x1000 ∧ (exOf wTile).r.wait = .none
      ∧ Finds sTile (exOf wTile) (true, [srcI 9], false, 5, 1) ∧ wTile.levels = [] ∧ (entry0 1).elt = 1 ∧ 0x1000 % 64 = 0 ∧ 0x1000 + (entry0 1).len ≤ (sTile.m.ctxCluster 1 0).pages * 4096 ∧ (entry0 1).prov = false
      ∧ publishing sTile.m 1 0 31 = false ∧ tileHeld sTile.m (exOf wTile) 0 ((entry0 1).hist % 2 ^ 21 + (2 : Word).toNat % 3 * (entry0 1).len) (entry0 1).len = false ∧ (sTile.m.ctxCore 1 0).rounds = [])
    ∧ (nextStore sPub.m 5 = some storePub ∧ storePub.failed = none ∧ storePub.place = none ∧ storePub.kind = 9 ∧ joinedStores sPub.m storePub = [] ∧ watchEntry sPub.m 1 0 31 = some (entry0 1) ∧ (entry0 1).prov = false
      ∧ storePub.op = .bytes (List.replicate 64 (some 7)) ∧ storePub.addr.toNat % 4096 + 64 ≤ 4096 ∧ Hit sPub 1 0 0x8000 .write (atVa 0x8000) ∧ paClass sPub (atVa 0x8000).pa = .hbm 0
      ∧ (sPub.m.ctxCore 1 0).rounds = [] ∧ ((clusterLevels sPub.m 1 (clusterOf 0)).map (·.2.2.id)).Nodup
      ∧ sPub.m.allWarps.any (fun r => clusterOf r.1 == clusterOf storePub.core && r.2.2.ctx == storePub.ctx) = true ∧ sPub.m.warp? 0 0 = some wAwaits ∧ ∃ lv ∈ wAwaits.levels, lv.entry = 31 ∧ lv.version = (entry0 1).ver + 1 ∧ lv.verdict = none) := by decide +kernel

/-- A destination at 0x1000 and the version asked for. -/
def wPredict (n : Word) : Warp := holding [(20, 0x1000), (21, n)]
abbrev Predicts (n : Word) : Prop :=
  let s := watching (wPredict n) [(31, entry0 2)]
  let x := exOf (wPredict n)
  s.ex? = some x ∧ Finds s x (true, [srcW 20], false, 5, 1) ∧ watchEntry s.m 1 0 (31 : BitVec 5).toNat = some (entry0 2) ∧ ((operands s x [srcW 20] x.low).getD 0 0).toNat = 0x1000 + 2 ^ 32 * n.toNat
    ∧ 0x1000 % 64 = 0 ∧ 0x1000 + (entry0 2).len ≤ (s.m.ctxCluster 1 0).pages * 4096 ∧ tileHeld s.m x x.core 0x1000 (entry0 2).len = false ∧ (boxOf s x).rounds = [] ∧ (s.m.ctxCore 1 0).rounds = []
    ∧ x.w.levels.length < 3 ∧ x.w.replays x.pc x.g.lanes = false
theorem witness_Speculation_spect :
    (Predicts 0 ∧ max 1 0 ≤ (entry0 2).ver.toNat) ∧ (Predicts 2 ∧ 2 ≤ (entry0 2).ver.toNat) ∧ (Predicts 3 ∧ 3 = (entry0 2).ver.toNat + 1 ∧ (entry0 2).prov = false ∧ (entry0 2).ver ≠ 0)
      ∧ (Predicts 4 ∧ (entry0 2).ver.toNat + 1 < 4)
      ∧ (let w := { wPredict 9 with levels := [level0] }
         let e := { entry0 2 with prov := true, owner := 5 }
         let s := watching w [(31, e)]
         s.ex? = some (exOf w) ∧ Finds s (exOf w) (true, [srcW 20], false, 5, 1) ∧ watchEntry s.m 1 0 (31 : BitVec 5).toNat = some e ∧ ((operands s (exOf w) [srcW 20] (exOf w).low).getD 0 0).toNat = 0x1000 + 2 ^ 32 * 9
          ∧ tileHeld s.m (exOf w) 0 0x1000 e.len = false ∧ (boxOf s (exOf w)).rounds = [] ∧ e.prov = true ∧ e.owner = w.uid ∧ level0.verdict = none ∧ e.ver.toNat < 9) :=
  ⟨by decide +kernel, by decide +kernel, by decide +kernel, by decide +kernel, by decide +kernel⟩
def decided (v : Option Bool) : Level := { level0 with verdict := v, held := [.store storeEnd] }
def wDecided (v : Option Bool) (outer : List Level) : Warp := { warp0 with levels := decided v :: outer }
theorem witness_Speculation_schk :
    (s0.ex? = some x0 ∧ Finds s0 x0 (true, [], false, 5, 1) ∧ x0.w.levels = [])
    ∧ (∀ v ∈ [none, some true, some false], ∀ outer ∈ [[], [level0]],
        (withWarp (wDecided v outer)).ex? = some (exOf (wDecided v outer)) ∧ Finds (withWarp (wDecided v outer)) (exOf (wDecided v outer)) (true, [], false, 5, 1)
          ∧ (wDecided v outer).levels = decided v :: outer)
    ∧ (decided (some true)).held = [storeEnd].map .store := by decide +kernel

/-! The engines. -/

/-- A copy descriptor: source, destination, NEL, NROW, strides, the byte of SK, DK and F, the flag byte, barrier, mask, record. -/
def cdesc (src dst nel nrow sstr dstr : Nat) (k f : Byte) (bar : Nat) (mask : Byte) (cra : Nat) : List Byte :=
  natToBytes 8 src ++ natToBytes 8 dst ++ natToBytes 4 nel ++ natToBytes 4 nrow ++ natToBytes 4 sstr ++ natToBytes 4 dstr ++ [0, 0, k, f] ++ natToBytes 3 bar ++ [mask] ++ List.replicate 16 0 ++ natToBytes 8 cra
/-- Two rows of 64 bytes from memory at 0x8000 to offset 0x1000 of the own scratchpad; the same to cores 0 and 7; to memory at 0xA000. -/
def toPad : List Byte := cdesc 0x8000 0x1000 64 2 64 64 0x10 0 0 0 0
def toPads : List Byte := cdesc 0x8000 0x1000 64 2 64 64 0x10 0 0 0x81 0
def toMem : List Byte := cdesc 0x8000 0xA000 64 2 64 64 0 0 0 0 0
/-- A warp at its command, whose descriptor stands at 0x9000 and has been read before. -/
def read1 (s : State) (x : Ex) : State := s.withM (((Res.toOption (readDesc s s.m x 0x9000)).map (·.2)).getD .reset)
def commanded (w : Warp) (d : List Byte) (m : Mach → Mach := fun m => m) (c : CtxCore := .fresh) : State :=
  read1 (withTlb w c (fun n => m { n with mem := writeBytes [] 0x9000 d, grids := [(0, grid0)] })) (exOf w)
def eight (n : Mach) : Mach := { n with copies := (List.range 8).map (fun i => (i, copy0)) }
def wHeld : Warp := { wDesc with levels := [level0] }
/-- A copy command whose descriptor is read, and what its checks say. -/
abbrev Commands (s : State) (w : Warp) (d : List Byte) (multi bnd : Bool) (f : Option FaultInfo) : Prop :=
  let x := exOf w
  s.ex? = some x ∧ WordReady s x true [srcW 20] false 4 2 s.m ∧ (operands s x [srcW 20] x.low).getD 0 0 = 0x9000 ∧ drained s.m x.w.uid = true ∧ x.r.desc = []
    ∧ readDesc s s.m x 0x9000 = .ok d s.m ∧ copyReject s.m x d (formatSlot s.m x.w ((d.getD 34 0).toNat % 8)) multi bnd 0x9000 = f
theorem witness_EngineCommandsStart_copy :
    (Commands (commanded wDesc toPad) wDesc toPad false false none ∧ coreCopies (commanded wDesc toPad).m 0 < 8 ∧ wDesc.levels = [])
    ∧ Commands (commanded wDesc toPads) wDesc toPads true false none
    ∧ (Commands (commanded wDesc toPad eight) wDesc toPad false false none ∧ 8 ≤ coreCopies (commanded wDesc toPad eight).m 0)
    ∧ (Commands (commanded wHeld toMem) wHeld toMem false false none ∧ wHeld.levels = level0 :: [] ∧ (toMem.getD 34 0).toNat / 16 % 4 ≠ 1 ∧ shadowUsed (commanded wHeld toMem).m 0 + 64 ≤ 65536)
    ∧ (Commands (commanded wDesc toPad) wDesc toPad false true (some (plainFault .reservedField)) ∧ Plain (exOf wDesc)) := by and_intros <;> decide +kernel
def wAsked : Copy := { copy0 with descAddr := 0x9000 }
theorem witness_EngineCommandsStart_query :
    (¬∃ c ∈ (withWarp wDesc).m.copies, c.2.core = 0 ∧ c.2.ctx = 1 ∧ c.2.descAddr = 0x9000) ∧ ∃ c ∈ (withWarp wDesc .fresh (fun m => { m with copies := [(9, wAsked)] })).m.copies, c.2.core = 0 ∧ c.2.ctx = 1 ∧ c.2.descAddr = 0x9000 := by
  decide +kernel

/-- A gather descriptor: index list at 0x8000, table at 0xA000 of 16 rows of 4 elements, bags of 2; `n` bags; a record at 0xC000. -/
def gdesc (n dst dstr : Nat) : List Byte :=
  natToBytes 8 0x8000 ++ natToBytes 8 0 ++ natToBytes 8 0xA000 ++ natToBytes 4 n ++ natToBytes 4 16 ++ natToBytes 2 4 ++ natToBytes 2 2 ++ natToBytes 4 64 ++ natToBytes 4 dst ++ natToBytes 4 dstr ++ List.replicate 8 0
    ++ natToBytes 8 0xC000
def boundQueue : CtxCore := { CtxCore.fresh with queues := { Queue.fresh with kind := 2 } :: CtxCore.fresh.queues.tail }
def gather4 (n : Mach) : Mach := { n with gathers := (List.range 4).map (fun i => (i, (default : Gather))) }
/-- A gather command, with destination field `D`, whose descriptor passes the checks. -/
abbrev Gathers (s : State) (d : BitVec 8) (desc : List Byte) : Prop :=
  let x := exOf wDesc
  s.ex? = some x ∧ srcReady s.m x true [srcW 20] = .go ∧ (operands s x [srcW 20] x.low).getD 0 0 = 0x9000 ∧ drained s.m x.w.uid = true ∧ readDesc s s.m x 0x9000 = .ok desc s.m
    ∧ (isQueue d = true → ((boxOf s x).queues.getD (d.toNat - 0x88) .fresh).kind = 2) ∧ gatherReserved desc 25 (isQueue d) = false ∧ gatherRange s.m x.w.ctx x.core desc 25 (isQueue d) = none
theorem witness_EngineCommandsStart_gather :
    (Gathers (commanded wDesc (gdesc 1 0x1000 16) (c := boundQueue)) 0x83 (gdesc 1 0x1000 16) ∧ coreGathers (commanded wDesc (gdesc 1 0x1000 16)).m 0 < 4)
    ∧ Gathers (commanded wDesc (gdesc 1 0 16) (c := boundQueue)) 0x88 (gdesc 1 0 16)
    ∧ (Gathers (commanded wDesc (gdesc 1 0x1000 16) gather4 boundQueue) 0x83 (gdesc 1 0x1000 16) ∧ 4 ≤ coreGathers (commanded wDesc (gdesc 1 0x1000 16) gather4 boundQueue).m 0) := by
  and_intros <;> decide +kernel

/-- A copy of warp 5 at its first row or past its last. -/
def copying (d : List Byte) (row : Nat) : Copy := { copy0 with desc := d, row := row, watched := false, since := 9 }
def inFlight (c : Copy) (m : Mach → Mach := fun m => m) : State := withTlb warp0 .fresh (fun n => m { n with copies := [(9, c)] })
def cfield (d : List Byte) (pos n : Nat) : Nat := bytesToNat ((d.drop pos).take n)
/-- The two rows to memory, with arrivals at offset 0x2000 of the own core, or to scratchpad with them; a row from the own scratchpad's page 0 to cores 0 and 7. -/
def toMemArr : List Byte := cdesc 0x8000 0xA000 64 2 64 64 0 1 0x2000 0 0
def toPadArr : List Byte := cdesc 0x8000 0x1000 64 2 64 64 0x10 1 0x2000 0 0
def padToPads : List Byte := cdesc 0 0x1000 64 2 64 64 0x50 0 0 0x81 0
/-- The two rows into the weight store, at offset 0x1000 of the partition's window. -/
def toStore : List Byte := cdesc 0x8000 0x1000 64 2 64 64 0x20 0 0 0 0
/-- A copy between two rows. -/
abbrev Going (c : Copy) : Prop := c.held = false ∧ c.stop = none ∧ c.ahead = [] ∧ c.formed = none ∧ c.early = []
/-- A row of a copy from memory can be read. -/
abbrev RowOfMemory (c : Copy) : Prop :=
  let s := inFlight c
  let d := c.desc
  Going c ∧ mget s.m.copies 9 = some c ∧ c.row < cfield d 20 4 ∧ (∀ st ∈ s.m.stores, st.warp = c.warp → c.since ≤ st.seq) ∧ cfield d 32 1 = 0 ∧ cfield d 34 1 / 64 = 0
    ∧ cfield d 0 8 + c.row * cfield d 24 4 = 0x8000 ∧ 0x8000 % 4096 + cfield d 16 4 ≤ 4096 ∧ Hit s c.ctx c.core 0x8000 .read (atVa 0x8000) true ∧ paClass s (atVa 0x8000).pa = .hbm 0
    ∧ poisonedRange s.m (atVa 0x8000).pa (cfield d 16 4) = false ∧ 0 < cfield d 16 4
/-- No core has a round on a scratchpad page, nor a poisoned sector. -/
theorem freshCores (m : Mach) (k : Nat) (h : m.ctxCores = [(ccKey 1 0, .fresh)]) : m.ctxCore 1 k = .fresh := by
  by_cases hk : ccKey 1 k = ccKey 1 0 <;> simp [Mach.ctxCore, mgetD, mget, h, hk]
theorem witness_CopiesRun_rounds (c : Copy) (k : Nat) : ((inFlight c).m.ctxCore 1 k).rounds = [] := by rw [freshCores _ k rfl]; rfl
theorem witness_CopiesRun_rows :
    (RowOfMemory (copying toPad 0) ∧ cfield toPad 34 1 / 16 % 4 = 1 ∧ cfield toPad 35 1 % 2 = 0 ∧ 0x1000 + 64 ≤ ((inFlight (copying toPad 0)).m.ctxCluster 1 0).pages * 4096)
    ∧ (RowOfMemory { copying toPadArr 0 with rel := some 6 } ∧ cfield toPadArr 34 1 / 16 % 4 = 1)
    ∧ (RowOfMemory (copying toPadArr 0) ∧ cfield toPadArr 35 1 % 2 = 1 ∧ (copying toPadArr 0).rel = none ∧ cfield toPadArr 34 1 / 16 % 4 = 1 ∧ 0x1000 + cfield toPadArr 16 4 ≤ cfield toPadArr 36 3 % 2 ^ 21)
    ∧ (RowOfMemory (copying toMem 0) ∧ cfield toMem 34 1 / 16 % 4 = 0 ∧ cfield toMem 35 1 % 2 = 0 ∧ Hit (inFlight (copying toMem 0)) 1 0 0xA000 .write (atVa 0xA000) true
      ∧ 0xA000 % 4096 + cfield toMem 16 4 ≤ 4096 ∧ paClass (inFlight (copying toMem 0)) (atVa 0xA000).pa = .hbm 0)
    ∧ (RowOfMemory (copying toMemArr 0) ∧ cfield toMemArr 34 1 / 16 % 4 = 0 ∧ cfield toMemArr 35 1 % 2 = 1 ∧ (copying toMemArr 0).rel = none ∧ cfield toMemArr 8 8 = 0xA000)
    ∧ RowOfMemory { copying toMemArr 0 with rel := some 6 }
    ∧ (RowOfMemory (copying toStore 0) ∧ cfield toStore 34 1 / 16 % 4 = 2 ∧ (inFlight (copying toStore 0)).m.wstore.length = 2 ∧ (copying toStore 0).core < 288
      ∧ (let p := (inFlight (copying toStore 0)).partitionOf 1; p.wsBase + 0x1000 + cfield toStore 16 4 ≤ p.wsLimit ∧ p.wsBase + 0x1000 + cfield toStore 16 4 ≤ 192 * 2 ^ 20)) := by and_intros <;> decide +kernel
theorem witness_CopiesRun_multicast :
    let c := { copying padToPads 0 with mcast := true }
    let s := inFlight c
    Going c ∧ mget s.m.copies 9 = some c ∧ cfield padToPads 34 1 / 64 = 1 ∧ 0 + cfield padToPads 16 4 ≤ (s.m.ctxCluster c.ctx c.core).pages * 4096
      ∧ spadPoisoned (s.m.ctxCore c.ctx 0) 0 (cfield padToPads 16 4) = false ∧ (s.m.ctxCore c.ctx 0).rounds = []
      ∧ ∀ k ∈ (List.range 8).filter (fun k => cfield padToPads 39 1 / 2 ^ k % 2 = 1), (s.m.ctxCore c.ctx k).rounds = [] ∧ clusterOf k = clusterOf c.core := by decide +kernel
/-- A copy past its last row, its warp's cluster still there. -/
abbrev RowsOver (c : Copy) (s : State) : Prop :=
  Going c ∧ mget s.m.copies 9 = some c ∧ cfield c.desc 20 4 ≤ c.row ∧ cfield c.desc 35 1 / 2 % 2 = 0 ∧ ∃ w ∈ s.m.allWarps, clusterOf w.1 = clusterOf c.core ∧ w.2.2.ctx = c.ctx
def toPadRecord : List Byte := cdesc 0x8000 0x1000 64 2 64 64 0x10 8 0 0 0xC000
def released (rel : Nat) : Copy := { copying toPadArr 2 with rel := some rel, delivered := 128 }
/-- Its writes performed, and `n` rows of it counted at its barrier. -/
def counted (n : Nat) : Copy := { released 6 with told := n }
/-- A write of the copy that die 1 has still to apply. -/
def lateWrite (n : Mach) : Mach := { n with late := [{ id := 8, die := 1, agent := ⟨1, 0, 5, none⟩, thread := 9, access := 8, lanes := 0, pa := 0x100, old := [some 0], carry := [] }] }
theorem witness_CopiesRun_ends :
    (RowsOver (copying toPad 2) (inFlight (copying toPad 2)) ∧ cfield toPad 35 1 / 8 % 2 = 0 ∧ (copying toPad 2).rel = none)
    ∧ (RowsOver (copying toPadRecord 2) (inFlight (copying toPadRecord 2)) ∧ cfield toPadRecord 35 1 / 8 % 2 = 1 ∧ cfield toPadRecord 56 8 = 0xC000 ∧ 0xC000 % 16 = 0
      ∧ Hit (inFlight (copying toPadRecord 2)) 1 0 0xC000 .write (atVa 0xC000) true ∧ paClass (inFlight (copying toPadRecord 2)) (atVa 0xC000).pa = .hbm 0)
    ∧ (RowsOver (released 6) (inFlight (released 6) lateWrite) ∧ releaseReady (inFlight (released 6) lateWrite).m 9 (released 6) = false)
    ∧ (∀ n ∈ [0, 1], RowsOver (counted n) (inFlight (counted n)) ∧ releaseReady (inFlight (counted n)).m 9 (counted n) = true ∧ cfield toPadArr 35 1 % 2 = 1 ∧ (counted n).told < (counted n).row)
    ∧ (RowsOver (counted 2) (inFlight (counted 2)) ∧ releaseReady (inFlight (counted 2)).m 9 (counted 2) = true ∧ cfield toPadArr 35 1 / 8 % 2 = 0 ∧ 0 < (counted 2).row ∧ (counted 2).row ≤ (counted 2).told)
    ∧ (RowsOver { copying toPad 2 with rel := some 6 } (inFlight { copying toPad 2 with rel := some 6 }) ∧ releaseReady (inFlight { copying toPad 2 with rel := some 6 }).m 9 { copying toPad 2 with rel := some 6 } = true
      ∧ cfield toPad 35 1 % 2 = 0) := by and_intros <;> decide +kernel

/-- A gather of warp 5 at bag `bag`: `.add`, index order, faulting range. -/
def gather0 (n bag : Nat) (q : Option Nat) (out : List Word) : Gather :=
  { ctx := 1, core := 0, slot := 0, warp := 5, grid := 0, desc := gdesc n 0x1000 16, descAddr := 0x9000, fn := 25, queue := q, since := 9, bag := bag, skip := 0, dups := 0, empty := 0, ahead := [], early := []
    out := out, last := (0, 0, 0), stop := none }
def gathering (g : Gather) (mem : SMap Byte := []) : State := withTlb warp0 boundQueue (fun m => { m with gathers := [(9, g)], mem := mem })
def bag0 (m : Mach) : Bag := { rows := [], seen := [], skip := 0, dups := 0, stop := none, waits := false, m := m }
def gBag : Gather := gather0 1 0 none []
def sBag : State := gathering gBag [(0xA000, 7)]
def read0 : Bag := readBag sBag gBag 2 0 (bag0 sBag.m)
/-- The next bag of a gather that nothing holds. -/
abbrev NextBag (g : Gather) (s : State) : Prop :=
  mget s.m.gathers 9 = some g ∧ g.stop = none ∧ g.bag < gNbag g.desc ∧ g.out = [] ∧ g.ahead = [] ∧ commandReady s.m g.warp g.since = true ∧ gBv g.desc = false
/-- A gather that is over, its record at 0xC000. -/
abbrev Over (g : Gather) : Prop :=
  let s := gathering g
  mget s.m.gathers 9 = some g ∧ (g.stop.isSome = true ∨ gNbag g.desc ≤ g.bag) ∧ g.out = [] ∧ gCra g.desc = 0xC000 ∧ 0xC000 % 32 = 0
    ∧ Hit s 1 0 0xC000 .write (atVa 0xC000) true ∧ paClass s (atVa 0xC000).pa = .hbm 0
    ∧ (∃ w ∈ s.m.allWarps, clusterOf w.1 = clusterOf g.core ∧ w.2.2.ctx = g.ctx) ∧ (g.stop.getD (0, plainFault .addr, 0)).1 < 256 ∧ s.m.arbiters.length = 3 ∧ g.core < 288
def gFull : Gather := gather0 1 1 (some 0) [5, 6]
theorem witness_GathersRun :
    (NextBag gBag sBag ∧ gBag.queue = none ∧ bagBounds sBag gBag sBag.m = .ok (0, 2) sBag.m ∧ fnRed gBag.fn = 1 ∧ fnIx gBag.fn = true ∧ gRlen gBag.desc * 4 = gOb gBag.fn gBag.desc
      ∧ readBag sBag gBag 2 0 (bag0 sBag.m) = { rows := [[7, 0, 0, 0], [7, 0, 0, 0]], seen := [0, 0], skip := 0, dups := 0, stop := none, waits := false, m := read0.m } ∧ read0.m.ctxCores = sBag.m.ctxCores
      ∧ (sBag.m.ctxCore 1 0).rounds = [])
    ∧ (let s := gathering gBag [(0x8000, 16)]
       NextBag gBag s ∧ gBob gBag.desc = 0 ∧ 0 < gBsz gBag.desc ∧ fnFlt gBag.fn = true ∧ gIxb gBag.desc + 4 * (gBag.bag * gBsz gBag.desc) = 0x8000 ∧ Hit s 1 0 0x8000 .read (atVa 0x8000) true
        ∧ paClass s (atVa 0x8000).pa = .hbm 0 ∧ poisonedRange s.m 0x8000 4 = false ∧ gNrow gBag.desc ≤ bytesToNat (viewBytes s.m (dieOf gBag.core) 0x8000 4))
    ∧ (let s := gathering gFull
       mget s.m.gathers 9 = some gFull ∧ gFull.queue = some 0 ∧ gFull.out = 5 :: [6] ∧ gBv gFull.desc = false ∧ ((s.m.ctxCore 1 0).queues.getD 0 .fresh).kind = 2
        ∧ ((s.m.ctxCore 1 0).queues.getD 0 .fresh).entries.length < 32 ∧ 0 < (s.m.ctxCore 1 0).queues.length
        ∧ ∀ e ∈ s.m.gathers, e.1 < 9 → e.2.core = gFull.core → e.2.ctx = gFull.ctx → e.2.queue ≠ some 0)
    ∧ (let g := { gather0 1 1 none [5, 6, 7, 8] with early := [1] }
       mget (gathering g).m.gathers 9 = some g ∧ g.queue = none ∧ g.out ≠ [] ∧ gBv g.desc = false ∧ ((gathering g).m.ctxCore g.ctx (g.core / 8 * 8 + gDst g.desc / 2 ^ 21 % 8)).rounds = [])
    ∧ Over (gather0 1 1 none []) ∧ Over { gBag with stop := some (1, plainFault .gathRange, 1) } := by and_intros <;> decide +kernel

/-- Iterator records: a `.f32` tile of e0 × e1 × e2 elements at `off`, rows unit-stride; at v40 the destination, at v44 the source. -/
def wSweep (e0 e1 e2 : Nat) : Warp :=
  let layout := fun (off : Nat) => [BitVec.ofNat 32 (off + 4 * 2 ^ 24), BitVec.ofNat 32 (4 / 2 ^ 8 + (4 * e0) * 2 ^ 12), BitVec.ofNat 32 0, BitVec.ofNat 32 (e0 + e1 * 2 ^ 10 + e2 * 2 ^ 20)]
  holding (((List.range 4).map (· + 40)).zip (layout 0x1000) ++ ((List.range 4).map (· + 44)).zip (layout 0x2000))
/-- A sweep whose registers are there and whose checks say `f`, standing at an element. -/
abbrev Sweeps (w : Warp) (t : Nat) (f : Option FaultInfo) (start : List Nat) : Prop :=
  let s := withWarp w
  let x := exOf w
  s.ex? = some x ∧ srcReady s.m x true [] ((List.range 4).map (· + (40 : BitVec 8).toNat) ++ (List.range 4).map (· + (44 : BitVec 8).toNat)) = .go ∧ drained s.m x.w.uid = true
    ∧ sweepReject s.m x t (sweepRec x.w 40 x.low) (sweepRec x.w 44 x.low) = f
    ∧ (match x.w.sweep with | some (pc, i, back) => if pc = x.pc ∧ back &&& x.g.lanes ≠ 0 then i else [0, 0, 0] | none => [0, 0, 0]) = start
def sweepsAt (w : Warp) (i : List Nat) : Warp := { w with sweep := some (0x3000, i, 0xFFFFFFFF) }
/-- A sweep whose source record has other extents than its destination's. -/
def wUneven : Warp := { wSweep 5 1 1 with regs := (wSweep 5 1 1).regs.take 7 }
theorem witness_TileSweeps_cores (w : Warp) (k : Nat) : ((withWarp w).m.ctxCore 1 k).poisoned = [] ∧ ((withWarp w).m.ctxCore 1 k).rounds = [] := by rw [freshCores _ k rfl]; exact ⟨rfl, rfl⟩
theorem witness_TileSweeps :
    (Sweeps (wSweep 0 1 1) 0 none [0, 0, 0] ∧ (sweepRec (wSweep 0 1 1) 40 0).ext 0 = 0)
    ∧ (∀ i ∈ [[0, 0, 0], [2, 0, 0], [2, 1, 0], [2, 1, 1]],
        Sweeps (sweepsAt (wSweep 3 2 2) i) 0 none i ∧ (∀ j < 3, i.getD j 0 < (sweepRec (wSweep 3 2 2) 40 0).ext j)
          ∧ tileHeld (withWarp (sweepsAt (wSweep 3 2 2) i)).m (exOf (sweepsAt (wSweep 3 2 2) i)) 0 ((sweepRec (wSweep 3 2 2) 40 0).elem i) 4 = false)
    ∧ (Sweeps wUneven 0 (some (plainFault .reservedField)) [0, 0, 0] ∧ Plain (exOf wUneven) ∧ wUneven.sweep = none) := by and_intros <;> decide +kernel

/-! Queues, slices, barriers, migration, the layer sequencer. -/

def eightQueues (k v : Nat) (es : List Word) : CtxCore := { CtxCore.fresh with queues := { Queue.fresh with kind := k, arg := BitVec.ofNat 32 v, entries := es } :: CtxCore.fresh.queues.tail }
/-- A spawn descriptor: entry 0x3000, one warp of 32 lanes, budget 7; `core` its TCORE field, `warps` its number of warps. -/
def spawnDesc (core : Nat) (warps : Byte) : List Byte := natToBytes 8 0x3000 ++ List.replicate 40 0 ++ natToBytes 4 7 ++ [warps, 32] ++ natToBytes 2 core ++ natToBytes 8 0x3000
/-- The machine after it has read bytes at 0x9000, so that reading them again changes nothing. -/
def hasRead (s : State) (w : Warp) (n : Nat) : State := s.withM (readAt s s.m (exOf w) 0x9000 n)
def spawning (d : List Byte) (full : Bool) : State :=
  hasRead (withTlb wDesc .fresh (fun m => { m.setCore 0 { m.core 0 with registrar := if full then List.range 64 else [] } with mem := writeBytes [] 0x9000 d })) wDesc 64
abbrev Binds (k v : Nat) (es : List Word) : Prop :=
  let s := withWarp (holding [(9, 7)]) (eightQueues k v es)
  let x := exOf (holding [(9, 7)])
  s.ex? = some x ∧ WordReady s x true [srcI 9] false 5 1 s.m ∧ (boxOf s x).queues.length = 8 ∧ ∀ p ∈ x.w.pends, p.kind ≠ .queueFed 1
abbrev Spawns (core : Nat) (warps : Byte) (full : Bool) : Prop :=
  let s := spawning (spawnDesc core warps) full
  let x := exOf wDesc
  s.ex? = some x ∧ WordReady s x true [srcW 20] false 5 1 s.m ∧ (operands s x [srcW 20] x.low).getD 0 0 = 0x9000 ∧ drained s.m x.w.uid = true
    ∧ readMem s s.m x.w.ctx x.core 0x9000 64 = .ok (spawnDesc core warps) s.m ∧ spawnReserved s x.w.ctx (spawnDesc core warps) (coreNamed (s.ctx x.w.ctx) (core % 256)) = (warps == 0)
    ∧ (s.m.core 0).registrar.length = if full then 64 else 0
theorem witness_QueueBindingAndSpawn :
    Binds 0 0 [1, 2] ∧ Binds 3 7 [] ∧ Spawns 0x8000 1 false ∧ Spawns 0x8001 32 true ∧ Spawns 0 0 false ∧ Plain (exOf wDesc) := by and_intros <;> decide +kernel

/-- A warp of slice 0, in a grid whose level 1 has domain warp; all its lanes but one in the group. -/
def sliced (w : Warp) (sls : List (Nat × Slice) := [(0, placeSlice)]) (m : Mach → Mach := fun m => m) : State := withWarp w .fresh (fun n => m { n with grids := [(0, grid0)], slices := sls })
def wBar (lanes mask : Word) : Warp := { grouped (holding [(9, mask)]) (fun g => { g with lanes := lanes }) with threads := List.replicate 32 { Thread.none with status := .running } }
/-- The warp is the only one of its number, on a core and among the saved. -/
abbrev Alone (s : State) (x : Ex) : Prop :=
  msorted s.m.cores = true ∧ msorted (s.m.core x.core).warps = true ∧ s.m.allWarps.filter (fun e => e.2.2.uid == x.w.uid) = [(x.core, x.pos, x.w)] ∧ (∀ e ∈ s.m.saved, ∀ sw ∈ e.2, sw.warp.uid ≠ x.w.uid)
/-- A group at `BAR` of level `lv`, its mask read. -/
abbrev AtBar (lanes mask : Word) (lv dom : Nat) : Prop :=
  let s := sliced (wBar lanes mask)
  let x := exOf (wBar lanes mask)
  let record := gridRecord s.m x.w
  s.ex? = some x ∧ srcReady s.m x true [srcI 9] = .go ∧ x.r.wait = .none ∧ lv < levelCount record ∧ levelDom record lv = dom ∧ drained s.m x.w.uid = true ∧ barWaits x.w lv = []
    ∧ mget s.m.slices x.w.slice = some placeSlice ∧ Alone s x ∧ arg (operands s x [srcI 9] x.low) 0 = mask ∧ Plain x
def wAtBar : Warp := waits (wBar 0xFFFFFFFF 0xFFFFFFFF) (.bar 1 0 0xFFFFFFFF)
def wBarOver : Warp := waits (wBar 0xFFFFFFFF 0xFFFFFFFF) .released
theorem witness_Barriers :
    (AtBar 0xFFFFFFFF 0xFFFFFFFF 1 1 ∧ ∀ l < 32, inMask 0xFFFFFFFF l = true → (wBar 0xFFFFFFFF 0xFFFFFFFF).exited l = true ∨ inMask (0xFFFFFFFF : Word) l = true)
    ∧ (AtBar 1 3 1 1 ∧ (1 : Word) &&& 3 = 1 ∧ ∃ l < 32, inMask (3 : Word) l = true ∧ (wBar 1 3).exited l = false ∧ inMask (1 : Word) l = false)
    ∧ (AtBar 3 1 1 1 ∧ (3 : Word) &&& 1 ≠ 3) ∧ AtBar 1 3 0 0
    ∧ ((sliced wAtBar).ex? = some (exOf wAtBar) ∧ (exOf wAtBar).r.wait = .bar 1 0 0xFFFFFFFF ∧ barUnit (sliced wAtBar).m (exOf wAtBar).warp 1 = some [wAtBar] ∧ [wAtBar].all (barArrived · 1) = true)
    ∧ ((sliced wBarOver).ex? = some (exOf wBarOver) ∧ (exOf wBarOver).r.wait = .released) := by and_intros <;> decide +kernel

/-- A new deadline of 5 in w20; a queued slice with an earlier one. -/
def wFive : Warp := { holding [(20, 5)] with threads := List.replicate 32 { Thread.none with status := .running } }
def slice7 (args : List Word) : Slice := { placeSlice with deadline := 1, dispatched := false, args := args }
def sYield (queued : Bool) : State := sliced wFive (if queued then [(0, placeSlice), (7, slice7 [])] else [(0, placeSlice)]) (fun m => if queued then m.setCore 0 { m.core 0 with registrar := [7] } else m)
abbrev Yields (queued : Bool) : Prop :=
  let s := sYield queued
  let x := exOf wFive
  s.ex? = some x ∧ x.r.wait = .none ∧ srcReady s.m x true [srcW 20] = .go ∧ mget s.m.slices x.w.slice = some placeSlice ∧ (∀ l < 32, x.w.exited l = true ∨ inMask x.g.lanes l = true) ∧ x.pos < 32
    ∧ placeSlice.core = x.core ∧ msorted s.m.cores = true ∧ msorted (s.m.core x.core).warps = true ∧ s.m.allWarps.filter (fun e => e.2.2.slice == x.w.slice) = [(x.core, x.pos, x.w)]
    ∧ (∀ e ∈ s.m.saved, ∀ sw ∈ e.2, sw.warp.slice ≠ x.w.slice) ∧ (operands s x [srcW 20] x.low).getD 0 0 = 5
    ∧ ((∃ e ∈ queuedSlices s s.m x.core, e.1 ≠ x.w.slice ∧ e.2.deadline.toNat < 5) ↔ queued = true) ∧ x.w.slice ∉ (s.m.core x.core).registrar
    ∧ (∀ q ∈ x.w.groups ++ x.w.hgroups, q.run.all (fun r => r.wait != .yield) = true)
    ∧ x.w.gang = none ∧ x.w.pends = [] ∧ x.w.levels = [] ∧ s.m.chains = [] ∧ (s.m.core x.core).registrar.length < 64
def slice8 : Slice := slice7 (List.replicate 8 3)
def sQueued : State := withWarp warp0 .fresh (fun m => { m.setCore 0 { m.core 0 with registrar := [7] } with slices := [(7, slice8)] })
theorem witness_YieldAndDispatch :
    Yields false ∧ Yields true
    ∧ headSlice sQueued sQueued.m 0 = some (7, slice8) ∧ mget sQueued.m.slices 7 = some slice8 ∧ slice8.core = 0 ∧ slice8.warps ≤ (freeSlots (sQueued.m.core 0)).length ∧ slice8.saved = []
    ∧ 8 * slice8.warps ≤ freeRegs sQueued.m 0 ∧ sQueued.m.copies = [] ∧ slice8.args.length = 8 := by and_intros <;> decide +kernel

/-- An address of die `die` in w12, translated by an entry of core 0's TLB. -/
def remotePa (die : Nat) : Nat := if homeDie 0 = die then 0 else 0x3000000000
def sMigr (die : Nat) (w : Warp) : State := withWarp w .fresh (fun n => { n with tlb := [{ tlb0 with frame := remotePa die / 4096, pte := BitVec.ofNat 64 (remotePa die) ||| 0xDF }] })
def wWhole : Warp := { holding [(12, 0x8000)] with threads := List.replicate 32 { Thread.none with status := .running } }
def wPartial : Warp := grouped wWhole (fun g => { g with lanes := 1 })
def wWaits : Warp := waits wWhole (.homeroom 0 1)
def wMoved : Warp := waits wWhole (.migrated true)
/-- A warp at `MIGR` toward an address of a die. -/
abbrev Migrates (w : Warp) (die : Nat) : Prop :=
  let s := sMigr die w
  let x := exOf w
  s.ex? = some x ∧ WordReady s x true [srcW 12] false 5 1 s.m ∧ (operands s x [srcW 12] x.low).getD 0 0 = 0x8000 ∧ x.r.wait = .none
    ∧ Hit s x.w.ctx x.core 0x8000 .read { pa := remotePa die + 0x8000, mt := 0, level := 2, left := 2 ^ 30 - 0x8000 } ∧ homeDie (remotePa die + 0x8000) = die ∧ x.core / 144 = 0
theorem witness_Migration :
    Migrates wWhole 0 ∧ (Migrates wPartial 1 ∧ ∃ l < 32, (exOf wPartial).w.exited l = false ∧ inMask (exOf wPartial).g.lanes l = false)
    ∧ (let s := sMigr 1 wWhole
       let x := exOf wWhole
       Migrates wWhole 1 ∧ ¬((∃ l < 32, x.w.exited l = false ∧ inMask x.g.lanes l = false) ∨ x.w.serial.isSome = true ∨ s.m.chains ≠ [] ∨ partitionCores s x.w.ctx 1 = [])
        ∧ x.w.pends = [] ∧ drained s.m x.w.uid = true)
    ∧ ((sMigr 1 wMoved).ex? = some (exOf wMoved) ∧ WordReady (sMigr 1 wMoved) (exOf wMoved) true [srcW 12] false 5 1 (sMigr 1 wMoved).m ∧ (exOf wMoved).r.wait = .migrated true)
    ∧ (let s := sMigr 1 wWaits
       s.m.warp? 0 0 = some wWaits ∧ homeroomWait wWaits = some (0, 1) ∧ 0 ≤ s.m.cy ∧ s.m.cy < 0 + 4096 ∧ s.coreInPartition wWaits.ctx (1 * 144 + 0 % 144) = true ∧ s.m.warp? 144 32 = none ∧ dieOf 144 = 1
        ∧ s.stopped wWaits.ctx 0 = false ∧ s.stopped wWaits.ctx 144 = false ∧ wWaits.physRegs ≤ freeRegs s.m 144
        ∧ (s.m.ctxCore wWaits.ctx 144).sfq.length + ((s.m.ctxCore wWaits.ctx 0).sfq.filter (fun e => e.warp == wWaits.uid)).length ≤ 16 ∧ 0 + 4096 ≤ { s.m with cy := 4096 }.cy) := by
  and_intros <;> decide +kernel

/-- A table of one entry at 0x9000, a stop entry; a sequencer with given table and registers. -/
def seqHead : List Byte := natToBytes 2 1 ++ List.replicate 94 0
def seqStop : List Byte := natToBytes 4 0 ++ [0x80] ++ List.replicate 11 0
def sTable : State := hasRead (withTlb wDesc .fresh (fun m => { m with mem := writeBytes [] 0x9000 (seqHead ++ seqStop) })) wDesc 96
def mEntries : Mach := ((Res.toOption (readEntries sTable 1 0 0x9000 1 0 sTable.m)).map (·.2)).getD .reset
def sequenced (f : Sequencer → Sequencer) (w : Warp := wDesc) : State := withWarp w { CtxCore.fresh with seq := f CtxCore.fresh.seq }
abbrev Busy (q : Sequencer) : Prop := q.running = true ∨ q.stopping.isSome = true
def sRunning : State := sequenced (fun q => { q with running := true, table := [seqEntry seqStop] })
/-- `SEQGO` with a loaded table of one entry. -/
abbrev Starts (e : Word) : Prop :=
  let s := sequenced (fun q => { q with table := [seqEntry seqStop] }) (holding [(9, e)])
  let x := exOf (holding [(9, e)])
  s.ex? = some x ∧ WordReady s x true [srcI 9] false 5 1 s.m ∧ ¬Busy (boxOf s x).seq ∧ (boxOf s x).seq.table.length = 1 ∧ (arg (operands s x [srcI 9] x.low) 0).toNat = e.toNat ∧ drained s.m x.w.uid = true ∧ Plain x
theorem witness_LayerSequencer_load_go :
    (let x := exOf wDesc
     sTable.ex? = some x ∧ WordReady sTable x true [srcW 20] false 5 1 sTable.m ∧ ¬Busy (boxOf sTable x).seq ∧ (operands sTable x [srcW 20] x.low).getD 0 0 = 0x9000 ∧ drained sTable.m x.w.uid = true
      ∧ readMem sTable sTable.m x.w.ctx x.core 0x9000 96 = .ok seqHead sTable.m ∧ seqHeaderReserved seqHead = false ∧ bytesToNat (seqHead.take 2) = 1
      ∧ readEntries sTable x.w.ctx x.core 0x9000 1 0 sTable.m = .ok [seqStop] mEntries ∧ seqReject 1 [seqStop] = none)
    ∧ (sRunning.ex? = some (exOf wDesc) ∧ WordReady sRunning (exOf wDesc) true [srcW 20] false 5 1 sRunning.m ∧ Busy (boxOf sRunning (exOf wDesc)).seq)
    ∧ Starts 0 ∧ Starts 1 := by and_intros <;> decide +kernel
/-- Entries: `UADD s3, s1, s2`; a jump with a counter test; a stop. -/
def seqE (word : Word) (kind test ca : Nat) : SeqEntry := { word := word, kind := kind, ck := 1, ca := ca, test := test, idx := 0, wt := false, nt := 0, nf := 0 }
def sReport : State := sequenced (fun q => { q with stopping := some 0x100, smv := some 15 })
theorem witness_LayerSequencer_step :
    (∀ e ∈ [seqE 0 1 1 1, seqE 0 2 0 0, seqE 0x80030102 0 0 0],
      let s := sequenced (fun q => { q with table := [e], running := true, regs := List.replicate 16 1, smv := some 15 })
      let q := s.m.seq 1 0
      s.stopped 1 0 = false ∧ q.stopping = none ∧ q.running = true ∧ q.table[q.current]? = some e ∧ q.phase = 0 ∧ e.test ≤ 2 ∧ q.smv = some 15 ∧ q.regs.length = 16 ∧ q.sweep = none ∧ q.remote = none
        ∧ s.m.warp? 0 (34 + 1) = none)
    ∧ (let b := (sReport.m.ctxCore 1 0).mailboxes.getD 15 .fresh
       sReport.stopped 1 0 = false ∧ (sReport.m.seq 1 0).stopping = some 0x100 ∧ (sReport.m.seq 1 0).smv = some 15 ∧ b.full = false ∧ b.writers = [] ∧ 15 < (sReport.m.ctxCore 1 0).mailboxes.length
        ∧ ∃ w ∈ sReport.m.allWarps, clusterOf w.1 = clusterOf 0 ∧ w.2.2.ctx = 1) := by decide +kernel

/-! System instructions and the handler. -/

theorem witness_SystemRegisters :
    s0.ex? = some x0 ∧ Finds s0 x0 (false, [], false, 5, 1) ∧ Finds s0 x0 (true, [], false, 4, 2) ∧ srcReady s0.m x0 false [srcI 9] = .go ∧ Plain x0
      ∧ x0.w.ctx < 2 ^ 16 ∧ mget (sliced warp0).m.slices x0.w.slice = some placeSlice ∧ levelCount (gridRecord s0.m x0.w) ≤ 7 - 0
      ∧ ((boxOf s0 x0).sfq.filter (fun e => e.warp == x0.w.uid)).length < 32 ∧ (boxOf s0 x0).sfq.length ≤ 16 ∧ mget s0.contexts x0.w.ctx = some (s0.ctx x0.w.ctx) := by and_intros <;> decide +kernel
/-- Three levels, of the lanes, the warps and the cores, in a slice of a launch and in a spawned one, and the context's map of core 0. -/
theorem witness_SystemRegisters_levels :
    (∀ b ∈ [false, true], let s := { (sliced warp0).withM { (sliced warp0).m with slices := [(0, { placeSlice with spawned := b })] } with contexts := [(1, { placeContext with coreMap := [(0, 145)] })] }
      s.ex? = some x0 ∧ Finds s x0 (false, [], false, 5, 1) ∧ mget s.m.slices x0.w.slice = some { placeSlice with spawned := b } ∧ (s.ctx x0.w.ctx).coreMap = [(x0.core, 145)]
        ∧ 2 < levelCount (gridRecord s.m x0.w) ∧ (List.range 3).map (levelDom (gridRecord s.m x0.w)) = [0, 1, 3]) := by decide +kernel
/-- The warp in handler mode: one handler group of all lanes, executing. -/
def wHand : Warp := { warp0 with groups := [], hgroups := warp0.groups, handler := true, threads := List.replicate 32 { Thread.none with status := .parked, entered := true, rpc := 0x4000 } }
def xHand : Ex := { exOf wHand with hand := true, g := warp0.groups.headD default, r := (warp0.groups.headD default).run.getD default }
def sHand : State := withWarp wHand .fresh (fun m => { m with cur := some { core := 0, pos := 0, hand := true, grp := 0 } })
theorem witness_SystemRegisters_handler :
    sHand.ex? = some xHand ∧ xHand.w.handler = true ∧ srcReady sHand.m xHand false [srcI 9] = .go ∧ xHand.w.hgroups = [warp0.groups.headD default] ∧ xHand.w.sweep = none := by decide +kernel
/-- A warp with two handler groups. -/
def wHands : Warp := { wHand with hgroups := (warp0.groups.map (fun g => { g with lanes := 1 })) ++ [Group.at_ 2 0x4000 0] }
theorem witness_SystemRegisters_groups :
    let s := withWarp wHands .fresh (fun m => { m with cur := some { core := 0, pos := 0, hand := true, grp := 0 } })
    s.ex?.any (fun x => x.w.hgroups.length == 2 && srcReady s.m x false [] == .go) = true := by decide +kernel
/-- A sweep that stopped at the handler group's RPC, and one elsewhere. -/
theorem witness_HandlerInstructions_sweep :
    ∀ n ∈ [0x4000, 0x5000], let pc : Pc := BitVec.ofNat 48 n
      let w := { wHand with sweep := some (pc, [0, 1, 0], 0) }
      (withWarp w .fresh (fun m => { m with cur := some { core := 0, pos := 0, hand := true, grp := 0 } })).ex?.any (fun x => x.hand && x.w.sweep == some (pc, [0, 1, 0], 0)) = true := by decide +kernel

/-- Store-fault entries of another warp, one not reported, and one reported, oldest first. -/
def fault0 (warp : Nat) (rep : Bool) : SfqEntry := { (default : SfqEntry) with warp := warp, reported := rep }
def sSfq : State := withWarp warp0 { CtxCore.fresh with sfq := [fault0 9 true, fault0 5 false, fault0 5 true] }
/-- No thread of the warp has a record. -/
theorem witness_HandlerInstructions_records (l : Nat) : (x0.w.thread l).record = none := by
  by_cases h : l < 32
  · exact (by decide +kernel : ∀ l < 32, (x0.w.thread l).record = none) l h
  · have : x0.w.threads.length = 32 := by decide +kernel
    simp [Warp.thread, Thread.none, this, h]
/-- `TERMW` of a position, with another warp of context 1 at position 33. -/
abbrev Ends (t : Word) : Prop :=
  let w := holding [(9, t)]
  let s := withWarp w .fresh (fun m => m.setCore 0 { m.core 0 with warps := [(0, w), (33, { warp0 with uid := 6 })] })
  let x := exOf w
  s.ex? = some x ∧ WordReady s x true [srcI 9] false 5 1 s.m ∧ arg (operands s x [srcI 9] x.low) 0 = t ∧ Plain x ∧ x.pos < 34
    ∧ (s.m.warp? x.core 32 = none ∧ (s.m.warp? x.core 33).map (·.ctx) = some x.w.ctx ∧ (s.m.warp? x.core 33).map (·.levels) = some [])
theorem witness_HandlerInstructions :
    (s0.ex? = some x0 ∧ Finds s0 x0 (false, [], false, 8, 4) ∧ x0.hand = false ∧ Plain x0 ∧ Finds s0 x0 (true, [], false, 8, 4) ∧ ∀ e ∈ (boxOf s0 x0).sfq, ¬(e.warp = x0.w.uid ∧ e.reported = true))
    ∧ (sSfq.ex? = some x0 ∧ Finds sSfq x0 (true, [], false, 8, 4) ∧ (boxOf sSfq x0).sfq = [fault0 9 true, fault0 5 false] ++ fault0 5 true :: []
      ∧ ∀ o ∈ [fault0 9 true, fault0 5 false], ¬(o.warp = x0.w.uid ∧ o.reported = true))
    ∧ Ends 34 ∧ Ends 32 ∧ Ends 33 ∧ Ends 0 ∧ Ends 0xFFFFFFFF := by and_intros <;> decide +kernel

/-! Command queues, grids, pre-emption, resets, boot, events. -/

/-- A queue at 0x8000 of four entries, the entry at HEAD given; the command processors' TLB maps the first gigabyte. -/
def queue0 (head tail err : Word) : CmdQueue := { bound := true, partition := 0, function := 0, base := 0x8000, logSize := 2, tail := tail, head := head, err := err }
def launchEntry (type : Byte) (lra sta : Nat) : List Byte := [type, 0, 0, 0, 1, 0, 0, 0] ++ natToBytes 8 lra ++ natToBytes 8 sta ++ List.replicate 40 0
def tlbFront : TlbEntry := { tlb0 with cluster := clusterOf frontCore, core := none }
def queued (q : CmdQueue) (e : List Byte) (r : List Byte := record0) : State :=
  withWarp warp0 .fresh (fun m => { m with queues := [(3, q)], mem := writeBytes (writeBytes [] (0x8000 + 64 * q.head.toNat) e) 0xA000 r, tlb := [tlbFront] })
/-- What is left of a machine after a read or a write that succeeds. -/
def Res.after {α : Type} (r : Res α) : Mach := ((Res.toOption r).map (·.2)).getD .reset
/-- The machine after the command processor has read an entry, whichever die reads it. -/
def taken (s : State) : Mach := { s.m with free := s.m.free + 1 }
theorem queueEntry_of (s : State) (q : CmdQueue) (e : List Byte) (h : paClass s (q.base + 64 * q.head.toNat) ≠ .reserved ∧ paClass s (q.base + 64 * q.head.toNat + 63) ≠ .reserved
      ∧ poisonedRange s.m (q.base + 64 * q.head.toNat) 64 = false ∧ ∀ die < 3, readPa s die (taken s) (q.base + 64 * q.head.toNat) 64 = (e, taken s)) : queueEntry s q = (some e, taken s) := by
  obtain ⟨h1, h2, h3, h4⟩ := h
  have := h4 (Config.freePick s.m.free % 3) (Nat.mod_lt _ (by decide))
  simp_all [queueEntry, taken]
/-- A ready queue whose entry is `e`. -/
abbrev Ready (q : CmdQueue) (e : List Byte) (r : List Byte := record0) : Prop :=
  let s := queued q e r
  s.m.queue 3 = q ∧ s.m.arbiters.length = 3 ∧ q.bound = true ∧ q.err.toNat < 2 ^ 31 ∧ q.head ≠ q.tail ∧ (∃ c, mget s.contexts 1 = some c ∧ c.partition = q.partition)
    ∧ q.base + 64 * q.head.toNat + 64 ≤ 0x6000000000
    ∧ paClass s (q.base + 64 * q.head.toNat) ≠ .reserved ∧ paClass s (q.base + 64 * q.head.toNat + 63) ≠ .reserved ∧ poisonedRange s.m (q.base + 64 * q.head.toNat) 64 = false
    ∧ ∀ die < 3, readPa s die (taken s) (q.base + 64 * q.head.toNat) 64 = (e, taken s)
def qFour : CmdQueue := queue0 3 0 0
/-- A record of the same levels whose slots are of type none. -/
def record1 : List Byte := record0.take 128 ++ List.replicate 256 0
def sLaunch (r : List Byte) : State := queued qFour (launchEntry 1 0xA000 0xB000) r
def sTaken (r : List Byte) : State := (sLaunch r).withM (taken (sLaunch r))
def mLaunch1 (r : List Byte) : Mach := Res.after (writeMem (sTaken r) (taken (sLaunch r)) 1 frontCore 0xB000 (natToBytes 8 0))
def mLaunch2 (r : List Byte) : Mach := Res.after (readMem (sTaken r) (mLaunch1 r) 1 frontCore 0xA000 384)
def rejected (a b c : Nat) : List Byte := natToBytes 8 (3 * 2 ^ 30 + a * 2 ^ 16 + b * 2 ^ 8 + c)
def mLaunch3 : Mach := Res.after (writeMem (sTaken []) { mLaunch2 [] with free := (mLaunch2 []).free + 1 } 1 frontCore 0xB000 (rejected 3 0 4))
/-- The record of a launch is read after its status word is written. -/
abbrev RecordRead (r : List Byte) : Prop :=
  writeMem (sTaken r) (taken (sLaunch r)) 1 frontCore 0xB000 (natToBytes 8 0) = .ok () (mLaunch1 r)
    ∧ readMem (sTaken r) (mLaunch1 r) 1 frontCore 0xA000 384 = .ok (r ++ List.replicate (384 - r.length) 0) (mLaunch2 r)
/-- A launch whose record lies where nothing is mapped. -/
def sNoRecord : State := (queued qFour (launchEntry 1 0x1000000000000 0xB000)).withM (taken (queued qFour (launchEntry 1 0x1000000000000 0xB000)))
def mNoRecord : Mach := Res.after (writeMem sNoRecord sNoRecord.m 1 frontCore 0xB000 (natToBytes 8 0))
theorem witness_CommandQueues :
    Ready (queue0 1 2 0) (launchEntry 0 0 0) ∧ Ready qFour (launchEntry 2 0 0) ∧ Ready qFour (launchEntry 1 0xA000 0xB000) ∧ Ready qFour (launchEntry 1 0xA000 0xB000) record1
    ∧ poisonedRange { (sLaunch record0).m with poison := [((0x8000 + 64 * 3) / 32, 0)] } (0x8000 + 64 * 3) 64 = true ∧ paClass s0 0x6000000000 = .reserved ∧ (queue0 1 1 0).head = (queue0 1 1 0).tail
    ∧ RecordRead record1 ∧ RecordRead []
    ∧ recordReject (sTaken []) (mLaunch2 []) 1 (List.replicate 384 0) = some (3, 0, 4)
    ∧ writeMem (sTaken []) { mLaunch2 [] with free := (mLaunch2 []).free + 1 } 1 frontCore 0xB000 (rejected 3 0 4) = .ok () mLaunch3
    ∧ writeMem sNoRecord sNoRecord.m 1 frontCore 0xB000 (natToBytes 8 0) = .ok () mNoRecord
    ∧ (∃ f ∈ [mkFault .addr 0 6 0x1000000000000], ∃ m2 ∈ [mNoRecord], readMem sNoRecord mNoRecord 1 frontCore 0x1000000000000 384 = .fault f m2) := by and_intros <;> decide +kernel
/-- The record passes its checks in a package with pages to back it. -/
theorem witness_CommandQueues_record (h1 : Config.backsScratchpad (mLaunch2 record1).free 0 = true) (h2 : Config.backsSatchels (mLaunch2 record1).free 0 = true) :
    recordReject (sTaken record1) (mLaunch2 record1) 1 record1 = none := by
  have h : headerReject record1 = none ∧ levelsReject record1 = none ∧ slotsReject record1 = none := by decide +kernel
  have k : coResident record1 = false ∧ dField record1 52 2 = 0 ∧ recWarps record1 * dField record1 54 2 = 0 := by decide +kernel
  simp [recordReject, resourceReject, h, k, h1, h2]

/-- A grid of one unit in a phase, with some units placed; it comes after another of its queue. -/
def gridAt (p : GridPhase) (placed : Nat) : Grid := { grid0 with phase := p, placed := placed, order := 2, sta := 0xB000 }
def gridded (g : Grid) (others : List (Nat × Grid) := []) (sls : List (Nat × Slice) := []) : State :=
  withWarp warp0 .fresh (fun m => { m.setCore 0 .fresh with grids := (1, g) :: others, slices := sls, tlb := [tlbFront] })
/-- The grid's status word written. -/
def told (s : State) (m : Mach) (st : Nat) : Mach := Res.after (writeMem s m 1 frontCore 0xB000 (natToBytes 8 (st * 2 ^ 30)))
def gWaits : Grid := gridAt .waiting 0
def gAfter : Grid := { gWaits with record := record0.set 57 1 }
def gPlaces : Grid := gridAt .placing 0
def gOver : Grid := gridAt .placing 1
theorem witness_GridsPlacedAndEnded :
    (let s := gridded gWaits
     mget s.m.grids 1 = some gWaits ∧ gWaits.phase = .waiting ∧ (gWaits.record.getD 57 0).toNat % 2 ≠ 1 ∧ writeMem s s.m gWaits.ctx frontCore gWaits.sta (natToBytes 8 (2 ^ 30)) = .ok () (told s s.m 1))
    ∧ (let s := gridded gAfter [(2, grid0)]
       mget s.m.grids 1 = some gAfter ∧ (gAfter.record.getD 57 0).toNat % 2 = 1 ∧ ∃ e ∈ s.m.grids, e.2.queue = gAfter.queue ∧ e.2.order < gAfter.order ∧ e.2.phase ≠ .ended)
    ∧ (let s := gridded gPlaces
       mget s.m.grids 1 = some gPlaces ∧ gPlaces.phase = .placing ∧ gPlaces.placed < gPlaces.total ∧ [3].length = unitSize gPlaces.record (placeLevel gPlaces.record) ∧ [3].Nodup
        ∧ (∀ c ∈ [3], coreUsable s s.m 1 gPlaces c = true)
        ∧ coresAgree gPlaces.record (gPlaces.placed * unitSize gPlaces.record (placeLevel gPlaces.record)) [3] (slicesThere s.m 1 gPlaces) = true
        ∧ ¬∃ e ∈ s.m.grids, (s.ctx e.2.ctx).partition = (s.ctx gPlaces.ctx).partition ∧ canPlace s s.m e.1 e.2 = true
          ∧ (e.2.deadline.toNat < gPlaces.deadline.toNat ∨ (e.2.deadline = gPlaces.deadline ∧ e.2.order < gPlaces.order)))
    ∧ (let s := gridded gOver
       mget s.m.grids 1 = some gOver ∧ gridDone s.m 1 gOver = true ∧ writeMem s (kernelBoundary s.m) gOver.ctx frontCore gOver.sta (natToBytes 8 (2 * 2 ^ 30)) = .ok () (told s (kernelBoundary s.m) 2)
        ∧ (told s (kernelBoundary s.m) 2).arbiters.length = 3)
    ∧ ∃ e ∈ (gridded gOver [] [(0, { placeSlice with grid := 1 })]).m.slices, e.2.grid = 1 := by and_intros <;> decide +kernel

def preempted (halting halted : List Nat) (m : Mach → Mach := fun m => m) : State := { withWarp warp0 .fresh m with contexts := [(1, { placeContext with halting := halting, halted := halted })] }
def saved0 : SavedWarp := { core := 0, pos := 4, warp := warp0 }
def sSaved : State := preempted [] [0] (fun m => { m with saved := [(1, [saved0])] })
/-- Core 0 full of another context's warps with every register in use; the saved warp has one. -/
def wGreedy : Warp := { warp0 with ctx := 2, regs := (List.range 128).map (fun r => (r, List.replicate 32 1)) }
def savedOne : SavedWarp := { core := 0, pos := 33, warp := holding [(9, 7)] }
def sCrammed : State := preempted [] [0] (fun m => { m with cores := [(0, { Core.fresh with warps := (List.range 32).map (fun i => (i, wGreedy)) })], saved := [(1, [savedOne])] })
theorem witness_PreemptionAndResume :
    (mget (preempted [] []).contexts 1 = some placeContext ∧ (preempted [] []).coreInPartition 1 0 = true ∧ 0 ∉ placeContext.halted ∧ 0 ∉ placeContext.halting)
    ∧ (haltReady (preempted [0] []).m 1 [0] = true ∧ msorted ((preempted [0] []).m.core 0).warps = true ∧ haltReady (preempted [0] [] (fun m => { m with stores := [store0] })).m 1 [0] = false)
    ∧ (mget sSaved.contexts 1 = some { placeContext with halted := [0] } ∧ [0].length = (sSaved.ctx 1).halted.length ∧ mayMove sSaved sSaved.m 1 [(0, 0)] = true ∧ buffersFit sSaved 1 [(0, 0)] = true
      ∧ (∀ sw ∈ mgetD sSaved.m.saved 1 [], sSaved.m.warp? (coreFn [(0, 0)] sw.core) sw.pos = none)
      ∧ ((mgetD sSaved.m.saved 1 []).map (fun sw => (coreFn [(0, 0)] sw.core, sw.pos))).Nodup
      ∧ (((mgetD sSaved.m.saved 1 []).filter (fun sw => coreFn [(0, 0)] sw.core == 0)).map (fun sw => sw.warp.physRegs)).sum = 0)
    ∧ (mayMove sCrammed sCrammed.m 1 [(0, 0)] = true ∧ buffersFit sCrammed 1 [(0, 0)] = true ∧ (∀ sw ∈ [savedOne], sCrammed.m.warp? (coreFn [(0, 0)] sw.core) sw.pos = none)
      ∧ mgetD sCrammed.m.saved 1 [] = [savedOne] ∧ restorePlaces sCrammed.m (coreFn [(0, 0)]) [savedOne] = none) := by and_intros <;> decide +kernel

theorem witness_Resets :
    (1 < 2 ∧ s0.m.arbiters.length = 3 ∧ (mget s0.contexts 1).isSome = true ∧ coresOnDie s0 1 0 = true) ∧ (∀ e ∈ s0.m.copies, ¬((mget s0.contexts e.2.ctx).isSome = true ∧ coresOnDie s0 e.2.ctx 1 = true))
    ∧ (¬∃ ctx ∈ State.reset.contexts.map (·.1), coresOnDie State.reset ctx 0 = true ∨ pagesOnDie State.reset ctx 0 = true) ∧ State.reset.m.wstore.length = 2 := by
  decide +kernel

/-- A number's four bytes, most significant first. -/
def beBytes (n : Nat) : List Byte := (natToBytes 4 n).reverse
/-- An LMS signature's form: leaf 0, type 4, path of 20, tree type 8. -/
def lms0 : List Byte := beBytes 0 ++ beBytes 4 ++ List.replicate 1120 0 ++ beBytes 8 ++ List.replicate 640 0
/-- A flash of a record with clusters 0 to 17 in each order, steady mode, a key's form, a signature of one level in form, and two more bytes. -/
def flash0 : List Byte :=
  [0x4B, 0x43, 0x46, 0x47, 1, 0, 0, 0] ++ (List.range 18).map (BitVec.ofNat 8) ++ (List.range 18).map (BitVec.ofNat 8) ++ [2] ++ List.replicate 19 0 ++ beBytes 8 ++ beBytes 4 ++ List.replicate 52 0
    ++ natToBytes 4 1776 ++ beBytes 0 ++ lms0 ++ List.replicate 2 0
/-- The record is in order, the flash long enough, its signature and key of the form; whether the signature is valid, its clusters pass, and its firmware and the endpoint start are the
implementation's, and each answer falls under one clause. -/
theorem witness_BootAndModes :
    let f := flash0
    let at_ := fun (i : Nat) => (f.getD i 0).toNat
    State.reset.boot = .off ∧ 128 + bytesToNat ((f.drop 124).take 4) < f.length ∧ signatureForm f = true ∧ keyForm f 64 = true
      ∧ (f.take 4 = [0x4B, 0x43, 0x46, 0x47] ∧ bytesToNat ((f.drop 4).take 4) = 1 ∧ (∀ i < 36, at_ (8 + i) ≤ 19)
        ∧ (∀ i < 18, ∀ j < 18, i ≠ j → at_ (8 + i) ≠ at_ (8 + j) ∧ at_ (26 + i) ≠ at_ (26 + j)) ∧ at_ 44 ≤ 2
        ∧ (∀ i < 64, 45 ≤ i → at_ i = 0) ∧ (∀ i < 124, 120 ≤ i → at_ i = 0))
      ∧ ¬128 + bytesToNat ((State.reset.flash.drop 124).take 4) < State.reset.flash.length
      ∧ s0.boot ≠ .off ∧ (∀ e ∈ s0.m.grids, e.2.phase ≠ .placing) ∧ ∃ e ∈ (withGrid warp0).m.grids, e.2.phase = .placing := by and_intros <;> decide +kernel

def event0 : Event := { type := 0x05, src := 2, ctx := 1, who := 0, pay := List.replicate 16 7, function := none }
def ring (used : Nat) : Arbiter := { base := 0x8000, size := 4, head := 7, used := used, held := [(9, event0)] }
def sRing (used : Nat) : State := withWarp warp0 .fresh (fun m => { m with arbiters := [.fresh, .fresh, ring used] })
/-- The event is kept for a function, or for none. -/
def ringTo (f : Option Nat) : Arbiter := { ring 3 with held := [(9, { event0 with function := some f })] }
abbrev Held9 (used : Nat) : Prop := (sRing used).m.arbiters[2]? = some (ring used) ∧ mget (ring used).held 9 = some event0 ∧ event0.pay.length = 16
def window0 : Window := { base := 0x10000, size := 0x100 }
def mapping0 : IoMapping := { base := 0x18000000000, size := 0x100, pa := 0x20000 }
def sOutside : State := { s0 with bars := [(128, window0)], iommu := [(129, [mapping0])] }
theorem witness_EventsAndOutside :
    (Held9 3 ∧ (ring 3).used < (ring 3).size ∧ (ring 3).base + 32 * ((ring 3).head % (ring 3).size) + 32 ≤ 0x6000000000) ∧ (mget (ringTo (some 3)).held 9 = some { event0 with function := some (some 3) } ∧ (ringTo none).used < (ringTo none).size) ∧ (Held9 4 ∧ (ring 4).size ≤ (ring 4).used)
    ∧ (mget sOutside.bars 128 = some window0 ∧ window0.base ≤ 0x100FF ∧ 0x100FF + [(1 : Byte)].length ≤ window0.base + window0.size)
    ∧ ((mgetD sOutside.iommu 129 []).find? (fun v => v.base ≤ 0x18000000000 && 0x18000000000 + [(1 : Byte)].length ≤ v.base + v.size) = some mapping0
      ∧ mapping0.pa + (0x18000000000 - mapping0.base) + [(1 : Byte)].length ≤ 0x6000000000)
    ∧ (mget sOutside.bars 127 = none ∧ paClass sOutside 0x10000 = .hbm 0 ∧ mgetD sOutside.iommu 130 [] = [])
    ∧ (0 ≤ 128 ∧ 3 < 256 ∧ ((queued (queue0 1 2 0) []).m.queue 3).bound = true ∧ ((queued (queue0 1 2 0) []).m.queue 3).function = 0)
    ∧ (0x8000 + [(1 : Byte)].length ≤ 0x6000000000 ∧ 0x8000 % atomSize 14 = 0 ∧ 0x8000 % atomSize 13 = 0 ∧ poisonedRange s0.m 0x8000 16 = false) := by and_intros <;> decide +kernel

/-- The state after reset, and a state under the firmware's division; each takes a step. -/
theorem witness_FirmwareInvariantKept_reset : FirmwareInv State.reset ∧ ∃ t, step State.reset = .next t := by
  refine ⟨⟨?_, ?_, ?_, ?_, fun _ => ⟨rfl, rfl⟩⟩, _, rfl⟩ <;> intros <;> contradiction
theorem only {α : Type} {v : α} {k n : Nat} {p : α} (h : mget [(k, v)] n = some p) : n = k ∧ v = p := by
  unfold mget at h; split at h <;> simp_all [mget]
theorem witness_FirmwareInvariantKept : FirmwareInv s0 ∧ ∃ t, step s0 = .next t := by
  refine ⟨⟨?_, ?_, ?_, ?_, fun h => absurd rfl h⟩, _, rfl⟩
  · intro n p e
    obtain ⟨rfl, rfl⟩ := only e
    decide +kernel
  · intro n k p q hnk e f
    exact absurd ((only e).1.trans (only f).1.symm) hnk
  · intro id c e
    obtain ⟨rfl, rfl⟩ := only e
    refine ⟨by decide, by decide, by decide +kernel, by decide +kernel, ?_⟩
    intro f h; cases h
  · intro i j c d f e _ h
    obtain ⟨rfl, rfl⟩ := only e
    cases h

/-- `IADD v3, v3, 1` placed: the run is fetched. The same word second in a run under way. -/
def sPlaced : State := State.reset.withFetchWord 32 0x000303C1
def nowPlaced : State := { sPlaced with agenda := [], turn := 1 }
def mFetched : Mach := Res.after (fetchRun nowPlaced 1 0 24 sPlaced.m 0x3000)
def wPlaced : Warp := (sPlaced.m.warp? 0 0).getD warp0
def added : Instr := .iadd 0 3 3 0xC1
def run1 : Run := { ((exOf warp0).r) with words := [0, 0x000303C1, 0xF0000000], pos := 1 }
def wSecond : Warp := grouped warp0 (fun g => { g with run := some run1 })
def sSecond : State := { withWarp wSecond with agenda := [.issue 0 0] }
abbrev PassesR72 (i : Instr) (w : Warp) : Prop :=
  WellFormed i = true ∧ runEnding i = false ∧ needsPrivilege i = false ∧ latchesFilled i 0 = true ∧ w.levels = [] ∧ w.budgetDue &&& 0xFFFFFFFF = 0 ∧ w.pends = []
theorem witness_StepRunsTheWord_fetched :
    sPlaced.boot = .running ∧ sPlaced.agenda = .issue 0 0 :: [] ∧ sPlaced.m.warp? 0 0 = some wPlaced ∧ sPlaced.stopped wPlaced.ctx 0 = false ∧ (sPlaced.m.core 0).active.contains 0 = true
      ∧ tryGroups wPlaced = (false, 0) :: [] ∧ wPlaced.groups[0]? = some (Group.at_ 0xFFFFFFFF 0x3000 0) ∧ (Group.at_ 0xFFFFFFFF 0x3000 0).run = none
      ∧ fetchRun nowPlaced wPlaced.ctx 0 24 sPlaced.m 0x3000 = .ok ([0x000303C1, 0xF0000000], none) mFetched ∧ runCv [0x000303C1, 0xF0000000] = false
      ∧ decodeWord 0x000303C1 = .ok added ∧ PassesR72 added wPlaced ∧ sPlaced.m.stores = [] ∧ (sPlaced.m.core 0).issued = [] := by and_intros <;> decide +kernel
theorem witness_StepRunsTheWord :
    (sSecond.boot = .running ∧ sSecond.agenda = .issue 0 0 :: [] ∧ sSecond.m.warp? 0 0 = some wSecond ∧ sSecond.stopped wSecond.ctx 0 = false ∧ (sSecond.m.core 0).active.contains 0 = true
      ∧ tryGroups wSecond = (false, 0) :: [] ∧ (wSecond.groups[0]?).map (·.run) = some (some run1) ∧ (wSecond.groups[0]?).map (·.atConv) = some false ∧ run1.wait = .none
      ∧ run1.words[run1.pos]? = some 0x000303C1 ∧ PassesR72 added wSecond ∧ sSecond.m.stores = [])
    ∧ ((preempted [] [0]).stopped 1 0 = true ∧ warp0.midWord = false) := by and_intros <;> decide +kernel
theorem witness_EncodingRoundTrip : encode (.iadd 0 3 3 0xC1) = some 0x000303C1 ∧ decodeWord 0x000303C1 = .ok (.iadd 0 3 3 0xC1) ∧ encode (.noOpCommand 3) = none := by decide +kernel

/-! DECODING: one word for each instruction that has an encoding: the word that the spec writes out for it, where there is one; elsewhere the bits of its row and format
(R41 to R51) put together, with a different value in each operand field. -/

theorem test_decode_1 :
    decodeWord 0x001E1E1F = .ok (.iadd 0 0x1e 0x1e 0x1f)  -- IADD v30, v30, v31 (the spec's own)
    ∧ decodeWord 0x03152637 = .ok (.isub 1 0x15 0x26 0x37)  -- ISUB
    ∧ decodeWord 0x05152637 = .ok (.imul 1 0x15 0x26 0x37)  -- IMUL
    ∧ decodeWord 0x06050607 = .ok (.imad 0 0x5 0x6 0x7)  -- IMAD v5, v6, v7 (the spec's own)
    ∧ decodeWord 0x09152637 = .ok (.imulhS32 1 0x15 0x26 0x37)  -- IMULH.s32
    ∧ decodeWord 0x0B152637 = .ok (.imulhN32 1 0x15 0x26 0x37)  -- IMULH.n32
    ∧ decodeWord 0x0C180A1E = .ok (.iaddS64 0x18 0xa 0x1e)  -- IADD.s64 w24, w10, v30 (the spec's own)
    ∧ decodeWord 0x0E152637 = .ok (.iaddN64 0x15 0x26 0x37)  -- IADD.n64
    ∧ decodeWord 0x1008090A = .ok (.idot4S8 0 0x8 0x9 0xa)  -- IDOT4.s8 v8, v9, v10 (the spec's own)
    ∧ decodeWord 0x13152637 = .ok (.idot4N8 1 0x15 0x26 0x37)  -- IDOT4.n8
    ∧ decodeWord 0x15152637 = .ok (.idot2S16 1 0x15 0x26 0x37)  -- IDOT2.s16
    ∧ decodeWord 0x16030405 = .ok (.sel 0 0x3 0x4 0x5)  -- SEL v3, v4, v5 (the spec's own)
    ∧ decodeWord 0x18041416 = .ok (.qscl 0 0x4 0x14 0x16)  -- QSCL v4, w20, w22 (the spec's own)
    ∧ decodeWord 0x1A030405 = .ok (.lxch 0 0x3 0x4 0x5)  -- LXCH.flip v3, v4, v5 (the spec's own)
    ∧ decodeWord 0x1C021234 = .ok (.movi 0 0x2 0x1234)  -- MOVI v2, 0x1234 (the spec's own)
    := by decide +kernel
theorem test_decode_2 :
    decodeWord 0x1E02ABCD = .ok (.hiw 0 0x2 0xabcd)  -- HIW v2, 0xABCD (the spec's own)
    ∧ decodeWord 0x200808C7 = .ok (.and 0 0x8 0x8 0xc7)  -- AND v8, v8, 7 (the spec's own)
    ∧ decodeWord 0x22101011 = .ok (.or 0 0x10 0x10 0x11)  -- OR v16, v16, v17 (the spec's own)
    ∧ decodeWord 0x25152637 = .ok (.xor 1 0x15 0x26 0x37)  -- XOR
    ∧ decodeWord 0x27152637 = .ok (.andn 1 0x15 0x26 0x37)  -- ANDN
    ∧ decodeWord 0x280304C5 = .ok (.shl 0 0x3 0x4 0xc5)  -- SHL v3, v4, 5 (the spec's own)
    ∧ decodeWord 0x2B152637 = .ok (.shr 1 0x15 0x26 0x37)  -- SHR
    ∧ decodeWord 0x2D152637 = .ok (.sar 1 0x15 0x26 0x37)  -- SAR
    ∧ decodeWord 0x2F152637 = .ok (.fshl 1 0x15 0x26 0x37)  -- FSHL
    ∧ decodeWord 0x31152637 = .ok (.fshr 1 0x15 0x26 0x37)  -- FSHR
    ∧ decodeWord 0x32030405 = .ok (.bfx 0 0x3 0x4 0x5)  -- BFX v3, v4, v5 (the spec's own)
    ∧ decodeWord 0x35152637 = .ok (.bfi 1 0x15 0x26 0x37)  -- BFI
    ∧ decodeWord 0x36040501 = .ok (.imin 0 0x4 0x5 1)  -- IMIN.n32 v4, v5 (the spec's own)
    ∧ decodeWord 0x37152621 = .ok (.imax 1 0x15 0x26 1)  -- IMAX.s32
    ∧ decodeWord 0x37152640 = .ok (.fminF 1 0x15 0x26)  -- FMIN.f
    := by decide +kernel
theorem test_decode_3 :
    decodeWord 0x36040560 = .ok (.fmaxF 0 0x4 0x5)  -- FMAX.f v4, v5 (the spec's own)
    ∧ decodeWord 0x37152681 = .ok (.pmin 1 0x15 0x26 1)  -- PMIN.h2
    ∧ decodeWord 0x371526A1 = .ok (.pmax 1 0x15 0x26 1)  -- PMAX.h2
    ∧ decodeWord 0x38038A00 = .ok (.mov 0 0x3 0x8a)  -- MOV v3, q2 (the spec's own)
    ∧ decodeWord 0x39152620 = .ok (.iabsS32 1 0x15 0x26)  -- IABS.s32
    ∧ decodeWord 0x39152640 = .ok (.clz 1 0x15 0x26)  -- CLZ
    ∧ decodeWord 0x39152660 = .ok (.popc 1 0x15 0x26)  -- POPC
    ∧ decodeWord 0x39152680 = .ok (.brev 1 0x15 0x26)  -- BREV
    ∧ decodeWord 0x380304A0 = .ok (.satn 0 0x3 0x4 0)  -- SATN.s8 v3, v4 (the spec's own)
    ∧ decodeWord 0x380304C0 = .ok (.fclass 0 0x3 0x4 0)  -- FCLASS.f v3, v4 (the spec's own)
    ∧ decodeWord 0x380304E1 = .ok (.fcvt 0 0x3 0x4 0x1)  -- FCVT.b.f v3, v4 (the spec's own)
    ∧ decodeWord 0x3B152600 = .ok (.frcpF 1 0x15 0x26)  -- FRCP.f
    ∧ decodeWord 0x3B152620 = .ok (.frsqF 1 0x15 0x26)  -- FRSQ.f
    ∧ decodeWord 0x3B152640 = .ok (.fsqrtF 1 0x15 0x26)  -- FSQRT.f
    ∧ decodeWord 0x3A060760 = .ok (.fexp2F 0 0x6 0x7)  -- FEXP2.f v6, v7 (the spec's own)
    := by decide +kernel
theorem test_decode_4 :
    decodeWord 0x3B152680 = .ok (.flog2F 1 0x15 0x26)  -- FLOG2.f
    ∧ decodeWord 0x3B1526A0 = .ok (.fsinF 1 0x15 0x26)  -- FSIN.f
    ∧ decodeWord 0x3B1526C0 = .ok (.fcosF 1 0x15 0x26)  -- FCOS.f
    ∧ decodeWord 0x3B1526E0 = .ok (.ftanhF 1 0x15 0x26)  -- FTANH.f
    ∧ decodeWord 0x3C050602 = .ok (.qenc 0 0x5 0x6 2)  -- QENC v5, v6, f2 (the spec's own)
    ∧ decodeWord 0x3C051421 = .ok (.qdec 0 0x5 0x14 1)  -- QDEC v5, w20, f1 (the spec's own)
    ∧ decodeWord 0x3C100943 = .ok (.qlutb 0x10 0x9 3)  -- QLUTB v16, v9, f3 (the spec's own)
    ∧ decodeWord 0x3C051463 = .ok (.qlut 0 0x5 0x14 3)  -- QLUT v5, w20, f3 (the spec's own)
    ∧ decodeWord 0x3E070802 = .ok (.poll 0 0x7 0x8 0x2)  -- POLL.mask v7, v8 (the spec's own)
    ∧ decodeWord 0x3E070828 = .ok (.redu 0 0x7 0x8 0x8)  -- REDU.fadd.f v7, v8 (the spec's own)
    ∧ decodeWord 0x3E070850 = .ok (.scan 0 0x7 0x8 1 0x0)  -- SCAN.excl.add.n32 v7, v8 (the spec's own)
    ∧ decodeWord 0x3E070860 = .ok (.peers 0 0x7 0x8 0x0)  -- PEERS.eq.n32 v7, v8 (the spec's own)
    ∧ decodeWord 0x3E830880 = .ok (.sync 0x8)  -- SYNC v8 (the spec's own)
    ∧ decodeWord 0x41152637 = .ok (.icmpEq 1 0x15 0x26 0x37)  -- ICMP.eq
    ∧ decodeWord 0x43152637 = .ok (.icmpNe 1 0x15 0x26 0x37)  -- ICMP.ne
    := by decide +kernel
theorem test_decode_5 :
    decodeWord 0x44030405 = .ok (.icmpLtS32 0 0x3 0x4 0x5)  -- ICMP.lt.s32 v3, v4, v5 (the spec's own)
    ∧ decodeWord 0x47152637 = .ok (.icmpLeS32 1 0x15 0x26 0x37)  -- ICMP.le.s32
    ∧ decodeWord 0x498303D0 = .ok (.icmpLtN32 1 0x83 0x3 0xd0)  -- ICMP.lt.n32.nw zero, v3, 16 (the spec's own)
    ∧ decodeWord 0x4B152637 = .ok (.icmpLeN32 1 0x15 0x26 0x37)  -- ICMP.le.n32
    ∧ decodeWord 0x4D152637 = .ok (.fcmpEqF 1 0x15 0x26 0x37)  -- FCMP.eq.f
    ∧ decodeWord 0x4F152637 = .ok (.fcmpLtF 1 0x15 0x26 0x37)  -- FCMP.lt.f
    ∧ decodeWord 0x51152637 = .ok (.fcmpLeF 1 0x15 0x26 0x37)  -- FCMP.le.f
    ∧ decodeWord 0x52838300 = .ok (.nop)  -- NOP (the spec's own)
    ∧ decodeWord 0x52838301 = .ok (.conv)  -- CONV
    ∧ decodeWord 0x52838302 = .ok (.exit)  -- EXIT (the spec's own)
    ∧ decodeWord 0x52831403 = .ok (.jmp 0x14)  -- JMP w20 (the spec's own)
    ∧ decodeWord 0x52830904 = .ok (.jmpr 0x9)  -- JMPR v9 (the spec's own)
    ∧ decodeWord 0x52021405 = .ok (.callr 0x2 0x14)  -- CALLR w2, w20 (the spec's own)
    ∧ decodeWord 0x52830406 = .ok (.ret 0x4)  -- RET w4 (the spec's own)
    ∧ decodeWord 0x52830607 = .ok (.sleepu 0x6)  -- SLEEPU w6 (the spec's own)
    := by decide +kernel
theorem test_decode_6 :
    decodeWord 0x52838308 = .ok (.bkpt)  -- BKPT (the spec's own)
    ∧ decodeWord 0x52830909 = .ok (.trap 0x9)  -- TRAP v9 (the spec's own)
    ∧ decodeWord 0x54020001 = .ok (.faddF 0 0x2 0x0 0x1)  -- FADD.f v2, v0, v1 (the spec's own)
    ∧ decodeWord 0x57152637 = .ok (.faddH 1 0x15 0x26 0x37)  -- FADD.h
    ∧ decodeWord 0x59152637 = .ok (.fsubF 1 0x15 0x26 0x37)  -- FSUB.f
    ∧ decodeWord 0x5B152637 = .ok (.fsubH 1 0x15 0x26 0x37)  -- FSUB.h
    ∧ decodeWord 0x5D152637 = .ok (.fmulF 1 0x15 0x26 0x37)  -- FMUL.f
    ∧ decodeWord 0x5F152637 = .ok (.fmulH 1 0x15 0x26 0x37)  -- FMUL.h
    ∧ decodeWord 0x60050607 = .ok (.fmaF 0 0x5 0x6 0x7)  -- FMA.f v5, v6, v7 (the spec's own)
    ∧ decodeWord 0x63152637 = .ok (.fmaH 1 0x15 0x26 0x37)  -- FMA.h
    ∧ decodeWord 0x65152637 = .ok (.paddH2 1 0x15 0x26 0x37)  -- PADD.h2
    ∧ decodeWord 0x66030405 = .ok (.paddB2 0 0x3 0x4 0x5)  -- PADD.b2 v3, v4, v5 (the spec's own)
    ∧ decodeWord 0x69152637 = .ok (.pmulH2 1 0x15 0x26 0x37)  -- PMUL.h2
    ∧ decodeWord 0x6B152637 = .ok (.pmulB2 1 0x15 0x26 0x37)  -- PMUL.b2
    ∧ decodeWord 0x6D152637 = .ok (.pfmaH2 1 0x15 0x26 0x37)  -- PFMA.h2
    := by decide +kernel
theorem test_decode_7 :
    decodeWord 0x6E050607 = .ok (.pfmaB2 0 0x5 0x6 0x7)  -- PFMA.b2 v5, v6, v7 (the spec's own)
    ∧ decodeWord 0x700415B0 = .ok (.ld 0x4 0x5 1 5 4)  -- LD.n32.acq.dev v4, [w10] (the spec's own)
    ∧ decodeWord 0x72061A70 = .ok (.st 0x6 0x6 2 3 4)  -- ST.n32.rel.clus v6, [w12] (the spec's own)
    ∧ decodeWord 0x74051009 = .ok (.stm 0x5 0x4 0x9)  -- STM v5, [w8], v9 (the spec's own)
    ∧ decodeWord 0x76030C00 = .ok (.atom 0 0x3 0x3 0 0 0x0)  -- ATOM.add.n32 v3, [w6] (the spec's own)
    ∧ decodeWord 0x78040904 = .ok (.lds 0x4 0x9 4)  -- LDS.n32 v4, v9 (the spec's own)
    ∧ decodeWord 0x78050924 = .ok (.sts 0x5 0x9 4)  -- STS.n32 v5, v9 (the spec's own)
    ∧ decodeWord 0x78040945 = .ok (.ldw 0x4 0x9 5)  -- LDW.n64 w4, v9 (the spec's own)
    ∧ decodeWord 0x78030960 = .ok (.atoms 0x3 0x9 0x0)  -- ATOMS.add.n32 v3, v9 (the spec's own)
    ∧ decodeWord 0x7A000120 = .ok (.fence 1 1)  -- FENCE.ar.dev
    ∧ decodeWord 0x7A010000 = .ok (.drainst)  -- DRAINST
    ∧ decodeWord 0x7A02AC00 = .ok (.prefL1 0x2b)  -- PREF.l1
    ∧ decodeWord 0x7A032000 = .ok (.prefL2 0x8)  -- PREF.l2 [w16] (the spec's own)
    ∧ decodeWord 0x7C930001 = .ok (.bra 1 0x26 0x1)  -- BRA.nz
    ∧ decodeWord 0x7E130001 = .ok (.call 0x26 0x1)  -- CALL
    := by decide +kernel
theorem test_decode_8 :
    decodeWord 0x80040406 = .ok (.uadd 0 0x4 0x4 0x6)  -- UADD s4, s4, s6 (the spec's own)
    ∧ decodeWord 0x83152637 = .ok (.usub 1 0x15 0x26 0x37)  -- USUB
    ∧ decodeWord 0x85152637 = .ok (.umul 1 0x15 0x26 0x37)  -- UMUL
    ∧ decodeWord 0x86020304 = .ok (.umad 0 0x2 0x3 0x4)  -- UMAD v2, v3, v4 (the spec's own)
    ∧ decodeWord 0x89152637 = .ok (.uand 1 0x15 0x26 0x37)  -- UAND
    ∧ decodeWord 0x8B152637 = .ok (.uor 1 0x15 0x26 0x37)  -- UOR
    ∧ decodeWord 0x8D152637 = .ok (.uxor 1 0x15 0x26 0x37)  -- UXOR
    ∧ decodeWord 0x8F152637 = .ok (.ushl 1 0x15 0x26 0x37)  -- USHL
    ∧ decodeWord 0x91152637 = .ok (.ushr 1 0x15 0x26 0x37)  -- USHR
    ∧ decodeWord 0x93152637 = .ok (.usel 1 0x15 0x26 0x37)  -- USEL
    ∧ decodeWord 0x94020300 = .ok (.umov 0 0x2 0x3)  -- UMOV v2, v3 (the spec's own)
    ∧ decodeWord 0x96021234 = .ok (.umovi 0 0x2 0x1234)  -- UMOVI v2, 0x1234 (the spec's own)
    ∧ decodeWord 0x99158421 = .ok (.uhiw 1 0x15 0x8421)  -- UHIW
    ∧ decodeWord 0x9B0B7FFF = .ok (.ubra 2 0x16 0x7fff)  -- UBRA.z v22, spins (the spec's own)
    ∧ decodeWord 0x9C030900 = .ok (.uldc 0x3 0x9 0)  -- ULDC.n32 v3, v9 (the spec's own)
    := by decide +kernel
theorem test_decode_9 :
    decodeWord 0x9E040414 = .ok (.uld 0x4 0x1 0 0 5)  -- ULD.n64 w4, [w2] (the spec's own)
    ∧ decodeWord 0xA1152637 = .ok (.ucmpEq 1 0x15 0x26 0x37)  -- UCMP.eq
    ∧ decodeWord 0xA3152637 = .ok (.ucmpNe 1 0x15 0x26 0x37)  -- UCMP.ne
    ∧ decodeWord 0xA5152637 = .ok (.ucmpLtS32 1 0x15 0x26 0x37)  -- UCMP.lt.s32
    ∧ decodeWord 0xA7152637 = .ok (.ucmpLeS32 1 0x15 0x26 0x37)  -- UCMP.le.s32
    ∧ decodeWord 0xA9152637 = .ok (.ucmpLtN32 1 0x15 0x26 0x37)  -- UCMP.lt.n32
    ∧ decodeWord 0xAB152637 = .ok (.ucmpLeN32 1 0x15 0x26 0x37)  -- UCMP.le.n32
    ∧ decodeWord 0xAC838304 = .ok (.tcfg 1 0)  -- TCFG.g4.d2 (the spec's own)
    ∧ decodeWord 0xAE201428 = .ok (.tmma 0x20 0x14 1 2 0 0)  -- TMMA v32, w20, f1, f2 (the spec's own)
    ∧ decodeWord 0xB0058301 = .ok (.tbnd 0x5 1)  -- TBND v5, f1 (the spec's own)
    ∧ decodeWord 0xB0050981 = .ok (.tbndT 0x5 0x9 1)  -- TBND.t v5, v9, f1 (the spec's own)
    ∧ decodeWord 0xB2030900 = .ok (.gang 0x3 0x9)  -- GANG v3, v9 (the spec's own)
    ∧ decodeWord 0xB4831402 = .ok (.achain 0x83 0x14 0 2)  -- ACHAIN.sink w20 (the spec's own)
    ∧ decodeWord 0xB6830900 = .ok (.arsv 0x9)  -- ARSV v9 (the spec's own)
    ∧ decodeWord 0xB8200900 = .ok (.asend 0x20 0x9)  -- ASEND v32, v9 (the spec's own)
    := by decide +kernel
theorem test_decode_10 :
    decodeWord 0xBA200901 = .ok (.await 0x20 0x9 0 1)  -- AWAIT v32, v9, f1 (the spec's own)
    ∧ decodeWord 0xBC830900 = .ok (.aclose 0x9)  -- ACLOSE v9 (the spec's own)
    ∧ decodeWord 0xBE831405 = .ok (.twatch 0x14 0x5)  -- TWATCH e5, w20 (the spec's own)
    ∧ decodeWord 0xBE030925 = .ok (.pubt 0x3 0x9 0x5)  -- PUBT v3, v9, e5 (the spec's own)
    ∧ decodeWord 0xBE041445 = .ok (.spect 0x4 0x14 0x5)  -- SPECT v4, w20, e5 (the spec's own)
    ∧ decodeWord 0xBE048360 = .ok (.schk 0x4)  -- SCHK v4 (the spec's own)
    ∧ decodeWord 0xBE838380 = .ok (.sabort)  -- SABORT (the spec's own)
    ∧ decodeWord 0xC0041498 = .ok (.cpy 0x4 0x14 2 3 0)  -- CPY.rel.clus w4, w20 (the spec's own)
    ∧ decodeWord 0xC2081400 = .ok (.cpym 0x8 0x14 0 0 0)  -- CPYM w8, w20 (the spec's own)
    ∧ decodeWord 0xC4041400 = .ok (.cpyq 0x4 0x14)  -- CPYQ w4, w20 (the spec's own)
    ∧ decodeWord 0xC615263D = .ok (.gath 0x15 0x26 1 1 1 1 1)  -- GATH.sum.all.skip.ix.f
    ∧ decodeWord 0xC8152600 = .ok (.binit 0x15 0x26)  -- BINIT
    ∧ decodeWord 0xCA152600 = .ok (.bwait 0x15 0x26)  -- BWAIT
    ∧ decodeWord 0xCC030900 = .ok (.pgpin 0x3 0x9)  -- PGPIN v3, v9 (the spec's own)
    ∧ decodeWord 0xCC830920 = .ok (.pgunpin 0x9)  -- PGUNPIN v9 (the spec's own)
    := by decide +kernel
theorem test_decode_11 :
    decodeWord 0xCE060200 = .ok (.wswin 0x6 0x2)  -- WSWIN w6, v2 (the spec's own)
    ∧ decodeWord 0xD0282C08 = .ok (.tsweep 0x28 0x2c 0x1 0)  -- TSWEEP.add.f v40, v44 (the spec's own)
    ∧ decodeWord 0xD2838322 = .ok (.qbind 0x83 0x83 2 2)  -- QBIND.gath.q2 zero, zero (the spec's own)
    ∧ decodeWord 0xD4031400 = .ok (.spawn 0x3 0x14)  -- SPAWN v3, w20 (the spec's own)
    ∧ decodeWord 0xD6831400 = .ok (.yieldj 0x14)  -- YIELDJ w20 (the spec's own)
    ∧ decodeWord 0xD8041400 = .ok (.migr 0x4 0x14)  -- MIGR v4, w20 (the spec's own)
    ∧ decodeWord 0xDA830802 = .ok (.bar 0x8 2)  -- BAR.l2 v8 (the spec's own)
    ∧ decodeWord 0xDC031400 = .ok (.seqld 0x3 0x14)  -- SEQLD v3, w20 (the spec's own)
    ∧ decodeWord 0xDE030900 = .ok (.seqgo 0x3 0x9)  -- SEQGO v3, v9 (the spec's own)
    ∧ decodeWord 0xE0038301 = .ok (.srd 0x3 0x1)  -- SRD v3, CORE (the spec's own)
    ∧ decodeWord 0xE2830918 = .ok (.swr 0x9 0x18)  -- SWR HVEC_LO, v9 (the spec's own)
    ∧ decodeWord 0xE4068300 = .ok (.time 0x6)  -- TIME w6 (the spec's own)
    ∧ decodeWord 0xE6838300 = .ok (.rte)  -- RTE (the spec's own)
    ∧ decodeWord 0xE8788300 = .ok (.frec 0x78)  -- FREC v120 (the spec's own)
    ∧ decodeWord 0xEA748300 = .ok (.sfqpop 0x74)  -- SFQPOP v116 (the spec's own)
    := by decide +kernel
theorem test_decode_12 :
    decodeWord 0xEC838500 = .ok (.termw 0x83 0x85)  -- TERMW zero, wslot (the spec's own)
    ∧ decodeWord 0xF9041041 = .ok (.trail 1 1 0x1 0x1 0x1 0x1)  -- TRAIL
    := by decide +kernel

/-! WELL-FORMED INSTRUCTIONS: a term that each check of R72 refuses, by its step. -/

/-- Step 1: codes that R71 and the instructions' entries do not list. -/
theorem test_unlisted_codes :
    ([.fclass 0 3 4 3, .fcvt 0 3 4 10, .poll 0 3 4 5, .redu 0 3 4 11, .scan 0 3 4 0 11, .peers 0 3 4 3, .ld 4 6 0 0 7, .ld 4 6 2 0 4, .uld 4 6 0 0 7, .uld 4 6 3 0 4, .st 4 6 0 0 7, .st 4 6 1 0 4, .atom 0 4 6 0 0 15,
      .lds 4 9 7, .sts 4 9 7, .ldw 4 9 7, .atoms 4 9 15, .fence 0 0, .bra 3 4 0, .ubra 3 4 0, .achain 0x83 20 0 0, .tsweep 40 44 0 7, .tsweep 40 44 10 0, .tsweep 40 44 6 4, .tsweep 40 44 7 1, .qbind 5 9 6 0, .srd 5 0x05,
      .srd 5 0x21, .swr 5 0x15, .trail 0 5 0 0 0 0] : List Instr).all (fun i => Machine.staticFault i == some .illegalOp && !WellFormed i) = true := by decide +kernel
/-- Step 2: reserved fields. -/
theorem test_reserved_fields :
    ([.mov 1 3 0x8A, .ld 4 6 0 1 4, .uld 4 6 0 1 4, .st 4 6 0 1 4, .atom 0 4 6 0 1 0, .cpy 4 20 0 1 0, .cpym 4 20 0 1 0, .bra 0 4 0, .ubra 0 4 0, .qbind 5 9 2 0, .achain 9 20 1 1, .trail 0 3 1 0 0 0, .trail 0 2 0 1 0 0,
      .trail 0 1 0 0 1 0, .trail 0 0 0 0 0 1] : List Instr).all (fun i => Machine.staticFault i == some .reservedField && !WellFormed i) = true := by decide +kernel
/-- Step 3: specifiers of no class, a pair at an odd register, a tile above 112, a constant as a destination, a queue in a pair position, and a D that is read but is no `v` register. -/
theorem test_specifier_classes :
    ([.iadd 0 3 0x86 4, .iadd 0 0x84 3 4, .iadd 0 0xC1 3 4, .iadd 0 3 4 0xA0, .imad 0 0x83 4 5, .iaddS64 5 6 7, .iaddS64 4 7 7, .iaddS64 4 0x88 7, .qscl 0 4 21 22, .movi 0 0x80 1, .hiw 0 0x83 1, .imin 0 0x83 4 0, .qdec 0 5 21 0, .qlutb 114 9 0,
      .qlutb 33 9 0, .redu 0 0x83 4 0, .sync 0xA0, .jmp 3, .callr 3 4, .ld 5 6 0 0 5, .ld 6 6 0 0 6, .st 5 6 0 0 5, .st 0x88 6 0 0 4, .stm 0x88 4 9, .atom 0 3 6 0 0 1, .atom 0 6 6 0 0 12, .lds 5 9 5, .sts 6 9 6, .atoms 0x83 9 0, .call 3 0,
      .uldc 5 9 1, .tmma 33 8 0 0 0 0, .tbnd 0x83 0, .tbndT 0x83 9 0, .gang 0x88 9, .achain 9 20 0 2, .achain 0x83 20 1 2, .asend 33 9, .await 114 9 0 0, .twatch 3 0, .pubt 0x88 9 0, .spect 4 0x83 0, .schk 0x90, .cpy 5 20 0 0 0, .cpyq 4 21,
      .gath 5 20 0 0 0 0 1, .binit 0x83 9, .bwait 0x88 9, .wswin 5 9, .tsweep 42 44 0 0, .qbind 0x88 9 3 0, .spawn 5 0x83, .yieldj 0xC1, .migr 0x83 4, .srd 0x83 0, .time 5, .frec 6, .sfqpop 0x83,
      .termw 0x88 9] : List Instr).all (fun i => Machine.staticFault i == some .illegalOp && !WellFormed i) = true := by decide +kernel
/-- And terms that pass: boundary values of the same checks. -/
theorem test_well_formed :
    ([.fcvt 0 3 4 9, .redu 0 3 4 10, .ld 4 6 1 7 6, .st 4 6 2 7 6, .atom 0 4 6 3 7 12, .qlutb 112 9 7, .trail 1 4 0xFF 0xFF 0xFF 0xFF, .srd 127 0x20, .srd 5 0x40, .tsweep 124 0 9 0, .achain 0x83 0xC1 0 3, .iadd 1 0x9F 0x88 0xFF, .yieldj 0x83, .pgpin 0x83 9, .seqld 0x83 20, .seqgo 0x88 9,
      .noOpCommand 3] : List Instr).all WellFormed = true := by decide +kernel

/-! ONE STEP, on the spec's own numbers. -/

/-- What an instruction writes to a register in lane 0, the lanes' registers being given. -/
def result (i : Instr) (l : List (Nat × Word)) (r : Nat) : Option Word := match exec i (withWarp (holding l)) with | .next t => t.ex?.map (fun y => y.w.regLane r 0) | _ => none
/-- R206's operands: one saturation at the end. -/
theorem test_idot4_saturates_once : result (.idot4S8 0 8 9 10) [(8, 2147483632), (9, 0x80807F7F), (10, 0x7F7F7F7F)] 8 = some 2147483378 := by decide +kernel
/-- R209's field. -/
theorem test_bfx_sign_extends : result (.bfx 0 3 4 5) [(4, 0xD0), (5, 0x864)] 3 = some 0xFFFFFFFD := by decide +kernel
/-- R219's table. -/
theorem test_qscl_table :
    ([(1000000, 0, 1518500250, 31, 707107), (5, 0, 1, 1, 2), (0xFFFFFFFB, 0xFFFFFFFF, 1, 1, 0xFFFFFFFE), (3, 0, 1, 1, 2), (0, 256, 1048576, 0, 2147483647)] : List (Word × Word × Word × Word × Word)).all
      (fun e => result (.qscl 0 4 20 22) [(20, e.1), (21, e.2.1), (22, e.2.2.1), (23, e.2.2.2.1)] 4 == some e.2.2.2.2) = true := by decide +kernel
/-- R216: `FCVT.s32.f` of 2.5, −2.5 and 3.5. -/
theorem test_fcvt_ties_to_even :
    ([(0x40200000, 2), (0xC0200000, 0xFFFFFFFE), (0x40600000, 4)] : List (Word × Word)).all (fun e => result (.fcvt 0 3 4 8) [(4, e.1)] 3 == some e.2) = true := by decide +kernel
/-- R227: 2^24, 1.0, 1.0 and −2^24 in lanes 0 to 3 sum to 0.0. -/
theorem test_redu_fadd_order :
    (match exec (.redu 0 7 8 8) (withWarp (grouped { warp0 with regs := [(7, List.replicate 32 15), (8, [0x4B800000, 0x3F800000, 0x3F800000, 0xCB800000] ++ List.replicate 28 0)] } (fun g => { g with lanes := 15 }))) with
      | .next t => t.ex?.map (fun y => y.w.regLane 7 0) | _ => none) = some 0 := by decide +kernel
/-- R205, R211, R212: a wrap, a select that keeps D, and a constant built in two words. -/
theorem test_wrap_select_constant :
    result (.iadd 0 3 3 0xC1) [(3, 0xFFFFFFFF)] 3 = some 0 ∧ result (.sel 0 3 4 5) [(3, 9), (4, 0), (5, 7)] 3 = some 9 ∧ result (.hiw 0 2 0xABCD) [(2, 0x1234)] 2 = some 0xABCD1234 := by decide +kernel
/-- R208: shifts by 32 or more, and the source as the destination. -/
theorem test_shifts_past_the_width :
    result (.shl 0 4 4 5) [(4, 3), (5, 32)] 4 = some 0 ∧ result (.sar 0 4 4 5) [(4, 0x80000000), (5, 0xFFFFFFFF)] 4 = some 0xFFFFFFFF ∧ result (.fshl 0 4 4 5) [(4, 0x80000001), (5, 33)] 4 = some 3 := by decide +kernel
/-- A word placed after reset is the next step's: `MOVI v2, 0x1234`, and what `decodeTableWord` reads. -/
theorem test_placed_word :
    decodeTableWord 32 0x1C021234 = some (.movi 0 2 0x1234)
    ∧ (match step (State.reset.withFetchWord 32 0x1C021234) with | .next t => (t.m.warp? 0 0).map (fun w => w.regLane 2 31) | _ => none) = some 0x1234 := by decide +kernel

end Sys2Proof.Tests
end

section
/-! SUPPORT. The instruction word (R41 to R51, R66 to R70): a word is its fixed bits with each operand added at a place where they are zero, so every field, and the
opcode cell and member code above and below the fields, is read back from the sum. From that, decoding inverts encoding. -/

namespace Sys2Proof

/-! Fields of a sum: `x + v * p` puts the field `v` at bit log2 `p`, where `x` has zero bits. -/

/-- A field put where `x` has zero bits changes nothing above it. -/
theorem add_field_div {x p q n : Nat} (v : BitVec n) (hx : x % (p * 2 ^ n) < p) (hq : q % (p * 2 ^ n) = 0) : (x + v.toNat * p) / q = x / q := by
  obtain ⟨c, rfl⟩ := Nat.dvd_of_mod_eq_zero hq
  have fits : x % (p * 2 ^ n) + v.toNat * p < p * 2 ^ n := by
    have : (v.toNat + 1) * p ≤ 2 ^ n * p := Nat.mul_le_mul_right p v.isLt
    rw [Nat.mul_comm p] at hx ⊢
    linarith
  have split : x + v.toNat * p = (x % (p * 2 ^ n) + v.toNat * p) + p * 2 ^ n * (x / (p * 2 ^ n)) := by
    have := Nat.mod_add_div x (p * 2 ^ n)
    omega
  rw [← Nat.div_div_eq_div_mul _ (p * 2 ^ n), ← Nat.div_div_eq_div_mul _ (p * 2 ^ n), split, Nat.add_mul_div_left _ _ (by omega), Nat.div_eq_of_lt fits, Nat.zero_add]

/-- A field changes nothing below it. -/
theorem add_field_mod {x p q n : Nat} (v : BitVec n) (hp : p % q = 0) : (x + v.toNat * p) % q = x % q := by
  obtain ⟨c, rfl⟩ := Nat.dvd_of_mod_eq_zero hp
  rw [Nat.mul_left_comm, Nat.add_mul_mod_self_left]

theorem add_field_lt {x p q n : Nat} (v : BitVec n) (hx : x % (p * 2 ^ n) < p) (hq : q % (p * 2 ^ n) = 0) : x + v.toNat * p < q ↔ x < q := by
  rcases Nat.eq_zero_or_pos q with rfl | hpos
  · simp
  · rw [← Nat.div_eq_zero_iff_lt hpos, add_field_div v hx hq, Nat.div_eq_zero_iff_lt hpos]

theorem natBits_add_above {x p lo len n : Nat} (v : BitVec n) (hp : p % 2 ^ (lo + len) = 0) : natBits (x + v.toNat * p) lo len = natBits x lo len := by
  rw [natBits, natBits, ← Nat.mod_mul_right_div_self, ← Nat.mod_mul_right_div_self, ← Nat.pow_add, add_field_mod v hp]

theorem natBits_add_below {x p lo len n : Nat} (v : BitVec n) (hx : x % (p * 2 ^ n) < p) (hp : 2 ^ lo % (p * 2 ^ n) = 0) :
    natBits (x + v.toNat * p) lo len = natBits x lo len := by
  rw [natBits, natBits, add_field_div v hx hp]

/-- A field is read back from where it was put. -/
theorem natBits_add_same {x p lo len : Nat} (v : BitVec len) (hp : 2 ^ lo = p) (hx : x % (p * 2 ^ len) < p) : natBits (x + v.toNat * p) lo len = v.toNat := by
  subst hp
  have zero : x / 2 ^ lo % 2 ^ len = 0 := by rw [← Nat.mod_mul_right_div_self, Nat.div_eq_of_lt hx]
  rw [natBits, Nat.add_mul_div_right _ _ (Nat.two_pow_pos lo), Nat.add_mod, zero, Nat.zero_add, Nat.mod_mod, Nat.mod_eq_of_lt v.isLt]

/-! The same for a field at bit 0, which stands in the sum without a factor. -/

theorem add_low_field_lt {x q n : Nat} (v : BitVec n) (hx : x % 2 ^ n = 0) (hq : q % 2 ^ n = 0) : x + v.toNat < q ↔ x < q := by
  simpa using add_field_lt (p := 1) v (by simpa using hx) (by simpa using hq)

theorem natBits_add_low_below {x lo len n : Nat} (v : BitVec n) (hx : x % 2 ^ n = 0) (hp : 2 ^ lo % 2 ^ n = 0) : natBits (x + v.toNat) lo len = natBits x lo len := by
  simpa using natBits_add_below (p := 1) (len := len) v (by simpa using hx) (by simpa using hp)

theorem natBits_add_low_same {x len : Nat} (v : BitVec len) (hx : x % 2 ^ len = 0) : natBits (x + v.toNat) 0 len = v.toNat := by
  simpa using natBits_add_same (lo := 0) v rfl (by simpa using hx)

theorem natBits_literal (n lo len : Nat) : natBits (no_index (OfNat.ofNat n)) lo len = n / 2 ^ lo % 2 ^ len := rfl

theorem fld_eq_natBits (w lo len : Nat) : fld w lo len = BitVec.ofNat len (natBits w lo len) := BitVec.eq_of_toNat_eq (by simp [fld, natBits])

/-! Encoding and decoding. -/

open Decode in
/-- The cells that hold several members (R67, R70), and `CALL` beside the cell's free values. -/
theorem group_cells (w : Nat) :
    laneLow w 0x1B = cell1B w ∧ laneLow w 0x1C = cell1C w ∧ laneLow w 0x1D = cell1D w ∧ laneLow w 0x1E = cell1E w ∧ laneLow w 0x1F = cell1F w
    ∧ laneHigh w 0x29 = cell29 w ∧ laneHigh w 0x3C = cell3C w ∧ laneHigh w 0x3D = cell3D w
    ∧ laneHigh w 0x3F = (if natBits w 23 2 = 3 then none else some (.call (fld w 15 8) (fld w 0 15)))
    ∧ uniLow w 0x58 = cell58 w ∧ uniLow w 0x5F = cell5F w ∧ uniHigh w 0x66 = cell66 w :=
  ⟨rfl, rfl, rfl, rfl, rfl, rfl, rfl, rfl, rfl, rfl, rfl, rfl⟩

theorem encodeNat_lt {i : Instr} {e : Nat} (h : encodeNat i = some e) : e < 2 ^ 32 := by
  cases i
  all_goals cases h
  all_goals simp only [add_field_lt, add_low_field_lt, add_field_mod, Nat.reducePow, Nat.reduceMod, Nat.reduceMul, Nat.reduceLT]

/-- An instruction's word is in that instruction's row: the opcode cell and member code name its row, then each operand is read back from its field. -/
theorem decodeFields_encodeNat {i : Instr} {e : Nat} (h : encodeNat i = some e) : decodeFields e = some i := by
  cases i
  all_goals cases h
  -- the row
  all_goals simp only [decodeFields, group_cells, Decode.cell1B, Decode.cell1C, Decode.cell1D, Decode.cell1E, Decode.cell1F, Decode.cell29, Decode.cell3C, Decode.cell3D,
    Decode.cell58, Decode.cell5F, Decode.cell66, natBits_add_above, natBits_add_below, natBits_add_low_below, add_field_mod, natBits_literal,
    Nat.reducePow, Nat.reduceAdd, Nat.reduceDiv, Nat.reduceMod, Nat.reduceMul, Nat.reduceEqDiff, Nat.reduceLT, ↓reduceIte]
  all_goals change some _ = some _
  -- the operands
  all_goals simp only [fld_eq_natBits, natBits_add_below, natBits_add_same, natBits_add_low_below, natBits_add_low_same, add_field_mod,
    Nat.reducePow, Nat.reduceMod, Nat.reduceMul, Nat.reduceLT, BitVec.ofNat_toNat, BitVec.setWidth_eq]

/-- The decoder reads an instruction from a word exactly where the word is in its row and is the one its encoding gives. -/
theorem decodeNat_eq_ok {w : Nat} {i : Instr} : decodeNat w = .ok i ↔ decodeFields w = some i ∧ encodeNat i = some w := by
  constructor
  · fun_cases decodeNat w with
    | case3 j row word => rintro ⟨⟩; exact ⟨row, word⟩
    | _ => nofun
  · rintro ⟨row, word⟩
    simp only [decodeNat, row, word, if_true]

theorem encode_eq_some {i : Instr} {w : Word} : encode i = some w ↔ encodeNat i = some w.toNat := by
  simp only [encode, Option.map_eq_some_iff]
  constructor
  · rintro ⟨e, he, rfl⟩
    rw [he, BitVec.toNat_ofNat, Nat.mod_eq_of_lt (encodeNat_lt he)]
  · exact fun h => ⟨_, h, by simp⟩

theorem decodeWord_eq_ok {w : Word} {i : Instr} : decodeWord w = .ok i ↔ encode i = some w := by
  rw [decodeWord, decodeNat_eq_ok, encode_eq_some]
  exact ⟨And.right, fun h => ⟨decodeFields_encodeNat h, h⟩⟩

theorem encodeNat_isNone (i : Instr) : (encodeNat i).isNone = Machine.isEvent i := by cases i <;> rfl

/-- Settles O57: the decoder answers an instruction exactly for that instruction's word, and the encoder's empty rows are the steps that are no words. -/
theorem encodingRoundTrip : Obligations.EncodingRoundTrip :=
  ⟨fun _ _ => decodeWord_eq_ok.2, fun _ _ => decodeWord_eq_ok.1, fun i => by rw [encode, Option.map_eq_none_iff, ← Option.isNone_iff_eq_none, encodeNat_isNone]⟩

/-- Settles O56: the decoder evaluated on each word. -/
theorem wordsDecode : Obligations.WordsDecode := by
  unfold Obligations.WordsDecode
  decide +kernel

end Sys2Proof
end

section
/-! SUPPORT. The end of a run (R65, R322): lanes placed at run starts stand there after merging and after the cut of serial mode; what `finishRun` leaves when it has nothing to report. -/

namespace Sys2Proof.Machine

/-! Lanes at run starts. -/

/-- A lane stands at a run start: some group holds it at that PC and depth, outside any run. -/
def StandsAt (gs : List Group) (l : Nat) (pc : Pc) (depth : Nat) : Prop :=
  ∃ k ∈ gs, inMask k.lanes l = true ∧ k.run = none ∧ k.depth = depth ∧ k.pc = pc

variable {l : Nat} {pc : Pc} {depth : Nat}

theorem StandsAt.mono {gs hs : List Group} (h : StandsAt gs l pc depth) (sub : ∀ k ∈ gs, k ∈ hs) : StandsAt hs l pc depth := by
  obtain ⟨k, hk, stands⟩ := h
  exact ⟨k, sub k hk, stands⟩

theorem standsAt_cons {g : Group} {gs : List Group} :
    StandsAt (g :: gs) l pc depth ↔ (inMask g.lanes l = true ∧ g.run = none ∧ g.depth = depth ∧ g.pc = pc) ∨ StandsAt gs l pc depth := by
  simp [StandsAt]

theorem inMask_or (a b : Word) (l : Nat) : inMask (a ||| b) l = (inMask a l || inMask b l) := BitVec.getLsbD_or

theorem StandsAt.merged {g : Group} {gs : List Group} (h : StandsAt (g :: gs) l pc depth) : StandsAt (mergeInto g gs) l pc depth := by
  induction gs with
  | nil => exact h
  | cons k t ih =>
    unfold mergeInto
    split
    next same =>
      simp only [Bool.and_eq_true, Option.isNone_iff_eq_none, beq_iff_eq] at same
      obtain ⟨⟨⟨⟨⟨krun, grun⟩, hpc⟩, hdepth⟩, -⟩, -⟩ := same
      rw [standsAt_cons, inMask_or, Bool.or_eq_true]
      rcases standsAt_cons.1 h with ⟨lane, -, d, p⟩ | h
      · exact .inl ⟨.inr lane, krun, hdepth.trans d, hpc.trans p⟩
      · rcases standsAt_cons.1 h with ⟨lane, rest⟩ | h
        · exact .inl ⟨.inl lane, rest⟩
        · exact .inr h
    next =>
      rw [standsAt_cons]
      rcases standsAt_cons.1 h with here | h
      · exact .inr (ih (standsAt_cons.2 (.inl here)))
      · exact (standsAt_cons.1 h).imp_right (fun h => ih (standsAt_cons.2 (.inr h)))

theorem StandsAt.mergedAll {gs acc : List Group} (h : StandsAt (acc ++ gs) l pc depth) :
    StandsAt (gs.foldl (fun acc g => mergeInto g acc) acc) l pc depth := by
  induction gs generalizing acc with
  | nil => simpa using h
  | cons g gs ih =>
    refine ih ?_
    obtain ⟨k, hk, stands⟩ := h
    rcases List.mem_append.1 hk with hk | hk
    · exact (StandsAt.merged (g := g) ⟨k, .tail _ hk, stands⟩).mono (fun _ => List.mem_append_left _)
    · rcases List.mem_cons.1 hk with rfl | hk
      · exact (StandsAt.merged (gs := acc) ⟨k, .head _, stands⟩).mono (fun _ => List.mem_append_left _)
      · exact ⟨k, by simp [hk], stands⟩

theorem ne_zero_of_inMask {m : Word} (h : inMask m l = true) : m ≠ 0 := by
  rintro rfl
  simp [inMask] at h

/-- Merging keeps every lane at its run start (R322). -/
theorem StandsAt.regrouped {gs : List Group} (h : StandsAt gs l pc depth) : StandsAt (regroup gs) l pc depth := by
  obtain ⟨k, hk, lane, rest⟩ := h
  exact StandsAt.mergedAll ⟨k, List.mem_filter.2 ⟨hk, bne_iff_ne.2 (ne_zero_of_inMask lane)⟩, lane, rest⟩

theorem mem_maskLanes {m : Word} : l ∈ maskLanes m ↔ l < 32 ∧ inMask m l = true := by simp [maskLanes, inMask]

theorem inMask_laneBit (a : Nat) (hl : l < 32) : inMask (laneBit a) l = decide (a = l) := by
  rw [inMask, laneBit, BitVec.getLsbD_ofNat, Nat.testBit_two_pow, decide_eq_true hl, Bool.true_and]

/-- So does the cut of serial mode (R325). -/
theorem StandsAt.cut {gs : List Group} (h : StandsAt gs l pc depth) (hl : l < 32) : StandsAt (gs.flatMap splitGroup) l pc depth := by
  obtain ⟨k, hk, lane, run, rest⟩ := h
  refine ⟨{ k with lanes := laneBit l }, List.mem_flatMap.2 ⟨k, hk, ?_⟩, by simp [inMask_laneBit, hl], run, rest⟩
  simp only [splitGroup, run, Option.isSome_none, Bool.false_eq_true, if_false, List.mem_map]
  exact ⟨l, mem_maskLanes.2 ⟨hl, lane⟩, rfl⟩

theorem StandsAt.serial {w : Warp} (h : StandsAt w.groups l pc depth) (hl : l < 32) : StandsAt w.enterSerial.groups l pc depth := by
  unfold Warp.enterSerial
  split
  · exact h.cut hl
  · exact h

/-- Groups joined to a slot: their lanes stand where they stood. -/
theorem StandsAt.placed {gs : List Group} (h : StandsAt gs l pc depth) (w : Warp) (hl : l < 32) : StandsAt (w.place gs).groups l pc depth := by
  unfold Warp.place
  split
  · exact (h.cut hl).mono (fun k hk => List.mem_append_right _ hk)
  · exact (h.mono (fun k hk => List.mem_append_right _ hk)).regrouped.serial (w := { w with groups := _ }) hl

/-- Groups joined to a slot change its groups and serial mode alone. -/
theorem place_rest (w : Warp) (gs : List Group) : w.place gs = { w with groups := (w.place gs).groups, serial := (w.place gs).serial } := by
  unfold Warp.place Warp.enterSerial
  split
  · rfl
  · split <;> rfl

theorem inMask_maskOf {ls : List Nat} (hl : l < 32) : inMask (maskOf ls) l = ls.contains l := by
  unfold maskOf
  induction ls using List.reverseRecOn with
  | nil => simp [inMask]
  | append_singleton ls a ih =>
    rw [List.foldl_concat, inMask_or, ih, inMask_laneBit a hl]
    simp [eq_comm]

/-- A lane of a list stands at its target once the lanes are grouped by where they go. -/
theorem standsAt_byTarget {ls : List Nat} (next : Nat → Pc) (hm : l ∈ ls) (hl : l < 32) :
    StandsAt ((byTarget next ls).map (fun e => Group.at_ e.2 e.1 depth)) l (next l) depth := by
  refine ⟨Group.at_ (maskOf (ls.filter (fun k => next k == next l))) (next l) depth, ?_, ?_, rfl, rfl, rfl⟩
  · simp only [byTarget, List.map_map, List.mem_map, List.mem_eraseDups]
    exact ⟨next l, ⟨l, hm, rfl⟩, rfl⟩
  · simp [Group.at_, inMask_maskOf hl, hm]

/-! The run's end. -/

theorem reportLanes_none {m : Mach} {x : Ex} (h : (m.ctxCore x.w.ctx x.core).sfq.all (fun q => q.warp ≠ x.w.uid || q.reported) = true) : reportLanes m x = [] := by
  have due : ∀ k, dueEntries m x k = [] := fun k => by
    rw [dueEntries, List.filter_eq_nil_iff]
    intro q hq
    have := List.all_eq_true.1 h q hq
    simp only [Bool.or_eq_true, decide_eq_true_eq] at this
    rcases this with other | old
    · simp [other]
    · simp [old]
  simp [reportLanes, due]

/-- With no store fault to report, the lanes do not park and the store-fault entries stand (R381). -/
theorem makeReports_none {m : Mach} {x : Ex} (h : reportLanes m x = []) (next : Nat → Pc) :
    makeReports m x next = (m.setCtxCore x.w.ctx x.core (m.ctxCore x.w.ctx x.core), x) := by
  simp [makeReports, h, Mach.adjCtxCore]

/-- The warp of a group outside the handler whose run has ended, its lanes where `next` sends them. -/
def Ex.ended (x : Ex) (ranges : List Nat) : Warp :=
  (({ x.without with ranges := ranges }).countRun x.low).place ((byTarget x.nextPc x.lanes).map (fun e : Pc × Word => Group.at_ e.2 e.1 x.g.depth))

/-- Its registers, threads and levels stand. -/
theorem ended_rest {x : Ex} (hand : x.hand = false) (ranges : List Nat) :
    x.ended ranges = { x.w with groups := (x.ended ranges).groups, serial := (x.ended ranges).serial, hgroups := (x.ended ranges).hgroups, runs := (x.ended ranges).runs
                                parkRuns := (x.ended ranges).parkRuns, ranges := ranges } := by
  rw [Ex.ended, place_rest]
  simp [Warp.countRun, Ex.without, hand]

theorem finishRun_quiet {m : Mach} {x : Ex} (ranges : List Nat) (quiet : reportLanes m x = []) (hand : x.hand = false) (stays : x.w.displace = false) :
    finishRun m x ranges = (m.setCtxCore x.w.ctx x.core (m.ctxCore x.w.ctx x.core)).setWarp x.core x.pos { x.ended ranges with displace := false } := by
  have kept : (x.ended ranges).displace = false := by rw [ended_rest hand]; exact stays
  simp only [finishRun, makeReports_none quiet, hand, Bool.false_eq_true, if_false]
  exact if_neg (ne_true_of_eq_false kept)

/-- Settles O21: a trailer with nothing to report ends the run by `finishRun`, which places each lane at its target. -/
theorem trailerEndsTheRun : Obligations.TrailerEndsTheRun := by
  intro s x v c e f g h hx
  rw [exec_trail, execTrail, onWord_next hx]
  refine ⟨fun joined => by simp only [joined, if_true]; rfl, fun free hand stays lanes unreported => ?_⟩
  have quiet := reportLanes_none unreported
  simp only [free, Bool.false_eq_true, if_false, quiet, List.isEmpty_nil, true_or, if_true, finishRun_quiet _ quiet hand stays]
  have rest := ended_rest hand ([h, g, f, e].take c.toNat |>.flatMap (fun r => rangeRegs r.toNat))
  set w := x.ended _
  refine ⟨_, { w with displace := false }, rfl, by simp, ?_, ?_, ?_, fun l hl lane => ?_, ?_, fun p hp => by simp [hp], fun k hk => by simp [hk], rfl, by simp [boxOf]⟩
  · rw [rest]
  · rw [rest]
  · rw [rest]
  · exact (standsAt_byTarget x.nextPc (mem_maskLanes.2 ⟨hl, lane⟩) hl).placed _ hl
  · rw [rest]; rfl

end Sys2Proof.Machine
end

section
/-! SUPPORT. What fetching a run reads and leaves (R62, R315): the warps' stores are untouched, and a fetched word of HBM is one that the core holds or memory's own. -/

namespace Sys2Proof.Machine

/-! Stores are untouched by reads of memory and by the writes that page walks make. -/

/-- The machine that an operation leaves, whatever it comes to. -/
def Res.mach {α : Type} : Res α → Mach
  | .ok _ m | .fault _ m | .wait m => m

@[simp] theorem stores_setSector (m : Mach) (sec : Nat) (x : L2Sector) : (setSector m sec x).stores = m.stores := by
  unfold setSector
  dsimp only
  split <;> [split; skip] <;> rfl

theorem foldl_keeps {α β γ : Type} (f : α → β) (g : α → γ → α) (h : ∀ a c, f (g a c) = f a) (l : List γ) (a : α) : f (l.foldl g a) = f a := by
  induction l generalizing a with
  | nil => rfl
  | cons c l ih => rw [List.foldl_cons, ih, h]

@[simp] theorem stores_fillL2 (m : Mach) (pa n : Nat) : (fillL2 m pa n).stores = m.stores :=
  foldl_keeps Mach.stores _ (fun m sec => by dsimp only; split <;> simp) _ m

@[simp] theorem stores_fillWalk (m : Mach) (reads : List Nat) : (fillWalk m reads).stores = m.stores :=
  foldl_keeps Mach.stores _ (fun m a => by split <;> simp) _ m

@[simp] theorem stores_wroteL2 (m : Mach) (pa : Nat) (bs : List (Option Byte)) : (wroteL2 m pa bs).stores = m.stores :=
  foldl_keeps Mach.stores _ (fun m p => by unfold wroteSector; dsimp only; split <;> simp) _ m

@[simp] theorem stores_settleLate (m : Mach) (p : Late → Bool) : (settleLate m p).stores = m.stores := by
  unfold settleLate
  split <;> rfl

@[simp] theorem stores_writePlace (s : State) (m : Mach) (pa : Nat) (bs : List (Option Byte)) (cached : Bool) : (writePlace s m pa bs cached).stores = m.stores := by
  unfold writePlace
  dsimp only
  split
  · split <;> rfl
  · rfl
  · rfl
  · split <;> simp
  · rfl

@[simp] theorem stores_writePte (s : State) (m : Mach) (a : Nat) (e : DWord) : (writePte s m a e).stores = m.stores := by simp [writePte, writePa]

@[simp] theorem stores_tlbFill (m : Mach) (t : TlbEntry) (core : Nat) (eng : Bool) : (tlbFill m t core eng).stores = m.stores := by
  unfold tlbFill
  split <;> rfl

@[simp] theorem stores_requestTouch (m : Mach) (l : Leaf) (die ctx : Nat) : (requestTouch m l die ctx).stores = m.stores := by
  unfold requestTouch
  split <;> simp

@[simp] theorem stores_walkDone (s : State) (m : Mach) (ctx core va : Nat) (acc : Access) (eng : Bool) (l : Leaf) (ps : List WalkEntry) :
    (walkDone s m ctx core va acc eng l ps).mach.stores = m.stores := by
  unfold walkDone
  dsimp only
  split
  · rfl
  · rw [Res.mach, stores_tlbFill]
    dsimp only
    generalize (if acc.writes = true then (0xC0 : DWord) else 0x40) = flags
    split <;> simp

@[simp] theorem stores_walkVa (s : State) (m : Mach) (ctx core va : Nat) (acc : Access) (ft eng : Bool) : (walkVa s m ctx core va acc ft eng).mach.stores = m.stores := by
  unfold walkVa
  dsimp only
  split
  · simp [Res.mach]
  · split <;> [skip; split] <;> simp [Res.mach]
  · simp

@[simp] theorem stores_translate (s : State) (m : Mach) (ctx core : Nat) (va : DWord) (acc : Access) (ft eng : Bool) :
    (translate s m ctx core va acc ft eng).mach.stores = m.stores := by
  unfold translate
  split
  · rfl
  · split
    · simp
    · split
      · simp
      · dsimp only
        split
        · rfl
        · rw [Res.mach]; split <;> rfl

@[simp] theorem stores_readPa1 (s : State) (m : Mach) (die pa : Nat) : (readPa1 s m die pa).2.stores = m.stores := by
  unfold readPa1
  split <;> [split; skip; skip] <;> rfl

@[simp] theorem stores_readPa (s : State) (die n : Nat) (m : Mach) (pa : Nat) : (readPa s die m pa n).2.stores = m.stores := by
  induction n generalizing m pa with
  | zero => rfl
  | succ n ih => simp [readPa, ih]

@[simp] theorem stores_readAt (s : State) (m : Mach) (core : Nat) (x : Xlat) (va n : Nat) : (readAt s m core x va n).mach.stores = m.stores := by
  unfold readAt
  split
  · rfl
  · dsimp only [Res.mach]
    split <;> simp

theorem stores_next {α β : Type} {m : Mach} {r : Res α} {f : α → Mach → Res β} (hr : r.mach.stores = m.stores) (hf : ∀ a n, (f a n).mach.stores = n.stores) :
    (r.next f).mach.stores = m.stores := by
  cases r with
  | ok a n => exact (hf a n).trans hr
  | fault e n => exact hr
  | wait n => exact hr

@[simp] theorem stores_fetchNow (s : State) (m : Mach) (core : Nat) (x : Xlat) (va : Nat) : (fetchNow s m core x va).mach.stores = m.stores :=
  stores_next (stores_readAt ..) (fun _ _ => rfl)

@[simp] theorem stores_fetchWord (s : State) (m : Mach) (core : Nat) (x : Xlat) (va : Nat) : (fetchWord s m core x va).mach.stores = m.stores := by
  unfold fetchWord
  split
  · simp
  · dsimp only
    split
    · rfl
    · simp

/-- Fetching a run leaves every warp's stores as they stand. -/
@[simp] theorem stores_fetchRun (s : State) (ctx core k : Nat) (m : Mach) (pc : Pc) : (fetchRun s ctx core k m pc).mach.stores = m.stores := by
  induction k generalizing m pc with
  | zero => rfl
  | succ k ih =>
    have word : ((translate s m ctx core (pc.setWidth 64) .fetch).next (fun x m => fetchWord s m core x pc.toNat)).mach.stores = m.stores :=
      stores_next (stores_translate ..) (fun _ _ => stores_fetchWord ..)
    unfold fetchRun
    split
    next n e => rw [e] at word; exact word
    next e => rw [e] at word; exact word
    next w n e =>
      rw [e] at word
      split
      · exact word
      · exact (stores_next (ih ..) (fun _ _ => rfl)).trans word

/-! The word at a translated address. -/

theorem readPa1_hbm (s : State) (m : Mach) (die : Nat) {pa : Nat} (h : pa < 0x10000000000) : readPa1 s m die pa = (viewByte m die pa, m) := by
  have place : paClass s pa = .hbm 0 ∨ paClass s pa = .hbm 1 ∨ paClass s pa = .reserved := by
    by_cases low : pa < 0x3000000000
    · simp [paClass, low]
    · by_cases high : pa < 0x6000000000 <;> simp [paClass, low, high, h]
  rcases place with e | e | e <;> simp only [readPa1, memKey, e]

/-- A die reads HBM, and the reserved addresses next to it, byte by byte from its view of memory (R303). -/
theorem readPa_hbm (s : State) (m : Mach) (die n pa : Nat) (h : pa + n ≤ 0x10000000000) : readPa s die m pa n = (viewBytes m die pa n, m) := by
  induction n generalizing pa with
  | zero => rfl
  | succ n ih =>
    rw [readPa, readPa1_hbm s m die (by omega)]
    dsimp only
    rw [ih (pa + 1) (by omega)]
    simp only [viewBytes, List.range_succ_eq_map, List.map_cons, List.map_map, Nat.add_zero]
    refine congrArg (fun l => (_ :: l, m)) (List.map_congr_left fun i _ => ?_)
    rw [Function.comp_apply, Nat.succ_eq_add_one, Nat.add_assoc, Nat.add_comm 1]

/-- The instruction word at an address of HBM as a die reads it. -/
def wordAt (m : Mach) (die pa : Nat) : Word := BitVec.ofNat 32 (bytesToNat (viewBytes m die pa 4))

theorem fetchNow_hbm {s : State} {m m' : Mach} {core va : Nat} {x : Xlat} {w : Word} (hbm : x.pa < 0x6000000000) (h : fetchNow s m core x va = .ok w m') :
    w = wordAt m (dieOf core) x.pa := by
  rw [fetchNow, readAt] at h
  split at h
  · cases h
  · rw [readPa_hbm s m _ 4 _ (by omega)] at h
    cases h
    rfl

/-- A fetched word of HBM is memory's, or one of the values that the core holds (R315). -/
theorem fetchWord_hbm {s : State} {m m' : Mach} {core va : Nat} {x : Xlat} {w : Word} (hbm : x.pa < 0x6000000000) (h : fetchWord s m core x va = .ok w m') :
    (∀ held, mget (m.core core).code (x.pa / 4) = some held → w ∈ held ∨ w = wordAt m (dieOf core) x.pa)
    ∧ (mget (m.core core).code (x.pa / 4) = none → w = wordAt m (dieOf core) x.pa) := by
  unfold fetchWord at h
  cases code : mget (m.core core).code (x.pa / 4) with
  | none => simp only [code] at h; exact ⟨by simp, fun _ => fetchNow_hbm hbm h⟩
  | some ws =>
    refine ⟨?_, by simp⟩
    rintro _ ⟨⟩
    simp only [code] at h
    split at h
    next v pick => cases h; exact .inl (List.mem_of_getElem? pick)
    next => exact .inr (fetchNow_hbm (m := { m with free := m.free + 1 }) hbm h)

/-- A hit in the TLB that an access uses first translates it and moves nothing (R116). -/
theorem translate_hit {s : State} {ctx core : Nat} {va : DWord} {acc : Access} {t : Xlat} (h : Hit s ctx core va acc t) : translate s s.m ctx core va acc = .ok t s.m := by
  obtain ⟨range, e, hit, own, dirty, rfl, check⟩ := h
  have clean : (acc.writes && !pteBit e.pte 7) = false := by
    cases hw : acc.writes
    · rfl
    · simp [dirty hw]
  simp only [translate, ge_iff_le, Nat.not_le.2 range, if_false, Option.mem_def.1 hit, clean, Bool.false_eq_true, check, own, if_true]

/-- The first word of a run was fetched at the run's PC. -/
theorem fetchRun_first {s : State} {ctx core k : Nat} {m m' : Mach} {pc : Pc} {words : List Word} {ff : Option FaultInfo} {w : Word}
    (h : fetchRun s ctx core (k + 1) m pc = .ok (words, ff) m') (first : words[0]? = some w) :
    ∃ n, (translate s m ctx core (pc.setWidth 64) .fetch).next (fun x m => fetchWord s m core x pc.toNat) = .ok w n := by
  unfold fetchRun at h
  split at h
  · cases h
  · cases h; simp at first
  next v n e =>
    refine ⟨n, ?_⟩
    rw [e]
    split at h
    · cases h
      simp only [List.getElem?_cons_zero, Option.some.injEq] at first
      rw [first]
    · revert h
      cases fetchRun s ctx core k n (pc + 4) with
      | ok r o => rintro ⟨⟩; simp only [List.getElem?_cons_zero, Option.some.injEq] at first; rw [first]
      | fault => nofun
      | wait => nofun

end Sys2Proof.Machine
end

section
/-! SUPPORT. A step that issues a word (R72, R190, R320, R352): a group whose next word passes every check is prepared as that word, its attempt is the word's meaning, and the turn
is that attempt where a pipe is free. -/

namespace Sys2Proof.Machine

/-! Preparing a word. -/

/-- NOTHING HOLDS A WORD: the run of `x` stands at `word`, which decodes to `i` and passes the checks of R72, and its warp has no open level, no `BUDGET` to take, no `AWAIT` lease and
no acquire still to be performed. -/
structure Issuable (s : State) (m : Mach) (x : Ex) (word : Word) (i : Instr) : Prop where
  wait     : x.r.wait = .none
  here     : x.r.words[x.r.pos]? = some word
  decodes  : decodeWord word = .ok i
  formed   : WellFormed i = true
  last     : x.r.pos = 23 → isTrail word = true
  ending   : runEnding i = true → ∀ v, x.r.words[x.r.pos + 1]? = some v → isTrail v = true
  priv     : needsPrivilege i = true → (s.ctx x.w.ctx).priv = true
  latches  : latchesFilled i x.r.latches.length = true
  levels   : x.w.levels = []
  budget   : x.hand = true ∨ x.w.budgetDue &&& x.g.lanes = 0
  leases   : ∀ p ∈ x.w.pends, (p.kind matches .await ..) = false
  acquires : ∀ st ∈ m.stores, st.warp = x.w.uid → st.acq = none

/-- The word `i` of `x` as it executes: its warp's loads are read for good where the word may be ordered after them (R304). -/
def Ex.before (x : Ex) (i : Instr) : Ex := { x with w := if fixesLoads i then x.w.fixLoads else x.w }

/-- The machine in which the word of `x` executes: `x` is written back, and `cur` names its group. -/
def Mach.issue (m : Mach) (x : Ex) : Mach := { m.put x with cur := some { core := x.core, pos := x.pos, hand := x.hand, grp := x.grp } }

theorem checkWord_ok {s : State} {m : Mach} {x : Ex} {word : Word} {i : Instr} (h : Issuable s m x word i) : checkWord s x word = .ok i := by
  have static : staticFault i = none := Option.isNone_iff_eq_none.1 h.formed
  have last : (x.r.pos == 23 && !isTrail word) = false := by
    cases ht : isTrail word
    · have : x.r.pos ≠ 23 := fun hp => by simp [h.last hp] at ht
      simpa using this
    · simp
  have ending : (runEnding i && (x.r.words[x.r.pos + 1]?.any (fun v => !isTrail v))) = false := by
    cases he : runEnding i
    · rfl
    · cases hv : x.r.words[x.r.pos + 1]? with
      | none => rfl
      | some v => simp [h.ending he v hv]
  have priv : (needsPrivilege i && !(s.ctx x.w.ctx).priv) = false := by
    cases hp : needsPrivilege i
    · rfl
    · simp [h.priv hp]
  simp [checkWord, h.decodes, static, last, ending, priv, h.latches]

theorem heldBack_none {s : State} {m : Mach} {x : Ex} {word : Word} {i : Instr} (h : Issuable s m x word i) : heldBack m x i = false := by
  by_contra held
  simp only [heldBack, acquireOut, Bool.not_eq_false, Bool.and_eq_true, Bool.or_eq_true, List.any_eq_true, beq_iff_eq] at held
  obtain ⟨-, ⟨p, hp, awaits⟩ | ⟨st, hst, own, acquires⟩⟩ := held
  · exact absurd awaits (ne_true_of_eq_false (h.leases p hp))
  · simp [h.acquires st hst own] at acquires

theorem prepWord_issue {s : State} {m : Mach} {x : Ex} {word : Word} {i : Instr} (h : Issuable s m x word i) : prepWord s m x = .word (m.issue (x.before i)) i := by
  have closed : mustClose x i = false := by simp [mustClose, h.levels]
  unfold prepWord
  simp only [h.wait, h.here, checkWord_ok h, closed, heldBack_none h, Bool.false_eq_true, if_false]
  split <;> simp [Ex.before, Mach.issue, *]

theorem budgetLanes_none {s : State} {m : Mach} {x : Ex} {word : Word} {i : Instr} (h : Issuable s m x word i) : budgetLanes x = [] := by
  unfold budgetLanes
  split
  · rfl
  next outside =>
    have undue : x.w.budgetDue &&& x.g.lanes = 0 := h.budget.resolve_left (fun hand => outside (.inl hand))
    have lanes : x.lanes.filter (inMask x.w.budgetDue) = [] := List.filter_eq_nil_iff.2 (fun l hl due => by
      have both : inMask (x.w.budgetDue &&& x.g.lanes) l = true := by
        rw [inMask, BitVec.getLsbD_and, Bool.and_eq_true]
        exact ⟨due, (mem_maskLanes.1 hl).2⟩
      exact ne_zero_of_inMask both undue)
    simp [h.wait, lanes]

theorem prepBudget_issue {s : State} {m : Mach} {x : Ex} {word : Word} {i : Instr} (h : Issuable s m x word i) : prepBudget s m x = .word (m.issue (x.before i)) i := by
  rw [prepBudget, budgetLanes_none h]
  exact prepWord_issue h

theorem prepGroup_inRun {s : State} {core pos k : Nat} {hand : Bool} {w : Warp} {g : Group} {r : Run} (hw : s.m.warp? core pos = some w)
    (hg : (if hand then w.hgroups else w.groups)[k]? = some g) (conv : g.atConv = false) (run : g.run = some r) :
    prepGroup s core pos hand k = prepBudget s s.m { core := core, pos := pos, hand := hand, grp := k, w := w, g := g, r := r } := by
  unfold prepGroup
  simp only [hw]
  simp only [hg, conv, run, Bool.false_eq_true, if_false]

theorem prepGroup_fetched {s : State} {core pos k : Nat} {hand : Bool} {w : Warp} {g : Group} {m : Mach} {words : List Word} {ff : Option FaultInfo}
    (hw : s.m.warp? core pos = some w) (hg : (if hand then w.hgroups else w.groups)[k]? = some g) (conv : g.atConv = false) (run : g.run = none)
    (fetched : fetchRun s w.ctx core 24 s.m g.pc = .ok (words, ff) m) (met : runCv words = true → g.passed = true) :
    let r : Run := { start := g.pc, words := words, fetchFault := ff, pos := 0, latches := [], nextPc := [], wait := .none, desc := [] }
    prepGroup s core pos hand k
      = prepBudget s m { core := core, pos := pos, hand := hand, grp := k, w := w, g := { g with passed := false, idle := 0, out := false, run := some r }, r := r } := by
  have goes : ¬(runCv words = true ∧ (!g.passed) = true) := fun ⟨cv, waits⟩ => by simp [met cv] at waits
  unfold prepGroup
  simp only [hw]
  simp only [hg, conv, run, fetched, goes, Bool.false_eq_true, if_false]

/-! The word as it executes. -/

/-- Where the word of `x` executes, `cur` names its group. -/
theorem ex?_issue {s : State} {m : Mach} {x : Ex} (hg : x.grp < (if x.hand then x.w.hgroups else x.w.groups).length) : (s.withM (m.issue x)).ex? = some x.settled :=
  ex?_put (m := { m with cur := some { core := x.core, pos := x.pos, hand := x.hand, grp := x.grp } }) rfl hg

/-- The group that `cur` names stands in its place. -/
theorem groupAt_ex {s : State} {x : Ex} (h : s.ex? = some x) : s.m.groupAt x.core x.pos x.hand x.grp = some x.g := by
  obtain ⟨-, warp, group, -⟩ := ex?_some h
  simp only [Mach.groupAt, warp, Option.bind_some, group]

theorem groups_before (x : Ex) (i : Instr) : (if (x.before i).hand then (x.before i).w.hgroups else (x.before i).w.groups) = if x.hand then x.w.hgroups else x.w.groups := by
  unfold Ex.before
  dsimp only
  split <;> split <;> rfl

/-! An attempt to issue. -/

/-- The pipes that a word takes one of, from the group that stood at it and stands in `after` now. -/
def pipesTaken (before after : Option Group) : List Nat := if sameWord before after then [] else (before.bind Group.word?).elim [] pipesOf

theorem pipesTaken_eq {before after : Option Group} {word : Word} (h : before.bind Group.word? = some word) :
    pipesTaken before after = if sameWord before after || isTrail word then [] else if word.toNat / 2 ^ 31 = 1 then [2] else [0, 1] := by
  rw [pipesTaken, h, Option.elim_some, pipesOf]
  cases sameWord before after <;> rfl

variable {run : Instr → State → Host.Outcome State Fault Refusal} {s : State} {core pos k : Nat} {hand : Bool} {m : Mach} {i : Instr}

theorem tryGroup_next {t : State} (prep : prepGroup s core pos hand k = .word m i) (done : run i (s.withM m) = .next t)
    (moved : stillWaits (s.m.groupAt core pos hand k) (t.m.groupAt core pos hand k) = false) :
    tryGroup run s core pos hand k
      = some { out := .next { t with m := { t.m with cur := none } }, pipes := pipesTaken (m.groupAt core pos hand k) (t.m.groupAt core pos hand k) } := by
  simp only [tryGroup, prep, done, moved, Bool.false_and, Bool.false_eq_true, if_false]
  rfl

theorem tryGroup_stop {o : Host.Outcome State Fault Refusal} (prep : prepGroup s core pos hand k = .word m i) (done : run i (s.withM m) = o) (stop : ∀ t, o ≠ .next t) :
    tryGroup run s core pos hand k = some { out := o, pipes := [] } := by
  simp only [tryGroup, prep, done]

variable {w : Warp} {tried : List (Bool × Nat)}

/-- What a warp's attempt leaves: the ready groups passed over have a run more, and the word is noted. -/
def notedAfter (run : Instr → State → Host.Outcome State Fault Refusal) (s : State) (w : Warp) (e : Bool × Nat) (core pos : Nat) (a : Attempt) (t : State) : State :=
  (countIdle run w e core pos t).withM (noteTurn s.turn core pos a (countIdle run w e core pos t).m)

theorem tryWarp_next {a : Attempt} {t : State} (hw : s.m.warp? core pos = some w) (first : tryGroups w = (hand, k) :: tried) (ha : tryGroup run s core pos hand k = some a)
    (out : a.out = .next t) : tryWarp run s core pos = some { a with out := .next (notedAfter run s w (hand, k) core pos a t) } := by
  simp only [tryWarp, hw, first, tryFirst, ha, out, notedAfter]

theorem tryWarp_stop {a : Attempt} (hw : s.m.warp? core pos = some w) (first : tryGroups w = (hand, k) :: tried) (ha : tryGroup run s core pos hand k = some a)
    (stop : ∀ t, a.out ≠ .next t) : tryWarp run s core pos = some a := by
  simp only [tryWarp, hw, first, tryFirst, ha]

/-! A turn. -/

/-- A pipe is free for a warp: it has taken no word in this cy, the warp has issued none, and no other warp comes first to it (R352). -/
def pipeFree (run : Instr → State → Host.Outcome State Fault Refusal) (s : State) (core pos p : Nat) : Bool :=
  !(s.m.core core).issued.any (fun e => e.1 == p || e.2 == pos) && !anotherFirst run s core pos p

theorem pipeFree_iff {p : Nat} : pipeFree run s core pos p = true ↔ (∀ e ∈ (s.m.core core).issued, e.1 ≠ p ∧ e.2 ≠ pos) ∧ anotherFirst run s core pos p = false := by
  simp [pipeFree]

theorem pipe_eq_find (a : Attempt) : a.pipe run s core pos = a.pipes.find? (pipeFree run s core pos) := by
  rw [Attempt.pipe, Attempt.free, List.find?_filter]
  simp only [Bool.decide_and, Bool.decide_eq_true]
  rfl

/-- A word takes the first free one of its pipes. -/
theorem pipe_some {a : Attempt} {front back : List Nat} {p : Nat} (split : a.pipes = front ++ p :: back) (busy : ∀ q ∈ front, ¬pipeFree run s core pos q)
    (free : pipeFree run s core pos p) : a.pipe run s core pos = some p := by
  rw [pipe_eq_find, List.find?_eq_some_iff_append]
  exact ⟨free, front, back, split, fun q hq => by simpa using busy q hq⟩

theorem pipe_none {a : Attempt} (busy : ∀ p ∈ a.pipes, ¬pipeFree run s core pos p) : a.pipe run s core pos = none := by
  rw [pipe_eq_find, List.find?_eq_none]
  exact busy

/-- A warp of a context that is halted on its core issues nothing but the rest of a word begun. -/
theorem issueTurn_stopped (hw : s.m.warp? core pos = some w) (stopped : s.stopped w.ctx core = true) (begun : w.midWord = false) :
    issueTurn run s core pos = .next s := by
  simp [issueTurn, hw, stopped, begun]

section
variable {a : Attempt} (hw : s.m.warp? core pos = some w) (goes : s.stopped w.ctx core = false) (active : (s.m.core core).active.contains pos = true)
  (ha : tryWarp run s core pos = some a)
include hw goes active ha

/-- An active warp whose word finds no pipe issues nothing. -/
theorem issueTurn_wait (wants : a.pipes ≠ []) (busy : a.pipe run s core pos = none) : issueTurn run s core pos = .next s := by
  have taken : a.pipes.isEmpty = false := by simpa using wants
  simp only [issueTurn, hw, goes, active, ha, taken, busy, Option.any_some, Option.isNone_none, Bool.false_and, Bool.not_false, Bool.and_self, Bool.false_eq_true, if_false, if_true]

/-- An attempt of an active warp that takes no pipe is done. -/
theorem issueTurn_next {t : State} (pipeless : a.pipes = []) (out : a.out = .next t) : issueTurn run s core pos = .next (settleActive run t core pos) := by
  have took : a.pipe run s core pos = none := pipe_none (by simp [pipeless])
  simp only [issueTurn, hw, goes, active, ha, pipeless, took, out, Option.any_some, Option.elim_none, List.isEmpty_nil, Bool.false_and, Bool.not_true, Bool.false_eq_true, if_false, if_true]

/-- An attempt of an active warp that takes a pipe is done. -/
theorem issueTurn_took {t : State} {p : Nat} (took : a.pipe run s core pos = some p) (out : a.out = .next t) :
    issueTurn run s core pos = .next (settleActive run (t.withM (notePipe core pos p t.m)) core pos) := by
  simp only [issueTurn, hw, goes, active, ha, took, out, Option.any_some, Option.elim_some, Option.isNone_some, Bool.false_and, Bool.and_false, Bool.false_eq_true, if_false, if_true]

theorem issueTurn_stop (pipeless : a.pipes = []) (stop : ∀ t, a.out ≠ .next t) : issueTurn run s core pos = a.out := by
  simp only [issueTurn, hw, goes, active, ha, pipeless, Option.any_some, Bool.false_and, Bool.false_eq_true, if_false, if_true, List.isEmpty_nil, Bool.not_true]

end

/-- A running package takes the issue turn that stands first in its agenda. -/
theorem step_issue {s : State} {rest : List Turn} (running : s.boot = .running) (turn : s.agenda = .issue core pos :: rest) :
    step s = issueTurn exec { s with agenda := rest, turn := s.turn + 1 } core pos := by
  simp only [step, turn, takeTurn, running, runningTurn]

/-- Settles O60: the group's word is prepared (`prepGroup_inRun`, `prepGroup_fetched`), its attempt is its meaning (`tryGroup_next`), and the turn of an active warp is
that attempt (`issueTurn_next`, `issueTurn_took`), or nothing (`issueTurn_wait`). -/
theorem stepRunsTheWord : Obligations.StepRunsTheWord := by
  intro s core pos k hand rest w tried running agenda hw now
  have turn : step s = issueTurn exec now core pos := step_issue running agenda
  refine ⟨fun stopped begun => turn.trans (issueTurn_stopped (s := now) hw stopped begun), ?_⟩
  intro g g' r m word i goes active first hg conv stands wait here decodes formed last ending priv latches levels budget leases acquires x there
  have hw : now.m.warp? core pos = some w := hw
  set y : Ex := { core := core, pos := pos, hand := hand, grp := k, w := w, g := g', r := r } with hy
  have lanes : g'.lanes = g.lanes := by
    rcases stands with ⟨-, -, rfl⟩ | ⟨_, _, -, -, -, -, rfl⟩ <;> rfl
  have stores : m.stores = s.m.stores := by
    rcases stands with ⟨-, rfl, -⟩ | ⟨_, _, -, fetched, -⟩
    · rfl
    · have := stores_fetchRun now w.ctx core 24 s.m g.pc
      rwa [fetched] at this
  have ready : Issuable now m y word i :=
    { wait, here, decodes, formed, last, ending, priv, latches, levels, leases, budget := by rw [hy, lanes]; exact budget, acquires := by rw [stores]; exact acquires }
  have prep : prepGroup now core pos hand k = .word (m.issue x) i := by
    rw [show x = y.before i from rfl, ← prepBudget_issue ready]
    rcases stands with ⟨run, rfl, rfl⟩ | ⟨words, ff, run, fetched, met, rfl, rfl⟩
    · exact prepGroup_inRun hw hg conv run
    · exact prepGroup_fetched hw hg conv run fetched met
  have place : k < (if x.hand then x.w.hgroups else x.w.groups).length := by
    rw [show x = y.before i from rfl, groups_before]
    exact (List.getElem?_eq_some_iff.1 hg).1
  have cur : there.ex? = some x.settled := ex?_issue place
  have before : there.m.groupAt core pos hand k = some x.settled.g := groupAt_ex cur
  have stops : ∀ {o}, exec i there = o → (∀ t, o ≠ .next t) → step s = o := fun done stop =>
    turn.trans (issueTurn_stop hw goes active (tryWarp_stop hw first (tryGroup_stop prep done stop) stop) rfl stop)
  refine ⟨by rw [cur]; rfl, ?_, ?_, ?_, ?_⟩
  · intro t done moved pipes a t' noted free
    have same : pipes = pipesTaken (there.m.groupAt core pos hand k) (t.m.groupAt core pos hand k) := by
      refine (pipesTaken_eq ?_).symm
      rw [before]
      exact here
    have attempt : tryGroup exec now core pos hand k = some a := (tryGroup_next prep done moved).trans (by simp only [a, same]; rfl)
    have warp : tryWarp exec now core pos = some { a with out := .next noted } := tryWarp_next hw first attempt rfl
    exact ⟨fun pipeless => turn.trans (issueTurn_next hw goes active warp pipeless rfl),
      fun front p back split busy here => turn.trans (issueTurn_took hw goes active warp
        (pipe_some split (fun q hq => mt pipeFree_iff.1 (busy q hq)) (pipeFree_iff.2 here)) rfl),
      fun wants busy => turn.trans (issueTurn_wait hw goes active warp wants (pipe_none fun p hp => mt pipeFree_iff.1 (busy p hp)))⟩
  · exact fun f done => stops done nofun
  · exact fun f done => stops done nofun
  · intro at_start t hit hbm
    rcases stands with ⟨run, -⟩ | ⟨words, ff, -, fetched, -, rfl, -⟩
    · simp [run] at at_start
    · obtain ⟨n, e⟩ := fetchRun_first fetched here
      rw [translate_hit (s := now) hit] at e
      exact fetchWord_hbm hbm e

end Sys2Proof.Machine
end

section
/-! SUPPORT. What every step keeps (R109, R384, R397, R398). Nearly every word and step leaves boot, partitions and contexts as they stand; SWR of HVEC, pre-emption and resumption,
retirement, boot, the resets and the firmware's moves are the only changes, and each keeps the invariant. -/

namespace Sys2Proof.Machine

/-! The division stands: boot, partitions and contexts are as they were. -/

/-- A property of the state that an instruction or step answers. -/
def Answers (P : State → Prop) : Host.Outcome State Fault Refusal → Prop
  | .next t => P t
  | _ => True

theorem Answers.mono {P Q : State → Prop} {o : Host.Outcome State Fault Refusal} (h : Answers P o) (sub : ∀ t, P t → Q t) : Answers Q o := by
  cases o with
  | next t => exact sub t h
  | fault => trivial
  | refused => trivial

theorem Answers.next {P : State → Prop} {o : Host.Outcome State Fault Refusal} {t : State} (h : Answers P o) (e : o = .next t) : P t := by
  rw [e] at h
  exact h

/-- What the division of the package consists of has not changed. -/
structure Stands (s t : State) : Prop where
  boot       : t.boot = s.boot
  partitions : t.partitions = s.partitions
  contexts   : t.contexts = s.contexts

theorem Stands.refl (s : State) : Stands s s := ⟨rfl, rfl, rfl⟩
theorem Stands.trans {s t u : State} (h : Stands s t) (k : Stands t u) : Stands s u :=
  ⟨k.boot.trans h.boot, k.partitions.trans h.partitions, k.contexts.trans h.contexts⟩
theorem Stands.withM (s : State) (m : Mach) : Stands s (s.withM m) := ⟨rfl, rfl, rfl⟩

/-- Nothing but the machine below the firmware has changed. -/
theorem Stands.below {s t : State} {m : Mach} (h : t = s.withM m) : Stands s t := h ▸ .withM s m

/-- A word acts on the machine below the firmware. -/
theorem onWord_stands (s : State) (f : Ex → Mach) : Answers (Stands s) (onWord s f) := by
  unfold onWord
  split
  · trivial
  · exact .withM ..

theorem execMov_stands (n : BitVec 1) (d a : BitVec 8) (s : State) : Answers (Stands s) (execMov n d a s) := by
  unfold execMov
  split
  · exact onWord_stands ..
  · exact onWord_stands ..

theorem execModeChange_stands (mode : Nat) (s : State) : Answers (Stands s) (execModeChange mode s) := by
  unfold execModeChange
  split
  · exact .refl s
  · exact ⟨rfl, rfl, rfl⟩

/-! The sequencer runs words alone (R366). -/

theorem seqExec_stands (i : Instr) (s : State) : Answers (Stands s) (seqExec i s) := by
  unfold seqExec
  split
  on_goal -1 => exact .refl s
  all_goals exact onWord_stands ..

/-- The state in which a sequencer's word ends. -/
def SeqWord.state : SeqWord → State
  | .done t | .waits t | .fault t _ => t

theorem seqRun_stands (s : State) (ctx core : Nat) (w : Word) (i : Instr) : Stands s (seqRun s ctx core w i).state := by
  unfold seqRun
  dsimp only
  split
  · exact .refl s
  · exact .refl s
  · split
    next t e =>
      have there : Stands s t := (Stands.withM s _).trans ((seqExec_stands ..).next e)
      split
      · exact there.trans (.withM ..)
      · split
        · exact .withM ..
        · split <;> exact there.trans (.withM ..)
    · exact .refl s

theorem seqRun_ends {s : State} {ctx core : Nat} {w : Word} {i : Instr} {out : SeqWord} (h : seqRun s ctx core w i = out) : Stands s out.state :=
  h ▸ seqRun_stands ..

theorem sequencerStep_stands (ctx core : Nat) (s : State) : Answers (Stands s) (execSequencerStep ctx core s) := by
  unfold execSequencerStep
  dsimp only
  split <;> [exact .refl s; split]
  · exact .withM ..
  · split <;> [exact .refl s; split]
    · exact .refl s
    · split <;> [exact .withM ..; split]
      · exact .withM ..
      · split <;> [exact .withM ..; split]
        · exact .refl s
        · split <;> [exact .withM ..; split]
          next e => exact (seqRun_ends e).trans (.withM ..)
          next e => exact seqRun_ends e
          next e => exact (seqRun_ends e).trans (.withM ..)

theorem takeEntry_stands (s : State) (queue : Nat) (f : CmdQueue → List Byte → Mach → State) (h : ∀ q e m, Stands s (f q e m)) : Stands s (takeEntry s queue f) := by
  unfold takeEntry
  dsimp only
  split <;> [exact .refl s; split]
  · exact .withM ..
  · split
    · exact .withM ..
    · exact h ..

theorem loadStep_stands (s : State) (core gid : Nat) (lost : Bool) : Stands s (loadStep s core gid lost) := by
  unfold loadStep
  dsimp only
  repeat' split
  all_goals exact .below rfl

theorem storeLinkError_stands (s : State) (st : Store) : Stands s (storeLinkError s st) := by
  unfold storeLinkError
  dsimp only
  repeat' split
  all_goals exact .below rfl

theorem loadLinkError_stands (s : State) (core pos : Nat) (w : Warp) (p : Pend) : Stands s (loadLinkError s core pos w p) := .withM ..

theorem stopCopyLink_stands (s : State) (id : Nat) (c : Copy) : Stands s (stopCopyLink s id c) := by
  unfold stopCopyLink
  dsimp only
  repeat' split
  all_goals exact .below rfl

theorem stopGatherLink_stands (s : State) (id : Nat) (g : Gather) : Stands s (stopGatherLink s id g) := by
  unfold stopGatherLink
  dsimp only
  repeat' split
  all_goals exact .below rfl

theorem warpLinkError_stands (s : State) (core pos : Nat) (w : Warp) : Stands s (warpLinkError s core pos w) := by
  unfold warpLinkError
  dsimp only
  repeat' split
  all_goals exact .below rfl

theorem seqLinkError_stands (s : State) (ctx core : Nat) : Stands s (seqLinkError s ctx core) := by
  unfold seqLinkError
  dsimp only
  repeat' split
  all_goals exact .below rfl

theorem queueLinkError_stands (s : State) (queue which : Nat) : Stands s (queueLinkError s queue which) := by
  unfold queueLinkError
  dsimp only
  repeat' split
  all_goals exact .below rfl

theorem gridLinkError_stands (s : State) (grid : Nat) : Stands s (gridLinkError s grid) := by
  unfold gridLinkError
  dsimp only
  repeat' split
  all_goals exact .below rfl

theorem stepLinkError_stands (s : State) (gid core ctx slot : Nat) (f : FaultInfo) : Stands s (stepLinkError s gid core ctx slot f) := by
  unfold stepLinkError
  dsimp only
  split
  · exact .refl s
  · exact (loadStep_stands ..).trans (.withM ..)

theorem linkError_stands (warp op : Nat) (s : State) : Answers (Stands s) (execLinkError warp op s) := by
  unfold execLinkError
  show Stands s _
  split <;> [exact seqLinkError_stands ..; split]
  · exact queueLinkError_stands ..
  · split <;> [exact gridLinkError_stands ..; split]
    · exact storeLinkError_stands ..
    · exact stopCopyLink_stands ..
    · exact stopGatherLink_stands ..
    · split
      · split
        · exact stepLinkError_stands ..
        · exact .refl s
      · split
        · exact loadLinkError_stands ..
        · exact warpLinkError_stands ..

/-! Every word and step but those that change the division or a context. -/

/-- The words and steps that may change the division, or a context: SWR of HVEC, pre-emption and resumption, the resets and boot. -/
def changesDivision : Instr → Bool
  | .swr .. | .preemptionRequest .. | .contextResume .. | .coreReset .. | .packageReset | .boot => true
  | _ => false

theorem exec_stands (i : Instr) (h : changesDivision i = false) (s : State) : Answers (Stands s) (exec i s) := by
  cases i
  case swr | preemptionRequest | contextResume | coreReset | packageReset | boot => cases h
  case modeChange => exact execModeChange_stands ..
  case mov => exact execMov_stands ..
  case sequencerStep => exact sequencerStep_stands ..
  case linkError => exact linkError_stands ..
  case launch => exact takeEntry_stands _ _ _ (fun q e m => by split <;> exact .below rfl)
  case noOpCommand => exact takeEntry_stands _ _ _ (fun q e m => by split <;> exact .below rfl)
  case gridHandoff | unitPlacement | sliceDispatch | gridEnd | budgetExpiry | warpDisplacement | convergenceRelease | serialModeSwitch | handlerEntry | debuggerResume |
      sleepuWake | loadReturn | satchelFill | queueFedLoadWrite | storeFaultRecord | firstTouchMap | shootdown | copyRow | copyEnd | gatherBag | gatherQueuePush |
      gatherEnd | termStepFinish | gangArrayBind | achainRecord | acloseRecord | chainGrant | asendAnswer | accArrival | awaitAdd | wsRefreshWindow | injectionClaim |
      migrShip | migrTimeout | uncoreReset | eventRecord | storePerformed | eccError | queueRestart | eventRingSpace | hostAccess | podAccess | tail =>
    unfold exec
    simp only [Answers, execGridHandoff, execUnitPlacement, execSliceDispatch, execGridEnd, execBudgetExpiry, execWarpDisplacement, execConvergenceRelease, execSerialModeSwitch,
      execHandlerEntry, execDebuggerResume, execSleepuWake, execLoadReturn, execSatchelFill, execQueueFedLoadWrite, execStoreFaultRecord, execFirstTouchMap,
      execShootdown, execCopyRow, execCopyEnd, execGatherBag, execGatherQueuePush, execGatherEnd, execTermStepFinish, execGangArrayBind, execAchainRecord,
      execAcloseRecord, execChainGrant, execAsendAnswer, execAccArrival, execAwaitAdd, execWsRefreshWindow, execInjectionClaim, execMigrShip, execMigrTimeout,
      execUncoreReset, execEventRecord, execStorePerformed, execEccError, execQueueRestart, execEventRingSpace, execHostAccess, execPodAccess, execTail]
    repeat' split
    all_goals exact .below rfl
  all_goals exact onWord_stands ..

/-! Contexts that change keep what the division says of them. -/

theorem mget_madj {α : Type} (m : SMap α) (j k : Nat) (f : α → α) : mget (madj m k f) j = if j = k then (mget m k).map f else mget m j := by
  unfold madj
  split
  next v e => rw [mget_mset, e]; rfl
  next e =>
    split
    next h => rw [h, e]; rfl
    next => rfl

theorem eq_nil_of_mget {α : Type} {m : SMap α} (h : ∀ k, mget m k = none) : m = [] := by
  cases m with
  | nil => rfl
  | cons e m => exact absurd (h e.1) (by simp [mget])

/-- A context as `d` is still in its partition and bound to its function, and its HVEC is as clean as it was. -/
structure ContextKept (c d : Context) : Prop where
  partition : d.partition = c.partition
  function  : d.function = c.function
  hvec      : addressClean c.hvec = true → addressClean d.hvec = true

theorem ContextKept.refl (c : Context) : ContextKept c c := ⟨rfl, rfl, fun h => h⟩

/-- Boot and the partitions are as they were, and so are the contexts that remain, in what the division says of them. -/
structure Kept (s t : State) : Prop where
  boot       : t.boot = s.boot
  partitions : t.partitions = s.partitions
  contexts   : ∀ id d, mget t.contexts id = some d → ∃ c, mget s.contexts id = some c ∧ ContextKept c d

theorem Stands.kept {s t : State} (h : Stands s t) : Kept s t where
  boot := h.boot
  partitions := h.partitions
  contexts := fun _ d e => ⟨d, h.contexts ▸ e, .refl d⟩

theorem Kept.trans {s t u : State} (h : Kept s t) (k : Kept t u) : Kept s u where
  boot := k.boot.trans h.boot
  partitions := k.partitions.trans h.partitions
  contexts := fun id e he => by
    obtain ⟨d, hd, de⟩ := k.contexts id e he
    obtain ⟨c, hc, cd⟩ := h.contexts id d hd
    exact ⟨c, hc, de.partition.trans cd.partition, de.function.trans cd.function, de.hvec ∘ cd.hvec⟩

/-- The contexts after one of them has changed. -/
theorem kept_madj {s t : State} {id : Nat} {f : Context → Context} (boot : t.boot = s.boot) (partitions : t.partitions = s.partitions)
    (contexts : t.contexts = madj s.contexts id f) (h : ∀ c, ContextKept c (f c)) : Kept s t where
  boot := boot
  partitions := partitions
  contexts := fun j d e => by
    rw [contexts, mget_madj] at e
    split at e
    next here =>
      obtain ⟨c, hc, rfl⟩ := Option.map_eq_some_iff.1 e
      exact ⟨c, here ▸ hc, h c⟩
    next => exact ⟨d, e, .refl d⟩

/-- The contexts after one of them has been retired. -/
theorem kept_mdel {s t : State} {id : Nat} (boot : t.boot = s.boot) (partitions : t.partitions = s.partitions) (contexts : t.contexts = mdel s.contexts id) : Kept s t where
  boot := boot
  partitions := partitions
  contexts := fun j d e => by
    rw [contexts] at e
    by_cases here : j = id
    · rw [here, mget_mdel_same] at e
      cases e
    · rw [mget_mdel_other _ here] at e
      exact ⟨d, e, .refl d⟩

theorem addressClean_cleanAddr (v : DWord) : addressClean (cleanAddr v) = true := by
  simp [addressClean, cleanAddr, BitVec.and_assoc]

theorem writeHvec_kept (s : State) (ctx f : Nat) (v : Word) : Kept s (writeHvec s ctx f v) :=
  kept_madj rfl rfl rfl fun _ => ⟨rfl, rfl, fun _ => addressClean_cleanAddr _⟩

/-- Moves of the firmware and of pre-emption that change where a context runs, or whether it is debugged, and nothing else of it. -/
theorem adjCtx_kept (s : State) (id : Nat) (m : Mach) (f : Context → Context) (h : ∀ c, ContextKept c (f c)) : Kept s ((s.adjCtx id f).withM m) :=
  kept_madj rfl rfl rfl h

theorem retireCtx_kept (s : State) (ctx : Nat) (die : Option Nat) : Kept s (retireCtx s ctx die) := kept_mdel (id := ctx) rfl rfl rfl

theorem swr_kept (a f : BitVec 8) (s : State) : Answers (Kept s) (execSwr a f s) := by
  unfold execSwr
  split
  · trivial
  · split
    · exact (Stands.withM ..).kept
    · exact (Stands.withM ..).kept
    · split
      · exact (Stands.withM ..).kept
      · dsimp only
        split
        · exact (writeHvec_kept ..).trans (Stands.withM ..).kept
        · exact (Stands.withM ..).kept

theorem preemptionRequest_kept (ctx : Nat) (cores : List Nat) (s : State) : Answers (Kept s) (execPreemptionRequest ctx cores s) := by
  unfold execPreemptionRequest
  dsimp only
  split <;> [exact (Stands.refl s).kept; split]
  · exact adjCtx_kept _ _ s.m _ fun _ => ⟨rfl, rfl, fun h => h⟩
  · split
    · exact adjCtx_kept _ _ _ _ fun _ => ⟨rfl, rfl, fun h => h⟩
    · exact (Stands.refl s).kept

theorem contextResume_kept (ctx : Nat) (cores : List Nat) (s : State) : Answers (Kept s) (execContextResume ctx cores s) := by
  unfold execContextResume
  dsimp only
  split <;> [exact (Stands.refl s).kept; split]
  · exact (Stands.refl s).kept
  · exact adjCtx_kept _ _ _ _ fun _ => ⟨rfl, rfl, fun h => h⟩

theorem retired_kept (die : Option Nat) (gone : List Nat) (s : State) : Kept s (gone.foldl (fun t c => retireCtx t c die) s) := by
  induction gone generalizing s with
  | nil => exact (Stands.refl s).kept
  | cons c gone ih => exact (retireCtx_kept s c die).trans (ih _)

theorem coreReset_kept (die : Nat) (s : State) : Answers (Kept s) (execCoreReset die s) := (retired_kept ..).trans (Stands.withM ..).kept

/-! The invariant through what changes. -/

theorem firmwareInv_kept {s t : State} (h : Kept s t) (inv : FirmwareInv s) : FirmwareInv t := by
  obtain ⟨boot, partitions, contexts⟩ := h
  refine ⟨?_, ?_, ?_, ?_, ?_⟩
  · rw [partitions]; exact inv.partitions
  · rw [partitions]; exact inv.apart
  · intro id d hd
    obtain ⟨c, hc, kept⟩ := contexts id d hd
    obtain ⟨low, high, there, clean, function⟩ := inv.contexts id c hc
    exact ⟨low, high, by rw [partitions, kept.partition]; exact there, kept.hvec clean, by rw [kept.function]; exact function⟩
  · intro i j c d f hc hd fc fd nz
    obtain ⟨c', hc', keptC⟩ := contexts i c hc
    obtain ⟨d', hd', keptD⟩ := contexts j d hd
    rw [keptC.partition, keptD.partition]
    exact inv.functions i j c' d' f hc' hd' (keptC.function ▸ fc) (keptD.function ▸ fd) nz
  · intro off
    obtain ⟨none, noPartition⟩ := inv.idle (boot ▸ off)
    refine ⟨eq_nil_of_mget fun k => ?_, partitions.trans noPartition⟩
    cases e : mget t.contexts k with
    | none => rfl
    | some d =>
      obtain ⟨c, hc, -⟩ := contexts k d e
      rw [none] at hc
      cases hc

theorem firmwareInv_stands {s t : State} (h : Stands s t) (inv : FirmwareInv s) : FirmwareInv t := firmwareInv_kept h.kept inv

/-- A package without partitions and contexts. -/
theorem firmwareInv_empty {s : State} (partitions : s.partitions = []) (contexts : s.contexts = []) : FirmwareInv s where
  partitions := by simp [partitions]
  apart := by simp [partitions]
  contexts := by simp [contexts]
  functions := by simp [contexts]
  idle := fun _ => ⟨contexts, partitions⟩

theorem boot_keeps {s : State} (inv : FirmwareInv s) : Answers FirmwareInv (execBoot s) := by
  unfold execBoot
  split
  next off =>
    obtain ⟨contexts, partitions⟩ := inv.idle (by rw [off]; nofun)
    split <;> exact firmwareInv_empty partitions contexts
  next => exact inv

theorem packageReset_keeps (s : State) : Answers FirmwareInv (execPackageReset s) := firmwareInv_empty rfl rfl

/-- Every word and every step keeps the division. -/
theorem exec_keeps (i : Instr) {s : State} (inv : FirmwareInv s) : Answers FirmwareInv (exec i s) := by
  cases i
  case swr => exact (swr_kept ..).mono fun _ h => firmwareInv_kept h inv
  case preemptionRequest => exact (preemptionRequest_kept ..).mono fun _ h => firmwareInv_kept h inv
  case contextResume => exact (contextResume_kept ..).mono fun _ h => firmwareInv_kept h inv
  case coreReset => exact (coreReset_kept ..).mono fun _ h => firmwareInv_kept h inv
  case packageReset => exact packageReset_keeps s
  case boot => exact boot_keeps inv
  all_goals exact (exec_stands _ rfl s).mono fun _ h => firmwareInv_stands h inv

/-! The firmware's partitions and contexts (R397). -/

theorem apart_iff {a b : Nat × Nat} : apart a b = true ↔ a.1 + a.2 ≤ b.1 ∨ b.1 + b.2 ≤ a.1 := by simp [apart]

theorem mem_of_mget {α : Type} {m : SMap α} {k : Nat} {v : α} (h : mget m k = some v) : (k, v) ∈ m := by
  induction m with
  | nil => cases h
  | cons e m ih =>
    obtain ⟨k', v'⟩ := e
    unfold mget at h
    split at h
    next here => cases h; exact here ▸ List.mem_cons_self
    next => exact List.mem_cons_of_mem _ (ih h)

theorem eraseDups_length_le (l : List Nat) : l.eraseDups.length ≤ l.length := by
  induction h : l.length using Nat.strong_induction_on generalizing l with
  | _ n ih =>
    cases l with
    | nil => simp [← h]
    | cons a l =>
      have rest := List.length_filter_le (fun b => !b == a) l
      rw [List.eraseDups_cons, List.length_cons]
      have := ih _ (by simp only [List.length_cons] at h; omega) (l.filter (fun b => !b == a)) rfl
      simp only [List.length_cons] at h
      omega

/-- A list that loses nothing when its repeats are erased has none. -/
theorem nodup_of_eraseDups_length {l : List Nat} (h : l.eraseDups.length = l.length) : l.Nodup := by
  induction l with
  | nil => exact List.nodup_nil
  | cons a l ih =>
    rw [List.eraseDups_cons, List.length_cons, List.length_cons] at h
    have rest := List.length_filter_le (fun b => !b == a) l
    have erased := eraseDups_length_le (l.filter (fun b => !b == a))
    have all : ∀ b ∈ l, (!b == a) = true := List.length_filter_eq_length_iff.1 (by omega)
    rw [List.filter_eq_self.2 all] at h
    exact List.nodup_cons.2 ⟨fun there => by simpa using all a there, ih (by omega)⟩

/-- What two partitions of the division do not share. -/
structure KeepApart (p q : Partition) : Prop where
  clusters : ∀ c ∈ p.clusters, c ∉ q.clusters
  frames   : ∀ a ∈ p.frames, ∀ b ∈ q.frames, a.1 + a.2 ≤ b.1 ∨ b.1 + b.2 ≤ a.1
  windows  : p.wsLimit ≤ q.wsBase ∨ q.wsLimit ≤ p.wsBase

theorem KeepApart.symm {p q : Partition} (h : KeepApart p q) : KeepApart q p where
  clusters := fun c hq hp => h.clusters c hp hq
  frames := fun a ha b hb => (h.frames b hb a ha).symm
  windows := h.windows.symm

theorem keepApart_of_apart {p q : Partition} (h : p.apart q = true) (hp : p.wsBase ≤ p.wsLimit) (hq : q.wsBase ≤ q.wsLimit) : KeepApart p q := by
  simp only [Partition.apart, Bool.and_eq_true, List.all_eq_true, apart_iff, Bool.not_eq_true', List.contains_eq_mem, decide_eq_false_iff_not] at h
  obtain ⟨⟨clusters, frames⟩, windows⟩ := h
  exact ⟨fun c inP inQ => clusters c inQ inP, frames, by omega⟩

/-- What `partitionOk` lets the firmware set keeps to itself and apart from every other partition. -/
theorem partitionOk_spec {s : State} {n : Nat} {p : Partition} (h : partitionOk s n p = true) :
    (n < 18 ∧ 2 ≤ p.clusters.length ∧ p.clusters.Nodup ∧ (∀ c ∈ p.clusters, c < 36) ∧ (∀ r ∈ p.frames, (r.1 + r.2) * 4096 ≤ 0x6000000000)
      ∧ p.wsBase ≤ p.wsLimit ∧ p.wsLimit ≤ 192 * 2 ^ 20)
    ∧ ∀ k q, k ≠ n → mget s.partitions k = some q → p.apart q = true := by
  simp only [partitionOk, Bool.and_eq_true, decide_eq_true_eq, List.all_eq_true, Bool.or_eq_true, beq_iff_eq] at h
  obtain ⟨⟨⟨⟨⟨⟨⟨⟨number, two⟩, distinct⟩, inPackage⟩, frames⟩, window⟩, store⟩, others⟩, -⟩ := h
  exact ⟨⟨number, two, nodup_of_eraseDups_length distinct, inPackage, frames, window, store⟩, fun k q ne hq => (others _ (mem_of_mget hq)).resolve_left ne⟩

theorem setPartition_keeps {s : State} (inv : FirmwareInv s) (running : s.boot = .running) {n : Nat} {p : Partition} (ok : partitionOk s n p = true) :
    FirmwareInv { s with partitions := mset s.partitions n p } := by
  obtain ⟨own, others⟩ := partitionOk_spec ok
  have valid : ∀ k q, mget (mset s.partitions n p) k = some q → k = n ∧ p = q ∨ k ≠ n ∧ mget s.partitions k = some q := by
    intro k q hq
    rw [mget_mset] at hq
    split at hq
    next here => exact .inl ⟨here, Option.some.inj hq⟩
    next other => exact .inr ⟨other, hq⟩
  have new : ∀ k q, k ≠ n → mget s.partitions k = some q → KeepApart p q := by
    intro k q ne hq
    obtain ⟨-, -, -, -, -, window, -⟩ := own
    obtain ⟨-, -, -, -, -, theirs, -⟩ := inv.partitions k q hq
    exact keepApart_of_apart (others k q ne hq) window theirs
  refine ⟨?_, ?_, ?_, inv.functions, fun off => absurd running off⟩
  · intro k q hq
    obtain ⟨rfl, rfl⟩ | ⟨-, old⟩ := valid k q hq
    · exact own
    · exact inv.partitions k q old
  · intro j k q r ne hq hr
    obtain ⟨rfl, rfl⟩ | ⟨jn, oldQ⟩ := valid j q hq
    · obtain ⟨rfl, -⟩ | ⟨kn, oldR⟩ := valid k r hr
      · exact absurd rfl ne
      · obtain ⟨clusters, frames, windows⟩ := new k r kn oldR
        exact ⟨clusters, frames, windows⟩
    · obtain ⟨rfl, rfl⟩ | ⟨kn, oldR⟩ := valid k r hr
      · obtain ⟨clusters, frames, windows⟩ := (new j q jn oldQ).symm
        exact ⟨clusters, frames, windows⟩
      · exact inv.apart j k q r ne oldQ oldR
  · intro id c hc
    obtain ⟨low, high, there, rest⟩ := inv.contexts id c hc
    refine ⟨low, high, ?_, rest⟩
    rw [mget_mset]
    split
    · rfl
    · exact there

/-- What `contextOk` lets the firmware set: an id that none has, in a partition, bound to a function that serves no other. -/
theorem contextOk_spec {s : State} {id : Nat} {c : Context} (h : contextOk s id c = true) :
    1 ≤ id ∧ id ≤ 65535 ∧ (mget s.partitions c.partition).isSome = true
      ∧ ∀ f, c.function = some f → f ≤ 128 ∧ (f ≠ 0 → ∀ k d, mget s.contexts k = some d → d.function = some f → d.partition = c.partition) := by
  simp only [contextOk, functionOk, Bool.and_eq_true, decide_eq_true_eq, List.all_eq_true, Bool.or_eq_true, beq_iff_eq, bne_iff_ne, ne_eq, Option.all_eq_true] at h
  obtain ⟨⟨⟨⟨low, high⟩, -⟩, there⟩, function⟩ := h
  refine ⟨low, high, there, fun f hf => ?_⟩
  obtain ⟨bound, serves⟩ := function f hf
  exact ⟨bound, fun nz k d hd fd => ((serves.resolve_left nz).2 _ (mem_of_mget hd)).resolve_left (not_not_intro fd)⟩

theorem setContext_keeps {s : State} (inv : FirmwareInv s) (running : s.boot = .running) {id : Nat} {c : Context} (ok : contextOk s id c = true) :
    FirmwareInv { s with contexts := mset s.contexts id (newContext c) } := by
  obtain ⟨low, high, there, function⟩ := contextOk_spec ok
  have valid : ∀ k d, mget (mset s.contexts id (newContext c)) k = some d → k = id ∧ newContext c = d ∨ mget s.contexts k = some d := by
    intro k d hd
    rw [mget_mset] at hd
    split at hd
    next here => exact .inl ⟨here, Option.some.inj hd⟩
    next => exact .inr hd
  refine ⟨inv.partitions, inv.apart, ?_, ?_, fun off => absurd running off⟩
  · intro k d hd
    obtain ⟨rfl, rfl⟩ | old := valid k d hd
    · exact ⟨low, high, there, (by decide : addressClean 0 = true), fun f hf => (function f hf).1⟩
    · exact inv.contexts k d old
  · intro i j d e f hd he fd fe nz
    obtain ⟨rfl, rfl⟩ | oldD := valid i d hd
    · obtain ⟨rfl, rfl⟩ | oldE := valid j e he
      · rfl
      · exact ((function f fd).2 nz j e oldE fe).symm
    · obtain ⟨rfl, rfl⟩ | oldE := valid j e he
      · exact (function f fe).2 nz i d oldD fd
      · exact inv.functions i j d e f oldD oldE fd fe nz

/-! A warp's turn: what it tries to issue, with what the slot counts of it. -/

theorem tryGroup_keeps {s : State} (inv : FirmwareInv s) {core pos k : Nat} {hand : Bool} {a : Attempt} (h : tryGroup exec s core pos hand k = some a) :
    Answers FirmwareInv a.out := by
  have ran := fun (i : Instr) (m : Mach) => exec_keeps i (firmwareInv_stands (.withM s m) inv)
  unfold tryGroup at h
  split at h
  · cases h
  · cases h; exact firmwareInv_stands (.withM ..) inv
  next m i _ =>
    split at h
    next t e =>
      dsimp only at h
      split at h
      · cases h
      · cases h; exact firmwareInv_stands (.withM t _) ((ran i m).next e)
    next => cases h; exact ran i m

theorem tryFirst_keeps {s : State} (inv : FirmwareInv s) {core pos : Nat} {gs : List (Bool × Nat)} {e : Bool × Nat} {a : Attempt}
    (h : tryFirst exec s core pos gs = some (e, a)) : Answers FirmwareInv a.out := by
  induction gs with
  | nil => cases h
  | cons g gs ih =>
    unfold tryFirst at h
    split at h
    next b tried => cases h; exact tryGroup_keeps inv tried
    next => exact ih h

theorem countIdle_stands (run : Exec) (before : Warp) (issued : Bool × Nat) (core pos : Nat) (t : State) : Stands t (countIdle run before issued core pos t) := by
  unfold countIdle
  split <;> [exact .refl t; skip]
  dsimp only
  split <;> exact .withM ..

theorem tryWarp_keeps {s : State} (inv : FirmwareInv s) {core pos : Nat} {a : Attempt} (h : tryWarp exec s core pos = some a) : Answers FirmwareInv a.out := by
  unfold tryWarp at h
  split at h <;> [cases h; split at h]
  next e b first =>
    have kept := tryFirst_keeps inv first
    cases h
    split
    next t out => exact firmwareInv_stands ((countIdle_stands ..).trans (.withM ..)) (kept.next out)
    next => exact kept
  next =>
    obtain ⟨w, -, rfl⟩ := Option.map_eq_some_iff.1 h
    exact firmwareInv_stands (.withM ..) inv

theorem settleActive_stands (run : Exec) (s : State) (core pos : Nat) : Stands s (settleActive run s core pos) := by
  unfold settleActive
  dsimp only
  repeat' split
  all_goals exact .below rfl

theorem issueTurn_keeps {s : State} (inv : FirmwareInv s) (core pos : Nat) : Answers FirmwareInv (issueTurn exec s core pos) := by
  unfold issueTurn
  dsimp only
  split
  next => exact inv
  next there place =>
    have inv' : FirmwareInv there := by
      split at place <;> [cases place; split at place]
      · cases place; exact inv
      · split at place <;> cases place
        exact firmwareInv_stands (.withM ..) inv
    split
    next => split <;> [exact firmwareInv_stands (settleActive_stands ..) inv; exact inv]
    next a tried =>
      have kept := tryWarp_keeps inv' tried
      split <;> [exact inv; split]
      next t out =>
        have done := kept.next out
        refine firmwareInv_stands (settleActive_stands ..) ?_
        cases a.pipe exec there core pos with
        | none => exact done
        | some p => exact firmwareInv_stands (.withM ..) done
      next => exact kept

/-! Turns. -/

theorem agenda_stands (s : State) (rest : List Turn) (n : Nat) : Stands s { s with agenda := rest, turn := n } := ⟨rfl, rfl, rfl⟩
theorem flash_stands (s : State) (bytes : List Byte) : Stands s { s with flash := bytes } := ⟨rfl, rfl, rfl⟩

theorem readAgain_stands (s : State) (core pos op lane : Nat) : Stands s (readAgain s core pos op lane) := by
  unfold readAgain
  repeat' split
  all_goals exact .below rfl

theorem copyReadAhead_stands (s : State) (id word : Nat) (c : Copy) : Stands s (copyReadAhead s id word c) := by
  unfold copyReadAhead
  dsimp only
  split <;> exact .below rfl

theorem gatherReadAhead_stands (s : State) (id word : Nat) (g : Gather) : Stands s (gatherReadAhead s id word g) := by
  unfold gatherReadAhead
  split <;> [exact .refl s; split] <;> exact .below rfl

theorem engineRead_stands (s : State) (id word : Nat) : Stands s (engineRead s id word) := by
  unfold engineRead
  split
  · exact copyReadAhead_stands ..
  · exact gatherReadAhead_stands ..
  · exact .refl s

theorem copyWriteAhead_stands (s : State) (id word : Nat) (c : Copy) : Stands s (copyWriteAhead s id word c) := by
  unfold copyWriteAhead
  dsimp only
  repeat' split
  all_goals exact .below rfl

theorem gatherWriteAhead_stands (s : State) (id word : Nat) (g : Gather) : Stands s (gatherWriteAhead s id word g) := by
  unfold gatherWriteAhead
  dsimp only
  repeat' split
  all_goals exact .below rfl

theorem engineWrite_stands (s : State) (id word : Nat) : Stands s (engineWrite s id word) := by
  unfold engineWrite
  split
  · exact copyWriteAhead_stands ..
  · exact gatherWriteAhead_stands ..
  · exact .refl s

theorem storeWord_stands (s : State) (warp word : Nat) : Stands s (storeWord s warp word) := by
  unfold storeWord
  repeat' split
  all_goals exact .below rfl

theorem tickCounter_stands (s : State) : Stands s (tickCounter s) := by
  unfold tickCounter
  split <;> exact ⟨rfl, rfl, rfl⟩

theorem tick_stands (run : Exec) (s : State) : Stands s (tick run s) :=
  (Stands.withM ..).trans ((tickCounter_stands _).trans (.withM ..))

theorem runningTurn_keeps {s : State} (inv : FirmwareInv s) (running : s.boot = .running) (t : Turn) : Answers FirmwareInv (runningTurn exec t s) := by
  have stands : ∀ {u}, Stands s u → FirmwareInv u := fun h => firmwareInv_stands h inv
  cases t
  case issue core pos => exact issueTurn_keeps inv core pos
  case act i => exact exec_keeps i inv
  case tick => exact stands (tick_stands ..)
  case loadOperands => exact stands (loadStep_stands ..)
  case readAgain => exact stands (readAgain_stands ..)
  case engineRead => exact stands (engineRead_stands ..)
  case engineWrite => exact stands (engineWrite_stands ..)
  case storeWord => exact stands (storeWord_stands ..)
  case setPartition n p =>
    unfold runningTurn
    dsimp only
    split
    next ok => exact setPartition_keeps inv running ok
    next => exact inv
  case setContext id c =>
    unfold runningTurn
    dsimp only
    split
    next ok => exact setContext_keeps inv running ok
    next => exact inv
  case setDebug id on => exact firmwareInv_kept (adjCtx_kept s id s.m _ fun _ => ⟨rfl, rfl, fun h => h⟩) inv
  case retireContext id => exact firmwareInv_kept (retireCtx_kept ..) inv
  case fetchAhead | fillL1 | setQueue | setRing | setPodSlot | setWindow | setIommu =>
    unfold runningTurn
    dsimp only
    split <;> exact stands ⟨rfl, rfl, rfl⟩
  all_goals exact stands ⟨rfl, rfl, rfl⟩

theorem idleTurn_keeps {s : State} (inv : FirmwareInv s) (t : Turn) : Answers FirmwareInv (idleTurn exec t s) := by
  unfold idleTurn
  split
  · exact boot_keeps inv
  · exact packageReset_keeps s
  · exact firmwareInv_stands (tick_stands ..) inv
  · split
    · exact firmwareInv_stands (flash_stands ..) inv
    · exact inv
  · exact inv

theorem takeTurn_keeps {s : State} (inv : FirmwareInv s) (t : Turn) : Answers FirmwareInv (takeTurn exec t s) := by
  unfold takeTurn
  split
  next running => exact runningTurn_keeps inv running t
  next => exact idleTurn_keeps inv t

/-- Settles O58: whatever the turn does, it leaves the division as it stands, or changes it as the firmware may. -/
theorem firmwareInvariantKept : Obligations.FirmwareInvariantKept := by
  intro s t inv stepped
  unfold step at stepped
  split at stepped
  · exact (takeTurn_keeps (firmwareInv_stands (agenda_stands ..) inv) _).next stepped
  · exact (takeTurn_keeps (firmwareInv_stands (agenda_stands ..) inv) _).next stepped

end Sys2Proof.Machine
end

section
/-! SUPPORT. What reads and writes of physical memory leave (R108, R130, R131): L2 and the poison masks of sectors move, and a write changes the bytes that it names. -/

namespace Sys2Proof.Machine

/-! L2 takes sectors in, and makes room. -/

/-- A MACHINE AFTER L2 HAS TAKEN SECTORS IN: beside what L2 holds and the masks of poisoned sectors nothing has moved, and the same sectors are poisoned. -/
structure Cached (m m' : Mach) : Prop where
  rest   : { m' with l2 := m.l2, poison := m.poison } = m
  poison : ∀ sec, (mget m'.poison sec).isSome = (mget m.poison sec).isSome

theorem Cached.refl (m : Mach) : Cached m m := ⟨rfl, fun _ => rfl⟩

theorem Cached.trans {m n o : Mach} (h : Cached m n) (k : Cached n o) : Cached m o where
  rest := by
    calc { o with l2 := m.l2, poison := m.poison }
      _ = { ({ o with l2 := n.l2, poison := n.poison } : Mach) with l2 := m.l2, poison := m.poison } := rfl
      _ = m := by rw [k.rest, h.rest]
  poison := fun sec => (k.poison sec).trans (h.poison sec)

theorem Cached.foldl {α : Type} (g : Mach → α → Mach) (h : ∀ m a, Cached m (g m a)) (l : List α) (m : Mach) : Cached m (l.foldl g m) := by
  induction l generalizing m with
  | nil => exact .refl m
  | cons a l ih => exact (h m a).trans (ih _)

theorem Cached.mem {m m' : Mach} (h : Cached m m') : m'.mem = m.mem := by
  have := congrArg Mach.mem h.rest
  exact this

theorem Cached.readOnly {m m' : Mach} (h : Cached m m') : ReadOnly m m' where
  rest := by
    calc { m' with l2 := m.l2, poison := m.poison, late := m.late, rels := m.rels }
      _ = { ({ m' with l2 := m.l2, poison := m.poison } : Mach) with late := m.late, rels := m.rels } := rfl
      _ = m := by rw [h.rest]
  poison := h.poison
  late := fun w hw => congrArg Mach.late h.rest ▸ hw

theorem cached_evictSector (m : Mach) (sec : Nat) : Cached m (evictSector m sec) where
  rest := rfl
  poison := fun k => by
    rw [evictSector, mget_madj]
    split
    next here => rw [here, Option.isSome_map]
    next => rfl

theorem cached_setSector (m : Mach) (sec : Nat) (x : L2Sector) : Cached m (setSector m sec x) := by
  have put : ∀ n : Mach, Cached n { n with l2 := mset n.l2 sec x } := fun n => ⟨rfl, fun _ => rfl⟩
  unfold setSector
  dsimp only
  split
  · split
    · exact (cached_evictSector ..).trans (put _)
    · exact put m
  · exact put m

theorem cached_fillL2 (m : Mach) (pa n : Nat) : Cached m (fillL2 m pa n) :=
  .foldl _ (fun m sec => by dsimp only; split <;> [exact .refl m; exact cached_setSector ..]) _ m

theorem cached_fillWalk (m : Mach) (reads : List Nat) : Cached m (fillWalk m reads) :=
  .foldl _ (fun m a => by split <;> [exact cached_fillL2 ..; exact .refl m]) _ m

theorem cached_wroteL2 (m : Mach) (pa : Nat) (bs : List (Option Byte)) : Cached m (wroteL2 m pa bs) :=
  .foldl _ (fun m p => by unfold wroteSector; dsimp only; split <;> [exact .refl m; exact cached_setSector ..]) _ m

/-! A write in memory. -/

/-- An address of memory: HBM, host, root-port or pod. -/
def InMemory (s : State) (pa : Nat) : Prop := (∀ q off, paClass s pa ≠ .queuePage q off) ∧ paClass s pa ≠ .registers ∧ paClass s pa ≠ .reserved

/-- A MACHINE AFTER A WRITE HAS BEEN PUT IN ITS PLACE in memory: beside the named bytes, L2 and poison, nothing has moved. -/
structure Placed (m m' : Mach) (key : Nat) (bs : List (Option Byte)) : Prop where
  rest : { m' with mem := m.mem, l2 := m.l2, poison := m.poison } = m
  mem  : m'.mem = putBytes m.mem key bs

theorem Placed.late {m m' : Mach} {key : Nat} {bs : List (Option Byte)} (h : Placed m m' key bs) : m'.late = m.late := by
  have := congrArg Mach.late h.rest
  exact this

theorem Placed.touches {m m' : Mach} {key : Nat} {bs : List (Option Byte)} (h : Placed m m' key bs) : m'.touches = m.touches := by
  have := congrArg Mach.touches h.rest
  exact this

theorem Placed.cores {m m' : Mach} {key : Nat} {bs : List (Option Byte)} (h : Placed m m' key bs) : m'.cores = m.cores := by
  have := congrArg Mach.cores h.rest
  exact this

theorem memKey_hbm {s : State} {pa die : Nat} (h : paClass s pa = .hbm die) : memKey s pa = pa := by simp only [memKey, h]

theorem writePlace_placed {s : State} {pa : Nat} (h : InMemory s pa) (m : Mach) (bs : List (Option Byte)) (cached : Bool) :
    Placed m (writePlace s m pa bs cached) (memKey s pa) bs := by
  obtain ⟨noQueue, noRegister, inRange⟩ := h
  unfold writePlace
  dsimp only
  split
  next e => exact absurd e (noQueue _ _)
  next e => exact absurd e noRegister
  next e => exact absurd e inRange
  next e =>
    have wrote := cached_wroteL2 { m with mem := putBytes m.mem pa bs } pa bs
    rw [memKey_hbm e]
    split
    · exact ⟨congrArg (fun n : Mach => { n with mem := m.mem, l2 := m.l2, poison := m.poison }) wrote.rest, wrote.mem⟩
    · exact ⟨rfl, rfl⟩
  next => exact ⟨rfl, rfl⟩

theorem settleLate_eq (m : Mach) (p : Late → Bool) : ∃ late rels, settleLate m p = { m with late := late, rels := rels } := by
  unfold settleLate
  split
  · exact ⟨m.late, [], rfl⟩
  · exact ⟨_, _, rfl⟩

/-- A write that every agent sees at once (R303): memory and first-touch requests after it. -/
theorem writePa_memory {s : State} {pa : Nat} (h : InMemory s pa) (m : Mach) (bs : List (Option Byte)) :
    (writePa s m pa bs).mem = putBytes m.mem (memKey s pa) bs ∧ (writePa s m pa bs).touches = m.touches := by
  unfold writePa
  obtain ⟨late, rels, e⟩ := settleLate_eq m (fun w => w.overlaps pa bs)
  rw [e]
  have placed := writePlace_placed h { m with late := late, rels := rels.filter (fun t => !(pa ≤ t.pa && t.pa + t.len ≤ pa + bs.length)) } bs true
  exact ⟨placed.mem, placed.touches⟩

/-! Entries of the page tables, written and read. -/

theorem putBytes_some (bs : List Byte) (m : SMap Byte) (a : Nat) : putBytes m a (bs.map some) = writeBytes m a bs := by
  induction bs generalizing m a with
  | nil => rfl
  | cons b bs ih => exact ih ..

theorem readBytes_eq_map (m : SMap Byte) (a n : Nat) : readBytes m a n = (List.range n).map (fun i => readByte m (a + i)) := by
  induction n generalizing a with
  | zero => rfl
  | succ n ih =>
    rw [readBytes, ih, List.range_succ_eq_map, List.map_cons, List.map_map, Nat.add_zero]
    exact congrArg _ (List.map_congr_left fun i _ => by rw [Function.comp_apply, Nat.succ_eq_add_one, Nat.add_assoc, Nat.add_comm 1])

theorem length_natToBytes (n x : Nat) : (natToBytes n x).length = n := by
  induction n generalizing x with
  | zero => rfl
  | succ n ih => rw [natToBytes, List.length_cons, ih]

theorem bytesToNat_natToBytes (n x : Nat) : bytesToNat (natToBytes n x) = x % 256 ^ n := by
  induction n generalizing x with
  | zero => simp [natToBytes, bytesToNat, Nat.mod_one]
  | succ n ih =>
    rw [natToBytes, bytesToNat, ih, BitVec.toNat_ofNat, Nat.mod_mod, Nat.pow_succ' (n := n), Nat.mod_mul]

theorem readBytes_writeBytes (bs : List Byte) (m : SMap Byte) (a : Nat) : readBytes (writeBytes m a bs) a bs.length = bs := by
  rw [readBytes_eq_map]
  refine List.ext_getElem (by simp) fun i _ h => ?_
  rw [List.getElem_map, List.getElem_range, readByte_writeBytes_inside bs m a i h]
  rw [List.getD_eq_getElem?_getD, List.getElem?_eq_getElem h, Option.getD_some]

/-- An entry written is the entry read (R114). -/
theorem readPte_writePte {s : State} {a : Nat} (h : InMemory s a) (m : Mach) (e : DWord) : readPte s (writePte s m a e) a = e := by
  have len := length_natToBytes 8 e.toNat
  have read := readBytes_writeBytes (natToBytes 8 e.toNat) m.mem (memKey s a)
  rw [len] at read
  rw [readPte, writePte, (writePa_memory h m _).1, putBytes_some, read, bytesToNat_natToBytes]
  exact BitVec.eq_of_toNat_eq (by rw [BitVec.toNat_ofNat]; have := e.isLt; omega)

theorem readByte_writePte {s : State} {a : Nat} (h : InMemory s a) (m : Mach) (e : DWord) (k : Nat) (out : k < memKey s a ∨ memKey s a + 8 ≤ k) :
    readByte (writePte s m a e).mem k = readByte m.mem k := by
  rw [writePte, (writePa_memory h m _).1, readByte_putBytes_outside]
  simpa only [List.length_map, length_natToBytes] using out

theorem touches_writePte {s : State} {a : Nat} (h : InMemory s a) (m : Mach) (e : DWord) : (writePte s m a e).touches = m.touches := (writePa_memory h m _).2

end Sys2Proof.Machine
end

section
/-! SUPPORT. Translation, shootdown and errors (R108, R113 to R118, R131, R396). -/

namespace Sys2Proof.Machine

/-! Walks. -/

theorem walkLeaf_leaf {bad : Option Nat} {l k : Leaf} (h : walkLeaf bad l = .leaf k) : k = l := by
  unfold walkLeaf at h
  split at h <;> cases h
  rfl

/-- The leaf that a walk finds is the entry that stands there. -/
theorem walkFrom_leaf {s : State} {m : Mach} {va : Nat} {l : Leaf} (level : Nat) {bad : Option Nat} {table : Nat} (h : walkFrom s m va bad level table = .leaf l) :
    l.pte = readPte s m l.at_ := by
  induction level generalizing bad table with
  | zero =>
    unfold walkFrom at h
    dsimp only at h
    split at h <;> [skip; split at h] <;> [skip; split at h; skip]
    · rw [walkLeaf_leaf h]
    · cases h
    · cases h
    · rw [walkLeaf_leaf h]
  | succ level ih =>
    unfold walkFrom at h
    dsimp only at h
    split at h <;> [split at h; split at h]
    · cases h
    · cases h
    · rw [walkLeaf_leaf h]
    · exact ih h

theorem mem_tlbFill (m : Mach) (t : TlbEntry) (core : Nat) (eng : Bool) : (tlbFill m t core eng).mem = m.mem := by
  unfold tlbFill
  split <;> rfl

theorem readPte_congr {s : State} {m n : Mach} (h : n.mem = m.mem) (a : Nat) : readPte s n a = readPte s m a := by rw [readPte, readPte, h]

/-- An entry brought to a value, written only where it holds another. -/
theorem readPte_brought {s : State} {m : Mach} {a : Nat} {old new : DWord} (there : old = readPte s m a) (mem : InMemory s a) :
    readPte s (if new = old then m else writePte s m a new) a = new
      ∧ ∀ k, (k < memKey s a ∨ memKey s a + 8 ≤ k) → readByte (if new = old then m else writePte s m a new).mem k = readByte m.mem k := by
  split
  next same => exact ⟨there.symm.trans same.symm, fun _ _ => rfl⟩
  next => exact ⟨readPte_writePte mem m new, readByte_writePte mem m new⟩

/-- The bits that an access sets in a leaf's entry: A, and D for a write (R114). -/
theorem marked_bits (e : DWord) (w : Bool) :
    (e ||| (if w then 0xC0 else 0x40)).getLsbD 6 = true ∧ (w = true → (e ||| (if w then 0xC0 else 0x40)).getLsbD 7 = true) := by
  cases w <;> simp

/-- A walk reads memory alone. -/
theorem walkFrom_congr {s : State} {m n : Mach} (h : n.mem = m.mem) (va level : Nat) (bad : Option Nat) (table : Nat) :
    walkFrom s n va bad level table = walkFrom s m va bad level table := by
  induction level generalizing bad table with
  | zero => simp only [walkFrom, readPte_congr h]
  | succ level ih => simp only [walkFrom, readPte_congr h, ih]

/-- A walk's leaf that lets the access through: A is set, D for a write, and nothing else of memory changes (R114). -/
theorem walkDone_sets {s : State} {m : Mach} {ctx core va : Nat} {acc : Access} {eng : Bool} {l : Leaf} (ps : List WalkEntry)
    (there : l.pte = readPte s m l.at_) (mem : InMemory s l.at_)
    (passes : leafCheck s ctx acc l.level l.pte (pteFrame l.pte + va % leafSize l.level l.pte) va = none) :
    ∃ t n, walkDone s m ctx core va acc eng l ps = .ok t n ∧ t.pa = pteFrame l.pte + va % leafSize l.level l.pte
      ∧ (readPte s n l.at_).getLsbD 6 = true ∧ (acc.writes = true → (readPte s n l.at_).getLsbD 7 = true)
      ∧ ∀ a, (a < memKey s l.at_ ∨ memKey s l.at_ + 8 ≤ a) → readByte n.mem a = readByte m.mem a := by
  obtain ⟨read, frame⟩ := readPte_brought (new := l.pte ||| (if acc.writes then 0xC0 else 0x40)) there mem
  obtain ⟨a, d⟩ := marked_bits l.pte acc.writes
  have done : ∃ n, walkDone s m ctx core va acc eng l ps = .ok (leafXlat l.level l.pte va) n
      ∧ n.mem = (if (l.pte ||| (if acc.writes then 0xC0 else 0x40)) = l.pte then m else writePte s m l.at_ (l.pte ||| (if acc.writes then 0xC0 else 0x40))).mem := by
    unfold walkDone
    simp only [leafXlat, passes]
    exact ⟨_, rfl, mem_tlbFill ..⟩
  obtain ⟨n, ok, same⟩ := done
  rw [← readPte_congr same] at read
  exact ⟨_, n, ok, rfl, read ▸ a, read ▸ d, same ▸ frame⟩

theorem translate_walks {s : State} {ctx core : Nat} {va : DWord} {acc : Access} (range : va.toNat < 2 ^ 48) (miss : tlbHit s.m ctx core va.toNat = none) :
    translate s s.m ctx core va acc = walkVa s s.m ctx core va.toNat acc true false := by
  simp only [translate, ge_iff_le, Nat.not_le.2 range, if_false, miss]

/-- R113, R114: a walk for an access that its leaf permits. -/
theorem walk_sets_bits {s : State} {ctx core : Nat} {va : DWord} {acc : Access} {l : Leaf} (range : va.toNat < 2 ^ 48) (miss : tlbHit s.m ctx core va.toNat = none)
    (found : walkFrom s s.m va.toNat none (walkStart s.m (dieOf core) ctx va.toNat (s.ctx ctx).ptbase).1 (walkStart s.m (dieOf core) ctx va.toNat (s.ctx ctx).ptbase).2 = .leaf l)
    (mem : InMemory s l.at_) (passes : leafCheck s ctx acc l.level l.pte (pteFrame l.pte + va.toNat % leafSize l.level l.pte) va.toNat = none) :
    ∃ t m, translate s s.m ctx core va acc = .ok t m ∧ t.pa = pteFrame l.pte + va.toNat % leafSize l.level l.pte
      ∧ (readPte s m l.at_).getLsbD 6 = true ∧ (acc.writes = true → (readPte s m l.at_).getLsbD 7 = true)
      ∧ ∀ a, (a < memKey s l.at_ ∨ memKey s l.at_ + 8 ≤ a) → readByte m.mem a = readByte s.m.mem a := by
  rw [translate_walks range miss, walkVa]
  generalize walkStart s.m (dieOf core) ctx va.toNat (s.ctx ctx).ptbase = start at found ⊢
  have filled := (cached_fillWalk s.m (walkReads s s.m va.toNat start.1 start.2)).mem
  have walked : walkFrom s (fillWalk s.m (walkReads s s.m va.toNat start.1 start.2)) va.toNat none start.1 start.2 = .leaf l := (walkFrom_congr filled ..).trans found
  rw [walked]
  have there := (walkFrom_leaf _ found).trans (readPte_congr filled l.at_).symm
  exact filled ▸ walkDone_sets _ there mem passes

theorem walk_bad_faults {s : State} {ctx core : Nat} {va : DWord} {acc : Access} {level d : Nat} (range : va.toNat < 2 ^ 48) (miss : tlbHit s.m ctx core va.toNat = none)
    (found : walkFrom s s.m va.toNat none (walkStart s.m (dieOf core) ctx va.toNat (s.ctx ctx).ptbase).1 (walkStart s.m (dieOf core) ctx va.toNat (s.ctx ctx).ptbase).2
      = .bad level d) :
    ∃ m, ReadOnly s.m m ∧ translate s s.m ctx core va acc = .fault { cause := acc.missing, detail := BitVec.ofNat 8 (16 * level + d), addr := va.setWidth 48 } m := by
  rw [translate_walks range miss, walkVa]
  generalize walkStart s.m (dieOf core) ctx va.toNat (s.ctx ctx).ptbase = start at found ⊢
  have filled := cached_fillWalk s.m (walkReads s s.m va.toNat start.1 start.2)
  rw [walkFrom_congr filled.mem, found]
  exact ⟨_, filled.readOnly, by simp only [mkFault, Nat.mul_comm 16]; rfl⟩

/-! First touch (R113). -/

/-- The attributes that a first touch keeps, field by field and under their mask. -/
theorem attributes_masked : ∀ a b : Fin 64,
    (64 * a.val + b.val) / 2 % 2 * 2 + b.val / 4 * 4 + (64 * a.val + b.val) / 512 * 512 + 1 = ((64 * a.val + b.val) &&& 0xE3E) ||| 1 := by decide +kernel

/-- The entry that the manager makes: the frame, the old entry's attributes, V = 1, A and D clear. -/
theorem touchEntry_eq (e : DWord) {frame : Nat} (h : frame < 2 ^ 40) :
    (BitVec.ofNat 64 ((e.toNat % 4096) / 2 % 2 * 2 + (e.toNat % 64) / 4 * 4 + (e.toNat % 4096) / 512 * 512 + 1 + frame * 4096) : DWord)
      = (BitVec.ofNat 64 frame <<< 12) ||| (e &&& 0xE3E) ||| 1 := by
  have attributes := attributes_masked ⟨e.toNat % 4096 / 64, by omega⟩ ⟨e.toNat % 64, by omega⟩
  have masked : e.toNat % 4096 &&& 0xE3E = e.toNat &&& 0xE3E := by
    rw [show 4096 = 2 ^ 12 by rfl, ← Nat.and_two_pow_sub_one_eq_mod, Nat.and_assoc]; rfl
  have small : (e.toNat &&& 0xE3E) ||| 1 < 2 ^ 12 := Nat.or_lt_two_pow (Nat.and_lt_two_pow _ (by decide)) (by decide)
  simp only [show 64 * (e.toNat % 4096 / 64) + e.toNat % 64 = e.toNat % 4096 by omega, masked] at attributes
  have joined := Nat.two_pow_add_eq_or_of_lt small frame
  refine BitVec.eq_of_toNat_eq ?_
  simp only [attributes, BitVec.toNat_ofNat, BitVec.toNat_or, BitVec.toNat_and, BitVec.toNat_shiftLeft, Nat.shiftLeft_eq, Nat.or_assoc]
  rw [Nat.mod_eq_of_lt (by omega : frame < 2 ^ 64), Nat.mod_eq_of_lt (by omega : frame * 2 ^ 12 < 2 ^ 64), Nat.mod_eq_of_lt (by omega), Nat.add_comm, Nat.mul_comm frame,
    Nat.mul_comm frame]
  exact joined

theorem firstTouchMap_maps {s : State} {request frame : Nat} {t : TouchRequest} (there : mget s.m.touches request = some t) (stands : readPte s s.m t.leafAt = t.pte)
    (absent : t.pte.getLsbD 0 = false) (leaf : t.pte.getLsbD 2 = true) (single : t.pte.getLsbD 9 = false) (level : t.level = 0) (mem : InMemory s t.leafAt)
    (fits : frame < 2 ^ 40) (formed : pteMalformed 0 (((BitVec.ofNat 64 frame <<< 12) ||| (t.pte &&& 0xE3E) ||| 1) &&& 0xFFF) = false)
    (owned : ∃ r ∈ (s.partitionOf t.ctx).frames, r.1 ≤ frame ∧ frame < r.1 + r.2) (hbm : homeDie (frame * 4096) < 2)
    (home : t.die < 2 → homeDie (frame * 4096) = t.die) :
    ∃ u, exec (.firstTouchMap request frame) s = .next u ∧ readPte s u.m t.leafAt = (BitVec.ofNat 64 frame <<< 12) ||| (t.pte &&& 0xE3E) ||| 1
      ∧ u.m.touches = mdel s.m.touches request
      ∧ ∀ a, (a < memKey s t.leafAt ∨ memKey s t.leafAt + 8 ≤ a) → readByte u.m.mem a = readByte s.m.mem a := by
  have entry := touchEntry_eq t.pte fits
  have one : ((BitVec.ofNat 64 frame <<< 12) ||| (t.pte &&& 0xE3E) ||| 1 : DWord).getLsbD 9 = false := by simpa using single
  generalize ((BitVec.ofNat 64 frame <<< 12) ||| (t.pte &&& 0xE3E) ||| 1 : DWord) = made at formed entry one ⊢
  have target : t.target = t.leafAt := by simp only [TouchRequest.target, pteBit, single, Bool.false_eq_true, and_false, if_false]
  have size : leafSize 0 made = 4096 := by simp only [leafSize, pteBit, one, Bool.false_eq_true, if_false]
  have last : (frame * 4096 + 4096 - 1) / 4096 = frame := by omega
  have lastHome : homeDie (frame * 4096 + 4096 - 1) = homeDie (frame * 4096) := by
    have low : frame * 4096 + 4096 - 1 < 0x3000000000 ↔ frame * 4096 < 0x3000000000 := by omega
    have high : frame * 4096 + 4096 - 1 < 0x6000000000 ↔ frame * 4096 < 0x6000000000 := by omega
    simp only [homeDie, low, high]
  have own : (s.partitionOf t.ctx).frames.any (fun r => decide (r.1 ≤ frame) && decide (frame < r.1 + r.2)) = true := by
    obtain ⟨r, hr, low, high⟩ := owned
    exact List.any_eq_true.2 ⟨r, hr, by simp [low, high]⟩
  have homed : if t.die < 2 then homeDie (frame * 4096) = t.die ∧ homeDie (frame * 4096) = t.die else homeDie (frame * 4096) < 2 ∧ homeDie (frame * 4096) < 2 := by
    split
    next near => exact ⟨home near, home near⟩
    next => exact ⟨hbm, hbm⟩
  refine ⟨s.withM { writePte s s.m t.leafAt made with touches := mdel (writePte s s.m t.leafAt made).touches request }, ?_, ?_, ?_, ?_⟩
  · rw [exec_firstTouchMap, execFirstTouchMap]
    simp only [there, entry, target, stands, level, size, last, lastHome, own, formed, pteBit, absent, leaf, homed, ne_eq, not_true_eq_false, Bool.false_and, Bool.false_eq_true, Bool.not_true,
      Bool.or_false, or_self, if_false, if_true, true_and, Nat.mul_mod_left]
  · exact (readPte_congr rfl _).trans (readPte_writePte mem s.m made)
  · exact congrArg (mdel · request) (touches_writePte mem s.m made)
  · exact readByte_writePte mem s.m made

/-! Shootdown (R118). -/

theorem mget_map {α β : Type} (f : α → β) (m : SMap α) (k : Nat) : mget (m.map (fun e => (e.1, f e.2))) k = (mget m k).map f := by
  induction m with
  | nil => rfl
  | cons e m ih =>
    rw [List.map_cons, mget, mget, ih]
    split <;> rfl

/-- A core whose warps' loads of a context are read no later. -/
def fixedLoads (ctx : Nat) (c : Core) : Core := { c with warps := c.warps.map (fun e => (e.1, if e.2.ctx = ctx then e.2.fixLoads else e.2)) }

/-- The machine after a shootdown that may take place. -/
def shotDown (m : Mach) (ctx : Nat) (va : DWord) : Mach :=
  { m with cores := m.cores.map (fun c => (c.1, fixedLoads ctx c.2))
           tlb := m.tlb.filter (fun e => !(e.ctx == ctx && e.base ≤ va.toNat && va.toNat < e.base + e.size))
           walks := m.walks.filter (fun e => !(e.ctx == ctx && e.index == va.toNat / 2 ^ (12 + 9 * e.level))) }

theorem core_shotDown (m : Mach) (ctx : Nat) (va : DWord) (k : Nat) : (shotDown m ctx va).core k = fixedLoads ctx (m.core k) := by
  unfold shotDown Mach.core mgetD
  rw [mget_map]
  cases mget m.cores k <;> rfl

/-- A shootdown takes place once the context's stores are performed and none of its atomics is half performed. -/
theorem shootdown_next {s : State} {ctx : Nat} (va : DWord) (drained : s.m.stores.all (fun st => st.ctx ≠ ctx) = true)
    (whole : ∀ e ∈ s.m.allWarps, e.2.2.ctx = ctx → ∀ g ∈ e.2.2.groups ++ e.2.2.hgroups, ∀ r, g.run = some r → ∀ a k ps os, r.wait ≠ .halves a k ps os) :
    exec (.shootdown ctx va) s = .next (s.withM (shotDown s.m ctx va)) := by
  have noStores : s.m.stores.any (fun st => st.ctx == ctx) = false := by simpa [List.all_eq_true] using drained
  rw [exec_shootdown, execShootdown]
  dsimp only
  rw [if_neg]
  · rfl
  rw [noStores, Bool.false_or, List.any_eq_true]
  rintro ⟨e, he, half⟩
  rw [Bool.and_eq_true, beq_iff_eq, List.any_eq_true] at half
  obtain ⟨here, g, hg, some⟩ := half
  obtain ⟨r, hr, wait⟩ := (Option.any_eq_true _ _).1 some
  split at wait
  next a k ps os e' => exact whole e he here g hg r hr a k ps os e'
  next => cases wait

theorem shootdown_drops {s : State} {ctx : Nat} (va : DWord) (drained : s.m.stores.all (fun st => st.ctx ≠ ctx) = true)
    (whole : ∀ e ∈ s.m.allWarps, e.2.2.ctx = ctx → ∀ g ∈ e.2.2.groups ++ e.2.2.hgroups, ∀ r, g.run = some r → ∀ a k ps os, r.wait ≠ .halves a k ps os) :
    ∃ u, exec (.shootdown ctx va) s = .next u ∧ u = s.withM { s.m with tlb := u.m.tlb, walks := u.m.walks, cores := u.m.cores }
      ∧ (∀ core pos, u.m.warp? core pos = (s.m.warp? core pos).map (fun w => if w.ctx = ctx then w.fixLoads else w))
      ∧ (∀ core, coreRest (u.m.core core) = coreRest (s.m.core core))
      ∧ (∀ e, e ∈ u.m.tlb ↔ e ∈ s.m.tlb ∧ ¬(e.ctx = ctx ∧ e.base ≤ va.toNat ∧ va.toNat < e.base + e.size))
      ∧ (∀ e, e ∈ u.m.walks ↔ e ∈ s.m.walks ∧ ¬(e.ctx = ctx ∧ e.index = va.toNat / 2 ^ (12 + 9 * e.level))) := by
  refine ⟨s.withM (shotDown s.m ctx va), shootdown_next va drained whole, rfl, fun core pos => ?_, fun core => ?_, fun e => ?_, fun e => ?_⟩
  · rw [Mach.warp?, withM_m, core_shotDown]
    exact mget_map (fun (w : Warp) => if w.ctx = ctx then w.fixLoads else w) ..
  · rw [withM_m, core_shotDown]
    rfl
  · simp only [shotDown, withM_m, List.mem_filter, Bool.not_eq_true', ← Bool.not_eq_true, Bool.and_eq_true, beq_iff_eq, decide_eq_true_eq, and_assoc]
  · simp only [shotDown, withM_m, List.mem_filter, Bool.not_eq_true', ← Bool.not_eq_true, Bool.and_eq_true, beq_iff_eq]

/-! Errors (R108, R131). -/

theorem eccError_hbm {s : State} {addr : Nat} (hbm : addr < 0x6000000000) :
    exec (.eccError addr true) s = .next (s.withM (if (s.m.l2At (addr / 32)).wmask = 0xFF then s.m
      else { s.m with poison := mset s.m.poison (addr / 32) ((s.m.l2At (addr / 32)).wmask.setWidth 32) })) := by
  rw [exec_eccError, execEccError, if_neg (by simp), if_neg (by unfold backingBase; omega), if_pos (by simp [isHbm, hbm])]

theorem eccError_poisons {s : State} {addr : Nat} (hbm : addr < 0x6000000000) (part : (s.m.l2At (addr / 32)).wmask ≠ 0xFF) :
    ∃ u, exec (.eccError addr true) s = .next u ∧ poisonedRange u.m addr 1 = true ∧ u = s.withM { s.m with poison := u.m.poison }
      ∧ (∀ k, k ≠ addr / 32 → mget u.m.poison k = mget s.m.poison k) := by
  refine ⟨s.withM { s.m with poison := mset s.m.poison (addr / 32) ((s.m.l2At (addr / 32)).wmask.setWidth 32) }, ?_, ?_, rfl, fun k other => mget_mset_other _ other _⟩
  · rw [eccError_hbm hbm, if_neg part]
  · simp [poisonedRange, mget_mset_same]

theorem eccError_covered {s : State} {addr : Nat} (hbm : addr < 0x6000000000) (whole : (s.m.l2At (addr / 32)).wmask = 0xFF) : exec (.eccError addr true) s = .next s := by
  rw [eccError_hbm hbm, if_pos whole, withM_self]

theorem eccError_counted {s : State} {addr : Nat} (below : s.m.errors + 1 ≠ Config.errorThreshold) :
    exec (.eccError addr false) s = .next (s.withM { s.m with errors := s.m.errors + 1 }) := by
  rw [exec_eccError, execEccError, if_pos (by simp)]
  dsimp only
  rw [if_neg below]

/-! Link errors (R396). -/

/-- An event is held by its arbiter. -/
theorem held_raiseEvent (m : Mach) (e : Event) (h : e.src < m.arbiters.length) :
    ((raiseEvent m e).arbiters.getD e.src .fresh).held = mset (m.arbiters.getD e.src .fresh).held m.nextId e := by
  simp [raiseEvent, setAt, h]

theorem warp?_adjWarpOrSaved {m : Mach} {core pos : Nat} {has : Warp → Bool} {f : Warp → Warp} {w : Warp} (there : m.warp? core pos = some w) (own : has w = true) :
    adjWarpOrSaved m core pos has f = m.setWarp core pos (f w) := by
  simp only [adjWarpOrSaved, there, Option.filter, own, if_true]

/-- A link error that is neither of a sequencer, a command processor, a store nor an engine answers a warp's remote access. -/
theorem linkError_remote {s : State} {warp op core pos : Nat} {w : Warp} {p : Pend} (someWarp : warp ≠ 0) (noStore : nextStore s.m warp = none)
    (noCopy : mget s.m.copies op = none) (noGather : mget s.m.gathers op = none) (found : s.m.findWarp warp = some (core, pos, w)) (pend : w.pend? op = some p)
    (remote : p.kind = .remote) : exec (.linkError warp op) s = .next (loadLinkError s core pos w p) := by
  simp only [exec_linkError, execLinkError, someWarp, false_and, if_false, noStore, Option.filter, noCopy, noGather, warpAnywhere, found, pend, remote, BEq.rfl, if_true]

theorem linkError_store {s : State} {warp : Nat} {st : Store} (someWarp : warp ≠ 0) (next : nextStore s.m warp = some st) (failed : st.failed = none) :
    exec (.linkError warp st.seq) s = .next (storeLinkError s st) := by
  simp [exec_linkError, execLinkError, someWarp, next, Option.filter, failed]

/-- A warp whose remote access has been answered with a link error. -/
def linkAnswered (w : Warp) (p : Pend) : Warp :=
  let k := Wait.faulted (p.addrs.map (fun e => (e.1, mkFault .addr e.2.2 0xA e.2.1.toNat)))
  { w with pends := w.pends.filter (fun q => q.id ≠ p.id), groups := w.groups.map (answerRemote p.id k), hgroups := w.hgroups.map (answerRemote p.id k) }

theorem loadLinkError_eq {s : State} {core pos : Nat} {w : Warp} (p : Pend) (there : s.m.warp? core pos = some w) :
    ∃ bits lane, loadLinkError s core pos w p = s.withM ((raiseEvent s.m (linkEvent w.ctx w.homeSlot lane bits)).setWarp core pos (linkAnswered w p)) :=
  ⟨_, _, congrArg s.withM (warp?_adjWarpOrSaved (m := raiseEvent s.m _) there BEq.rfl)⟩

theorem linkFault_eq (level : Nat) (va : DWord) : mkFault .addr level 0xA va.toNat = { cause := .addr, detail := BitVec.ofNat 8 (16 * level + 0xA), addr := va.setWidth 48 } := by
  simp only [mkFault, Nat.mul_comm 16]
  rfl

theorem linkError_load_answers {s : State} {warp op core pos : Nat} {w : Warp} {p : Pend} (someWarp : warp ≠ 0) (noStore : nextStore s.m warp = none)
    (noCopy : mget s.m.copies op = none) (noGather : mget s.m.gathers op = none) (found : s.m.findWarp warp = some (core, pos, w)) (there : s.m.warp? core pos = some w)
    (pend : w.pend? op = some p) (remote : p.kind = .remote) (arbiters : s.m.arbiters.length = 3) :
    ∃ u v e, exec (.linkError warp op) s = .next u ∧ u.m.warp? core pos = some v ∧ v.pends = w.pends.filter (fun q => q.id ≠ op) ∧ v.regs = w.regs
      ∧ (∀ (i : Nat) g r, w.groups[i]? = some g → g.run = some r → r.wait = .remote op →
          ∃ h q, v.groups[i]? = some h ∧ h.run = some q
            ∧ q.wait = .faulted (p.addrs.map (fun z => (z.1, { cause := .addr, detail := BitVec.ofNat 8 (16 * z.2.2 + 0xA), addr := z.2.1.setWidth 48 }))))
      ∧ (u.m.arbiters.getD 2 .fresh).held = mset (s.m.arbiters.getD 2 .fresh).held s.m.nextId e ∧ e.type = 8 ∧ e.ctx = w.ctx ∧ u.m.mem = s.m.mem := by
  have id : p.id = op := by simpa using List.find?_some pend
  obtain ⟨bits, lane, eq⟩ := loadLinkError_eq p there
  refine ⟨_, linkAnswered w p, linkEvent w.ctx w.homeSlot lane bits, (linkError_remote someWarp noStore noCopy noGather found pend remote).trans (congrArg _ eq), ?_, ?_, rfl, ?_, ?_,
    rfl, rfl, rfl⟩
  · simp
  · rw [linkAnswered, id]
  · intro i g r hg hr hw
    have answered : (linkAnswered w p).groups[i]? = some (answerRemote p.id (.faulted (p.addrs.map (fun e => (e.1, mkFault .addr e.2.2 0xA e.2.1.toNat)))) g) := by
      simp [linkAnswered, hg]
    refine ⟨_, { r with wait := _ }, answered, ?_, rfl⟩
    simp [answerRemote, hr, hw, id, linkFault_eq]
  · exact held_raiseEvent s.m _ (arbiters ▸ (by decide : 2 < 3))

theorem lowLane_laneBit {l : Nat} (h : l < 32) : lowLane (laneBit l) = l :=
  (by decide : ∀ i : Fin 32, lowLane (laneBit i) = i) ⟨l, h⟩

/-- A failed store of one lane is recorded and gone, where the queue has room (R380). -/
theorem recordStoreFault_one {m : Mach} {st : Store} (f : FaultInfo) {l core pos : Nat} {w : Warp} (entry : st.entry = none) (lanes : st.lanes = laneBit l) (hl : l < 32)
    (found : m.findWarp st.warp = some (core, pos, w)) (room : (m.ctxCore st.ctx core).sfq.length < 16) :
    recordStoreFault m st f = dropStore (m.setCtxCore st.ctx core { m.ctxCore st.ctx core with sfq := (m.ctxCore st.ctx core).sfq ++
      [{ warp := st.warp, lane := l, reported := false
         entry := { pc := st.pc, run := l, imp := false, slot := st.slot, kind := st.kind, cause := f.cause, detail := f.detail, addr := f.addr } }] }) st.seq := by
  simp only [recordStoreFault, found, lanes, lowLane_laneBit hl, if_neg (Nat.not_le.2 room), BitVec.and_not_self, if_true, endStore, finishPublication, entry, Option.isSome_none,
    Bool.false_eq_true, if_false]

theorem walkAway_hit {s : State} {ctx core : Nat} {va : DWord} {acc : Access} {t : Xlat} (h : Hit s ctx core va acc t) : walkAway s s.m ctx core va = none := by
  obtain ⟨-, e, hit, -⟩ := h
  have : (tlbHit s.m ctx core va.toNat).isSome = true := by rw [Option.mem_def.1 hit]; rfl
  simp [walkAway, this]

theorem linkError_store_recorded {s : State} {warp : Nat} {st : Store} {bs : List (Option Byte)} {t : Xlat} {l core pos : Nat} {w : Warp} (someWarp : warp ≠ 0)
    (next : nextStore s.m warp = some st) (failed : st.failed = none) (entry : st.entry = none) (op : st.op = .bytes bs) (hit : Hit s st.ctx st.core st.addr .write t)
    (pod : paClass s t.pa = .pod) (lanes : st.lanes = laneBit l) (hl : l < 32) (found : s.m.findWarp st.warp = some (core, pos, w))
    (room : (s.m.ctxCore st.ctx core).sfq.length < 16) (arbiters : s.m.arbiters.length = 3) :
    ∃ u e, exec (.linkError warp st.seq) s = .next u ∧ u.m.mem = s.m.mem ∧ u.m.stores = s.m.stores.filter (fun o => o.seq ≠ st.seq)
      ∧ (u.m.ctxCore st.ctx core).sfq = (s.m.ctxCore st.ctx core).sfq ++
          [{ warp := st.warp, lane := l, reported := false
             entry := { pc := st.pc, run := l, imp := false, slot := st.slot, kind := st.kind, cause := .addr, detail := BitVec.ofNat 8 (16 * t.level + 0xA)
                        addr := st.addr.setWidth 48 } }]
      ∧ (u.m.arbiters.getD 2 .fresh).held = mset (s.m.arbiters.getD 2 .fresh).held s.m.nextId e ∧ e.type = 8 ∧ e.ctx = st.ctx := by
  have recorded : ∃ bits lane, storeLinkError s st
      = s.withM (recordStoreFault (raiseEvent s.m (linkEvent st.ctx st.slot lane bits)) st (mkFault .addr t.level 0xA st.addr.toNat)) := by
    simp only [storeLinkError, op, translate_hit hit, pod, walkAway_hit hit, decide_true, Bool.true_or, if_true, Option.getD_none]
    exact ⟨_, _, rfl⟩
  obtain ⟨bits, lane, eq⟩ := recorded
  have one := recordStoreFault_one (m := raiseEvent s.m (linkEvent st.ctx st.slot lane bits)) (mkFault .addr t.level 0xA st.addr.toNat) entry lanes hl found room
  rw [one, linkFault_eq] at eq
  refine ⟨_, linkEvent st.ctx st.slot lane bits, (linkError_store someWarp next failed).trans (congrArg _ eq), rfl, rfl, ?_, ?_, rfl, rfl⟩
  · exact congrArg CtxCore.sfq (ctxCore_setCtxCore_same ..)
  · exact held_raiseEvent s.m _ (arbiters ▸ (by decide : 2 < 3))

/-- Settles O32: each clause is the lemma above that says it. -/
theorem translationAndErrors : Obligations.TranslationAndErrors := by
  refine ⟨fun s => ⟨fun ctx core va acc range miss => ⟨fun l found mem passes => ?_, fun level d bad => ?_⟩, ?_, fun ctx va drained whole => ?_⟩, fun s => ⟨?_, ?_, ?_, ?_, ?_⟩⟩
  · exact walk_sets_bits range miss found mem passes
  · exact walk_bad_faults range miss bad
  · intro request frame t there stands absent leaf single level mem fits made formed owned hbm home
    exact firstTouchMap_maps there stands absent leaf single level mem fits formed owned hbm home
  · exact shootdown_drops va drained whole
  · exact fun addr hbm part => eccError_poisons hbm part
  · exact fun addr hbm whole => eccError_covered hbm whole
  · exact fun addr below => eccError_counted below
  · intro warp op core pos w p someWarp noStore noCopy noGather found there pend remote _ arbiters
    exact linkError_load_answers someWarp noStore noCopy noGather found there pend remote arbiters
  · intro warp st bs t l core pos w someWarp next failed entry op hit pod lanes hl found room arbiters
    exact linkError_store_recorded someWarp next failed entry op hit pod lanes hl found room arbiters

end Sys2Proof.Machine
end

section
/-! SUPPORT. Bytes read and written by an engine: what named bytes leave in memory and in scratchpad (R130, R171), an access of an engine through its TLB (R116), and a write of a compute
die's agent to HBM (R303). -/

namespace Sys2Proof.Machine

/-! Named bytes. -/

theorem readByte_putBytes (bs : List (Option Byte)) (m : SMap Byte) (a k : Nat) :
    readByte (putBytes m a bs) k = (if a ≤ k then bs.getD (k - a) none else none).getD (readByte m k) := by
  induction bs generalizing m a with
  | nil => simp [putBytes]
  | cons b bs ih =>
    have same : (if k = a then readByte m a else readByte m k) = readByte m k := by
      split
      next here => rw [here]
      next => rfl
    have past : readByte (putBytes m a (b :: bs)) k = (if a + 1 ≤ k then bs.getD (k - (a + 1)) none else none).getD (if k = a then b.getD (readByte m a) else readByte m k) := by
      cases b with
      | none => rw [putBytes, ih, Option.getD_none, same]
      | some v => rw [putBytes, ih, readByte_writeByte]; rfl
    rw [past]
    obtain lt | rfl | gt := Nat.lt_trichotomy k a
    · simp only [show ¬a + 1 ≤ k by omega, show ¬a ≤ k by omega, show k ≠ a by omega, if_false]
    · simp
    · simp only [show a + 1 ≤ k by omega, show a ≤ k by omega, show k ≠ a by omega, if_true, if_false, show k - a = k - (a + 1) + 1 by omega, List.getD_cons_succ]

/-- Where no arrival round occupies a page, named bytes go into a space as they go into memory (R277). -/
theorem spadPut_nil (bs : List (Option Byte)) (sp : SMap Byte) (off : Nat) : spadPut [] sp off bs = putBytes sp off bs := by
  induction bs generalizing sp off with
  | nil => rfl
  | cons b bs ih => cases b <;> exact ih ..

theorem spad_spadWriteNamed {m : Mach} {ctx core : Nat} (off : Nat) (bs : List (Option Byte)) (free : (m.ctxCore ctx core).rounds = []) :
    ((spadWriteNamed m ctx core off bs).ctxCore ctx core).spad = putBytes (m.ctxCore ctx core).spad off bs := by
  rw [spadWriteNamed, Mach.adjCtxCore, ctxCore_setCtxCore_same, ← spadPut_nil, free]

/-- Byte `i` of a number. -/
theorem getElem?_natToBytes (n x i : Nat) (h : i < n) : (natToBytes n x)[i]? = some (BitVec.ofNat 8 (x / 2 ^ (8 * i))) := by
  induction n generalizing x i with
  | zero => omega
  | succ n ih =>
    cases i with
    | zero =>
      rw [natToBytes, List.getElem?_cons_zero]
      exact congrArg some (BitVec.eq_of_toNat_eq (by simp))
    | succ i =>
      rw [natToBytes, List.getElem?_cons_succ, ih _ _ (by omega), Nat.div_div_eq_div_mul, show 8 * (i + 1) = 8 + 8 * i by omega, Nat.pow_add]

/-- A list put together from pieces of one length. -/
theorem getElem?_flatMap_pieces {α β : Type} {f : α → List β} {n : Nat} (pos : 0 < n) (l : List α) (len : ∀ a ∈ l, (f a).length = n) (k : Nat) :
    (l.flatMap f)[k]? = l[k / n]?.bind (fun a => (f a)[k % n]?) := by
  induction l generalizing k with
  | nil => simp
  | cons a l ih =>
    have here : (f a).length = n := len a List.mem_cons_self
    rw [List.flatMap_cons, List.getElem?_append, here]
    split
    next low => rw [Nat.div_eq_of_lt low, Nat.mod_eq_of_lt low, List.getElem?_cons_zero]; rfl
    next high =>
      rw [ih (fun b hb => len b (List.mem_cons_of_mem _ hb)), show k / n = (k - n) / n + 1 by rw [← Nat.add_div_right _ pos]; congr 1; omega, List.getElem?_cons_succ,
        show k % n = (k - n) % n by rw [← Nat.add_mod_right (k - n)]; congr 1; omega]

/-! An engine's access through its TLB. -/

/-- A hit in the TLB that an access uses first translates it and moves nothing (R116), a warp's and an engine's alike. -/
theorem translate_tlb {s : State} {ctx core : Nat} {va : DWord} {acc : Access} {t : Xlat} {eng : Bool} (ft : Bool) (h : Hit s ctx core va acc t eng) :
    translate s s.m ctx core va acc ft eng = .ok t s.m := by
  obtain ⟨range, e, hit, own, dirty, rfl, check⟩ := h
  have clean : (acc.writes && !pteBit e.pte 7) = false := by
    cases hw : acc.writes
    · rfl
    · simp [dirty hw]
  simp only [translate, ge_iff_le, Nat.not_le.2 range, if_false, Option.mem_def.1 hit, clean, Bool.false_eq_true, check, own, if_true]

/-- A range that lies on one page is one part. -/
theorem pageParts_one {va : DWord} {n : Nat} (k : Nat) (pos : 0 < n) (fits : va.toNat % 4096 + n ≤ 4096) : pageParts (k + 1) va n = [(va, n)] := by
  cases n with
  | zero => omega
  | succ n =>
    rw [pageParts, Nat.min_eq_left (by omega), Nat.sub_self]
    · cases k <;> rfl
    · simp

/-- A read of clean bytes of HBM: what its core's die reads there, and L2 takes the sectors in (R108, R130). -/
theorem readAt_hbm {s : State} {m : Mach} {core n : Nat} {x : Xlat} (va : Nat) (hbm : x.pa < 0x6000000000) (small : n ≤ 4096) (clean : poisonedRange m x.pa n = false) :
    ∃ m', readAt s m core x va n = .ok (viewBytes m (dieOf core) x.pa n) m' ∧ Cached m m' := by
  rw [readAt, clean, Bool.and_false, if_neg Bool.false_ne_true, readPa_hbm s m _ n _ (by omega)]
  refine ⟨_, rfl, ?_⟩
  split
  · exact cached_fillL2 ..
  · exact .refl m

/-- A read of a range on one page through a hit. -/
theorem readMem_hit {s : State} {ctx core n : Nat} {va : DWord} {acc : Access} {t : Xlat} {eng : Bool} (pos : 0 < n) (fits : va.toNat % 4096 + n ≤ 4096)
    (h : Hit s ctx core va acc t eng) (hbm : t.pa < 0x6000000000) (clean : poisonedRange s.m t.pa n = false) :
    ∃ m', readMem s s.m ctx core va n acc eng = .ok (viewBytes s.m (dieOf core) t.pa n) m' ∧ Cached s.m m' := by
  obtain ⟨m', read, cached⟩ := readAt_hbm (s := s) (core := core) va.toNat hbm (by omega : n ≤ 4096) clean
  refine ⟨m', ?_, cached⟩
  simp only [readMem, pageParts_one _ pos fits, readRange, readVa, translate_tlb true h, Res.next, read, List.append_nil]

/-! A write of a compute die's agent to HBM (R303). -/

theorem hbm_of_class {s : State} {pa die : Nat} (h : paClass s pa = .hbm die) : pa < 0x6000000000 := by
  by_contra high
  simp only [paClass, show ¬pa < 0x3000000000 by omega, high, if_false] at h
  repeat' split at h
  all_goals cases h

theorem inMemory_hbm {s : State} {pa die : Nat} (h : paClass s pa = .hbm die) : InMemory s pa := by
  refine ⟨fun q off => ?_, ?_, ?_⟩ <;> rw [h] <;> nofun

/-- The writes that a set applies are among those chosen, and every write that it names is. -/
theorem mem_applySet (p : Late → Bool) (ws chosen : List Late) {w : Late} (h : w ∈ chosen ∨ w ∈ ws ∧ p w = true) : w ∈ applySet p ws chosen := by
  induction ws generalizing chosen with
  | nil => exact h.resolve_right (fun k => by cases k.1)
  | cons v ws ih =>
    rw [applySet]
    apply ih
    obtain old | ⟨new, named⟩ := h
    · left
      split
      · exact List.mem_cons_of_mem _ old
      · exact old
    · cases new with
      | head => left; rw [if_pos (by simp [named])]; exact List.mem_cons_self
      | tail _ more => exact .inr ⟨more, named⟩

/-- What stays late after writes are applied is none of those. -/
theorem late_settleLate {m : Mach} {p : Late → Bool} {w : Late} (h : w ∈ (settleLate m p).late) : w ∈ m.late ∧ p w = false := by
  unfold settleLate at h
  split at h
  next empty =>
    dsimp only at h
    rw [List.isEmpty_iff.1 empty] at h
    cases h
  next =>
    obtain ⟨there, stays⟩ := List.mem_filter.1 h
    refine ⟨there, ?_⟩
    by_contra named
    rw [Bool.not_eq_false] at named
    have gone := mem_applySet p m.late.reverse [] (.inr ⟨List.mem_reverse.2 there, named⟩)
    simp only [Bool.not_eq_true', List.contains_eq_mem, decide_eq_false_iff_not] at stays
    exact stays (List.mem_map_of_mem gone)

/-- A byte that a write still late hides is one that it names. -/
theorem overlaps_of_byte {w : Late} {pa i : Nat} {bs : List (Option Byte)} {v : Byte} (named : bs.getD i none = some v) (hides : (w.byte (pa + i)).isSome = true) :
    w.overlaps pa bs = true := by
  have inside : i < bs.length := by
    by_contra out
    rw [List.getD_eq_default _ _ (by omega)] at named
    cases named
  have low : w.pa ≤ pa + i := by
    by_contra out
    rw [Late.byte, if_neg out] at hides
    cases hides
  have high : pa + i - w.pa < w.old.length := by
    by_contra out
    rw [Late.byte, if_pos low, List.getD_eq_default _ _ (by omega)] at hides
    cases hides
  simp only [Late.overlaps, Bool.and_eq_true, decide_eq_true_eq, List.any_eq_true, List.mem_range]
  exact ⟨⟨by omega, by omega⟩, i, inside, by rw [named]; rfl, hides⟩

/-- A die on which no write still late hides a byte reads memory's own. -/
theorem viewByte_own {m : Mach} {die key : Nat} (h : ∀ w ∈ m.late, w.die = die → w.byte key = none) : viewByte m die key = readByte m.mem key := by
  have clear : m.late.findSome? (fun w => if w.die == die then w.byte key else none) = none := by
    rw [List.findSome?_eq_none_iff]
    intro w hw
    split
    next own => exact h w hw (by simpa using own)
    next => rfl
  rw [viewByte, clear]

theorem writeFrom_wroteAt {s : State} {pa die : Nat} (m : Mach) (o : Writer) (bs : List (Option Byte)) (cached : Bool) (hbm : paClass s pa = .hbm die)
    (compute : dieOf o.agent.core < 2) : WroteAt m (writeFrom s m o pa bs cached) o.agent.core pa bs ∧ (writeFrom s m o pa bs cached).cores = m.cores := by
  obtain ⟨late, rels, settled⟩ := settleLate_eq { m with nextId := m.nextId + 1 } (fun w => w.die == dieOf o.agent.core && w.overlaps pa bs)
  have stays := @late_settleLate { m with nextId := m.nextId + 1 } (fun w => w.die == dieOf o.agent.core && w.overlaps pa bs)
  rw [settled] at stays
  have placed := writePlace_placed (inMemory_hbm hbm) { m with nextId := m.nextId + 1, late := late, rels := rels } bs cached
  rw [memKey_hbm hbm] at placed
  have wrote : ∃ (w : Late) (tags : List RelTag), w.die = 1 - dieOf o.agent.core ∧ writeFrom s m o pa bs cached
      = { writePlace s { m with nextId := m.nextId + 1, late := late, rels := rels } pa bs cached with
          late := (writePlace s { m with nextId := m.nextId + 1, late := late, rels := rels } pa bs cached).late ++ [w], rels := tags } := by
    simp only [writeFrom, isHbm, hbm_of_class hbm, compute, decide_true, Bool.and_self, if_true, newId_fst, newId_snd, settled]
    exact ⟨_, _, rfl, rfl⟩
  obtain ⟨w, tags, other, eq⟩ := wrote
  generalize writePlace s { m with nextId := m.nextId + 1, late := late, rels := rels } pa bs cached = n at placed eq
  have mem : ∀ a, readByte n.mem a = (if pa ≤ a then bs.getD (a - pa) none else none).getD (readByte m.mem a) := fun a => placed.mem ▸ readByte_putBytes ..
  rw [eq]
  refine ⟨⟨?_, fun a => ?_, fun i v named => ?_⟩, placed.cores⟩
  · exact congrArg (fun k : Mach => { k with mem := m.mem, l2 := m.l2, poison := m.poison, late := m.late, rels := m.rels, nextId := m.nextId, free := m.free, cores := m.cores }) placed.rest
  · rw [mem]
    cases (if pa ≤ a then bs.getD (a - pa) none else none) <;> rfl
  · rw [viewByte_own]
    · rw [mem, if_pos (Nat.le_add_right ..), Nat.add_sub_cancel_left, named]
      rfl
    · intro k late' own
      rw [placed.late, List.mem_append, List.mem_singleton] at late'
      obtain old | rfl := late'
      · have apart := (stays old).2
        by_contra hides
        have overlap : k.overlaps pa bs = true := overlaps_of_byte named (Option.isSome_iff_ne_none.2 hides)
        simp [own, overlap] at apart
      · omega

end Sys2Proof.Machine
end

section
/-! SUPPORT. The parts of the gather engine's steps (R122 to R125): a bag's columns, its output in scratchpad, an index out of range, and the end of a gather with its record and event. -/

namespace Sys2Proof.Machine

/-! The output of a bag. -/

/-- The sum of a column of a bag in index order, 0 where the bag is empty (R123). -/
def columnSum : List Nat → Nat
  | [] => 0
  | v :: rest => canonNan (rest.foldl fp32.add v)

theorem reduceColumn_sum {fn free : Nat} {v : Nat} {rest : List Nat} (sum : fnRed fn = 1) (ordered : fnIx fn = true) :
    reduceColumn fn free (v :: rest) = columnSum (v :: rest) := by
  simp only [reduceColumn, sum, ordered, if_true, columnSum]

/-- The columns of a bag summed, one FP32 word after the other; those of an empty bag are zeros (R122, R123). -/
theorem getD_bagBytes {g : Gather} {rows : List (List Nat)} (free k : Nat) (sum : fnRed g.fn = 1) (ordered : fnIx g.fn = true) (size : gRlen g.desc * 4 = gOb g.fn g.desc) :
    ((bagBytes g free rows).1.map some).getD k none
      = if k < 4 * gRlen g.desc then some (BitVec.ofNat 8 (columnSum (rows.map (fun r => r.getD (k / 4) 0)) / 2 ^ (8 * (k % 4)))) else none := by
  cases rows with
  | nil =>
    rw [bagBytes, List.isEmpty_nil, if_pos rfl, ← size, List.map_replicate, List.getD_eq_getElem?_getD, List.getElem?_replicate, Nat.mul_comm]
    split <;> simp [columnSum]
  | cons r rows =>
    have red : fnRed g.fn ≠ 0 := by omega
    simp only [bagBytes, List.isEmpty_cons, Bool.false_eq_true, red, if_false, List.map_cons, reduceColumn_sum sum ordered]
    rw [List.getD_eq_getElem?_getD, List.getElem?_map, getElem?_flatMap_pieces (by decide : 0 < 4) _ (fun _ _ => length_natToBytes ..)]
    by_cases inside : k < 4 * gRlen g.desc
    · rw [List.getElem?_range (by omega), Option.bind_some, getElem?_natToBytes _ _ _ (Nat.mod_lt _ (by decide)), if_pos inside]
      rfl
    · rw [List.getElem?_eq_none (by rw [List.length_range]; omega), if_neg inside]
      rfl

/-- Of a bag of which the engine has written some words, the others' bytes. -/
theorem getD_unwritten (g : Gather) (k : Nat) :
    g.unwritten.getD k none
      = if k < min (gOb g.fn g.desc) (4 * g.out.length) ∧ k / 4 ∉ g.early then some (BitVec.ofNat 8 ((g.out.getD (k / 4) 0).toNat / 2 ^ (8 * (k % 4)))) else none := by
  rw [Gather.unwritten, List.getD_eq_getElem?_getD, List.getElem?_take,
    getElem?_flatMap_pieces (by decide : 0 < 4) _ (fun _ _ => by rw [List.length_map, length_natToBytes]), List.getElem?_zipIdx]
  by_cases inside : k < gOb g.fn g.desc ∧ k / 4 < g.out.length
  · obtain ⟨low, word⟩ := inside
    have here : k < min (gOb g.fn g.desc) (4 * g.out.length) := by omega
    rw [if_pos low, List.getElem?_eq_getElem word, Option.map_some, Option.bind_some, List.getElem?_map, getElem?_natToBytes _ _ _ (Nat.mod_lt _ (by decide)),
      List.getD_eq_getElem _ _ word, Nat.zero_add]
    by_cases early : k / 4 ∈ g.early <;> simp [early, here]
  · have past : ¬k < min (gOb g.fn g.desc) (4 * g.out.length) := by omega
    simp only [past, false_and, if_false]
    split
    next low => rw [List.getElem?_eq_none (by omega)]; rfl
    next => rfl

/-! Its place. -/

theorem gatherArrive_unbarred {g : Gather} (m : Mach) (n : Nat) (stopped : Bool) (bare : gBv g.desc = false) : gatherArrive m g n stopped = m := by
  rw [gatherArrive, bare, if_neg Bool.false_ne_true]

theorem deliver_unbarred {g : Gather} (m : Mach) (bag : Nat) (bs : List (Option Byte)) (bare : gBv g.desc = false) :
    g.deliver m bag bs = spadWriteNamed m g.ctx (g.core / 8 * 8 + gDst g.desc / 2 ^ 21 % 8) (gDst g.desc % 2 ^ 21 + bag * gDstr g.desc) bs := by
  simp only [Gather.deliver, Gather.place, gatherArrive_unbarred _ _ _ bare, peerCore, natBits, Nat.mod_mod, show 2 ^ 3 = 8 by decide]

/-- A step that writes some bytes of a bag's place `off` in scratchpad and makes the gather `g'`. -/
theorem spad_deliver {s : State} {out : Out} {m : Mach} {g g' : Gather} {id bag core off : Nat} {bs : List (Option Byte)} {gs : SMap Gather} {p : Nat → Prop} [DecidablePred p] {v : Nat → Byte}
    (step : out = .next (s.withM { g.deliver m bag bs with gathers := mset gs id g' })) (bare : gBv g.desc = false) (hcore : core = g.core / 8 * 8 + gDst g.desc / 2 ^ 21 % 8)
    (hoff : off = gDst g.desc % 2 ^ 21 + bag * gDstr g.desc) (boxes : m.ctxCores = s.m.ctxCores) (free : (s.m.ctxCore g.ctx core).rounds = [])
    (bytes : ∀ k, bs.getD k none = if p k then some (v k) else none) :
    ∃ u, out = .next u ∧ mget u.m.gathers id = some g' ∧ u.m.mem = m.mem
      ∧ ∀ i, readByte (u.m.ctxCore g.ctx core).spad i = if off ≤ i ∧ p (i - off) then v (i - off) else readByte (s.m.ctxCore g.ctx core).spad i := by
  have box : m.ctxCore g.ctx core = s.m.ctxCore g.ctx core := by rw [Mach.ctxCore, boxes, Mach.ctxCore]
  rw [deliver_unbarred _ _ _ bare, ← hcore, ← hoff] at step
  refine ⟨_, step, mget_mset_same .., rfl, fun i => ?_⟩
  have spad := congrArg (readByte · i) (spad_spadWriteNamed (m := m) off bs (box ▸ free))
  rw [box, readByte_putBytes, bytes] at spad
  refine spad.trans ?_
  by_cases low : off ≤ i <;> by_cases here : p (i - off) <;> simp [low, here]

/-! An index out of range. -/

theorem Cached.ctxCores {m m' : Mach} (h : Cached m m') : m'.ctxCores = m.ctxCores := by
  have same := congrArg Mach.ctxCores h.rest
  exact same

/-- A read of words that the engine has not read ahead is a read of memory. -/
theorem gather_read_fresh {g : Gather} (s : State) (m : Mach) (va : DWord) (n : Nat) (acc : Access) (fresh : g.ahead = []) :
    g.read s m va n acc = readMem s m g.ctx g.core va n acc true := by
  have same : ∀ bs : List Byte, bs.zipIdx.map (fun (b, i) => mgetD g.ahead (va.toNat + i) b) = bs := fun bs => by
    rw [fresh]
    exact List.zipIdx_map_fst ..
  unfold Gather.read
  simp only [same]
  cases readMem s m g.ctx g.core va n acc true <;> rfl

/-- A bag whose first index is out of range stops its gather, where FN says `.flt` (R122). -/
theorem reduce_out_of_range {s : State} {g : Gather} {t : Xlat} {die : Nat} (fixed : gBob g.desc = 0) (sized : 0 < gBsz g.desc) (flt : fnFlt g.fn = true) (fresh : g.ahead = [])
    (aligned : (BitVec.ofNat 64 (gIxb g.desc + 4 * (g.bag * gBsz g.desc)) : DWord).toNat % 4 = 0)
    (hit : Hit s g.ctx g.core (BitVec.ofNat 64 (gIxb g.desc + 4 * (g.bag * gBsz g.desc))) .read t true) (hbm : paClass s t.pa = .hbm die) (clean : poisonedRange s.m t.pa 4 = false)
    (beyond : gNrow g.desc ≤ bytesToNat (viewBytes s.m (dieOf g.core) t.pa 4)) :
    ∃ m, g.reduce s = .stop (1, plainFault .gathRange, g.bag * gBsz g.desc) m ∧ Cached s.m m := by
  obtain ⟨m, read, cached⟩ := readMem_hit (by decide : 0 < 4) (by omega) hit (hbm_of_class hbm) clean
  rw [← gather_read_fresh s s.m _ 4 .read fresh] at read
  refine ⟨m, ?_, cached⟩
  obtain ⟨n, size⟩ := Nat.exists_eq_succ_of_ne_zero sized.ne'
  have count : g.bag * gBsz g.desc + gBsz g.desc - g.bag * gBsz g.desc = n + 1 := by omega
  have order : ¬g.bag * gBsz g.desc + gBsz g.desc < g.bag * gBsz g.desc := by omega
  simp only [Gather.reduce, bagBounds, fixed, if_true, order, if_false, count, readBag, read, beyond, flt, Bool.false_eq_true]

/-! The end of a gather. -/

/-- An entry of a map is still there after a key is set, but where it was the key's own. -/
theorem mem_mset {α : Type} {m : SMap α} {e : Nat × α} (k : Nat) (v : α) (h : e ∈ m) : e ∈ mset m k v ∨ e.1 = k ∧ mget m k = some e.2 ∧ (k, v) ∈ mset m k v := by
  induction m with
  | nil => cases h
  | cons f m ih =>
    obtain ⟨j, w⟩ := f
    by_cases same : k = j
    · subst same
      rw [mset, if_pos rfl, mget, if_pos rfl]
      cases h with
      | head => exact .inr ⟨rfl, rfl, List.mem_cons_self⟩
      | tail _ more => exact .inl (List.mem_cons_of_mem _ more)
    · rw [mset, if_neg same, mget, if_neg same]
      split
      · exact .inl (List.mem_cons_of_mem _ h)
      · cases h with
        | head => exact .inl List.mem_cons_self
        | tail _ more =>
          obtain kept | ⟨own, found, there⟩ := ih more
          · exact .inl (List.mem_cons_of_mem _ kept)
          · exact .inr ⟨own, found, List.mem_cons_of_mem _ there⟩

/-- No warp leaves its core where the core's warps stay as they are. -/
theorem mem_allWarps_adjCore {m : Mach} {f : Core → Core} {w : Nat × Nat × Warp} (core : Nat) (keeps : ∀ c, (f c).warps = c.warps) (h : w ∈ m.allWarps) :
    w ∈ (m.adjCore core f).allWarps := by
  obtain ⟨e, there, mine⟩ := List.mem_flatMap.1 h
  obtain kept | ⟨own, found, placed⟩ := mem_mset core (f (m.core core)) there
  · exact List.mem_flatMap.2 ⟨e, kept, mine⟩
  · refine List.mem_flatMap.2 ⟨_, placed, ?_⟩
    rw [keeps, Mach.core, mgetD, found, Option.getD_some, ← own]
    exact mine

/-- A context that has a warp in a cluster keeps the cluster's state (R428). -/
theorem releaseCluster_busy {m : Mach} {ctx core : Nat} (h : ∃ w ∈ m.allWarps, clusterOf w.1 = clusterOf core ∧ w.2.2.ctx = ctx) : releaseCluster m ctx core = m := by
  obtain ⟨w, there, cluster, own⟩ := h
  have busy : m.allWarps.any (fun e => clusterOf e.1 == clusterOf core && e.2.2.ctx == ctx) = true := List.any_eq_true.2 ⟨w, there, by simp [cluster, own]⟩
  simp only [releaseCluster, busy, Bool.true_or, if_true]

theorem wroteAt_rest {m m' : Mach} {core pa : Nat} {bs : List (Option Byte)} (h : WroteAt m m' core pa bs) :
    m'.gathers = m.gathers ∧ m'.ctxCores = m.ctxCores ∧ m'.arbiters = m.arbiters := by
  have gathers := congrArg Mach.gathers h.rest
  have boxes := congrArg Mach.ctxCores h.rest
  have arbiters := congrArg Mach.arbiters h.rest
  exact ⟨gathers, boxes, arbiters⟩

/-- An L1 takes a write without a change to memory or to what a die reads (R134). -/
theorem wroteAt_patchL1 {m m' : Mach} {core pa : Nat} {bs : List (Option Byte)} (h : WroteAt m m' core pa bs) (k : Nat) : WroteAt m (patchL1 m' k pa bs) core pa bs :=
  ⟨h.rest, h.bytes, h.own⟩

/-- An engine's write on one page through a hit (R130). -/
theorem putMem_hit {s : State} {ctx die : Nat} {va : DWord} {t : Xlat} {o : Writer} {bs : List (Option Byte)} (pos : 0 < bs.length) (fits : va.toNat % 4096 + bs.length ≤ 4096)
    (hit : Hit s ctx o.agent.core va .write t true) (hbm : paClass s t.pa = .hbm die) (compute : dieOf o.agent.core < 2) :
    ∃ m, putMem s s.m ctx o va bs = { got := bs.length, fault := none, waits := false, m := m } ∧ WroteAt s.m m o.agent.core t.pa bs ∧ ∀ w ∈ s.m.allWarps, w ∈ m.allWarps := by
  obtain ⟨wrote, cores⟩ := writeFrom_wroteAt s.m o bs (t.mt ≠ 2) hbm compute
  refine ⟨_, ?_, wroteAt_patchL1 wrote o.agent.core, fun w hw => mem_allWarps_adjCore _ (fun _ => rfl) (by rw [Mach.allWarps, cores]; exact hw)⟩
  simp only [putMem, pageParts_one _ pos fits, writePrefix, translate_tlb true hit, List.take_length, Nat.add_zero]

end Sys2Proof.Machine
end

section
/-! O41: the gather engine's steps (R122 to R125). -/

namespace Sys2Proof.Machine

/-- The next bag of a gather that has not ended may be read once its command's turn has come. -/
theorem ready_of_turn {g : Gather} {m : Mach} (goes : g.stop = none) (more : g.bag < gNbag g.desc) (empty : g.out = []) (turn : commandReady m g.warp g.since = true) :
    g.ready m = true := by
  simp [Gather.ready, goes, more, empty, turn]

/-- A bag read to its end is reduced, and the gather goes past it (R122, R123). -/
theorem reduce_makes {s : State} {g : Gather} {lo hi : Nat} {m m' : Mach} {rows : List (List Nat)} {skip dups : Nat} {seen : List Nat} (bounds : bagBounds s g s.m = .ok (lo, hi) m) (order : lo ≤ hi)
    (read : readBag s g (hi - lo) lo { rows := [], seen := [], skip := 0, dups := 0, stop := none, waits := false, m := m }
      = { rows := rows, seen := seen, skip := skip, dups := dups, stop := none, waits := false, m := m' }) :
    g.reduce s = .made { g with
        bag := g.bag + 1, skip := g.skip + skip, dups := g.dups + dups, empty := g.empty + (if rows = [] then 1 else 0), last := (skip, dups, if rows = [] then 1 else 0), ahead := [] }
      (bagBytes g m'.free rows).1 { m' with free := m'.free + (bagBytes g m'.free rows).2 } := by
  simp only [Gather.reduce, bounds, Nat.not_lt.2 order, read, List.isEmpty_iff, Bool.false_eq_true, if_false]

/-- A bag reduced for scratchpad is written there. -/
theorem gatherBag_delivers {s : State} {id : Nat} {g g' : Gather} {bs : List Byte} {m : Mach} (found : mget s.m.gathers id = some g) (pad : g.queue = none) (empty : g.out = [])
    (ready : g.ready s.m = true) (makes : g.reduce s = .made g' bs m) :
    exec (.gatherBag id) s = .next (s.withM { g.deliver m g.bag (bs.map some) with gathers := mset m.gathers id g' }) := by
  rw [exec_gatherBag, execGatherBag, found]
  simp only [pad, empty, List.isEmpty_nil, Bool.not_true, Bool.and_false, ready, Bool.false_eq_true, if_false, makes]

/-- A gather whose next bag cannot be reduced stops, the bag unwritten. -/
theorem gatherBag_stops {s : State} {id : Nat} {g : Gather} {st : Nat × FaultInfo × Nat} {m : Mach} (found : mget s.m.gathers id = some g) (empty : g.out = []) (ready : g.ready s.m = true)
    (bare : gBv g.desc = false) (stops : g.reduce s = .stop st m) :
    exec (.gatherBag id) s = .next (s.withM { m with gathers := mset m.gathers id { g with stop := some st } }) := by
  rw [exec_gatherBag, execGatherBag, found]
  simp only [empty, List.isEmpty_nil, Bool.not_true, Bool.and_false, ready, Bool.false_eq_true, if_false, stops, gatherArrive_unbarred _ _ _ bare]

/-- The rest of a bag of which the engine has written some words is written (R124, R311). -/
theorem gatherBag_finishes {s : State} {id : Nat} {g : Gather} (found : mget s.m.gathers id = some g) (pad : g.queue = none) (left : g.out ≠ []) :
    exec (.gatherBag id) s = .next (s.withM { g.deliver s.m (g.bag - 1) g.unwritten with gathers := mset s.m.gathers id { g with out := [], early := [] } }) := by
  rw [exec_gatherBag, execGatherBag, found]
  simp only [pad, List.isEmpty_eq_false_iff.2 left, Option.isNone_none, Bool.not_false, Bool.and_self, if_true]

/-- One entry pushed to a queue that has room, once no earlier gather has entries for it (R124, R197). -/
theorem gatherQueuePush_pushes {s : State} {id : Nat} {g : Gather} {k : Nat} {v : Word} {rest : List Word} (found : mget s.m.gathers id = some g) (queue : g.queue = some k)
    (out : g.out = v :: rest) (bare : gBv g.desc = false) (kind : ((s.m.ctxCore g.ctx g.core).queues.getD k .fresh).kind = 2)
    (room : ((s.m.ctxCore g.ctx g.core).queues.getD k .fresh).entries.length < 32) (first : ∀ e ∈ s.m.gathers, e.1 < id → e.2.core = g.core → e.2.ctx = g.ctx → e.2.queue ≠ some k) :
    exec (.gatherQueuePush id) s = .next (s.withM { s.m.setCtxCore g.ctx g.core (pushQueue (s.m.ctxCore g.ctx g.core) k v) with
      gathers := mset s.m.gathers id { g with out := rest } }) := by
  have noneEarlier : s.m.gathers.any (fun e => e.1 < id && e.2.core == g.core && e.2.ctx == g.ctx && e.2.queue == some k) = false := by
    simp only [List.any_eq_false, Bool.and_eq_true, decide_eq_true_eq, beq_iff_eq, not_and]
    exact fun e he ⟨⟨early, core⟩, ctx⟩ => first e he early core ctx
  rw [exec_gatherQueuePush, execGatherQueuePush, found]
  simp only [queue, out, noneEarlier, kind, room, Bool.not_false, and_self, if_true, gatherArrive_unbarred _ _ _ bare, ite_self]
  rfl

theorem queues_pushQueue {cc : CtxCore} {k : Nat} (v : Word) (there : k < cc.queues.length) (j : Nat) :
    (pushQueue cc k v).queues.getD j .fresh = if j = k then { cc.queues.getD k .fresh with entries := (cc.queues.getD k .fresh).entries ++ [v] } else cc.queues.getD j .fresh := by
  split
  next same => simp [same, pushQueue, setAt, there]
  next other => simp [pushQueue, setAt, List.getElem?_set_ne (Ne.symm other)]

/-- An engine's record written without a fault. -/
theorem engineClose_recorded {s : State} {m m' : Mach} {e : EngineEnd} {va : DWord} {bs : List Byte} {n : Nat} (record : e.record = some (va, bs))
    (put : putMem s m e.ctx e.writer va (bs.map some) = { got := n, fault := none, waits := false, m := m' }) :
    engineClose s m e = { got := (), fault := none, waits := false, m := e.report m' 0x0A } := by
  simp only [engineClose, record, put, Bool.false_eq_true, if_false, Option.isSome_none]

/-- A gather that has ended writes its record, raises its event and is gone (R125). -/
theorem gatherEnd_closes {s : State} {id status index die : Nat} {g : Gather} {f : FaultInfo} {t : Xlat} (found : mget s.m.gathers id = some g)
    (stop : g.stop.getD (0, plainFault .addr, 0) = (status, f, index)) (done : g.stop.isSome = true ∨ gNbag g.desc ≤ g.bag) (empty : g.out = [])
    (aligned : (BitVec.ofNat 64 (gCra g.desc) : DWord).toNat % 32 = 0) (hit : Hit s g.ctx g.core (BitVec.ofNat 64 (gCra g.desc)) .write t true) (hbm : paClass s t.pa = .hbm die)
    (busy : ∃ w ∈ s.m.allWarps, clusterOf w.1 = clusterOf g.core ∧ w.2.2.ctx = g.ctx) (compute : g.core < 288) :
    ∃ m, WroteAt s.m m g.core t.pa ((gatherRecord g status f index).2.map some)
      ∧ exec (.gatherEnd id) s = .next (s.withM { (g.ends s.m id status f index).report m 0x0A with gathers := mdel s.m.gathers id }) := by
  have length : ((gatherRecord g status f index).2.map some).length = 32 := by simp only [gatherRecord, List.length_map, List.length_append, length_natToBytes]
  have die : dieOf g.core < 2 := by rw [dieOf]; omega
  obtain ⟨m, put, wrote, stays⟩ := putMem_hit (o := (g.ends s.m id status f index).writer) (bs := (gatherRecord g status f index).2.map some) (by omega) (by omega) hit hbm die
  refine ⟨m, wrote, ?_⟩
  have ended : (g.stop.isNone && decide (g.bag < gNbag g.desc)) = false := by
    obtain stopped | last := done
    · rw [Option.isNone_eq_false_iff.2 stopped, Bool.false_and]
    · rw [decide_eq_false (by omega), Bool.and_false]
  have close := engineClose_recorded (e := g.ends s.m id status f index) rfl put
  have kept : ((g.ends s.m id status f index).report m 0x0A).gathers = s.m.gathers ∧ ((g.ends s.m id status f index).report m 0x0A).cores = m.cores := by
    obtain ⟨same, -, -⟩ := wroteAt_rest wrote
    rw [EngineEnd.report]
    split
    · exact ⟨same, rfl⟩
    · exact ⟨same, rfl⟩
  obtain ⟨gathers, cores⟩ := kept
  obtain ⟨w, there, here⟩ := busy
  rw [exec_gatherEnd, execGatherEnd, found]
  simp only [ended, empty, List.isEmpty_nil, Bool.not_true, Bool.or_self, Bool.false_eq_true, if_false, stop, close, gathers]
  rw [releaseCluster_busy]
  refine ⟨w, ?_, here⟩
  rw [Mach.allWarps, cores]
  exact stays w there

theorem within_iff (off i n : Nat) : off ≤ i ∧ i - off < n ↔ off ≤ i ∧ i < off + n := by omega

theorem within_and_iff (off i n : Nat) (p : Prop) : off ≤ i ∧ i - off < n ∧ p ↔ off ≤ i ∧ i < off + n ∧ p := by
  rw [← and_assoc, within_iff, and_assoc]

/-- Settles O41: each clause is the lemma above that says it. -/
theorem gathersRun : Obligations.GathersRun := by
  intro s id g found
  refine ⟨?_, ?_, ?_, ?_, ?_⟩
  · intro lo hi m rows skip dups seen goes more empty turn pad bare bounds order sum ordered size ⟨m', read, boxes⟩ core off column total free
    have totals : ∀ j, columnSum (column j) = total j := by
      intro j
      cases rows <;> rfl
    have makes := reduce_makes bounds order read
    have delivers := gatherBag_delivers found pad empty (ready_of_turn goes more empty turn) makes
    obtain ⟨u, step, made, -, bytes⟩ := spad_deliver delivers bare rfl rfl boxes free (fun k => getD_bagBytes m'.free k sum ordered size)
    exact ⟨u, step, made, fun i => (bytes i).trans (if_congr (within_iff ..) (by rw [totals]) rfl)⟩
  · intro pad left bare core off free
    obtain ⟨u, step, made, mem, bytes⟩ := spad_deliver (gatherBag_finishes found pad left) bare rfl rfl rfl free (getD_unwritten g)
    exact ⟨u, step, made, mem, fun i => (bytes i).trans (if_congr (within_and_iff ..) rfl rfl)⟩
  · intro t die va goes more empty fresh turn bare fixed sized flt aligned hit hbm clean beyond
    obtain ⟨m, stops, cached⟩ := reduce_out_of_range fixed sized flt fresh aligned hit hbm clean beyond
    exact ⟨_, _, gatherBag_stops found empty (ready_of_turn goes more empty turn) bare stops, mget_mset_same .., cached.ctxCores, cached.mem⟩
  · intro k v rest queue out bare kind room there first
    refine ⟨_, gatherQueuePush_pushes found queue out bare kind room first, mget_mset_same .., rfl, ?_, fun j other => ?_⟩
    · change ((Mach.ctxCore (s.m.setCtxCore ..) g.ctx g.core).queues.getD k .fresh).entries = _
      rw [ctxCore_setCtxCore_same, queues_pushQueue v there, if_pos rfl]
    · change (Mach.ctxCore (s.m.setCtxCore ..) g.ctx g.core).queues.getD j .fresh = _
      rw [ctxCore_setCtxCore_same, queues_pushQueue v there, if_neg other]
  · intro status f index t die va stop done empty aligned hit hbm busy _ arbiters compute record
    obtain ⟨m, wrote, closes⟩ := gatherEnd_closes found stop done empty aligned hit hbm busy compute
    have same : (gatherRecord g status f index).2 = record := by
      simp only [gatherRecord, empty, List.isEmpty_nil, if_true, Nat.sub_zero, fcause]
      rfl
    rw [same] at wrote
    refine ⟨_, m, closes, wrote, fun ok => ?_, fun bad => ?_⟩
    · rw [EngineEnd.report, if_pos ⟨rfl, ok⟩]
    · rw [EngineEnd.report, if_neg (fun h => bad h.2)]
      obtain ⟨-, boxes, held⟩ := wroteAt_rest wrote
      have raised := held_raiseEvent m (engineEvent 0x0A g.ctx g.core g.slot 1 status f g.descAddr index) (by
        rw [held, arbiters]
        change g.core / 144 < 3
        omega)
      rw [held] at raised
      exact ⟨_, _, rfl, rfl, boxes, rfl, rfl, raised⟩

end Sys2Proof.Machine
end

section
/-! SUPPORT. A write of named bytes to HBM, by whomever it is made (R130, R303): memory has changed in those bytes alone, and no write that the writer's die has still to apply hides one of them. -/

namespace Sys2Proof.Machine

/-- Two machines that hold the same memory, and differ at most in what a write moves beside it. -/
def Beside (m n : Mach) : Prop :=
  { n with l2 := m.l2, poison := m.poison, late := m.late, rels := m.rels, nextId := m.nextId, free := m.free, cores := m.cores } = m

theorem Beside.refl (m : Mach) : Beside m m := rfl

theorem Beside.trans {m n o : Mach} (h : Beside m n) (k : Beside n o) : Beside m o := by
  calc { o with l2 := m.l2, poison := m.poison, late := m.late, rels := m.rels, nextId := m.nextId, free := m.free, cores := m.cores }
    _ = { ({ o with l2 := n.l2, poison := n.poison, late := n.late, rels := n.rels, nextId := n.nextId, free := n.free, cores := n.cores } : Mach) with
          l2 := m.l2, poison := m.poison, late := m.late, rels := m.rels, nextId := m.nextId, free := m.free, cores := m.cores } := rfl
    _ = m := by rw [k, h]

theorem Beside.mem {m n : Mach} (h : Beside m n) : n.mem = m.mem := by
  have same := congrArg Mach.mem h
  exact same

theorem Cached.beside {m n : Mach} (h : Cached m n) : Beside m n := by
  have same := congrArg (fun k : Mach => { k with late := m.late, rels := m.rels, nextId := m.nextId, free := m.free, cores := m.cores }) h.rest
  exact same

/-- A MACHINE AFTER A WRITE of named bytes from a physical address up by an agent of a core: what `WroteAt` says of it, from its memory and from the writes that are still late. -/
structure Wrote (m m' : Mach) (core pa : Nat) (bs : List (Option Byte)) : Prop where
  rest  : { m' with mem := m.mem, l2 := m.l2, poison := m.poison, late := m.late, rels := m.rels, nextId := m.nextId, free := m.free, cores := m.cores } = m
  mem   : m'.mem = putBytes m.mem pa bs
  clear : ∀ w ∈ m'.late, w.die = dieOf core → w.overlaps pa bs = false

theorem Wrote.wroteAt {m m' : Mach} {core pa : Nat} {bs : List (Option Byte)} (h : Wrote m m' core pa bs) : WroteAt m m' core pa bs where
  rest := h.rest
  bytes a := by
    rw [h.mem, readByte_putBytes]
    cases (if pa ≤ a then bs.getD (a - pa) none else none) <;> rfl
  own i v named := by
    have hidden : ∀ w ∈ m'.late, w.die = dieOf core → w.byte (pa + i) = none := fun w late own => by
      by_contra hides
      have overlap := overlaps_of_byte named (Option.isSome_iff_ne_none.2 hides)
      rw [h.clear w late own] at overlap
      cases overlap
    rw [viewByte_own hidden, h.mem, readByte_putBytes, if_pos (Nat.le_add_right ..), Nat.add_sub_cancel_left, named]
    rfl

/-- What comes before a write without a change to memory. -/
theorem Wrote.after {m n m' : Mach} {core pa : Nat} {bs : List (Option Byte)} (h : Wrote n m' core pa bs) (before : Beside m n) : Wrote m m' core pa bs where
  rest := by
    calc { m' with mem := m.mem, l2 := m.l2, poison := m.poison, late := m.late, rels := m.rels, nextId := m.nextId, free := m.free, cores := m.cores }
      _ = { ({ m' with mem := n.mem, l2 := n.l2, poison := n.poison, late := n.late, rels := n.rels, nextId := n.nextId, free := n.free, cores := n.cores } : Mach) with
            mem := m.mem, l2 := m.l2, poison := m.poison, late := m.late, rels := m.rels, nextId := m.nextId, free := m.free, cores := m.cores } := rfl
      _ = { n with mem := m.mem, l2 := m.l2, poison := m.poison, late := m.late, rels := m.rels, nextId := m.nextId, free := m.free, cores := m.cores } := by rw [h.rest]
      _ = m := by rw [← before.mem]; exact before
  mem := before.mem ▸ h.mem
  clear := h.clear

/-- What comes after a write without a change to memory, and makes no write late. -/
theorem Wrote.before {m n m' : Mach} {core pa : Nat} {bs : List (Option Byte)} (h : Wrote m n core pa bs) (after : Beside n m') (late : ∀ w ∈ m'.late, w ∈ n.late) :
    Wrote m m' core pa bs where
  rest := by
    calc { m' with mem := m.mem, l2 := m.l2, poison := m.poison, late := m.late, rels := m.rels, nextId := m.nextId, free := m.free, cores := m.cores }
      _ = { ({ m' with l2 := n.l2, poison := n.poison, late := n.late, rels := n.rels, nextId := n.nextId, free := n.free, cores := n.cores } : Mach) with
            mem := m.mem, l2 := m.l2, poison := m.poison, late := m.late, rels := m.rels, nextId := m.nextId, free := m.free, cores := m.cores } := rfl
      _ = m := by rw [after, h.rest]
  mem := after.mem.trans h.mem
  clear := fun w hw => h.clear w (late w hw)

theorem beside_settleLate (m : Mach) (p : Late → Bool) : Beside m (settleLate m p) := by
  obtain ⟨late, rels, e⟩ := settleLate_eq m p
  rw [e]
  rfl

theorem class_hbm (s : State) {pa : Nat} (h : pa < 0x6000000000) : ∃ die, paClass s pa = .hbm die := by
  by_cases low : pa < 0x3000000000
  · exact ⟨0, by rw [paClass, if_pos low]⟩
  · exact ⟨1, by rw [paClass, if_neg low, if_pos h]⟩

/-- A write put in its place where nothing late hides it. -/
theorem Placed.wrote {s : State} {m n : Mach} {core pa die : Nat} {bs : List (Option Byte)} (hbm : paClass s pa = .hbm die) (cached : Bool) (before : Beside m n)
    (clear : ∀ w ∈ n.late, w.die = dieOf core → w.overlaps pa bs = false) : Wrote m (writePlace s n pa bs cached) core pa bs := by
  have placed := writePlace_placed (inMemory_hbm hbm) n bs cached
  rw [memKey_hbm hbm] at placed
  have wrote : Wrote n (writePlace s n pa bs cached) core pa bs := {
    rest := congrArg (fun k : Mach => { k with late := n.late, rels := n.rels, nextId := n.nextId, free := n.free, cores := n.cores }) placed.rest
    mem := placed.mem
    clear := placed.late ▸ clear }
  exact wrote.after before

/-- A write that every agent sees at once (R303). -/
theorem writePa_wrote {s : State} {pa die : Nat} (hbm : paClass s pa = .hbm die) (m : Mach) (core : Nat) (bs : List (Option Byte)) :
    Wrote m (writePa s m pa bs) core pa bs := by
  refine Placed.wrote hbm true ((beside_settleLate m (fun w => w.overlaps pa bs)).trans rfl) fun w late _ => ?_
  exact (late_settleLate late).2

end Sys2Proof.Machine
end

section
/-! SUPPORT. Events, claims, and accesses from outside the compute dies (R139, R389, R391 to R395, R400). -/

namespace Sys2Proof.Machine

/-! Event records. -/

/-- An event waits for space in its ring. -/
theorem eventRecord_full {s : State} {k id : Nat} {a : Arbiter} {ev : Event} (arbiter : s.m.arbiters[k]? = some a) (held : mget a.held id = some ev) (full : a.size ≤ a.used) :
    exec (.eventRecord k id) s = .next s := by
  simp only [exec_eventRecord, execEventRecord, arbiter, held, full, if_true]

/-- The messages sent once an event of a context is forwarded to a function, if it has one (R400). -/
def forwarded (msix : SMap Nat) : Option Nat → SMap Nat
  | some f => mset msix (32 * f) (mgetD msix (32 * f) 0 + 1)
  | none => msix

/-- An event enters a ring that has space, and is forwarded. -/
theorem eventRecord_accepts {s : State} {k id : Nat} {a : Arbiter} {ev : Event} (arbiter : s.m.arbiters[k]? = some a) (held : mget a.held id = some ev) (space : a.used < a.size) :
    let m := writePa s s.m (a.base + 32 * (a.head % a.size)) ((eventBytes ev s.counter).map some)
    exec (.eventRecord k id) s = .next (s.withM { m with
      arbiters := m.arbiters.set k { a with head := a.head + 1, used := a.used + 1, held := mdel a.held id }, msix := forwarded m.msix (eventFunction s ev) }) := by
  simp only [exec_eventRecord, execEventRecord, arbiter, held, Nat.not_le.2 space, if_false]
  cases eventFunction s ev <;> rfl

theorem eventBytes_eq {ev : Event} (counter : DWord) (whole : ev.pay.length = 16) :
    eventBytes ev counter = natToBytes 1 ev.type ++ natToBytes 1 ev.src ++ natToBytes 2 ev.ctx ++ natToBytes 4 ev.who.toNat ++ natToBytes 8 counter.toNat ++ ev.pay := by
  rw [eventBytes, List.take_of_length_le whole.le]

/-- Such an event's record is written, its place in the ring is taken and its function's vector is raised; nothing else changes. -/
theorem eventRecord_writes {s : State} {k id : Nat} {a : Arbiter} {ev : Event} (arbiter : s.m.arbiters[k]? = some a) (held : mget a.held id = some ev) (space : a.used < a.size)
    (hbm : a.base + 32 * (a.head % a.size) + 32 ≤ 0x6000000000) :
    ∃ u m', exec (.eventRecord k id) s = .next u ∧ WroteAt s.m m' frontCore (a.base + 32 * (a.head % a.size)) ((eventBytes ev s.counter).map some)
      ∧ u = s.withM { m' with arbiters := s.m.arbiters.set k { a with head := a.head + 1, used := a.used + 1, held := mdel a.held id }, msix := u.m.msix }
      ∧ u.m.msix = forwarded s.m.msix (eventFunction s ev) := by
  obtain ⟨die, place⟩ := class_hbm s (pa := a.base + 32 * (a.head % a.size)) (by omega)
  have wrote := writePa_wrote place s.m frontCore ((eventBytes ev s.counter).map some)
  have run := eventRecord_accepts arbiter held space
  generalize writePa s s.m (a.base + 32 * (a.head % a.size)) ((eventBytes ev s.counter).map some) = m' at wrote run
  have arbiters : m'.arbiters = s.m.arbiters := by
    have same := congrArg Mach.arbiters wrote.rest
    exact same
  have msix : m'.msix = s.m.msix := by
    have same := congrArg Mach.msix wrote.rest
    exact same
  refine ⟨_, m', run, wrote.wroteAt, ?_, ?_⟩
  · rw [arbiters]
    rfl
  · rw [withM_m, msix]

/-! Where an access from outside lands. -/

theorem inWindow_iff {w : Option Window} {a n : Nat} : inWindow w a n = true ↔ ∃ v, w = some v ∧ v.base ≤ a ∧ a + n ≤ v.base + v.size := by
  cases w <;> simp [inWindow]

/-- A function reaches what lies in its window. -/
theorem functionTarget_window {s : State} {fn a n : Nat} {w : Window} (bar : mget s.bars fn = some w) (low : w.base ≤ a) (high : a + n ≤ w.base + w.size) :
    functionTarget s fn a n = some a := by
  have inside : inWindow (mget s.bars fn) a n = true := inWindow_iff.2 ⟨w, bar, low, high⟩
  simp only [functionTarget, inside, Bool.or_true, if_true]

/-- A function reaches its own queues' pages. -/
theorem functionTarget_queue {s : State} {fn a n k off : Nat} (page : paClass s a = .queuePage k off) (bound : (s.m.queue k).bound = true) (own : (s.m.queue k).function = fn) :
    functionTarget s fn a n = some a := by
  simp only [functionTarget, page, bound, own, BEq.rfl, Bool.and_self, Bool.true_or, if_true]

/-- A function reaches nothing else. -/
theorem functionTarget_none {s : State} {fn a n : Nat} (out : ∀ w, mget s.bars fn = some w → ¬(w.base ≤ a ∧ a + n ≤ w.base + w.size))
    (other : ∀ k off, paClass s a = .queuePage k off → (s.m.queue k).bound = false ∨ (s.m.queue k).function ≠ fn) : functionTarget s fn a n = none := by
  have outside : inWindow (mget s.bars fn) a n = false := by
    rw [← Bool.not_eq_true, inWindow_iff]
    rintro ⟨w, bar, inside⟩
    exact out w bar inside
  unfold functionTarget
  rw [outside]
  dsimp only
  split
  next k off page =>
    obtain unbound | foreign := other k off page
    · simp [unbound]
    · simp [foreign]
  next => rfl

/-- The mapping that a device's access goes through gives its place (R393). -/
theorem deviceTarget_mapped {s : State} {dev a n : Nat} {w : IoMapping} (mapped : (mgetD s.iommu dev []).find? (fun v => v.base ≤ a && a + n ≤ v.base + v.size) = some w) :
    deviceTarget s dev a n = some (w.pa + (a - w.base)) := by
  rw [deviceTarget, mapped, Option.map_some]

theorem deviceTarget_none {s : State} {dev a n : Nat} (out : ∀ w ∈ mgetD s.iommu dev [], ¬(w.base ≤ a ∧ a + n ≤ w.base + w.size)) : deviceTarget s dev a n = none := by
  rw [deviceTarget, Option.map_eq_none_iff, List.find?_eq_none]
  exact fun w hw => by simpa using out w hw

/-- Where an access of a function or of a device lands. -/
def hostTarget (s : State) (fn a n : Nat) : Option Nat := if 128 < fn then deviceTarget s fn a n else functionTarget s fn a n

/-- Such an access that lands nowhere is not forwarded. -/
theorem hostAccess_nowhere {s : State} {fn a : Nat} {store : Bool} {data : List Byte} (nowhere : hostTarget s fn a data.length = none) :
    exec (.hostAccess fn a store data) s = .next s := by
  rw [hostTarget] at nowhere
  simp only [exec_hostAccess, execHostAccess, nowhere]

theorem hostAccess_store {s : State} {fn a pa : Nat} {data : List Byte} (target : hostTarget s fn a data.length = some pa) :
    exec (.hostAccess fn a true data) s = .next (s.withM (writePa s s.m pa (data.map some))) := by
  rw [hostTarget] at target
  simp only [exec_hostAccess, execHostAccess, target, if_true]

/-- A store that lands in HBM is performed there. -/
theorem hostAccess_wrote {s : State} {fn a pa : Nat} {data : List Byte} (target : hostTarget s fn a data.length = some pa) (filled : data ≠ []) (hbm : pa + data.length ≤ 0x6000000000) :
    ∃ m', exec (.hostAccess fn a true data) s = .next (s.withM m') ∧ WroteAt s.m m' frontCore pa (data.map some) := by
  have pos := List.length_pos_iff.2 filled
  obtain ⟨die, place⟩ := class_hbm s (pa := pa) (by omega)
  exact ⟨_, hostAccess_store target, (writePa_wrote place s.m frontCore _).wroteAt⟩

/-- A load changes at most what L2 holds (R130). -/
theorem hostAccess_load {s : State} {fn a : Nat} {data : List Byte} : ∃ m', exec (.hostAccess fn a false data) s = .next (s.withM m') ∧ ReadOnly s.m m' := by
  rw [exec_hostAccess, execHostAccess]
  split
  next pa _ =>
    rw [if_neg Bool.false_ne_true]
    split
    · exact ⟨_, rfl, (cached_fillL2 ..).readOnly⟩
    · exact ⟨s.m, rfl, (Cached.refl _).readOnly⟩
  next => exact ⟨s.m, rfl, (Cached.refl _).readOnly⟩

/-! A doorbell (R391). -/

/-- The page of queue `k` (log 6). -/
theorem class_queuePage (s : State) {k : Nat} (h : k < 256) : paClass s (0x10000000000 + 4096 * k) = .queuePage k 0 := by
  have page : (0x10000000000 + 4096 * k - 0x10000000000) / 4096 = k := by omega
  have off : (0x10000000000 + 4096 * k) % 4096 = 0 := by omega
  rw [paClass, if_neg (by omega), if_neg (by omega), if_neg (by omega), if_pos (by omega), if_pos (by omega), page, off]

/-- A store of four bytes to the start of a queue's page is a write of its TAIL. -/
theorem writePa_tail {s : State} {pa k : Nat} (page : paClass s pa = .queuePage k 0) (v : Nat) :
    ∃ late rels, writePa s s.m pa ((natToBytes 4 v).map some)
      = { s.m with late := late, rels := rels, queues := mset s.m.queues k (tailWrite (s.m.queue k) (BitVec.ofNat 32 v)) } := by
  have bytes : (List.range 4).map (fun i => (if 0 ≤ i then ((natToBytes 4 v).map some).getD (i - 0) none else none).getD
      (BitVec.ofNat 8 (natBits (s.m.queue k).tail.toNat (8 * i) 8))) = natToBytes 4 v := rfl
  have value : BitVec.ofNat 32 (bytesToNat (natToBytes 4 v)) = BitVec.ofNat 32 v := by
    rw [bytesToNat_natToBytes]
    exact BitVec.eq_of_toNat_eq (by simp)
  obtain ⟨late, rels, settled⟩ := settleLate_eq s.m (fun w => w.overlaps pa ((natToBytes 4 v).map some))
  refine ⟨late, rels.filter fun t => !(pa ≤ t.pa && t.pa + t.len ≤ pa + ((natToBytes 4 v).map some).length), ?_⟩
  rw [writePa, settled, writePlace, page, ← value, ← bytes]
  rfl

/-! Accesses from another package (R395). -/

theorem podAccess_load {s : State} {a : Nat} {data : List Byte} : ∃ m', exec (.podAccess a 0 data) s = .next (s.withM m') ∧ ReadOnly s.m m' := by
  rw [exec_podAccess, execPodAccess]
  simp only [show (0 : Nat) < 2 by decide, if_true]
  by_cases beyond : 0x6000000000 < a + data.length
  · exact ⟨s.m, by rw [if_pos beyond]; rfl, (Cached.refl _).readOnly⟩
  · exact ⟨_, by rw [if_neg beyond], (cached_fillL2 ..).readOnly⟩

theorem podAccess_store {s : State} {a : Nat} {data : List Byte} (hbm : a + data.length ≤ 0x6000000000) (filled : data ≠ []) :
    ∃ m', exec (.podAccess a 1 data) s = .next (s.withM m') ∧ WroteAt s.m m' frontCore a (data.map some) := by
  have pos := List.length_pos_iff.2 filled
  obtain ⟨die, place⟩ := class_hbm s (pa := a) (by omega)
  refine ⟨writePa s s.m a (data.map some), ?_, (writePa_wrote place s.m frontCore _).wroteAt⟩
  rw [exec_podAccess, execPodAccess]
  simp only [show (1 : Nat) < 2 by decide, if_true, Nat.not_lt.2 hbm, if_false, one_ne_zero]

/-- An atomic at its L2 slice changes the bytes of its location alone (R132). -/
theorem outerAtomic_wrote {s : State} {a die : Nat} (hbm : paClass s a = .hbm die) (m : Mach) (core n code operand : Nat) :
    Wrote m (outerAtomic s m a n code operand).2 core a ((natToBytes n (atomComb code (bytesToNat (readBytes m.mem a n)) operand)).map some) := by
  have wrote := (writePa_wrote hbm (fillL2 m a n) core ((natToBytes n (atomComb code (bytesToNat (readBytes m.mem a n)) operand)).map some)).after (cached_fillL2 m a n).beside
  unfold outerAtomic
  dsimp only
  split
  · exact wrote.before rfl fun _ late => late
  · exact wrote.before rfl fun _ late => late

theorem podAccess_atomic {s : State} {a code : Nat} {data : List Byte} (known : code ≤ 0xE ∨ code = 16) {n : Nat} (size : n = if code = 0xE then 4 else atomSize code)
    (hbm : a + n ≤ 0x6000000000) (aligned : a % n = 0) (clean : poisonedRange s.m a n = false) :
    ∃ m', exec (.podAccess a (2 + code) data) s = .next (s.withM m')
      ∧ WroteAt s.m m' frontCore a ((natToBytes n (atomComb code (bytesToNat (readBytes s.m.mem a n)) (bytesToNat data))).map some) := by
  have pos : 0 < n := by
    rw [size, atomSize]
    split_ifs <;> decide
  obtain ⟨die, place⟩ := class_hbm s (pa := a) (by omega)
  refine ⟨_, ?_, (outerAtomic_wrote place s.m frontCore n code (bytesToNat data)).wroteAt⟩
  rw [exec_podAccess, execPodAccess]
  have atomic : ¬2 + code < 2 := by omega
  have kind : ¬((0xE < code ∧ code ≠ 16) ∨ a % n ≠ 0 ∨ poisonedRange s.m a n = true) := by
    rintro (⟨big, other⟩ | skew | dirty)
    · omega
    · exact skew aligned
    · exact Bool.false_ne_true (clean.symm.trans dirty)
  simp only [atomic, if_false, Nat.add_sub_cancel_left, ← size, Nat.not_lt.2 hbm, show 2 + code ≠ 0 by omega, show 2 + code ≠ 1 by omega, kind]

/-! The loops (R139). -/

theorem injectionClaim_claims (die loop stop : Nat) (s : State) :
    ∃ fs, exec (.injectionClaim die loop stop) s = .next (s.withM { s.m with flits := fs }) ∧ fs.length = s.m.flits.length
      ∧ ∀ (i id : Nat) (f : Flit), s.m.flits[i]? = some (id, f)
        → fs[i]? = some (id, { f with claimed := f.claimed || (f.die == die && f.loop == loop && f.stop == stop && 64 ≤ f.waited) }) := by
  refine ⟨_, rfl, List.length_map _, fun i id f there => ?_⟩
  rw [List.getElem?_map, there, Option.map_some]
  dsimp only
  split
  next claims =>
    obtain ⟨rfl, rfl, rfl, waited⟩ := claims
    simp [waited]
  next idle =>
    have unclaimed : (f.die == die && f.loop == loop && f.stop == stop && decide (64 ≤ f.waited)) = false := by
      rw [← Bool.not_eq_true]
      simpa [and_assoc] using idle
    rw [unclaimed, Bool.or_false]

/-- Settles O55: each clause is the lemma above that says it. -/
theorem eventsAndOutside : Obligations.EventsAndOutside := by
  intro s
  refine ⟨fun k a id ev arbiter held whole => ⟨eventRecord_full arbiter held, fun space hbm => ?_⟩, fun k n a arbiter => ?_, fun die loop stop => injectionClaim_claims die loop stop s,
    fun fn a data => hostAccess_load, fun fn a data w function bar low high filled hbm => ?_, fun dev a data w device mapped filled hbm => ?_, fun fn k v function queue bound own => ?_,
    fun fn a data function out other => ?_, fun dev a data device out => ?_, fun a data => ⟨podAccess_load, podAccess_store, fun code known => podAccess_atomic known rfl⟩⟩
  · exact (eventBytes_eq s.counter whole) ▸ eventRecord_writes arbiter held space hbm
  · rw [exec_eventRingSpace, execEventRingSpace, arbiter]
    rfl
  · refine hostAccess_wrote ?_ filled hbm
    rw [hostTarget, if_neg (Nat.not_lt.2 function)]
    exact functionTarget_window bar low high
  · refine hostAccess_wrote ?_ filled hbm
    rw [hostTarget, if_pos device]
    exact deviceTarget_mapped mapped
  · have page := class_queuePage s queue
    obtain ⟨late, rels, wrote⟩ := writePa_tail page v
    refine ⟨_, _, hostAccess_store (pa := 0x10000000000 + 4096 * k) ?_, rfl, ?_, ?_, ?_⟩
    · rw [hostTarget, if_neg (Nat.not_lt.2 function)]
      exact functionTarget_queue page bound own
    all_goals rw [withM_m, wrote]
    rfl
  · refine hostAccess_nowhere ?_
    rw [hostTarget, if_neg (Nat.not_lt.2 function)]
    exact functionTarget_none out other
  · refine hostAccess_nowhere ?_
    rw [hostTarget, if_pos device]
    exact deviceTarget_none out

end Sys2Proof.Machine
end

section
/-! SUPPORT. Results that come later: what a pending result writes (R144, R184, R186, R195, R396). -/

namespace Sys2Proof.Machine

theorem pend?_id {w : Warp} {op : Nat} {p : Pend} (h : w.pend? op = some p) : p.id = op := by
  simpa using List.find?_some h

/-! Registers written from the values of a pending result. -/

/-- A lane with a value is one of the keys of the values. -/
theorem contains_mkeys {α : Type} {vals : SMap α} {l : Nat} (h : (mget vals l).isSome = true) : (mkeys vals).contains l = true := by
  induction vals with
  | nil => exact absurd h Bool.false_ne_true
  | cons e t ih =>
    by_cases here : l = e.1
    · simp [mkeys, here]
    · simpa [mkeys, here] using ih (by simpa [mget, here] using h)

/-- A lane of a register after one register's values of a pending result. -/
theorem laneOf_writeVal (regs : SMap LaneVec) (p : Pend) (vals : SMap (List Word)) {l : Nat} (i q : Nat) (lane : l < 32)
    (whole : inMask p.lanes l = true → (mget vals l).isSome = true) :
    laneOf (mgetD (mput zeroVec regs (p.reg + i) (mergeVec (mgetD regs (p.reg + i) zeroVec) (p.lanes &&& maskOf (mkeys vals)) fun k => (mgetD vals k []).getD i 0)) q zeroVec) l
      = if q = p.reg + i ∧ inMask p.lanes l then (mgetD vals l []).getD i 0 else laneOf (mgetD regs q zeroVec) l := by
  have mask : inMask (p.lanes &&& maskOf (mkeys vals)) l = inMask p.lanes l := by
    rw [show inMask (p.lanes &&& maskOf (mkeys vals)) l = (inMask p.lanes l && inMask (maskOf (mkeys vals)) l) from BitVec.getLsbD_and, inMask_maskOf lane]
    cases own : inMask p.lanes l
    · rfl
    · rw [contains_mkeys (whole own)]
      rfl
  rw [mgetD_mput]
  by_cases here : q = p.reg + i
  · simp only [here, if_true, true_and, laneOf, getD_mergeVec _ _ _ _ lane, mask]
  · simp only [here, if_false, false_and]

/-- The values of a pending result stand in its registers and lanes; every other register keeps its own. -/
theorem laneOf_writeVals (regs : SMap LaneVec) (p : Pend) (vals : SMap (List Word)) {l : Nat} (q : Nat) (lane : l < 32)
    (whole : inMask p.lanes l = true → (mget vals l).isSome = true) :
    laneOf (mgetD (writeVals regs p vals) q zeroVec) l
      = if p.reg ≤ q ∧ q < p.reg + p.count ∧ inMask p.lanes l then (mgetD vals l []).getD (q - p.reg) 0 else laneOf (mgetD regs q zeroVec) l := by
  unfold writeVals
  induction p.count with
  | zero => rw [if_neg (by omega)]; rfl
  | succ n ih =>
    rw [List.range_succ, List.foldl_append, List.foldl_cons, List.foldl_nil, laneOf_writeVal _ _ _ _ _ lane whole, ih]
    by_cases here : q = p.reg + n
    · subst here
      by_cases own : inMask p.lanes l <;> simp [own]
    · have bound : q < p.reg + (n + 1) ↔ q < p.reg + n := by omega
      simp only [here, false_and, if_false, bound]

/-- A warp whose pending result is complete: its registers. -/
theorem regLane_complete (w : Warp) (p : Pend) (vals : SMap (List Word)) {r l : Nat} (lane : l < 32) (whole : inMask p.lanes l = true → (mget vals l).isSome = true) :
    (w.complete p vals).regLane r l = if p.reg ≤ r ∧ r < p.reg + p.count ∧ inMask p.lanes l then (mgetD vals l []).getD (r - p.reg) 0 else w.regLane r l :=
  laneOf_writeVals w.regs p vals r lane whole

/-! What each of the returns does to a warp in its slot. -/

/-- `LOAD_RETURN` for a load. -/
theorem loadReturn_load {s : State} {core pos op : Nat} {w : Warp} {p : Pend} (there : s.m.warp? core pos = some w) (pend : w.pend? op = some p) (load : p.kind = .load)
    (slot : pos < 34) : exec (.loadReturn core pos op) s = .next (s.withM (s.m.setWarp core pos (w.complete p p.vals))) := by
  rw [exec_loadReturn, execLoadReturn, if_neg (Nat.not_le.2 slot), warp?_adjWarpOrSaved there (by rw [pend]; rfl)]
  simp only [pend, load]

/-- A warp whose remote access has been answered: its group goes on. -/
def Warp.released (w : Warp) (op : Nat) : Warp :=
  { w with pends := w.pends.filter (fun q => q.id ≠ op), groups := w.groups.map (answerRemote op .released), hgroups := w.hgroups.map (answerRemote op .released) }

/-- `LOAD_RETURN` for a remote access. -/
theorem loadReturn_remote {s : State} {core pos op : Nat} {w : Warp} {p : Pend} (there : s.m.warp? core pos = some w) (pend : w.pend? op = some p) (remote : p.kind = .remote)
    (slot : pos < 34) : exec (.loadReturn core pos op) s = .next (s.withM (s.m.setWarp core pos (w.released op))) := by
  rw [exec_loadReturn, execLoadReturn, if_neg (Nat.not_le.2 slot), warp?_adjWarpOrSaved there (by rw [pend]; rfl)]
  simp only [pend, remote]
  rfl

/-- The group that waits for the reply goes on. -/
theorem released_run {w : Warp} {op i : Nat} {g : Group} {r : Run} (group : w.groups[i]? = some g) (run : g.run = some r) (waits : r.wait = .remote op) :
    ∃ h q, (w.released op).groups[i]? = some h ∧ h.run = some q ∧ q = { r with wait := .released } := by
  refine ⟨{ g with run := some { r with wait := .released } }, _, ?_, rfl, rfl⟩
  simp [Warp.released, group, answerRemote, run, waits]

/-- A warp whose refill has come. -/
def Warp.refilled (w : Warp) (op reg : Nat) : Warp :=
  { w with spilled := w.spilled.filter (· ≠ reg), pends := w.pends.filter (fun q => q.id ≠ op), lru := w.usedAfter w.gens [reg] }

/-- `SATCHEL_FILL` that finds room. -/
theorem satchelFill_fill {s : State} {core pos op : Nat} {w : Warp} {p : Pend} {m : Mach} (there : s.m.warp? core pos = some w) (pend : w.pend? op = some p)
    (fill : p.kind = .fill) (room : makeRoom 40 s.m core pos 1 = .ok m) :
    exec (.satchelFill core pos op) s = .next (s.withM (m.setWarp core pos (w.refilled op p.reg))) := by
  have still : m.warp? core pos = some w := (makeRoom_spills _ _ _ _ _ room).own.trans there
  simp only [exec_satchelFill, execSatchelFill, there, Option.bind_some, pend, fill, BEq.rfl, if_true, room, Mach.adjWarp, still]
  rfl

/-- The context's state on the core once queue `k` has given an entry. -/
def CtxCore.popped (cc : CtxCore) (k : Nat) (rest : List Word) : CtxCore := { cc with queues := setAt cc.queues k { cc.queues.getD k .fresh with entries := rest } }

theorem entries_popped {cc : CtxCore} {k : Nat} {rest : List Word} (h : k < cc.queues.length) : ((cc.popped k rest).queues.getD k .fresh).entries = rest := by
  simp [CtxCore.popped, setAt, List.getD_eq_getElem?_getD, h]

theorem popFed_some {m : Mach} {ctx core k : Nat} {e : Word} {rest : List Word} (entries : ((m.ctxCore ctx core).queues.getD k .fresh).entries = e :: rest)
    (unread : ((m.ctxCore ctx core).queues.getD k .fresh).readers = []) : popFed m ctx core k = some (e, m.setCtxCore ctx core ((m.ctxCore ctx core).popped k rest)) := by
  simp only [popFed, entries, unread, List.isEmpty_nil, if_true, CtxCore.popped]

theorem oldestFed_some {w : Warp} {op k : Nat} {p : Pend} (pend : w.pend? op = some p) (fed : p.kind = .queueFed k)
    (oldest : w.pends.find? (fun q => q.kind == .queueFed k) = some p) : w.oldestFed op = some (p, k) := by
  simp only [Warp.oldestFed, pend, Option.bind_some, fed, oldest, Option.any_some, pend?_id pend, BEq.rfl, if_true]

/-- A map from the keys of a list. -/
theorem mget_keyed {α : Type} (f : Nat → α) {ls : List Nat} {k : Nat} (h : k ∈ ls) : mget (ls.map fun l => (l, f l)) k = some (f k) := by
  induction ls with
  | nil => cases h
  | cons a ls ih =>
    rw [List.map_cons, mget]
    split
    next here => rw [here]
    next other => exact ih ((List.mem_cons.1 h).resolve_left other)

/-- The entry that a queue-fed load has popped, for each of its lanes. -/
def fedVals (lanes : Word) (e : Word) : SMap (List Word) := (maskLanes lanes).map (fun l => (l, [e]))

theorem mget_fedVals {lanes e : Word} {l : Nat} (own : inMask lanes l = true) (lane : l < 32) : mget (fedVals lanes e) l = some [e] :=
  mget_keyed _ (mem_maskLanes.2 ⟨lane, own⟩)

/-- `QUEUE_FED_LOAD_WRITE` of a resident warp. -/
theorem queueFedLoadWrite_pops {s : State} {core pos op k : Nat} {w : Warp} {p : Pend} {e : Word} {rest : List Word} (there : s.m.warp? core pos = some w)
    (oldest : w.oldestFed op = some (p, k)) (pop : popFed s.m w.ctx core k = some (e, s.m.setCtxCore w.ctx core ((s.m.ctxCore w.ctx core).popped k rest))) :
    exec (.queueFedLoadWrite core pos op) s
      = .next (s.withM ((s.m.setCtxCore w.ctx core ((s.m.ctxCore w.ctx core).popped k rest)).setWarp core pos (w.complete p (fedVals p.lanes e)))) := by
  simp only [exec_queueFedLoadWrite, execQueueFedLoadWrite, there, oldest, Option.bind_some, pop, Option.map_some]
  rfl

/-- Settles O31: each return by its lemma above, and the registers by `regLane_complete`. -/
theorem resultsReturn : Obligations.ResultsReturn := by
  intro s core pos op w p there pend
  have id := pend?_id pend
  refine ⟨fun load slot whole => ?_, fun remote slot => ?_, fun m fill room => ?_, fun k e rest fed entries bound unread oldest one => ?_⟩
  · refine ⟨_, w.complete p p.vals, loadReturn_load there pend load slot, by simp, by rw [← id]; rfl, fun r l lane => regLane_complete w p p.vals lane (whole l lane), rfl, rfl,
      fun q other => by simp [other], rfl, rfl⟩
  · exact ⟨_, w.released op, loadReturn_remote there pend remote slot, by simp, rfl, rfl, fun i g r group run waits => released_run group run waits,
      fun q other => by simp [other], rfl, rfl⟩
  · have spills := makeRoom_spills _ _ _ _ _ room
    exact ⟨_, w.refilled op p.reg, satchelFill_fill there pend fill room, by simp, rfl, rfl, rfl, rfl, spills.below, spills.boxes⟩
  · refine ⟨_, w.complete p (fedVals p.lanes e), queueFedLoadWrite_pops there (oldestFed_some pend fed oldest) (popFed_some entries unread), by simp, by rw [← id]; rfl,
      fun r l lane => ?_, ?_, rfl⟩
    · rw [regLane_complete w p (fedVals p.lanes e) lane fun own => by rw [mget_fedVals own lane]; rfl, one]
      have here : (p.reg ≤ r ∧ r < p.reg + 1 ∧ inMask p.lanes l = true) ↔ (r = p.reg ∧ inMask p.lanes l = true) := by
        constructor
        · exact fun ⟨low, high, own⟩ => ⟨by omega, own⟩
        · exact fun ⟨here, own⟩ => ⟨by omega, by omega, own⟩
      by_cases own : r = p.reg ∧ inMask p.lanes l = true
      · rw [if_pos (here.2 own), if_pos own, mgetD, mget_fedVals own.2 lane, own.1, Nat.sub_self]
        rfl
      · rw [if_neg (mt here.1 own), if_neg own]
    · rw [withM_m, ctxCore_setWarp, ctxCore_setCtxCore_same, entries_popped bound]

end Sys2Proof.Machine
end

section
/-! SUPPORT. What a word's newest pending result owes a lane, as a function that runs; and small states with one warp. -/

namespace Sys2Proof.Machine

/-- What the newest pending result of the warp at the current word owes a lane. -/
def owedAt (out : Host.Outcome State Fault Refusal) (l : Nat) : Option (List Word) :=
  match out with
  | .next u => u.ex?.bind fun y => y.w.pends.getLast?.bind fun p => mget p.vals l
  | _ => none

theorem pends_warpRest {v w : Warp} (h : warpRest v = warpRest w) : v.pends = w.pends := by
  have same := congrArg Warp.pends h
  exact same

/-- A word that has left its result pending owes each active lane that result. -/
theorem owed_of_issued {s : State} {x : Ex} {t : State} {y : Ex} {e : Rest} {srcs : List Src} {d : BitVec 8} {count : Nat} {res : Nat → List Word}
    (h : Issued s x t y e srcs d count res) (v : isV d = true) {l : Nat} (active : l ∈ x.lanes) : owedAt (.next t) l = some (res l) := by
  obtain ⟨vals, places, sync, owes, done⟩ := h.done
  have pends := pends_warpRest done.warp
  rw [if_pos v, if_pos v] at pends
  simp only [owedAt, done.here, Option.bind_some, pends, List.getLast?_concat]
  exact owes l active

/-- A warp of context 1 with a run under way in some of its lanes. -/
def loneWarp (lanes : Word) (regs : SMap LaneVec) : Warp :=
  { Warp.fresh 5 placeSlice 0 0 0 with
    groups := [{ Group.at_ lanes 0x3000 0 with
      run := some { start := 0x3000, words := [], fetchFault := none, pos := 0, latches := [], nextPc := [], wait := .none, desc := [] } }]
    regs := regs }

/-- A package that runs such a warp at core 0, position 0, with one page of 1 GiB at address 0 in the core's TLB: readable, writable, accessed and dirty. -/
def loneState (w : Warp) (l1 : SMap L1Sector) (late : List Late) (rels : List RelTag) : State :=
  { State.reset with
    boot := .running, partitions := [(0, { clusters := [0, 1], frames := [], wsBase := 0, wsLimit := 0x10000 })], contexts := [(1, placeContext)]
    m := { Mach.reset with
      nextId := 10, cur := some { core := 0, pos := 0, hand := false, grp := 0 }, late := late, rels := rels
      tlb := [{ ctx := 1, cluster := 0, core := some 0, base := 0, size := 2 ^ 30, frame := 0, pte := 0xDF, level := 2, leafAt := 0x2000 }]
      cores := [(0, { Core.fresh with warps := [(0, w)], active := [0], l1 := l1 })] } }

/-- The word's place in such a state. -/
def loneEx (w : Warp) : Ex := { core := 0, pos := 0, hand := false, grp := 0, w := w, g := w.groups.headD default, r := (w.groups.headD default).run.getD default }

/-- The leaf that translates an address there. -/
def loneAt (va : Nat) : Xlat := { pa := va, mt := 0, level := 2, left := 2 ^ 30 - va }

end Sys2Proof.Machine
end

section
/-! SUPPORT. A load through an L1 that lists a sector twice. -/

namespace Sys2Proof.Machine

/-- A sector of L1 full of one byte. -/
def sectorOf (b : Byte) : L1Sector := { bytes := List.replicate 32 b, val := true, drt := false, wmask := 0 }

/-- An L1 at its limit of 2048 sectors whose first two entries are of the same sector, 5. -/
def doubledL1 : SMap L1Sector := (5, sectorOf 0x11) :: (5, sectorOf 0x22) :: List.replicate 2046 (7, sectorOf 0)

/-- Lane 0 has the address 192, in sector 6, and lane 1 the address 160, in sector 5. -/
def doubledWarp : Warp := loneWarp 3 [(0, 192 :: 160 :: List.replicate 30 0)]
def doubledState : State := loneState doubledWarp doubledL1 [] []
def doubledEx : Ex := loneEx doubledWarp

/-- Lane 0's access fills sector 6 and the fill drops the oldest entry, so that lane 1's access finds the second entry of sector 5. -/
theorem doubled_owes : owedAt (exec (.ld 4 0 0 0 4) doubledState) 1 = some [0x22222222] := by decide +kernel

/-- Where the lanes' addresses are translated to. -/
def doubledAt (l : Nat) : Xlat := loneAt (if l = 0 then 192 else 160)

theorem doubled_hits : ∀ l ∈ doubledEx.lanes, (pairAt doubledEx 0 l).toNat % tyBytes 4 = 0
    ∧ Hit doubledState doubledEx.w.ctx doubledEx.core (pairAt doubledEx 0 l) .read (doubledAt l)
    ∧ paClass doubledState (doubledAt l).pa = .hbm 0 ∧ poisonedRange doubledState.m (doubledAt l).pa (tyBytes 4) = false := by decide +kernel

/-- Refutes O24: where the L1 of the core lists a sector twice and is at its limit, the fill for one lane of a load drops the first listing, and a later lane reads what the second one holds: neither
what its die reads there nor what the L1 copy held when the word was executed. The statement asks of the state no more than the word's own conditions; that an L1 lists a sector once is not among them. -/
theorem not_globalLoads : ¬ Obligations.GlobalLoads := by
  rintro ⟨loads, -⟩
  obtain ⟨lanes, -⟩ := loads doubledState doubledEx 4 0 0 0 4 doubledState.m doubledAt (by decide +kernel) (by decide) (by decide +kernel) rfl (by decide +kernel) (fun op => nofun) (by decide +kernel)
  have plain : ¬((0 : BitVec 2) = 1 ∧ 8 ≤ syncOut doubledState doubledState.m doubledEx.core) := fun h => absurd h.1 (by decide)
  obtain ⟨go, -⟩ := lanes (by decide +kernel) fun l active =>
    have ⟨aligned, hit, hbm, clean⟩ := doubled_hits l active
    ⟨aligned, hit, ⟨0, hbm⟩, clean⟩
  obtain ⟨u, y, l1, m', res, run, loaded, -, -, issued⟩ := go fun _ _ full => absurd full plain
  have active : 1 ∈ doubledEx.lanes := by decide +kernel
  have owed := owed_of_issued issued (by decide) active
  rw [← run, doubled_owes] at owed
  have value := Option.some.inj owed
  obtain memory | ⟨-, -, sec, listed, copy⟩ := loaded 1 active
  · rw [← value] at memory
    exact absurd memory (by decide +kernel)
  · have first : mget (doubledState.m.core doubledEx.core).l1 ((doubledAt 1).pa / 32) = some (sectorOf 0x11) := by decide +kernel
    rw [← value, ← Option.some.inj (first.symm.trans listed)] at copy
    exact absurd copy (by decide +kernel)

end Sys2Proof.Machine
end

section
/-! SUPPORT. An atomic that reads a release of a write whose number another late write has too. -/

namespace Sys2Proof.Machine

/-- A late write, numbered 7 as every one here, of the word at an address that a die reads as 1 until it applies it. -/
def lateSeven (die pa : Nat) : Late :=
  { id := 7, die := die, agent := { ctx := 1, core := 1, warp := 9, gang := none }, thread := 9, access := 6, lanes := 1, pa := pa, old := [some 1], carry := [] }

/-- A release of write 7 that whoever reads it acquires, at the word at 8192. -/
def releaseSeven : RelTag := { id := 9, pa := 8192, len := 4, srcs := [{ scope := 5, agent := { ctx := 1, core := 1, warp := 9, gang := none }, ids := [7], direct := true }] }

/-- One lane adds 0 to the word at 8192, which the die numbered 2 has still to see written; so has die 0 another word. -/
def sevenWarp : Warp := loneWarp 1 [(0, 8192 :: List.replicate 31 0)]
def sevenState : State := loneState sevenWarp [] [lateSeven 0 4096, lateSeven 2 8192] [releaseSeven]
def sevenEx : Ex := loneEx sevenWarp

/-- The acquire applies both writes before the atomic reads. -/
theorem seven_owes : owedAt (exec (.atom 0 4 0 0 0 0) sevenState) 0 = some [0] := by decide +kernel

/-- The newest value of the word before that is 1. -/
theorem seven_newest : (List.range (atomWrites 0)).map (fun i => BitVec.ofNat 32 (bytesToNat (viewBytes sevenState.m 2 (loneAt 8192).pa (atomSize 0)) / 2 ^ (32 * i))) = [1] := by decide +kernel

/-- Refutes O26: where a late write is one of die 2, which is no compute die and stands for the newest value, and has the number of a late write of the core's die, an atomic that reads a release of
that number applies both before it reads its location, and finds there another value than the newest one before the word. The statement asks of the state no more than the word's own conditions; that
late writes are of the two compute dies, and have numbers of their own, is not among them. -/
theorem not_globalAtomics : ¬ Obligations.GlobalAtomics := by
  intro atomics
  obtain ⟨issue, -⟩ := atomics sevenState sevenEx 4 0 0 0 0 (by decide +kernel) (by decide +kernel) (by decide) (by decide +kernel)
  obtain ⟨returns, -⟩ := issue (by decide +kernel) rfl
  obtain ⟨one, -⟩ := returns sevenState.m (loneAt 8192) 0 (by decide +kernel) (by decide) (by decide +kernel) (fun op => nofun) (fun _ _ _ _ => nofun) (fun _ => by decide +kernel) (by decide +kernel)
    (by decide +kernel) (by decide +kernel) (by decide +kernel)
  obtain ⟨u, y, run, m', l1, -, issued⟩ := one 0 (by decide +kernel) (by decide)
  have owed := owed_of_issued issued (by decide) (l := 0) (by decide +kernel)
  rw [← run, seven_owes] at owed
  have value : [(0 : Word)] = [1] := (Option.some.inj owed).trans seven_newest
  exact absurd value (by decide)

end Sys2Proof.Machine
end

section
/-! SUPPORT. Issued stores performed and recorded (R146, R130, R134, R148, R150, R380). -/

namespace Sys2Proof.Machine

/-! A write by an agent of any core, and what of it moves beside memory. -/

theorem cores_writePa {s : State} {pa : Nat} (h : InMemory s pa) (m : Mach) (bs : List (Option Byte)) : (writePa s m pa bs).cores = m.cores := by
  obtain ⟨late, rels, e⟩ := settleLate_eq m (fun w => w.overlaps pa bs)
  rw [writePa, e]
  exact (writePlace_placed h _ bs true).cores

theorem cores_settleLate (m : Mach) (p : Late → Bool) : (settleLate m p).cores = m.cores := by
  obtain ⟨late, rels, e⟩ := settleLate_eq m p
  rw [e]

/-- A write to HBM by an agent of any core (R303). -/
theorem writeFrom_wrote {s : State} {pa die : Nat} (hbm : paClass s pa = .hbm die) (m : Mach) (o : Writer) (bs : List (Option Byte)) (cached : Bool) (seq : List RelSrc) :
    Wrote m (writeFrom s m o pa bs cached seq) o.agent.core pa bs ∧ (writeFrom s m o pa bs cached seq).cores = m.cores := by
  have numbered : Beside m { m with nextId := m.nextId + 1 } := rfl
  by_cases compute : dieOf o.agent.core < 2
  · let p := fun (w : Late) => w.die == dieOf o.agent.core && w.overlaps pa bs
    let n := settleLate { m with nextId := m.nextId + 1 } p
    have beside : Beside m n := numbered.trans (beside_settleLate _ p)
    have clear : ∀ w ∈ n.late, w.die = dieOf o.agent.core → w.overlaps pa bs = false := fun w late own => by
      simpa [p, own] using (late_settleLate late).2
    have placed := writePlace_placed (inMemory_hbm hbm) n bs cached
    have wrote := Placed.wrote hbm cached beside clear
    have run : ∃ (w : Late) (tags : List RelTag), w.die = 1 - dieOf o.agent.core ∧ writeFrom s m o pa bs cached seq
        = { writePlace s n pa bs cached with late := (writePlace s n pa bs cached).late ++ [w], rels := tags } := by
      simp only [writeFrom, isHbm, hbm_of_class hbm, compute, decide_true, Bool.and_self, if_true, newId_fst, newId_snd]
      exact ⟨_, _, rfl, rfl⟩
    obtain ⟨w, tags, other, eq⟩ := run
    generalize writePlace s n pa bs cached = k at placed wrote eq
    rw [eq]
    refine ⟨⟨wrote.rest, wrote.mem, fun v late own => ?_⟩, placed.cores.trans (cores_settleLate ..)⟩
    obtain late | late := List.mem_append.1 late
    · exact wrote.clear v late own
    · rw [List.mem_singleton.1 late, other] at own
      omega
  · have run : ∃ p, writeFrom s m o pa bs cached seq = writePa s (settleLate { m with nextId := m.nextId + 1 } p) pa bs := by
      simp only [writeFrom, compute, decide_false, Bool.and_false, Bool.false_eq_true, if_false, newId_fst, newId_snd]
      exact ⟨_, rfl⟩
    obtain ⟨p, eq⟩ := run
    rw [eq]
    exact ⟨(writePa_wrote hbm _ _ bs).after (numbered.trans (beside_settleLate _ p)), (cores_writePa (inMemory_hbm hbm) _ bs).trans (cores_settleLate ..)⟩

/-- Of the cores at most the L1 of one has changed. -/
structure Quiet (m n : Mach) (core : Nat) : Prop where
  others : ∀ c, c ≠ core → n.core c = m.core c
  own    : { n.core core with l1 := [] } = { m.core core with l1 := [] }

theorem quiet_patchL1 {m n : Mach} (h : n.cores = m.cores) (core pa : Nat) (bs : List (Option Byte)) : Quiet m (patchL1 n core pa bs) core := by
  have same : ∀ c, n.core c = m.core c := fun c => by rw [Mach.core, Mach.core, h]
  refine ⟨fun c other => ?_, ?_⟩
  · rw [patchL1, core_adjCore, if_neg other, same]
  · rw [patchL1, core_adjCore, if_pos rfl, same]

/-- Named bytes of a store performed on one page (R130, R134). -/
theorem performBytes_one {s : State} {m : Mach} {st : Store} {lanes : Word} {x : Xlat} {bs : List (Option Byte)} {die : Nat} (hbm : paClass s x.pa = .hbm die) :
    Wrote m (performBytes s m st lanes [(x, bs)]) st.core x.pa bs ∧ Quiet m (performBytes s m st lanes [(x, bs)]) st.core := by
  obtain ⟨wrote, cores⟩ := writeFrom_wrote hbm m (st.writer m lanes) bs (x.mt ≠ 2) []
  exact ⟨wrote.before rfl fun _ late => late, quiet_patchL1 cores st.core x.pa bs⟩

/-- The same change to the issued stores before and after a write. -/
theorem wroteAt_withStores {m n : Mach} {core pa : Nat} {bs : List (Option Byte)} (h : WroteAt m n core pa bs) (f : List Store → List Store) :
    WroteAt { m with stores := f m.stores } { n with stores := f n.stores } core pa bs where
  rest := congrArg (fun k : Mach => { k with stores := f k.stores }) h.rest
  bytes := h.bytes
  own := h.own

/-- A write whose first bytes are not named is a write further up. -/
theorem wroteAt_lead {m n : Mach} {core pa : Nat} {bs : List (Option Byte)} {k : Nat} (unnamed : ∀ i < k, bs.getD i none = none) (h : WroteAt m n core (pa + k) (bs.drop k)) :
    WroteAt m n core pa bs where
  rest := h.rest
  bytes a := by
    have byte : (if pa + k ≤ a then (bs.drop k).getD (a - (pa + k)) none else none) = (if pa ≤ a then bs.getD (a - pa) none else none) := by
      by_cases high : pa + k ≤ a
      · rw [if_pos high, if_pos (by omega), List.getD_eq_getElem?_getD, List.getElem?_drop, ← List.getD_eq_getElem?_getD, show k + (a - (pa + k)) = a - pa by omega]
      · rw [if_neg high]
        split
        · exact (unnamed _ (by omega)).symm
        · rfl
    rw [← byte]
    exact h.bytes a
  own i v named := by
    have high : k ≤ i := by
      by_contra low
      rw [unnamed i (by omega)] at named
      cases named
    have there := h.own (i - k) v (by rw [List.getD_eq_getElem?_getD, List.getElem?_drop, ← List.getD_eq_getElem?_getD, show k + (i - k) = i by omega, named])
    rwa [show pa + k + (i - k) = pa + i by omega] at there

/-- The machine without some stores. -/
def withoutStores (m : Mach) (gone : List Store) : Mach := { m with stores := m.stores.filter (fun o => gone.all (fun g => o.seq ≠ g.seq)) }

theorem foldl_dropStore (gone : List Store) (m : Mach) : gone.foldl (fun m o => dropStore m o.seq) m = withoutStores m gone := by
  induction gone generalizing m with
  | nil => simp [withoutStores]
  | cons g gone ih =>
    rw [List.foldl_cons, ih]
    simp only [withoutStores, dropStore, List.filter_filter, List.all_cons]
    refine congrArg (fun l => { m with stores := l }) (List.filter_congr fun o _ => ?_)
    rw [Bool.and_comm]

theorem endStore_plain {m : Mach} {st : Store} (entry : st.entry = none) : endStore m st = withoutStores m [st] := by
  simp only [endStore, finishPublication, entry, Option.isSome_none, Bool.false_eq_true, if_false]
  exact foldl_dropStore [st] m

/-! Translations through a hit. -/

/-- A hit translates in any machine with the same TLBs. -/
theorem translate_sameTlb {s : State} {m : Mach} {ctx core : Nat} {va : DWord} {acc : Access} {t : Xlat} (tlb : m.tlb = s.m.tlb) (h : Hit s ctx core va acc t) :
    translate s m ctx core va acc = .ok t m := by
  obtain ⟨range, e, hit, own, dirty, rfl, check⟩ := h
  have clean : (acc.writes && !pteBit e.pte 7) = false := by
    cases hw : acc.writes
    · rfl
    · simp [dirty hw]
  have same : tlbHit m ctx core va.toNat = some e := by
    rw [← Option.mem_def.1 hit]
    simp only [tlbHit, tlbFind, tlb]
  simp only [translate, ge_iff_le, Nat.not_le.2 range, if_false, same, clean, Bool.false_eq_true, check, own, if_true]

/-- A page and what it maps to lie alike in the pages of 4 KiB. -/
theorem hit_offset {s : State} {ctx core : Nat} {va : DWord} {acc : Access} {t : Xlat} (h : Hit s ctx core va acc t) : t.pa % 4096 = va.toNat % 4096 := by
  obtain ⟨-, e, -, -, -, rfl, -⟩ := h
  have size : 4096 ∣ leafSize e.level e.pte := by
    unfold leafSize
    split
    · split <;> decide
    · decide
    · decide
  simp only [leafXlat, pteFrame, Nat.mul_add_mod_self_right, Nat.mod_mod_of_dvd _ size]

/-! A store of bytes on one page. -/

/-- The bytes of a store that lie before the first one that it names. -/
def leadOf (bs : List (Option Byte)) : Nat := (bs.takeWhile Option.isNone).length

theorem leadOf_unnamed {bs : List (Option Byte)} {i : Nat} (h : i < leadOf bs) : bs.getD i none = none := by
  have inside : i < bs.length := Nat.lt_of_lt_of_le h (List.takeWhile_prefix _).length_le
  have unnamed := List.mem_takeWhile_imp (List.getElem_mem h)
  rw [List.getD_eq_getElem?_getD, List.getElem?_eq_getElem inside, ← List.IsPrefix.getElem (List.takeWhile_prefix Option.isNone) h]
  exact Option.isNone_iff_eq_none.1 unnamed

theorem leadOf_lt {bs : List (Option Byte)} (named : bs.any Option.isSome = true) : leadOf bs < bs.length := by
  induction bs with
  | nil => cases named
  | cons b bs ih =>
    cases b with
    | none => simpa [leadOf] using ih (by simpa using named)
    | some v => simp [leadOf]

theorem storePages_one {st : Store} {bs : List (Option Byte)} (op : st.op = .bytes bs) (fits : st.addr.toNat % 4096 + bs.length ≤ 4096) (named : bs.any Option.isSome = true) :
    storePages st = [(st.addr, bs)] := by
  have pos : 0 < bs.length := Nat.lt_of_le_of_lt (Nat.zero_le _) (leadOf_lt named)
  simp only [storePages, op, pageParts_one _ pos fits, List.foldl_cons, List.foldl_nil, List.nil_append, List.take_length]
  exact List.filter_cons_of_pos named

/-- A store on one page is translated where its first named byte lies. -/
theorem storeTranslate_one {s : State} {m : Mach} {st : Store} {bs : List (Option Byte)} (place : st.place = none) (op : st.op = .bytes bs)
    (fits : st.addr.toNat % 4096 + bs.length ≤ 4096) (named : bs.any Option.isSome = true) :
    storeTranslate s m st = (translate s m st.ctx st.core (st.addr + BitVec.ofNat 64 (leadOf bs)) .write).next (fun x m => .ok [(x, bs.drop (leadOf bs))] m) := by
  rw [storeTranslate, storePages_one op fits named]
  split
  next found _ => rw [place] at found; cases found
  next => rfl

theorem storeTranslate_hit {s : State} {m : Mach} {st : Store} {bs : List (Option Byte)} {x : Xlat} (tlb : m.tlb = s.m.tlb) (place : st.place = none) (op : st.op = .bytes bs)
    (fits : st.addr.toNat % 4096 + bs.length ≤ 4096) (named : bs.any Option.isSome = true) (hit : Hit s st.ctx st.core (st.addr + BitVec.ofNat 64 (leadOf bs)) .write x) :
    storeTranslate s m st = .ok [(x, bs.drop (leadOf bs))] m := by
  rw [storeTranslate_one place op fits named, translate_sameTlb tlb hit]
  rfl

/-- A store whose first byte is named. -/
theorem leadOf_head {bs : List (Option Byte)} {b : Byte} (head : bs.head? = some (some b)) : leadOf bs = 0 ∧ bs.any Option.isSome = true := by
  obtain _ | ⟨c, bs⟩ := bs
  · cases head
  · cases head
    exact ⟨rfl, rfl⟩

theorem storeTranslate_head {s : State} {st : Store} {bs : List (Option Byte)} {b : Byte} (place : st.place = none) (op : st.op = .bytes bs) (head : bs.head? = some (some b))
    (fits : st.addr.toNat % 4096 + bs.length ≤ 4096) :
    storeTranslate s s.m st = (translate s s.m st.ctx st.core st.addr .write).next (fun x m => .ok [(x, bs)] m) := by
  obtain ⟨lead, named⟩ := leadOf_head head
  have here : st.addr + BitVec.ofNat 64 0 = st.addr := BitVec.add_zero _
  rw [storeTranslate_one place op fits named, lead, here, List.drop_zero]

/-! A store performed by itself, and one with those combined with it. -/

section
variable {s : State} {warp : Nat} {st : Store} {bs : List (Option Byte)} {b : Byte} {x : Xlat} {die : Nat}

/-- The oldest issued store of a warp, of bytes that are translated in one part. -/
theorem storePerformed_bytes {m : Mach} {parts : List (Xlat × List (Option Byte))} (next : nextStore s.m warp = some st) (whole : st.failed = none) (op : st.op = .bytes bs)
    (found : storeTranslate s s.m st = .ok parts m) :
    (joinedStores s.m st = [] → exec (.storePerformed warp) s = .next (s.withM (performAlone s m st parts)))
    ∧ (∀ o more part, joinedStores s.m st = o :: more → parts = [part] → part.1.mt ≠ 2 →
      exec (.storePerformed warp) s = .next (s.withM (withoutStores
        (performBytes s m st ((st :: o :: more).foldl (fun l o => l ||| o.lanes) 0) [({ part.1 with pa := part.1.pa / 32 * 32 }, sectorBytes (st :: o :: more))]) (st :: o :: more)))) := by
  refine ⟨fun alone => ?_, fun o more part joined one cached => ?_⟩
  · simp only [exec_storePerformed, execStorePerformed, next, Option.filter, whole, Option.isNone_none, if_true, op, found, alone]
  · subst one
    simp only [exec_storePerformed, execStorePerformed, next, Option.filter, whole, Option.isNone_none, if_true, op, found, joined, cached, if_false, foldl_dropStore]

/-- Performed by itself, as one access. -/
theorem performAlone_whole {m : Mach} {parts : List (Xlat × List (Option Byte))} (entry : st.entry = none) (one : ¬(st.kind = 7 ∧ 1 < st.words.length)) :
    performAlone s m st parts = withoutStores (performBytes s m st st.lanes parts) [st] := by
  unfold performAlone
  dsimp only
  rw [if_neg one, endStore_plain entry]

theorem storePerformed_alone (next : nextStore s.m warp = some st) (entry : st.entry = none) (whole : st.failed = none) (place : st.place = none) (op : st.op = .bytes bs)
    (head : bs.head? = some (some b)) (fits : st.addr.toNat % 4096 + bs.length ≤ 4096) (hit : Hit s st.ctx st.core st.addr .write x) (hbm : paClass s x.pa = .hbm die)
    (alone : joinedStores s.m st = []) (one : ¬(st.kind = 7 ∧ 1 < st.words.length)) :
    ∃ n, exec (.storePerformed warp) s = .next (s.withM (withoutStores n [st])) ∧ Wrote s.m n st.core x.pa bs ∧ Quiet s.m n st.core := by
  have found : storeTranslate s s.m st = .ok [(x, bs)] s.m := by
    rw [storeTranslate_head place op head fits, translate_hit hit]
    rfl
  refine ⟨_, ?_, performBytes_one (lanes := st.lanes) hbm⟩
  rw [(storePerformed_bytes next whole op found).1 alone, performAlone_whole entry one]

theorem storePerformed_joined (next : nextStore s.m warp = some st) (whole : st.failed = none) (place : st.place = none) (op : st.op = .bytes bs)
    (head : bs.head? = some (some b)) (fits : st.addr.toNat % 4096 + bs.length ≤ 4096) (hit : Hit s st.ctx st.core st.addr .write x) (hbm : paClass s x.pa = .hbm die)
    {o : Store} {more : List Store} (joined : joinedStores s.m st = o :: more) (cached : x.mt ≠ 2) :
    ∃ n, exec (.storePerformed warp) s = .next (s.withM (withoutStores n (st :: o :: more))) ∧ Wrote s.m n st.core (x.pa / 32 * 32) (sectorBytes (st :: o :: more)) ∧ Quiet s.m n st.core := by
  have found : storeTranslate s s.m st = .ok [(x, bs)] s.m := by
    rw [storeTranslate_head place op head fits, translate_hit hit]
    rfl
  have low := hbm_of_class hbm
  obtain ⟨die', place'⟩ := class_hbm s (pa := x.pa / 32 * 32) (by omega)
  exact ⟨_, (storePerformed_bytes next whole op found).2 o more (x, bs) joined rfl cached, performBytes_one (x := { x with pa := x.pa / 32 * 32 }) place'⟩

end

/-! The bytes of an `STM` in two words (R148). -/

/-- The bytes of a store in one aligned word alone, or all but those. -/
def onlyBytes (addr : Nat) (bs : List (Option Byte)) (word : Nat) (inside : Bool) : List (Option Byte) :=
  (List.range bs.length).map fun i => if ((addr + i) / 4 == word) == inside then bs.getD i none else none

theorem only_eq {st : Store} {bs : List (Option Byte)} (op : st.op = .bytes bs) (word : Nat) (inside : Bool) :
    st.only word inside = { st with op := .bytes (onlyBytes st.addr.toNat bs word inside) } := by
  simp only [Store.only, op, onlyBytes]

theorem length_onlyBytes (addr : Nat) (bs : List (Option Byte)) (word : Nat) (inside : Bool) : (onlyBytes addr bs word inside).length = bs.length := by
  simp [onlyBytes]

theorem mem_namedWords {pa w : Nat} {bs : List (Option Byte)} : w ∈ namedWords pa bs ↔ ∃ i < bs.length, (bs.getD i none).isSome = true ∧ (pa + i) / 4 = w := by
  simp [namedWords, and_assoc]

/-- A byte named in the word, or in another one. -/
theorem onlyBytes_named {addr w word : Nat} {bs : List (Option Byte)} {inside : Bool} (h : w ∈ namedWords addr bs) (side : (w == word) = inside) :
    (onlyBytes addr bs word inside).any Option.isSome = true := by
  obtain ⟨i, bound, named, rfl⟩ := mem_namedWords.1 h
  rw [onlyBytes, List.any_map, List.any_eq_true]
  refine ⟨i, List.mem_range.2 bound, ?_⟩
  rw [Function.comp_apply, side, BEq.rfl, if_pos rfl, named]

/-- Of two named words one is not the chosen one. -/
theorem exists_other_word {pa : Nat} {bs : List (Option Byte)} (word : Nat) (two : 1 < (namedWords pa bs).length) : ∃ w ∈ namedWords pa bs, w ≠ word := by
  unfold namedWords at two ⊢
  generalize ((List.range bs.length).filter fun i => (bs.getD i none).isSome).map (fun i => (pa + i) / 4) = l at two ⊢
  obtain _ | ⟨a, l⟩ := l
  · simp at two
  rw [List.eraseDups_cons] at two ⊢
  by_cases first : a = word
  · obtain ⟨w, there⟩ := List.exists_mem_of_length_pos (l := (l.filter fun b => !b == a).eraseDups) (by simpa using two)
    refine ⟨w, List.mem_cons_of_mem _ there, ?_⟩
    have other := (List.mem_filter.1 (List.mem_eraseDups.1 there)).2
    simpa [first] using other
  · exact ⟨a, List.mem_cons_self, first⟩

/-- The place of the first byte that is not in the word. -/
theorem leadOf_outside (addr word : Nat) (bs : List (Option Byte)) :
    leadOf (onlyBytes addr bs word false) = ((List.range bs.length).takeWhile fun i => (addr + i) / 4 = word || (bs.getD i none).isNone).length := by
  have same : (Option.isNone ∘ fun i => if ((addr + i) / 4 == word) == false then bs.getD i none else none) = fun i => decide ((addr + i) / 4 = word) || (bs.getD i none).isNone := by
    funext i
    by_cases here : (addr + i) / 4 = word <;> simp [here]
  rw [leadOf, onlyBytes, List.takeWhile_map, List.length_map, same]

/-- The first of two accesses: the bytes of one word are performed, and the rest of the store keeps its place. -/
theorem storePerformed_split {s : State} {warp : Nat} {st : Store} {bs : List (Option Byte)} {b : Byte} {x : Xlat} {die : Nat} (next : nextStore s.m warp = some st)
    (whole : st.failed = none) (place : st.place = none) (op : st.op = .bytes bs) (head : bs.head? = some (some b)) (fits : st.addr.toNat % 4096 + bs.length ≤ 4096)
    (hbm : paClass s x.pa = .hbm die) (alone : joinedStores s.m st = []) (masked : st.kind = 7) (two : 1 < st.words.length)
    (hits : ∀ i < bs.length, Hit s st.ctx st.core (st.addr + BitVec.ofNat 64 i) .write { x with pa := x.pa + i, left := x.left - i }) :
    ∃ n, ∃ word ∈ st.words, exec (.storePerformed warp) s
        = .next (s.withM (adjStore n st.seq fun o => { o.only word false with place := some (x.pa + leadOf (onlyBytes st.addr.toNat bs word false), x.mt) }))
      ∧ WroteAt s.m n st.core x.pa (onlyBytes st.addr.toNat bs word true) ∧ Quiet s.m n st.core := by
  have words : st.words = namedWords st.addr.toNat bs := by rw [Store.words, op]
  have pos : 0 < bs.length := by
    obtain ⟨lead, named⟩ := leadOf_head head
    exact lead ▸ leadOf_lt named
  have found : storeTranslate s s.m st = .ok [({ x with pa := x.pa + 0, left := x.left - 0 }, bs)] s.m := by
    have hit := hits 0 pos
    rw [show st.addr + BitVec.ofNat 64 0 = st.addr from BitVec.add_zero _] at hit
    rw [storeTranslate_head place op head fits, translate_hit hit]
    rfl
  let m : Mach := { s.m with free := s.m.free + 1 }
  let word := st.words.getD (Config.freePick s.m.free % st.words.length) 0
  have chosen : word ∈ st.words := by
    have bound : Config.freePick s.m.free % st.words.length < st.words.length := Nat.mod_lt _ (by omega)
    simp only [word, List.getD_eq_getElem?_getD, List.getElem?_eq_getElem bound, Option.getD_some]
    exact List.getElem_mem bound
  -- each half is translated where its first named byte lies
  have half : ∀ inside, (onlyBytes st.addr.toNat bs word inside).any Option.isSome = true → storeTranslate s m (st.only word inside)
      = .ok [({ x with pa := x.pa + leadOf (onlyBytes st.addr.toNat bs word inside), left := x.left - leadOf (onlyBytes st.addr.toNat bs word inside) },
          (onlyBytes st.addr.toNat bs word inside).drop (leadOf (onlyBytes st.addr.toNat bs word inside)))] m := fun inside named => by
    have bound := leadOf_lt named
    rw [length_onlyBytes] at bound
    rw [only_eq op]
    exact storeTranslate_hit (st := { st with op := .bytes (onlyBytes st.addr.toNat bs word inside) }) rfl place rfl (by rwa [length_onlyBytes]) named (hits _ bound)
  have inWord : (onlyBytes st.addr.toNat bs word true).any Option.isSome = true := onlyBytes_named (words ▸ chosen) (by simp)
  have outside : (onlyBytes st.addr.toNat bs word false).any Option.isSome = true := by
    obtain ⟨w, there, other⟩ := exists_other_word word (words ▸ two)
    exact onlyBytes_named there (by simpa using other)
  have bound := leadOf_lt inWord
  rw [length_onlyBytes] at bound
  have offset := hit_offset (hits 0 pos)
  have low := hbm_of_class hbm
  rw [show st.addr + BitVec.ofNat 64 0 = st.addr from BitVec.add_zero _] at offset
  simp only [Nat.add_zero] at offset
  obtain ⟨die', place'⟩ := class_hbm s (pa := x.pa + leadOf (onlyBytes st.addr.toNat bs word true)) (by omega)
  obtain ⟨wrote, quiet⟩ := performBytes_one (m := m) (st := st) (lanes := st.lanes)
    (x := { x with pa := x.pa + leadOf (onlyBytes st.addr.toNat bs word true), left := x.left - leadOf (onlyBytes st.addr.toNat bs word true) })
    (bs := (onlyBytes st.addr.toNat bs word true).drop (leadOf (onlyBytes st.addr.toNat bs word true))) place'
  refine ⟨_, word, chosen, ?_, wroteAt_lead (fun i => leadOf_unnamed) (wrote.after (m := s.m) rfl).wroteAt, ⟨quiet.others, quiet.own⟩⟩
  rw [(storePerformed_bytes next whole op found).1 alone, performAlone]
  simp only [masked, two, and_self, if_true, half true inWord, half false outside, m, word]

/-! An atomic performed (R150, R152). -/

/-- Writes applied: those still late were late before. -/
theorem settleLate_earlier (m : Mach) (p : Late → Bool) : ∃ late rels, settleLate m p = { m with late := late, rels := rels } ∧ ∀ w ∈ late, w ∈ m.late := by
  obtain ⟨late, rels, eq⟩ := settleLate_eq m p
  refine ⟨late, rels, eq, fun w there => ?_⟩
  have stays : w ∈ (settleLate m p).late := by
    rw [eq]
    exact there
  exact (late_settleLate stays).1

theorem acquireFrom_earlier (m : Mach) (srcs : List RelSrc) (sc : Nat) (agent : Agent) :
    ∃ late rels, acquireFrom m srcs sc agent = { m with late := late, rels := rels } ∧ ∀ w ∈ late, w ∈ m.late := by
  unfold acquireFrom acquireIds
  split
  · exact ⟨m.late, m.rels, rfl, fun _ there => there⟩
  · exact settleLate_earlier m _

/-- What an atomic acquires changes no memory, and makes no write late; beside the cores it reaches saved warps alone. -/
theorem storeAcquire_beside (m : Mach) (st : Store) (srcs : List RelSrc) :
    Beside m { storeAcquire m st srcs with saved := m.saved } ∧ ∀ w ∈ (storeAcquire m st srcs).late, w ∈ m.late := by
  unfold storeAcquire
  split
  next sc _ =>
    obtain ⟨late, rels, eq, earlier⟩ := acquireFrom_earlier (if wideScope sc then dropL1 m st.core else m) srcs sc st.agent
    dsimp only
    rw [eq]
    split at earlier
    · rename_i wide
      rw [if_pos wide]
      exact ⟨rfl, earlier⟩
    · rename_i narrow
      rw [if_neg narrow]
      exact ⟨rfl, earlier⟩
  next =>
    split
    · exact ⟨Beside.refl m, fun _ late => late⟩
    · exact ⟨rfl, fun _ late => late⟩

/-- The oldest issued store of a warp, an atomic that is translated by a hit. -/
theorem storePerformed_atomic {s : State} {warp code y die : Nat} {st : Store} {x : Xlat} (next : nextStore s.m warp = some st) (whole : st.failed = none)
    (op : st.op = .atomic code y) (hit : Hit s st.ctx st.core st.addr .atomic x) (hbm : paClass s x.pa = .hbm die) (clean : poisonedRange s.m x.pa (atomSize code) = false) :
    ∃ n, exec (.storePerformed warp) s = .next (s.withM (dropStore n st.seq))
      ∧ WroteAt s.m { n with saved := s.m.saved } st.core x.pa ((natToBytes (atomSize code) (atomComb code (bytesToNat (viewBytes s.m 2 x.pa (atomSize code))) y)).map some) := by
  have low := hbm_of_class hbm
  have small : atomSize code ≤ 8 := by
    unfold atomSize
    split_ifs <;> decide
  let new := atomComb code (bytesToNat (viewBytes s.m 2 x.pa (atomSize code))) y
  let filled := fillL2 s.m x.pa (atomSize code)
  let wrote := atomWrite s (st.writer filled st.lanes) (atomSize code) filled x.pa new
  have read : atomRead s (atomSize code) s.m x.pa = (bytesToNat (viewBytes s.m 2 x.pa (atomSize code)), filled) := by
    simp only [atomRead, readPa_hbm s s.m 2 (atomSize code) x.pa (by omega), isHbm, decide_eq_true low, if_true, filled]
  have made : Wrote s.m wrote st.core x.pa ((natToBytes (atomSize code) new).map some) :=
    ((writeFrom_wrote hbm filled (st.writer filled st.lanes) _ true (srcsRead filled 2 x.pa (atomSize code))).1.after (cached_fillL2 s.m x.pa (atomSize code)).beside).before rfl fun _ late => late
  obtain ⟨beside, late⟩ := storeAcquire_beside wrote st (srcsRead s.m 2 x.pa (atomSize code))
  refine ⟨storeAcquire wrote st (srcsRead s.m 2 x.pa (atomSize code)), ?_, ?_⟩
  · simp only [exec_storePerformed, execStorePerformed, next, Option.filter, whole, Option.isNone_none, if_true, op, translate_hit hit, clean, Bool.and_false, Bool.false_eq_true, if_false, read]
    rfl
  · have saved : wrote.saved = s.m.saved := by
      have same := congrArg Mach.saved made.rest
      exact same
    rw [← saved]
    exact (made.before beside late).wroteAt

/-! A fault recorded (R380). -/

/-- A store that has failed, or whose one page does not translate. -/
theorem storeFault_eq {s : State} {st : Store} {f : FaultInfo} (h : st.failed = some f ∨ (st.failed = none ∧ st.place = none ∧ ∃ bs b, st.op = .bytes bs ∧ bs.head? = some (some b)
      ∧ st.addr.toNat % 4096 + bs.length ≤ 4096 ∧ translate s s.m st.ctx st.core st.addr .write = .fault f s.m)) : storeFault s st = some (f, s.m) := by
  obtain failed | ⟨whole, place, bs, b, op, head, fits, fault⟩ := h
  · simp only [storeFault, failed]
  · simp only [storeFault, whole, op, storeTranslate_head place op head fits, fault, Res.next]

theorem storeFaultRecord_one {s : State} {warp l core pos : Nat} {st : Store} {f : FaultInfo} {w : Warp} (next : nextStore s.m warp = some st) (entry : st.entry = none)
    (fault : storeFault s st = some (f, s.m)) (lanes : st.lanes = laneBit l) (lane : l < 32) (found : s.m.findWarp st.warp = some (core, pos, w))
    (room : (s.m.ctxCore st.ctx core).sfq.length < 16) :
    ∃ u, exec (.storeFaultRecord warp) s = .next u ∧ u.m.mem = s.m.mem ∧ u.m.stores = s.m.stores.filter (fun o => o.seq ≠ st.seq)
      ∧ (u.m.ctxCore st.ctx core).sfq = (s.m.ctxCore st.ctx core).sfq ++
          [{ warp := st.warp, lane := l, reported := false
             entry := { pc := st.pc, run := l, imp := false, slot := st.slot, kind := st.kind, cause := f.cause, detail := f.detail, addr := f.addr } }] := by
  refine ⟨s.withM (recordStoreFault s.m st f), ?_, ?_⟩
  · simp only [exec_storeFaultRecord, execStoreFaultRecord, next, fault]
  · rw [recordStoreFault_one f entry lanes lane found room, withM_m]
    refine ⟨rfl, rfl, ?_⟩
    rw [show ∀ (m : Mach) (seq ctx core : Nat), (dropStore m seq).ctxCore ctx core = m.ctxCore ctx core from fun _ _ _ _ => rfl, ctxCore_setCtxCore_same]

/-! The steps of a warp's oldest store, together. -/

/-- A write, and the change to the issued stores that goes with it, as the step leaves them. -/
theorem performed_of {s : State} {st : Store} {n : Mach} {pa : Nat} {bs : List (Option Byte)} (f : List Store → List Store) (wrote : WroteAt s.m n st.core pa bs) (quiet : Quiet s.m n st.core) :
    let u := s.withM { n with stores := f n.stores }
    WroteAt { s.m with stores := f s.m.stores } u.m st.core pa bs
      ∧ (∀ c, c ≠ st.core → u.m.core c = s.m.core c) ∧ { u.m.core st.core with l1 := [] } = { s.m.core st.core with l1 := [] } ∧ u = s.withM u.m :=
  ⟨wroteAt_withStores wrote f, quiet.others, quiet.own, rfl⟩

end Sys2Proof.Machine
end

section
/-! SUPPORT. Stores issued (R146 to R149, R134, R288, R289). -/

namespace Sys2Proof.Machine

/-! The entries of a word. -/

/-- The entries of a word for its lanes, numbered in order. -/
theorem numberStores_entries (s : State) (x : Ex) (ls : List Nat) (kind : Nat) (addr : Nat → DWord) (bytes : Nat → List (Option Byte)) (rel : Option Nat) :
    numberStores s.m (ls.map fun l => storeEntry x (laneBit l) kind (addr l) (.bytes (bytes l)) rel)
      = ({ s.m with nextId := s.m.nextId + (storesOf s x ls kind addr bytes rel).length }, storesOf s x ls kind addr bytes rel) := by
  have entries : (numberStores s.m (ls.map fun l => storeEntry x (laneBit l) kind (addr l) (.bytes (bytes l)) rel)).2 = storesOf s x ls kind addr bytes rel :=
    List.ext_getElem (by simp [numberStores, storesOf]) fun i _ _ => by
      simp [numberStores, storesOf, storeEntry, wordReleases]
  have count : (ls.map fun l => storeEntry x (laneBit l) kind (addr l) (.bytes (bytes l)) rel).length = (storesOf s x ls kind addr bytes rel).length := by
    simp [storesOf]
  refine Prod.ext ?_ entries
  rw [← count]
  rfl

theorem length_storeData (w : Warp) (t : Nat) (d : BitVec 8) (l : Nat) : (storeData w t d l).length = tyBytes t := by
  unfold storeData
  split
  · exact length_natToBytes ..
  · split
    · exact length_natToBytes ..
    · exact List.length_replicate

/-- The mask of a lane of an `STM` names bytes by its bits (R148). -/
theorem maskedBytes_eq (bs : List Byte) (mask : Nat) :
    ((bs.zip (List.range bs.length)).map fun e => if natBits mask e.2 1 = 1 then some e.1 else none)
      = (List.range bs.length).map fun i => if mask.testBit i then some (bs.getD i 0) else none := by
  refine List.ext_getElem (by simp) fun i bound _ => ?_
  have inside : i < bs.length := by simpa using bound
  have bit : natBits mask i 1 = 1 ↔ mask.testBit i = true := by
    rw [Nat.testBit_eq_decide_div_mod_eq, decide_eq_true_eq, natBits, Nat.pow_one]
  simp [bit, inside]

/-- The bits [3:0] of a lane's mask. -/
theorem stmMask_eq (s : State) (x : Ex) (b : BitVec 8) (l : Nat) :
    (srcValue (s.m.ctxCore x.w.ctx x.core) x (srcI b) 0 l).toNat % 16 = (arg (operands s x [srcI b] l) 0).toNat % 16 := by
  simp only [arg, operands, srcValues, boxOf, List.count_nil, List.getD_cons_zero, BitVec.toNat_setWidth]
  omega

/-! Loads fixed by the stores of a word (R304). -/

/-- The loads fixed over whose bytes a list of stores writes. -/
def Warp.fixStores (w : Warp) (sts : List Store) : Warp := sts.foldl (fun w st => w.fixOver st.addr st.span) w

/-- It changes pending results alone. -/
theorem fixStores_eq (w : Warp) (sts : List Store) : w.fixStores sts = { w with pends := (w.fixStores sts).pends } := by
  induction sts generalizing w with
  | nil => rfl
  | cons st sts ih =>
    rw [Warp.fixStores, List.foldl_cons, ← Warp.fixStores, ih]
    rfl

theorem levels_fixStores (w : Warp) (sts : List Store) : (w.fixStores sts).levels = w.levels := by rw [fixStores_eq]

theorem heldStores_fixStores (w : Warp) (sts : List Store) : heldStores (w.fixStores sts) = heldStores w := by rw [fixStores_eq]; rfl

theorem newSectors_fixStores (w : Warp) (sts new : List Store) : newSectors (w.fixStores sts) new = newSectors w new := by rw [fixStores_eq]; rfl

/-! Issued, held, or without space. -/

section
variable {m : Mach} {x : Ex} {sts : List Store}

/-- Outside speculation the stores stand behind the warp's earlier ones. -/
theorem issueStores_plain (levels : x.w.levels = []) :
    issueStores m { x with w := x.w.fixStores sts } sts
      = some ({ m with stores := m.stores ++ joinStores (m.stores.reverse.find? (fun st => st.warp == x.w.uid)) sts }, { x with w := x.w.fixStores sts }) := by
  have uid : (x.w.fixStores sts).uid = x.w.uid := by rw [fixStores_eq]
  simp only [issueStores, levels_fixStores, levels, uid]

/-- A warp with its stores held by its innermost level. -/
def Warp.withHeld (w : Warp) (lv : Level) (rest : List Level) (sts : List Store) : Warp :=
  { w.fixStores sts with levels :=
      { lv with held := lv.held ++ (joinStores (heldStores w).getLast? sts).map Held.store, shadow := lv.shadow ++ newSectors w sts } :: rest }

theorem issueStores_held {lv : Level} {rest : List Level} (levels : x.w.levels = lv :: rest) (room : shadowUsed m x.core + 32 * (newSectors x.w sts).length ≤ 65536) :
    issueStores m { x with w := x.w.fixStores sts } sts = some (m, { x with w := x.w.withHeld lv rest sts }) := by
  simp only [issueStores, levels_fixStores, levels, newSectors_fixStores, heldStores_fixStores, Nat.not_lt.2 room, if_false]
  rfl

theorem issueStores_full {lv : Level} {rest : List Level} (levels : x.w.levels = lv :: rest) (full : ¬shadowUsed m x.core + 32 * (newSectors x.w sts).length ≤ 65536) :
    issueStores m { x with w := x.w.fixStores sts } sts = none := by
  simp only [issueStores, levels_fixStores, levels, newSectors_fixStores, Nat.not_le.1 full, if_true]

end

/-! The shared operation of stores. -/

section
variable {s : State} {x : Ex} {regs : List Nat} {srcs : List Src} {bad : Nat → Option FaultInfo} {entries : Ex → List Store} {m n : Mach} {z : Ex} {sts : List Store}

/-- No lane at fault: the word goes on for all its lanes. -/
theorem deliver_good (good : ∀ l ∈ x.lanes, bad l = none) : deliver s.m x (x.lanes.filterMap fun l => (bad l).map fun f => (l, f)) = (s.m, some x) := by
  have unharmed : (x.lanes.filterMap fun l => (bad l).map fun f => (l, f)) = [] :=
    List.filterMap_eq_nil_iff.2 fun l active => by rw [good l active, Option.map_none]
  rw [unharmed]
  rfl

theorem storeOp_issues (ready : srcReady s.m x false srcs regs = .go) (good : ∀ l ∈ x.lanes, bad l = none) (numbered : numberStores s.m (entries x) = (n, sts))
    (issued : issueStores n { x with w := x.w.fixStores sts } sts = some (m, z)) :
    storeOp s.m x regs srcs bad entries = (m.setCtxCore x.w.ctx x.core (takeSources (m.ctxCore x.w.ctx x.core) x srcs)).advance ((z.touch regs).taken m srcs) := by
  rw [Warp.fixStores] at issued
  simp only [storeOp, ready, deliver_good good, numbered, issued]

theorem storeOp_closes (ready : srcReady s.m x false srcs regs = .go) (good : ∀ l ∈ x.lanes, bad l = none) (numbered : numberStores s.m (entries x) = (n, sts))
    (full : issueStores n { x with w := x.w.fixStores sts } sts = none) :
    storeOp s.m x regs srcs bad entries = (resolveLevels 4 n { x with w := x.w.fixStores sts }).settle := by
  rw [Warp.fixStores] at full
  simp only [storeOp, ready, deliver_good good, numbered, full, Warp.fixStores]

/-- A word that has issued stores, or had them held, is done. -/
theorem storeOp_done (hx : s.ex? = some x) {k : Nat} {S : List Store} {v : Warp} (ready : srcReady s.m x false srcs regs = .go) (good : ∀ l ∈ x.lanes, bad l = none)
    (numbered : numberStores s.m (entries x) = (n, sts)) (issued : issueStores n { x with w := x.w.fixStores sts } sts = some ({ s.m with nextId := k, stores := S }, { x with w := v }))
    (groups : v.groups = x.w.groups ∧ v.hgroups = x.w.hgroups) (values : v.regs = x.w.regs) :
    Done s x { Rest.same s x with m := { s.m with nextId := k, stores := S }, w := v, box := takeSources (boxOf s x) x srcs }
      (.next (s.withM (storeOp s.m x regs srcs bad entries))) := by
  rw [storeOp_issues ready good numbered issued]
  generalize eq : ({ s.m with nextId := k, stores := S } : Mach) = m
  let y : Ex := (({ x with w := v } : Ex).touch regs).taken m srcs
  have word : y = { x with w := { v with know := y.w.know, lru := y.w.lru } } := taken_word ..
  have ends : WordEnd s x m y := by
    rw [word, ← eq]
    exact { cur := rfl, place := ⟨rfl, rfl, rfl, rfl⟩, groups := groups, run := rfl, group := rfl, cores := fun _ _ => rfl, others := fun _ _ => rfl, boxes := fun _ _ => rfl }
  have box : m.ctxCore x.w.ctx x.core = boxOf s x := by rw [← eq]; rfl
  have own : coreRest (m.core x.core) = coreRest (s.m.core x.core) := by rw [← eq]; rfl
  have rest : warpRest y.w = warpRest v := by rw [word]; rfl
  have flow : FlowKept x y.finished := by rw [word]; exact { nextPc := rfl, depth := ⟨rfl, rfl⟩ }
  have kept : RegsKept x y.finished := fun r l _ => by
    rw [regLane_finished, word]
    show laneOf (mgetD v.regs r zeroVec) l = laneOf (mgetD x.w.regs r zeroVec) l
    rw [values]
  have latches : y.finished.r.latches = x.r.latches := by rw [word]; rfl
  exact ⟨_, y.finished, rfl, wordDone_congr (wordDone_advance hx _ ends) rfl own rest (by rw [box]), flow, kept, latches⟩

/-- Outside speculation. -/
theorem storeOp_plain (hx : s.ex? = some x) {k : Nat} (ready : srcReady s.m x false srcs regs = .go) (good : ∀ l ∈ x.lanes, bad l = none)
    (numbered : numberStores s.m (entries x) = ({ s.m with nextId := k }, sts)) (levels : x.w.levels = []) :
    Done s x { Rest.same s x with
        m := { s.m with nextId := k, stores := s.m.stores ++ joinStores (s.m.stores.reverse.find? (fun st => st.warp == x.w.uid)) sts }
        w := x.w.fixStores sts, box := takeSources (boxOf s x) x srcs }
      (.next (s.withM (storeOp s.m x regs srcs bad entries))) :=
  storeOp_done hx ready good numbered (issueStores_plain levels) (by rw [fixStores_eq]; exact ⟨rfl, rfl⟩) (by rw [fixStores_eq])

/-- In a level with room. -/
theorem storeOp_held (hx : s.ex? = some x) {k : Nat} (ready : srcReady s.m x false srcs regs = .go) (good : ∀ l ∈ x.lanes, bad l = none)
    (numbered : numberStores s.m (entries x) = ({ s.m with nextId := k }, sts)) {lv : Level} {rest : List Level} (levels : x.w.levels = lv :: rest)
    (room : shadowUsed s.m x.core + 32 * (newSectors x.w sts).length ≤ 65536) :
    Done s x { Rest.same s x with m := { s.m with nextId := k }, w := x.w.withHeld lv rest sts, box := takeSources (boxOf s x) x srcs }
      (.next (s.withM (storeOp s.m x regs srcs bad entries))) :=
  storeOp_done hx ready good numbered (issueStores_held levels room) (by rw [Warp.withHeld, fixStores_eq]; exact ⟨rfl, rfl⟩) (by rw [Warp.withHeld, fixStores_eq])

/-- A word whose stores find no space waits for the verdict of its innermost level. -/
theorem storeOp_waits (hx : s.ex? = some x) {lv : Level} {rest : List Level} (ready : srcReady s.m x false srcs regs = .go) (good : ∀ l ∈ x.lanes, bad l = none) {k : Nat}
    (numbered : numberStores s.m (entries x) = ({ s.m with nextId := k }, sts)) (levels : x.w.levels = lv :: rest) (undecided : lv.verdict = none)
    (full : ¬shadowUsed s.m x.core + 32 * (newSectors x.w sts).length ≤ 65536) :
    ∃ y, (s.withM (storeOp s.m x regs srcs bad entries)).ex? = some y ∧ y.r = { x.r with wait := .verdict } ∧ RegsKept x y ∧ y.w.levels = x.w.levels
      ∧ (storeOp s.m x regs srcs bad entries).stores = s.m.stores := by
  have closed : resolveLevels 4 { s.m with nextId := k } { x with w := x.w.fixStores sts } = .waiting { s.m with nextId := k } { x with w := x.w.fixStores sts } 0 := by
    simp only [resolveLevels, resolveInnermost, levels_fixStores, levels, List.isEmpty_cons, Bool.false_eq_true, if_false, undecided]
  rw [storeOp_closes ready good numbered (issueStores_full levels full), closed]
  obtain ⟨cur, -, there, -⟩ := ex?_some hx
  let z : Ex := { x with w := x.w.fixStores sts, r := { x.r with wait := .verdict } }
  have word : z.w = { x.w with pends := z.w.pends } := fixStores_eq x.w sts
  refine ⟨z.settled, ex?_put (z := z) cur ?_, rfl, fun r l _ => ?_, ?_, rfl⟩
  · rw [word]
    exact (List.getElem?_eq_some_iff.mp there).1
  · show z.warp.regLane r l = x.w.regLane r l
    rw [regLane_warp, word]
    rfl
  · have kept : z.warp.levels = z.w.levels := by
      have same := congrArg Warp.levels (warpRest_warp z)
      exact same
    exact kept.trans (levels_fixStores ..)

/-- Every lane at fault: the group parks. -/
theorem storeOp_parks (plain : Plain x) (ready : srcReady s.m x false srcs regs = .go) {f : Nat → FaultInfo} (allBad : ∀ l ∈ x.lanes, bad l = some (f l)) :
    AllParked s x (s.withM (storeOp s.m x regs srcs bad entries)) f x.pc (boxOf s x) := by
  have faults : (x.lanes.filterMap fun l => (bad l).map fun f => (l, f)) = x.lanes.map fun l => (l, f l) := by
    rw [← List.filterMap_eq_map]
    exact List.filterMap_congr fun l active => by rw [allBad l active]; rfl
  obtain ⟨m', delivered, parked⟩ := deliver_all plain f (.refl s x)
  simp only [storeOp, ready, faults, delivered]
  exact parked

end

/-! `ST` and `STM`. -/

/-- The lanes of an `ST` whose address is not a multiple of its width are at fault (R147). -/
def stFault (x : Ex) (p : BitVec 6) (t : BitVec 3) (l : Nat) : Option FaultInfo :=
  if (pairAt x p l).toNat % tyBytes t.toNat ≠ 0 then some (mkFault .align 0 0 (pairAt x p l).toNat) else none

theorem alignFault_eq (a : DWord) : mkFault .align 0 0 a.toNat = { cause := .align, detail := 0, addr := a.setWidth 48 } := by
  have addr : BitVec.ofNat 48 a.toNat = a.setWidth 48 := BitVec.eq_of_toNat_eq (by simp)
  rw [mkFault, addr]
  rfl

/-- The entries of an `ST`. -/
def stEntries (d : BitVec 8) (p : BitVec 6) (o : BitVec 2) (k t : BitVec 3) (y : Ex) : List Store :=
  y.lanes.map fun l => storeEntry y (laneBit l) t.toNat (pairAt y p l) (.bytes ((storeData y.w t.toNat d l).map some)) (if 2 ≤ o.toNat then some k.toNat else none)

/-- `ST` as the shared operation over its entries. -/
theorem exec_st_eq {s : State} {x : Ex} (hx : s.ex? = some x) (d : BitVec 8) (p : BitVec 6) (o : BitVec 2) (k t : BitVec 3) :
    exec (.st d p o k t) s = .next (s.withM (storeOp s.m x ([2 * p.toNat, 2 * p.toNat + 1] ++ (if isV d then (List.range (tyRegs t.toNat)).map (· + d.toNat) else [])) [] (stFault x p t)
      (stEntries d p o k t))) :=
  onWord_next hx _

/-- The bits of the mask in a lane of an `STM`. -/
def stmMask (s : State) (x : Ex) (b : BitVec 8) (l : Nat) : Nat := (arg (operands s x [srcI b] l) 0).toNat % 16

/-- The bytes that an `STM` stores in a lane. -/
def stmBytes (s : State) (x : Ex) (d b : BitVec 8) (l : Nat) : List (Option Byte) :=
  (List.range 4).map fun i => if (stmMask s x b l).testBit i then some ((storeData x.w 4 d l).getD i 0) else none

theorem stmBytes_eq (s : State) (x : Ex) (d b : BitVec 8) (l : Nat) :
    ((storeData x.w 4 d l).zip (List.range 4)).map (fun e => if natBits (stmMask s x b l) e.2 1 = 1 then some e.1 else none) = stmBytes s x d b l := by
  have bytes := maskedBytes_eq (storeData x.w 4 d l) (stmMask s x b l)
  rw [length_storeData] at bytes
  exact bytes

/-- `STM` as the shared operation over its entries. -/
theorem exec_stm_eq {s : State} {x : Ex} (hx : s.ex? = some x) (d : BitVec 8) (p : BitVec 6) (b : BitVec 8) :
    ∃ entries, entries x = ((x.lanes.filter fun l => stmMask s x b l ≠ 0).map fun l => storeEntry x (laneBit l) 7 (pairAt x p l) (.bytes (stmBytes s x d b l)) none)
      ∧ exec (.stm d p b) s = .next (s.withM (storeOp s.m x ([2 * p.toNat, 2 * p.toNat + 1] ++ (if isV d then (List.range 1).map (· + d.toNat) else [])) [srcI b] (fun _ => none) entries)) := by
  refine ⟨_, ?_, onWord_next hx _⟩
  simp only [stmMask_eq]
  exact List.map_congr_left fun l _ => congrArg (fun bs => storeEntry x (laneBit l) 7 (pairAt x p l) (.bytes bs) none) (stmBytes_eq s x d b l)

end Sys2Proof.Machine
end

section
namespace Sys2Proof.Machine

/-- Settles O25: `ST` and `STM` are the shared operation `storeOp` over the entries that `storesOf` lists, and each way it ends is a lemma above; so is each step of a warp's oldest store. -/
theorem storesIssueAndPerform : Obligations.StoresIssueAndPerform := by
  refine ⟨?_, fun s warp st next entry => ⟨fun bs x die whole place op => ?_, fun code y x die whole op hit hbm clean => ?_, fun l f core pos w fault lanes lane found room => ?_⟩⟩
  · intro s x d p o k t b hx _
    refine ⟨fun ready => ⟨fun aligned => ?_, fun plain skew => ?_⟩, fun ready => ?_⟩
    · rw [exec_st_eq hx]
      have good : ∀ l ∈ x.lanes, stFault x p t l = none := fun l active => if_neg (not_not.2 (aligned l active))
      have numbered : numberStores s.m (stEntries d p o k t x) = _ := numberStores_entries s x x.lanes t.toNat (pairAt x p) (fun l => (storeData x.w t.toNat d l).map some) (if 2 ≤ o.toNat then some k.toNat else none)
      refine ⟨fun levels => storeOp_plain hx ready good numbered levels, fun lv rest levels room => storeOp_held hx ready good numbered levels room, fun lv rest levels full undecided => ?_⟩
      obtain ⟨y, waits⟩ := storeOp_waits hx ready good numbered levels undecided full
      exact ⟨_, y, rfl, waits⟩
    · rw [exec_st_eq hx]
      refine ⟨_, rfl, storeOp_parks plain ready fun l active => ?_⟩
      rw [stFault, if_pos (skew l active), alignFault_eq]
    · obtain ⟨entries, list, run⟩ := exec_stm_eq hx d p b
      have numbered := numberStores_entries s x (x.lanes.filter fun l => stmMask s x b l ≠ 0) 7 (pairAt x p) (stmBytes s x d b) none
      rw [← list] at numbered
      rw [run]
      exact ⟨fun levels => storeOp_plain hx ready (fun _ _ => rfl) numbered levels, fun lv rest levels room => storeOp_held hx ready (fun _ _ => rfl) numbered levels room⟩
  · rintro ⟨⟨b, head⟩, fits⟩ hit hbm
    refine ⟨fun alone one => ?_, fun more joined combined cached => ?_, fun alone masked two hits => ?_⟩
    · obtain ⟨n, run, wrote, quiet⟩ := storePerformed_alone next entry whole place op head fits hit hbm alone one
      exact ⟨_, run, performed_of _ wrote.wroteAt quiet⟩
    · obtain ⟨o, more, rfl⟩ := List.exists_cons_of_ne_nil combined
      obtain ⟨n, run, wrote, quiet⟩ := storePerformed_joined next whole place op head fits hit hbm joined cached
      exact ⟨_, run, performed_of _ wrote.wroteAt quiet⟩
    · obtain ⟨n, word, chosen, run, wrote, quiet⟩ := storePerformed_split next whole place op head fits hbm alone masked two hits
      have inside : onlyBytes st.addr.toNat bs word true = (List.range bs.length).map fun i => if (st.addr.toNat + i) / 4 = word then bs.getD i none else none := by
        simp [onlyBytes]
      rw [leadOf_outside] at run
      exact ⟨_, word, chosen, run, performed_of _ (inside ▸ wrote) quiet⟩
  · obtain ⟨n, run, wrote⟩ := storePerformed_atomic next whole op hit hbm clean
    have gone : dropStore n st.seq = withoutStores n [st] := foldl_dropStore [st] n
    rw [gone] at run
    exact ⟨_, run, wroteAt_withStores wrote _, rfl⟩
  · refine storeFaultRecord_one next entry (storeFault_eq ?_) lanes lane found room
    obtain failed | ⟨whole, place, bs, op, ⟨⟨b, head⟩, fits⟩, bad⟩ := fault
    · exact .inl failed
    · exact .inr ⟨whole, place, bs, b, op, head, fits, bad⟩

end Sys2Proof.Machine
end

section
/-! SUPPORT. Scratchpad and weight-store accesses of a word (R171, R173, R178): a page that no arrival round occupies is read and written as memory is, the checks of an access, and a result
left pending. -/

namespace Sys2Proof.Machine

/-! One page. -/

/-- An aligned access lies on one page. -/
theorem aligned_page {off n : Nat} (i : Nat) (size : n ∣ 4096) (aligned : off % n = 0) (inside : i < n) : (off + i) / 4096 = off / 4096 := by
  obtain ⟨p, size⟩ := size
  have multiple : off % 4096 % n = 0 := by rw [Nat.mod_mod_of_dvd _ ⟨p, size⟩, aligned]
  obtain ⟨q, low⟩ := Nat.dvd_of_mod_eq_zero multiple
  have below : off % 4096 < 4096 := Nat.mod_lt _ (by decide)
  have fewer : q < p := by
    rw [low, size] at below
    exact Nat.lt_of_mul_lt_mul_left below
  have room : n * q + n ≤ n * p := by
    rw [← Nat.mul_succ]
    exact Nat.mul_le_mul_left n fewer
  omega

/-- The bytes of a scratchpad read on a page that no round occupies are those that it holds, and nothing moves (R277). -/
theorem spadRead_free {m : Mach} {ctx core off n : Nat} (page : ∀ i < n, (off + i) / 4096 = off / 4096) (free : (m.ctxCore ctx core).rounds.contains (off / 4096) = false) :
    spadRead m ctx core off n = (readBytes (m.ctxCore ctx core).spad off n, m) := by
  cases n with
  | zero => rfl
  | succ n =>
    have clear : (m.ctxCore ctx core).rounds.any (fun p => off / 4096 ≤ p && p ≤ (off + n) / 4096) = false := by
      rw [page n (Nat.lt_succ_self n), List.any_eq_false]
      intro p there same
      simp only [Bool.and_eq_true, decide_eq_true_eq] at same
      rw [List.contains_eq_mem, decide_eq_false_iff_not] at free
      exact free (by rwa [Nat.le_antisymm same.1 same.2])
    simp only [spadRead, clear, Bool.false_eq_true, if_false]

/-- Named bytes go into a space as into memory where no round occupies their pages (R277). -/
theorem spadPut_free {rounds : List Nat} (bs : List (Option Byte)) (sp : SMap Byte) (off : Nat) (free : ∀ i < bs.length, rounds.contains ((off + i) / 4096) = false) :
    spadPut rounds sp off bs = putBytes sp off bs := by
  induction bs generalizing sp off with
  | nil => rfl
  | cons b bs ih =>
    have here := free 0 (by simp)
    have rest : ∀ sp, spadPut rounds sp (off + 1) bs = putBytes sp (off + 1) bs := fun sp => ih sp (off + 1) fun i hi => by
      have := free (i + 1) (by simpa using hi)
      rwa [show off + (i + 1) = off + 1 + i by omega] at this
    cases b with
    | none => exact rest sp
    | some v =>
      rw [Nat.add_zero] at here
      simp only [spadPut, here, Bool.false_eq_true, if_false]
      exact rest _

/-! Writes one after another, at any cores of a cluster. -/

theorem ctxCore_setCtxCore (m : Mach) (ctx k : Nat) (b : CtxCore) (j : Nat) : (m.setCtxCore ctx k b).ctxCore ctx j = if j = k then b else m.ctxCore ctx j := by
  split
  next same => rw [same, ctxCore_setCtxCore_same]
  next other => exact box_setCtxCore_other m ctx k b (ccKey ctx j) (by simp only [ccKey]; omega)

/-- What a context holds on a core after bytes are written to its scratchpad there: `spadWrite` puts it in place. -/
def CtxCore.wrote (cc : CtxCore) (off : Nat) (bs : List Byte) : CtxCore :=
  { cc with
    spad := spadPut cc.rounds cc.spad off (bs.map some)
    poisoned := cc.poisoned.filter (fun sec => !(off ≤ 32 * sec && 32 * sec + 32 ≤ off + bs.length && !cc.rounds.contains (sec / 128))) }

theorem spadWrite_eq (m : Mach) (ctx core off : Nat) (bs : List Byte) : spadWrite m ctx core off bs = m.setCtxCore ctx core ((m.ctxCore ctx core).wrote off bs) := rfl

theorem readByte_wrote {cc : CtxCore} {off : Nat} {bs : List Byte} (free : ∀ i < bs.length, cc.rounds.contains ((off + i) / 4096) = false) (a : Nat) :
    readByte (cc.wrote off bs).spad a = if off ≤ a ∧ a < off + bs.length then bs.getD (a - off) 0 else readByte cc.spad a := by
  have put : (cc.wrote off bs).spad = writeBytes cc.spad off bs := (spadPut_free (bs.map some) cc.spad off (by simpa using free)).trans (putBytes_some ..)
  rw [put]
  split
  next inside =>
    have there := readByte_writeBytes_inside bs cc.spad off (a - off) (by omega)
    rwa [show off + (a - off) = a by omega] at there
  next outside => exact readByte_writeBytes_outside bs cc.spad a off (by omega)

/-- The machine after writes to scratchpads of a context, one for each element of a list, in order. -/
def spadWrites (m : Mach) (ctx : Nat) (c off : Nat → Nat) (bytes : Nat → List Byte) (ls : List Nat) : Mach := ls.foldl (fun m l => spadWrite m ctx (c l) (off l) (bytes l)) m

section
variable {m : Mach} {ctx : Nat} {c off : Nat → Nat} {bytes : Nat → List Byte} {ls : List Nat}

theorem spadWrites_concat (a : Nat) : spadWrites m ctx c off bytes (ls ++ [a]) = spadWrite (spadWrites m ctx c off bytes ls) ctx (c a) (off a) (bytes a) := List.foldl_concat ..

/-- They move scratchpads alone. -/
theorem spadWrites_rest : spadWrites m ctx c off bytes ls = { m with ctxCores := (spadWrites m ctx c off bytes ls).ctxCores } := by
  induction ls using List.reverseRecOn with
  | nil => rfl
  | append_singleton ls a ih =>
    rw [spadWrites_concat, spadWrite_eq, ih]
    rfl

theorem spadWrites_kept (k : Nat) : { (spadWrites m ctx c off bytes ls).ctxCore ctx k with spad := [], poisoned := [] } = { m.ctxCore ctx k with spad := [], poisoned := [] } := by
  induction ls using List.reverseRecOn with
  | nil => rfl
  | append_singleton ls a ih =>
    rw [spadWrites_concat, spadWrite_eq, ctxCore_setCtxCore]
    split
    next same => rw [← same]; exact ih
    next => exact ih

theorem spadWrites_clean (k : Nat) : ∀ sec ∈ ((spadWrites m ctx c off bytes ls).ctxCore ctx k).poisoned, sec ∈ (m.ctxCore ctx k).poisoned := by
  induction ls using List.reverseRecOn with
  | nil => exact fun _ there => there
  | append_singleton ls a ih =>
    rw [spadWrites_concat, spadWrite_eq, ctxCore_setCtxCore]
    split
    next same => exact fun sec there => ih sec (same ▸ List.mem_of_mem_filter there)
    next => exact ih

theorem spadWrites_elsewhere {k : Nat} (other : ∀ l ∈ ls, k ≠ ccKey ctx (c l)) : mgetD (spadWrites m ctx c off bytes ls).ctxCores k .fresh = mgetD m.ctxCores k .fresh := by
  induction ls using List.reverseRecOn with
  | nil => rfl
  | append_singleton ls a ih =>
    rw [spadWrites_concat, spadWrite_eq, box_setCtxCore_other _ _ _ _ _ (other a (by simp))]
    exact ih fun l there => other l (List.mem_append_left _ there)

/-- A byte after them: the last one's that names it. -/
theorem readByte_spadWrites (free : ∀ l ∈ ls, ∀ i < (bytes l).length, (m.ctxCore ctx (c l)).rounds.contains ((off l + i) / 4096) = false) (k a : Nat) :
    readByte ((spadWrites m ctx c off bytes ls).ctxCore ctx k).spad a =
      (ls.filter (fun l => c l == k && off l ≤ a && a < off l + (bytes l).length)).getLast?.elim (readByte (m.ctxCore ctx k).spad a) (fun l => (bytes l).getD (a - off l) 0) := by
  induction ls using List.reverseRecOn with
  | nil => rfl
  | append_singleton ls b ih =>
    have before := ih fun l there => free l (List.mem_append_left _ there)
    have rounds : ((spadWrites m ctx c off bytes ls).ctxCore ctx (c b)).rounds = (m.ctxCore ctx (c b)).rounds := by
      have same := congrArg CtxCore.rounds (spadWrites_kept (m := m) (ctx := ctx) (c := c) (off := off) (bytes := bytes) (ls := ls) (c b))
      exact same
    have byte := readByte_wrote (cc := (spadWrites m ctx c off bytes ls).ctxCore ctx (c b)) (off := off b) (bs := bytes b)
      (fun i hi => by rw [rounds]; exact free b (by simp) i hi) a
    rw [spadWrites_concat, spadWrite_eq, ctxCore_setCtxCore, List.filter_append]
    by_cases here : k = c b
    · subst here
      rw [if_pos rfl, byte]
      by_cases inside : off b ≤ a ∧ a < off b + (bytes b).length
      · rw [if_pos inside, List.filter_cons_of_pos (by simp [inside]), List.filter_nil, List.getLast?_concat, Option.elim_some]
      · rw [if_neg inside, before, List.filter_cons_of_neg (by simpa using inside), List.filter_nil, List.append_nil]
    · rw [if_neg here, before, List.filter_cons_of_neg (by simp [Ne.symm here]), List.filter_nil, List.append_nil]

end

theorem takeSources_kept (cc : CtxCore) (x : Ex) (srcs : List Src) :
    (takeSources cc x srcs).spad = cc.spad ∧ (takeSources cc x srcs).poisoned = cc.poisoned ∧ (takeSources cc x srcs).rounds = cc.rounds := ⟨rfl, rfl, rfl⟩

/-- A machine whose only difference in per-context state is that a word's sources are taken. -/
structure TookSources (s : State) (x : Ex) (n : Mach) (srcs : List Src) : Prop where
  box   : n.ctxCore x.w.ctx x.core = takeSources (boxOf s x) x srcs
  boxes : ∀ k, k ≠ ccKey x.w.ctx x.core → mgetD n.ctxCores k .fresh = mgetD s.m.ctxCores k .fresh

section
variable {s : State} {x : Ex} {n : Mach} {srcs : List Src}

theorem TookSources.cores (h : TookSources s x n srcs) (k : Nat) : n.ctxCore x.w.ctx k = if k = x.core then takeSources (boxOf s x) x srcs else s.m.ctxCore x.w.ctx k := by
  split
  next own => rw [own, h.box]
  next other => exact h.boxes (ccKey x.w.ctx k) (by simp only [ccKey]; omega)

theorem TookSources.spads (h : TookSources s x n srcs) (k : Nat) :
    (n.ctxCore x.w.ctx k).spad = (s.m.ctxCore x.w.ctx k).spad ∧ (n.ctxCore x.w.ctx k).poisoned = (s.m.ctxCore x.w.ctx k).poisoned ∧ (n.ctxCore x.w.ctx k).rounds = (s.m.ctxCore x.w.ctx k).rounds := by
  rw [h.cores]
  split
  next own => subst own; exact takeSources_kept ..
  next => exact ⟨rfl, rfl, rfl⟩

/-- Scratchpad writes of a word whose sources are taken. -/
theorem TookSources.written (h : TookSources s x n srcs) {t : State} {c off : Nat → Nat} {bytes : Nat → List Byte} {ls : List Nat}
    (free : ∀ l ∈ ls, ∀ i < (bytes l).length, (s.m.ctxCore x.w.ctx (c l)).rounds.contains ((off l + i) / 4096) = false)
    (result : t.m.ctxCores = (spadWrites n x.w.ctx c off bytes ls).ctxCores) : SpadsWritten s x t srcs ls c off bytes := by
  have there : ∀ k, t.m.ctxCore x.w.ctx k = (spadWrites n x.w.ctx c off bytes ls).ctxCore x.w.ctx k := fun k => by rw [Mach.ctxCore, Mach.ctxCore, result]
  refine ⟨fun k a => ?_, fun k => ?_, fun k sec poisoned => ?_, fun k own others => ?_⟩
  · rw [there, readByte_spadWrites (fun l hl i hi => by rw [(h.spads _).2.2]; exact free l hl i hi), (h.spads k).1]
    cases (ls.filter (fun l => c l == k && off l ≤ a && a < off l + (bytes l).length)).getLast? <;> rfl
  · rw [there, spadWrites_kept, h.cores]
  · rw [there] at poisoned
    rw [← (h.spads k).2.1]
    exact spadWrites_clean k sec poisoned
  · rw [result, spadWrites_elsewhere others, h.boxes k own]

end

/-! What stands as it did where room has been made for a result. -/

theorem SpillsOnly.eq {m m' : Mach} {core pos : Nat} (h : SpillsOnly m m' core pos) : m' = { m with cores := m'.cores } := by
  have whole : m' = { machRest m' with cores := m'.cores, ctxCores := m'.ctxCores } := rfl
  rw [h.below, h.boxes] at whole
  exact whole

theorem SpillsOnly.drained {m m' : Mach} {core pos : Nat} (h : SpillsOnly m m' core pos) (uid : Nat) : drained m' uid = drained m uid := by rw [h.eq]; rfl

theorem SpillsOnly.tileHeld {m m' : Mach} {x : Ex} (h : SpillsOnly m m' x.core x.pos) (core off n : Nat) : tileHeld m' x core off n = tileHeld m x core off n := by
  have gangs : (m'.core x.core).gangs = (m.core x.core).gangs := by
    have same := congrArg Core.gangs h.rest
    exact same
  simp only [Machine.tileHeld, unloadedTiles, gangs]

theorem SpillsOnly.spadCheck {m m' : Mach} {core pos : Nat} (h : SpillsOnly m m' core pos) (x : Ex) (addr n : Nat) : spadCheck m' x addr n = spadCheck m x addr n := by rw [h.eq]; rfl

theorem SpillsOnly.took {s : State} {x : Ex} {m : Mach} (h : SpillsOnly s.m m x.core x.pos) (a : BitVec 8) : TookSources s x (takeAddress m x a) [srcI a] where
  box := by rw [takeAddress, ctxCore_setCtxCore_same, h.box]; rfl
  boxes k other := by rw [takeAddress, box_setCtxCore_other _ _ _ _ _ other, h.boxes]

theorem loadDst_spills {m m' : Mach} {x : Ex} {d : BitVec 8} {count : Nat} (h : loadDst m x d count = .go m') : SpillsOnly m m' x.core x.pos := by
  unfold loadDst at h
  split at h
  · exact regsReady_spills h
  · exact DstReady.go.inj h ▸ .refl ..

/-! Addresses and their checks. -/

theorem addressOf_eq (s : State) (x : Ex) (a : BitVec 8) (l : Nat) : (srcValue (boxOf s x) x (srcI a) 0 l).toNat % 2 ^ 32 = addressOf s x a l := by
  simp only [addressOf, arg, operands, srcValues, List.count_nil, List.getD_cons_zero, BitVec.toNat_setWidth]

/-- A word whose address sources are there goes on with each lane's address. -/
theorem withAddress_go {s : State} {x : Ex} {a : BitVec 8} {regs : List Nat} (ready : srcReady s.m x false [srcI a] regs = .go) (f : (Nat → Nat) → Mach) :
    withAddress s.m x a regs f = f (addressOf s x a) := by
  have value : (fun l => (srcValue (s.m.ctxCore x.w.ctx x.core) x (srcI a) 0 l).toNat % 2 ^ 32) = addressOf s x a := funext (addressOf_eq s x a)
  simp only [withAddress, ready, value]

/-- An address as the information word of a fault. -/
theorem ofNat_addressOf (s : State) (x : Ex) (a : BitVec 8) (l : Nat) : BitVec.ofNat 48 (addressOf s x a l) = (arg (operands s x [srcI a] l) 0).setWidth 48 :=
  BitVec.eq_of_toNat_eq (by simp [addressOf])

theorem spadCheck_ok {s : State} {x : Ex} {addr n c off : Nat} (h : SpadAt s x addr n c off) : spadCheck s.m x addr n = .ok (c, off) := by
  obtain ⟨aligned, low, rfl, rfl, inside, clean, -⟩ := h
  have target : spadTarget s.m x.w.ctx x.core addr n = .ok (x.core / 8 * 8 + addr / 2 ^ 21 % 8, addr % 2 ^ 21) := by
    have sel : addr / 2 ^ 21 % 2 ^ 3 % 8 = addr / 2 ^ 21 % 8 := by omega
    simp only [spadTarget, spadSize, Nat.div_eq_of_lt low, Nat.not_lt.2 inside, ne_eq, not_true_eq_false, or_self, if_false, peerCore, natBits, sel]
  simp only [spadCheck, aligned, ne_eq, not_true_eq_false, if_false, target, clean, Bool.false_eq_true]

theorem spadCheck_range {s : State} {x : Ex} {addr n : Nat} (aligned : addr % n = 0)
    (out : 2 ^ 24 ≤ addr ∨ (s.m.ctxCluster x.w.ctx x.core).pages * 4096 < addr % 2 ^ 21 + n) : spadCheck s.m x addr n = .error (mkFault .spadRange 0 0 addr) := by
  have beyond : addr / 2 ^ 24 ≠ 0 ∨ spadSize s.m x.w.ctx x.core < addr % 2 ^ 21 + n := out.imp_left fun high => by omega
  simp only [spadCheck, spadTarget, aligned, ne_eq, not_true_eq_false, if_false]
  rw [if_pos beyond]

/-- The bytes of an access that lies on a free page. -/
theorem spadAt_page {s : State} {x : Ex} {addr n c off : Nat} (h : SpadAt s x addr n c off) (size : n ∣ 4096) : ∀ i < n, (off + i) / 4096 = off / 4096 := by
  obtain ⟨aligned, -, rfl, -⟩ := h
  refine fun i => aligned_page i size ?_
  rw [Nat.mod_mod_of_dvd _ (size.trans (by decide : 4096 ∣ 2 ^ 21)), aligned]

theorem tyBytes_dvd (t : Nat) : tyBytes t ∣ 4096 ∧ 0 < tyBytes t := by
  unfold tyBytes
  split <;> decide

/-! Lanes that fail a check. -/

theorem failing_none {α : Type} {x : Ex} {f : Nat → Except FaultInfo α} {g : Nat → α} (good : ∀ l ∈ x.lanes, f l = .ok (g l)) : failing x f = [] :=
  List.filterMap_eq_nil_iff.2 fun l active => by rw [good l active]

theorem failing_all {α : Type} {x : Ex} {f : Nat → Except FaultInfo α} {e : Nat → FaultInfo} (bad : ∀ l ∈ x.lanes, f l = .error (e l)) : failing x f = x.lanes.map (fun l => (l, e l)) := by
  rw [failing, ← List.filterMap_eq_map]
  exact List.filterMap_congr fun l active => by rw [bad l active]; rfl

/-! A result left pending. -/

/-- A WORD LEAVES ITS RESULT PENDING: `m` is the machine with room made, `n` the one whose mailboxes tell what the word knows then, `vals` what the lanes will receive. -/
theorem pendLoad_issued {s : State} {x : Ex} (hx : s.ex? = some x) {m : Mach} (sp : SpillsOnly s.m m x.core x.pos) (n : Mach) (a d : BitVec 8) (count : Nat) {vals : SMap (List Word)}
    {res : Nat → List Word} (owed : ∀ l ∈ x.lanes, mget vals l = some (res l)) :
    ∃ y, Issued s x (s.withM ((pendLoad (takeAddress m x a) (x.taken n [srcI a]) d count vals).1.advance (pendLoad (takeAddress m x a) (x.taken n [srcI a]) d count vals).2)) y
      (.same s x) [srcI a] d count res := by
  have fresh : m.nextId = s.m.nextId := by rw [sp.eq]
  have word := taken_word x n [srcI a]
  generalize x.taken n [srcI a] = z at word
  by_cases v : isV d = true
  · let y : Ex := { z with w := { z.w with pends := z.w.pends ++ [pendingLoad m.nextId z d count vals [] false] } }
    let k : Mach := { m with nextId := m.nextId + 1 }
    have run : pendLoad (takeAddress m x a) z d count vals = (k.setCtxCore x.w.ctx x.core (takeSources (m.ctxCore x.w.ctx x.core) x [srcI a]), y) := by
      rw [pendLoad, if_pos v]
      rfl
    have form : y = { x with w := { x.w with know := z.w.know, lru := z.w.lru, pends := x.w.pends ++ [pendingLoad m.nextId x d count vals [] false] } } := by
      show ({ z with w := _ } : Ex) = _
      rw [word]
      rfl
    have ends : WordEnd s x k y := by
      rw [form]
      exact { cur := sp.cur, place := ⟨rfl, rfl, rfl, rfl⟩, groups := ⟨rfl, rfl⟩, run := rfl, group := rfl, cores := sp.cores, others := sp.others, boxes := fun k _ => by rw [← sp.boxes] }
    rw [run]
    refine ⟨y.finished, ?_, fun r l _ => ?_, ?_, vals, [], false, owed, wordDone_congr (wordDone_advance hx _ ends) ?_ sp.rest ?_ ?_⟩
    · rw [form]; exact { nextPc := rfl, depth := ⟨rfl, rfl⟩ }
    · rw [regLane_finished, form]; rfl
    · rw [form]; rfl
    · rw [if_pos v]
      have below := congrArg (fun k : Mach => { k with nextId := k.nextId + 1 }) sp.below
      exact below
    · rw [if_pos v, if_pos v, form, fresh]; rfl
    · rw [sp.box]; rfl
  · have run : pendLoad (takeAddress m x a) z d count vals = (takeAddress m x a, z) := by rw [pendLoad, if_neg v]
    have ends : WordEnd s x m z := by
      rw [word]
      exact sp.wordEnd ⟨rfl, rfl, rfl, rfl⟩ ⟨rfl, rfl⟩ rfl rfl
    rw [run]
    refine ⟨z.finished, ?_, fun r l _ => ?_, ?_, vals, [], false, owed, wordDone_congr (wordDone_advance hx _ ends) ?_ sp.rest ?_ ?_⟩
    · rw [word]; exact { nextPc := rfl, depth := ⟨rfl, rfl⟩ }
    · rw [regLane_finished, word]; rfl
    · rw [word]; rfl
    · rw [if_neg v]; exact sp.below
    · rw [if_neg v, if_neg v, word]; rfl
    · rw [sp.box]; rfl

/-- Values for the lanes of a word, lane by lane. -/
theorem mget_laneVals {x : Ex} (f : Nat → List Word) : ∀ l ∈ x.lanes, mget (x.lanes.foldl (fun v l => mset v l (f l)) ([] : SMap (List Word))) l = some (f l) := fun l active => by
  rw [mget_foldl_mset, if_pos active]

end Sys2Proof.Machine
end

section
/-! SUPPORT. `LDS`, `STS` and `ATOMS` (R150, R151, R173, R256): what each comes to once its addresses are there. -/

namespace Sys2Proof.Machine

/-- THE END OF A WORD that has changed per-context state of any core. -/
theorem wordRuns_of {s : State} {x : Ex} (hx : s.ex? = some x) {m : Mach} {z : Ex} (h : WordEnd s x { m with ctxCores := s.m.ctxCores } z) :
    WordRuns s x (s.withM (m.advance z)) z.finished { m := m, c := m.core x.core, w := z.w, box := m.ctxCore x.w.ctx x.core } :=
  let runs := (wordDone_of hx h).toWordRuns
  { here := runs.here, place := runs.place, run := runs.run, group := runs.group, groups := runs.groups, hgroups := runs.hgroups, warp := runs.warp, package := rfl
    below := rfl, own := runs.own, cores := runs.cores, others := runs.others }

/-- What a word leaves counts only as far as the frame looks at it. -/
theorem wordRuns_congr {s : State} {x : Ex} {t : State} {y : Ex} {e e' : Rest} (h : WordRuns s x t y e) (hm : machRest e.m = machRest e'.m)
    (hc : coreRest e.c = coreRest e'.c) (hw : warpRest e.w = warpRest e'.w) : WordRuns s x t y e' :=
  { h with below := h.below.trans hm, own := h.own.trans hc, warp := h.warp.trans hw }

/-! `LDS`. -/

/-- Reads that move nothing, lane by lane, leave their values. -/
theorem foldl_reads {μ : Type} {g : μ × SMap (List Word) → Nat → μ × SMap (List Word)} {m : μ} {f : Nat → List Word} (ls : List Nat)
    (read : ∀ l ∈ ls, ∀ v, g (m, v) l = (m, mset v l (f l))) (vals : SMap (List Word)) : ls.foldl g (m, vals) = (m, ls.foldl (fun v l => mset v l (f l)) vals) := by
  induction ls generalizing vals with
  | nil => rfl
  | cons l ls ih =>
    rw [List.foldl_cons, List.foldl_cons, read l List.mem_cons_self]
    exact ih (fun k hk => read k (List.mem_cons_of_mem _ hk)) _

theorem lds_issued {s : State} {x : Ex} {d a : BitVec 8} {t : BitVec 3} {c off : Nat → Nat} {m : Mach} (hx : s.ex? = some x) (ready : srcReady s.m x false [srcI a] = .go)
    (dst : loadDst s.m x d (tyRegs t.toNat) = .go m) (good : ∀ l ∈ x.lanes, SpadAt s x (addressOf s x a l) (tyBytes t.toNat) (c l) (off l)) :
    ∃ u y, exec (.lds d a t) s = .next u
      ∧ Issued s x u y (.same s x) [srcI a] d (tyRegs t.toNat) (fun l => loadWords t.toNat (readBytes (s.m.ctxCore x.w.ctx (c l)).spad (off l) (tyBytes t.toNat))) := by
  have sp := loadDst_spills dst
  have took := sp.took a
  have check : ∀ l ∈ x.lanes, spadCheck m x (addressOf s x a l) (tyBytes t.toNat) = .ok (c l, off l) := fun l active => by rw [sp.spadCheck, spadCheck_ok (good l active)]
  have unharmed : failing x (fun l => spadCheck m x (addressOf s x a l) (tyBytes t.toNat)) = [] := failing_none check
  have read : ∀ l ∈ x.lanes, spadRead (takeAddress m x a) x.w.ctx (c l) (off l) (tyBytes t.toNat)
      = (readBytes (s.m.ctxCore x.w.ctx (c l)).spad (off l) (tyBytes t.toNat), takeAddress m x a) := fun l active => by
    obtain ⟨spad, -, rounds⟩ := took.spads (c l)
    have page := spadAt_page (good l active) (tyBytes_dvd t.toNat).1
    obtain ⟨-, -, -, -, -, -, free⟩ := good l active
    rw [spadRead_free page (by rw [rounds]; exact free), spad]
  obtain ⟨y, issued⟩ := pendLoad_issued hx sp (takeAddress m x a) a d (tyRegs t.toNat)
    (mget_laneVals (x := x) fun l => loadWords t.toNat (readBytes (s.m.ctxCore x.w.ctx (c l)).spad (off l) (tyBytes t.toNat)))
  refine ⟨_, y, ?_, issued⟩
  rw [exec_lds, execLds, onWord_next hx, withAddress_go ready]
  simp only [dst, unharmed, deliver]
  rw [foldl_reads (f := fun l => loadWords t.toNat (readBytes (s.m.ctxCore x.w.ctx (c l)).spad (off l) (tyBytes t.toNat))) x.lanes
    (fun l active v => by simp only [check l active, read l active])]

/-! `STS`. -/

theorem sts_waits {s : State} {x : Ex} {d a : BitVec 8} {t : BitVec 3} (hx : s.ex? = some x) (ready : srcReady s.m x false [srcI a] (dataRegs t.toNat d) = .go)
    (busy : drained s.m x.w.uid = false) : Sys2Proof.Held s x .register (exec (.sts d a t) s) := by
  rw [exec_sts, execSts, onWord_next hx, withAddress_go ready]
  simp only [busy, Bool.not_false, if_true]
  rfl

theorem sts_writes {s : State} {x : Ex} {d a : BitVec 8} {t : BitVec 3} {c off : Nat → Nat} (hx : s.ex? = some x) (ready : srcReady s.m x false [srcI a] (dataRegs t.toNat d) = .go)
    (clear : drained s.m x.w.uid = true) (good : ∀ l ∈ x.lanes, SpadAt s x (addressOf s x a l) (tyBytes t.toNat) (c l) (off l))
    (loaded : ∀ l ∈ x.lanes, tileHeld s.m x (c l) (off l) (tyBytes t.toNat) = false) :
    ∃ u y, exec (.sts d a t) s = .next u ∧ WordRuns s x u y (.same s x) ∧ FlowKept x y ∧ RegsKept x y ∧ y.r.latches = x.r.latches
      ∧ SpadsWritten s x u [srcI a] x.lanes c off (storeData x.w t.toNat d) := by
  have check : ∀ l ∈ x.lanes, spadCheck s.m x (addressOf s x a l) (tyBytes t.toNat) = .ok (c l, off l) := fun l active => spadCheck_ok (good l active)
  have unharmed : failing x (fun l => spadCheck s.m x (addressOf s x a l) (tyBytes t.toNat)) = [] := failing_none check
  let n := spadWrites (takeAddress s.m x a) x.w.ctx c off (storeData x.w t.toNat d) x.lanes
  let z := (x.touch (dataRegs t.toNat d)).taken n [srcI a]
  have run : exec (.sts d a t) s = .next (s.withM (n.advance z)) := by
    rw [exec_sts, execSts, onWord_next hx, withAddress_go ready]
    simp only [clear, Bool.not_true, Bool.false_eq_true, if_false, unharmed, deliver]
    rw [if_neg, List.foldl_ext _ (fun m l => spadWrite m x.w.ctx (c l) (off l) (storeData x.w t.toNat d l)) _ (fun m l active => by simp only [check l active])]
    · rfl
    · rw [List.any_eq_true]
      rintro ⟨l, active, held⟩
      simp only [check l active, loaded l active, Bool.false_eq_true] at held
  have word : z = { x with w := { x.w with know := z.w.know, lru := z.w.lru } } := taken_word ..
  have machine : n = { takeAddress s.m x a with ctxCores := n.ctxCores } := spadWrites_rest
  have ends : WordEnd s x { n with ctxCores := s.m.ctxCores } z := by
    rw [word, machine]
    exact (SpillsOnly.refl s.m x.core x.pos).wordEnd ⟨rfl, rfl, rfl, rfl⟩ ⟨rfl, rfl⟩ rfl rfl
  refine ⟨_, z.finished, run, wordRuns_congr (wordRuns_of hx ends) ?_ ?_ ?_, ?_, fun r l _ => ?_, ?_, (SpillsOnly.took (.refl ..) a).written (fun l active i inside => ?_) rfl⟩
  · show machRest n = machRest s.m
    rw [machine]
    rfl
  · show coreRest (n.core x.core) = coreRest (s.m.core x.core)
    rw [machine]
    rfl
  · rw [word]; rfl
  · rw [word]; exact { nextPc := rfl, depth := ⟨rfl, rfl⟩ }
  · rw [regLane_finished, word]; rfl
  · rw [word]; rfl
  · rw [length_storeData] at inside
    rw [spadAt_page (good l active) (tyBytes_dvd t.toNat).1 i inside]
    obtain ⟨-, -, -, -, -, -, free⟩ := good l active
    exact free

theorem sts_parks {s : State} {x : Ex} {d a : BitVec 8} {t : BitVec 3} (hx : s.ex? = some x) (ready : srcReady s.m x false [srcI a] (dataRegs t.toNat d) = .go)
    (clear : drained s.m x.w.uid = true) (plain : Plain x) (out : ∀ l ∈ x.lanes, addressOf s x a l % tyBytes t.toNat = 0
      ∧ (2 ^ 24 ≤ addressOf s x a l ∨ (s.m.ctxCluster x.w.ctx x.core).pages * 4096 < addressOf s x a l % 2 ^ 21 + tyBytes t.toNat)) :
    ∃ u, exec (.sts d a t) s = .next u
      ∧ AllParked s x u (fun l => { cause := .spadRange, detail := 0, addr := (arg (operands s x [srcI a] l) 0).setWidth 48 }) x.pc (boxOf s x) := by
  have check : ∀ l ∈ x.lanes, spadCheck s.m x (addressOf s x a l) (tyBytes t.toNat) = .error { cause := .spadRange, detail := 0, addr := (arg (operands s x [srcI a] l) 0).setWidth 48 } :=
    fun l active => by rw [spadCheck_range (out l active).1 (out l active).2, mkFault, ofNat_addressOf]; rfl
  obtain ⟨m, delivered, parked⟩ := deliver_all plain (fun l => { cause := .spadRange, detail := 0, addr := (arg (operands s x [srcI a] l) 0).setWidth 48 }) (.refl s x)
  refine ⟨s.withM m, ?_, parked⟩
  rw [exec_sts, execSts, onWord_next hx, withAddress_go ready]
  simp only [clear, Bool.not_true, Bool.false_eq_true, if_false, failing_all check, delivered]
  rw [if_neg]
  rw [List.any_eq_true]
  rintro ⟨l, active, held⟩
  simp only [check l active, Bool.false_eq_true] at held

/-! Locations, and atomics on one of them. -/

/-- Lanes that all name one address are one group. -/
theorem byAddress_same {addr : Nat → Nat} {p l : Nat} {ls : List Nat} (same : ∀ k ∈ l :: ls, addr k = p) : byAddress addr (l :: ls) = [(p, l :: ls)] := by
  have rest : (ls.map addr).filter (fun b => !b == p) = [] := by
    rw [List.filter_eq_nil_iff]
    intro b there
    obtain ⟨k, hk, rfl⟩ := List.mem_map.1 there
    simp [same k (List.mem_cons_of_mem _ hk)]
  have once : ((l :: ls).map addr).eraseDups = [p] := by
    rw [List.map_cons, same l List.mem_cons_self, List.eraseDups_cons, rest]
    rfl
  rw [byAddress, once, List.map_singleton, List.filter_eq_self.2 fun k hk => by simp [same k hk]]

/-- What each of a list of lanes finds added before it, from a running total on. -/
def running (code : Nat) (y : Nat → Nat) : Nat → List Nat → List (Nat × Nat)
  | _, [] => []
  | v, k :: ks => (k, v) :: running code y (atomComb code v (y k)) ks

/-- The operands of a group merged: the total, and the running totals (R150). -/
theorem mergeOperands_cons (code : Nat) (y : Nat → Nat) (l : Nat) (ls : List Nat) :
    mergeOperands code y (l :: ls) = (ls.foldl (fun v k => atomComb code v (y k)) (y l), (l, none) :: (running code y (y l) ls).map (fun e => (e.1, some e.2))) := by
  have sums : ∀ (ks : List Nat) (v : Nat) (ps : List (Nat × Option Nat)),
      ks.foldl (fun (acc : Nat × List (Nat × Option Nat)) k => (atomComb code acc.1 (y k), acc.2 ++ [(k, some acc.1)])) (v, ps)
        = (ks.foldl (fun v k => atomComb code v (y k)) v, ps ++ (running code y v ks).map (fun e => (e.1, some e.2))) := by
    intro ks
    induction ks with
    | nil => simp [running]
    | cons k ks ih =>
      intro v ps
      rw [List.foldl_cons, List.foldl_cons, ih, running, List.map_cons, List.append_assoc, List.singleton_append]
  rw [mergeOperands, sums, List.nil_append]

theorem mget_foldl_pairs_other {α : Type} {ps : List (Nat × α)} {m : SMap α} {j : Nat} (absent : j ∉ ps.map (·.1)) : mget (ps.foldl (fun r e => mset r e.1 e.2) m) j = mget m j := by
  induction ps generalizing m with
  | nil => rfl
  | cons e ps ih =>
    simp only [List.map_cons, List.mem_cons, not_or] at absent
    rw [List.foldl_cons, ih absent.2, mget_mset_other _ absent.1]

theorem keys_running (code : Nat) (y : Nat → Nat) (v : Nat) (ks : List Nat) : (running code y v ks).map (·.1) = ks := by
  induction ks generalizing v with
  | nil => rfl
  | cons k ks ih => rw [running, List.map_cons, ih]

/-- A lane finds the operands before its own in the total. -/
theorem mget_running {code : Nat} {y : Nat → Nat} {f : Nat → Nat} (ks : List Nat) (once : ks.Nodup) {j : Nat} (there : j ∈ ks) (v : Nat) (m : SMap Nat) :
    mget (((running code y v ks).map (fun e => (e.1, f e.2))).foldl (fun r e => mset r e.1 e.2) m) j = some (f ((ks.takeWhile (· ≠ j)).foldl (fun v k => atomComb code v (y k)) v)) := by
  induction ks generalizing v m with
  | nil => cases there
  | cons k ks ih =>
    obtain ⟨fresh, once⟩ := List.nodup_cons.1 once
    rw [running, List.map_cons, List.foldl_cons]
    by_cases own : j = k
    · subst own
      rw [mget_foldl_pairs_other, mget_mset_same, List.takeWhile_cons_of_neg (by simp)]
      · rfl
      · rw [List.map_map]
        show j ∉ (running code y _ ks).map (·.1)
        rw [keys_running]
        exact fresh
    · have later : j ∈ ks := by
        cases there with
        | head => exact absurd rfl own
        | tail _ later => exact later
      rw [ih once later, List.takeWhile_cons_of_pos (by simpa using Ne.symm own), List.foldl_cons]

section
variable {μ : Type} {code : Nat} {read : μ → Nat → Nat × μ} {write : μ → Nat → Nat → μ} {y : Nat → Nat} {m : μ} {p l old : Nat}

/-- THE ATOMICS OF ONE LOCATION (R150): several lanes merged, or one lane alone. -/
theorem atomLanes_one {ls : List Nat} (reads : read m p = (old, m)) (once : (l :: ls).Nodup) (merges : ls = [] ∨ ¬(9 ≤ code ∧ code ≤ 12)) :
    ∃ olds, atomLanes code read write y m [(p, l :: ls)] = (write m p (atomComb code old (ls.foldl (fun v k => atomComb code v (y k)) (y l))), olds)
      ∧ ∀ j ∈ l :: ls, mget olds j = some (if j = l then old else atomComb code old ((ls.takeWhile (· ≠ j)).foldl (fun v k => atomComb code v (y k)) (y l))) := by
  by_cases together : atomMerges code = true
  · have run : atomLanes code read write y m [(p, l :: ls)] = (write m p (atomComb code old (ls.foldl (fun v k => atomComb code v (y k)) (y l))),
        ((running code y (y l) ls).map (fun e => (e.1, atomComb code old e.2))).foldl (fun r e => mset r e.1 e.2) (mset [] l old)) := by
      simp only [atomLanes, together, if_true, mergeOperands_cons, reads, List.map_cons, List.map_map, Function.comp_def, List.foldl_cons]
    obtain ⟨fresh, once⟩ := List.nodup_cons.1 once
    refine ⟨_, run, fun j there => ?_⟩
    by_cases own : j = l
    · subst own
      rw [if_pos rfl, mget_foldl_pairs_other, mget_mset_same]
      rw [List.map_map]
      show j ∉ (running code y _ ls).map (·.1)
      rw [keys_running]
      exact fresh
    · rw [if_neg own]
      exact mget_running ls once ((List.mem_cons.1 there).resolve_left own) (y l) _
  · have alone : ls = [] := merges.resolve_right fun h => together (by simp only [atomMerges]; simp; omega)
    subst alone
    refine ⟨[(l, old)], ?_, fun j there => ?_⟩
    · simp only [atomLanes, together, Bool.false_eq_true, if_false, List.foldl_cons, List.foldl_nil, reads, List.nil_append, mset]
    · rw [List.mem_singleton.1 there, if_pos rfl]
      simp [mget]

/-- One half of an `fadd2.b2` of one lane (R151). -/
theorem halfLanes_one {high : Nat → Bool} (reads : read m (if high 0 then p + 2 else p) = (old, m)) :
    halfLanes high read write y m [(p, [l])]
      = (write m (if high 0 then p + 2 else p) (bf16.add old (pieceOf (high 0) (y l))), [(l, if high 0 then old * 65536 else old)]) := by
  have one : atomLanes 16 read write (fun l => pieceOf (high 0) (y l)) m [(if high 0 then p + 2 else p, [l])]
      = (write m (if high 0 then p + 2 else p) (bf16.add old (pieceOf (high 0) (y l))), [(l, old)]) := by
    simp only [atomLanes, show atomMerges 16 = true from rfl, if_true, mergeOperands, List.foldl_nil, reads, List.map_cons, List.map_nil, List.foldl_cons, mset]
    rfl
  simp only [halfLanes, List.zipIdx_cons, List.zipIdx_nil, List.foldl_cons, List.foldl_nil, one, mset]

end

/-- A location by its core and offset. -/
theorem spadPlace_split {c off : Nat} (low : off < 2 ^ 21) : spadPlace c off / 2 ^ 21 = c ∧ spadPlace c off % 2 ^ 21 = off := by
  simp only [spadPlace]
  omega

theorem readPlace_free {m : Mach} {ctx n c off : Nat} (low : off < 2 ^ 21) (page : ∀ i < n, (off + i) / 4096 = off / 4096) (free : (m.ctxCore ctx c).rounds.contains (off / 4096) = false) :
    readPlace ctx n m (spadPlace c off) = (bytesToNat (readBytes (m.ctxCore ctx c).spad off n), m) := by
  obtain ⟨core, at_⟩ := spadPlace_split (c := c) low
  rw [readPlace, core, at_, spadRead_free page free]

theorem writePlaceNat_eq (ctx n : Nat) (m : Mach) {c off : Nat} (low : off < 2 ^ 21) (v : Nat) : writePlaceNat ctx n m (spadPlace c off) v = spadWrite m ctx c off (natToBytes n v) := by
  obtain ⟨core, at_⟩ := spadPlace_split (c := c) low
  rw [writePlaceNat, core, at_]

theorem wordsOf_eq (n v : Nat) : wordsOf n v = (List.range n).map (fun i => BitVec.ofNat 32 (v / 2 ^ (32 * i))) :=
  List.map_congr_left fun i _ => BitVec.eq_of_toNat_eq (by simp [natBits])

/-! `ATOMS`. -/

/-- What an atomic owes: it is done, its destination will be written with `vals`. -/
def Owes (s : State) (x : Ex) (u : State) (y : Ex) (d : BitVec 8) (count : Nat) (vals : SMap (List Word)) : Prop :=
  FlowKept x y ∧ RegsKept x y ∧ y.r.latches = x.r.latches ∧ WordRuns s x u y { Rest.same s x with
    m := { s.m with nextId := s.m.nextId + 1 }
    w := { x.w with pends := x.w.pends ++ [pendingLoad s.m.nextId x d count vals [] false] } }

/-- The end of an atomic whose effect on the scratchpads is in `n`. -/
theorem addPend_owes {s : State} {x z : Ex} (hx : s.ex? = some x) {n : Mach} (sp : SpillsOnly s.m { n with ctxCores := s.m.ctxCores } x.core x.pos)
    (word : z = { x with w := { x.w with know := z.w.know, lru := z.w.lru } }) (d : BitVec 8) (count : Nat) (vals : SMap (List Word)) :
    ∃ y, Owes s x (s.withM ((addPend n z .load d.toNat count vals).1.advance (addPend n z .load d.toNat count vals).2)) y d count vals := by
  have fresh : n.nextId = s.m.nextId := by
    have same := congrArg Mach.nextId sp.eq
    exact same
  let k : Mach := { n with nextId := n.nextId + 1 }
  let y := (addPend n z .load d.toNat count vals).2
  have form : y = { x with w := { x.w with know := z.w.know, lru := z.w.lru, pends := x.w.pends ++ [pendingLoad n.nextId x d count vals [] false] } } := by
    show ({ z with w := _ } : Ex) = _
    rw [word]
    rfl
  have ends : WordEnd s x { k with ctxCores := s.m.ctxCores } y := by
    rw [form]
    exact { cur := sp.cur, place := ⟨rfl, rfl, rfl, rfl⟩, groups := ⟨rfl, rfl⟩, run := rfl, group := rfl, cores := sp.cores, others := sp.others, boxes := fun _ _ => rfl }
  refine ⟨y.finished, ?_, fun r l _ => ?_, ?_, wordRuns_congr (wordRuns_of hx ends) ?_ sp.rest ?_⟩
  · rw [form]; exact { nextPc := rfl, depth := ⟨rfl, rfl⟩ }
  · rw [regLane_finished, form]; rfl
  · rw [form]; rfl
  · have below := congrArg (fun k : Mach => { k with nextId := k.nextId + 1 }) sp.below
    exact below
  · show warpRest y.w = _
    rw [form, fresh]
    rfl

end Sys2Proof.Machine
end

section
/-! SUPPORT. `ATOMS` (R173, R150, R151): the turn it takes, or its two turns where it is `fadd2.b2`. -/

namespace Sys2Proof.Machine

theorem atomSize_dvd (code : Nat) : atomSize code ∣ 4096 ∧ 0 < atomSize code := by
  unfold atomSize
  split
  · decide
  · split <;> decide

/-- The registers that an atomic reads. -/
def atomsRegs (d : BitVec 8) (code : Nat) : List Nat := (List.range (atomReads code)).map (· + d.toNat)

/-- The machine after an atomic whose lanes found `olds`. -/
def atomsDone (d : BitVec 8) (code : Nat) (n : Mach) (z : Ex) (olds : SMap Nat) : Mach :=
  let r := addPend n (z.touch (atomsRegs d code)) .load d.toNat (atomWrites code) (olds.map (fun e => (e.1, wordsOf (atomWrites code) e.2)))
  r.1.advance r.2

theorem taken_touch_word (x : Ex) (n : Mach) (srcs : List Src) (regs : List Nat) :
    (x.taken n srcs).touch regs = { x with w := { x.w with know := ((x.taken n srcs).touch regs).w.know, lru := ((x.taken n srcs).touch regs).w.lru } } := by
  show ({ x.taken n srcs with w := _ } : Ex) = _
  rw [taken_word]
  rfl

section
variable {s : State} {x : Ex} {d a : BitVec 8} {f : BitVec 4} {c off l : Nat} {ls : List Nat} {m : Mach}

/-- THE FIRST TURN OF `ATOMS` whose lanes all name one location. -/
theorem atoms_runs (hx : s.ex? = some x) (ready : srcReady s.m x false [srcI a] (atomsRegs d f.toNat) = .go) (dst : regsReady s.m x d.toNat (atomWrites f.toNat) = .go m)
    (clear : drained s.m x.w.uid = true) (whole : ∀ a k ps os, x.r.wait ≠ .halves a k ps os) (good : ∀ l ∈ x.lanes, SpadAt s x (addressOf s x a l) (atomSize f.toNat) c off)
    (loaded : tileHeld s.m x c off (atomSize f.toNat) = false) (lanes : x.lanes = l :: ls) :
    exec (.atoms d a f) s = .next (s.withM (
      if f.toNat = 14 then
        let r := halfLanes (firstHalf m.free) (readPlace x.w.ctx 2) (writePlaceNat x.w.ctx 2) (atomOperand f.toNat x.w d.toNat) { takeAddress m x a with free := m.free + 1 }
          [(spadPlace c off, l :: ls)]
        r.1.hold (x.taken m [srcI a]) (.halves 0 m.free ((l :: ls).map (fun l => (l, spadPlace c off))) r.2)
      else
        let r := atomLanes f.toNat (readPlace x.w.ctx (atomSize f.toNat)) (writePlaceNat x.w.ctx (atomSize f.toNat)) (atomOperand f.toNat x.w d.toNat) (takeAddress m x a)
          [(spadPlace c off, l :: ls)]
        atomsDone d f.toNat r.1 (x.taken m [srcI a]) r.2)) := by
  have sp := regsReady_spills dst
  have check : ∀ k ∈ x.lanes, spadCheck m x (addressOf s x a k) (atomSize f.toNat) = .ok (c, off) := fun k active => by rw [sp.spadCheck, spadCheck_ok (good k active)]
  have unharmed : failing x (fun k => spadCheck m x (addressOf s x a k) (atomSize f.toNat)) = [] := failing_none check
  have turn : (x.taken m [srcI a]).lanes = x.lanes := by rw [taken_word]; rfl
  rw [exec_atoms, execAtoms, onWord_next hx]
  split
  · next waiting => exact absurd waiting (whole _ _ _ _)
  · show Host.Outcome.next (s.withM (withAddress s.m x a (atomsRegs d f.toNat) _)) = _
    rw [withAddress_go ready]
    simp only [dst, sp.drained, clear, Bool.not_true, Bool.false_eq_true, if_false, unharmed, deliver, turn]
    rw [if_neg, lanes, byAddress_same (p := spadPlace c off), List.map_congr_left (g := fun k => (k, spadPlace c off))]
    · rfl
    · exact fun k there => by simp only [check k (lanes ▸ there)]
    · exact fun k there => by simp only [check k (lanes ▸ there)]
    · rw [List.any_eq_true]
      rintro ⟨k, active, held⟩
      simp only [check k active, sp.tileHeld, loaded, Bool.false_eq_true] at held

/-- Nothing but a core's registers and place is touched where room is made. -/
theorem SpillsOnly.again {m m' : Mach} {core pos : Nat} (h : SpillsOnly m m' core pos) : { m' with ctxCores := m.ctxCores } = m' := by rw [← h.boxes]

theorem halves_of_bytes (sp : SMap Byte) (off : Nat) :
    bytesToNat (readBytes sp (off + 2) 2) = bytesToNat (readBytes sp off 4) / 65536 ∧ bytesToNat (readBytes sp off 2) = bytesToNat (readBytes sp off 4) % 65536 := by
  have bytes : ∀ a, (readByte sp a).toNat < 256 := fun a => (readByte sp a).isLt
  have b0 := bytes off
  have b1 := bytes (off + 1)
  have b2 := bytes (off + 2)
  have b3 := bytes (off + 3)
  simp only [readBytes, bytesToNat, Nat.add_assoc, Nat.reduceAdd]
  omega

/-- One write to the scratchpad of a core, by a word that has made room for its result and taken its address. -/
theorem spadsWritten_one {t : State} (sp : SpillsOnly s.m m x.core x.pos) {bs : List Byte} (free : (s.m.ctxCore x.w.ctx c).rounds.contains (off / 4096) = false)
    (page : ∀ i < bs.length, (off + i) / 4096 = off / 4096) (result : t.m.ctxCores = (spadWrite (takeAddress m x a) x.w.ctx c off bs).ctxCores) :
    SpadsWritten s x t [srcI a] [l] (fun _ => c) (fun _ => off) (fun _ => bs) :=
  (sp.took a).written (fun k _ i inside => by rw [page i inside]; exact free) result

theorem atoms_merged (hx : s.ex? = some x) (ready : srcReady s.m x false [srcI a] (atomsRegs d f.toNat) = .go) (dst : regsReady s.m x d.toNat (atomWrites f.toNat) = .go m)
    (clear : drained s.m x.w.uid = true) (whole : ∀ a k ps os, x.r.wait ≠ .halves a k ps os) (good : ∀ l ∈ x.lanes, SpadAt s x (addressOf s x a l) (atomSize f.toNat) c off)
    (loaded : tileHeld s.m x c off (atomSize f.toNat) = false) (lanes : x.lanes = l :: ls) (merges : ls = [] ∨ ¬(9 ≤ f.toNat ∧ f.toNat ≤ 12)) (other : f.toNat ≠ 14) :
    let operand := fun l => atomOperand f.toNat x.w d.toNat l
    let old := bytesToNat (readBytes (s.m.ctxCore x.w.ctx c).spad off (atomSize f.toNat))
    ∃ u y vals, exec (.atoms d a f) s = .next u ∧ Owes s x u y d (atomWrites f.toNat) vals
      ∧ (∀ j ∈ x.lanes, mget vals j = some (wordsOf (atomWrites f.toNat)
          (if j = l then old else atomComb f.toNat old ((ls.takeWhile (· ≠ j)).foldl (fun v i => atomComb f.toNat v (operand i)) (operand l)))))
      ∧ SpadsWritten s x u [srcI a] [l] (fun _ => c) (fun _ => off)
          (fun _ => natToBytes (atomSize f.toNat) (atomComb f.toNat old (ls.foldl (fun v i => atomComb f.toNat v (operand i)) (operand l)))) := by
  intro operand old
  have sp := regsReady_spills dst
  have place := good l (by simp [lanes])
  have page := spadAt_page place (atomSize_dvd f.toNat).1
  obtain ⟨spad, -, rounds⟩ := (sp.took a).spads c
  obtain ⟨-, -, low, -, -, -, free⟩ := place
  have low : off < 2 ^ 21 := by rw [low]; exact Nat.mod_lt _ (by decide)
  have reads : readPlace x.w.ctx (atomSize f.toNat) (takeAddress m x a) (spadPlace c off) = (old, takeAddress m x a) := by
    rw [readPlace_free low page (by rw [rounds]; exact free), spad]
  obtain ⟨olds, run, found⟩ := atomLanes_one (write := writePlaceNat x.w.ctx (atomSize f.toNat)) (y := operand) reads (lanes ▸ lanes_nodup x) merges
  rw [writePlaceNat_eq _ _ _ low] at run
  obtain ⟨y, owes⟩ := addPend_owes (n := spadWrite (takeAddress m x a) x.w.ctx c off (natToBytes (atomSize f.toNat) (atomComb f.toNat old (ls.foldl (fun v k => atomComb f.toNat v (operand k)) (operand l)))))
    hx (by rwa [← sp.again] at sp) (taken_touch_word x m [srcI a] (atomsRegs d f.toNat)) d (atomWrites f.toNat) (olds.map (fun e => (e.1, wordsOf (atomWrites f.toNat) e.2)))
  refine ⟨_, y, _, ?_, owes, fun j active => ?_, spadsWritten_one sp free (fun i inside => page i (by rwa [length_natToBytes] at inside)) rfl⟩
  · rw [atoms_runs hx ready dst clear whole good loaded lanes, if_neg other, run]
    rfl
  · rw [mget_map, found j (lanes ▸ active)]
    rfl

/-- A word that waits, on whatever machine, with nothing of it changed but what its warp knows. -/
theorem hold_waits (hx : s.ex? = some x) {n : Mach} {z : Ex} (cur : n.cur = s.m.cur) (word : z = { x with w := { x.w with know := z.w.know, lru := z.w.lru } }) (k : Wait) :
    ∃ y, (s.withM (n.hold z k)).ex? = some y ∧ RegsKept x y ∧ y.r = { x.r with wait := k } := by
  obtain ⟨here, -, there, -⟩ := ex?_some hx
  let v : Ex := { z with r := { z.r with wait := k } }
  have form : v = { x with w := { x.w with know := z.w.know, lru := z.w.lru }, r := { x.r with wait := k } } := by
    show ({ z with r := _ } : Ex) = _
    rw [word]
  refine ⟨v.settled, ex?_put (z := v) (by rw [cur, here, form]) ?_, fun r l _ => ?_, ?_⟩
  · rw [form]
    exact (List.getElem?_eq_some_iff.mp there).1
  · show v.warp.regLane r l = x.w.regLane r l
    rw [regLane_warp, form]
    rfl
  · show v.r = _
    rw [form]

/-- The location of a half. -/
theorem spadPlace_half (c off : Nat) (high : Bool) : (if high then spadPlace c off + 2 else spadPlace c off) = spadPlace c (if high then off + 2 else off) := by
  cases high
  · rfl
  · show spadPlace c off + 2 = spadPlace c (off + 2)
    simp only [spadPlace, Nat.add_assoc]

/-- A half in its place of the word. -/
theorem pieceOf_inPlace (high : Bool) (v : Nat) : (if high then pieceOf high v * 65536 else pieceOf high v) = if high then v / 65536 * 65536 else v % 65536 := by
  cases high <;> simp [pieceOf]

/-- A half of a word of a scratchpad, read and written. -/
theorem half_one {n : Mach} {high : Nat → Bool} {y : Nat → Nat} {width : Nat} (size : width = 4) (aligned : off % 4 = 0) (low : off < 2 ^ 21) (free : (n.ctxCore x.w.ctx c).rounds.contains (off / 4096) = false) :
    let old := bytesToNat (readBytes (n.ctxCore x.w.ctx c).spad off width)
    halfLanes high (readPlace x.w.ctx 2) (writePlaceNat x.w.ctx 2) y n [(spadPlace c off, [l])]
      = (spadWrite n x.w.ctx c (if high 0 then off + 2 else off) (natToBytes 2 (bf16.add (pieceOf (high 0) old) (pieceOf (high 0) (y l)))),
          [(l, if high 0 then old / 65536 * 65536 else old % 65536)]) := by
  intro old
  subst size
  have inside : (if high 0 then off + 2 else off) < 2 ^ 21 := by split <;> omega
  have same : (if high 0 then off + 2 else off) / 4096 = off / 4096 := by split <;> omega
  have page : ∀ i < 2, ((if high 0 then off + 2 else off) + i) / 4096 = (if high 0 then off + 2 else off) / 4096 := fun i hi => by split <;> omega
  have found : bytesToNat (readBytes (n.ctxCore x.w.ctx c).spad (if high 0 then off + 2 else off) 2) = pieceOf (high 0) old := by
    obtain ⟨upper, lower⟩ := halves_of_bytes (n.ctxCore x.w.ctx c).spad off
    cases high 0
    · exact lower
    · exact upper
  have reads : readPlace x.w.ctx 2 n (if high 0 then spadPlace c off + 2 else spadPlace c off) = (pieceOf (high 0) old, n) := by
    rw [spadPlace_half, readPlace_free inside page (by rw [same]; exact free), found]
  rw [halfLanes_one reads, spadPlace_half, writePlaceNat_eq _ _ _ inside, pieceOf_inPlace]

theorem atoms_halved (hx : s.ex? = some x) (ready : srcReady s.m x false [srcI a] (atomsRegs d f.toNat) = .go) (dst : regsReady s.m x d.toNat (atomWrites f.toNat) = .go m)
    (clear : drained s.m x.w.uid = true) (whole : ∀ a k ps os, x.r.wait ≠ .halves a k ps os) (good : ∀ l ∈ x.lanes, SpadAt s x (addressOf s x a l) (atomSize f.toNat) c off)
    (loaded : tileHeld s.m x c off (atomSize f.toNat) = false) (lanes : x.lanes = [l]) (code : f.toNat = 14) :
    let old := bytesToNat (readBytes (s.m.ctxCore x.w.ctx c).spad off (atomSize f.toNat))
    let high := firstHalf s.m.free 0
    ∃ u y, exec (.atoms d a f) s = .next u ∧ u.ex? = some y ∧ RegsKept x y
      ∧ y.r = { x.r with wait := .halves 0 s.m.free [(l, spadPlace c off)] [(l, if high then old / 65536 * 65536 else old % 65536)] }
      ∧ SpadsWritten s x u [srcI a] [l] (fun _ => c) (fun _ => if high then off + 2 else off) (fun _ => natToBytes 2 (bf16.add (pieceOf high old) (pieceOf high (atomOperand f.toNat x.w d.toNat l))))
      ∧ machRest u.m = machRest { s.m with free := s.m.free + 1 } := by
  intro old high
  have sp := regsReady_spills dst
  have count : m.free = s.m.free := by rw [sp.eq]
  have size : atomSize f.toNat = 4 := by rw [code]; rfl
  obtain ⟨aligned, -, low, -, -, -, free⟩ := good l (by simp [lanes])
  have aligned : off % 4 = 0 := by rw [low]; rw [size] at aligned; omega
  have low : off < 2 ^ 21 := by rw [low]; exact Nat.mod_lt _ (by decide)
  let n : Mach := { takeAddress m x a with free := s.m.free + 1 }
  obtain ⟨spad, -, rounds⟩ : (n.ctxCore x.w.ctx c).spad = _ ∧ _ ∧ (n.ctxCore x.w.ctx c).rounds = _ := (sp.took a).spads c
  have run := half_one size (x := x) (n := n) (high := firstHalf s.m.free) (y := atomOperand f.toNat x.w d.toNat) (l := l) aligned low (by rw [rounds]; exact free)
  rw [spad] at run
  obtain ⟨y, here, kept, waits⟩ := hold_waits hx (n := spadWrite n x.w.ctx c (if high then off + 2 else off) (natToBytes 2 (bf16.add (pieceOf high old) (pieceOf high (atomOperand f.toNat x.w d.toNat l)))))
    sp.cur (taken_word x m [srcI a]) (.halves 0 s.m.free [(l, spadPlace c off)] [(l, if high then old / 65536 * 65536 else old % 65536)])
  refine ⟨_, y, ?_, here, kept, waits, spadsWritten_one sp (m := m) ?_ (fun i inside => ?_) rfl, ?_⟩
  · rw [atoms_runs hx ready dst clear whole good loaded lanes, if_pos code, count]
    exact congrArg (fun r : Mach × SMap Nat => Host.Outcome.next (s.withM (r.1.hold (x.taken m [srcI a]) (.halves 0 s.m.free [(l, spadPlace c off)] r.2)))) run
  · rw [← free]
    congr 1
    split <;> omega
  · rw [length_natToBytes] at inside
    split <;> omega
  · have below := congrArg (fun k : Mach => { k with free := s.m.free + 1 }) sp.below
    exact below

/-- THE SECOND TURN of an `fadd2.b2` of one lane. -/
theorem atoms_joined (hx : s.ex? = some x) (code : f.toNat = 14) (lanes : x.lanes = [l]) {access pick v : Nat} (wait : x.r.wait = .halves access pick [(l, spadPlace c off)] [(l, v)])
    (aligned : off % 4 = 0) (low : off < 2 ^ 21) (free : (s.m.ctxCore x.w.ctx c).rounds.contains (off / 4096) = false) :
    let old := bytesToNat (readBytes (s.m.ctxCore x.w.ctx c).spad off (atomSize f.toNat))
    let high := firstHalf pick 0
    let other := pieceOf (!high) old
    ∃ u y vals, exec (.atoms d a f) s = .next u ∧ Owes s x u y d (atomWrites f.toNat) vals ∧ mget vals l = some (wordsOf (atomWrites f.toNat) (v + if high then other else 65536 * other))
      ∧ SpadsWritten s x u [] [l] (fun _ => c) (fun _ => if high then off else off + 2) (fun _ => natToBytes 2 (bf16.add other (pieceOf (!high) (atomOperand f.toNat x.w d.toNat l)))) := by
  intro old high other
  have size : atomSize f.toNat = 4 := by rw [code]; rfl
  have places : byAddress (fun k => mgetD [(l, spadPlace c off)] k 0) x.lanes = [(spadPlace c off, [l])] := by
    rw [lanes]
    exact byAddress_same fun k there => by rw [List.mem_singleton.1 there]; simp [mgetD, mget]
  have run := half_one size (x := x) (n := s.m) (high := secondHalf pick) (y := atomOperand f.toNat x.w d.toNat) (l := l) aligned low free
  let n := spadWrite s.m x.w.ctx c (if secondHalf pick 0 then off + 2 else off) (natToBytes 2 (bf16.add other (pieceOf (!high) (atomOperand f.toNat x.w d.toNat l))))
  obtain ⟨y, owes⟩ := addPend_owes (n := n) (z := x.touch (atomsRegs d f.toNat)) hx (.refl s.m x.core x.pos) rfl d (atomWrites f.toNat)
    [(l, wordsOf (atomWrites f.toNat) (v + if secondHalf pick 0 then old / 65536 * 65536 else old % 65536))]
  have took : TookSources s x s.m [] := ⟨rfl, fun _ _ => rfl⟩
  refine ⟨_, y, _, ?_, owes, ?_, ?_⟩
  · rw [exec_atoms, execAtoms, onWord_next hx]
    simp only [wait, places, run]
    simp [joinHalves, mgetD, mget]
    rfl
  · rw [mget, if_pos rfl]
    congr 3
    show (if (!firstHalf pick 0) = true then _ else _) = if firstHalf pick 0 = true then pieceOf (!firstHalf pick 0) old else 65536 * pieceOf (!firstHalf pick 0) old
    cases firstHalf pick 0 <;> simp [pieceOf, Nat.mul_comm]
  · have place : (if secondHalf pick 0 then off + 2 else off) = if high then off else off + 2 := by
      show (if !high then _ else _) = if high then _ else _
      cases high <;> rfl
    rw [← place]
    refine took.written (fun k _ i inside => ?_) rfl
    rw [length_natToBytes] at inside
    rw [← free]
    congr 1
    split <;> omega

end

end Sys2Proof.Machine
end

section
namespace Sys2Proof.Machine

/-- Settles O27: each access is one of the lemmas above, over the checks that `SpadAt` says the lanes pass. -/
theorem scratchpadAccess : Obligations.ScratchpadAccess := by
  refine ⟨fun s x d a t c off hx _ => ⟨fun m ready dst good => lds_issued hx ready dst good, fun ready => ⟨fun busy => sts_waits hx ready busy,
    fun clear good loaded => sts_writes hx ready clear good loaded, fun clear plain out => sts_parks hx ready clear plain out⟩⟩, ?_⟩
  refine fun s x d a f c off hx _ => ⟨fun m ready dst clear whole good loaded => ⟨fun l ls lanes merges other => ?_, fun l lanes code => ?_⟩,
    fun access pick l v code lanes wait aligned low free => ?_⟩
  · obtain ⟨u, y, vals, run, owes, found, wrote⟩ := atoms_merged hx ready dst clear whole good loaded lanes merges other
    exact ⟨u, y, vals, run, owes, fun j active => (found j active).trans (congrArg some (wordsOf_eq ..)), wrote⟩
  · exact atoms_halved hx ready dst clear whole good loaded lanes code
  · obtain ⟨u, y, vals, run, owes, found, wrote⟩ := atoms_joined (d := d) (a := a) hx code lanes wait aligned low free
    exact ⟨u, y, vals, run, owes, found.trans (congrArg some (wordsOf_eq ..)), wrote⟩

end Sys2Proof.Machine
end

section
/-! SUPPORT. The package after reset (R428). -/

namespace Sys2Proof.Machine

theorem fresh_mailboxes : CtxCore.fresh.mailboxes.length = 16 ∧ ∀ b ∈ CtxCore.fresh.mailboxes, b.full = false ∧ b.value = 0 := by
  refine ⟨List.length_replicate, fun b there => ?_⟩
  rw [List.eq_of_mem_replicate there]
  exact ⟨rfl, rfl⟩

theorem fresh_queues : CtxCore.fresh.queues.length = 8 ∧ ∀ q ∈ CtxCore.fresh.queues, q.kind = 0 ∧ q.entries = [] ∧ q.drops = 0 := by
  refine ⟨List.length_replicate, fun q there => ?_⟩
  rw [List.eq_of_mem_replicate there]
  exact ⟨rfl, rfl, rfl⟩

/-- At counter 0 the windows of the banks 0 and 1 of each die are in progress, and those alone (R176). -/
theorem reset_windows : ∀ die < 2, ∀ bank < 16, (mget State.reset.m.windows (die * 16 + bank)).isSome = decide (bank < 2) := by decide

/-- The first step of an empty agenda boots a package that is off. -/
theorem reset_step : step State.reset = exec .boot { State.reset with turn := 1 } := rfl

/-- Settles O59: each part of the reset state, read off its definition. -/
theorem resetState : Obligations.ResetState :=
  ⟨rfl, rfl, rfl, rfl, rfl, rfl, rfl, rfl, rfl, fun _ _ => rfl, fun _ _ => ⟨fun _ => rfl, fresh_mailboxes.1, fresh_mailboxes.2, fresh_queues.1, fresh_queues.2, rfl, rfl, rfl, rfl⟩,
    rfl, reset_windows, fun _ => rfl, wf_reset, firmwareInv_empty rfl rfl, reset_step⟩

end Sys2Proof.Machine
end

section
/-! SUPPORT. Weight store and launch record (R175 to R178, R231). -/

namespace Sys2Proof.Machine

/-! A uniform word that delivers a result. -/

/-- What a word leaves counts only as far as the frame looks at it. -/
theorem delivered_congr {s : State} {x : Ex} {t : State} {y : Ex} {e e' : Rest} {srcs : List Src} {nw : Bool} {d : BitVec 8} {count : Nat} {res : Nat → List Word}
    (h : Delivered s x t y e srcs nw d count res) (hm : machRest e.m = machRest e'.m) (hc : coreRest e.c = coreRest e'.c) (hw : warpRest e.w = warpRest e'.w) (hb : e.box = e'.box) :
    Delivered s x t y e' srcs nw d count res :=
  { h with done := wordDone_congr h.done hm hc hw (by dsimp only; rw [hb]) }

section
variable {s : State} {x : Ex} {srcs : List Src} {d : BitVec 8} {count : Nat} {f : List DWord → Mach → Ex → Eff} {m : Mach} {vs : List Word}

/-- A uniform word and what it leaves: `m'` is the machine after its effect, `v` its warp, whose registers stand. -/
theorem uniEffect_leaves (hx : s.ex? = some x) (ready : WordReady s x true srcs false d count m) {m' : Mach} {v : Warp} (value : f (operands s x srcs x.low) m x = .ok m' { x with w := v } vs)
    (ends : WordEnd s x m' { x with w := v }) (regs : v.regs = x.w.regs) (uid : v.uid = x.w.uid ∧ v.ctx = x.w.ctx) {e : Rest} (below : machRest m' = machRest e.m)
    (core : coreRest (m'.core x.core) = coreRest e.c) (warp : warpRest v = warpRest e.w) (box : m'.ctxCore x.w.ctx x.core = e.box) :
    UniformWords s x e srcs d count vs (.next (s.withM (uniEffect s.m x srcs d count f))) := by
  have kept : RegsKept x { x with w := v } := fun r l _ => by
    show laneOf (mgetD v.regs r zeroVec) l = laneOf (mgetD x.w.regs r zeroVec) l
    rw [regs]
  obtain ⟨y, delivered, latches⟩ := uniEffect_done hx ready value ends kept uid rfl rfl
  exact ⟨_, y, rfl, delivered_congr delivered below core warp box, latches⟩

/-- A uniform word that changes nothing but where its result goes. -/
theorem uniEffect_same (hx : s.ex? = some x) (ready : WordReady s x true srcs false d count m) (value : f (operands s x srcs x.low) m x = .ok m x vs) :
    UniformWords s x (.same s x) srcs d count vs (.next (s.withM (uniEffect s.m x srcs d count f))) :=
  have sp := dstReady_spills ready.2
  uniEffect_leaves hx ready value (sp.wordEnd ⟨rfl, rfl, rfl, rfl⟩ ⟨rfl, rfl⟩ rfl rfl) rfl ⟨rfl, rfl⟩ sp.below sp.rest rfl (sp.box ..)

/-- A uniform word that changes the per-context state of its core. -/
theorem uniEffect_box (hx : s.ex? = some x) (ready : WordReady s x true srcs false d count m) {b : CtxCore}
    (value : f (operands s x srcs x.low) m x = .ok (m.setCtxCore x.w.ctx x.core b) x vs) :
    UniformWords s x { Rest.same s x with box := b } srcs d count vs (.next (s.withM (uniEffect s.m x srcs d count f))) :=
  have sp := dstReady_spills ready.2
  uniEffect_leaves hx ready value ((sp.wordEnd ⟨rfl, rfl, rfl, rfl⟩ ⟨rfl, rfl⟩ rfl rfl).setCtxCore b) rfl ⟨rfl, rfl⟩ sp.below sp.rest rfl (ctxCore_setCtxCore_same ..)

end

/-- Every lane at fault in a machine that has made room for the word's result. -/
theorem deliver_spills {s : State} {x : Ex} {m : Mach} (plain : Plain x) (sp : SpillsOnly s.m m x.core x.pos) (f : Nat → FaultInfo) :
    ∃ m', deliver m x (x.lanes.map (fun l => (l, f l))) = (m', none) ∧ AllParked s x (s.withM m') f x.pc (boxOf s x) := by
  obtain ⟨m', delivered, parked⟩ := deliver_all plain f sp.sameBelow
  rw [sp.box] at parked
  exact ⟨m', delivered, parked⟩

/-! `LDW`. -/

section
variable {s : State} {x : Ex} {d a : BitVec 8} {t : BitVec 3} {m : Mach}

/-- The check of a lane's access to the weight store. -/
def ldwCheck (s : State) (x : Ex) (a : BitVec 8) (n l : Nat) : Except FaultInfo Nat :=
  if addressOf s x a l % n ≠ 0 then .error (mkFault .align 0 0 (addressOf s x a l)) else wsTarget s x.w.ctx (addressOf s x a l) n

theorem ldwCheck_ok {n l : Nat} (aligned : addressOf s x a l % n = 0) (inside : (s.partitionOf x.w.ctx).wsBase + addressOf s x a l + n ≤ min (s.partitionOf x.w.ctx).wsLimit (192 * 2 ^ 20)) :
    ldwCheck s x a n l = .ok ((s.partitionOf x.w.ctx).wsBase + addressOf s x a l) := by
  rw [Nat.le_min] at inside
  simp only [ldwCheck, wsTarget, storeSize, aligned, Nat.not_lt.2 inside.1, Nat.not_lt.2 inside.2, ne_eq, not_true_eq_false, or_self, if_false]

theorem ldwCheck_align {n l : Nat} (skew : addressOf s x a l % n ≠ 0) :
    ldwCheck s x a n l = .error { cause := .align, detail := 0, addr := (arg (operands s x [srcI a] l) 0).setWidth 48 } := by
  rw [ldwCheck, if_pos skew, mkFault, ofNat_addressOf]
  rfl

theorem ldwCheck_addr {n l : Nat} (aligned : addressOf s x a l % n = 0) (out : min (s.partitionOf x.w.ctx).wsLimit (192 * 2 ^ 20) < (s.partitionOf x.w.ctx).wsBase + addressOf s x a l + n) :
    ldwCheck s x a n l = .error { cause := .addr, detail := 7, addr := (arg (operands s x [srcI a] l) 0).setWidth 48 } := by
  have beyond : (s.partitionOf x.w.ctx).wsLimit < (s.partitionOf x.w.ctx).wsBase + addressOf s x a l + n ∨ storeSize < (s.partitionOf x.w.ctx).wsBase + addressOf s x a l + n :=
    min_lt_iff.1 out
  rw [ldwCheck, if_neg (not_not.2 aligned), wsTarget, if_pos beyond, mkFault, ofNat_addressOf]
  rfl

/-- `LDW` from where its addresses are there and room is made for its result. -/
def ldwOn (s : State) (x : Ex) (m : Mach) (d a : BitVec 8) (t : BitVec 3) : Mach :=
  let n := tyBytes t.toNat
  let die := dieOf x.core
  let chk := ldwCheck s x a n
  if x.lanes.any (fun l => match chk l with | .ok o => wsRefreshing m die o || wsRefreshing m die (o + n - 1) | .error _ => false) then m.hold x .register
  else
    match deliver m x (failing x chk) with
    | (m, none) => m
    | (m, some y) =>
      let vals := y.lanes.foldl (fun vals l =>
        match chk l with
        | .ok o => mset vals l (loadWords t.toNat (readBytes (m.wstore.getD die []) o n))
        | .error _ => vals) ([] : SMap (List Word))
      let (m, y) := pendLoad (takeAddress m x a) (y.taken m [srcI a]) d (tyRegs t.toNat) vals
      m.advance y

theorem ldw_eq (hx : s.ex? = some x) (ready : srcReady s.m x false [srcI a] = .go) (dst : loadDst s.m x d (tyRegs t.toNat) = .go m) :
    exec (.ldw d a t) s = .next (s.withM (ldwOn s x m d a t)) := by
  rw [exec_ldw, execLdw, onWord_next hx, withAddress_go ready]
  simp only [dst]
  rfl

theorem ldw_issued (hx : s.ex? = some x) (ready : srcReady s.m x false [srcI a] = .go) (dst : loadDst s.m x d (tyRegs t.toNat) = .go m)
    (good : ∀ l ∈ x.lanes, addressOf s x a l % tyBytes t.toNat = 0
      ∧ (s.partitionOf x.w.ctx).wsBase + addressOf s x a l + tyBytes t.toNat ≤ min (s.partitionOf x.w.ctx).wsLimit (192 * 2 ^ 20)
      ∧ ∀ i < tyBytes t.toNat, mget s.m.windows (x.core / 144 * 16 + ((s.partitionOf x.w.ctx).wsBase + addressOf s x a l + i) / 256 % 16) = none) :
    ∃ u y, exec (.ldw d a t) s = .next u ∧ Issued s x u y (.same s x) [srcI a] d (tyRegs t.toNat)
      (fun l => loadWords t.toNat (readBytes (s.m.wstore.getD (x.core / 144) []) ((s.partitionOf x.w.ctx).wsBase + addressOf s x a l) (tyBytes t.toNat))) := by
  have sp := loadDst_spills dst
  have check : ∀ l ∈ x.lanes, ldwCheck s x a (tyBytes t.toNat) l = .ok ((s.partitionOf x.w.ctx).wsBase + addressOf s x a l) := fun l active => ldwCheck_ok (good l active).1 (good l active).2.1
  have stores : m.wstore = s.m.wstore ∧ m.windows = s.m.windows := by rw [sp.eq]; exact ⟨rfl, rfl⟩
  have awake : ∀ l ∈ x.lanes, ∀ i < tyBytes t.toNat, wsRefreshing m (dieOf x.core) ((s.partitionOf x.w.ctx).wsBase + addressOf s x a l + i) = false := fun l active i inside => by
    have none := (good l active).2.2 i inside
    rw [wsRefreshing, stores.2]
    exact congrArg Option.isSome none
  obtain ⟨y, issued⟩ := pendLoad_issued hx sp m a d (tyRegs t.toNat)
    (mget_laneVals (x := x) fun l => loadWords t.toNat (readBytes (s.m.wstore.getD (x.core / 144) []) ((s.partitionOf x.w.ctx).wsBase + addressOf s x a l) (tyBytes t.toNat)))
  refine ⟨_, y, ?_, issued⟩
  rw [ldw_eq hx ready dst, ldwOn]
  simp only [failing_none check, deliver]
  rw [if_neg, List.foldl_ext _ (fun vals l => mset vals l (loadWords t.toNat (readBytes (s.m.wstore.getD (x.core / 144) []) ((s.partitionOf x.w.ctx).wsBase + addressOf s x a l) (tyBytes t.toNat)))) _
    (fun vals l active => by simp only [check l active, stores.1]; rfl)]
  rw [List.any_eq_true]
  rintro ⟨l, active, asleep⟩
  have size := (tyBytes_dvd t.toNat).2
  have first := awake l active 0 size
  have last := awake l active (tyBytes t.toNat - 1) (by omega)
  rw [← Nat.add_sub_assoc size] at last
  rw [Nat.add_zero] at first
  simp only [check l active, first, last, Bool.or_self, Bool.false_eq_true] at asleep

theorem ldw_parks (hx : s.ex? = some x) (ready : srcReady s.m x false [srcI a] = .go) (dst : loadDst s.m x d (tyRegs t.toNat) = .go m) (plain : Plain x) {f : Nat → FaultInfo}
    (bad : ∀ l ∈ x.lanes, ldwCheck s x a (tyBytes t.toNat) l = .error (f l)) : ∃ u, exec (.ldw d a t) s = .next u ∧ AllParked s x u f x.pc (boxOf s x) := by
  obtain ⟨m', delivered, parked⟩ := deliver_spills plain (loadDst_spills dst) f
  refine ⟨s.withM m', ?_, parked⟩
  rw [ldw_eq hx ready dst, ldwOn]
  simp only [failing_all bad, delivered]
  rw [if_neg]
  rw [List.any_eq_true]
  rintro ⟨l, active, asleep⟩
  simp only [bad l active, Bool.false_eq_true] at asleep

end

/-! `ULDC`. -/

section
variable {s : State} {x : Ex} {d a : BitVec 8} {w : BitVec 1} {m : Mach}

/-- `ULDC` from where its offset is there and room is made for its result. -/
def uldcOn (s : State) (x : Ex) (m : Mach) (d a : BitVec 8) (k : Nat) : Mach :=
  let o := addressOf s x a x.low
  if o % (4 * k) ≠ 0 then deliverAll m x (mkFault .align 0 0 o)
  else if 384 < o + 4 * k then deliverAll m x (mkFault .addr 0 7 o)
  else
    let r := pendLoad (takeAddress m x a) (x.taken m [srcI a]) d k (x.lanes.map (fun l => (l, wordsOf k (bytesToNat (((gridRecord s.m x.w).drop o).take (4 * k))))))
    r.1.advance r.2

theorem uldc_eq (hx : s.ex? = some x) (ready : srcReady s.m x true [srcI a] = .go) (dst : regsReady s.m x d.toNat (if w = 1 then 2 else 1) = .go m) :
    exec (.uldc d a w) s = .next (s.withM (uldcOn s x m d a (if w = 1 then 2 else 1))) := by
  have sp := regsReady_spills dst
  have record : gridRecord m x.w = gridRecord s.m x.w := by rw [sp.eq]; rfl
  rw [exec_uldc, execUldc, onWord_next hx]
  simp only [ready, dst, sp.box, record]
  rfl

theorem uldc_issued (hx : s.ex? = some x) (ready : srcReady s.m x true [srcI a] = .go) {k : Nat} (width : k = if w = 1 then 2 else 1) (dst : regsReady s.m x d.toNat k = .go m)
    (aligned : addressOf s x a x.low % (4 * k) = 0) (inside : addressOf s x a x.low + 4 * k ≤ 384) :
    ∃ u y, exec (.uldc d a w) s = .next u ∧ Issued s x u y (.same s x) [srcI a] d k (fun _ => loadWords (3 + k) (((gridRecord s.m x.w).drop (addressOf s x a x.low)).take (4 * k))) := by
  have words : ∀ bs, loadWords (3 + k) bs = wordsOf k (bytesToNat bs) := fun bs => by
    rw [width]
    split <;> rfl
  obtain ⟨y, issued⟩ := pendLoad_issued hx (regsReady_spills dst) m a d k
    (fun l active => mget_keyed (fun _ => wordsOf k (bytesToNat (((gridRecord s.m x.w).drop (addressOf s x a x.low)).take (4 * k)))) active)
  refine ⟨_, y, ?_, by simpa only [words] using issued⟩
  subst width
  rw [uldc_eq hx ready dst, uldcOn]
  simp only [aligned, Nat.not_lt.2 inside, ne_eq, not_true_eq_false, if_false]

theorem uldc_parks (hx : s.ex? = some x) (ready : srcReady s.m x true [srcI a] = .go) (dst : regsReady s.m x d.toNat (if w = 1 then 2 else 1) = .go m) (plain : Plain x) {f : FaultInfo}
    (bad : uldcOn s x m d a (if w = 1 then 2 else 1) = deliverAll m x f) : ∃ u, exec (.uldc d a w) s = .next u ∧ AllParked s x u (fun _ => f) x.pc (boxOf s x) := by
  obtain ⟨m', delivered, parked⟩ := deliver_spills plain (regsReady_spills dst) (fun _ => f)
  exact ⟨s.withM m', by rw [uldc_eq hx ready dst, bad, deliverAll, delivered], parked⟩

end

/-! Refresh windows. -/

/-- A bank's phase in the refresh period. -/
def wsPhase (mode : Mode) (bank : Nat) : Nat := if mode = .steady then 6400 * bank else 12800 * (bank / 2)

theorem wsPhase_lt (mode : Mode) {bank : Nat} (low : bank < 16) : wsPhase mode bank < 102400 := by
  unfold wsPhase
  split <;> omega

theorem windowStart_eq (mode : Mode) (bank now : Nat) :
    windowStart mode bank now = if now < wsPhase mode bank + 3200 then wsPhase mode bank else wsPhase mode bank + ((now - wsPhase mode bank - 3200) / 102400 + 1) * 102400 := by
  cases mode <;> rfl

/-- The earliest window that has not ended. -/
theorem windowStart_earliest (mode : Mode) {bank : Nat} (low : bank < 16) (now : Nat) :
    windowStart mode bank now % 102400 = wsPhase mode bank ∧ now < windowStart mode bank now + 3200
      ∧ (102400 ≤ windowStart mode bank now → windowStart mode bank now - 102400 + 3200 ≤ now) := by
  have phase := wsPhase_lt mode low
  rw [windowStart_eq]
  split <;> omega

/-- It has begun where the counter stands in its first 3,200 counts. -/
theorem windowStart_begun (mode : Mode) (bank now : Nat) :
    (windowStart mode bank now ≤ now ↔ wsPhase mode bank ≤ now ∧ (now - wsPhase mode bank) % 102400 < 3200)
      ∧ (windowStart mode bank now ≤ now → windowStart mode bank now = now - (now - wsPhase mode bank) % 102400) := by
  rw [windowStart_eq]
  split <;> omega

theorem wswin_words {s : State} {x : Ex} {d a : BitVec 8} {m : Mach} (hx : s.ex? = some x) (ready : WordReady s x true [srcI a] false d 2 m) {t : Nat}
    (start : t = windowStart s.mode (addressOf s x a x.low % 16) s.counter.toNat) :
    UniformWords s x (.same s x) [srcI a] d 2 [BitVec.ofNat 32 t, BitVec.ofNat 32 (t / 2 ^ 32)] (exec (.wswin d a) s) := by
  have lo : DWord.lo (BitVec.ofNat 64 t) = BitVec.ofNat 32 t := BitVec.eq_of_toNat_eq (by simp [DWord.lo])
  have hi : DWord.hi (BitVec.ofNat 64 t) = BitVec.ofNat 32 (t / 2 ^ 32) := BitVec.eq_of_toNat_eq (by simp [DWord.hi, Nat.shiftRight_eq_div_pow]; omega)
  rw [exec_wswin, execWswin, onWord_next hx, ← lo, ← hi, start]
  exact uniEffect_same hx ready rfl

theorem wsRefreshWindow_sets {s : State} {die bank : Nat} (dies : die < 2) (banks : bank < 16) :
    ∃ u, exec (.wsRefreshWindow die bank) s = .next u ∧ u = s.withM { s.m with windows := u.m.windows }
      ∧ mget u.m.windows (die * 16 + bank) = (if wsPhase s.mode bank ≤ s.counter.toNat ∧ (s.counter.toNat - wsPhase s.mode bank) % 102400 < 3200
          then some (s.counter.toNat - (s.counter.toNat - wsPhase s.mode bank) % 102400) else none)
      ∧ ∀ k, k ≠ die * 16 + bank → mget u.m.windows k = mget s.m.windows k := by
  obtain ⟨begun, start⟩ := windowStart_begun s.mode bank s.counter.toNat
  have named : ¬(2 ≤ die ∨ 16 ≤ bank) := by omega
  rw [exec_wsRefreshWindow, execWsRefreshWindow, if_neg named]
  by_cases open_ : windowStart s.mode bank s.counter.toNat ≤ s.counter.toNat
  · rw [if_pos (begun.1 open_), ← start open_]
    simp only [open_, if_true]
    exact ⟨_, rfl, rfl, mget_mset_same .., fun k other => mget_mset_other _ other _⟩
  · rw [if_neg (open_ ∘ begun.2)]
    simp only [open_, if_false]
    exact ⟨_, rfl, rfl, mget_mdel_same .., fun k other => mget_mdel_other _ other⟩

/-- Settles O28: the accesses by the lemmas above, and the windows by the arithmetic of `windowStart`. -/
theorem weightStoreAndLaunchRecord : Obligations.WeightStoreAndLaunchRecord := by
  refine ⟨fun s x d a t w m hx _ => ⟨fun ready dst => ⟨fun good => ldw_issued hx ready dst good,
      fun plain skew => ldw_parks hx ready dst plain fun l active => ldwCheck_align (skew l active),
      fun plain out => ldw_parks hx ready dst plain fun l active => ldwCheck_addr (out l active).1 (out l active).2⟩,
    fun ready _ dst => ⟨fun aligned inside _ => uldc_issued hx ready rfl dst aligned inside, fun plain skew => uldc_parks hx ready dst plain ?_, fun plain aligned out => uldc_parks hx ready dst plain ?_⟩⟩,
    fun s => ⟨fun x d a m hx ready => ?_, fun die bank dies banks => wsRefreshWindow_sets dies banks⟩⟩
  · rw [uldcOn, if_pos skew]
    rfl
  · rw [uldcOn, if_neg (not_not.2 aligned), if_pos out]
    rfl
  · obtain ⟨phase, later, earlier⟩ := windowStart_earliest s.mode (Nat.mod_lt (addressOf s x a x.low) (by decide : 16 > 0)) s.counter.toNat
    exact ⟨_, phase, later, earlier, wswin_words hx ready rfl⟩

end Sys2Proof.Machine
end

section
/-! SUPPORT. Pins and barrier objects (R167, R169, R172). -/

namespace Sys2Proof.Machine

section
variable {s : State} {x z : Ex} {m : Mach}

/-! What an acquire leaves of a word. -/

theorem WordEnd.dropL1 (h : WordEnd s x m z) : WordEnd s x (dropL1 m x.core) z where
  cur := h.cur
  place := h.place
  groups := h.groups
  run := h.run
  group := h.group
  boxes := h.boxes
  cores c other := by rw [Machine.dropL1, core_adjCore, if_neg other]; exact h.cores c other
  others p other := by
    have slots : (Machine.dropL1 m x.core).warp? x.core p = m.warp? x.core p := by simp [Mach.warp?, Machine.dropL1]
    rw [slots]
    exact h.others p other

theorem coreRest_dropL1 (m : Mach) (core : Nat) : coreRest ((dropL1 m core).core core) = { coreRest (m.core core) with l1 := [] } := by
  rw [dropL1, core_adjCore, if_pos rfl]
  rfl

/-- What is left late by an acquire. -/
theorem WordEnd.relate (h : WordEnd s x m z) (late : List Late) (rels : List RelTag) : WordEnd s x { m with late := late, rels := rels } z :=
  { cur := h.cur, place := h.place, groups := h.groups, run := h.run, group := h.group, cores := h.cores, others := h.others, boxes := h.boxes }

theorem WordEnd.knowing (h : WordEnd s x m z) (know : List Nat) : WordEnd s x m { z with w := { z.w with know := know } } :=
  { cur := h.cur, place := h.place, groups := h.groups, run := h.run, group := h.group, cores := h.cores, others := h.others, boxes := h.boxes }

/-- A word without a destination that has delivered nothing is done. -/
theorem UniformWords.done {e : Rest} {srcs : List Src} {out : Host.Outcome State Fault Refusal} (h : UniformWords s x e srcs zeroSpec 0 [] out) :
    Done s x { e with box := takeSources e.box x srcs } out := by
  obtain ⟨t, y, run, delivered, latches⟩ := h
  exact ⟨t, y, run, delivered.done, delivered.flow, delivered.regs, latches⟩

end

/-! Targets. -/

/-- An address on the issuing core. -/
theorem spadTarget_own {m : Mach} {x : Ex} {addr n : Nat} (low : addr < 2 ^ 24) (own : addr / 2 ^ 21 = x.core % 8) (inside : addr % 2 ^ 21 + n ≤ (m.ctxCluster x.w.ctx x.core).pages * 4096) :
    spadTarget m x.w.ctx x.core addr n = .ok (x.core, addr % 2 ^ 21) := by
  have here : peerCore x.core (natBits addr 21 3) = x.core := by
    simp only [peerCore, natBits]
    omega
  simp only [spadTarget, spadSize, Nat.div_eq_of_lt low, Nat.not_lt.2 inside, ne_eq, not_true_eq_false, or_self, if_false, here]

theorem pinTarget_own {m : Mach} {x : Ex} {addr : Nat} (aligned : addr % 4096 = 0) (low : addr < 2 ^ 24) (own : addr / 2 ^ 21 = x.core % 8)
    (inside : addr % 2 ^ 21 + 4096 ≤ (m.ctxCluster x.w.ctx x.core).pages * 4096) : pinTarget m x addr = .ok (addr % 2 ^ 21 / 4096) := by
  simp only [pinTarget, aligned, spadTarget_own low own inside, ne_eq, not_true_eq_false, if_false, if_true]

theorem barTarget_own {m : Mach} {x : Ex} {addr : Nat} (aligned : addr % 16 = 0) (low : addr < 2 ^ 24) (own : addr / 2 ^ 21 = x.core % 8)
    (inside : addr % 2 ^ 21 + 16 ≤ (m.ctxCluster x.w.ctx x.core).pages * 4096) : barTarget m x addr = .ok (addr % 2 ^ 21) := by
  simp only [barTarget, aligned, spadTarget_own low own inside, ne_eq, not_true_eq_false, if_false, if_true]

theorem SpillsOnly.ctxCluster {m m' : Mach} {core pos : Nat} (h : SpillsOnly m m' core pos) (ctx k : Nat) : m'.ctxCluster ctx k = m.ctxCluster ctx k := by rw [h.eq]; rfl

/-- A barrier object lies aligned in its space. -/
theorem bar_aligned {addr : Nat} (aligned : addr % 16 = 0) : addr % 2 ^ 21 % 16 = 0 := by rw [Nat.mod_mod_of_dvd _ (by decide : 16 ∣ 2 ^ 21), aligned]

/-! Pins. -/

section
variable {s : State} {x : Ex} {d a : BitVec 8} {m : Mach} {page : Nat}

/-- `PGPIN` of a page of the issuing core, as the shared operation. -/
theorem pgpin_value (sp : SpillsOnly s.m m x.core x.pos) (aligned : addressOf s x a x.low % 4096 = 0) (low : addressOf s x a x.low < 2 ^ 24) (own : addressOf s x a x.low / 2 ^ 21 = x.core % 8)
    (inside : addressOf s x a x.low % 2 ^ 21 + 4096 ≤ (s.m.ctxCluster x.w.ctx x.core).pages * 4096) :
    pinTarget m x (arg (operands s x [srcI a] x.low) 0).toNat = .ok (addressOf s x a x.low % 2 ^ 21 / 4096) ∧ m.ctxCore x.w.ctx x.core = boxOf s x ∧ corePins m x.core = corePins s.m x.core :=
  ⟨pinTarget_own aligned low own (by rw [sp.ctxCluster]; exact inside), sp.box .., by rw [sp.eq]; rfl⟩

theorem pgpin_same (hx : s.ex? = some x) (ready : WordReady s x true [srcI a] false d 1 m) (target : pinTarget m x (arg (operands s x [srcI a] x.low) 0).toNat = .ok page)
    (box : m.ctxCore x.w.ctx x.core = boxOf s x) (pins : corePins m x.core = corePins s.m x.core) {v : Word}
    (outcome : (page ∈ (boxOf s x).pins ∧ v = 1) ∨ (page ∉ (boxOf s x).pins ∧ 48 ≤ corePins s.m x.core ∧ v = 0)) :
    UniformWords s x (.same s x) [srcI a] d 1 [v] (exec (.pgpin d a) s) := by
  rw [exec_pgpin, execPgpin, onWord_next hx]
  refine uniEffect_same hx ready ?_
  obtain ⟨there, rfl⟩ | ⟨absent, full, rfl⟩ := outcome
  · simp only [target, box, List.contains_eq_mem, there, decide_true, if_true]
  · simp only [target, box, pins, List.contains_eq_mem, absent, full, decide_false, Bool.false_eq_true, if_false, if_true]

theorem pgpin_pins (hx : s.ex? = some x) (ready : WordReady s x true [srcI a] false d 1 m) (target : pinTarget m x (arg (operands s x [srcI a] x.low) 0).toNat = .ok page)
    (box : m.ctxCore x.w.ctx x.core = boxOf s x) (pins : corePins m x.core = corePins s.m x.core) (absent : page ∉ (boxOf s x).pins) (room : corePins s.m x.core < 48) :
    UniformWords s x { Rest.same s x with box := { boxOf s x with pins := (boxOf s x).pins ++ [page] } } [srcI a] d 1 [1] (exec (.pgpin d a) s) := by
  rw [exec_pgpin, execPgpin, onWord_next hx]
  refine uniEffect_box hx ready ?_
  simp only [target, box, pins, List.contains_eq_mem, absent, Nat.not_le.2 room, decide_false, Bool.false_eq_true, if_false]

theorem pgunpin_done (hx : s.ex? = some x) (ready : srcReady s.m x true [srcI a] = .go) (target : pinTarget s.m x (arg (operands s x [srcI a] x.low) 0).toNat = .ok page) :
    Done s x { Rest.same s x with box := takeSources { boxOf s x with pins := (boxOf s x).pins.filter (· ≠ page) } x [srcI a] } (exec (.pgunpin a) s) := by
  rw [exec_pgunpin, execPgunpin, onWord_next hx]
  refine UniformWords.done (e := { Rest.same s x with box := { boxOf s x with pins := (boxOf s x).pins.filter (· ≠ page) } }) (uniEffect_box hx ⟨ready, rfl⟩ ?_)
  simp only [target]
  rfl

/-! Barrier objects. -/

theorem binit_done (hx : s.ex? = some x) {off : Nat} (ready : srcReady s.m x true [srcI a, srcI d] = .go) (target : barTarget s.m x (arg (operands s x [srcI a, srcI d] x.low) 0).toNat = .ok off)
    (clear : drained s.m x.w.uid = true) (loaded : tileHeld s.m x x.core off 16 = false) (aligned : off % 16 = 0) (free : (boxOf s x).rounds.contains (off / 4096) = false) :
    ∃ sp po, Done s x { Rest.same s x with box := takeSources { boxOf s x with spad := sp, poisoned := po, signals := mdel (boxOf s x).signals off } x [srcI a, srcI d] } (exec (.binit d a) s)
      ∧ (∀ sec ∈ po, sec ∈ (boxOf s x).poisoned)
      ∧ ∀ i, readByte sp i = if off ≤ i ∧ i < off + 16 then (natToBytes 16 (arg (operands s x [srcI a, srcI d] x.low) 1).toNat).getD (i - off) 0 else readByte (boxOf s x).spad i := by
  let cleared : CtxCore := { boxOf s x with signals := mdel (boxOf s x).signals off }
  let bytes := natToBytes 16 (arg (operands s x [srcI a, srcI d] x.low) 1).toNat
  let m' := spadWrite (s.m.setCtxCore x.w.ctx x.core cleared) x.w.ctx x.core off bytes
  have ends : WordEnd s x m' x := ((WordEnd.same s x).setCtxCore cleared).setCtxCore _
  have box : m'.ctxCore x.w.ctx x.core = cleared.wrote off bytes := by
    rw [show m' = (s.m.setCtxCore x.w.ctx x.core cleared).setCtxCore x.w.ctx x.core (((s.m.setCtxCore x.w.ctx x.core cleared).ctxCore x.w.ctx x.core).wrote off bytes) from rfl]
    rw [ctxCore_setCtxCore_same, ctxCore_setCtxCore_same]
  have length : bytes.length = 16 := length_natToBytes ..
  refine ⟨(cleared.wrote off bytes).spad, (cleared.wrote off bytes).poisoned, ?_, fun sec there => List.mem_of_mem_filter there, fun i => ?_⟩
  · rw [exec_binit, execBinit, onWord_next hx]
    refine UniformWords.done (e := { Rest.same s x with box := cleared.wrote off bytes }) (uniEffect_leaves hx ⟨ready, rfl⟩ ?_ ends rfl ⟨rfl, rfl⟩ rfl rfl rfl box)
    simp only [target, clear, loaded, Bool.not_true, Bool.or_self, Bool.false_eq_true, if_false]
    rfl
  · have byte := readByte_wrote (cc := cleared) (bs := bytes) (off := off) (fun i inside => by
      rw [length] at inside
      rw [aligned_page i (by decide : 16 ∣ 4096) aligned inside]
      exact free) i
    rwa [length] at byte

/-- A word of a barrier object. -/
theorem barWord_readBytes (sp : SMap Byte) (off : Nat) {i : Nat} (inside : i < 4) : barWord (readBytes sp off 16) i = bytesToNat (readBytes sp (off + 4 * i) 4) := by
  have bytes : ((readBytes sp off 16).drop (4 * i)).take 4 = readBytes sp (off + 4 * i) 4 := by
    simp only [readBytes_eq_map]
    refine List.ext_getElem ?_ fun k _ _ => ?_
    · simp only [List.length_take, List.length_drop, List.length_map, List.length_range]
      omega
    · simp only [List.getElem_take, List.getElem_drop, List.getElem_map, List.getElem_range, Nat.add_assoc]
  rw [barWord, bytes]

/-- The object of a `BWAIT` read, on a page that no round occupies. -/
theorem bar_read {off : Nat} (sp : SpillsOnly s.m m x.core x.pos) (aligned : off % 16 = 0) (free : (boxOf s x).rounds.contains (off / 4096) = false) :
    spadRead m x.w.ctx x.core off 16 = (readBytes (boxOf s x).spad off 16, m) := by
  have box : m.ctxCore x.w.ctx x.core = boxOf s x := sp.box ..
  rw [spadRead_free (fun i => aligned_page i (by decide : 16 ∣ 4096) aligned) (by rw [box]; exact free), box]

/-- What a `BWAIT` that returns acquires: beside its core's L1, only what is left late. -/
theorem barAcquire_leaves (m : Mach) (x : Ex) (off : Nat) {srcs : List RelSrc} (signals : mgetD (m.ctxCore x.w.ctx x.core).signals off [] = srcs) :
    ∃ late rels know, barAcquire m x off
        = ({ (if ∃ r ∈ srcs, 3 ≤ r.scope then dropL1 m x.core else m) with late := late, rels := rels }, { x with w := { x.w with know := know } })
      ∧ ∀ w ∈ late, w ∈ m.late := by
  have wide : srcs.any (fun r => 3 ≤ r.scope) = true ↔ ∃ r ∈ srcs, 3 ≤ r.scope := by simp [List.any_eq_true]
  rw [barAcquire, signals, acquireRels]
  simp only [wide]
  obtain ⟨late, rels, eq, earlier⟩ := acquireFrom_earlier (if ∃ r ∈ srcs, 3 ≤ r.scope then dropL1 m x.core else m) srcs 6 x.agent
  refine ⟨late, rels, _, by rw [eq]; rfl, fun w there => ?_⟩
  have before := earlier w there
  split at before <;> exact before

theorem bwait_returns (hx : s.ex? = some x) {off : Nat} (ready : WordReady s x true [srcI a] false d 1 m) (target : barTarget m x (arg (operands s x [srcI a] x.low) 0).toNat = .ok off)
    (aligned : off % 16 = 0) (free : (boxOf s x).rounds.contains (off / 4096) = false) (small : bytesToNat (readBytes (boxOf s x).spad (off + 4 * 2) 4) < 2 ^ 16)
    (clean : bytesToNat (readBytes (boxOf s x).spad (off + 4 * 3) 4) = 0)
    (arrived : bytesToNat (readBytes (boxOf s x).spad (off + 4 * 1) 4) = bytesToNat (readBytes (boxOf s x).spad (off + 4 * 0) 4) ∨ bytesToNat (readBytes (boxOf s x).spad (off + 4 * 2) 4) ≠ 0) :
    ∃ m' l1, ReadOnly s.m m' ∧ l1 = (if ∃ r ∈ mgetD (boxOf s x).signals off [], 3 ≤ r.scope then [] else (s.m.core x.core).l1)
      ∧ UniformWords s x { Rest.same s x with m := m', c := { s.m.core x.core with l1 := l1 } } [srcI a] d 1
          [BitVec.ofNat 32 (bytesToNat (readBytes (boxOf s x).spad (off + 4 * 2) 4))] (exec (.bwait d a) s) := by
  have sp := dstReady_spills ready.2
  have signals : mgetD (m.ctxCore x.w.ctx x.core).signals off [] = mgetD (boxOf s x).signals off [] := by rw [sp.box]; rfl
  obtain ⟨late, rels, know, acquired, earlier⟩ := barAcquire_leaves m x off signals
  have late_ : m.late = s.m.late := by rw [sp.eq]
  have value : ∀ n, (if ∃ r ∈ mgetD (boxOf s x).signals off [], 3 ≤ r.scope then dropL1 m x.core else m) = n →
      machRest n = machRest s.m ∧ n.ctxCore x.w.ctx x.core = boxOf s x ∧ WordEnd s x n x
        ∧ coreRest (n.core x.core) = coreRest { s.m.core x.core with l1 := if ∃ r ∈ mgetD (boxOf s x).signals off [], 3 ≤ r.scope then [] else (s.m.core x.core).l1 } := by
    rintro n rfl
    have ends := sp.wordEnd (z := x) ⟨rfl, rfl, rfl, rfl⟩ ⟨rfl, rfl⟩ rfl rfl
    split
    · exact ⟨sp.below, sp.box .., ends.dropL1, by rw [coreRest_dropL1, sp.rest]; rfl⟩
    · exact ⟨sp.below, sp.box .., ends, sp.rest⟩
  generalize (if ∃ r ∈ mgetD (boxOf s x).signals off [], 3 ≤ r.scope then dropL1 m x.core else m) = n at acquired value
  obtain ⟨below, box, ends, own⟩ := value n rfl
  refine ⟨{ s.m with late := late, rels := rels }, _, ⟨rfl, fun _ => rfl, fun w there => late_ ▸ earlier w there⟩, rfl, ?_⟩
  rw [exec_bwait, execBwait, onWord_next hx]
  refine uniEffect_leaves (m' := { n with late := late, rels := rels }) (v := { x.w with know := know }) hx ready ?_ ?_ rfl ⟨rfl, rfl⟩ ?_ own rfl box
  · have high : bytesToNat (readBytes (boxOf s x).spad (off + 4 * 2) 4) / 65536 = 0 := Nat.div_eq_of_lt small
    have stat : bytesToNat (readBytes (boxOf s x).spad (off + 4 * 2) 4) % 65536 = bytesToNat (readBytes (boxOf s x).spad (off + 4 * 2) 4) := Nat.mod_eq_of_lt small
    simp only [target, bar_read sp aligned free, barWord_readBytes, Nat.reduceLT, high, clean, stat, ne_eq, not_true_eq_false, or_self, if_false, acquired]
    rw [if_pos arrived]
  · exact (ends.relate late rels).knowing know
  · have rest := congrArg (fun k : Mach => { k with late := late, rels := rels }) below
    exact rest

theorem bwait_waits (hx : s.ex? = some x) {off : Nat} (ready : WordReady s x true [srcI a] false d 1 s.m) (target : barTarget s.m x (arg (operands s x [srcI a] x.low) 0).toNat = .ok off)
    (aligned : off % 16 = 0) (free : (boxOf s x).rounds.contains (off / 4096) = false) (clean : bytesToNat (readBytes (boxOf s x).spad (off + 4 * 3) 4) = 0)
    (absent : bytesToNat (readBytes (boxOf s x).spad (off + 4 * 1) 4) ≠ bytesToNat (readBytes (boxOf s x).spad (off + 4 * 0) 4))
    (good : bytesToNat (readBytes (boxOf s x).spad (off + 4 * 2) 4) = 0) :
    exec (.bwait d a) s = .next (s.withM ((claimSources s.m x [srcI a]).put { x with r := { x.r with wait := .blocking } })) := by
  rw [exec_bwait, execBwait, onWord_next hx]
  have value : srcValues (s.m.ctxCore x.w.ctx x.core) x x.low [srcI a] [] = operands s x [srcI a] x.low := rfl
  simp only [uniEffect, ready.1, ready.2, value, target, bar_read (.refl s.m x.core x.pos) aligned free, barWord_readBytes, Nat.reduceLT, clean, good, Nat.zero_div, Nat.zero_mod, ne_eq, not_true_eq_false,
    or_self, or_false, if_false]
  rw [if_neg absent]
  rfl

end

/-- Settles O29: each word through its target and the shared operation of uniform words. -/
theorem pinsAndBarrierObjects : Obligations.PinsAndBarrierObjects := by
  intro s x d a m hx
  refine ⟨fun ⟨aligned, low, own, inside⟩ ready => ?_, fun ⟨aligned, low, own, inside⟩ ready => pgunpin_done hx ready (pinTarget_own aligned low own inside),
    fun ⟨aligned, low, own, inside⟩ ready clear loaded free => binit_done hx ready (barTarget_own aligned low own inside) clear loaded (bar_aligned aligned) free,
    fun ⟨aligned, low, own, inside⟩ small clean free => ⟨fun arrived ready => ?_, fun absent good ready => ?_⟩⟩
  · obtain ⟨target, box, pins⟩ := pgpin_value (dstReady_spills ready.2) aligned low own inside
    exact ⟨fun there => pgpin_same hx ready target box pins (.inl ⟨there, rfl⟩), fun absent full => pgpin_same hx ready target box pins (.inr ⟨absent, full, rfl⟩),
      fun absent room => pgpin_pins hx ready target box pins absent room⟩
  · exact bwait_returns hx ready (barTarget_own aligned low own (by rw [(dstReady_spills ready.2).ctxCluster]; exact inside)) (bar_aligned aligned) free small clean arrived
  · exact bwait_waits hx ready (barTarget_own aligned low own inside) (bar_aligned aligned) free clean absent good

end Sys2Proof.Machine
end

section
/-! SUPPORT. Bytes that engines leave in scratchpads (R161, R166): rows, and arrivals at barrier objects. -/

namespace Sys2Proof.Machine

/-! Scratchpads of a context patched. -/

/-- The bytes that a write from an offset up names. -/
def namedAt (off : Nat) (bs : List Byte) (i : Nat) : Option Byte := if off ≤ i ∧ i < off + bs.length then some (bs.getD (i - off) 0) else none

theorem namedAt_none {off i : Nat} {bs : List Byte} (out : i < off ∨ off + bs.length ≤ i) : namedAt off bs i = none := if_neg (by omega)

theorem namedAt_some {off i : Nat} {bs : List Byte} (inside : i < bs.length) : namedAt off bs (off + i) = some bs[i] := by
  rw [namedAt, if_pos ⟨Nat.le_add_right .., Nat.add_lt_add_left inside off⟩, Nat.add_sub_cancel_left, List.getD_eq_getElem _ _ inside]

/-- A machine that differs from another by bytes of scratchpads of a context, and what goes with a write there. -/
structure Patched (m r : Mach) (ctx : Nat) (f : Nat → Nat → Option Byte) : Prop where
  rest   : r = { m with ctxCores := r.ctxCores }
  rounds : ∀ k, (r.ctxCore ctx k).rounds = (m.ctxCore ctx k).rounds
  bytes  : ∀ k i, readByte (r.ctxCore ctx k).spad i = (f k i).getD (readByte (m.ctxCore ctx k).spad i)

section
variable {m n r : Mach} {ctx core off : Nat} {f g : Nat → Nat → Option Byte}

theorem Patched.refl (m : Mach) (ctx : Nat) : Patched m m ctx (fun _ _ => none) := ⟨rfl, fun _ => rfl, fun _ _ => rfl⟩

theorem Patched.trans (h : Patched m n ctx f) (k : Patched n r ctx g) : Patched m r ctx (fun k i => (g k i).or (f k i)) where
  rest := by rw [k.rest, h.rest]
  rounds j := (k.rounds j).trans (h.rounds j)
  bytes j i := by
    rw [k.bytes, h.bytes]
    cases g j i <;> rfl

theorem Patched.congr (h : Patched m n ctx f) (same : ∀ k i, f k i = g k i) : Patched m n ctx g :=
  (funext₂ same : f = g) ▸ h

/-- One core's state replaced by one with other bytes. -/
theorem patched_setCtxCore {b : CtxCore} {p : Nat → Option Byte} (rounds : b.rounds = (m.ctxCore ctx core).rounds)
    (bytes : ∀ i, readByte b.spad i = (p i).getD (readByte (m.ctxCore ctx core).spad i)) : Patched m (m.setCtxCore ctx core b) ctx (fun k i => if k = core then p i else none) where
  rest := rfl
  rounds k := by
    rw [ctxCore_setCtxCore]
    split
    next own => rw [own, rounds]
    next => rfl
  bytes k i := by
    rw [ctxCore_setCtxCore]
    split
    next own => rw [own, bytes]
    next => rfl

theorem patched_spadWrite {bs : List Byte} (free : (m.ctxCore ctx core).rounds = []) :
    Patched m (spadWrite m ctx core off bs) ctx (fun k i => if k = core then namedAt off bs i else none) := by
  rw [spadWrite_eq]
  refine patched_setCtxCore rfl fun i => ?_
  rw [readByte_wrote (fun _ _ => by rw [free]; rfl), namedAt]
  split <;> rfl

theorem patched_spadWriteNamed {bs : List Byte} (free : (m.ctxCore ctx core).rounds = []) :
    Patched m (spadWriteNamed m ctx core off (bs.map some)) ctx (fun k i => if k = core then namedAt off bs i else none) := by
  have same : spadWriteNamed m ctx core off (bs.map some) = spadWrite m ctx core off bs := by simp only [spadWriteNamed, spadWrite, List.length_map]
  rw [same]
  exact patched_spadWrite free

/-- A row written at several cores. -/
theorem patched_row {bs : List Byte} (ks : List Nat) (free : ∀ k ∈ ks, (m.ctxCore ctx k).rounds = []) :
    Patched m (ks.foldl (fun m k => spadWriteNamed m ctx k off (bs.map some)) m) ctx (fun k i => if k ∈ ks then namedAt off bs i else none) := by
  induction ks using List.reverseRecOn with
  | nil => exact Patched.refl m ctx
  | append_singleton ks k ih =>
    have before := ih fun j there => free j (List.mem_append_left _ there)
    rw [List.foldl_concat]
    refine (before.trans (patched_spadWriteNamed ((before.rounds k).trans (free k (by simp))))).congr fun j i => ?_
    by_cases own : j = k
    · have both : ∀ (v : Option Byte) (p : Prop) [Decidable p], v.or (if p then v else none) = v := fun v p _ => by cases v <;> simp
      simp [own, both]
    · by_cases there : j ∈ ks <;> simp [own, there]

end

/-! Arrivals. -/

/-- A word of a barrier object at an offset of a space. -/
def barField (sp : SMap Byte) (off i : Nat) : Nat := bytesToNat (readBytes sp (off + 4 * i) 4)

/-- What `n` bytes that arrive write of an object: ARR, and STAT when more have arrived than were expected (R166). -/
def arrivalBytes (sp : SMap Byte) (off n : Nat) : List Byte :=
  let arr := (barField sp off 1 + n) % 2 ^ 32
  let stat := barField sp off 2 % 65536
  natToBytes 4 arr ++ natToBytes 2 (if stat = 0 ∧ barField sp off 0 < arr then 2 else stat)

theorem readBytes_congr {sp sp' : SMap Byte} {off n : Nat} (same : ∀ i < n, readByte sp' (off + i) = readByte sp (off + i)) : readBytes sp' off n = readBytes sp off n := by
  rw [readBytes_eq_map, readBytes_eq_map]
  exact List.map_congr_left fun i inside => same i (List.mem_range.1 inside)

theorem readBytes_append (sp : SMap Byte) (off n k : Nat) : readBytes sp off (n + k) = readBytes sp off n ++ readBytes sp (off + n) k := by
  simp only [readBytes_eq_map, List.range_add, List.map_append, List.map_map, Function.comp_def, Nat.add_assoc]

theorem barField_congr {sp sp' : SMap Byte} {off k : Nat} (same : ∀ i < 16, readByte sp' (off + i) = readByte sp (off + i)) (inside : k < 4) : barField sp' off k = barField sp off k := by
  rw [barField, barField, readBytes_congr fun i hi => ?_]
  have byte := same (4 * k + i) (by omega)
  rwa [← Nat.add_assoc] at byte

theorem arrivalBytes_congr {sp sp' : SMap Byte} {off : Nat} (n : Nat) (same : ∀ i < 16, readByte sp' (off + i) = readByte sp (off + i)) : arrivalBytes sp' off n = arrivalBytes sp off n := by
  simp only [arrivalBytes, barField_congr same, Nat.reduceLT]

theorem length_arrivalBytes (sp : SMap Byte) (off n : Nat) : (arrivalBytes sp off n).length = 6 := by
  simp only [arrivalBytes, List.length_append, length_natToBytes]

/-- An arrival at one object. -/
theorem patched_barArrive {m : Mach} {ctx core off : Nat} (n : Nat) (srcs : List RelSrc) (free : (m.ctxCore ctx core).rounds = []) :
    Patched m (barArrive m ctx core off n false srcs) ctx (fun k i => if k = core then namedAt (off + 4) (arrivalBytes (m.ctxCore ctx core).spad off n) i else none) := by
  have clear : (m.ctxCore ctx core).rounds.any (fun p => off / 4096 ≤ p && p ≤ (off + 15) / 4096) = false := by rw [free]; rfl
  have read : spadRead m ctx core off 16 = (readBytes (m.ctxCore ctx core).spad off 16, m) := by simp only [spadRead, clear, Bool.false_eq_true, if_false]
  have words : ∀ i < 4, barWord (readBytes (m.ctxCore ctx core).spad off 16) i = barField (m.ctxCore ctx core).spad off i := fun i inside => barWord_readBytes _ _ inside
  let n' := spadWrite m ctx core (off + 4) (arrivalBytes (m.ctxCore ctx core).spad off n)
  let signal := fun (c : CtxCore) => if srcs.isEmpty then c else { c with signals := mset c.signals off (liveRels m (mgetD c.signals off [] ++ srcs)) }
  have run : barArrive m ctx core off n false srcs = n'.adjCtxCore ctx core signal := by
    simp only [barArrive, read, words, Nat.reduceLT, Bool.false_eq_true, false_and, if_false]
    rfl
  have marked : Patched n' (n'.adjCtxCore ctx core signal) ctx (fun k _ => if k = core then none else none) := by
    refine patched_setCtxCore (p := fun _ => none) ?_ fun i => ?_
    · simp only [signal]
      split <;> rfl
    · simp only [signal]
      split <;> rfl
  rw [run]
  refine ((patched_spadWrite free).trans marked).congr fun k i => ?_
  rw [ite_self, Option.none_or]

/-- Arrivals at one object of each of several cores. -/
theorem patched_arrivals {m : Mach} {ctx off : Nat} (n : Nat) (srcs : List RelSrc) {ks : List Nat} (once : ks.Nodup) (free : ∀ k ∈ ks, (m.ctxCore ctx k).rounds = []) :
    Patched m ((ks.map fun k => (k, off)).foldl (fun m b => barArrive m ctx b.1 b.2 n false srcs) m) ctx
      (fun k i => if k ∈ ks then namedAt (off + 4) (arrivalBytes (m.ctxCore ctx k).spad off n) i else none) := by
  induction ks using List.reverseRecOn with
  | nil => exact Patched.refl m ctx
  | append_singleton ks k ih =>
    obtain ⟨once, -, apart⟩ := List.nodup_append.1 once
    have fresh : k ∉ ks := fun there => apart k there k (by simp) rfl
    have before := ih once fun j there => free j (List.mem_append_left _ there)
    rw [List.map_append, List.map_singleton, List.foldl_concat]
    have next := patched_barArrive (off := off) n srcs ((before.rounds k).trans (free k (by simp)))
    rw [arrivalBytes_congr (sp := (m.ctxCore ctx k).spad) n fun i _ => by rw [before.bytes, if_neg fresh, Option.getD_none]] at next
    refine (before.trans next).congr fun j i => ?_
    by_cases own : j = k
    · simp [own, fresh]
    · by_cases there : j ∈ ks <;> simp [own, there]

/-- The fields of an object after an arrival (R166). -/
theorem barField_arrived {sp sp' : SMap Byte} {off n : Nat} (bytes : ∀ i < 16, readByte sp' (off + i) = (namedAt (off + 4) (arrivalBytes sp off n) (off + i)).getD (readByte sp (off + i))) :
    barField sp' off 0 = barField sp off 0 ∧ barField sp' off 1 = (barField sp off 1 + n) % 2 ^ 32
      ∧ barField sp' off 2 % 2 ^ 16 = (if barField sp off 2 % 2 ^ 16 = 0 ∧ barField sp off 0 < (barField sp off 1 + n) % 2 ^ 32 then 2 else barField sp off 2 % 2 ^ 16) := by
  have length := length_arrivalBytes sp off n
  have named : ∀ i, (h : i < 6) → readByte sp' (off + 4 + i) = (arrivalBytes sp off n)[i] := fun i h => by
    have byte := bytes (4 + i) (by omega)
    rw [← Nat.add_assoc, namedAt_some (by omega)] at byte
    exact byte
  have written : readBytes sp' (off + 4) 6 = arrivalBytes sp off n := by
    rw [readBytes_eq_map]
    refine List.ext_getElem (by rw [length]; simp) fun i inside _ => ?_
    rw [List.length_map, List.length_range] at inside
    rw [List.getElem_map, List.getElem_range]
    exact named i inside
  rw [readBytes_append sp' (off + 4) 4 2, arrivalBytes] at written
  obtain ⟨arr, stat⟩ := List.append_inj written (by simp [readBytes_eq_map, length_natToBytes])
  refine ⟨?_, ?_, ?_⟩
  · rw [barField, barField, readBytes_congr fun i hi => ?_]
    have byte := bytes i (by omega)
    rwa [namedAt_none (by omega)] at byte
  · rw [barField, show off + 4 * 1 = off + 4 from rfl, arr, bytesToNat_natToBytes]
    exact Nat.mod_mod ..
  · have low := (halves_of_bytes sp' (off + 4 * 2)).2
    have small : barField sp off 2 % 65536 < 65536 := Nat.mod_lt _ (by decide)
    calc barField sp' off 2 % 2 ^ 16
      _ = bytesToNat (readBytes sp' (off + 4 + 4) 2) := low.symm
      _ = (if barField sp off 2 % 65536 = 0 ∧ barField sp off 0 < (barField sp off 1 + n) % 2 ^ 32 then 2 else barField sp off 2 % 65536) % 256 ^ 2 := by rw [stat, bytesToNat_natToBytes]
      _ = _ := Nat.mod_eq_of_lt (by split <;> omega)

end Sys2Proof.Machine
end

section
/-! SUPPORT. The steps of a copy (R157, R161, R166, R168): what a row reads, where it goes, what counts, and the end. -/

namespace Sys2Proof.Machine

/-! An engine's accesses in a machine with the same TLBs. -/

/-- A hit translates in any machine with the same TLBs, for an engine too. -/
theorem translate_engine {s : State} {m : Mach} {ctx core : Nat} {va : DWord} {acc : Access} {t : Xlat} (tlb : m.tlb = s.m.tlb) (h : Hit s ctx core va acc t true) :
    translate s m ctx core va acc true true = .ok t m := by
  obtain ⟨range, e, hit, own, dirty, rfl, check⟩ := h
  have clean : (acc.writes && !pteBit e.pte 7) = false := by
    cases writes : acc.writes
    · rfl
    · simp [dirty writes]
  have same : tlbHit m ctx core va.toNat true = some e := by
    rw [← Option.mem_def.1 hit]
    simp only [tlbHit, tlbFind, tlb]
  simp only [translate, ge_iff_le, Nat.not_le.2 range, if_false, same, clean, Bool.false_eq_true, check, own, if_true]

/-- A write of an engine on one page through a hit, after reads that moved only what is held ahead of memory. -/
theorem putMem_wrote {s : State} {m : Mach} {ctx die : Nat} {va : DWord} {t : Xlat} {o : Writer} {bs : List (Option Byte)} (read : Cached s.m m) (pos : 0 < bs.length)
    (fits : va.toNat % 4096 + bs.length ≤ 4096) (hit : Hit s ctx o.agent.core va .write t true) (hbm : paClass s t.pa = .hbm die) :
    ∃ r, putMem s m ctx o va bs = { got := bs.length, fault := none, waits := false, m := r } ∧ Wrote s.m r o.agent.core t.pa bs ∧ ∀ w ∈ m.allWarps, w ∈ r.allWarps := by
  have tlb : m.tlb = s.m.tlb := by
    have same := congrArg Mach.tlb read.rest
    exact same
  obtain ⟨wrote, cores⟩ := writeFrom_wrote hbm m o bs (t.mt ≠ 2) []
  refine ⟨patchL1 (writeFrom s m o t.pa bs (t.mt ≠ 2)) o.agent.core t.pa bs, ?_, (wrote.after read.beside).before rfl fun _ late => late,
    fun w there => mem_allWarps_adjCore _ (fun _ => rfl) (by rw [Mach.allWarps, cores]; exact there)⟩
  simp only [putMem, pageParts_one _ pos fits, writePrefix, translate_engine tlb hit, List.take_length, Nat.add_zero]

/-! What a row reads. -/

theorem peerCore_eq (core sel : Nat) : peerCore core (natBits sel 21 3) = core / 8 * 8 + sel / 2 ^ 21 % 8 := by simp only [peerCore, natBits, Nat.mod_mod, show 2 ^ 3 = 8 by decide]

/-- The source bytes of a copy's next row, read into L2 at most. -/
structure Fetched (s : State) (c : Copy) (bs : List Byte) (m : Mach) : Prop where
  run    : copyFetch s s.m c c.row 0 (cNel c.desc) = { got := bs, fault := none, waits := false, m := m }
  cached : Cached s.m m
  length : bs.length = cNel c.desc

section
variable {s : State} {c : Copy} {id : Nat} {bs : List Byte} {m r : Mach}

theorem fetched_memory {t : Xlat} {die : Nat} (kind : cSk c.desc = 0) (pos : 0 < cNel c.desc) (hbm : paClass s t.pa = .hbm die)
    (fits : (BitVec.ofNat 64 (cSrc c.desc + c.row * cSstr c.desc) : DWord).toNat % 4096 + cNel c.desc ≤ 4096)
    (hit : Hit s c.ctx c.core (BitVec.ofNat 64 (cSrc c.desc + c.row * cSstr c.desc)) .read t true) (clean : poisonedRange s.m t.pa (cNel c.desc) = false) :
    ∃ m, Fetched s c (viewBytes s.m (dieOf c.core) t.pa (cNel c.desc)) m := by
  obtain ⟨m, read, cached⟩ := readAt_hbm (s := s) (core := c.core) (BitVec.ofNat 64 (cSrc c.desc + c.row * cSstr c.desc) : DWord).toNat (hbm_of_class hbm) (by omega : cNel c.desc ≤ 4096) clean
  refine ⟨m, ?_, cached, by rw [viewBytes, List.length_map, List.length_range]⟩
  simp only [copyFetch, kind, if_true, Nat.add_zero, pageParts_one _ pos fits, readPrefix, readVa, translate_engine rfl hit, Res.next, read, List.append_nil]

theorem fetched_spad {k off : Nat} (kind : cSk c.desc ≠ 0) (core : k = c.core / 8 * 8 + cSrc c.desc / 2 ^ 21 % 8) (at_ : off = cSrc c.desc % 2 ^ 21 + c.row * cSstr c.desc)
    (inside : off + cNel c.desc ≤ spadSize s.m c.ctx c.core) (clean : spadPoisoned (s.m.ctxCore c.ctx k) off (cNel c.desc) = false) (free : (s.m.ctxCore c.ctx k).rounds = []) :
    Fetched s c (readBytes (s.m.ctxCore c.ctx k).spad off (cNel c.desc)) s.m := by
  have read : spadRead s.m c.ctx k off (cNel c.desc) = (readBytes (s.m.ctxCore c.ctx k).spad off (cNel c.desc), s.m) := by
    cases cNel c.desc with
    | zero => rfl
    | succ n => simp only [spadRead, free, List.any_nil, Bool.false_eq_true, if_false]
  have size : spadSize s.m c.ctx k = spadSize s.m c.ctx c.core := by
    have near : clusterOf k = clusterOf c.core := by
      simp only [clusterOf]
      omega
    simp only [spadSize, Mach.ctxCluster, near]
  refine ⟨?_, .refl _, by rw [readBytes_eq_map, List.length_map, List.length_range]⟩
  simp only [copyFetch, kind, if_false, Nat.add_zero, peerCore_eq, ← core, ← at_, size, Nat.not_lt.2 inside, clean, Bool.false_eq_true, read]

/-! Where a row goes. -/

/-- The next row of a plain copy of which nothing has been read or written yet. -/
theorem rowOut_plain (fresh : c.ahead = []) (unformed : c.formed = none) (plain : cConv c.desc = 0)
    (fetch : copyFetch s s.m c c.row 0 (cNel c.desc) = { got := bs, fault := none, waits := false, m := m }) :
    c.rowOut s s.m = .ok ({ bytes := bs, side := [], marks := [], maxabs := 0, stop := none }, m) := by
  have ahead : bs.zipIdx.map (fun (b, i) => mgetD c.ahead (0 + i) b) = bs := by
    rw [fresh]
    exact List.zipIdx_map_fst ..
  have read : copyRead s s.m c c.row 0 (srcRowBytes c.desc c.fslot) = { got := bs, fault := none, waits := false, m := m } := by
    have size : srcRowBytes c.desc c.fslot = cNel c.desc := by simp only [srcRowBytes, plain]
    simp only [copyRead, size, fetch, ahead]
  have lists : cSrcTl c.desc = false := by simp [cSrcTl, plain]
  simp only [Copy.rowOut, unformed, convertRow, lists, Bool.false_eq_true, if_false, read, plain, Option.map_none]

theorem unwritten_fresh (late : c.early = []) (bs : List Byte) : c.unwritten bs = bs.map some := by
  simp only [Copy.unwritten, late, List.contains_nil, Bool.false_eq_true, if_false]
  rw [show (fun x : Byte × Nat => some x.1) = some ∘ Prod.fst from rfl, ← List.map_map, List.zipIdx_map_fst]

/-- A copy as its first row begins differs by its releases. -/
theorem begin_eq (m : Mach) (id : Nat) (c : Copy) : ∃ srcs, c.begin m id = { c with srcs := srcs } := by
  unfold Copy.begin
  split
  · exact ⟨_, rfl⟩
  · exact ⟨c.srcs, rfl⟩

/-- The copy after a row. -/
def Copy.past (c : Copy) (m : Mach) (id n : Nat) : Copy := { c.begin m id with row := c.row + 1, delivered := c.delivered + n }

/-- The machine after a row has been delivered, its bytes counted unless a release holds the count back (R161, R169). -/
def countedRow (r : Mach) (c : Copy) (m : Mach) (id n : Nat) : Mach := if c.rel.isSome then r else copyArrive r c n false (arrivalRels r id (c.begin m id))

/-- THE NEXT ROW of a plain copy: read, delivered, counted. -/
theorem copyRow_runs (found : mget s.m.copies id = some c) (free : c.held = false) (goes : c.stop = none) (fresh : c.ahead = []) (unformed : c.formed = none) (late : c.early = [])
    (more : c.row < cNrow c.desc) (turn : commandReady s.m c.warp c.since = true) (plain : cConv c.desc = 0) (fetch : Fetched s c bs m)
    (deliver : deliverRow s m id (c.begin s.m id) c.row (bs.map some) = { got := bs.length, fault := none, waits := false, m := r }) :
    exec (.copyRow id) s = .next (s.withM { countedRow r c s.m id bs.length with copies := mset (countedRow r c s.m id bs.length).copies id (c.past s.m id bs.length) }) := by
  have ready : c.ready s.m = true := by simp [Copy.ready, free, goes, Nat.not_le.2 more, turn]
  rw [exec_copyRow, execCopyRow, found, countedRow, Copy.past]
  simp only [ready, Bool.not_true, Bool.false_eq_true, if_false]
  obtain ⟨srcs, begun⟩ := begin_eq s.m id c
  generalize c.begin s.m id = b at deliver begun
  have out : b.rowOut s s.m = .ok ({ bytes := bs, side := [], marks := [], maxabs := 0, stop := none }, m) := by
    subst begun
    exact rowOut_plain fresh unformed plain fetch.run
  have unwritten : b.unwritten bs = bs.map some := unwritten_fresh (by rw [begun]; exact late) bs
  have row : b.row = c.row := by rw [begun]
  have largest : BitVec.ofNat 32 (max b.maxabs.toNat 0) = b.maxabs := by simp
  simp only [out, unwritten, row, deliver, Bool.false_eq_true, if_false, Option.isSome_none, List.isEmpty_nil, Bool.or_true, if_true, RowOut.counted, Option.map_none, largest]
  subst begun
  simp only [fresh, unformed, late, goes]
  rfl

/-! The cores of a copy. -/

/-- The cores that a mask names in a cluster. -/
theorem maskCores_eq (core mask : Nat) :
    ((List.range 8).filter (fun k => natBits mask k 1 = 1)).map (peerCore core) = ((List.range 8).filter (fun k => mask / 2 ^ k % 2 = 1)).map (· + core / 8 * 8) := by
  refine List.map_congr_left fun k there => ?_
  have low := List.mem_range.1 (List.mem_of_mem_filter there)
  rw [peerCore, Nat.mod_eq_of_lt low, Nat.add_comm]

theorem copyCores_eq (c : Copy) :
    copyCores c = if c.mcast then ((List.range 8).filter (fun k => cMask c.desc / 2 ^ k % 2 = 1)).map (· + c.core / 8 * 8) else [c.core / 8 * 8 + cDst c.desc / 2 ^ 21 % 8] := by
  rw [copyCores, maskCores_eq, peerCore_eq]

/-- The cores whose barrier objects a copy with BV counts into. -/
def barCores (c : Copy) : List Nat := if c.mcast then copyCores c else [c.core / 8 * 8 + cBar c.desc / 2 ^ 21 % 8]

theorem copyBars_eq (c : Copy) : copyBars c = if cBv c.desc then (barCores c).map (fun k => (k, cBar c.desc % 2 ^ 21)) else [] := by
  rw [copyBars, barCores, peerCore_eq]
  cases cBv c.desc <;> cases c.mcast <;> rfl

theorem mem_copyCores {k : Nat} (there : k ∈ copyCores c) : clusterOf k = clusterOf c.core := by
  have near : ∃ j < 8, k = c.core / 8 * 8 + j := by
    rw [copyCores_eq] at there
    split at there
    · obtain ⟨j, inside, rfl⟩ := List.mem_map.1 there
      exact ⟨j, List.mem_range.1 (List.mem_of_mem_filter inside), Nat.add_comm ..⟩
    · exact ⟨_, Nat.mod_lt _ (by decide), List.mem_singleton.1 there⟩
  obtain ⟨j, low, rfl⟩ := near
  simp only [clusterOf]
  omega

theorem mem_barCores {k : Nat} (there : k ∈ barCores c) : clusterOf k = clusterOf c.core := by
  rw [barCores] at there
  split at there
  · exact mem_copyCores there
  · rw [List.mem_singleton.1 there]
    simp only [clusterOf]
    omega

theorem nodup_barCores (c : Copy) : (barCores c).Nodup := by
  rw [barCores, copyCores_eq]
  split
  · exact (List.nodup_range.filter _).map fun _ _ same => Nat.add_right_cancel same
  · exact List.nodup_singleton _

/-! Delivery. -/

theorem deliverRow_spad {off : Nat} (kind : cDk c.desc = 1) (at_ : off = cDst c.desc % 2 ^ 21 + c.row * cDstr c.desc) (inside : off + bs.length ≤ spadSize m c.ctx c.core) :
    deliverRow s m id c c.row (bs.map some)
      = { got := bs.length, fault := none, waits := false, m := (copyCores c).foldl (fun m k => spadWriteNamed m c.ctx k off (bs.map some)) m } := by
  have fits : (copyCores c).all (fun k => decide (off + bs.length ≤ spadSize m c.ctx k)) = true := by
    rw [List.all_eq_true]
    intro k there
    rw [decide_eq_true_eq, spadSize, Mach.ctxCluster, mem_copyCores there]
    exact inside
  simp only [deliverRow, kind, Nat.add_zero, ← at_, List.length_map, fits, if_true]

theorem deliverRow_wstore {off : Nat} (kind : cDk c.desc = 2) (at_ : off = (s.partitionOf c.ctx).wsBase + cDst c.desc + c.row * cDstr c.desc)
    (window : off + bs.length ≤ (s.partitionOf c.ctx).wsLimit) (inside : off + bs.length ≤ 192 * 2 ^ 20) :
    deliverRow s m id c c.row (bs.map some) = { got := bs.length, fault := none, waits := false, m := { m with wstore := setAt m.wstore (dieOf c.core) (putBytes (m.wstore.getD (dieOf c.core) []) off (bs.map some)) } } := by
  rw [Nat.add_assoc] at at_
  have target : wsTarget s c.ctx (cDst c.desc + c.row * cDstr c.desc) bs.length = .ok off := by
    simp only [wsTarget, storeSize, ← at_, Nat.not_lt.2 window, Nat.not_lt.2 inside, or_self, if_false]
  simp only [deliverRow, kind, Nat.add_zero, List.length_map, target]

theorem deliverRow_memory {t : Xlat} {die : Nat} (kind : cDk c.desc = 0) (read : Cached s.m m) (pos : 0 < bs.length)
    (fits : (BitVec.ofNat 64 (cDst c.desc + c.row * cDstr c.desc) : DWord).toNat % 4096 + bs.length ≤ 4096)
    (hit : Hit s c.ctx c.core (BitVec.ofNat 64 (cDst c.desc + c.row * cDstr c.desc)) .write t true) (hbm : paClass s t.pa = .hbm die) :
    ∃ r, deliverRow s m id c c.row (bs.map some) = { got := bs.length, fault := none, waits := false, m := r } ∧ Wrote s.m r c.core t.pa (bs.map some) := by
  obtain ⟨r, put, wrote, -⟩ := putMem_wrote (o := copyWriter m id c []) (bs := bs.map some) read (by rwa [List.length_map]) (by rwa [List.length_map]) hit hbm
  rw [List.length_map] at put
  exact ⟨r, by simp only [deliverRow, kind, Nat.add_zero, put], wrote⟩

/-! What is counted. -/

/-- A copy whose rows are counted as they are delivered. -/
def countsRows (c : Copy) : Prop := cBv c.desc = true ∧ c.rel = none

theorem countedRow_silent (silent : ¬countsRows c) (n : Nat) : countedRow r c m id n = r := by
  unfold countedRow
  split
  · rfl
  · next unreleased =>
    have none_ : c.rel = none := by simpa using unreleased
    have bare : cBv c.desc = false := by
      by_contra barred
      exact silent ⟨by simpa using barred, none_⟩
    rw [copyArrive, copyBars_eq, bare]
    rfl

/-- Arrivals at the objects of a copy. -/
theorem patched_copyArrive (barred : cBv c.desc = true) (n : Nat) (srcs : List RelSrc) (free : ∀ k, clusterOf k = clusterOf c.core → (m.ctxCore c.ctx k).rounds = []) :
    Patched m (copyArrive m c n false srcs) c.ctx
      (fun k i => if k ∈ barCores c then namedAt (cBar c.desc % 2 ^ 21 + 4) (arrivalBytes (m.ctxCore c.ctx k).spad (cBar c.desc % 2 ^ 21) n) i else none) := by
  rw [copyArrive, copyBars_eq, barred, if_pos rfl]
  exact patched_arrivals n srcs (nodup_barCores c) fun k there => free k (mem_barCores there)

theorem patched_countedRow (counts : countsRows c) (n : Nat) (free : ∀ k, clusterOf k = clusterOf c.core → (r.ctxCore c.ctx k).rounds = []) :
    Patched r (countedRow r c m id n) c.ctx
      (fun k i => if k ∈ barCores c then namedAt (cBar c.desc % 2 ^ 21 + 4) (arrivalBytes (r.ctxCore c.ctx k).spad (cBar c.desc % 2 ^ 21) n) i else none) := by
  obtain ⟨barred, unreleased⟩ := counts
  rw [countedRow, unreleased, if_neg (by simp)]
  exact patched_copyArrive barred n _ free

/-- The fields of the objects of a copy after arrivals. -/
theorem arrived_fields {t : Mach} {n bar : Nat}
    (patched : Patched r t c.ctx (fun k i => if k ∈ barCores c then namedAt (bar + 4) (arrivalBytes (r.ctxCore c.ctx k).spad bar n) i else none)) {k : Nat} (there : k ∈ barCores c)
    (same : ∀ i < 16, readByte (r.ctxCore c.ctx k).spad (bar + i) = readByte (m.ctxCore c.ctx k).spad (bar + i)) :
    let old := fun i => barField (m.ctxCore c.ctx k).spad bar i
    let new := fun i => barField (t.ctxCore c.ctx k).spad bar i
    new 0 = old 0 ∧ new 1 = (old 1 + n) % 2 ^ 32
      ∧ new 2 % 2 ^ 16 = (if old 2 % 2 ^ 16 = 0 ∧ old 0 < (old 1 + n) % 2 ^ 32 then 2 else old 2 % 2 ^ 16) := by
  have fields := barField_arrived (sp := (r.ctxCore c.ctx k).spad) (sp' := (t.ctxCore c.ctx k).spad) (off := bar) (n := n) fun i _ => by rw [patched.bytes, if_pos there]
  simpa only [barField_congr same, Nat.reduceLT] using fields

/-- Arrivals reach no byte outside the objects. -/
theorem arrived_outside {t : Mach} {n bar : Nat}
    (patched : Patched r t c.ctx (fun k i => if k ∈ barCores c then namedAt (bar + 4) (arrivalBytes (r.ctxCore c.ctx k).spad bar n) i else none)) {k i : Nat}
    (out : ¬(k ∈ barCores c ∧ bar ≤ i ∧ i < bar + 16)) : readByte (t.ctxCore c.ctx k).spad i = readByte (r.ctxCore c.ctx k).spad i := by
  rw [patched.bytes]
  split
  next there => rw [namedAt_none (by rw [length_arrivalBytes]; by_contra inside; exact out ⟨there, by omega, by omega⟩)]; rfl
  next => rfl

/-! A row, by its destination. -/

/-- The objects of a copy after `n` bytes have arrived (R166). -/
def ArrivedAt (m t : Mach) (c : Copy) (n : Nat) : Prop :=
  ∀ k ∈ barCores c,
    let old := fun i => barField (m.ctxCore c.ctx k).spad (cBar c.desc % 2 ^ 21) i
    let new := fun i => barField (t.ctxCore c.ctx k).spad (cBar c.desc % 2 ^ 21) i
    new 0 = old 0 ∧ new 1 = (old 1 + n) % 2 ^ 32
      ∧ new 2 % 2 ^ 16 = (if old 2 % 2 ^ 16 = 0 ∧ old 0 < (old 1 + n) % 2 ^ 32 then 2 else old 2 % 2 ^ 16)

/-- A byte of an object that a copy counts its rows into. -/
def inObject (c : Copy) (k i : Nat) : Prop := countsRows c ∧ k ∈ barCores c ∧ cBar c.desc % 2 ^ 21 ≤ i ∧ i < cBar c.desc % 2 ^ 21 + 16

/-- The next row of a plain copy, of which nothing has been read or written yet: its bytes, and the machine after they are read. -/
structure NextRow (s : State) (id : Nat) (c : Copy) (bs : List Byte) (m : Mach) : Prop where
  found    : mget s.m.copies id = some c
  free     : c.held = false
  goes     : c.stop = none
  fresh    : c.ahead = []
  unformed : c.formed = none
  late     : c.early = []
  more     : c.row < cNrow c.desc
  turn     : commandReady s.m c.warp c.since = true
  plain    : cConv c.desc = 0
  fetch    : Fetched s c bs m
  rounds   : ∀ k, clusterOf k = clusterOf c.core → (s.m.ctxCore c.ctx k).rounds = []

theorem ctxCore_congr {m n : Mach} (boxes : n.ctxCores = m.ctxCores) (ctx k : Nat) : n.ctxCore ctx k = m.ctxCore ctx k := by rw [Mach.ctxCore, boxes, Mach.ctxCore]

/-- What counting a row changes: the objects alone. -/
theorem countedRow_counts (free : ∀ k, clusterOf k = clusterOf c.core → (r.ctxCore c.ctx k).rounds = []) (n : Nat) :
    let t := countedRow r c m id n
    t = { r with ctxCores := t.ctxCores } ∧ (¬countsRows c → t = r)
      ∧ ∀ k i, ¬inObject c k i → readByte (t.ctxCore c.ctx k).spad i = readByte (r.ctxCore c.ctx k).spad i := by
  by_cases counts : countsRows c
  · have patched := patched_countedRow (m := m) (id := id) counts n free
    exact ⟨patched.rest, fun silent => absurd counts silent, fun k i out => arrived_outside patched fun inside => out ⟨counts, inside⟩⟩
  · rw [countedRow_silent counts]
    exact ⟨rfl, fun _ => rfl, fun _ _ _ => rfl⟩

/-- The arrivals of a row whose delivery leaves the objects as they were. -/
theorem countedRow_arrived {m₀ : Mach} (counts : countsRows c) (free : ∀ k, clusterOf k = clusterOf c.core → (r.ctxCore c.ctx k).rounds = []) {n : Nat}
    (same : ∀ k ∈ barCores c, ∀ i < 16, readByte (r.ctxCore c.ctx k).spad (cBar c.desc % 2 ^ 21 + i) = readByte (m₀.ctxCore c.ctx k).spad (cBar c.desc % 2 ^ 21 + i)) :
    ArrivedAt m₀ (countedRow r c m id n) c n :=
  fun k there => arrived_fields (patched_countedRow counts n free) there (same k there)

/-- A row delivered where it leaves the scratchpads as they were. -/
theorem countedRow_beside (boxes : r.ctxCores = s.m.ctxCores) (free : ∀ k, clusterOf k = clusterOf c.core → (s.m.ctxCore c.ctx k).rounds = []) (n : Nat) :
    let t := countedRow r c m id n
    t = { r with ctxCores := t.ctxCores } ∧ (countsRows c → ArrivedAt s.m t c n) ∧ (¬countsRows c → t.ctxCores = s.m.ctxCores)
      ∧ ∀ k i, ¬inObject c k i → readByte (t.ctxCore c.ctx k).spad i = readByte (s.m.ctxCore c.ctx k).spad i := by
  have box := ctxCore_congr boxes c.ctx
  have free' : ∀ k, clusterOf k = clusterOf c.core → (r.ctxCore c.ctx k).rounds = [] := fun k near => by rw [box]; exact free k near
  obtain ⟨rest, silent, outside⟩ := countedRow_counts (m := m) (id := id) free' n
  exact ⟨rest, fun counts => countedRow_arrived counts free' fun k _ i _ => by rw [box], fun quiet => by rw [silent quiet, boxes], fun k i out => by rw [outside k i out, box]⟩

theorem NextRow.runs (h : NextRow s id c bs m) (deliver : deliverRow s m id (c.begin s.m id) c.row (bs.map some) = { got := bs.length, fault := none, waits := false, m := r }) :
    exec (.copyRow id) s = .next (s.withM { countedRow r c s.m id bs.length with copies := mset (countedRow r c s.m id bs.length).copies id (c.past s.m id bs.length) }) :=
  copyRow_runs h.found h.free h.goes h.fresh h.unformed h.late h.more h.turn h.plain h.fetch deliver

theorem NextRow.spad (h : NextRow s id c bs m) {off : Nat} (kind : cDk c.desc = 1) (at_ : off = cDst c.desc % 2 ^ 21 + c.row * cDstr c.desc) (inside : off + bs.length ≤ spadSize s.m c.ctx c.core)
    (apart : countsRows c → cBar c.desc % 2 ^ 21 + 16 ≤ off ∨ off + bs.length ≤ cBar c.desc % 2 ^ 21 ∨ ∀ k ∈ barCores c, k ∉ copyCores c) :
    ∃ u, exec (.copyRow id) s = .next u ∧ u.m.mem = s.m.mem ∧ u.m.cores = s.m.cores ∧ mget u.m.copies id = some (c.past s.m id bs.length) ∧ (countsRows c → ArrivedAt s.m u.m c bs.length)
      ∧ ∀ k i, ¬inObject c k i → readByte (u.m.ctxCore c.ctx k).spad i
          = if k ∈ copyCores c ∧ off ≤ i ∧ i < off + bs.length then bs.getD (i - off) 0 else readByte (s.m.ctxCore c.ctx k).spad i := by
  have box := ctxCore_congr h.fetch.cached.ctxCores c.ctx
  have size : spadSize m c.ctx c.core = spadSize s.m c.ctx c.core := by
    have clusters := congrArg Mach.ctxClusters h.fetch.cached.rest
    simp only [spadSize, Mach.ctxCluster]
    rw [show m.ctxClusters = s.m.ctxClusters from clusters]
  have cores : m.cores = s.m.cores := by
    have same := congrArg Mach.cores h.fetch.cached.rest
    exact same
  have row := patched_row (bs := bs) (off := off) (copyCores c) fun k there => (congrArg CtxCore.rounds (box k)).trans (h.rounds k (mem_copyCores there))
  have deliver : deliverRow s m id (c.begin s.m id) c.row (bs.map some)
      = { got := bs.length, fault := none, waits := false, m := (copyCores c).foldl (fun m k => spadWriteNamed m c.ctx k off (bs.map some)) m } := by
    obtain ⟨srcs, begun⟩ := begin_eq s.m id c
    rw [begun]
    exact deliverRow_spad (c := { c with srcs := srcs }) kind at_ (by rw [size]; exact inside)
  have run := h.runs deliver
  generalize (copyCores c).foldl (fun m k => spadWriteNamed m c.ctx k off (bs.map some)) m = r at row run
  have free : ∀ k, clusterOf k = clusterOf c.core → (r.ctxCore c.ctx k).rounds = [] := fun k near => (row.rounds k).trans ((congrArg CtxCore.rounds (box k)).trans (h.rounds k near))
  have bytes : ∀ k i, readByte (r.ctxCore c.ctx k).spad i = if k ∈ copyCores c ∧ off ≤ i ∧ i < off + bs.length then bs.getD (i - off) 0 else readByte (s.m.ctxCore c.ctx k).spad i := fun k i => by
    rw [row.bytes, box, namedAt, ← ite_and]
    split <;> rfl
  obtain ⟨rest, -, outside⟩ := countedRow_counts (m := s.m) (id := id) free bs.length
  refine ⟨_, run, ?_, ?_, mget_mset_same .., fun counts => ?_, fun k i out => (outside k i out).trans (bytes k i)⟩
  · show (countedRow r c s.m id bs.length).mem = s.m.mem
    rw [rest, row.rest]
    exact h.fetch.cached.mem
  · show (countedRow r c s.m id bs.length).cores = s.m.cores
    rw [rest, row.rest]
    exact cores
  · refine countedRow_arrived (m := s.m) (id := id) counts free fun k there i low => ?_
    rw [bytes, if_neg]
    rintro ⟨receives, above, below⟩
    obtain before | after | elsewhere := apart counts
    · omega
    · omega
    · exact elsewhere k there receives

theorem NextRow.memory (h : NextRow s id c bs m) {t : Xlat} {die : Nat} (kind : cDk c.desc = 0) (pos : 0 < bs.length)
    (fits : (BitVec.ofNat 64 (cDst c.desc + c.row * cDstr c.desc) : DWord).toNat % 4096 + bs.length ≤ 4096)
    (hit : Hit s c.ctx c.core (BitVec.ofNat 64 (cDst c.desc + c.row * cDstr c.desc)) .write t true) (hbm : paClass s t.pa = .hbm die) :
    ∃ u m', exec (.copyRow id) s = .next u ∧ u = s.withM { m' with copies := mset s.m.copies id (c.past s.m id bs.length), ctxCores := u.m.ctxCores } ∧ WroteAt s.m m' c.core t.pa (bs.map some)
      ∧ (countsRows c → ArrivedAt s.m u.m c bs.length) ∧ (¬countsRows c → u.m.ctxCores = s.m.ctxCores)
      ∧ ∀ k i, ¬inObject c k i → readByte (u.m.ctxCore c.ctx k).spad i = readByte (s.m.ctxCore c.ctx k).spad i := by
  obtain ⟨r, deliver, wrote⟩ : ∃ r, deliverRow s m id (c.begin s.m id) c.row (bs.map some) = { got := bs.length, fault := none, waits := false, m := r } ∧ Wrote s.m r c.core t.pa (bs.map some) := by
    obtain ⟨srcs, begun⟩ := begin_eq s.m id c
    rw [begun]
    exact deliverRow_memory (c := { c with srcs := srcs }) kind h.fetch.cached pos fits hit hbm
  have run := h.runs deliver
  have copies : r.copies = s.m.copies := by
    have same := congrArg Mach.copies wrote.rest
    exact same
  obtain ⟨rest, arrived, silent, outside⟩ := countedRow_beside (r := r) (m := s.m) (id := id) (wroteAt_rest wrote.wroteAt).2.1 h.rounds bs.length
  refine ⟨_, r, run, ?_, wrote.wroteAt, arrived, silent, outside⟩
  rw [rest, ← copies]
  rfl

theorem NextRow.wstore (h : NextRow s id c bs m) {off : Nat} (kind : cDk c.desc = 2) (stores : s.m.wstore.length = 2) (compute : c.core < 288)
    (at_ : off = (s.partitionOf c.ctx).wsBase + cDst c.desc + c.row * cDstr c.desc) (window : off + bs.length ≤ (s.partitionOf c.ctx).wsLimit) (inside : off + bs.length ≤ 192 * 2 ^ 20) :
    ∃ u, exec (.copyRow id) s = .next u ∧ u.m.mem = s.m.mem ∧ u.m.cores = s.m.cores ∧ mget u.m.copies id = some (c.past s.m id bs.length)
      ∧ (countsRows c → ArrivedAt s.m u.m c bs.length) ∧ (¬countsRows c → u.m.ctxCores = s.m.ctxCores)
      ∧ (∀ i, readByte (u.m.wstore.getD (dieOf c.core) []) i = if off ≤ i ∧ i < off + bs.length then bs.getD (i - off) 0 else readByte (s.m.wstore.getD (dieOf c.core) []) i)
      ∧ u.m.wstore.getD (1 - dieOf c.core) [] = s.m.wstore.getD (1 - dieOf c.core) [] := by
  have die : dieOf c.core < 2 := by rw [dieOf]; omega
  have kept : m.wstore = s.m.wstore ∧ m.cores = s.m.cores := by
    have stores := congrArg Mach.wstore h.fetch.cached.rest
    have cores := congrArg Mach.cores h.fetch.cached.rest
    exact ⟨stores, cores⟩
  have deliver : deliverRow s m id (c.begin s.m id) c.row (bs.map some) = { got := bs.length, fault := none, waits := false, m := { m with wstore := setAt m.wstore (dieOf c.core) (putBytes (m.wstore.getD (dieOf c.core) []) off (bs.map some)) } } := by
    obtain ⟨srcs, begun⟩ := begin_eq s.m id c
    rw [begun]
    exact deliverRow_wstore (c := { c with srcs := srcs }) kind at_ window inside
  have run := h.runs deliver
  rw [kept.1] at run
  generalize written : ({ m with wstore := setAt s.m.wstore (dieOf c.core) (putBytes (s.m.wstore.getD (dieOf c.core) []) off (bs.map some)) } : Mach) = r at run
  have boxes : r.ctxCores = s.m.ctxCores := by rw [← written]; exact h.fetch.cached.ctxCores
  obtain ⟨rest, arrived, silent, -⟩ := countedRow_beside (r := r) (m := s.m) (id := id) boxes h.rounds bs.length
  have store : (countedRow r c s.m id bs.length).wstore = setAt s.m.wstore (dieOf c.core) (putBytes (s.m.wstore.getD (dieOf c.core) []) off (bs.map some)) := by rw [rest, ← written]
  refine ⟨_, run, ?_, ?_, mget_mset_same .., arrived, silent, fun i => ?_, ?_⟩
  · show (countedRow r c s.m id bs.length).mem = s.m.mem
    rw [rest, ← written]
    exact h.fetch.cached.mem
  · show (countedRow r c s.m id bs.length).cores = s.m.cores
    rw [rest, ← written]
    exact kept.2
  · show readByte ((countedRow r c s.m id bs.length).wstore.getD (dieOf c.core) []) i = _
    have own : (setAt s.m.wstore (dieOf c.core) (putBytes (s.m.wstore.getD (dieOf c.core) []) off (bs.map some))).getD (dieOf c.core) [] = putBytes (s.m.wstore.getD (dieOf c.core) []) off (bs.map some) := by
      simp [setAt, List.getD_eq_getElem?_getD, stores, die]
    rw [store, own, readByte_putBytes]
    by_cases there : off ≤ i ∧ i < off + bs.length
    · have index : i - off < bs.length := by omega
      rw [if_pos there, if_pos there.1, List.getD_eq_getElem _ _ (by simpa using index), List.getD_eq_getElem _ _ index, List.getElem_map]
      rfl
    · rw [if_neg there]
      split
      next low => rw [List.getD_eq_default _ _ (by rw [List.length_map]; omega)]; rfl
      next => rfl
  · show (countedRow r c s.m id bs.length).wstore.getD (1 - dieOf c.core) [] = _
    rw [store, setAt, List.getD_eq_getElem?_getD, List.getElem?_set_ne (by omega), ← List.getD_eq_getElem?_getD]

end

end Sys2Proof.Machine
end

section
/-! SUPPORT. The end of a copy (R161, R168, R169). -/

namespace Sys2Proof.Machine

section
variable {s : State} {id : Nat} {c : Copy}

/-- How a copy stands that has come past its last row. -/
def Copy.rowsDone (c : Copy) : Copy := { c with stop := some (0, plainFault .addr, 0) }

/-- `COPY_END` of a copy past its last row that folds nothing. -/
def closeCopy (s : State) (id : Nat) (c : Copy) : State :=
  if !releaseReady s.m id c then s.withM { s.m with copies := mset s.m.copies id c.rowsDone }
  else if c.rel.isSome ∧ !(copyBars c).isEmpty ∧ c.told < c.row then
    let m := copyArrive s.m c c.heldRow false (arrivalRels s.m id c)
    s.withM { m with copies := mset m.copies id { c.rowsDone with told := c.told + 1 } }
  else
    let m := if c.rel.isSome ∧ c.row = 0 then copyArrive s.m c 0 false (arrivalRels s.m id c) else s.m
    let r := engineClose s m (c.ends m id 0 (plainFault .addr) 0)
    if r.waits then s.withM (keepTouches s.m r.m) else s.withM (releaseCluster { r.m with copies := mdel r.m.copies id } c.ctx c.core)

theorem copyEnd_closes (found : mget s.m.copies id = some c) (free : c.held = false) (goes : c.stop = none) (last : cNrow c.desc ≤ c.row) (unfolded : cMxv c.desc = false) :
    exec (.copyEnd id) s = .next (closeCopy s id c) := by
  have ended : (c.held || (c.stop.isNone && decide (c.row < cNrow c.desc))) = false := by rw [free, decide_eq_false (by omega), Bool.and_false, Bool.or_self]
  rw [goes] at ended
  rw [exec_copyEnd, execCopyEnd, found]
  simp only [ended, goes, unfolded, Bool.false_eq_true, if_false]
  rfl

/-- Whether everything that a copy holds back until its end has been told. -/
def toldAll (s : State) (id : Nat) (c : Copy) : Prop := c.rel = none ∨ (releaseReady s.m id c = true ∧ 0 < c.row ∧ (cBv c.desc = false ∨ c.row ≤ c.told))

theorem closeCopy_told (told : toldAll s id c) :
    closeCopy s id c = (let r := engineClose s s.m (c.ends s.m id 0 (plainFault .addr) 0)
      if r.waits then s.withM (keepTouches s.m r.m) else s.withM (releaseCluster { r.m with copies := mdel r.m.copies id } c.ctx c.core)) := by
  have ready : releaseReady s.m id c = true := by
    obtain unreleased | ⟨ready, -, -⟩ := told
    · simp [releaseReady, unreleased]
    · exact ready
  have untold : ¬(c.rel.isSome ∧ !(copyBars c).isEmpty ∧ c.told < c.row) := by
    rintro ⟨released, objects, behind⟩
    obtain unreleased | ⟨-, -, bare | through⟩ := told
    · simp [unreleased] at released
    · simp [copyBars_eq, bare] at objects
    · omega
  have rows : ¬(c.rel.isSome ∧ c.row = 0) := by
    rintro ⟨released, none_⟩
    obtain unreleased | ⟨-, some_, -⟩ := told
    · simp [unreleased] at released
    · omega
  rw [closeCopy, ready, if_neg (by simp), if_neg untold, if_neg rows]

theorem closeCopy_silent (told : toldAll s id c) (bare : cCrv c.desc = false) (busy : ∃ w ∈ s.m.allWarps, clusterOf w.1 = clusterOf c.core ∧ w.2.2.ctx = c.ctx) :
    closeCopy s id c = s.withM { s.m with copies := mdel s.m.copies id } := by
  have close : engineClose s s.m (c.ends s.m id 0 (plainFault .addr) 0) = { got := (), fault := none, waits := false, m := s.m } := by
    have unrecorded : (c.ends s.m id 0 (plainFault .addr) 0).record = none := by rw [Copy.ends, copyRecord, bare]; rfl
    rw [engineClose, unrecorded]
    rfl
  rw [closeCopy_told told, close]
  exact congrArg s.withM (releaseCluster_busy (m := { s.m with copies := mdel s.m.copies id }) busy)

theorem closeCopy_recorded {t : Xlat} {die : Nat} (told : toldAll s id c) (recorded : cCrv c.desc = true) (busy : ∃ w ∈ s.m.allWarps, clusterOf w.1 = clusterOf c.core ∧ w.2.2.ctx = c.ctx)
    (aligned : (BitVec.ofNat 64 (cCra c.desc) : DWord).toNat % 16 = 0) (hit : Hit s c.ctx c.core (BitVec.ofNat 64 (cCra c.desc)) .write t true) (hbm : paClass s t.pa = .hbm die) :
    ∃ m', closeCopy s id c = s.withM { m' with copies := mdel s.m.copies id }
      ∧ WroteAt s.m m' c.core t.pa ((natToBytes 4 (2 ^ 31) ++ natToBytes 4 c.delivered ++ natToBytes 4 0 ++ natToBytes 4 0).map some) := by
  let record := natToBytes 4 (2 ^ 31) ++ natToBytes 4 c.delivered ++ natToBytes 4 0 ++ natToBytes 4 0
  have length : (record.map some).length = 16 := by simp only [record, List.length_map, List.length_append, length_natToBytes]
  have there : (c.ends s.m id 0 (plainFault .addr) 0).record = some (BitVec.ofNat 64 (cCra c.desc), record) := by rw [Copy.ends, copyRecord, recorded]; rfl
  obtain ⟨m', put, wrote, stays⟩ := putMem_wrote (o := (c.ends s.m id 0 (plainFault .addr) 0).writer) (bs := record.map some) (.refl s.m) (by omega) (by omega) hit hbm
  have close : engineClose s s.m (c.ends s.m id 0 (plainFault .addr) 0) = { got := (), fault := none, waits := false, m := m' } := engineClose_recorded there put
  have copies : m'.copies = s.m.copies := by
    have same := congrArg Mach.copies wrote.rest
    exact same
  refine ⟨m', ?_, wrote.wroteAt⟩
  obtain ⟨w, resident, here⟩ := busy
  rw [closeCopy_told told, close, ← copies]
  exact congrArg s.withM (releaseCluster_busy (m := { m' with copies := mdel m'.copies id }) ⟨w, stays w resident, here⟩)

theorem closeCopy_waits (unready : releaseReady s.m id c = false) : closeCopy s id c = s.withM { s.m with copies := mset s.m.copies id c.rowsDone } := by
  rw [closeCopy, unready, Bool.not_false, if_pos rfl]

theorem closeCopy_tells (released : c.rel.isSome = true) (ready : releaseReady s.m id c = true) (barred : cBv c.desc = true) (behind : c.told < c.row) (objects : barCores c ≠ [])
    (free : ∀ k, clusterOf k = clusterOf c.core → (s.m.ctxCore c.ctx k).rounds = []) :
    ∃ t, closeCopy s id c = s.withM { t with copies := mset t.copies id { c.rowsDone with told := c.told + 1 } } ∧ t.mem = s.m.mem ∧ ArrivedAt s.m t c c.heldRow := by
  have some_ : (!(copyBars c).isEmpty) = true := by simp [copyBars_eq, barred, objects]
  have patched := patched_copyArrive (m := s.m) barred c.heldRow (arrivalRels s.m id c) free
  refine ⟨copyArrive s.m c c.heldRow false (arrivalRels s.m id c), ?_, by rw [patched.rest], fun k there => arrived_fields patched there fun _ _ => rfl⟩
  rw [closeCopy, ready, if_neg (by simp), if_pos ⟨released, some_, behind⟩]

end

theorem cBv_iff (d : List Byte) : cBv d = true ↔ dField d 35 1 % 2 = 1 := by simp [cBv, natBits]
theorem cMxv_iff (d : List Byte) : cMxv d = true ↔ dField d 35 1 / 2 % 2 = 1 := by simp [cMxv, natBits]
theorem cCrv_iff (d : List Byte) : cCrv d = true ↔ dField d 35 1 / 8 % 2 = 1 := by simp [cCrv, natBits]

/-- Settles O40: a row is read (`Fetched`), delivered and counted (`NextRow`); the end is `closeCopy`. -/
theorem copiesRun : Obligations.CopiesRun := by
  intro s id c found free goes fresh unformed late field nrow word cores bars bar arrived plain
  have receivers : copyCores c = cores := copyCores_eq c
  have objects : barCores c = bars := by rw [barCores, receivers]; rfl
  have counts_iff : countsRows c ↔ field 35 1 % 2 = 1 ∧ c.rel = none := and_congr_left' (cBv_iff c.desc)
  have objects_iff : ∀ k i, inObject c k i ↔ (field 35 1 % 2 = 1 ∧ c.rel = none) ∧ k ∈ bars ∧ bar ≤ i ∧ i < bar + 16 := fun k i => by
    rw [inObject, counts_iff, objects]
    exact Iff.rfl
  have arrived_of : ∀ {u : State} {n : Nat}, ArrivedAt s.m u.m c n → arrived u n := fun h k there => h k (objects.symm ▸ there)
  refine ⟨?_, ?_⟩
  · intro more turn unconverted bs source pos after counts counted inBar clear
    have turn : commandReady s.m c.warp c.since = true := by
      simp only [commandReady, List.all_eq_true, Bool.or_eq_true, decide_eq_true_eq]
      exact fun st there => Classical.or_iff_not_imp_left.2 fun own => turn st there (not_not.1 own)
    obtain ⟨m, fetch⟩ : ∃ m, Fetched s c bs m := by
      split at source
      next kind =>
        obtain ⟨t, die, -, fits, hit, hbm, clean, rfl⟩ := source
        exact fetched_memory kind pos hbm fits hit clean
      next kind =>
        obtain ⟨inside, clean, empty, rfl⟩ := source
        exact ⟨s.m, fetched_spad kind rfl rfl inside clean empty⟩
    have length : bs.length = field 16 4 := fetch.length
    have row : NextRow s id c bs m := { found, free, goes, fresh, unformed, late, more, turn, plain := unconverted, fetch, rounds := clear }
    refine ⟨?_, ?_, ?_⟩
    · intro kind off inside apart
      obtain ⟨u, run, mem, same, copy, arrive, bytes⟩ := row.spad kind rfl (by rw [length]; exact inside) fun own => by
        rw [length, objects, receivers]
        exact apart (counts_iff.1 own)
      rw [length] at copy arrive bytes
      rw [receivers] at bytes
      exact ⟨u, run, mem, same, copy, fun own => arrived_of (arrive (counts_iff.2 own)), fun k i out => bytes k i (mt (objects_iff k i).1 out)⟩
    · intro t die va kind fits hit hbm
      obtain ⟨u, m', run, rest, wrote, arrive, silent, bytes⟩ := row.memory kind (by rw [length]; exact pos) (by rw [length]; exact fits) hit hbm
      rw [length] at rest arrive
      refine ⟨u, m', run, rest, wrote, ?_, fun k i out => bytes k i (mt (objects_iff k i).1 out)⟩
      simp only [counted]
      split
      next own => exact arrived_of (arrive (counts_iff.2 own))
      next quiet => exact silent (mt counts_iff.1 quiet)
    · intro kind stores compute p off die window inside
      obtain ⟨u, run, mem, same, copy, arrive, silent, bytes, other⟩ := row.wstore kind stores compute rfl (by rw [length]; exact window) (by rw [length]; exact inside)
      rw [length] at copy arrive bytes
      refine ⟨u, run, mem, same, copy, ?_, bytes, other⟩
      simp only [counted]
      split
      next own => exact arrived_of (arrive (counts_iff.2 own))
      next quiet => exact silent (mt counts_iff.1 quiet)
  · intro last unfolded busy
    have unfolded : cMxv c.desc = false := by
      rw [← Bool.not_eq_true, cMxv_iff]
      intro folds
      exact absurd (unfolded.symm.trans folds) (by decide)
    have run := copyEnd_closes found free goes last unfolded
    have bare : ∀ {b : Bool} {n : Nat}, (b = true ↔ n % 2 = 1) → n % 2 = 0 → b = false := fun iff even => by rw [← Bool.not_eq_true, iff]; omega
    refine ⟨?_, ?_, ?_, ?_⟩
    · intro told unrecorded
      have all : toldAll s id c := told.imp_right fun ⟨ready, some_, through⟩ => ⟨ready, some_, through.imp_left (bare (cBv_iff c.desc))⟩
      exact ⟨_, run, closeCopy_silent all (bare (cCrv_iff c.desc) unrecorded) busy⟩
    · intro t die told recorded va aligned hit hbm
      have all : toldAll s id c := told.imp_right fun ⟨ready, some_, through⟩ => ⟨ready, some_, through.imp_left (bare (cBv_iff c.desc))⟩
      obtain ⟨m', close, wrote⟩ := closeCopy_recorded all ((cCrv_iff c.desc).2 recorded) busy aligned hit hbm
      exact ⟨_, m', run, close, wrote⟩
    · intro _ unready
      rw [run, closeCopy_waits unready]
      rfl
    · intro released ready barred behind some_ clear
      obtain ⟨t, close, mem, arrive⟩ := closeCopy_tells released ready ((cBv_iff c.desc).2 barred) behind (objects ▸ some_) clear
      rw [run, close]
      exact ⟨_, rfl, mget_mset_same .., mem, arrived_of arrive⟩

end Sys2Proof.Machine
end

section
/-! SUPPORT. What a descriptor's read depends on and what it moves (R109 to R118, R128 to R131, R160): memory and what caches it, translation, first touches. -/

namespace Sys2Proof.Machine

/-! The part of a machine that reads through memory look at and move. -/

/-- A machine with another's memory, caches, translations, first touches, command queues and counters. -/
def Mach.over (m n : Mach) : Mach :=
  { n with mem := m.mem, poison := m.poison, l2 := m.l2, late := m.late, rels := m.rels, tlb := m.tlb, walks := m.walks, touches := m.touches, nextId := m.nextId, free := m.free
           queues := m.queues }

/-- What an operation that reaches memory comes to, over another machine. -/
def Res.over {α : Type} (r : Res α) (n : Mach) : Res α :=
  match r with
  | .ok a m => .ok a (m.over n)
  | .fault f m => .fault f (m.over n)
  | .wait m => .wait (m.over n)

section
variable (s : State) (m n : Mach)

theorem over_self : m.over m = m := rfl

theorem Res.next_over {α β : Type} {f : α → Mach → Res β} (h : ∀ a m, f a (m.over n) = (f a m).over n) (r : Res α) : (r.over n).next f = (r.next f).over n := by
  cases r with
  | ok a m => exact h a m
  | fault e m => rfl
  | wait m => rfl

theorem foldl_over {α : Type} {g : Mach → α → Mach} (h : ∀ m a, g (m.over n) a = (g m a).over n) (l : List α) (m : Mach) : l.foldl g (m.over n) = (l.foldl g m).over n := by
  induction l generalizing m with
  | nil => rfl
  | cons a l ih => rw [List.foldl_cons, List.foldl_cons, h, ih]

/-! L2. -/

theorem setSector_over (sec : Nat) (x : L2Sector) : setSector (m.over n) sec x = (setSector m sec x).over n := by
  have l2 : (m.over n).l2 = m.l2 := rfl
  simp only [setSector, l2]
  split
  · split <;> rfl
  · rfl

theorem fillL2_over (pa k : Nat) : fillL2 (m.over n) pa k = (fillL2 m pa k).over n :=
  foldl_over n (fun m sec => by
    have held : (m.over n).l2At sec = m.l2At sec := rfl
    simp only [held]
    split <;> [rfl; exact setSector_over ..]) _ m

theorem fillWalk_over (reads : List Nat) : fillWalk (m.over n) reads = (fillWalk m reads).over n :=
  foldl_over n (fun m a => by split <;> [exact fillL2_over ..; rfl]) _ m

theorem wroteL2_over (pa : Nat) (bs : List (Option Byte)) : wroteL2 (m.over n) pa bs = (wroteL2 m pa bs).over n :=
  foldl_over n (fun m p => by
    unfold wroteSector
    dsimp only
    split <;> [rfl; exact setSector_over ..]) _ m

/-! Writes seen by everyone at once. -/

theorem settleLate_over (p : Late → Bool) : settleLate (m.over n) p = (settleLate m p).over n := by
  have late : (m.over n).late = m.late := rfl
  simp only [settleLate, late]
  split <;> rfl

theorem writePlace_over (pa : Nat) (bs : List (Option Byte)) (cached : Bool) : writePlace s (m.over n) pa bs cached = (writePlace s m pa bs cached).over n := by
  simp only [writePlace]
  split
  · split <;> rfl
  · rfl
  · rfl
  · split
    · rw [show ({ m.over n with mem := putBytes (m.over n).mem pa bs } : Mach) = ({ m with mem := putBytes m.mem pa bs } : Mach).over n from rfl, wroteL2_over]
      rfl
    · rfl
  · rfl

theorem writePa_over (pa : Nat) (bs : List (Option Byte)) : writePa s (m.over n) pa bs = (writePa s m pa bs).over n := by
  simp only [writePa, settleLate_over]
  exact writePlace_over s { settleLate m (fun w => w.overlaps pa bs) with rels := _ } n pa bs true

/-! Translation. -/

theorem walkFrom_over (va : Nat) (bad : Option Nat) (level table : Nat) : walkFrom s (m.over n) va bad level table = walkFrom s m va bad level table := by
  induction level generalizing bad table with
  | zero => rfl
  | succ level ih => simp only [walkFrom, ih]; rfl

theorem walkReads_over (va level table : Nat) : walkReads s (m.over n) va level table = walkReads s m va level table := by
  induction level generalizing table with
  | zero => rfl
  | succ level ih => simp only [walkReads, ih]; rfl

theorem walkPointers_over (die ctx va level table : Nat) : walkPointers s (m.over n) die ctx va level table = walkPointers s m die ctx va level table := by
  induction level generalizing table with
  | zero => rfl
  | succ level ih => simp only [walkPointers, ih]; rfl

theorem tlbFill_over (t : TlbEntry) (core : Nat) (eng : Bool) : tlbFill (m.over n) t core eng = (tlbFill m t core eng).over n := by
  unfold tlbFill
  split <;> rfl

theorem requestTouch_over (l : Leaf) (die ctx : Nat) : requestTouch (m.over n) l die ctx = (requestTouch m l die ctx).over n := by
  have touches : (m.over n).touches = m.touches := rfl
  simp only [requestTouch, touches]
  split <;> rfl

theorem walkDone_over (ctx core va : Nat) (acc : Access) (eng : Bool) (l : Leaf) (pointers : List WalkEntry) :
    walkDone s (m.over n) ctx core va acc eng l pointers = (walkDone s m ctx core va acc eng l pointers).over n := by
  simp only [walkDone]
  split
  · rfl
  · have written : ∀ e, (if e = l.pte then m.over n else writePte s (m.over n) l.at_ e) = (if e = l.pte then m else writePte s m l.at_ e).over n := fun e => by
      split <;> [rfl; exact writePa_over ..]
    rw [written]
    exact congrArg (Res.ok _) (tlbFill_over { (if _ then m else _ : Mach) with walks := _ } n _ core eng)

theorem walkVa_over (ctx core va : Nat) (acc : Access) (ft eng : Bool) : walkVa s (m.over n) ctx core va acc ft eng = (walkVa s m ctx core va acc ft eng).over n := by
  have start : walkStart (m.over n) (dieOf core) ctx va (s.ctx ctx).ptbase = walkStart m (dieOf core) ctx va (s.ctx ctx).ptbase := rfl
  simp only [walkVa, start, walkReads_over, fillWalk_over, walkFrom_over, walkPointers_over, requestTouch_over, walkDone_over]
  split
  · rfl
  · have touches : ∀ k : Mach, (k.over n).touches = k.touches := fun _ => rfl
    rw [touches]
    split
    · rfl
    · split <;> rfl
  · rfl

theorem translate_over (ctx core : Nat) (va : DWord) (acc : Access) (ft eng : Bool) : translate s (m.over n) ctx core va acc ft eng = (translate s m ctx core va acc ft eng).over n := by
  have hit : tlbHit (m.over n) ctx core va.toNat eng = tlbHit m ctx core va.toNat eng := rfl
  simp only [translate, hit, walkVa_over]
  split
  · rfl
  · split
    · rfl
    · split
      · rfl
      · split
        · rfl
        · split <;> rfl

/-! Reads. -/

theorem readPa1_over (die pa : Nat) : readPa1 s (m.over n) die pa = ((readPa1 s m die pa).1, (readPa1 s m die pa).2.over n) := by
  have queue : ∀ q, (m.over n).queue q = m.queue q := fun _ => rfl
  simp only [readPa1, queue]
  split
  · split <;> rfl
  · rfl
  · rfl

theorem readPa_over (die k pa : Nat) : readPa s die (m.over n) pa k = ((readPa s die m pa k).1, (readPa s die m pa k).2.over n) := by
  induction k generalizing m pa with
  | zero => rfl
  | succ k ih => simp only [readPa, readPa1_over, ih]

theorem readAt_over (core : Nat) (x : Xlat) (va k : Nat) : readAt s (m.over n) core x va k = (readAt s m core x va k).over n := by
  have poison : poisonedRange (m.over n) x.pa k = poisonedRange m x.pa k := rfl
  simp only [readAt, poison, readPa_over, fillL2_over]
  split
  · rfl
  · split <;> rfl

theorem peekPa_over (ctx core : Nat) (va : DWord) (acc : Access) : peekPa s (m.over n) ctx core va acc = peekPa s m ctx core va acc := by
  rw [peekPa, translate_over, peekPa]
  cases translate s m ctx core va acc <;> rfl

theorem ownBytes_over (held : Bool) (stores : List Store) (warp lane : Nat) : ownBytes s (m.over n) held stores warp lane = ownBytes s m held stores warp lane := by
  have bytes : storeBytes s (m.over n) held = storeBytes s m held := funext fun st => by simp only [storeBytes, peekPa_over]
  rw [ownBytes, bytes, ownBytes]

theorem readDesc_over (x : Ex) (va : DWord) : readDesc s (m.over n) x va = (readDesc s m x va).over n := by
  rw [readDesc, translate_over, readDesc]
  refine Res.next_over n (fun t m => ?_) _
  rw [readAt_over]
  refine Res.next_over n (fun bs m => ?_) _
  simp only [namedBytes, ownBytes_over]
  rfl

end

/-- A descriptor's read moves memory's side of a machine alone. -/
theorem readDesc_keeps {s : State} {m m₁ : Mach} {x : Ex} {va : DWord} {desc : List Byte} (h : readDesc s m x va = .ok desc m₁) : m₁ = m₁.over m := by
  have same := readDesc_over s m m x va
  rw [over_self, h] at same
  injection same

/-- A descriptor read by a word that has made room for its result is the one read before. -/
theorem readDesc_cores {s : State} {m m₁ : Mach} {x : Ex} {va : DWord} {desc : List Byte} (h : readDesc s m x va = .ok desc m₁) (cores : SMap Core) :
    readDesc s { m with cores := cores } x va = .ok desc { m₁ with cores := cores } := by
  have other := readDesc_over s m { m with cores := cores } x va
  rw [h] at other
  rw [readDesc_keeps h]
  exact other

end Sys2Proof.Machine
end

section
/-! SUPPORT. Engine commands (R120, R121, R160, R163, R165, R169, R288). -/

namespace Sys2Proof.Machine

/-- A promise lies beyond the counter, as long as the counter can still move. -/
theorem le_promiseAt (counter : DWord) (slack : Nat) (moves : counter.toNat + 1 < 2 ^ 64) : counter.toNat + 1 ≤ (promiseAt counter slack).toNat := by
  have small : slack % (2 ^ 64 - 1 - counter.toNat) < 2 ^ 64 - 1 - counter.toNat := Nat.mod_lt _ (by omega)
  have one : (1 : DWord).toNat = 1 := rfl
  rw [promiseAt]
  generalize slack % (2 ^ 64 - 1 - counter.toNat) = beyond at small
  rw [BitVec.toNat_add, BitVec.toNat_add, BitVec.toNat_ofNat, one]
  omega

theorem dField_byte (d : List Byte) (off : Nat) : dField d off 1 = (d.getD off 0).toNat := by
  have byte : (d.drop off).take 1 = d[off]?.toList := by rw [← List.head?_drop, List.take_one]
  rw [dField, byte, List.getD_eq_getElem?_getD]
  cases d[off]? <;> rfl

section
variable {s : State} {x : Ex} {d a : BitVec 8} {o : BitVec 2} {sc : BitVec 3} {m m₁ : Mach} {desc : List Byte} {va : DWord}

/-! The acquire of a copy command. -/

/-- An acquire from releases that have all been read before. -/
theorem syncRead_indirect (m : Mach) (x : Ex) (k : Nat) {srcs : List RelSrc} (indirect : ∀ r ∈ srcs, r.direct = false) :
    syncRead m x (some k) srcs = acquireRels (if wideScope k then dropL1 m x.core else m) x k srcs := by
  have none : srcs.filter (·.direct) = [] := List.filter_eq_nil_iff.2 fun r there => by rw [indirect r there]; exact Bool.false_ne_true
  simp only [syncRead, none, List.isEmpty_nil, if_true]

/-- What an acquire without a read of its own leaves: beside its core's L1, what is left late and what its warp knows of. -/
theorem fenceAcquire_leaves (m : Mach) (x : Ex) (k : Nat) :
    ∃ late rels know, fenceAcquire m x k = ({ (if wideScope k then dropL1 m x.core else m) with late := late, rels := rels }, { x with w := { x.w with know := know } }) ∧ ∀ w ∈ late, w ∈ m.late := by
  rw [fenceAcquire]
  dsimp only
  rw [syncRead_indirect m x k (fun r there => by
    obtain seen | near := List.mem_append.1 there
    · obtain ⟨_, _, rfl⟩ := List.mem_map.1 seen
      rfl
    · obtain ⟨_, _, near⟩ := List.mem_flatMap.1 near
      obtain ⟨_, _, rfl⟩ := List.mem_map.1 near
      rfl), acquireRels]
  generalize List.map _ x.w.seen ++ _ = srcs
  obtain ⟨late, rels, eq, earlier⟩ := acquireFrom_earlier (if wideScope k then dropL1 m x.core else m) srcs k x.agent
  refine ⟨late, rels, _, by rw [eq]; rfl, fun w there => ?_⟩
  have before := earlier w there
  split at before <;> exact before

/-- The machine and the word after the acquire that a copy command makes, if it makes one. -/
def copyAcquire (o : BitVec 2) (sc : BitVec 3) (m : Mach) (x : Ex) : Mach × Ex :=
  match acqScope o sc with
  | some k => fenceAcquire m x k
  | none => (m, x)

theorem copyAcquire_leaves (o : BitVec 2) (sc : BitVec 3) (m : Mach) (x : Ex) :
    ∃ late rels know, copyAcquire o sc m x
        = ({ (if o.toNat % 2 = 1 ∧ 3 ≤ sc.toNat then dropL1 m x.core else m) with late := late, rels := rels }, { x with w := { x.w with know := know } })
      ∧ (o.toNat % 2 = 0 → late = m.late ∧ rels = m.rels) ∧ ∀ w ∈ late, w ∈ m.late := by
  rcases Nat.mod_two_eq_zero_or_one o.toNat with even | odd
  · refine ⟨m.late, m.rels, x.w.know, ?_, fun _ => ⟨rfl, rfl⟩, fun _ there => there⟩
    simp only [copyAcquire, acqScope, even, Nat.zero_ne_one, false_and, if_false]
  · obtain ⟨late, rels, know, eq, earlier⟩ := fenceAcquire_leaves m x sc.toNat
    refine ⟨late, rels, know, ?_, fun even => absurd (even.symm.trans odd) Nat.zero_ne_one, earlier⟩
    simp only [copyAcquire, acqScope, odd, true_and, if_true, eq, wideScope, decide_eq_true_eq]


/-! What an engine command leaves. -/

/-- A descriptor's read leaves the cores' part of a machine, its grids and its engines. -/
theorem readDesc_frame (read : readDesc s s.m x va = .ok desc m₁) : m₁.cur = s.m.cur ∧ m₁.ctxCores = s.m.ctxCores ∧ m₁.ctxClusters = s.m.ctxClusters ∧ m₁.grids = s.m.grids
    ∧ m₁.copies = s.m.copies ∧ m₁.gathers = s.m.gathers := by
  rw [readDesc_keeps read]
  exact ⟨rfl, rfl, rfl, rfl, rfl, rfl⟩

/-- The descriptor that a command reads once room is made for its result. -/
theorem readDesc_room (sp : SpillsOnly s.m m x.core x.pos) (read : readDesc s s.m x va = .ok desc m₁) : readDesc s m x va = .ok desc { m₁ with cores := m.cores } := by
  rw [sp.eq]
  exact readDesc_cores read m.cores

section
variable {k : Mach} {v : Warp}

/-- A command's end in a machine whose cores are those in which room was made for its result. -/
theorem SpillsOnly.wordEnd_cores (sp : SpillsOnly s.m m x.core x.pos) (cur : k.cur = s.m.cur) (boxes : k.ctxCores = s.m.ctxCores)
    (groups : v.groups = x.w.groups ∧ v.hgroups = x.w.hgroups) : WordEnd s x { k with cores := m.cores } { x with w := v } :=
  { cur := cur, place := ⟨rfl, rfl, rfl, rfl⟩, groups := groups, run := rfl, group := rfl, cores := sp.cores, others := sp.others, boxes := fun key _ => by rw [show _ = s.m.ctxCores from boxes] }

/-- A command that changes no register, in a machine whose cores are those in which room was made for its result. -/
theorem uniEffect_command (hx : s.ex? = some x) {srcs : List Src} {count : Nat} (ready : WordReady s x true srcs false d count m) {f : List DWord → Mach → Ex → Eff} {vs : List Word}
    (value : f (operands s x srcs x.low) m x = .ok { k with cores := m.cores } x vs) (cur : k.cur = s.m.cur) (boxes : k.ctxCores = s.m.ctxCores) :
    UniformWords s x { Rest.same s x with m := k } srcs d count vs (.next (s.withM (uniEffect s.m x srcs d count f))) :=
  have sp := dstReady_spills ready.2
  uniEffect_leaves hx ready (v := x.w) value (sp.wordEnd_cores cur boxes ⟨rfl, rfl⟩) rfl ⟨rfl, rfl⟩ rfl sp.rest rfl (ctxCore_congr boxes ..)

/-- A copy command that has started its copy or left it to its level, with the acquire that it then makes. -/
theorem uniEffect_acquires (hx : s.ex? = some x) (ready : WordReady s x true [srcW a] false d 2 m) {f : List DWord → Mach → Ex → Eff} {p : DWord}
    (value : f (operands s x [srcW a] x.low) m x = .ok (copyAcquire o sc { k with cores := m.cores } { x with w := v }).1 (copyAcquire o sc { k with cores := m.cores } { x with w := v }).2 [p.lo, p.hi])
    (cur : k.cur = s.m.cur) (boxes : k.ctxCores = s.m.ctxCores) (regs : v.regs = x.w.regs) (uid : v.uid = x.w.uid ∧ v.ctx = x.w.ctx) (groups : v.groups = x.w.groups ∧ v.hgroups = x.w.hgroups) :
    ∃ late rels, (o.toNat % 2 = 0 → late = k.late ∧ rels = k.rels) ∧ (∀ w ∈ late, w ∈ k.late)
      ∧ UniformWords s x { m := { k with late := late, rels := rels }, c := { s.m.core x.core with l1 := if o.toNat % 2 = 1 ∧ 3 ≤ sc.toNat then [] else (s.m.core x.core).l1 }, w := v, box := boxOf s x }
          [srcW a] d 2 [p.lo, p.hi] (.next (s.withM (uniEffect s.m x [srcW a] d 2 f))) := by
  have sp := dstReady_spills ready.2
  obtain ⟨late, rels, know, acquired, unmoved, earlier⟩ := copyAcquire_leaves o sc { k with cores := m.cores } { x with w := v }
  have room : ∀ n, (if o.toNat % 2 = 1 ∧ 3 ≤ sc.toNat then dropL1 { k with cores := m.cores } x.core else { k with cores := m.cores }) = n →
      machRest n = machRest k ∧ n.ctxCore x.w.ctx x.core = boxOf s x ∧ WordEnd s x n { x with w := v }
        ∧ coreRest (n.core x.core) = coreRest { s.m.core x.core with l1 := if o.toNat % 2 = 1 ∧ 3 ≤ sc.toNat then [] else (s.m.core x.core).l1 } := by
    rintro n rfl
    have box : ({ k with cores := m.cores } : Mach).ctxCore x.w.ctx x.core = boxOf s x := ctxCore_congr boxes ..
    have ends := sp.wordEnd_cores cur boxes groups
    split
    · exact ⟨rfl, box, ends.dropL1, by rw [coreRest_dropL1]; exact congrArg (fun c : Core => { c with l1 := [] }) sp.rest⟩
    · exact ⟨rfl, box, ends, sp.rest⟩
  generalize (if o.toNat % 2 = 1 ∧ 3 ≤ sc.toNat then dropL1 { k with cores := m.cores } x.core else { k with cores := m.cores }) = n at acquired room
  obtain ⟨below, box, ends, own⟩ := room n rfl
  refine ⟨late, rels, unmoved, earlier, ?_⟩
  refine uniEffect_leaves (m' := { n with late := late, rels := rels }) (v := { v with know := know }) hx ready (value.trans (by rw [acquired])) ((ends.relate late rels).knowing know) regs uid ?_ own
    rfl box
  exact congrArg (fun n : Mach => { n with late := late, rels := rels }) below

end

end
end Sys2Proof.Machine
end

section
/-! SUPPORT. `CPY`, `CPYM`, `CPYQ` and `GATH` as they issue (R120, R121, R160, R163, R165, R288). -/

namespace Sys2Proof.Machine

/-! The copy commands. -/

section
variable {s : State} {x : Ex} {d a : BitVec 8} {o : BitVec 2} {sc : BitVec 3} {m m₁ : Mach} {desc slot : List Byte} {va : DWord} {multi bnd : Bool}

/-- The machine of a copy command that starts its copy, or has its level hold it. -/
def copyStarted (s : State) (m : Mach) (x : Ex) (o : BitVec 2) (sc : BitVec 3) (desc slot : List Byte) (va : DWord) (multi held : Bool) : Mach :=
  (startCopy s m x desc slot va multi (relScope o sc) held).1

section
variable (format : formatSlot s.m x.w (cFs desc) = slot) (value : argPair (operands s x [srcW a] x.low) 0 = va) (aligned : va.toNat % 64 = 0) (clear : drained s.m x.w.uid = true) (first : x.r.desc = [])
  (read : readDesc s s.m x va = .ok desc m₁)
include format value aligned clear first read

theorem copyOp_rejects (ready : WordReady s x true [srcW a] false d 2 s.m) {f : FaultInfo} (bad : copyReject m₁ x desc slot multi bnd va.toNat = some f) (same : m₁ = s.m) :
    copyOp s x multi d a o sc bnd = deliverAll s.m x f := by
  have vals : srcValues (s.m.ctxCore x.w.ctx x.core) x x.low [srcW a] [] = operands s x [srcW a] x.low := rfl
  rw [same] at read bad
  simp only [copyOp, uniEffect, ready.1, ready.2, vals, value, first, List.isEmpty_nil, aligned, clear, read, format, bad, Bool.not_true, Bool.false_eq_true, ne_eq, not_true_eq_false, if_false]

variable (passes : copyReject m₁ x desc slot multi bnd va.toNat = none)
include passes

theorem copyOp_full (ready : WordReady s x true [srcW a] false d 2 s.m) (full : 8 ≤ coreCopies s.m x.core) (closed : x.w.levels = []) (same : m₁ = s.m) :
    copyOp s x multi d a o sc bnd = s.m.hold x .room := by
  have vals : srcValues (s.m.ctxCore x.w.ctx x.core) x x.low [srcW a] [] = operands s x [srcW a] x.low := rfl
  rw [same] at read passes
  simp only [copyOp, uniEffect, ready.1, ready.2, vals, value, first, List.isEmpty_nil, aligned, clear, read, format, passes, closed, full, Bool.not_true, Bool.false_eq_true, ne_eq, not_true_eq_false,
    if_false, if_true]

theorem copyOp_starts (hx : s.ex? = some x) (ready : WordReady s x true [srcW a] false d 2 m) (few : coreCopies s.m x.core < 8) (free : x.w.levels = [] ∨ (o.toNat < 2 ∧ cDk desc = 1)) :
    ∃ late rels, (o.toNat % 2 = 0 → late = m₁.late ∧ rels = m₁.rels) ∧ (∀ w ∈ late, w ∈ m₁.late)
      ∧ UniformWords s x { Rest.same s x with m := { copyStarted s m₁ x o sc desc slot va multi false with late := late, rels := rels }
                                              c := { s.m.core x.core with l1 := if o.toNat % 2 = 1 ∧ 3 ≤ sc.toNat then [] else (s.m.core x.core).l1 } }
          [srcW a] d 2 [(promiseAt s.counter (Config.promiseSlack m₁.free)).lo, (promiseAt s.counter (Config.promiseSlack m₁.free)).hi] (.next (s.withM (copyOp s x multi d a o sc bnd))) := by
  have sp := dstReady_spills ready.2
  obtain ⟨cur, boxes, -, grids, copies, -⟩ := readDesc_frame read
  have format' : formatSlot { m₁ with cores := m.cores } x.w (cFs desc) = slot := by rw [← format, formatSlot, formatSlot, gridRecord, gridRecord, ← grids]
  have passes' : copyReject { m₁ with cores := m.cores } x desc slot multi bnd va.toNat = none := passes
  have room : ¬8 ≤ coreCopies { m₁ with cores := m.cores } x.core := by rw [coreCopies, copies]; exact Nat.not_le.2 few
  refine uniEffect_acquires (k := copyStarted s m₁ x o sc desc slot va multi false) (v := x.w) hx ready ?_ cur boxes rfl ⟨rfl, rfl⟩ ⟨rfl, rfl⟩
  simp only [value, first, List.isEmpty_nil, aligned, sp.drained, clear, readDesc_room sp read, format', passes', Bool.not_true, Bool.false_eq_true, ne_eq, not_true_eq_false, if_false, room]
  rcases free with closed | ⟨plain, near⟩
  · rw [closed]
    rfl
  · have starts : (!((relScope o sc).isSome || decide (cDk desc ≠ 1))) = true := by simp [relScope, Nat.not_le.2 plain, near]
    cases levels : x.w.levels with
    | nil => rfl
    | cons lv rest =>
      simp only [starts, if_true]
      rfl

theorem copyOp_held (hx : s.ex? = some x) (ready : WordReady s x true [srcW a] false d 2 m) {lv : Level} {rest : List Level} (levels : x.w.levels = lv :: rest)
    (waits : 2 ≤ o.toNat ∨ cDk desc ≠ 1) (shadow : shadowUsed m x.core + 64 ≤ 65536) :
    ∃ late rels, (o.toNat % 2 = 0 → late = m₁.late ∧ rels = m₁.rels) ∧ (∀ w ∈ late, w ∈ m₁.late)
      ∧ UniformWords s x { m := { copyStarted s m₁ x o sc desc slot va multi true with late := late, rels := rels }
                           c := { s.m.core x.core with l1 := if o.toNat % 2 = 1 ∧ 3 ≤ sc.toNat then [] else (s.m.core x.core).l1 }
                           w := { x.w with levels := { lv with held := lv.held ++ [.copy m₁.nextId] } :: rest }, box := boxOf s x }
          [srcW a] d 2 [(s.counter + 1).lo, (s.counter + 1).hi] (.next (s.withM (copyOp s x multi d a o sc bnd))) := by
  have sp := dstReady_spills ready.2
  obtain ⟨cur, boxes, -, grids, -, -⟩ := readDesc_frame read
  have format' : formatSlot { m₁ with cores := m.cores } x.w (cFs desc) = slot := by rw [← format, formatSlot, formatSlot, gridRecord, gridRecord, ← grids]
  have passes' : copyReject { m₁ with cores := m.cores } x desc slot multi bnd va.toNat = none := passes
  have holds : (!((relScope o sc).isSome || decide (cDk desc ≠ 1))) = false := by
    rcases waits with release | far
    · simp [relScope, release]
    · simp [far]
  have room : ¬65536 < shadowUsed { m₁ with cores := m.cores } x.core + 64 := Nat.not_lt.2 shadow
  refine uniEffect_acquires (k := copyStarted s m₁ x o sc desc slot va multi true) (v := { x.w with levels := { lv with held := lv.held ++ [.copy m₁.nextId] } :: rest }) hx ready ?_ cur boxes rfl
    ⟨rfl, rfl⟩ ⟨rfl, rfl⟩
  simp only [value, first, List.isEmpty_nil, aligned, sp.drained, clear, readDesc_room sp read, format', passes', levels, holds, Bool.not_true, Bool.false_eq_true, ne_eq, not_true_eq_false, if_false, room]
  rfl

end

/-- A machine in which less is left late. -/
theorem readOnly_relate (m : Mach) {late : List Late} (rels : List RelTag) (earlier : ∀ w ∈ late, w ∈ m.late) : ReadOnly m { m with late := late, rels := rels } :=
  ⟨rfl, fun _ => rfl, earlier⟩

theorem relate_same {m : Mach} {late : List Late} {rels : List RelTag} (h : late = m.late ∧ rels = m.rels) : ({ m with late := late, rels := rels } : Mach) = m := by
  rw [h.1, h.2]

end

/-! `CPYQ`. -/

section
variable {s : State} {x : Ex} {d a : BitVec 8} {m : Mach}

theorem cpyq_value (sp : SpillsOnly s.m m x.core x.pos) (va : DWord) :
    (mvals m.copies).any (fun c => c.core == x.core && c.ctx == x.w.ctx && c.descAddr == va) = true ↔ ∃ c ∈ s.m.copies, c.2.core = x.core ∧ c.2.ctx = x.w.ctx ∧ c.2.descAddr = va := by
  rw [sp.eq]
  simp [mvals, and_assoc]

theorem cpyq_none (hx : s.ex? = some x) (ready : WordReady s x true [srcW a] false d 2 m)
    (absent : ¬∃ c ∈ s.m.copies, c.2.core = x.core ∧ c.2.ctx = x.w.ctx ∧ c.2.descAddr = argPair (operands s x [srcW a] x.low) 0) :
    UniformWords s x (.same s x) [srcW a] d 2 [0, 0] (exec (.cpyq d a) s) := by
  rw [exec_cpyq, execCpyq, onWord_next hx]
  exact uniEffect_same hx ready (if_neg fun there => absent ((cpyq_value (dstReady_spills ready.2) _).1 there))

theorem cpyq_promises (hx : s.ex? = some x) (ready : WordReady s x true [srcW a] false d 2 m)
    (there : ∃ c ∈ s.m.copies, c.2.core = x.core ∧ c.2.ctx = x.w.ctx ∧ c.2.descAddr = argPair (operands s x [srcW a] x.low) 0) :
    UniformWords s x { Rest.same s x with m := { s.m with free := s.m.free + 1 } } [srcW a] d 2
      [(promiseAt s.counter (Config.promiseSlack s.m.free)).lo, (promiseAt s.counter (Config.promiseSlack s.m.free)).hi] (exec (.cpyq d a) s) := by
  have sp := dstReady_spills ready.2
  rw [exec_cpyq, execCpyq, onWord_next hx]
  refine uniEffect_command (k := { s.m with free := s.m.free + 1 }) hx ready ?_ rfl rfl
  have eq := sp.eq
  generalize m.cores = cores at eq
  subst eq
  exact if_pos ((cpyq_value sp _).2 there)

end

/-! `GATH`. -/

section
variable {s : State} {x : Ex} {d a : BitVec 8} {y w g u : BitVec 1} {r : BitVec 2} {m₁ : Mach} {desc : List Byte} {va : DWord}

/-- The queue that a `GATH` gathers into. -/
def gathQueue (d : BitVec 8) : Option Nat := if isQueue d then some (d.toNat - 0x88) else none

theorem isSome_gathQueue (d : BitVec 8) : (gathQueue d).isSome = isQueue d := by
  unfold gathQueue
  split
  next queue => exact queue.symm
  next plain => exact (Bool.not_eq_true _ ▸ plain).symm

/-- A queue of gathers is what `GATH` asks of a queue that it names. -/
theorem gathQueue_any {box : CtxCore} (queue : isQueue d = true → (box.queues.getD (d.toNat - 0x88) .fresh).kind = 2) :
    (gathQueue d).any (fun q => (box.queues.getD q .fresh).kind != 2) = false := by
  unfold gathQueue
  split
  next named => rw [Option.any_some, queue named]; rfl
  next => rfl

/-- The gather that a `GATH` starts. -/
def startedGather (x : Ex) (id : Nat) (d : BitVec 8) (fn : Nat) (desc : List Byte) (va : DWord) : Gather :=
  { ctx := x.w.ctx, core := x.core, slot := x.w.homeSlot, warp := x.w.uid, grid := x.w.grid, desc := desc, descAddr := va, fn := fn, queue := gathQueue d, since := id, bag := 0, skip := 0, dups := 0
    empty := 0, out := [], ahead := [], early := [], last := (0, 0, 0), stop := none }

section
variable (value : argPair (operands s x [srcW a] x.low) 0 = va) (aligned : va.toNat % 64 = 0) (clear : drained s.m x.w.uid = true)
  (read : readDesc s s.m x va = .ok desc m₁) (queue : isQueue d = true → ((boxOf s x).queues.getD (d.toNat - 0x88) .fresh).kind = 2)
  (formed : gatherReserved desc (gathFn y w g u r) (isQueue d) = false) (inside : gatherRange s.m x.w.ctx x.core desc (gathFn y w g u r) (isQueue d) = none)
include value aligned clear read queue formed inside

theorem gath_starts (hx : s.ex? = some x) (ready : srcReady s.m x true [srcW a] = .go) (few : coreGathers s.m x.core < 4) :
    UniformWords s x { Rest.same s x with m := { m₁ with gathers := mset m₁.gathers m₁.nextId (startedGather x m₁.nextId d (gathFn y w g u r) desc va), nextId := m₁.nextId + 1 } } [srcW a] zeroSpec 0 []
      (exec (.gath d a y w g u r) s) := by
  obtain ⟨cur, boxes, -, -, -, gathers⟩ := readDesc_frame read
  have cores : m₁.cores = s.m.cores := by rw [readDesc_keeps read]; rfl
  have range : gatherRange m₁ x.w.ctx x.core desc (gathFn y w g u r) (isQueue d) = none := by rw [readDesc_keeps read]; exact inside
  have room : ¬4 ≤ coreGathers m₁ x.core := by rw [coreGathers, gathers]; exact Nat.not_le.2 few
  have asked := gathQueue_any queue
  have named := isSome_gathQueue d
  simp only [gathQueue, boxOf] at asked named
  rw [exec_gath, execGath, onWord_next hx]
  refine uniEffect_command (m := s.m) hx ⟨ready, rfl⟩ ?_ cur boxes
  simp only [value, asked, aligned, clear, read, named, formed, range, room, Bool.not_true, Bool.false_eq_true, ne_eq, not_true_eq_false, if_false]
  rw [← cores]
  rfl

theorem gath_full (hx : s.ex? = some x) (ready : srcReady s.m x true [srcW a] = .go) (full : 4 ≤ coreGathers s.m x.core) (same : m₁ = s.m) :
    Sys2Proof.Held s x .room (exec (.gath d a y w g u r) s) := by
  have vals : srcValues (s.m.ctxCore x.w.ctx x.core) x x.low [srcW a] [] = operands s x [srcW a] x.low := rfl
  have dst : dstReady s.m x [srcW a] false zeroSpec 0 = .go s.m := rfl
  have asked := gathQueue_any queue
  have named := isSome_gathQueue d
  simp only [gathQueue, boxOf] at asked named
  rw [same] at read
  rw [exec_gath, execGath, onWord_next hx]
  simp only [uniEffect, ready, dst, vals, value, asked, aligned, clear, read, named, formed, inside, full, Bool.not_true, Bool.false_eq_true, ne_eq, not_true_eq_false, if_false, if_true]
  rfl

end
end

/-- Settles O39: the descriptor's read moves memory's side of the machine alone, so that the command finds the rest as it stood. -/
theorem engineCommandsStart : Obligations.EngineCommandsStart := by
  intro s x d a m hx va halves ahead
  refine ⟨fun o k b desc m₁ ready aligned clear first read => ?_, fun ready => ⟨fun absent => cpyq_none hx ready absent, fun there => ⟨_, le_promiseAt _ _, cpyq_promises hx ready there⟩⟩,
    fun y w g u r desc m₁ ready aligned clear read queue formed inside =>
      ⟨fun few => gath_starts rfl aligned clear read queue formed inside hx ready few, fun full same => gath_full rfl aligned clear read queue formed inside hx ready full same⟩⟩
  intro slot global rel l1 copy starts
  have format : formatSlot s.m x.w (cFs desc) = slot := by rw [cFs, dField_byte]
  have near : ¬global ↔ cDk desc = 1 := by rw [cDk, dField_byte]; exact not_not
  have commands : ∀ multi, starts multi (.next (s.withM (copyOp s x multi d a o k (b == 1)))) := fun multi => by
    refine ⟨fun f bad plain room same => ?_, fun passes => ⟨fun few free => ?_, fun lv rest levels waits shadow => ?_, fun full closed room same => ?_⟩⟩
    · rw [copyOp_rejects format rfl aligned clear first read (room ▸ ready) bad same]
      exact ⟨_, rfl, deliverAll_parks plain f⟩
    · obtain ⟨late, rels, unmoved, earlier, words⟩ := copyOp_starts format rfl aligned clear first read passes hx ready few (free.imp_right (And.imp_right near.1))
      exact ⟨_, { m₁ with late := late, rels := rels }, le_promiseAt _ _, readOnly_relate m₁ rels earlier, fun even => relate_same (unmoved even), words⟩
    · obtain ⟨late, rels, unmoved, earlier, words⟩ := copyOp_held format rfl aligned clear first read passes hx ready levels (waits.imp_right fun far here => near.2 here far) shadow
      exact ⟨{ m₁ with late := late, rels := rels }, readOnly_relate m₁ rels earlier, fun even => relate_same (unmoved even), words⟩
    · rw [copyOp_full format rfl aligned clear first read passes (room ▸ ready) full closed same]
      rfl
  rw [exec_cpy, execCpy, exec_cpym, execCpym, onWord_next hx, onWord_next hx]
  exact ⟨commands false, commands true⟩

end Sys2Proof.Machine
end

section
/-! SUPPORT. What a source specifier delivers, class by class (R55, R56, R200), and how a lane instruction over `v` registers waits and parks (R186 to R188). -/

namespace Sys2Proof.Machine

/-! The classes of specifiers. -/

section
variable {q : Src}

theorem isQueue_iff {d : BitVec 8} : isQueue d = true ↔ 0x88 ≤ d.toNat ∧ d.toNat ≤ 0x8F := by simp [isQueue]
theorem isMailbox_iff {d : BitVec 8} : isMailbox d = true ↔ 0x90 ≤ d.toNat ∧ d.toNat ≤ 0x9F := by simp [isMailbox]

theorem isV_iff {d : BitVec 8} : isV d = true ↔ d.toNat < 0x80 := by simp [isV]

/-- A register is no queue and no mailbox. -/
theorem isV_only {d : BitVec 8} (v : isV d = true) : isQueue d = false ∧ isMailbox d = false := by
  rw [isV_iff] at v
  constructor
  · exact Bool.eq_false_iff.2 fun queue => by have := isQueue_iff.1 queue; omega
  · exact Bool.eq_false_iff.2 fun box => by have := isMailbox_iff.1 box; omega

/-! What each class delivers. -/

variable (cc : CtxCore) (x : Ex) (nth l : Nat)

theorem srcValue_register (v : q.spec.toNat < 0x80) (word : q.kind = .int) : srcValue cc x q nth l = (x.w.regLane q.spec.toNat l).setWidth 64 := by
  simp only [srcValue, v, word, if_true]

theorem srcValue_pair (v : q.spec.toNat < 0x80) (pair : q.kind = .pair) :
    srcValue cc x q nth l = pairOf (x.w.regLane q.spec.toNat l) (x.w.regLane (q.spec.toNat + 1) l) := by
  simp only [srcValue, v, pair, if_true]

theorem srcValue_latch {k : Nat} (low : k < 3) (latch : q.spec.toNat = 0x80 + k) : srcValue cc x q nth l = (laneOf (x.r.latches.getD k zeroVec) l).setWidth 64 := by
  have above : ¬0x80 + k < 0x80 := by omega
  have inside : 0x80 + k ≤ 0x82 := by omega
  simp only [srcValue, latch, above, inside, if_true, if_false, Nat.add_sub_cancel_left]

theorem srcValue_zero (zero : q.spec.toNat = 0x83) : srcValue cc x q nth l = 0 := by
  simp [srcValue, isQueue, isMailbox, isImm, zero]

theorem srcValue_lane (lane : q.spec.toNat = 0x84) : srcValue cc x q nth l = BitVec.ofNat 64 l := by
  simp [srcValue, lane]

theorem srcValue_slot (slot : q.spec.toNat = 0x85) : srcValue cc x q nth l = BitVec.ofNat 64 x.w.homeSlot := by
  simp [srcValue, slot]

theorem srcValue_queue {k : Nat} (low : k < 8) (queue : q.spec.toNat = 0x88 + k) :
    srcValue cc x q nth l = ((cc.queues.getD k .fresh).entries.getD nth 0).setWidth 64 := by
  have kind : isQueue q.spec = true := isQueue_iff.2 (by omega)
  have above : ¬0x88 + k < 0x80 ∧ ¬0x88 + k ≤ 0x82 ∧ ¬0x88 + k = 0x84 ∧ ¬0x88 + k = 0x85 := by omega
  obtain ⟨v, latch, lane, slot⟩ := above
  simp only [srcValue, kind, queue, v, latch, lane, slot, if_true, if_false, Nat.add_sub_cancel_left]

theorem srcValue_mailbox {k : Nat} (low : k < 16) (box : q.spec.toNat = 0x90 + k) : srcValue cc x q nth l = (cc.mailboxes.getD k .fresh).value.setWidth 64 := by
  have kind : isMailbox q.spec = true := isMailbox_iff.2 (by omega)
  have other : isQueue q.spec = false := Bool.eq_false_iff.2 fun queue => by have := isQueue_iff.1 queue; omega
  have above : ¬0x90 + k < 0x80 ∧ ¬0x90 + k ≤ 0x82 ∧ ¬0x90 + k = 0x84 ∧ ¬0x90 + k = 0x85 := by omega
  obtain ⟨v, latch, lane, slot⟩ := above
  simp only [srcValue, kind, other, box, v, latch, lane, slot, Bool.false_eq_true, if_true, if_false, Nat.add_sub_cancel_left]

theorem immInt_eq {d : BitVec 8} (imm : 0xC0 ≤ d.toNat) : immInt d = (d.toNat : Int) - 0xC0 - (if 0xE0 ≤ d.toNat then 64 else 0) := by
  have low := d.isLt
  simp only [immInt, toSigned]
  split <;> split <;> omega

theorem srcValue_immediate (imm : 0xC0 ≤ q.spec.toNat) (word : q.kind = .int) :
    srcValue cc x q nth l = (BitVec.ofInt 32 ((q.spec.toNat : Int) - 0xC0 - (if 0xE0 ≤ q.spec.toNat then 64 else 0))).setWidth 64 := by
  have kind : isImm q.spec = true := by simpa [isImm] using imm
  have queue : isQueue q.spec = false := Bool.eq_false_iff.2 fun queue => by have := isQueue_iff.1 queue; omega
  have box : isMailbox q.spec = false := Bool.eq_false_iff.2 fun box => by have := isMailbox_iff.1 box; omega
  have above : ¬q.spec.toNat < 0x80 ∧ ¬q.spec.toNat ≤ 0x82 ∧ ¬q.spec.toNat = 0x84 ∧ ¬q.spec.toNat = 0x85 := by omega
  obtain ⟨v, latch, lane, slot⟩ := above
  simp only [srcValue, kind, queue, box, v, latch, lane, slot, Bool.false_eq_true, if_true, if_false, immValue, word, immInt_eq imm]

end

/-! The operands of a word. -/

section
variable (s : State) (x : Ex) (a b : BitVec 8) (l : Nat)

theorem arg_first (srcs : List Src) (q : Src) : arg (operands s x (q :: srcs) l) 0 = (srcValue (boxOf s x) x q 0 l).setWidth 32 := rfl

/-- The second naming of a specifier delivers what stands second there. -/
theorem arg_again : arg (operands s x [srcI a, srcI a] l) 1 = (srcValue (boxOf s x) x (srcI a) 1 l).setWidth 32 := by
  have again : [a].count a = 1 := List.count_singleton_self
  show ((srcValue (boxOf s x) x (srcI a) ([a].count a) l)).setWidth 32 = _
  rw [again]

/-- Source values are 64 bits wide: a word is read back from one as it was (R200). -/
theorem narrow_widen (v : Word) : (v.setWidth 64).setWidth 32 = v := by simp

/-- Two registers as the sources of a lane instruction. -/
theorem arg_registers (va : a.toNat < 0x80) (vb : b.toNat < 0x80) :
    arg (operands s x [srcI a, srcI b] l) 0 = x.w.regLane a.toNat l ∧ arg (operands s x [srcI a, srcI b] l) 1 = x.w.regLane b.toNat l := by
  constructor
  · rw [arg_first, srcValue_register _ _ _ _ va rfl, narrow_widen]
    rfl
  · show (srcValue (boxOf s x) x (srcI b) _ l).setWidth 32 = _
    rw [srcValue_register _ _ _ _ vb rfl, narrow_widen]
    rfl

end

/-! Sources that are registers. -/

section
variable {x : Ex} {srcs : List Src}

theorem no_ports (registers : ∀ q ∈ srcs, isV q.spec = true) : srcQueues srcs = [] ∧ srcMailboxes srcs = [] := by
  have queues : srcs.filter (fun q => isQueue q.spec) = [] := List.filter_eq_nil_iff.2 fun q there => by simp [(isV_only (registers q there)).1]
  have boxes : srcs.filter (fun q => isMailbox q.spec) = [] := List.filter_eq_nil_iff.2 fun q there => by simp [(isV_only (registers q there)).2]
  simp only [srcQueues, srcMailboxes, queues, boxes]
  exact ⟨rfl, rfl⟩

/-- Registers that are not spilled are waited for where they are pending, and for nothing else (R186). -/
theorem srcReady_registers (m : Mach) (uni : Bool) (registers : ∀ q ∈ srcs, isV q.spec = true) (resident : ∀ r ∈ srcs.flatMap Src.regs, x.w.spilled.contains r = false) :
    srcReady m x uni srcs = if (srcs.flatMap Src.regs).any (x.w.pendingIn (x.readMask uni)) then .hold m x .register else .go := by
  obtain ⟨queues, boxes⟩ := no_ports registers
  have here : (srcs.flatMap Src.regs).any (fun r => x.w.spilled.contains r) = false := List.any_eq_false.2 fun r there => by rw [resident r there]; exact Bool.false_ne_true
  simp only [srcReady, List.append_nil, here, queues, boxes, Bool.false_eq_true, if_false]
  rfl

theorem takeSources_registers (cc : CtxCore) (registers : ∀ q ∈ srcs, isV q.spec = true) : takeSources cc x srcs = cc := by
  obtain ⟨queues, boxes⟩ := no_ports registers
  simp only [takeSources, queues, boxes]
  rfl

end

/-! Destinations that are registers. -/

section
variable {x : Ex} {r : Nat} (m : Mach)

theorem regsReady_leased (leased : x.w.leasedIn x.g.lanes r = true) : regsReady m x r 1 = .bad (plainFault .leaseWrite) := by
  simp [regsReady, leased]

theorem regsReady_pending (unleased : x.w.leasedIn x.g.lanes r = false) (pending : x.w.pendingIn x.g.lanes r = true) : regsReady m x r 1 = .hold m .register := by
  simp [regsReady, unleased, pending]

end

/-! A lane instruction that does not complete. -/

section
variable {s : State} {x : Ex} {srcs : List Src} {n : BitVec 1} {d : BitVec 8} {f : List DWord → Word} {k : Wait}

theorem laneOp_awaits_sources (hx : s.ex? = some x) (wait : srcReady s.m x false srcs = .hold s.m x k) : Sys2Proof.Held s x k (laneOp s srcs n d f) := by
  rw [Sys2Proof.Held, laneOp, onWord_next hx, regOp, wait]
  rfl

theorem laneOp_awaits_room (hx : s.ex? = some x) (ready : srcReady s.m x false srcs = .go) (wait : dstReady s.m x srcs (nwOf n) d 1 = .hold s.m k) :
    Sys2Proof.Held s x k (laneOp s srcs n d f) := by
  rw [Sys2Proof.Held, laneOp, onWord_next hx, regOp, ready, wait]
  rfl

theorem laneOp_parks (hx : s.ex? = some x) (ready : srcReady s.m x false srcs = .go) {e : FaultInfo} (bad : dstReady s.m x srcs (nwOf n) d 1 = .bad e) (plain : Plain x) :
    ∃ t, laneOp s srcs n d f = .next t ∧ AllParked s x t (fun _ => e) x.pc (boxOf s x) := by
  rw [laneOp, onWord_next hx, regOp, ready, bad]
  exact ⟨_, rfl, deliverAll_parks plain e⟩

/-- A lane instruction over registers that writes none: its result fills the newest latch (R59, R61). -/
theorem laneOp_latches (hx : s.ex? = some x) (registers : ∀ q ∈ srcs, isV q.spec = true) (ready : srcReady s.m x false srcs = .go) (unwritten : nwOf n = true) :
    ∃ t y, laneOp s srcs n d f = .next t ∧ RegsKept x y ∧ WordDone s x t y (.same s x) ∧ y.r.latches = latched x (fun l => f (operands s x srcs l)) := by
  have room : dstReady s.m x srcs (nwOf n) d 1 = .go s.m := by rw [unwritten]; rfl
  obtain ⟨t, y, out, ⟨done, -, regs⟩, latches⟩ := laneOp_result hx ⟨ready, room⟩ f
  rw [unwritten] at done regs
  refine ⟨t, y, out, regs, wordDone_congr done rfl rfl rfl ?_, latches⟩
  exact takeSources_registers _ registers

end

/-! Two registers added. -/

section
variable {s : State} {x : Ex} {n : BitVec 1} {d a b : BitVec 8}

theorem exec_iadd_eq : exec (.iadd n d a b) s = laneOp s [srcI a, srcI b] n d (fun v => arg v 0 + arg v 1) := rfl

theorem srcReady_two (va : a.toNat < 0x80) (vb : b.toNat < 0x80) (resident : ∀ r ∈ [a.toNat, b.toNat], x.w.spilled.contains r = false) (m : Mach) :
    srcReady m x false [srcI a, srcI b] = if x.w.pendingIn x.g.lanes a.toNat = true ∨ x.w.pendingIn x.g.lanes b.toNat = true then .hold m x .register else .go := by
  have regs : [srcI a, srcI b].flatMap Src.regs = [a.toNat, b.toNat] := by simp [Src.regs, srcI, isV_iff.2 va, isV_iff.2 vb]
  have registers : ∀ q ∈ [srcI a, srcI b], isV q.spec = true := by simp [srcI, isV_iff.2 va, isV_iff.2 vb]
  rw [srcReady_registers m false registers (by rwa [regs]), regs]
  simp [Ex.readMask]

end

end Sys2Proof.Machine
end

section
namespace Sys2Proof.Machine

/-- Settles O14: what a specifier delivers by its class (`srcValue_register` to `srcValue_immediate`), and an addition of two registers, whose sources and destination are
`srcReady_two` and `regsReady`. -/
theorem sourcesAndPendingRegisters : Obligations.SourcesAndPendingRegisters := by
  refine ⟨fun s x a l => ?_, fun s x n d a b hx va vb vd resident => ⟨fun pending => ?_, fun doneA doneB => ?_⟩⟩
  · refine ⟨fun register => ?_, fun register => ?_, fun k low latch => ?_, fun zero => ?_, fun lane => ?_, fun slot => ?_, fun k low queue => ?_, fun k low box => ?_, fun imm => ?_⟩
    · rw [arg_first, srcValue_register _ _ _ _ register rfl, narrow_widen]
      rfl
    · exact srcValue_pair _ _ _ _ register rfl
    · rw [arg_first, srcValue_latch _ _ _ _ low latch, narrow_widen]
    · rw [arg_first, srcValue_zero _ _ _ _ zero]
      rfl
    · rw [arg_first, srcValue_lane _ _ _ _ lane, BitVec.setWidth_ofNat_of_le (by decide)]
    · rw [arg_first, srcValue_slot _ _ _ _ slot, BitVec.setWidth_ofNat_of_le (by decide)]
    · rw [arg_first, arg_again, srcValue_queue _ _ _ _ low queue, srcValue_queue _ _ _ _ low queue, narrow_widen, narrow_widen]
      exact ⟨rfl, rfl⟩
    · rw [arg_first, arg_again, srcValue_mailbox _ _ _ _ low box, srcValue_mailbox _ _ _ _ low box, narrow_widen]
      exact ⟨rfl, rfl⟩
    · rw [arg_first, srcValue_immediate _ _ _ _ imm rfl, narrow_widen]
      rfl
  · rw [exec_iadd_eq]
    exact laneOp_awaits_sources hx (by rw [srcReady_two va vb resident, if_pos pending])
  · have ready : srcReady s.m x false [srcI a, srcI b] = .go := by simp [srcReady_two va vb resident, doneA, doneB]
    have written : n = 0 → dstReady s.m x [srcI a, srcI b] (nwOf n) d 1 = regsReady s.m x d.toNat 1 := by
      rintro rfl
      simp [dstReady, nwOf, isV_iff.2 vd]
    rw [exec_iadd_eq]
    refine ⟨fun plain leased zero => ?_, fun unleased pending zero => ?_, fun one => ?_⟩
    · exact laneOp_parks hx ready ((written zero).trans (regsReady_leased s.m leased)) plain
    · exact laneOp_awaits_room hx ready ((written zero).trans (regsReady_pending s.m unleased pending))
    · have registers : ∀ q ∈ [srcI a, srcI b], isV q.spec = true := by simp [srcI, isV_iff.2 va, isV_iff.2 vb]
      obtain ⟨t, y, out, regs, done, latches⟩ := laneOp_latches (f := fun v => arg v 0 + arg v 1) (d := d) hx registers ready (by rw [one]; rfl : nwOf n = true)
      refine ⟨t, y, out, regs, done, latches.trans (congrArg (latched x) (funext fun l => ?_))⟩
      obtain ⟨first, second⟩ := arg_registers s x a b l va vb
      rw [first, second]

end Sys2Proof.Machine
end

section
/-! SUPPORT. A read of memory by a word moves memory's side of the machine alone (R115, R128). -/

namespace Sys2Proof.Machine

section
variable (s : State) (m n : Mach) (ctx core : Nat) (acc : Access) (eng : Bool)

theorem readVa_over (va : DWord) (k : Nat) : readVa s (m.over n) ctx core va k acc eng = (readVa s m ctx core va k acc eng).over n := by
  rw [readVa, translate_over, readVa]
  exact Res.next_over n (fun t m => readAt_over s m n core t va.toNat k) _

theorem readRange_over (parts : List (DWord × Nat)) : readRange s (m.over n) ctx core acc eng parts = (readRange s m ctx core acc eng parts).over n := by
  induction parts generalizing m with
  | nil => rfl
  | cons part parts ih =>
    rw [readRange, readVa_over, readRange]
    refine Res.next_over n (fun bs m => ?_) _
    rw [ih]
    exact Res.next_over n (fun _ _ => rfl) _

theorem readMem_over (va : DWord) (k : Nat) : readMem s (m.over n) ctx core va k acc eng = (readMem s m ctx core va k acc eng).over n :=
  readRange_over s m n ctx core acc eng _

end

theorem readMem_keeps {s : State} {m m' : Mach} {ctx core k : Nat} {va : DWord} {acc : Access} {eng : Bool} {bs : List Byte} (h : readMem s m ctx core va k acc eng = .ok bs m') :
    m' = m'.over m := by
  have same := readMem_over s m m ctx core acc eng va k
  rw [over_self, h] at same
  injection same

end Sys2Proof.Machine
end

section
/-! SUPPORT. `QBIND` (R197, R198) and `SPAWN` (R355, R356). -/

namespace Sys2Proof.Machine

/-! `QBIND`. -/

theorem length_bindQueue (qs : List Queue) (q kind : Nat) (v : Word) : (bindQueue qs q kind v).length = qs.length := by simp [bindQueue]

theorem getD_bindQueue {qs : List Queue} (q kind : Nat) (v : Word) {i : Nat} (there : i < qs.length) :
    (bindQueue qs q kind v).getD i .fresh =
      if i = q then { (qs.getD i .fresh).emptied with kind := kind, arg := v }
      else if (queuePort kind v).isSome = true ∧ queuePort (qs.getD i .fresh).kind (qs.getD i .fresh).arg = queuePort kind v then (qs.getD i .fresh).emptied
      else qs.getD i .fresh := by
  rw [List.getD_eq_getElem _ _ (by rwa [length_bindQueue])]
  simp only [bindQueue, List.getElem_map, List.getElem_range]

/-- What a `QBIND` of queue `q` answers: the entries discarded and the losses counted, where no waiting word has read them and the word itself does not pop one. -/
def discardedBy (old : Queue) (a : BitVec 8) (q : Nat) : Nat :=
  min (old.entries.length - old.readers.length - (if a.toNat = 0x88 + q then 1 else 0) + old.drops.toNat) (2 ^ 32 - 1)

theorem pops_iff {a : BitVec 8} {q : Nat} (low : q < 8) : (isQueue a = true ∧ a.toNat - 0x88 = q) ↔ a.toNat = 0x88 + q := by
  rw [isQueue_iff]
  omega

theorem qbind_binds {s : State} {x : Ex} {d a : BitVec 8} {k q : BitVec 3} {m : Mach} (hx : s.ex? = some x) (ready : WordReady s x true [srcI a] false d 1 m)
    (unfed : ∀ p ∈ x.w.pends, p.kind ≠ .queueFed q.toNat) :
    UniformWords s x
      { Rest.same s x with box := { boxOf s x with queues := bindQueue (boxOf s x).queues q.toNat k.toNat (if k.toNat < 3 then 0 else arg (operands s x [srcI a] x.low) 0) } }
      [srcI a] d 1 [BitVec.ofNat 32 (discardedBy ((boxOf s x).queues.getD q.toNat .fresh) a q.toNat)] (exec (.qbind d a k q) s) := by
  have box : m.ctxCore x.w.ctx x.core = boxOf s x := (dstReady_spills ready.2).box ..
  have none : x.w.pends.any (fun p => p.kind == .queueFed q.toNat) = false := List.any_eq_false.2 fun p there => by simpa using unfed p there
  rw [exec_qbind, execQbind, onWord_next hx]
  refine uniEffect_box hx ready ?_
  simp only [none, box, pops_iff q.isLt, Bool.false_eq_true, if_false]
  rfl

/-! A uniform word with an effect on another core. -/

/-- The word of `x` with a result written to its destination and its sources taken: but for its warp it is `x`, and of its warp the registers of a `v` destination alone are written. -/
structure Carries (x z : Ex) (d : BitVec 8) (count : Nat) (vs : List Word) : Prop where
  word   : z = { x with w := z.w }
  groups : z.w.groups = x.w.groups ∧ z.w.hgroups = x.w.hgroups
  regs   : if isV d = true then Written x z d.toNat count (fun _ => vs) else RegsKept x z

theorem writeDst_carries (cc : CtxCore) (x : Ex) (know : List Nat) (d : BitVec 8) (count : Nat) (vs : List Word) (n : Mach) (srcs : List Src) :
    Carries x ((writeDst cc x know d count (fun _ => vs)).2.taken n srcs) d count vs := by
  have regs := writeDst_regs cc x know d count (fun _ => vs)
  obtain ⟨word, -, groups⟩ := writeDst_word cc x know d count (fun _ => vs)
  generalize (writeDst cc x know d count (fun _ => vs)).2 = y at regs word groups
  refine ⟨by rw [taken_word, word], by rw [taken_word]; exact groups, ?_⟩
  rw [taken_word]
  split
  next v => exact fun r l lane => (regs r l lane).trans (by simp only [v, true_and])
  next plain => exact fun r l lane => (regs r l lane).trans (if_neg fun written => plain written.1)

section
variable {s : State} {x : Ex} {srcs : List Src} {d : BitVec 8} {count : Nat} {f : List DWord → Mach → Ex → Eff} {m n : Mach} {vs : List Word}

/-- A word with its result that goes on in a machine in which its group stands. -/
theorem Carries.advances {z : Ex} (h : Carries x z d count vs) (hx : s.ex? = some x) (cur : n.cur = s.m.cur) :
    (s.withM (n.advance z)).ex? = some z.finished ∧ z.finished.r = { x.r with pos := x.r.pos + 1, wait := .none, desc := [] } ∧ n.advance z = n.setWarp x.core x.pos z.finished.w
      ∧ if isV d = true then Written x z.finished d.toNat count (fun _ => vs) else RegsKept x z.finished := by
  obtain ⟨here, -, there, -⟩ := ex?_some hx
  obtain ⟨word, groups, regs⟩ := h
  refine ⟨ex?_put (z := { z with r := { z.r with pos := z.r.pos + 1, wait := .none, desc := [] } }) ?_ ?_, ?_, ?_, ?_⟩
  · show n.cur = some { core := z.core, pos := z.pos, hand := z.hand, grp := z.grp }
    rw [cur, here, word]
  · show z.grp < (if z.hand then z.w.hgroups else z.w.groups).length
    rw [groups.1, groups.2, word]
    exact (List.getElem?_eq_some_iff.mp there).1
  · show ({ z.r with pos := z.r.pos + 1, wait := .none, desc := [] } : Run) = _
    rw [word]
  · show n.setWarp z.core z.pos z.finished.w = n.setWarp x.core x.pos z.finished.w
    rw [congrArg Ex.core word, congrArg Ex.pos word]
  · split at regs
    next v => rw [if_pos v]; exact fun r l lane => (regLane_finished ..).trans (regs r l lane)
    next plain => rw [if_neg plain]; exact fun r l lane => (regLane_finished ..).trans (regs r l lane)

/-- A uniform word that delivers its result in a machine `n` in which its group stands: beside its own warp and the per-context state of its core, `n` is what it leaves. -/
theorem uniEffect_delivers (hx : s.ex? = some x) (ready : WordReady s x true srcs false d count m) (value : f (operands s x srcs x.low) m x = .ok n x vs) (cur : n.cur = s.m.cur) :
    ∃ y b, (s.withM (uniEffect s.m x srcs d count f)).ex? = some y ∧ y.r = { x.r with pos := x.r.pos + 1, wait := .none, desc := [] }
      ∧ uniEffect s.m x srcs d count f = (n.setCtxCore x.w.ctx x.core b).setWarp x.core x.pos y.w
      ∧ if isV d = true then Written x y d.toNat count (fun _ => vs) else RegsKept x y := by
  obtain ⟨sources, room⟩ := ready
  have vals : srcValues (m.ctxCore x.w.ctx x.core) x x.low srcs [] = operands s x srcs x.low := by simp only [operands, boxOf, (dstReady_spills room).box]
  obtain ⟨word, rest, -⟩ := writeDst_word (takeSources (n.ctxCore x.w.ctx x.core) x srcs) x (x.fillKnow m srcs) d count (fun _ => vs)
  have carries := writeDst_carries (takeSources (n.ctxCore x.w.ctx x.core) x srcs) x (x.fillKnow m srcs) d count vs n srcs
  have ctx := congrArg Warp.ctx rest
  have core := congrArg Ex.core word
  simp only [uniEffect, sources, room, vals, value]
  generalize writeDst (takeSources (n.ctxCore x.w.ctx x.core) x srcs) x (x.fillKnow m srcs) d count (fun _ => vs) = cy at carries ctx core ⊢
  rw [show cy.2.w.ctx = x.w.ctx from ctx, show cy.2.core = x.core from core]
  exact ⟨_, cy.1, carries.advances hx cur⟩

end

/-! `SPAWN`. -/

section
variable {s : State} {x : Ex} {d a : BitVec 8} {m m' : Mach} {desc : List Byte}

/-- The core that a descriptor names. -/
def spawnNamed (s : State) (x : Ex) (desc : List Byte) : Nat := coreNamed (s.ctx x.w.ctx) (natBits (spCore desc) 8 1 * 144 + spCore desc % 256)

/-- The core at which a slice is enqueued: the one named, or the word's own (R355). -/
def spawnTarget (s : State) (x : Ex) (desc : List Byte) : Nat := if natBits (spCore desc) 15 1 = 1 then spawnNamed s x desc else x.core

/-- The slice that a word spawns. -/
def spawnSlice (x : Ex) (m : Mach) (desc : List Byte) : Slice := spawnedSlice desc x.w.grid x.w.ctx ((sliceOf m x.w).elim 0 (·.deadline)) (x.w.history m)

/-- What a `SPAWN` comes to once its descriptor is read. -/
def spawnRead (s : State) (x : Ex) (m : Mach) (desc : List Byte) : Eff :=
  if spawnReserved s x.w.ctx desc (spawnNamed s x desc) then .bad (plainFault .reservedField) m
  else if 64 ≤ (m.core (spawnTarget s x desc)).registrar.length then .ok m x [0]
  else .ok (enqueueSlice m (spawnTarget s x desc) (spawnSlice x m desc)).2 x [1]

/-- The effect of `SPAWN` (R356). -/
def spawnEffect (s : State) (vals : List DWord) (m : Mach) (x : Ex) : Eff :=
  if (argPair vals 0).toNat % 64 ≠ 0 then .bad (mkFault .align 0 0 (argPair vals 0).toNat) m
  else if !drained m x.w.uid then .hold m x .register
  else
    match readMem s m x.w.ctx x.core (argPair vals 0) 64 with
    | .fault f m => .bad f m
    | .wait m => .hold m x .register
    | .ok desc m => spawnRead s x m desc

theorem exec_spawn_eq (hx : s.ex? = some x) : exec (.spawn d a) s = .next (s.withM (uniEffect s.m x [srcW a] d 1 (spawnEffect s))) := by
  rw [exec_spawn, execSpawn, onWord_next hx]
  rfl

theorem spawnEffect_reads {vals : List DWord} (aligned : (argPair vals 0).toNat % 64 = 0) (performed : drained m x.w.uid = true)
    (read : readMem s m x.w.ctx x.core (argPair vals 0) 64 = .ok desc m') : spawnEffect s vals m x = spawnRead s x m' desc := by
  simp only [spawnEffect, aligned, performed, read, ne_eq, not_true_eq_false, Bool.not_true, Bool.false_eq_true, if_false]

/-- What a `SPAWN` finds once it has room for its answer and has read its descriptor: the cores as they were then, and the rest of the word's surroundings as they were before. -/
theorem readMem_room {ctx core k : Nat} {va : DWord} {bs : List Byte} (sp : SpillsOnly s.m m x.core x.pos) (read : readMem s m ctx core va k = .ok bs m') :
    m'.cur = s.m.cur ∧ m'.ctxCores = s.m.ctxCores ∧ m'.slices = s.m.slices ∧ { m' with cores := m.cores } = m' := by
  have same := readMem_keeps read
  rw [sp.eq] at same
  rw [same]
  exact ⟨rfl, rfl, rfl, rfl⟩

/-- A full Registrar: the answer is 0 and nothing is enqueued. -/
theorem spawn_full (hx : s.ex? = some x) (ready : WordReady s x true [srcW a] false d 1 m)
    (value : spawnEffect s (operands s x [srcW a] x.low) m x = spawnRead s x m' desc) (cur : m'.cur = s.m.cur) (boxes : m'.ctxCores = s.m.ctxCores) (cores : { m' with cores := m.cores } = m')
    (good : spawnReserved s x.w.ctx desc (spawnNamed s x desc) = false) (full : 64 ≤ (m'.core (spawnTarget s x desc)).registrar.length) :
    UniformWords s x { m := m', c := m'.core x.core, w := x.w, box := boxOf s x } [srcW a] d 1 [0] (exec (.spawn d a) s) := by
  rw [exec_spawn_eq hx]
  have ends := (dstReady_spills ready.2).wordEnd_cores (v := x.w) cur boxes ⟨rfl, rfl⟩
  rw [cores] at ends
  refine uniEffect_leaves hx ready (v := x.w) (value.trans ?_) ends rfl ⟨rfl, rfl⟩ rfl rfl rfl (ctxCore_congr boxes ..)
  simp only [spawnRead, good, full, Bool.false_eq_true, if_false, if_true]

theorem core_enqueueSlice (m : Mach) (k : Nat) (sl : Slice) (j : Nat) :
    (enqueueSlice m k sl).2.core j
      = if j = k then { m.core k with registrar := (m.core k).registrar ++ [m.nextId], sliceCount := (m.core k).sliceCount + 1 } else m.core j :=
  core_setCore ..

theorem slices_enqueueSlice (m : Mach) (k : Nat) (sl : Slice) :
    mget (enqueueSlice m k sl).2.slices m.nextId = some { sl with core := k, number := (m.core k).sliceCount } :=
  mget_mset_same ..

/-- Room in the Registrar: the answer is 1, and the slice stands last in it, with the core's count as its number (R348, R355). -/
theorem spawn_enqueues (hx : s.ex? = some x) (ready : WordReady s x true [srcW a] false d 1 m)
    (value : spawnEffect s (operands s x [srcW a] x.low) m x = spawnRead s x m' desc) (cur : m'.cur = s.m.cur)
    (good : spawnReserved s x.w.ctx desc (spawnNamed s x desc) = false) {k : Nat} (target : spawnTarget s x desc = k) (room : (m'.core k).registrar.length < 64) :
    ∃ u y, exec (.spawn d a) s = .next u ∧ u.ex? = some y ∧ y.r = { x.r with pos := x.r.pos + 1, wait := .none, desc := [] }
      ∧ (if isV d = true then Written x y d.toNat 1 (fun _ => [1]) else RegsKept x y)
      ∧ (u.m.core k).registrar = (m'.core k).registrar ++ [m'.nextId] ∧ (u.m.core k).sliceCount = (m'.core k).sliceCount + 1 ∧ u.m.mem = m'.mem
      ∧ mget u.m.slices m'.nextId = some { spawnSlice x m' desc with core := k, number := (m'.core k).sliceCount } := by
  subst target
  set n := (enqueueSlice m' (spawnTarget s x desc) (spawnSlice x m' desc)).2 with enqueued
  have answer : spawnRead s x m' desc = .ok n x [1] := by simp only [spawnRead, good, Nat.not_le.2 room, Bool.false_eq_true, if_false, enqueued]
  obtain ⟨y, b, here, run, leaves, regs⟩ := uniEffect_delivers hx ready (value.trans answer) cur
  have own : ((uniEffect s.m x [srcW a] d 1 (spawnEffect s)).core (spawnTarget s x desc)).registrar = (n.core (spawnTarget s x desc)).registrar
      ∧ ((uniEffect s.m x [srcW a] d 1 (spawnEffect s)).core (spawnTarget s x desc)).sliceCount = (n.core (spawnTarget s x desc)).sliceCount := by
    rw [leaves, core_setWarp, core_setCtxCore, core_setCtxCore]
    split
    next same => rw [same]; exact ⟨rfl, rfl⟩
    next => exact ⟨rfl, rfl⟩
  rw [enqueued, core_enqueueSlice, if_pos rfl] at own
  refine ⟨_, y, exec_spawn_eq hx, here, run, regs, own.1, own.2, ?_, ?_⟩
  · rw [withM_m, leaves]
    rfl
  · rw [withM_m, leaves]
    exact slices_enqueueSlice ..

/-- A descriptor out of its limits (R356). -/
theorem spawn_parks (hx : s.ex? = some x) (ready : WordReady s x true [srcW a] false d 1 s.m)
    (value : spawnEffect s (operands s x [srcW a] x.low) s.m x = spawnRead s x s.m desc) (plain : Plain x)
    (reserved : spawnReserved s x.w.ctx desc (spawnNamed s x desc) = true) :
    ∃ u, exec (.spawn d a) s = .next u ∧ AllParked s x u (fun _ => plainFault .reservedField) x.pc (boxOf s x) := by
  have vals : srcValues (s.m.ctxCore x.w.ctx x.core) x x.low [srcW a] [] = operands s x [srcW a] x.low := rfl
  refine ⟨_, exec_spawn_eq hx, ?_⟩
  simp only [uniEffect, ready.1, ready.2, vals, value, spawnRead, reserved, if_true]
  exact deliverAll_parks plain _

theorem natBits_one (w lo : Nat) : natBits w lo 1 = w / 2 ^ lo % 2 := by rw [natBits, pow_one]

theorem bytesToNat_lt (bs : List Byte) : bytesToNat bs < 256 ^ bs.length := by
  induction bs with
  | nil => exact Nat.one_pos
  | cons b bs ih =>
    have low := b.isLt
    rw [bytesToNat, List.length_cons, Nat.pow_succ]
    omega

theorem dField_lt (d : List Byte) (off n : Nat) : dField d off n < 256 ^ n :=
  (bytesToNat_lt _).trans_le (Nat.pow_le_pow_right (by decide) (List.length_take_le ..))

/-- The deadline of a spawned slice is its descriptor's, or where that is 0 its parent's (R355). -/
theorem deadline_spawnedSlice (desc : List Byte) (grid ctx : Nat) (parent : DWord) (know : List Nat) :
    (dField desc 40 8 ≠ 0 → (spawnedSlice desc grid ctx parent know).deadline = BitVec.ofNat 64 (dField desc 40 8))
      ∧ (dField desc 40 8 = 0 → (spawnedSlice desc grid ctx parent know).deadline = parent) := by
  have bound : dField desc 40 8 < 2 ^ 64 := dField_lt desc 40 8
  constructor
  · intro own
    refine if_neg fun zero => own ?_
    have := congrArg BitVec.toNat zero
    rwa [BitVec.toNat_ofNat, Nat.mod_eq_of_lt bound] at this
  · intro zero
    simp only [spawnedSlice, zero]
    rfl

end

end Sys2Proof.Machine
end

section
namespace Sys2Proof.Machine

/-- Settles O43: `QBIND` by `qbind_binds` and the queues that `bindQueue` leaves; `SPAWN` by what it comes to once its descriptor is read (`spawnRead`). -/
theorem queueBindingAndSpawn : Obligations.QueueBindingAndSpawn := by
  intro s x d a m hx
  refine ⟨fun k q ready eight unfed => ?_, fun desc m' ready => ?_⟩
  · intro old value emptied discarded
    refine ⟨_, qbind_binds hx ready unfed, (length_bindQueue ..).trans eight, ?_, fun i low other => ?_⟩
    · rw [getD_bindQueue _ _ _ (by rw [eight]; exact q.isLt), if_pos rfl]
      rfl
    · rw [getD_bindQueue _ _ _ (by rwa [eight]), if_neg other]
      rfl
  · intro va field named target home aligned performed read
    have sp := dstReady_spills ready.2
    obtain ⟨cur, boxes, slices, cores⟩ := readMem_room sp read
    have value : spawnEffect s (operands s x [srcW a] x.low) m x = spawnRead s x m' desc := spawnEffect_reads aligned (by rw [sp.drained, performed]) read
    have names : spawnNamed s x desc = named := by simp only [spawnNamed, natBits_one]; rfl
    have aims : spawnTarget s x desc = target := by simp only [spawnTarget, natBits_one, names]; rfl
    refine ⟨fun good => ⟨fun full => ?_, fun room => ?_⟩, fun reserved plain same still => ?_⟩
    · exact spawn_full hx ready value cur boxes cores (names ▸ good) (aims ▸ full)
    · obtain ⟨u, y, out, here, run, regs, queued, counted, mem, slice⟩ := spawn_enqueues hx ready value cur (names ▸ good) aims room
      obtain ⟨own, inherited⟩ := deadline_spawnedSlice desc x.w.grid x.w.ctx ((sliceOf m' x.w).elim 0 (·.deadline)) (x.w.history m')
      refine ⟨u, y, _, out, here, run, fun v => by rwa [if_pos v] at regs, fun zero => ?_, queued, counted, mem, slice, rfl, rfl, rfl, rfl, rfl, rfl, rfl, rfl, rfl, rfl, rfl, rfl, rfl, own,
        fun p zero parent => (inherited zero).trans ?_⟩
      · subst zero
        exact regs
      · rw [sliceOf, slices, parent]
        rfl
    · subst same still
      exact spawn_parks hx ready value plain (names ▸ reserved)

end Sys2Proof.Machine
end

section
/-! SUPPORT. What the lane units compute from the words of their sources, in the arithmetic of the spec (R205 to R212): the model's word functions are these numbers. -/

namespace Sys2Proof.Machine

theorem sub_eq_ofInt (a b : Word) : a - b = BitVec.ofInt 32 (a.toNat - b.toNat : Int) := by
  apply BitVec.eq_of_toInt_eq
  rw [BitVec.toInt_sub, BitVec.toInt_ofInt, BitVec.toInt_eq_toNat_bmod, BitVec.toInt_eq_toNat_bmod, Int.bmod_sub_bmod, Int.sub_bmod_bmod]

theorem add_eq_ofNat (a b : Word) : a + b = BitVec.ofNat 32 (a.toNat + b.toNat) := BitVec.eq_of_toNat_eq (by simp)
theorem mul_eq_ofNat (a b : Word) : a * b = BitVec.ofNat 32 (a.toNat * b.toNat) := BitVec.eq_of_toNat_eq (by simp)

theorem mul_add_eq_ofNat (a b c : Word) : a * b + c = BitVec.ofNat 32 (a.toNat * b.toNat + c.toNat) :=
  BitVec.eq_of_toNat_eq (by simp)

theorem clampInt_eq {lo hi : Int} (order : lo ≤ hi) (x : Int) : clampInt lo hi x = max lo (min hi x) := by
  unfold clampInt; split <;> [skip; split] <;> omega

theorem ofInt_toInt_ite (p : Prop) [Decidable p] (a b : Word) : (if p then a else b) = BitVec.ofInt 32 (if p then a.toInt else b.toInt) := by
  split <;> exact (BitVec.ofInt_toInt).symm

theorem minS_eq (a b : Word) : minS a b = BitVec.ofInt 32 (min a.toInt b.toInt) := ofInt_toInt_ite ..
theorem maxS_eq (a b : Word) : maxS a b = BitVec.ofInt 32 (max a.toInt b.toInt) := ofInt_toInt_ite ..
theorem minN_eq (a b : Word) : minN a b = BitVec.ofNat 32 (min a.toNat b.toNat) := BitVec.eq_of_toNat_eq (by unfold minN; rw [BitVec.toNat_ofNat]; split <;> omega)
theorem maxN_eq (a b : Word) : maxN a b = BitVec.ofNat 32 (max a.toNat b.toNat) := BitVec.eq_of_toNat_eq (by unfold maxN; rw [BitVec.toNat_ofNat]; split <;> omega)

theorem absS_eq (a : Word) : absS a = BitVec.ofNat 32 a.toInt.natAbs := by
  have low := a.isLt
  have value := BitVec.toInt_eq_toNat_cond a
  apply BitVec.eq_of_toNat_eq
  rw [absS, apply_ite BitVec.toNat, BitVec.toNat_neg, BitVec.toNat_ofNat]
  split at value <;> split <;> omega

/-- The leading zeros of the low `k` bits: what their highest one leaves above it. -/
theorem clzFrom_eq (a : Word) (k : Nat) : clzFrom a k = k - (if a.toNat % 2 ^ k = 0 then 0 else (a.toNat % 2 ^ k).log2 + 1) := by
  induction k with
  | zero => simp [clzFrom]
  | succ k ih =>
    have low : a.toNat % 2 ^ k < 2 ^ k := Nat.mod_lt _ (Nat.two_pow_pos k)
    have bits : a.toNat % 2 ^ (k + 1) = a.toNat % 2 ^ k + 2 ^ k * (a.getLsbD k).toNat := by
      rw [Nat.mod_pow_succ, ← Nat.toNat_testBit]; rfl
    rw [clzFrom, ih, bits]
    cases a.getLsbD k with
    | true =>
      have top : (a.toNat % 2 ^ k + 2 ^ k).log2 = k := (Nat.log2_eq_iff (by omega)).2 (by rw [Nat.pow_succ]; omega)
      rw [if_pos rfl, Bool.toNat_true, Nat.mul_one, if_neg (by omega), top, Nat.sub_self]
    | false =>
      simp only [Bool.false_eq_true, if_false, Bool.toNat_false, Nat.mul_zero, Nat.add_zero]
      split
      · omega
      · next nonzero =>
        have := (Nat.log2_lt nonzero).2 low
        omega

theorem clzWord_eq (a : Word) : clzWord a = BitVec.ofNat 32 (32 - (if a.toNat = 0 then 0 else a.toNat.log2 + 1)) := by
  rw [clzWord, clzFrom_eq, Nat.mod_eq_of_lt a.isLt]

theorem brevWord_eq (a : Word) : brevWord a = a.reverse := by
  apply BitVec.eq_of_getLsbD_eq
  intro i hi
  have own := inMask_maskOf (ls := (maskLanes a).map (fun i => 31 - i)) hi
  rw [inMask] at own
  rw [brevWord, own, BitVec.getLsbD_reverse, BitVec.getMsbD_eq_getLsbD, Bool.eq_iff_iff]
  simp only [List.contains_iff_mem, List.mem_map, mem_maskLanes, inMask, hi, decide_true, Bool.true_and]
  constructor
  · rintro ⟨k, ⟨hk, set⟩, rfl⟩
    rwa [show 32 - 1 - (31 - k) = k by omega]
  · exact fun set => ⟨31 - i, ⟨by omega, set⟩, by omega⟩

theorem satnWord_eq (a : Word) : satnWord 0 a = BitVec.ofInt 32 (max (-128) (min 127 a.toInt)) ∧ satnWord 1 a = BitVec.ofInt 32 (max 0 (min 255 a.toInt))
    ∧ satnWord 2 a = BitVec.ofInt 32 (max (-32768) (min 32767 a.toInt)) ∧ satnWord 3 a = BitVec.ofInt 32 (max 0 (min 65535 a.toInt)) := by
  simp only [satnWord, clampInt_eq (show (-128 : Int) ≤ 127 by decide), clampInt_eq (show (0 : Int) ≤ 255 by decide), clampInt_eq (show (-32768 : Int) ≤ 32767 by decide),
    clampInt_eq (show (0 : Int) ≤ 65535 by decide), and_self]

/-! Lanes of bytes and halves, and saturation. -/

theorem byteOf_eq (w : Word) (i : Nat) : byteOf w i = (w >>> (8 * i)).setWidth 8 :=
  BitVec.eq_of_toNat_eq (by simp [byteOf, natBits, Nat.shiftRight_eq_div_pow])

theorem halfOf_eq (w : Word) (i : Nat) : halfOf w i = (w >>> (16 * i)).setWidth 16 :=
  BitVec.eq_of_toNat_eq (by simp [halfOf, natBits, Nat.shiftRight_eq_div_pow])

theorem satS32_eq (t : Int) : satS32 t = BitVec.ofInt 32 (max (-2147483648) (min 2147483647 t)) := by rw [satS32, clampInt_eq (by decide)]
theorem satN32_eq (t : Int) : satN32 t = BitVec.ofInt 32 (max 0 (min 4294967295 t)) := by rw [satN32, clampInt_eq (by decide)]

/-! Shifts. -/

theorem shlWord_eq (a s : Word) : shlWord a s = if 32 ≤ s.toNat then 0 else a <<< s.toNat := by
  rw [shlWord]; split
  · next past => exact BitVec.shiftLeft_eq_zero past
  · rfl

theorem shrWord_eq (a s : Word) : shrWord a s = if 32 ≤ s.toNat then 0 else a >>> s.toNat := by
  rw [shrWord]; split
  · next past => exact BitVec.ushiftRight_eq_zero past
  · rfl

/-- Past its width a number is divided down to its sign. -/
theorem ediv_past_width {z : Int} {n : Nat} (low : -2 ^ 32 ≤ z) (high : z < 2 ^ 32) (past : 32 ≤ n) : z / 2 ^ n = z / 2 ^ 32 := by
  have grows : (2 : Int) ^ 32 ≤ 2 ^ n := pow_le_pow_right₀ (by decide) past
  rcases lt_or_ge z 0 with neg | pos
  · rw [Int.ediv_eq_neg_one_of_neg_of_le neg (by omega), Int.ediv_eq_neg_one_of_neg_of_le neg (by omega)]
  · rw [Int.ediv_eq_zero_of_lt pos (by omega), Int.ediv_eq_zero_of_lt pos high]

theorem sarWord_eq (a s : Word) : sarWord a s = a.sshiftRight s.toNat := by
  rw [BitVec.sshiftRight_eq, Int.shiftRight_eq_div_pow, sarWord]
  rcases le_total s.toNat 32 with inside | past
  · rw [min_eq_left inside]; norm_cast
  · have := BitVec.toInt_lt (x := a)
    have := BitVec.le_toInt (x := a)
    rw [min_eq_right past, Nat.cast_pow, Nat.cast_ofNat, ediv_past_width (n := s.toNat) (by omega) (by omega) past]

theorem hi_toNat (a : DWord) : a.hi.toNat = a.toNat / 2 ^ 32 := by
  have := a.isLt
  rw [DWord.hi, BitVec.toNat_setWidth, BitVec.toNat_ushiftRight, Nat.shiftRight_eq_div_pow]
  omega

/-- Two words side by side. -/
theorem joined_toNat (hi lo : Word) : ((hi.setWidth 64 <<< 32) ||| lo.setWidth 64 : DWord).toNat = hi.toNat * 2 ^ 32 + lo.toNat := by
  have := hi.isLt
  have := lo.isLt
  rw [BitVec.toNat_or, BitVec.toNat_shiftLeft, BitVec.toNat_setWidth, BitVec.toNat_setWidth, Nat.mod_eq_of_lt (a := hi.toNat) (by omega), Nat.mod_eq_of_lt (a := lo.toNat) (by omega),
    Nat.shiftLeft_eq, Nat.mod_eq_of_lt (by omega), ← Nat.shiftLeft_eq, ← Nat.shiftLeft_add_eq_or_of_lt (by omega)]

theorem fshlWord_eq (a b d : Word) : fshlWord a b d = (((((d.setWidth 64 <<< 32) ||| a.setWidth 64) <<< (b.toNat % 32)) >>> 32 : DWord)).setWidth 32 := by
  apply BitVec.eq_of_toNat_eq
  rw [fshlWord, BitVec.toNat_setWidth, BitVec.toNat_ushiftRight, BitVec.toNat_shiftLeft, joined_toNat, Nat.shiftLeft_eq, Nat.shiftRight_eq_div_pow, BitVec.toNat_ofNat,
    show 2 ^ 64 = 2 ^ 32 * 2 ^ 32 by decide, Nat.mod_mul_right_div_self, Nat.mod_mod]

theorem fshrWord_eq (a b d : Word) : fshrWord a b d = ((((a.setWidth 64 <<< 32) ||| d.setWidth 64) >>> (b.toNat % 32) : DWord)).setWidth 32 := by
  apply BitVec.eq_of_toNat_eq
  rw [fshrWord, BitVec.toNat_setWidth, BitVec.toNat_ushiftRight, joined_toNat, Nat.shiftRight_eq_div_pow, BitVec.toNat_ofNat]

theorem hiwWord_eq (i : BitVec 16) (d : Word) : hiwWord i d = (i.setWidth 32 <<< 16) ||| (d.setWidth 16).setWidth 32 := by
  have := i.isLt
  have low : ((d.setWidth 16).setWidth 32).toNat = d.toNat % 2 ^ 16 := by rw [BitVec.toNat_setWidth, BitVec.toNat_setWidth, Nat.mod_eq_of_lt (by omega)]
  have high : (i.setWidth 32 <<< 16).toNat = i.toNat <<< 16 := by
    rw [BitVec.toNat_shiftLeft, BitVec.toNat_setWidth, Nat.mod_eq_of_lt (a := i.toNat) (by omega), Nat.shiftLeft_eq, Nat.mod_eq_of_lt (by omega)]
  apply BitVec.eq_of_toNat_eq
  rw [hiwWord, BitVec.toNat_or, low, high, ← Nat.shiftLeft_add_eq_or_of_lt (by omega), Nat.shiftLeft_eq, BitVec.toNat_ofNat]
  omega

/-! Bit fields. -/

/-- The mask of the low `len` bits. -/
theorem lowMask_toNat {len : Nat} (inside : len ≤ 32) : (BitVec.ofNat 32 (2 ^ len - 1)).toNat = 2 ^ len - 1 := by
  have : 2 ^ len ≤ 2 ^ 32 := Nat.pow_le_pow_right (by decide) inside
  have := Nat.two_pow_pos len
  rw [BitVec.toNat_ofNat, Nat.mod_eq_of_lt (by omega)]

theorem bfLen_eq (b : Word) : bfLen b = min (b.toNat / 32 % 64) 32 := rfl

theorem field_toNat (a : Word) (p : Nat) {len : Nat} (inside : len ≤ 32) : ((a >>> p) &&& BitVec.ofNat 32 (2 ^ len - 1)).toNat = a.toNat / 2 ^ p % 2 ^ len := by
  rw [BitVec.toNat_and, lowMask_toNat inside, BitVec.toNat_ushiftRight, Nat.shiftRight_eq_div_pow, Nat.and_two_pow_sub_one_eq_mod]

/-- A field of `len` bits with ones above it is its value less 2^len. -/
theorem or_not_lowMask {f : Word} {len : Nat} (small : f.toNat < 2 ^ len) : f ||| ~~~(BitVec.ofNat 32 (2 ^ len - 1)) = BitVec.ofInt 32 ((f.toNat : Int) - 2 ^ len) := by
  have apart : f &&& ~~~(BitVec.ofNat 32 (2 ^ len - 1)) = 0 := by
    apply BitVec.eq_of_getLsbD_eq
    intro i hi
    have above : len ≤ i → f.getLsbD i = false := fun h => Nat.testBit_lt_two_pow (small.trans_le (Nat.pow_le_pow_right (by decide) h))
    simp only [BitVec.getLsbD_and, BitVec.getLsbD_not, BitVec.getLsbD_ofNat, Nat.testBit_two_pow_sub_one, hi, decide_true, Bool.true_and, BitVec.ofNat_eq_ofNat]
    rcases lt_or_ge i len with below | past
    · simp [below]
    · simp [above past]
  have top : BitVec.ofNat 32 (2 ^ len - 1) + 1#32 = BitVec.ofNat 32 (2 ^ len) := by
    rw [← BitVec.ofNat_add, Nat.sub_add_cancel Nat.one_le_two_pow]
  rw [← BitVec.add_eq_or_of_and_eq_zero _ _ apart, BitVec.not_eq_neg_add, ← BitVec.neg_add, top, Int.sub_eq_add_neg, BitVec.ofInt_add, BitVec.ofInt_natCast,
    BitVec.ofNat_toNat, BitVec.setWidth_eq, BitVec.ofInt_neg]
  norm_cast

/-- The number that the low `len` bits stand for as two's complement is negative where the highest of them is set. -/
theorem toSigned_field {f : Word} {len : Nat} (pos : 0 < len) (small : f.toNat < 2 ^ len) :
    BitVec.ofInt 32 (toSigned len f.toNat) = if f.getLsbD (len - 1) then f ||| ~~~(BitVec.ofNat 32 (2 ^ len - 1)) else f := by
  have half : 2 ^ len = 2 ^ (len - 1) + 2 ^ (len - 1) := by rw [← Nat.two_mul, ← Nat.pow_succ', Nat.succ_eq_add_one, Nat.sub_add_cancel pos]
  rw [toSigned, Nat.mod_eq_of_lt small]
  split
  · next low =>
    have clear : f.getLsbD (len - 1) = false := Nat.testBit_lt_two_pow low
    rw [clear, BitVec.ofInt_natCast]
    simp
  · next high =>
    have set : f.getLsbD (len - 1) = true := Nat.testBit_of_two_pow_le_and_two_pow_add_one_gt (by omega) (by rwa [Nat.sub_add_cancel pos])
    rw [set, if_pos rfl, or_not_lowMask small]
    norm_cast

theorem bfxWord_eq (a b : Word) {len : Nat} {f : Word} (hl : len = min (b.toNat / 32 % 64) 32) (hf : f = (a >>> (b.toNat % 32)) &&& BitVec.ofNat 32 (2 ^ len - 1)) :
    bfxWord a b = if b.getLsbD 11 ∧ 0 < len ∧ f.getLsbD (len - 1) then f ||| ~~~(BitVec.ofNat 32 (2 ^ len - 1)) else f := by
  have value : f.toNat = a.toNat / 2 ^ bfPos b % 2 ^ len := hf ▸ field_toNat a _ (hl ▸ min_le_right ..)
  have small : f.toNat < 2 ^ len := value ▸ Nat.mod_lt _ (Nat.two_pow_pos len)
  rw [bfxWord, bfLen_eq, ← hl, ← value]
  by_cases signed : b.getLsbD 11 = true ∧ 0 < len
  · rw [if_pos signed, toSigned_field signed.2 small]
    simp only [signed, true_and]
  · rw [if_neg signed, if_neg fun all => signed ⟨all.1, all.2.1⟩, BitVec.ofNat_toNat, BitVec.setWidth_eq]

theorem bfiWord_eq (a b d : Word) : bfiWord a b d =
    (let mask : Word := BitVec.ofNat 32 (2 ^ (min (b.toNat / 32 % 64) 32) - 1) <<< (b.toNat % 32)
     (d &&& ~~~mask) ||| ((a <<< (b.toNat % 32)) &&& mask)) := by
  have mask : BitVec.ofNat 32 ((2 ^ bfLen b - 1) * 2 ^ bfPos b) = BitVec.ofNat 32 (2 ^ bfLen b - 1) <<< bfPos b :=
    BitVec.eq_of_toNat_eq (by simp [Nat.shiftLeft_eq, Nat.mod_mul_mod])
  rw [bfiWord, mask]; rfl

/-! Dot products. -/

section
variable {M : Type} [AddMonoid M] (f : Nat → M)

theorem sum_range_two : ((List.range 2).map f).foldl (· + ·) 0 = f 0 + f 1 := congrArg (· + f 1) (zero_add (f 0))
theorem sum_range_four : ((List.range 4).map f).foldl (· + ·) 0 = f 0 + f 1 + f 2 + f 3 := congrArg (· + f 1 + f 2 + f 3) (zero_add (f 0))

end

theorem idot4S_eq (a b d : Word) :
    let byte := fun (w : Word) (i : Nat) => ((w >>> (8 * i)).setWidth 8).toInt
    idot4S a b d = BitVec.ofInt 32 (max (-2147483648) (min 2147483647 (d.toInt + byte a 0 * byte b 0 + byte a 1 * byte b 1 + byte a 2 * byte b 2 + byte a 3 * byte b 3))) := by
  intro byte
  rw [idot4S, satS32_eq, sum_range_four]
  simp only [byteOf_eq, ← add_assoc, byte]

theorem idot4N_eq (a b d : Word) :
    let byte := fun (w : Word) (i : Nat) => (((w >>> (8 * i)).setWidth 8).toNat : Int)
    idot4N a b d = BitVec.ofInt 32 (max 0 (min 4294967295 (d.toNat + byte a 0 * byte b 0 + byte a 1 * byte b 1 + byte a 2 * byte b 2 + byte a 3 * byte b 3))) := by
  intro byte
  rw [idot4N, satN32_eq, sum_range_four]
  simp only [byteOf_eq, Nat.cast_add, Nat.cast_mul, ← add_assoc, byte]

theorem idot2S_eq (a b d : Word) :
    let half := fun (w : Word) (i : Nat) => ((w >>> (16 * i)).setWidth 16).toInt
    idot2S a b d = BitVec.ofInt 32 (max (-2147483648) (min 2147483647 (d.toInt + half a 0 * half b 0 + half a 1 * half b 1))) := by
  intro half
  rw [idot2S, satS32_eq, sum_range_two]
  simp only [halfOf_eq, ← add_assoc, half]

/-! Comparisons. -/

theorem bne_eq_decide_ne (a b : Word) : (a != b) = decide (a ≠ b) := by simp [bne, beq_eq_decide]

theorem boolWord_beq (a b : Word) : boolWord (a == b) = if a = b then 1 else 0 := by simp only [boolWord, beq_iff_eq]
theorem boolWord_bne (a b : Word) : boolWord (a != b) = if a ≠ b then 1 else 0 := by simp only [boolWord, bne_iff_ne]
theorem boolWord_slt (a b : Word) : boolWord (a.slt b) = if a.toInt < b.toInt then 1 else 0 := by simp only [boolWord, BitVec.slt_iff_toInt_lt]
theorem boolWord_sle (a b : Word) : boolWord (a.sle b) = if a.toInt ≤ b.toInt then 1 else 0 := by simp only [boolWord, BitVec.sle_iff_toInt_le]
theorem boolWord_ult (a b : Word) : boolWord (a.ult b) = if a.toNat < b.toNat then 1 else 0 := by simp only [boolWord, BitVec.ult_iff_lt, BitVec.lt_def]
theorem boolWord_ule (a b : Word) : boolWord (a.ule b) = if a.toNat ≤ b.toNat then 1 else 0 := by simp only [boolWord, BitVec.ule_iff_le, BitVec.le_def]

/-- A comparison of FP32 patterns holds for the orders that it names, and for none where a NaN takes part (R210). -/
theorem boolWord_fcmp (p : Ordering → Bool) (a b : Nat) : boolWord (fcmp p a b) = if ∃ o, (fp32.decode a).cmp (fp32.decode b) = some o ∧ p o = true then 1 else 0 := by
  unfold boolWord fcmp
  cases (fp32.decode a).cmp (fp32.decode b) with
  | none => exact if_congr (by simp) rfl rfl
  | some o => exact if_congr (by simp) rfl rfl

theorem fcmp_eq (a b : Nat) : boolWord (fcmp (· == .eq) a b) = if (fp32.decode a).cmp (fp32.decode b) = some .eq then 1 else 0 := by
  rw [boolWord_fcmp]; simp
theorem fcmp_lt (a b : Nat) : boolWord (fcmp (· == .lt) a b) = if (fp32.decode a).cmp (fp32.decode b) = some .lt then 1 else 0 := by
  rw [boolWord_fcmp]; simp
theorem fcmp_le (a b : Nat) : boolWord (fcmp (· != .gt) a b) =
    if (fp32.decode a).cmp (fp32.decode b) = some .lt ∨ (fp32.decode a).cmp (fp32.decode b) = some .eq then 1 else 0 := by
  rw [boolWord_fcmp]
  refine if_congr ⟨?_, ?_⟩ rfl rfl
  · rintro ⟨o, order, le⟩
    cases o with
    | lt => exact .inl order
    | eq => exact .inr order
    | gt => cases le
  · rintro (lt | eq)
    · exact ⟨_, lt, rfl⟩
    · exact ⟨_, eq, rfl⟩

end Sys2Proof.Machine
end

section
/-! SUPPORT. A lane or uniform instruction of one result word completes with whatever function of its sources its own is (R42, R201). -/

namespace Sys2Proof.Machine

section
variable {s : State} {x : Ex} {srcs : List Src} {n : BitVec 1} {d : BitVec 8} {m : Mach}

theorem laneOp_computes (hx : s.ex? = some x) (ready : WordReady s x false srcs (nwOf n) d 1 m) {f g : List DWord → Word} (same : ∀ v, f v = g v) :
    LaneResult s x srcs n d g (laneOp s srcs n d f) := funext same ▸ laneOp_result hx ready f

theorem uniOp_computes (hx : s.ex? = some x) (ready : WordReady s x true srcs (nwOf n) d 1 m) {f g : List DWord → Word} (same : ∀ v, f v = g v) :
    UniformResult s x srcs n d g (uniOp s srcs n d f) := funext same ▸ uniOp_result hx ready f

/-- A register instruction none of whose lanes can fault gives each lane its result. -/
theorem regOp_results (hx : s.ex? = some x) (ready : WordReady s x false srcs (nwOf n) d 1 m) {f : (Nat → List DWord) → Nat → Word} {g : Nat → Word}
    (same : ∀ l, f (operands s x srcs) l = g l) : LaneResults s x srcs n d g (.next (s.withM (regOp s.m x false srcs (nwOf n) d 1 true (fun vals l => .ok [f vals l])))) := by
  obtain ⟨y, delivered, latches⟩ := regOp_done hx (latch := true) (f := fun vals l => .ok [f vals l]) ready (laneFaults_ok ..)
  rw [← funext same]
  exact ⟨_, y, rfl, delivered, latches⟩

/-- A register instruction that fills no latch, and none of whose lanes can fault, delivers what it makes of each lane's sources. -/
theorem regOp_delivers (hx : s.ex? = some x) {count : Nat} (ready : WordReady s x false srcs false d count m) (f : List DWord → List Word) :
    ∃ y, Delivered s x (s.withM (regOp s.m x false srcs false d count false (fun vals l => .ok (f (vals l))))) y (.same s x) srcs false d count (fun l => f (operands s x srcs l))
      ∧ y.r.latches = x.r.latches := by
  obtain ⟨y, delivered, latches⟩ := regOp_done hx (latch := false) (f := fun vals l => .ok (f (vals l))) ready (laneFaults_ok ..)
  exact ⟨y, delivered, latches⟩

end

/-- The 64-bit sum of a pair and an extended word is delivered to a pair, and no latch is filled (R205). -/
theorem pairAdd_delivers {s : State} {x : Ex} (hx : s.ex? = some x) {d a b : BitVec 8} {m : Mach} (ready : WordReady s x false [srcW a, srcI b] false d 2 m) (ext : Word → DWord) :
    ∃ t y, pairAdd s d a b ext = .next t
      ∧ Delivered s x t y (.same s x) [srcW a, srcI b] false d 2 (fun l =>
          let v := operands s x [srcW a, srcI b] l
          let r : DWord := argPair v 0 + ext (arg v 1)
          [r.setWidth 32, (r >>> 32).setWidth 32])
      ∧ y.r.latches = x.r.latches := by
  obtain ⟨y, delivered, latches⟩ := regOp_delivers hx ready (fun v => [DWord.lo (argPair v 0 + ext (arg v 1)), DWord.hi (argPair v 0 + ext (arg v 1))])
  exact ⟨_, y, onWord_next hx _, delivered, latches⟩

end Sys2Proof.Machine
end

section
namespace Sys2Proof.Machine

/-- Settles O1: `laneOp_computes` with what each integer function comes to, and `pairAdd_delivers` for the 64-bit adds. -/
theorem integerArithmetic : Obligations.IntegerArithmetic := by
  refine ⟨fun s x n d a b m hx => ⟨fun ready => ?_, fun ready => ?_, fun ready => ?_, ?_⟩, fun s x n d a m hx => ⟨fun ready => ?_, fun ready => ?_⟩⟩
  · simp only [exec_iadd, exec_isub, exec_imul, exec_imulhS32, exec_imulhN32, execIadd, execIsub, execImul, execImulhS32, execImulhN32, lane2]
    exact ⟨laneOp_computes hx ready fun v => add_eq_ofNat .., laneOp_computes hx ready fun v => sub_eq_ofInt .., laneOp_computes hx ready fun v => mul_eq_ofNat ..,
      laneOp_computes hx ready fun v => rfl, laneOp_computes hx ready fun v => rfl⟩
  · simp only [exec_imad, execImad, lane3]
    exact laneOp_computes hx ready fun v => mul_add_eq_ofNat ..
  · simp only [exec_iaddS64, exec_iaddN64, execIaddS64, execIaddN64]
    exact ⟨pairAdd_delivers hx ready _, pairAdd_delivers hx ready _⟩
  · decide
  · simp only [exec_imin, exec_imax, execImin, execImax]
    exact ⟨laneOp_computes hx ready fun v => minS_eq .., laneOp_computes hx ready fun v => minN_eq .., laneOp_computes hx ready fun v => maxS_eq ..,
      laneOp_computes hx ready fun v => maxN_eq ..⟩
  · simp only [exec_iabsS32, exec_clz, exec_popc, exec_brev, exec_satn, execIabsS32, execClz, execPopc, execBrev, execSatn, lane1]
    exact ⟨laneOp_computes hx ready fun v => absS_eq _, laneOp_computes hx ready fun v => clzWord_eq _, laneOp_computes hx ready fun v => rfl, laneOp_computes hx ready fun v => brevWord_eq _,
      laneOp_computes hx ready fun v => (satnWord_eq _).1, laneOp_computes hx ready fun v => (satnWord_eq _).2.1, laneOp_computes hx ready fun v => (satnWord_eq _).2.2.1,
      laneOp_computes hx ready fun v => (satnWord_eq _).2.2.2⟩

/-- Settles O2: the four or two products of an index range written out, and the one saturation. -/
theorem dotProductsSaturateOnce : Obligations.DotProductsSaturateOnce := by
  refine ⟨fun s x n d a b m hx ready => ?_, by decide⟩
  simp only [exec_idot4S8, exec_idot4N8, exec_idot2S16, execIdot4S8, execIdot4N8, execIdot2S16, lane3]
  exact ⟨laneOp_computes hx ready fun v => idot4S_eq .., laneOp_computes hx ready fun v => idot4N_eq .., laneOp_computes hx ready fun v => idot2S_eq ..⟩

/-- Settles O4: `laneOp_computes` with what the shifts and the bit fields come to. -/
theorem logicShiftsAndFields : Obligations.LogicShiftsAndFields := by
  refine ⟨fun s x n d a b m hx => ⟨fun ready => ?_, fun ready => ?_⟩, by decide, by decide⟩
  · simp only [exec_and, exec_or, exec_xor, exec_andn, exec_shl, exec_shr, exec_sar, exec_bfx, execAnd, execOr, execXor, execAndn, execShl, execShr, execSar, execBfx, lane2]
    exact ⟨laneOp_computes hx ready fun v => rfl, laneOp_computes hx ready fun v => rfl, laneOp_computes hx ready fun v => rfl, laneOp_computes hx ready fun v => rfl,
      laneOp_computes hx ready fun v => shlWord_eq .., laneOp_computes hx ready fun v => shrWord_eq .., laneOp_computes hx ready fun v => sarWord_eq ..,
      laneOp_computes hx ready fun v => bfxWord_eq _ _ rfl rfl⟩
  · simp only [exec_fshl, exec_fshr, exec_bfi, execFshl, execFshr, execBfi, lane3]
    exact ⟨laneOp_computes hx ready fun v => fshlWord_eq .., laneOp_computes hx ready fun v => fshrWord_eq .., laneOp_computes hx ready fun v => bfiWord_eq ..⟩

/-- Settles O5: `laneOp_computes` with what the comparisons come to. -/
theorem compareSelectConstants : Obligations.CompareSelectConstants := by
  refine ⟨fun s x n d a b i m hx => ⟨fun ready => ?_, fun ready => ?_, fun ready => ?_, fun ready => ?_, fun ready => ?_⟩, by decide, by decide, by decide, by decide⟩
  · simp only [exec_icmpEq, exec_icmpNe, exec_icmpLtS32, exec_icmpLeS32, exec_icmpLtN32, exec_icmpLeN32, execIcmpEq, execIcmpNe, execIcmpLtS32, execIcmpLeS32, execIcmpLtN32, execIcmpLeN32, lane2]
    exact ⟨laneOp_computes hx ready fun v => boolWord_beq .., laneOp_computes hx ready fun v => boolWord_bne .., laneOp_computes hx ready fun v => boolWord_slt ..,
      laneOp_computes hx ready fun v => boolWord_sle .., laneOp_computes hx ready fun v => boolWord_ult .., laneOp_computes hx ready fun v => boolWord_ule ..⟩
  · simp only [exec_fcmpEqF, exec_fcmpLtF, exec_fcmpLeF, execFcmpEqF, execFcmpLtF, execFcmpLeF, floatCompare]
    exact ⟨laneOp_computes hx ready fun v => fcmp_eq .., laneOp_computes hx ready fun v => fcmp_lt .., laneOp_computes hx ready fun v => fcmp_le ..⟩
  · simp only [exec_sel, execSel, lane3]
    exact laneOp_computes hx ready fun v => rfl
  · simp only [exec_movi, execMovi]
    exact laneOp_computes hx ready fun v => rfl
  · simp only [exec_hiw, execHiw]
    exact laneOp_computes hx ready fun v => hiwWord_eq ..

/-- Settles O13: `uniOp_computes` with what the same word functions come to as in the lane counterparts. -/
theorem uniformAlu : Obligations.UniformAlu := by
  intro s x n d a b i m hx one
  refine ⟨fun ready => ?_, fun ready => ?_, fun ready => ?_, fun ready => ?_, fun ready => ?_⟩
  · simp only [exec_uadd, exec_usub, exec_umul, exec_uand, exec_uor, exec_uxor, exec_ushl, exec_ushr, exec_ucmpEq, exec_ucmpNe, exec_ucmpLtS32, exec_ucmpLeS32, exec_ucmpLtN32, exec_ucmpLeN32, execUadd, execUsub, execUmul, execUand, execUor, execUxor, execUshl, execUshr, execUcmpEq, execUcmpNe, execUcmpLtS32, execUcmpLeS32, execUcmpLtN32, execUcmpLeN32, uni2]
    exact ⟨uniOp_computes hx ready fun v => rfl, uniOp_computes hx ready fun v => rfl, uniOp_computes hx ready fun v => rfl, uniOp_computes hx ready fun v => rfl,
      uniOp_computes hx ready fun v => rfl, uniOp_computes hx ready fun v => rfl, uniOp_computes hx ready fun v => shlWord_eq .., uniOp_computes hx ready fun v => shrWord_eq ..,
      uniOp_computes hx ready fun v => rfl, uniOp_computes hx ready fun v => congrArg boolWord (bne_eq_decide_ne ..), uniOp_computes hx ready fun v => rfl, uniOp_computes hx ready fun v => rfl,
      uniOp_computes hx ready fun v => rfl, uniOp_computes hx ready fun v => rfl⟩
  · simp only [exec_umad, exec_usel, execUmad, execUsel, uni3]
    exact ⟨uniOp_computes hx ready fun v => rfl, uniOp_computes hx ready fun v => rfl⟩
  · simp only [exec_umov, execUmov]
    exact uniOp_computes hx ready fun v => rfl
  · simp only [exec_umovi, execUmovi]
    exact uniOp_computes hx ready fun v => rfl
  · simp only [exec_uhiw, execUhiw]
    exact uniOp_computes hx ready fun v => hiwWord_eq ..

end Sys2Proof.Machine
end

section
/-! SUPPORT. What `TSWEEP` comes to once its records are read and the warp's stores performed (R235 to R237). -/

namespace Sys2Proof.Machine

/-! The records and their elements. -/

theorem sweepBytes_eq (t : Nat) : sweepBytes t = if t = 0 ∨ t = 3 ∨ t = 4 then 4 else if t = 1 ∨ t = 2 then 2 else 1 := by
  unfold sweepBytes; split <;> simp_all

theorem peerCore_csel (core : Nat) (r : SweepRec) : peerCore core r.csel = core / 8 * 8 + r.csel := by
  have low : r.csel < 8 := Nat.mod_lt _ (by decide)
  rw [peerCore, Nat.mod_eq_of_lt low]

section
variable {r : SweepRec} {i0 i1 i2 : Nat}

/-- An index in the extents is the next element itself. -/
theorem sweepFrom_inside (h0 : i0 < r.ext 0) (h1 : i1 < r.ext 1) (h2 : i2 < r.ext 2) : sweepFrom r i0 i1 i2 = some [i0, i1, i2] := by
  rw [sweepFrom, if_neg (by omega), if_pos ⟨h2, h1, h0⟩]

/-- After an element comes the next of its row, the next row's first, or the next plane's first. -/
theorem sweepFrom_next (h0 : i0 < r.ext 0) (h1 : i1 < r.ext 1) (h2 : i2 < r.ext 2) : sweepFrom r (i0 + 1) i1 i2 =
    if i0 + 1 < r.ext 0 then some [i0 + 1, i1, i2] else if i1 + 1 < r.ext 1 then some [0, i1 + 1, i2] else if i2 + 1 < r.ext 2 then some [0, 0, i2 + 1] else none := by
  rw [sweepFrom, if_neg (by omega)]
  simp only [h1, h2, true_and]

theorem sweepFrom_empty (empty : r.ext 0 * r.ext 1 * r.ext 2 = 0) : sweepFrom r 0 0 0 = none := by
  simp only [Nat.mul_eq_zero] at empty
  unfold sweepFrom
  rw [ite_eq_left_iff]
  intro
  rw [if_neg (by omega), if_neg (by omega), if_neg (by omega)]

end

/-! One element. -/

/-- A space without an arrival round reads as it stands, and nothing moves. -/
theorem spadRead_clear {m : Mach} {ctx core : Nat} (off n : Nat) (clear : (m.ctxCore ctx core).rounds = []) :
    spadRead m ctx core off n = (readBytes (m.ctxCore ctx core).spad off n, m) := by
  cases n with
  | zero => rfl
  | succ n => simp only [spadRead, clear, List.any_nil, Bool.false_eq_true, if_false]

/-- An element over spaces without poison or arrival round: both operands are read, and the result is written in the destination's place. -/
theorem sweepElement_writes {m : Mach} {x : Ex} {op t : Nat} {d a : SweepRec} {i : List Nat}
    (clear : ∀ c, (m.ctxCore x.w.ctx c).poisoned = [] ∧ (m.ctxCore x.w.ctx c).rounds = []) {n : Nat} (size : n = sweepBytes t) :
    let read := fun (r : SweepRec) => bytesToNat (readBytes (m.ctxCore x.w.ctx (x.core / 8 * 8 + r.csel)).spad (r.elem i) n)
    sweepElement m x op t d a i = some (spadWrite m x.w.ctx (x.core / 8 * 8 + d.csel) (d.elem i) (natToBytes n (sweepOp op t (read d) (read a)))) := by
  intro read
  have sound : ∀ c off k, spadPoisoned (m.ctxCore x.w.ctx c) off k = false := fun c off k => by rw [spadPoisoned, (clear c).1]; rfl
  simp only [sweepElement, sound, Bool.or_self, Bool.false_eq_true, if_false, spadRead_clear _ _ (clear _).2, peerCore_csel, ← size, read]

/-- The bytes of a context's spaces after a write to one of them, and all else of them as it was. -/
theorem spadWrite_clear {m : Mach} {ctx core off : Nat} {bs : List Byte} (clear : (m.ctxCore ctx core).poisoned = [] ∧ (m.ctxCore ctx core).rounds = []) (c : Nat) :
    (∀ k, readByte ((spadWrite m ctx core off bs).ctxCore ctx c).spad k = if c = core ∧ off ≤ k ∧ k < off + bs.length then bs.getD (k - off) 0 else readByte (m.ctxCore ctx c).spad k)
      ∧ { (spadWrite m ctx core off bs).ctxCore ctx c with spad := [] } = { m.ctxCore ctx c with spad := [] } := by
  rw [spadWrite_eq, ctxCore_setCtxCore]
  split
  · next same =>
    subst same
    refine ⟨fun k => ?_, ?_⟩
    · rw [readByte_wrote (fun i _ => by rw [clear.2]; rfl)]
      simp only [true_and]
    · simp only [CtxCore.wrote, clear.1, List.filter_nil]
  · next other => exact ⟨fun k => (if_neg fun inside => other inside.1).symm, rfl⟩

/-! The word. -/

section
variable {s : State} {x : Ex} {d a : BitVec 8} {o : BitVec 5} {t : BitVec 3}

/-- The registers that a sweep's two records stand in (R232). -/
abbrev sweepRegs (d a : BitVec 8) : List Nat := (List.range 4).map (· + d.toNat) ++ (List.range 4).map (· + a.toNat)

theorem tsweep_rejected (hx : s.ex? = some x) (ready : srcReady s.m x true [] (sweepRegs d a) = .go) (done : drained s.m x.w.uid = true) {f : FaultInfo}
    (bad : sweepReject s.m x t.toNat (sweepRec x.w d.toNat x.low) (sweepRec x.w a.toNat x.low) = some f) :
    exec (.tsweep d a o t) s = .next (s.withM (deliverAll s.m (x.sweepAt x.sweepSaved false) f)) := by
  rw [exec_tsweep, execTsweep, onWord_next hx]
  simp only [ready, done, bad, Bool.not_true, Bool.false_eq_true, if_false]

theorem tsweep_over (hx : s.ex? = some x) (ready : srcReady s.m x true [] (sweepRegs d a) = .go) (done : drained s.m x.w.uid = true)
    (good : sweepReject s.m x t.toNat (sweepRec x.w d.toNat x.low) (sweepRec x.w a.toNat x.low) = none) {i0 i1 i2 : Nat} (start : x.sweepSaved.getD [0, 0, 0] = [i0, i1, i2])
    (past : sweepFrom (sweepRec x.w d.toNat x.low) i0 i1 i2 = none) :
    exec (.tsweep d a o t) s = .next (s.withM (s.m.advance (x.sweepAt none false))) := by
  rw [exec_tsweep, execTsweep, onWord_next hx]
  simp only [ready, done, good, start, Bool.not_true, Bool.false_eq_true, if_false, List.getD_cons_zero, List.getD_cons_succ, past]

/-- A sweep after an element: held at its next index, or over. -/
def Ex.sweepOn (x : Ex) (m : Mach) : Option (List Nat) → Mach
  | some j => m.hold (x.sweepAt (some j) true) .sweeping
  | none => m.advance (x.sweepAt none false)

theorem tsweep_element (hx : s.ex? = some x) (ready : srcReady s.m x true [] (sweepRegs d a) = .go) (done : drained s.m x.w.uid = true)
    (good : sweepReject s.m x t.toNat (sweepRec x.w d.toNat x.low) (sweepRec x.w a.toNat x.low) = none) {i0 i1 i2 : Nat} (start : x.sweepSaved.getD [0, 0, 0] = [i0, i1, i2])
    (here : sweepFrom (sweepRec x.w d.toNat x.low) i0 i1 i2 = some [i0, i1, i2])
    (free : tileHeld s.m x (peerCore x.core (sweepRec x.w d.toNat x.low).csel) ((sweepRec x.w d.toNat x.low).elem [i0, i1, i2]) (sweepBytes t.toNat) = false) {m : Mach}
    (element : sweepElement s.m x o.toNat t.toNat (sweepRec x.w d.toNat x.low) (sweepRec x.w a.toNat x.low) [i0, i1, i2] = some m) :
    exec (.tsweep d a o t) s = .next (s.withM (x.sweepOn m (sweepFrom (sweepRec x.w d.toNat x.low) (i0 + 1) i1 i2))) := by
  rw [exec_tsweep, execTsweep, onWord_next hx]
  simp only [ready, done, good, start, Bool.not_true, Bool.false_eq_true, if_false, List.getD_cons_zero, List.getD_cons_succ, here, free, element]
  cases sweepFrom (sweepRec x.w d.toNat x.low) (i0 + 1) i1 i2 <;> rfl

/-- A sweep without a saved index has nothing to forget. -/
theorem sweepAt_none (fresh : x.w.sweep = none) (go : Bool) : x.sweepAt none go = x := by
  unfold Ex.sweepAt
  rw [Option.map_none, ← fresh]

/-- The end of a sweep: the saved index is gone, and nothing else of the word has changed. -/
theorem sweep_finishes (hx : s.ex? = some x) {m : Mach} (beside : m = { s.m with ctxCores := m.ctxCores }) :
    ∃ y, WordRuns s x (s.withM (m.advance (x.sweepAt none false))) y { Rest.same s x with w := { x.w with sweep := none } } ∧ FlowKept x y ∧ RegsKept x y ∧ y.r.latches = x.r.latches := by
  obtain ⟨boxes, rfl⟩ : ∃ boxes, m = { s.m with ctxCores := boxes } := ⟨_, beside⟩
  have ends : WordEnd s x s.m (x.sweepAt none false) := { WordEnd.same s x with groups := ⟨rfl, rfl⟩, run := rfl, group := rfl, place := ⟨rfl, rfl, rfl, rfl⟩ }
  exact ⟨_, wordRuns_congr (wordRuns_of hx ends) rfl rfl rfl, { nextPc := rfl, depth := ⟨rfl, rfl⟩ }, fun _ _ _ => regLane_finished .., rfl⟩

/-- A sweep that goes on holds its group, at its next index. -/
theorem sweep_holds (hx : s.ex? = some x) {m : Mach} (cur : m.cur = s.m.cur) (j : List Nat) :
    ∃ y, (s.withM (m.hold (x.sweepAt (some j) true) .sweeping)).ex? = some y ∧ y.r = { x.r with wait := .sweeping } ∧ RegsKept x y ∧ y.w.sweep = some (x.pc, j, x.g.lanes) := by
  obtain ⟨here, -, there, -⟩ := ex?_some hx
  let v : Ex := { x.sweepAt (some j) true with r := { x.r with wait := .sweeping } }
  refine ⟨v.settled, ex?_put (z := v) (by rw [cur, here]; rfl) (List.getElem?_eq_some_iff.mp there).1, rfl, fun r l _ => regLane_warp v r l, ?_⟩
  exact congrArg Warp.sweep (warpRest_warp v)

end

end Sys2Proof.Machine
end

section
namespace Sys2Proof.Machine

/-- Settles O42: a sweep's word rejected, over, or at an element (`tsweep_rejected`, `tsweep_over`, `tsweep_element`), then ended or held (`sweep_finishes`, `sweep_holds`). -/
theorem tileSweeps : Obligations.TileSweeps := by
  intro s x d a o t hx dr ar start core n finished ready done
  have saved : x.sweepSaved.getD [0, 0, 0] = start := by
    simp only [start, Ex.sweepSaved]
    cases x.w.sweep with
    | none => rfl
    | some e =>
      dsimp only
      split <;> rfl
  refine ⟨fun f bad plain fresh => ?_, fun good empty first => ?_, fun i0 i1 i2 good first h0 h1 h2 => ?_⟩
  · have forgotten : x.sweepSaved = none := by simp only [Ex.sweepSaved, fresh]
    rw [tsweep_rejected hx ready done bad, forgotten, sweepAt_none fresh]
    exact ⟨_, rfl, deliverAll_parks plain f⟩
  · obtain ⟨y, ends⟩ := sweep_finishes hx (m := s.m) rfl
    exact ⟨_, y, tsweep_over hx ready done good (saved.trans first) (sweepFrom_empty empty), ends, rfl⟩
  · intro i clear free read result next
    have size : n = sweepBytes t.toNat := (sweepBytes_eq _).symm
    have run := tsweep_element (o := o) hx ready done good (saved.trans first) (sweepFrom_inside h0 h1 h2) (by rw [peerCore_csel, ← size]; exact free) (sweepElement_writes clear size)
    have written := spadWrite_clear (off := dr.elem i) (bs := natToBytes n result) (clear (core dr))
    rw [length_natToBytes] at written
    have follows : sweepFrom dr (i0 + 1) i1 i2 = next := sweepFrom_next h0 h1 h2
    rw [follows] at run
    cases last : next with
    | none =>
      rw [last] at run
      obtain ⟨y, ends⟩ := sweep_finishes hx (m := spadWrite s.m x.w.ctx (core dr) (dr.elem i) (natToBytes n result)) rfl
      exact ⟨_, y, run, fun c => (written c).1, fun c => (written c).2, fun _ => ends, fun j other => nomatch other⟩
    | some j =>
      rw [last] at run
      obtain ⟨y, here, waits, regs, index⟩ := sweep_holds hx (m := spadWrite s.m x.w.ctx (core dr) (dr.elem i) (natToBytes n result)) rfl j
      refine ⟨_, y, run, fun c => (written c).1, fun c => (written c).2, fun other => (nomatch other), fun k same => ?_⟩
      cases same
      exact ⟨here, waits, regs, index, rfl⟩

end Sys2Proof.Machine
end

section
/-! SUPPORT. `MOV` from a queue to a register: the queue-fed load (R187, R195, R207). -/

namespace Sys2Proof.Machine

section
variable {s : State} {x : Ex} {d a : BitVec 8} {m : Mach}

/-- The pending result of a queue-fed load (R187, R195). -/
def fedPend (x : Ex) (d a : BitVec 8) (id : Nat) : Pend :=
  { id := id, kind := .queueFed (a.toNat - 0x88), lanes := x.g.lanes, reg := d.toNat, count := 1, vals := [], pc := x.pc, run := x.r.pos, addrs := [], sync := false }

theorem queueFedMov_go (bound : ((boxOf s x).queues.getD (a.toNat - 0x88) .fresh).kind ≠ 0) (room : regsReady s.m x d.toNat 1 = .go m) :
    queueFedMov s d a x = ({ m with nextId := m.nextId + 1 } : Mach).advance { x with w := { x.w with pends := x.w.pends ++ [fedPend x d a m.nextId] } } := by
  have bound' : ((s.m.ctxCore x.w.ctx x.core).queues.getD (a.toNat - 0x88) .fresh).kind ≠ 0 := bound
  simp only [queueFedMov, bound', if_false, room]
  rfl

/-- A word whose effect is a pending result of its own, the next identity taken, and the room made. -/
theorem SpillsOnly.pend_done {p : Pend} (hx : s.ex? = some x) (sp : SpillsOnly s.m m x.core x.pos) :
    ∃ y, WordDone s x (s.withM (({ m with nextId := m.nextId + 1 } : Mach).advance { x with w := { x.w with pends := x.w.pends ++ [p] } })) y
        { Rest.same s x with m := { s.m with nextId := s.m.nextId + 1 }, w := { x.w with pends := x.w.pends ++ [p] } }
      ∧ FlowKept x y ∧ RegsKept x y ∧ y.r.latches = x.r.latches := by
  have ends : WordEnd s x { m with nextId := m.nextId + 1 } { x with w := { x.w with pends := x.w.pends ++ [p] } } :=
    { cur := sp.cur, place := ⟨rfl, rfl, rfl, rfl⟩, groups := ⟨rfl, rfl⟩, run := rfl, group := rfl, cores := sp.cores, others := sp.others, boxes := fun k _ => by rw [sp.boxes] }
  have below := congrArg (fun m : Mach => { m with nextId := m.nextId + 1 }) sp.below
  exact ⟨_, wordDone_congr (wordDone_of hx ends) below sp.rest rfl (sp.box ..), { nextPc := rfl, depth := ⟨rfl, rfl⟩ }, fun _ _ _ => regLane_finished .., rfl⟩

end

end Sys2Proof.Machine
end

section
namespace Sys2Proof.Machine

/-- Settles O3: the lane instruction of one source where that is no queue, and for a queue `regOp_delivers` or the pending result of `queueFedMov_go`. -/
theorem moveAndQueueFedLoad : Obligations.MoveAndQueueFedLoad := by
  intro s x n d a m hx
  refine ⟨fun plain ready => ?_, fun queue other ready => ?_, fun queue reg bound room => ?_⟩
  · rw [exec_mov, execMov, plain]
    exact laneOp_result hx ready _
  · obtain ⟨y, delivered, latches⟩ := regOp_delivers hx ready (fun v => [arg v 0])
    refine ⟨_, y, ?_, delivered, latches⟩
    simp only [exec_mov, execMov, queue, other, if_true, onWord_next hx, Bool.false_eq_true, if_false]
  · obtain ⟨y, done, flow, regs, latches⟩ := (regsReady_spills room).pend_done (p := fedPend x d a m.nextId) hx
    refine ⟨_, y, fedPend x d a m.nextId, ?_, done, flow, regs, latches, rfl, rfl, rfl, rfl, rfl⟩
    simp only [exec_mov, execMov, queue, reg, if_true, onWord_next hx, queueFedMov_go bound room]

end Sys2Proof.Machine
end

section
/-! SUPPORT. The conversions and classes by their codes (R67, R215, R216). -/

namespace Sys2Proof.Machine

theorem classKind_eq (t : BitVec 2) : classKind t.toNat = if t = 0 then .f32 else if t = 1 then .h16 else .b16 := by revert t; decide

theorem classWord_eq (t : BitVec 2) (a : Word) : classWord t.toNat a =
    BitVec.ofNat 32 (if t = 0 then fp32.classMask a.toNat else if t = 1 then fp16.classMask (a.toNat % 65536) else bf16.classMask (a.toNat % 65536)) := by
  simp only [BitVec.toNat_eq (x := t)]
  unfold classWord
  split <;> simp_all

theorem fcvtWord_eq (c : BitVec 5) (a : Word) : fcvtWord c.toNat a =
    (let w := a.toNat
     BitVec.ofInt 32 (if c = 0 then fp16.round (fp32.decode w) else if c = 1 then bf16.round (fp32.decode w) else if c = 2 then fp32.round (fp16.decode (w % 65536))
          else if c = 3 then fp32.round (bf16.decode (w % 65536)) else if c = 4 then fp16.round (bf16.decode (w % 65536)) else if c = 5 then bf16.round (fp16.decode (w % 65536))
          else if c = 6 then fp32.round (Fl.ofInt a.toInt) else if c = 7 then fp32.round (Fl.ofInt w)
          else if c = 8 then floatToInt (-2147483648) 2147483647 w else floatToInt 0 4294967295 w)) := by
  simp only [BitVec.toNat_eq (x := c)]
  unfold fcvtWord convertFloat
  split <;> simp_all [BitVec.ofInt_natCast]

end Sys2Proof.Machine
end

section
namespace Sys2Proof.Machine

/-- Settles O6: `laneOp_computes`; each operation of a form is the exact one of the decoded operands, rounded, and the codes of classes and conversions say which. -/
theorem scalarFloat : Obligations.ScalarFloat := by
  intro s x n d a b m hx F H f32 f16
  refine ⟨fun ready => ?_, fun ready => ?_, fun ready => ?_, fun ready => ?_, fun ready => ?_, fun q t source ready => ?_, fun q c source ready => ?_⟩
  · simp only [exec_faddF, exec_fsubF, exec_fmulF, execFaddF, execFsubF, execFmulF, floatOp]
    exact ⟨laneOp_computes hx ready fun v => rfl, laneOp_computes hx ready fun v => rfl, laneOp_computes hx ready fun v => rfl⟩
  · simp only [exec_faddH, exec_fsubH, exec_fmulH, execFaddH, execFsubH, execFmulH, halfOp]
    exact ⟨laneOp_computes hx ready fun v => rfl, laneOp_computes hx ready fun v => rfl, laneOp_computes hx ready fun v => rfl⟩
  · simp only [exec_fmaF, execFmaF]
    exact laneOp_computes hx ready fun v => rfl
  · simp only [exec_fmaH, execFmaH]
    exact laneOp_computes hx ready fun v => rfl
  · simp only [exec_fminF, exec_fmaxF, execFminF, execFmaxF]
    exact ⟨laneOp_computes hx ready fun v => rfl, laneOp_computes hx ready fun v => rfl⟩
  · simp only [exec_fclass, execFclass, classKind_eq, ← source]
    exact laneOp_computes hx ready fun v => classWord_eq ..
  · simp only [exec_fcvt, execFcvt, ← source]
    exact laneOp_computes hx ready fun v => fcvtWord_eq ..

/-- Settles O7: `laneOp_computes`; a special function's word is the function of the source's pattern, and a packed word is made half by half. -/
theorem specialFunctionsAndPackedPairs : Obligations.SpecialFunctionsAndPackedPairs := by
  refine ⟨fun s x n d a m hx ready => ?_, fun s x n d a b m hx => ?_⟩
  · intro r
    simp only [exec_frcpF, exec_frsqF, exec_fsqrtF, exec_fexp2F, exec_flog2F, exec_fsinF, exec_fcosF, exec_ftanhF, execFrcpF, execFrsqF, execFsqrtF, execFexp2F, execFlog2F, execFsinF, execFcosF, execFtanhF, sfuOp]
    exact ⟨laneOp_result hx ready _, laneOp_result hx ready _, laneOp_result hx ready _, laneOp_result hx ready _, laneOp_result hx ready _, laneOp_result hx ready _,
      laneOp_result hx ready _, laneOp_result hx ready _⟩
  · intro lo hi two
    refine ⟨fun ready => ?_, fun ready => ?_, fun ready => ?_, fun ready => ?_, fun ready => ?_, fun ready => ?_⟩
    · simp only [exec_paddH2, exec_pmulH2, execPaddH2, execPmulH2]
      exact ⟨laneOp_result hx ready _, laneOp_result hx ready _⟩
    · simp only [exec_paddB2, exec_pmulB2, execPaddB2, execPmulB2]
      exact ⟨laneOp_result hx ready _, laneOp_result hx ready _⟩
    · simp only [exec_pfmaH2, execPfmaH2]
      exact laneOp_result hx ready _
    · simp only [exec_pfmaB2, execPfmaB2]
      exact laneOp_result hx ready _
    · simp only [exec_pmin, exec_pmax, execPmin, execPmax]
      exact ⟨laneOp_result hx ready _, laneOp_result hx ready _⟩
    · simp only [exec_pmin, exec_pmax, execPmin, execPmax]
      exact ⟨laneOp_result hx ready _, laneOp_result hx ready _⟩

end Sys2Proof.Machine
end

section
/-! SUPPORT. Rounding to the nearest, ties to even (R16), and what `QSCL` comes to (R219). -/

namespace Sys2Proof.Machine

/-- `q` is an integer nearest to num/den, the even one where two are nearest. -/
def Nearest (q num : Int) (den : Nat) : Prop := 2 * (q * den - num) ≤ den ∧ -den ≤ 2 * (q * den - num) ∧ (2 * (q * den - num) = den ∨ 2 * (q * den - num) = -den → q % 2 = 0)

theorem Nearest.neg {q num : Int} {den : Nat} (h : Nearest q num den) : Nearest (-q) (-num) den := by
  obtain ⟨high, low, tie⟩ := h
  unfold Nearest
  rw [Int.neg_mul]
  exact ⟨by omega, by omega, fun half => by have := tie (by omega); omega⟩

theorem nearest_rneDiv (num : Nat) {den : Nat} (pos : 0 < den) : Nearest (rneDiv num den) num den := by
  have whole : (num : Int) = (num / den : Nat) * den + (num % den : Nat) := by exact_mod_cast (Nat.div_add_mod' num den).symm
  have rest : num % den < den := Nat.mod_lt _ pos
  unfold rneDiv Nearest
  dsimp only
  rw [whole]
  split
  · next up =>
    push_cast [Int.add_mul]
    exact ⟨by omega, by omega, fun half => by omega⟩
  · next down => exact ⟨by omega, by omega, fun half => by omega⟩

theorem nearest_rneInt (num : Int) {den : Nat} (pos : 0 < den) : Nearest (rneInt num den) num den := by
  have size := nearest_rneDiv num.natAbs pos
  unfold rneInt
  split
  · next neg =>
    have abs : (num.natAbs : Int) = -num := by omega
    rw [abs] at size
    simpa only [Int.neg_neg] using size.neg
  · next pos =>
    have abs : (num.natAbs : Int) = num := by omega
    rwa [abs] at size

/-- The scaled word is the nearest integer, saturated (R219). -/
theorem qsclWord_eq (a b : DWord) : qsclWord a b = BitVec.ofInt 32 (max (-2147483648) (min 2147483647 (rneInt (a.toInt * (b.setWidth 32).toInt) (2 ^ ((b >>> 32).toNat % 128))))) := by
  have high : b.hi.toNat = (b >>> 32).toNat := by
    rw [hi_toNat, BitVec.toNat_ushiftRight, Nat.shiftRight_eq_div_pow]
  rw [qsclWord, satS32_eq, high]
  rfl

end Sys2Proof.Machine
end

section
namespace Sys2Proof.Machine

/-- Settles O8: the quotient is `rneInt` of the exact product, which is nearest (`nearest_rneInt`). -/
theorem quantiseScale : Obligations.QuantiseScale := by
  refine ⟨fun s x n d a b m hx ready => ?_, by decide⟩
  rw [exec_qscl, execQscl]
  refine ⟨_, laneOp_result hx ready _, fun v => ⟨rneInt ((argPair v 0).toInt * ((argPair v 1).setWidth 32).toInt) (2 ^ ((argPair v 1 >>> 32).toNat % 128)), ?_⟩⟩
  obtain ⟨high, low, tie⟩ := nearest_rneInt ((argPair v 0).toInt * ((argPair v 1).setWidth 32).toInt) (Nat.two_pow_pos ((argPair v 1 >>> 32).toNat % 128))
  push_cast at high low tie
  exact ⟨high, low, tie, qsclWord_eq ..⟩

end Sys2Proof.Machine
end

section
/-! SUPPORT. The lane that an `LXCH` control word names (R224). -/

namespace Sys2Proof.Machine

/-- The number that a control word's mode and amount give for a lane, which may name no lane. -/
def lxchNumber (c l : Nat) : Int :=
  if c / 32 % 4 = 0 then (c : Int) % 32 else if c / 32 % 4 = 1 then ((l : Int) + (c : Int) % 32) % 32
  else if c / 32 % 4 = 2 then l + (if 16 ≤ (c : Int) % 32 then (c : Int) % 32 - 32 else (c : Int) % 32) else (l ^^^ c % 32 : Nat)

theorem lxchLane_eq (c : Word) (l : Nat) : lxchLane c l = if lxchNumber c.toNat l < 0 ∨ 31 < lxchNumber c.toNat l then none else some (lxchNumber c.toNat l).toNat := by
  have mode : natBits c.toNat 5 2 = c.toNat / 32 % 4 := rfl
  have amount : toSigned 5 (c.toNat % 32) = if 16 ≤ (c.toNat : Int) % 32 then (c.toNat : Int) % 32 - 32 else (c.toNat : Int) % 32 := by
    simp only [toSigned]; split <;> split <;> omega
  unfold lxchLane
  extract_lets amt k
  have number : k = lxchNumber c.toNat l := by
    simp only [k, amt, mode, amount, lxchNumber]
    split <;> simp_all
  rw [number]

theorem keepBit_eq (c : Word) : c.getLsbD 7 = decide (c.toNat / 128 % 2 = 1) := Nat.testBit_eq_decide_div_mod_eq

end Sys2Proof.Machine
end

section
namespace Sys2Proof.Machine

/-- Settles O10: `regOp_results`, the lane named by `lxchLane_eq`. -/
theorem laneExchange : Obligations.LaneExchange := by
  refine ⟨fun s x n d a b m hx ready => ?_, by decide⟩
  intro v
  rw [exec_lxch, execLxch, onWord_next hx]
  refine regOp_results hx ready fun l => ?_
  dsimp only
  rw [lxchLane_eq, keepBit_eq]
  change _ = if lxchNumber (arg (v l) 1).toNat l < 0 ∨ 31 < lxchNumber (arg (v l) 1).toNat l then _ else _
  by_cases out : lxchNumber (arg (v l) 1).toNat l < 0 ∨ 31 < lxchNumber (arg (v l) 1).toNat l
  · rw [if_pos out, if_pos out]
    simp only [decide_eq_true_eq]
    rfl
  · rw [if_neg out, if_neg out]
    rfl

end Sys2Proof.Machine
end

section
/-! SUPPORT. The present members of a mask, and the combining operations by their codes (R225, R227). -/

namespace Sys2Proof.Machine

/-- A mask's present members, in ascending order: named by it, active, and in their own masks (R225). -/
theorem present_eq (active : Word) (mask : Nat → Word) (own : Word) :
    present active mask own = (List.range 32).filter (fun k => inMask own k && inMask active k && inMask (mask k) k) := by
  rw [present, maskLanes, List.filter_filter]
  exact List.filter_congr fun k _ => by rw [Bool.and_comm, ← Bool.and_assoc]; rfl

theorem minS_sle (y z : Word) : minS y z = if y.sle z then y else z := if_congr BitVec.sle_iff_toInt_le.symm rfl rfl
theorem maxS_sle (y z : Word) : maxS y z = if y.sle z then z else y := if_congr BitVec.sle_iff_toInt_le.symm rfl rfl
theorem minN_ule (y z : Word) : minN y z = if y.ule z then y else z := if_congr BitVec.ule_iff_toNat_le.symm rfl rfl
theorem maxN_ule (y z : Word) : maxN y z = if y.ule z then z else y := if_congr BitVec.ule_iff_toNat_le.symm rfl rfl

/-- The combining operations in the order of their codes. -/
theorem combine_eq (y z : Word) : ∀ code ≤ 10, combine code y z =
    ([y + z, if y.sle z then y else z, if y.ule z then y else z, if y.sle z then z else y, if y.ule z then z else y, y &&& z, y ||| z, y ^^^ z,
      BitVec.ofNat 32 (fp32.add y.toNat z.toNat), BitVec.ofNat 32 (fp32.minmax false y.toNat z.toNat), BitVec.ofNat 32 (fp32.minmax true y.toNat z.toNat)] : List Word).getD code 0
  | 0, _ => rfl
  | 1, _ => minS_sle y z
  | 2, _ => minN_ule y z
  | 3, _ => maxS_sle y z
  | 4, _ => maxN_ule y z
  | 5, _ => rfl
  | 6, _ => rfl
  | 7, _ => rfl
  | 8, _ => rfl
  | 9, _ => rfl
  | 10, _ => rfl
  | code + 11, listed => by omega

theorem reduSrc_eq (code : Nat) (a : BitVec 8) : reduSrc code a = { spec := a, kind := if 8 ≤ code then .f32 else .int } := by
  unfold reduSrc; split <;> rfl

end Sys2Proof.Machine
end

section
namespace Sys2Proof.Machine

/-- Settles O12: `crossOp_of` over the present members, combined one at a time by the operation that the code names. -/
theorem reductionsAndScans : Obligations.ReductionsAndScans := by
  intro s x n d a c m hx listed q v mask members least op start total ready lanes own
  have op_eq : combine c.toNat = op := funext fun y => funext fun z => combine_eq y z _ listed
  have total_eq : ∀ vs, combineAll c.toNat vs = total vs := fun vs => by
    cases vs with
    | nil => rfl
    | cons w ws => rw [combineAll, op_eq]; rfl
  have there : ∀ l, present x.g.lanes mask (mask l) = members l := fun l => present_eq ..
  simp only [exec_redu, execRedu, exec_scan, execScan, reduSrc_eq, BitVec.reduceEq, if_false, if_true]
  refine ⟨crossOp_of hx ready lanes own fun l _ => ?_, crossOp_of hx ready lanes own fun l _ => ?_, crossOp_of hx ready lanes own fun l _ => ?_⟩
  · exact (total_eq _).trans (congrArg (fun ps : List Nat => total (ps.map fun k => arg (v k) 0)) (there l))
  · exact (total_eq _).trans (congrArg (fun ps : List Nat => total ((ps.filter fun k => k ≤ l).map fun k => arg (v k) 0)) (there l))
  · exact (total_eq _).trans (congrArg (fun ps : List Nat => total ((ps.filter fun k => k < l).map fun k => arg (v k) 0)) (there l))

end Sys2Proof.Machine
end

section
/-! SUPPORT. Polls and peer searches over present members, and the fault of a mask that leaves its own lane out (R225, R226, R228). -/

namespace Sys2Proof.Machine

/-! Members chosen by a test. -/

section
variable {mask : Word} {there p : Nat → Bool}

/-- The lanes of which a test and another hold, in ascending order. -/
theorem filter_present (there p : Nat → Bool) : ((List.range 32).filter there).filter p = (List.range 32).filter (fun k => there k && p k) := by
  rw [List.filter_filter]
  exact List.filter_congr fun k _ => Bool.and_comm ..

/-- As many lanes of a mask as it names pass a test where every lane that it names does. -/
theorem length_filter_mask (named : ∀ k, there k = true → inMask mask k = true) :
    ((List.range 32).filter there).length = popcNat mask ↔ (List.range 32).all (fun k => !inMask mask k || there k) = true := by
  have inside : (List.range 32).filter there = (maskLanes mask).filter there := by
    rw [maskLanes, List.filter_filter]
    exact List.filter_congr fun k _ => by
      cases pass : there k with
      | false => rfl
      | true => rw [Bool.true_and]; exact (named k pass).symm
  rw [inside, popcNat, List.length_filter_eq_length_iff]
  simp only [mem_maskLanes, List.all_eq_true, List.mem_range, Bool.or_eq_true, Bool.not_eq_true', and_imp]
  exact forall₂_congr fun k _ => by cases inMask mask k <;> simp

theorem isEmpty_filter_range (there : Nat → Bool) : ((List.range 32).filter there).isEmpty = (List.range 32).all (fun k => !there k) := by
  rw [Bool.eq_iff_iff, List.isEmpty_iff, List.filter_eq_nil_iff, List.all_eq_true]
  simp only [Bool.not_eq_true, Bool.not_eq_true']

/-! The selectors of `POLL` (R226) and `PEERS` (R228). -/

variable (named : ∀ k, there k = true → inMask mask k = true) (a : Nat → Word) (l : Nat)

theorem filter_nonzero : ((List.range 32).filter there).filter (fun k => a k != 0) = (List.range 32).filter (fun k => there k && decide (a k ≠ 0)) := by
  rw [filter_present]
  exact List.filter_congr fun k _ => by rw [bne_eq_decide_ne]

theorem filter_same : ((List.range 32).filter there).filter (fun k => a k == a l) = (List.range 32).filter (fun k => there k && decide (a k = a l)) := by
  rw [filter_present]
  exact List.filter_congr fun k _ => by rw [beq_eq_decide]

include named in
theorem count_mask (p : Nat → Bool) : (((List.range 32).filter (fun k => there k && p k)).length == popcNat mask) = (List.range 32).all (fun k => !inMask mask k || (there k && p k)) := by
  rw [Bool.eq_iff_iff, beq_iff_eq]
  exact length_filter_mask fun k both => named k (Bool.and_eq_true_iff.1 both).1

include named in
theorem pollWord_all : pollWord 0 mask ((List.range 32).filter there) a = boolWord ((List.range 32).all (fun k => !inMask mask k || (there k && decide (a k ≠ 0)))) := by
  rw [pollWord, filter_nonzero, count_mask named]

theorem pollWord_any : pollWord 1 mask ((List.range 32).filter there) a = boolWord ((List.range 32).any (fun k => there k && decide (a k ≠ 0))) := by
  rw [pollWord, filter_nonzero, isEmpty_filter_range, List.any_eq_not_all_not]

theorem pollWord_mask : pollWord 2 mask ((List.range 32).filter there) a = maskOf ((List.range 32).filter (fun k => there k && decide (a k ≠ 0))) := by
  rw [pollWord, filter_nonzero]

include named in
theorem pollWord_agree : pollWord 3 mask ((List.range 32).filter there) a =
    boolWord ((List.range 32).all (fun k => !inMask mask k || (there k && decide (a k ≠ 0))) || (List.range 32).all (fun k => !there k || decide (a k = 0))) := by
  have zero : ∀ k, (!(there k && decide (a k ≠ 0))) = (!there k || decide (a k = 0)) := fun k => by simp
  rw [pollWord, filter_nonzero, isEmpty_filter_range, count_mask named, Bool.or_comm]
  simp only [zero]

theorem pollWord_count : pollWord 4 mask ((List.range 32).filter there) a = BitVec.ofNat 32 ((List.range 32).filter (fun k => there k && decide (a k ≠ 0))).length :=
  congrArg (fun ks : List Nat => BitVec.ofNat 32 ks.length) (filter_nonzero a)

theorem peersWord_mask : peersWord 0 mask ((List.range 32).filter there) a l = maskOf ((List.range 32).filter (fun k => there k && decide (a k = a l))) := by
  rw [peersWord, filter_same]

include named in
theorem peersWord_all : peersWord 1 mask ((List.range 32).filter there) a l =
    if (List.range 32).all (fun k => !inMask mask k || (there k && decide (a k = a l))) then mask else 0 := by
  rw [peersWord, filter_same]
  exact if_congr (length_filter_mask fun k both => named k (Bool.and_eq_true_iff.1 both).1) rfl rfl

theorem peersWord_first : peersWord 2 mask ((List.range 32).filter there) a l = BitVec.ofNat 32 (((List.range 32).find? (fun k => there k && decide (a k = a l))).getD l) := by
  refine (congrArg (fun ks : List Nat => BitVec.ofNat 32 (ks.headD l)) (filter_same a l)).trans ?_
  rw [List.headD_eq_head?_getD, List.head?_filter]

end

/-! What parks. -/

/-- WHAT `regOp` DOES when its sources are there, its destination has room, and every lane faults (R225, R371, R372). -/
theorem regOp_parks {s : State} {x : Ex} {srcs : List Src} {nw : Bool} {d : BitVec 8} {count : Nat} {latch : Bool}
    {g : (Nat → List DWord) → Nat → Except FaultInfo (List Word)} {m : Mach} (ready : WordReady s x false srcs nw d count m) (plain : Plain x) {f : Nat → FaultInfo}
    (bad : ∀ l ∈ x.lanes, g (operands s x srcs) l = .error (f l)) : AllParked s x (s.withM (regOp s.m x false srcs nw d count latch g)) f x.pc (boxOf s x) := by
  obtain ⟨sources, room⟩ := ready
  have sp := dstReady_spills room
  have read : (fun l => srcValues (m.ctxCore x.w.ctx x.core) x (if false = true then x.low else l) srcs []) = operands s x srcs := by
    funext l
    simp only [operands, boxOf, sp.box, Bool.false_eq_true, if_false]
  have faults : laneFaults x false (g (operands s x srcs)) = x.lanes.map (fun l => (l, f l)) := by
    rw [laneFaults, ← List.filterMap_eq_map]
    exact List.filterMap_congr fun l active => by rw [bad l active]; rfl
  obtain ⟨m', delivered, parked⟩ := deliver_spills plain sp f
  simp only [regOp, sources, room, read, faults, delivered]
  exact parked

/-- A fault whose information word is a value of the word's own. -/
theorem mkFault_addr (c : Cause) {w : Nat} (a : BitVec w) : mkFault c 0 0 a.toNat = { cause := c, detail := 0, addr := a.setWidth 48 } := by
  have addr : BitVec.ofNat 48 a.toNat = a.setWidth 48 := BitVec.eq_of_toNat_eq (by simp)
  rw [mkFault, addr]
  rfl

/-- A cross-lane instruction none of whose lanes is in its own mask parks them all. -/
theorem crossOp_parks {s : State} {x : Ex} (hx : s.ex? = some x) {q : Src} {n : BitVec 1} {d : BitVec 8} {m : Mach} (ready : WordReady s x false [q, srcI d] (nwOf n) d 1 m)
    (plain : Plain x) (out : ∀ l ∈ x.lanes, inMask (arg (operands s x [q, srcI d] l) 1) l = false) (f : Word → List Nat → (Nat → Word) → Nat → Word) :
    ∃ t, crossOp s q n d f = .next t
      ∧ AllParked s x t (fun l => { cause := .selfMask, detail := 0, addr := (arg (operands s x [q, srcI d] l) 1).setWidth 48 }) x.pc (boxOf s x) := by
  refine ⟨_, onWord_next hx _, regOp_parks ready plain fun l active => ?_⟩
  simp only [out l active, Bool.not_false, if_true, mkFault_addr]

end Sys2Proof.Machine
end

section
namespace Sys2Proof.Machine

/-- Settles O11: `crossOp_of` over the present members, counted and searched by the lemmas above; `crossOp_parks` where no lane is in its own mask. -/
theorem pollsPeersAndMasks : Obligations.PollsPeersAndMasks := by
  refine ⟨fun s x n d a m hx ready => ?_, fun s x n d a k m hx ready plain => ?_⟩
  · intro v val mask there all bit lanes own
    have members : ∀ l, present x.g.lanes mask (mask l) = all.filter (there l) := fun l => present_eq ..
    have named : ∀ l k, there l k = true → inMask (mask l) k = true := fun l k member => by
      simp only [there, Bool.and_eq_true] at member
      exact member.1.1
    have completes : ∀ {f : Word → List Nat → (Nat → Word) → Nat → Word} {g : Nat → Word}, (∀ l, f (mask l) (all.filter (there l)) val l = g l) →
        LaneResults s x [srcI a, srcI d] n d g (crossOp s (srcI a) n d f) := fun {f} {g} same =>
      crossOp_of hx ready lanes own fun l _ => (congrArg (fun ps => f (mask l) ps val l) (members l)).trans (same l)
    simp only [exec_poll, execPoll, exec_peers, execPeers]
    exact ⟨completes fun l => pollWord_all (named l) val, completes fun l => pollWord_any val, completes fun l => pollWord_mask val, completes fun l => pollWord_agree (named l) val,
      completes fun l => pollWord_count val, completes fun l => peersWord_mask val l, completes fun l => peersWord_all (named l) val l, completes fun l => peersWord_first val l⟩
  · intro mask out f
    rw [exec_poll, execPoll, exec_peers, execPeers]
    exact ⟨crossOp_parks hx ready plain out _, crossOp_parks hx ready plain out _⟩

end Sys2Proof.Machine
end

section
/-! SUPPORT. Quantisation under a format slot, codebook weights and their tables (R37, R220 to R223). -/

namespace Sys2Proof.Machine

theorem qdecWord_eq (a : DWord) : qdecWord a = BitVec.ofNat 32 (fp32.round (((Fl.ofInt (codebookC (a.toNat % 16) * ((a.toNat / 256 % 256 : Nat) : Int))).mul (fp32.decode (a.toNat / 2 ^ 32))).mul
    (.fin false 1 (-16)))) := by
  rw [qdecWord, decodeQ4, hi_toNat, natBits, pow_zero, Nat.div_one]
  rfl

theorem toSigned_byte (w : Word) : toSigned 8 w.toNat = (w.setWidth 8).toInt := by
  rw [BitVec.toInt_eq_toNat_cond, BitVec.toNat_setWidth, toSigned]
  split <;> split <;> omega

theorem qlutbWords_eq (slot : List Byte) (w : Word) : qlutbWords slot w =
    (let act : Int := if slotElt slot = 1 then (w.setWidth 8).toInt else (w.toNat % 256 : Nat) - (slotZp slot : Int)
     (List.range 16).map (fun k => BitVec.ofInt 32 (codebookC k * act))) := by
  rw [qlutbWords, toSigned_byte]

theorem slotZp_lt (slot : List Byte) : slotZp slot < 256 := Nat.mod_lt _ (by decide)

theorem clampInt_mem {lo hi : Int} (order : lo ≤ hi) (x : Int) : lo ≤ clampInt lo hi x ∧ clampInt lo hi x ≤ hi := by
  rw [clampInt_eq order]; omega

/-! The values that are written. -/

section
variable (slot : List Byte) (v : Nat)

theorem quantN8_byte : 0 ≤ quantN8 slot v ∧ quantN8 slot v ≤ 255 := by
  have := slotZp_lt slot
  unfold quantN8
  split
  · exact clampInt_mem (by decide) _
  · omega

theorem quantS8_byte : -128 ≤ quantS8 slot v ∧ quantS8 slot v ≤ 127 := by
  unfold quantS8
  split
  · exact clampInt_mem (by decide) _
  · decide

variable {slot v}

theorem quotient_nan {rnd ascl : Nat} (nan : fp32.decode v = .nan) : quotient rnd ascl v = none := by
  simp only [quotient, nan]

theorem quotient_inf {rnd ascl : Nat} {neg : Bool} (inf : fp32.decode v = .inf neg) : quotient rnd ascl v = some (if neg then -(2 ^ 200) else 2 ^ 200) := by
  simp only [quotient, inf]

theorem quant_nan (nan : fp32.decode v = .nan) : quantN8 slot v = slotZp slot ∧ quantS8 slot v = 0 := by
  simp only [quantN8, quantS8, quotient_nan nan, and_self]

/-- An infinity saturates past any zero point. -/
theorem quant_inf {neg : Bool} (inf : fp32.decode v = .inf neg) :
    quantN8 slot v = (if neg then 0 else 255) ∧ quantS8 slot v = (if neg then -128 else 127) := by
  have := slotZp_lt slot
  simp only [quantN8, quantS8, quotient_inf inf, clampInt]
  cases neg with
  | true =>
    simp only [if_true]
    exact ⟨if_pos (by omega), if_pos (by omega)⟩
  | false =>
    simp only [Bool.false_eq_true, if_false]
    exact ⟨(if_neg (by omega)).trans (if_pos (by omega)), (if_neg (by omega)).trans (if_pos (by omega))⟩

end

/-! The table that `QLUT` reads. -/

/-- Sources that are there stay so with registers beside them that are neither spilled nor pending. -/
theorem srcReady_more {m : Mach} {x : Ex} {uni : Bool} {srcs : List Src} {regs : List Nat} (ready : srcReady m x uni srcs = .go)
    (settled : ∀ r ∈ regs, x.w.spilled.contains r = false ∧ x.w.pendingIn (x.readMask uni) r = false) : srcReady m x uni srcs regs = .go := by
  have here : regs.any (fun r => x.w.spilled.contains r) = false := List.any_eq_false.2 fun r there => by simp only [(settled r there).1, Bool.false_eq_true, not_false_eq_true]
  have idle : regs.any (x.w.pendingIn (x.readMask uni)) = false := List.any_eq_false.2 fun r there => by simp only [(settled r there).2, Bool.false_eq_true, not_false_eq_true]
  have resident : (srcs.flatMap Src.regs).any (fun r => x.w.spilled.contains r) = false := by
    by_contra spilled
    rw [Bool.not_eq_false] at spilled
    simp only [srcReady, List.append_nil, spilled, if_true, reduceCtorEq] at ready
  simp only [srcReady, List.any_append, List.any_nil, resident, here, idle, Bool.or_false, Bool.false_eq_true, if_false] at ready ⊢
  exact ready

theorem qlutBase_some {a : DWord} (even : a.toNat / 2 ^ 32 % 128 % 2 = 0) (low : a.toNat / 2 ^ 32 % 128 ≤ 112) : qlutBase a = some (a.toNat / 2 ^ 32 % 128) := by
  simp only [qlutBase, hi_toNat, even, low, and_self, if_true]

theorem qlutBase_eq {a : DWord} {t : Nat} (h : qlutBase a = some t) : t = a.toNat / 2 ^ 32 % 128 := by
  simp only [qlutBase, hi_toNat, Option.ite_none_right_eq_some, Option.some.injEq] at h
  exact h.2.symm

/-- The base register of a lane's table (R223). -/
def tableBase (s : State) (x : Ex) (a : BitVec 8) (l : Nat) : Nat := (argPair (operands s x [srcW a] l) 0).toNat / 2 ^ 32 % 128

/-- A `QLUT` whose tables are there reads an entry of each lane's. -/
theorem qlut_reads {s : State} {x : Ex} (hx : s.ex? = some x) {n : BitVec 1} {d a : BitVec 8} {k : BitVec 3} {m : Mach} (codebook : slotElt (formatSlot s.m x.w k.toNat) = 0x20)
    (ready : WordReady s x false [srcW a] (nwOf n) d 1 m) (lanes : x.g.lanes ≠ 0) (bases : ∀ l ∈ x.lanes, tableBase s x a l % 2 = 0 ∧ tableBase s x a l ≤ 112)
    (settled : ∀ l ∈ x.lanes, ∀ j < 16, x.w.spilled.contains (tableBase s x a l + j) = false ∧ x.w.pendingIn (x.readMask false) (tableBase s x a l + j) = false) :
    LaneResults s x [srcW a] n d (fun l => x.w.regLane (tableBase s x a l + (argPair (operands s x [srcW a] l) 0).toNat % 16) l) (exec (.qlut n d a k) s) := by
  have tables : srcReady s.m x false [srcW a]
      ((x.lanes.filterMap (fun l => qlutBase (srcValue (s.m.ctxCore x.w.ctx x.core) x (srcW a) 0 l))).eraseDups.flatMap (fun t => (List.range 16).map (· + t))) = .go := by
    refine srcReady_more ready.1 fun r there => ?_
    simp only [List.mem_flatMap, List.mem_eraseDups, List.mem_filterMap, List.mem_map, List.mem_range] at there
    obtain ⟨t, ⟨l, active, base⟩, j, entry, rfl⟩ := there
    rw [qlutBase_eq base, Nat.add_comm]
    exact settled l active j entry
  rw [exec_qlut, execQlut, onWord_next hx]
  simp only [ready.1, tables]
  refine laneResults_of hx ready lanes fun l active => ?_
  obtain ⟨even, low⟩ := bases l active
  simp only [codebook, ne_eq, not_true_eq_false, if_false, qlutBase_some even low]
  rfl

end Sys2Proof.Machine
end

section
namespace Sys2Proof.Machine

/-- Settles O9: under a slot of a type that the word accepts no lane faults, and each lane's word is the slot's function of its source. -/
theorem quantiseAndTables : Obligations.QuantiseAndTables := by
  refine ⟨fun s x n d a k m hx => ?_, fun slot v => ?_⟩
  · intro slot
    have format : formatSlot s.m x.w k.toNat = slot := rfl
    refine ⟨fun ready => ⟨fun narrow => ?_, fun narrow => ?_⟩, fun codebook ready => ?_, fun narrow ready => ?_, fun codebook ready => ?_⟩
    · rw [exec_qenc, execQenc, onWord_next hx]
      simp only [format, narrow, true_or, if_true]
      exact regOp_results hx ready fun l => by simp only [qencWord, narrow, if_true]
    · rw [exec_qenc, execQenc, onWord_next hx]
      simp only [format, narrow, or_true, if_true]
      exact regOp_results hx ready fun l => by simp only [qencWord, narrow]; rfl
    · rw [exec_qdec, execQdec, onWord_next hx]
      simp only [format, codebook, if_true]
      exact regOp_results hx ready fun l => qdecWord_eq _
    · obtain ⟨y, delivered, latches⟩ := regOp_delivers hx ready (fun v => qlutbWords slot (arg v 0))
      have run : exec (.qlutb d a k) s = .next (s.withM (regOp s.m x false [srcI a] false d 16 false (fun vals l => .ok (qlutbWords slot (arg (vals l) 0))))) := by
        rw [exec_qlutb, execQlutb, onWord_next hx]
        simp only [format, narrow, if_true]
      rw [show (fun l => qlutbWords slot (arg (operands s x [srcI a] l) 0)) = _ from funext fun l => qlutbWords_eq ..] at delivered
      exact ⟨_, y, run, delivered, latches⟩
    · exact fun lanes bases settled => qlut_reads hx codebook ready lanes bases settled
  · obtain ⟨low, high⟩ := quantN8_byte slot v
    obtain ⟨low', high'⟩ := quantS8_byte slot v
    exact ⟨low, high, low', high', quant_nan, quant_inf, quant_inf⟩

end Sys2Proof.Machine
end

section
/-! SUPPORT. `TCFG`, `TBND` and `TBND.t` (R243, R257). -/

namespace Sys2Proof.Machine

section
variable {s : State} {x : Ex} {d a : BitVec 8} {k : BitVec 3} {m : Mach}

theorem tcfg_done (hx : s.ex? = some x) (r g : BitVec 2) :
    Done s x { Rest.same s x with w := { x.w with termG := 4 * 2 ^ g.toNat, termD := r.toNat + 1 } } (exec (.tcfg r g) s) := by
  let z : Ex := { x with w := { x.w with termG := 4 * 2 ^ g.toNat, termD := r.toNat + 1 } }
  have ends : WordEnd s x s.m z := (SpillsOnly.refl s.m x.core x.pos).wordEnd ⟨rfl, rfl, rfl, rfl⟩ ⟨rfl, rfl⟩ rfl rfl
  rw [exec_tcfg, execTcfg, onWord_next hx]
  exact ⟨_, z.finished, rfl, wordDone_of hx ends, { nextPc := rfl, depth := ⟨rfl, rfl⟩ }, fun _ _ _ => regLane_finished .., rfl⟩

theorem SpillsOnly.formatSlot {m m' : Mach} {core pos : Nat} (h : SpillsOnly m m' core pos) (w : Warp) (k : Nat) : formatSlot m' w k = formatSlot m w k := by rw [h.eq]; rfl

theorem tbnd_bounds (hx : s.ex? = some x) (tiled : slotElt (formatSlot s.m x.w k.toNat) = 0x22) (ready : WordReady s x true [] false d 1 m) :
    UniformWords s x (.same s x) [] d 1 [BitVec.ofNat 32 (16 * tMax (slotTle (formatSlot s.m x.w k.toNat)) + 6)] (exec (.tbnd d k) s) := by
  rw [exec_tbnd, execTbnd, onWord_next hx]
  refine uniEffect_same hx ready ?_
  simp only [(dstReady_spills ready.2).formatSlot, tiled, ne_eq, not_true_eq_false, if_false]

/-- A scratchpad address names the core of its selector and its offset. -/
theorem spadTarget_inside {ctx core addr n : Nat} (low : addr < 2 ^ 24) (inside : addr % 2 ^ 21 + n ≤ (m.ctxCluster ctx core).pages * 4096) :
    spadTarget m ctx core addr n = .ok (core / 8 * 8 + addr / 2 ^ 21 % 8, addr % 2 ^ 21) := by
  have sel : addr / 2 ^ 21 % 2 ^ 3 % 8 = addr / 2 ^ 21 % 8 := by omega
  simp only [spadTarget, spadSize, Nat.div_eq_of_lt low, Nat.not_lt.2 inside, ne_eq, not_true_eq_false, or_self, if_false, peerCore, natBits, sel]

/-- The headers of a tile in a space without an arrival round. -/
theorem tileHeaders_free {ctx core off : Nat} (aligned : off % 128 = 0) (free : (m.ctxCore ctx core).rounds = []) :
    tileHeaders m ctx core off = (m, (List.range 16).map fun i => readBytes (m.ctxCore ctx core).spad (off + 128 * i) 2) := by
  unfold tileHeaders
  induction List.range 16 using List.reverseRecOn with
  | nil => rfl
  | append_singleton is i ih =>
    have read : spadRead m ctx core (off + 128 * i) 2 = (readBytes (m.ctxCore ctx core).spad (off + 128 * i) 2, m) :=
      spadRead_free (fun j => aligned_page j (by decide : 2 ∣ 4096) (by omega)) (by rw [free]; rfl)
    rw [List.foldl_concat, ih, List.map_append]
    simp only [read]
    rfl

/-- MAXT of a block's header lies in its second byte. -/
theorem header_maxt (sp : SMap Byte) (at_ : Nat) : natBits (bytesToNat (readBytes sp at_ 2)) 12 3 = (readByte sp (at_ + 1)).toNat / 16 % 8 := by
  have low := (readByte sp at_).isLt
  simp only [readBytes, bytesToNat, natBits]
  omega

theorem tbndTile_headers (inner : Nat) (sp : SMap Byte) (off : Nat) :
    tbndTile inner ((List.range 16).map fun i => readBytes sp (off + 128 * i) 2)
      = ((List.range 16).map fun i => min ((readByte sp (off + 128 * i + 1)).toNat / 16 % 8) (tMax inner)).foldl (· + ·) 6 := by
  simp only [tbndTile, List.map_map, Function.comp_def, header_maxt]
  exact List.foldl_assoc.symm

theorem tbndT_issued (hx : s.ex? = some x) (tiled : slotElt (formatSlot s.m x.w k.toNat) = 0x22) (sources : srcReady s.m x true [srcI a] = .go)
    (room : regsReady s.m x d.toNat 1 = .go m) (v : isV d = true) (aligned : addressOf s x a x.low % 128 = 0) (low : addressOf s x a x.low < 2 ^ 24)
    (inside : addressOf s x a x.low % 2 ^ 21 + 2048 ≤ (s.m.ctxCluster x.w.ctx x.core).pages * 4096) {box : CtxCore}
    (there : s.m.ctxCore x.w.ctx (x.core / 8 * 8 + addressOf s x a x.low / 2 ^ 21 % 8) = box)
    (clean : spadPoisoned box (addressOf s x a x.low % 2 ^ 21) 2048 = false) (free : box.rounds = []) :
    ∃ u y, exec (.tbndT d a k) s = .next u ∧ Issued s x u y (.same s x) [srcI a] d 1 fun _ => [BitVec.ofNat 32
      (((List.range 16).map fun i => min ((readByte box.spad (addressOf s x a x.low % 2 ^ 21 + 128 * i + 1)).toNat / 16 % 8) (tMax (slotTle (formatSlot s.m x.w k.toNat)))).foldl (· + ·) 6)] := by
  have sp := regsReady_spills room
  have value : (srcValue (s.m.ctxCore x.w.ctx x.core) x (srcI a) 0 x.low).toNat % 2 ^ 32 = addressOf s x a x.low := addressOf_eq ..
  have target : spadTarget m x.w.ctx x.core (addressOf s x a x.low) 2048 = _ := spadTarget_inside low (by rw [sp.ctxCluster]; exact inside)
  have headers := tileHeaders_free (m := m) (ctx := x.w.ctx) (core := x.core / 8 * 8 + addressOf s x a x.low / 2 ^ 21 % 8) (off := addressOf s x a x.low % 2 ^ 21)
    (by omega) (by rw [sp.box, there, free])
  rw [sp.box, there] at headers
  obtain ⟨y, issued⟩ := pendLoad_issued hx sp m a d 1 (fun l active => mget_keyed (fun _ => _) active)
  refine ⟨_, y, ?_, issued⟩
  rw [exec_tbndT, execTbndT, onWord_next hx]
  simp only [sources, room, sp.formatSlot, value, tiled, aligned, target, sp.box, there, clean, headers, tbndTile_headers, pendLoad, v, ne_eq, not_true_eq_false, Bool.false_eq_true, if_false, if_true]

end

end Sys2Proof.Machine
end

section
/-! SUPPORT. The order in which gangs take arrays (R241). -/

namespace Sys2Proof.Machine

/-! Sorting by a measure. -/

section
variable {α : Type} {f : α → Nat}

theorem insertBy_ordered {x : α} {l : List α} (h : l.Pairwise fun a b => f a ≤ f b) : (insertBy f x l).Pairwise fun a b => f a ≤ f b := by
  induction l with
  | nil => exact List.pairwise_singleton ..
  | cons y l ih =>
    obtain ⟨least, rest⟩ := List.pairwise_cons.1 h
    rw [insertBy]
    split
    next before => exact List.pairwise_cons.2 ⟨fun b there => (List.mem_cons.1 there).elim (fun here => here ▸ before.le) fun later => before.le.trans (least b later), h⟩
    next after =>
      refine List.pairwise_cons.2 ⟨fun b there => ?_, ih rest⟩
      obtain rfl | later := (mem_insertBy ..).1 there
      · exact Nat.not_lt.1 after
      · exact least b later

theorem sortBy_ordered (f : α → Nat) (l : List α) : (sortBy f l).Pairwise fun a b => f a ≤ f b := by
  unfold sortBy
  induction l using List.reverseRecOn with
  | nil => exact List.Pairwise.nil
  | append_singleton l x ih =>
    rw [List.foldl_concat]
    exact insertBy_ordered ih

theorem sortBy_eq_nil {l : List α} : sortBy f l = [] ↔ l = [] := by simp only [List.eq_nil_iff_forall_not_mem, mem_sortBy]

/-- The first of a sorted list is below every other. -/
theorem sortBy_head {a : α} {l : List α} (there : a ∈ l) : ∃ h rest, sortBy f l = h :: rest ∧ h ∈ l ∧ f h ≤ f a := by
  cases sorted : sortBy f l with
  | nil => rw [sortBy_eq_nil.1 sorted] at there; exact absurd there List.not_mem_nil
  | cons h rest =>
    have ordered := sortBy_ordered f l
    have member : ∀ b, b ∈ h :: rest ↔ b ∈ l := fun b => by rw [← sorted, mem_sortBy]
    rw [sorted, List.pairwise_cons] at ordered
    refine ⟨h, rest, rfl, (member h).1 (List.mem_cons_self ..), ?_⟩
    obtain rfl | later := List.mem_cons.1 ((member a).2 there)
    · exact Nat.le_refl _
    · exact ordered.1 a later

end

/-- The first of the numbers below a bound that pass a test. -/
theorem filter_range_head {p : Nat → Bool} {a n : Nat} (bound : a < n) (pass : p a = true) (fail : ∀ b < a, p b = false) : ∃ rest, (List.range n).filter p = a :: rest := by
  have there : a ∈ (List.range n).filter p := List.mem_filter.2 ⟨List.mem_range.2 bound, pass⟩
  have rising := (List.pairwise_lt_range (n := n)).filter p
  cases found : (List.range n).filter p with
  | nil => rw [found] at there; exact absurd there List.not_mem_nil
  | cons h rest =>
    have first : h ∈ (List.range n).filter p := found ▸ List.mem_cons_self ..
    rw [found] at there rising
    obtain rfl | later := List.mem_cons.1 there
    · exact ⟨rest, rfl⟩
    · have passed := (List.mem_filter.1 first).2
      rw [fail h ((List.pairwise_cons.1 rising).1 a later)] at passed
      exact absurd passed Bool.false_ne_true

/-! Entries of maps. -/

section
variable {α : Type}

theorem le_of_risesFrom {l : SMap α} {b : Nat} {e : Nat × α} (rises : risesFrom b l = true) (there : e ∈ l) : b ≤ e.1 := by
  induction l generalizing b with
  | nil => exact absurd there List.not_mem_nil
  | cons f l ih =>
    simp only [risesFrom, Bool.and_eq_true, decide_eq_true_eq] at rises
    obtain rfl | later := List.mem_cons.1 there
    · exact rises.1
    · exact rises.1.trans (Nat.le_of_succ_le (ih rises.2 later))

/-- In a map with rising keys an entry is the one that is found. -/
theorem mget_of_mem {l : SMap α} {k : Nat} {v : α} (sorted : msorted l = true) (there : (k, v) ∈ l) : mget l k = some v := by
  induction l with
  | nil => exact absurd there List.not_mem_nil
  | cons e l ih =>
    rw [msorted_cons] at sorted
    rw [mget]
    obtain rfl | later := List.mem_cons.1 there
    · exact if_pos rfl
    · rw [if_neg (Nat.ne_of_gt (le_of_risesFrom sorted later))]
      exact ih (by rw [msorted_iff]; exact risesFrom_mono (Nat.zero_le _) l sorted) later

/-- A key above all of a map's goes to its end. -/
theorem mset_last {l : SMap α} {k : Nat} (v : α) (below : ∀ e ∈ l, e.1 < k) : mset l k v = l ++ [(k, v)] := by
  induction l with
  | nil => rfl
  | cons e l ih =>
    obtain ⟨j, u⟩ := e
    have first := below (j, u) (List.mem_cons_self ..)
    rw [mset, if_neg (by omega), if_neg (by omega), ih fun e there => below e (List.mem_cons_of_mem _ there)]
    rfl

theorem mset_at_last {l : SMap α} {k : Nat} (u v : α) (below : ∀ e ∈ l, e.1 < k) : mset (l ++ [(k, u)]) k v = l ++ [(k, v)] := by
  induction l with
  | nil => simp [mset]
  | cons e l ih =>
    obtain ⟨j, w⟩ := e
    have first := below (j, w) (List.mem_cons_self ..)
    rw [List.cons_append, mset, if_neg (by omega), if_neg (by omega), ih fun e there => below e (List.mem_cons_of_mem _ there)]
    rfl

end

/-! Free arrays and waiting gangs. -/

section
variable {stopped : Nat → Bool} {c : Core} {array : Nat}

/-- An array that no gang holds, all those below it held. -/
structure LowestFree (c : Core) (array : Nat) : Prop where
  bound : array < 4
  free  : ∀ e ∈ c.gangs, e.2.array ≠ some array
  lower : ∀ b < array, ∃ e ∈ c.gangs, e.2.array = some b

theorem LowestFree.congr {c' : Core} (h : LowestFree c array) (gangs : c'.gangs = c.gangs) : LowestFree c' array := ⟨h.bound, by rw [gangs]; exact h.free, by rw [gangs]; exact h.lower⟩

/-- The free array that is taken next. -/
theorem LowestFree.first (h : LowestFree c array) : ∃ rest, freeArrays c = array :: rest := by
  refine filter_range_head h.bound ?_ fun b low => ?_
  · simpa using fun k g there => h.free (k, g) there
  · obtain ⟨e, there, holds⟩ := h.lower b low
    simpa using ⟨e.1, e.2, there, holds⟩

/-- The gang that has waited longer than every other takes the next array. -/
theorem waitingGangs_longest {k : Nat} {g : Gang} (there : (k, g) ∈ c.gangs) (waits : g.array = none) (present : g.present stopped c = true)
    (longest : ∀ e ∈ c.gangs, e.2.array = none → e.2.present stopped c = true → e.1 ≠ k → g.since < e.2.since) : ∃ rest, waitingGangs stopped c = k :: rest := by
  obtain ⟨h, rest, sorted, member, least⟩ := sortBy_head (f := fun e : Nat × Gang => e.2.since)
    (List.mem_filter.2 ⟨there, by simp only [waits, present, Option.isNone_none, Bool.and_self]⟩ : (k, g) ∈ c.gangs.filter fun e => e.2.array.isNone && e.2.present stopped c)
  obtain ⟨listed, waiting⟩ := List.mem_filter.1 member
  rw [Bool.and_eq_true, Option.isNone_iff_eq_none] at waiting
  have first : h.1 = k := by
    by_contra other
    exact Nat.not_lt.2 least (longest h listed waiting.1 waiting.2 other)
  exact ⟨rest.map (·.1), by rw [waitingGangs, sorted, List.map_cons, first]⟩

/-- One array bound. -/
theorem bindArrays_next {n g : Nat} {gs as : List Nat} (waits : waitingGangs stopped c = g :: gs) (free : freeArrays c = array :: as) :
    bindArrays stopped (n + 1) c = bindArrays stopped n { c with gangs := madj c.gangs g fun x => { x with array := some array }, arrays := mdel c.arrays array } := by
  simp only [bindArrays, waits, free]

theorem bindArrays_none {n : Nat} (idle : waitingGangs stopped c = []) : bindArrays stopped n c = c := by
  cases n with
  | zero => rfl
  | succ n => simp only [bindArrays, idle]

/-- No gang waits. -/
theorem waitingGangs_nil : waitingGangs stopped c = [] ↔ ∀ e ∈ c.gangs, (e.2.array.isNone && e.2.present stopped c) = false := by
  simp only [waitingGangs, List.map_eq_nil_iff, sortBy_eq_nil, List.filter_eq_nil_iff, Bool.not_eq_true]

/-- A new gang on a core where none waits takes the lowest free array. -/
theorem bindArrays_formed {id : Nat} {g : Gang} (below : ∀ e ∈ c.gangs, e.1 < id) (idle : waitingGangs stopped c = []) (waits : g.array = none) (present : g.present stopped c = true)
    (lowest : LowestFree c array) :
    bindArrays stopped 4 { c with gangs := mset c.gangs id g }
      = { c with gangs := c.gangs ++ [(id, { g with array := some array })], arrays := mdel c.arrays array } := by
  rw [waitingGangs_nil] at idle
  rw [mset_last g below]
  have others : ∀ (l : SMap Gang) (e : Nat × Gang), e ∈ c.gangs ++ l → e ∈ l ∨ (e.2.array.isNone && e.2.present stopped c) = false := fun l e there =>
    (List.mem_append.1 there).symm.imp_right (idle e)
  obtain ⟨gs, next⟩ := waitingGangs_longest (stopped := stopped) (c := { c with gangs := c.gangs ++ [(id, g)] }) (k := id) (g := g) (by simp) waits present
    fun e there waiting here other => (others _ e there).elim (fun only => absurd (congrArg Prod.fst (List.mem_singleton.1 only)) other) fun idle => by
      have here : e.2.present stopped c = true := here
      rw [waiting, here] at idle
      exact absurd idle (by decide)
  have still : LowestFree { c with gangs := c.gangs ++ [(id, g)] } array :=
    { bound := lowest.bound
      free := fun e there => (List.mem_append.1 there).elim (lowest.free e) fun only => by rw [List.mem_singleton.1 only, waits]; exact nofun
      lower := fun b low => (lowest.lower b low).imp fun e ⟨there, holds⟩ => ⟨List.mem_append_left _ there, holds⟩ }
  obtain ⟨as, first⟩ := still.first
  have there : mget (c.gangs ++ [(id, g)]) id = some g := by rw [← mset_last g below, mget_mset_same]
  rw [bindArrays_next next first, bindArrays_none]
  · simp only [madj, there, mset_at_last _ _ below]
  · refine waitingGangs_nil.2 fun e listed => ?_
    simp only [madj, there, mset_at_last _ _ below] at listed
    obtain only | idle := others _ e listed
    · rw [List.mem_singleton.1 only]; rfl
    · exact idle

/-- `GANG_ARRAY_BIND` where a gang waits and an array is free. -/
theorem gangArrayBind_binds {s : State} {core k : Nat} {gs as : List Nat} (waits : waitingGangs (fun ctx => s.stopped ctx core) (s.m.core core) = k :: gs)
    (free : freeArrays (s.m.core core) = array :: as) :
    exec (.gangArrayBind core) s = .next (s.withM (s.m.adjCore core fun c => { c with gangs := madj c.gangs k fun g => { g with array := some array }, arrays := mdel c.arrays array })) := by
  rw [exec_gangArrayBind, execGangArrayBind]
  simp only [waits, free, reduceCtorEq, or_self, if_false, Mach.adjCore]
  rw [bindArrays_next waits free]
  rfl

end

end Sys2Proof.Machine
end

section
/-! SUPPORT. The warps that a core lists once room has been made (R183), and what a waiting word has read (R72, R192). -/

namespace Sys2Proof.Machine

/-! The warps that a core lists, but for where their registers stand. -/

/-- An entry of a map after a key is set is the key's or was there. -/
theorem eq_or_mem_of_mem_mset {α : Type} {l : SMap α} {k : Nat} {v : α} {e : Nat × α} (h : e ∈ mset l k v) : e = (k, v) ∨ e ∈ l := by
  induction l with
  | nil => exact .inl (List.mem_singleton.1 h)
  | cons f l ih =>
    obtain ⟨j, u⟩ := f
    rw [mset] at h
    split at h
    · exact (List.mem_cons.1 h).imp_right (List.mem_cons_of_mem _)
    · split at h
      · exact List.mem_cons.1 h
      · obtain rfl | later := List.mem_cons.1 h
        · exact .inr (List.mem_cons_self ..)
        · exact (ih later).imp_right (List.mem_cons_of_mem _)

/-- Every warp that a core lists was listed in its slot before, but for where its registers stand. -/
def ListedBefore (c c' : Core) : Prop := ∀ e ∈ c'.warps, ∃ w, (e.1, w) ∈ c.warps ∧ unspilled e.2 = unspilled w

theorem ListedBefore.refl (c : Core) : ListedBefore c c := fun e there => ⟨e.2, there, rfl⟩

theorem listedBefore_spill (m : Mach) (core p : Nat) : ListedBefore (m.core core) ((m.adjWarp core p Warp.spill).core core) := by
  cases found : m.warp? core p with
  | none => rw [Mach.adjWarp, found]; exact .refl _
  | some w =>
    intro e there
    rw [Mach.adjWarp, found] at there
    simp only [core_setWarp, if_true] at there
    obtain rfl | before := eq_or_mem_of_mem_mset there
    · exact ⟨w, mem_of_mget found, unspilled_spill w⟩
    · exact ⟨e.2, before, rfl⟩

theorem makeRoom_listed (fuel : Nat) (m : Mach) (core pos k : Nat) {m' : Mach} : makeRoom fuel m core pos k = .ok m' → ListedBefore (m.core core) (m'.core core) := by
  fun_induction makeRoom fuel m core pos k with
  | case2 => rintro ⟨⟩; exact .refl _
  | case5 _ _ _ _ _ _ _ _ _ ih =>
    intro room e there
    obtain ⟨v, listed, same⟩ := ih room e there
    obtain ⟨w, before, spilled⟩ := listedBefore_spill _ _ _ _ listed
    exact ⟨w, before, same.trans spilled⟩
  | _ => rintro ⟨⟩

theorem regsReady_listed {m m' : Mach} {x : Ex} {r count : Nat} (h : regsReady m x r count = .go m') : ListedBefore (m.core x.core) (m'.core x.core) := by
  dsimp only [regsReady] at h
  split_ifs at h
  · exact DstReady.go.inj h ▸ .refl _
  · revert h
    cases room : makeRoom 40 m x.core x.pos count with
    | ok n => rintro ⟨⟩; exact makeRoom_listed _ _ _ _ _ room
    | _ => simp

theorem dstReady_listed {m m' : Mach} {x : Ex} {srcs : List Src} {nw : Bool} {d : BitVec 8} {count : Nat} (h : dstReady m x srcs nw d count = .go m') :
    ListedBefore (m.core x.core) (m'.core x.core) := by
  by_cases v : nw = false ∧ isV d = true
  · exact regsReady_listed (by simpa [dstReady, v.1, v.2] using h)
  · have same : m' = m := by simp only [dstReady] at h; grind
    exact same ▸ .refl _

theorem gangWaits_unspilled {v w : Warp} (h : unspilled v = unspilled w) : gangWaits v = gangWaits w :=
  show gangWaits (unspilled v) = gangWaits (unspilled w) by rw [h]

theorem uid_unspilled {v w : Warp} (h : unspilled v = unspilled w) : v.uid = w.uid := show (unspilled v).uid = (unspilled w).uid by rw [h]
theorem ctx_unspilled {v w : Warp} (h : unspilled v = unspilled w) : v.ctx = w.ctx := show (unspilled v).ctx = (unspilled w).ctx by rw [h]

theorem SpillsOnly.gangs {m m' : Mach} {core pos : Nat} (h : SpillsOnly m m' core pos) : (m'.core core).gangs = (m.core core).gangs := by
  have same := congrArg Core.gangs h.rest
  exact same

/-- A gang with its part on a core had it there before. -/
theorem present_listed {stopped : Nat → Bool} {c c' : Core} {g : Gang} (h : ListedBefore c c') (leaving : c'.leaving = c.leaving) (present : g.present stopped c' = true) :
    g.present stopped c = true := by
  have uids : ∀ uid, c'.warps.any (fun w => w.2.uid == uid) = true → c.warps.any (fun w => w.2.uid == uid) = true := fun uid any => by
    obtain ⟨e, there, same⟩ := List.any_eq_true.1 any
    obtain ⟨w, before, unspilled⟩ := h e there
    exact List.any_eq_true.2 ⟨_, before, by rw [← uid_unspilled unspilled]; exact same⟩
  have ctxs : ∀ ctx, c'.warps.any (fun w => w.2.ctx == ctx) = true → c.warps.any (fun w => w.2.ctx == ctx) = true := fun ctx any => by
    obtain ⟨e, there, same⟩ := List.any_eq_true.1 any
    obtain ⟨w, before, unspilled⟩ := h e there
    exact List.any_eq_true.2 ⟨_, before, by rw [← ctx_unspilled unspilled]; exact same⟩
  simp only [Gang.present, Bool.and_eq_true, Bool.or_eq_true, leaving] at present ⊢
  obtain ⟨runs, member | ⟨left, warp | ended⟩⟩ := present
  · obtain ⟨p, there, resident⟩ := List.any_eq_true.1 member
    exact ⟨runs, .inl (List.any_eq_true.2 ⟨p, there, uids _ resident⟩)⟩
  · exact ⟨runs, .inr ⟨left, .inl (ctxs _ warp)⟩⟩
  · exact ⟨runs, .inr ⟨left, .inr ended⟩⟩

/-- No gang waits that did not wait before. -/
theorem waitingGangs_listed {stopped : Nat → Bool} {c c' : Core} (h : ListedBefore c c') (rest : coreRest c' = coreRest c) (idle : waitingGangs stopped c = []) : waitingGangs stopped c' = [] := by
  have gangs := congrArg Core.gangs rest
  have leaving := congrArg Core.leaving rest
  rw [waitingGangs_nil] at idle ⊢
  intro e member
  have before := idle e (gangs ▸ member)
  rw [Bool.and_eq_false_iff] at before ⊢
  exact before.imp_right fun absent => Bool.eq_false_iff.2 fun present => absurd (present_listed h leaving present) (by rw [absent]; exact Bool.false_ne_true)

/-! A mailbox or queue that a waiting word has read. -/

/-- An element of a list changed twice. -/
theorem setAt_setAt {α : Type} (l : List α) (i : Nat) (d : α) (f g : α → α) :
    setAt (setAt l i (f (l.getD i d))) i (g ((setAt l i (f (l.getD i d))).getD i d)) = setAt l i (g (f (l.getD i d))) := by
  by_cases inside : i < l.length
  · simp [setAt, inside]
  · simp [setAt, List.set_eq_of_length_le (Nat.not_lt.1 inside)]

/-- A mailbox and a queue that a waiting word has read, and those from which a word takes. -/
def Mailbox.claimed (tok : Nat) (b : Mailbox) : Mailbox := { b with readers := addToken tok b.readers }
def Queue.claimed (tok : Nat) (q : Queue) : Queue := { q with readers := if q.readers.contains tok then q.readers else q.readers ++ List.replicate 1 tok }
def Mailbox.taken (tok : Nat) (b : Mailbox) : Mailbox := { b with full := false, readers := b.readers.filter (· ≠ tok) }
def Queue.taken (tok : Nat) (q : Queue) : Queue := { q with entries := q.entries.drop 1, readers := q.readers.filter (· ≠ tok) }

theorem taken_claimed_mailbox (tok : Nat) (b : Mailbox) : (b.claimed tok).taken tok = b.taken tok := by
  unfold Mailbox.taken Mailbox.claimed addToken
  split <;> simp

theorem taken_claimed_queue (tok : Nat) (q : Queue) : (q.claimed tok).taken tok = q.taken tok := by
  unfold Queue.taken Queue.claimed
  split <;> simp

/-- What a single source takes. -/
theorem takeSources_single (cc : CtxCore) (x : Ex) (q : Src) : takeSources cc x [q] =
    { cc with
      mailboxes := if isMailbox q.spec then setAt cc.mailboxes (q.spec.toNat - 0x90) ((cc.mailboxes.getD (q.spec.toNat - 0x90) .fresh).taken (waitToken x.w x.g)) else cc.mailboxes
      queues := if isQueue q.spec then setAt cc.queues (q.spec.toNat - 0x88) ((cc.queues.getD (q.spec.toNat - 0x88) .fresh).taken (waitToken x.w x.g)) else cc.queues } := by
  have once : ∀ k : Nat, [k].eraseDups = [k] := fun _ => rfl
  simp only [takeSources, srcMailboxes, srcQueues, List.filter_cons, List.filter_nil]
  congr 1 <;> split <;> simp only [List.map_cons, List.map_nil, once] <;> rfl

/-- What a single source holds while its word waits. -/
theorem queueUp_single (cc : CtxCore) (tok : Nat) (q : Src) : queueUp cc tok (srcMailboxes [q]) (srcQueues [q]) =
    { cc with
      mailboxes := if isMailbox q.spec then setAt cc.mailboxes (q.spec.toNat - 0x90) ((cc.mailboxes.getD (q.spec.toNat - 0x90) .fresh).claimed tok) else cc.mailboxes
      queues := if isQueue q.spec then setAt cc.queues (q.spec.toNat - 0x88) ((cc.queues.getD (q.spec.toNat - 0x88) .fresh).claimed tok) else cc.queues } := by
  have once : ∀ k : Nat, [k].eraseDups = [k] := fun _ => rfl
  simp only [queueUp, srcMailboxes, srcQueues, List.filter_cons, List.filter_nil]
  congr 1 <;> split <;> simp only [List.map_cons, List.map_nil, once, List.foldl_cons, List.foldl_nil, List.count_singleton_self] <;> rfl

/-- A source taken after its word has waited with it is as one taken at once. -/
theorem takeSources_queueUp (cc : CtxCore) (x : Ex) (q : Src) :
    takeSources (queueUp cc (waitToken x.w x.g) (srcMailboxes [q]) (srcQueues [q])) x [q] = takeSources cc x [q] := by
  rw [takeSources_single, takeSources_single, queueUp_single]
  congr 1
  · split
    · rw [setAt_setAt, taken_claimed_mailbox]
    · rfl
  · split
    · rw [setAt_setAt, taken_claimed_queue]
    · rfl

end Sys2Proof.Machine
end

section
/-! SUPPORT. `GANG` (R241, R242): the warp leaves its gang, forms one of its own, is answered, or parks. -/

namespace Sys2Proof.Machine

section
variable {s : State} {x : Ex} {d a : BitVec 8} {m : Mach} {mask : Word}

/-! A waiting word's machine. -/

theorem claimSources_leaves (m : Mach) (x : Ex) (q : Src) : machRest (claimSources m x [q]) = machRest m ∧ (claimSources m x [q]).cores = m.cores
    ∧ takeSources ((claimSources m x [q]).ctxCore x.w.ctx x.core) x [q] = takeSources (m.ctxCore x.w.ctx x.core) x [q] := by
  unfold claimSources
  split
  · exact ⟨rfl, rfl, rfl⟩
  · exact ⟨rfl, rfl, by rw [Mach.adjCtxCore, ctxCore_setCtxCore_same, takeSources_queueUp]⟩

theorem WordEnd.claim {z : Ex} (h : WordEnd s x m z) (srcs : List Src) : WordEnd s x (claimSources m x srcs) z := by
  unfold claimSources
  split
  · exact h
  · exact h.setCtxCore _

/-- A word's end where its core has changed beside the warps in its other slots. -/
theorem WordEnd.onCore {z : Ex} {m' : Mach} (h : WordEnd s x m z) (cur : m'.cur = m.cur) (boxes : m'.ctxCores = m.ctxCores) (cores : ∀ c, c ≠ x.core → m'.core c = m.core c)
    (slots : ∀ p, p ≠ x.pos → m'.warp? x.core p = m.warp? x.core p) : WordEnd s x m' z :=
  { h with
    cur := cur.trans h.cur
    cores := fun c other => (cores c other).trans (h.cores c other)
    others := fun p other => by rw [slots p other]; exact h.others p other
    boxes := fun k other => by rw [boxes]; exact h.boxes k other }

/-- What a delivered word's sources leave counts only once they are taken. -/
theorem UniformWords.taken {e : Rest} {srcs : List Src} {count : Nat} {vs : List Word} {out : Host.Outcome State Fault Refusal} {b : CtxCore} (h : UniformWords s x e srcs d count vs out)
    (same : takeSources e.box x srcs = takeSources b x srcs) : UniformWords s x { e with box := b } srcs d count vs out := by
  obtain ⟨t, y, run, delivered, latches⟩ := h
  exact ⟨t, y, run, { delivered with done := wordDone_congr delivered.done rfl rfl rfl (by simp only [boxAfter, same]) }, latches⟩

/-! Leaving a gang. -/

/-- A gang that a warp has left: the warp's part in steps that are not issued is gone. -/
def Gang.without (w : Warp) (g : Gang) : Gang :=
  { g with
    members := g.members.filter fun p => p.1 ≠ w.uid
    steps := g.steps.map fun t => if t.issued.isNone then { t with members := t.members.filter fun p => p.warp ≠ w.uid } else t }

/-- The gangs of a core that a warp has left. -/
def gangsLeft (gangs : SMap Gang) (w : Warp) : SMap Gang :=
  match w.gang with
  | none => gangs
  | some k => (madj gangs k (Gang.without w)).filter fun e => !(e.2.members.isEmpty && e.2.steps.all fun t => t.issued.isNone)

theorem leaveGang_none {w : Warp} (h : w.gang = none) (core : Nat) : leaveGang m core w = m := by simp only [leaveGang, h]

theorem leaveGang_core (m : Mach) (core : Nat) (w : Warp) (k : Nat) : (leaveGang m core w).core k = if k = core then { m.core core with gangs := gangsLeft (m.core core).gangs w } else m.core k := by
  unfold leaveGang gangsLeft
  cases w.gang with
  | none => split <;> simp_all
  | some g => exact core_adjCore ..

theorem leaveGang_below (m : Mach) (core : Nat) (w : Warp) : machRest (leaveGang m core w) = machRest m ∧ (leaveGang m core w).ctxCores = m.ctxCores := by
  unfold leaveGang
  split <;> exact ⟨rfl, rfl⟩

theorem leaveGang_cur (m : Mach) (core : Nat) (w : Warp) : (leaveGang m core w).cur = m.cur := by
  unfold leaveGang
  split <;> rfl

/-- A warp is no member of the gang that it has left. -/
theorem gangsLeft_member {gangs : SMap Gang} {w : Warp} {k : Nat} {g : Gang} (sorted : msorted gangs = true) (was : w.gang = some k) (there : (k, g) ∈ gangsLeft gangs w) :
    ∀ p ∈ g.members, p.1 ≠ w.uid := by
  simp only [gangsLeft, was, List.mem_filter] at there
  have still : msorted (madj gangs k (Gang.without w)) = true := by
    unfold madj
    split
    · exact msorted_mset _ _ _ sorted
    · exact sorted
  have found := mget_of_mem still there.1
  rw [mget_madj, if_pos rfl] at found
  obtain ⟨before, -, rfl⟩ := Option.map_eq_some_iff.1 found
  exact fun p member => by simpa using (List.mem_filter.1 member).2

/-! What `GANG` comes to. -/

/-- The word whose warp is in no gang. -/
def Ex.ungang (x : Ex) : Ex := { x with w := { x.w with gang := none, arrived := 0 } }

theorem ungang_eq (gang : x.w.gang = none) (arrived : x.w.arrived = 0) : x.ungang = x := by
  unfold Ex.ungang
  rw [← gang, ← arrived]

/-- A warp waits with another mask, and the waiting warp or the word's is named by the other's (R242). -/
def Clashes (x : Ex) (mask : Word) (p : Nat) (w : Warp) : Prop :=
  p ≠ x.pos ∧ w.ctx = x.w.ctx ∧ ∃ k ∈ gangWaits w, k ≠ mask ∧ (inMask k x.pos = true ∨ inMask mask p = true)

/-- The warps of a core that clash with a `GANG`, as the model finds them. -/
def clashing (c : Core) (x : Ex) (mask : Word) : SMap Warp :=
  c.warps.filter fun e => e.1 ≠ x.pos && e.2.ctx == x.w.ctx && (gangWaits e.2).any fun k => k != mask && (inMask k x.pos || inMask mask e.1)

theorem mem_clashing {c : Core} {e : Nat × Warp} : e ∈ clashing c x mask ↔ e ∈ c.warps ∧ Clashes x mask e.1 e.2 := by
  simp [clashing, Clashes, and_assoc]

theorem clashing_nil {c c' : Core} (listed : ListedBefore c c') (apart : ∀ e ∈ c.warps, ¬Clashes x mask e.1 e.2) : clashing c' x mask = [] := by
  refine List.eq_nil_iff_forall_not_mem.2 fun e there => ?_
  obtain ⟨member, other, ctx, k, waits, named⟩ := mem_clashing.1 there
  obtain ⟨w, before, same⟩ := listed e member
  exact apart _ before ⟨other, (ctx_unspilled same).symm.trans ctx, k, gangWaits_unspilled same ▸ waits, named⟩

/-- The effect of a `GANG` that has not waited: the warp leaves its gang, and either a check fails, or the warp goes on without one, or the rendezvous begins (R241, R242). -/
def gangEffect (s : State) (a : BitVec 8) (v : List DWord) (m : Mach) (x : Ex) : Eff :=
  let mask := arg v 0
  let left := leaveGang m x.core x.w
  if 32 ≤ x.pos then .badOf (plainFault .illegalOp) left x.ungang
  else if mask ≠ 0 ∧ !inMask mask x.pos then .badOf (mkFault .selfMask 0 0 mask.toNat) left x.ungang
  else if 6 < (maskLanes mask).length then .badOf (plainFault .reservedField) left x.ungang
  else if (clashing (left.core x.core) x mask).isEmpty then
    (if mask = 0 then .ok left x.ungang [0] else gangMeet s (claimSources left x.ungang [srcI a]) x.ungang mask)
  else .badOf (mkFault .syncMask 0 0 mask.toNat) ((clashing (left.core x.core) x mask).foldl (fun m e => m.adjWarp x.core e.1 refuseGang) left) x.ungang

theorem exec_gang_first (hx : s.ex? = some x) (first : x.r.wait = .none) : exec (.gang d a) s = .next (s.withM (uniEffect s.m x [srcI a] d 1 (gangEffect s a))) := by
  rw [exec_gang, execGang, onWord_next hx]
  simp only [first]
  rfl

/-! Leaving without a new gang. -/

theorem gang_leaves (hx : s.ex? = some x) (first : x.r.wait = .none) (slot : x.pos < 32) (ready : WordReady s x true [srcI a] false d 1 m)
    (zero : arg (operands s x [srcI a] x.low) 0 = 0) (apart : ∀ e ∈ (s.m.core x.core).warps, ¬Clashes x 0 e.1 e.2) :
    UniformWords s x { Rest.same s x with c := { s.m.core x.core with gangs := gangsLeft (s.m.core x.core).gangs x.w }, w := { x.w with gang := none, arrived := 0 } } [srcI a] d 1 [0]
      (exec (.gang d a) s) := by
  have sp := dstReady_spills ready.2
  have gangs := sp.gangs
  have own : (leaveGang m x.core x.w).core x.core = { m.core x.core with gangs := gangsLeft (m.core x.core).gangs x.w } := by rw [leaveGang_core, if_pos rfl]
  have clear : clashing ((leaveGang m x.core x.w).core x.core) x 0 = [] := by
    rw [own]
    exact clashing_nil (c' := m.core x.core) (dstReady_listed ready.2) apart
  have effect : gangEffect s a (operands s x [srcI a] x.low) m x = .ok (leaveGang m x.core x.w) x.ungang [0] := by
    have lanes : (maskLanes (0 : Word)).length = 0 := by decide
    simp only [gangEffect, zero, Nat.not_le.2 slot, clear, lanes, List.isEmpty_nil, ne_eq, not_true_eq_false, false_and, Nat.not_lt_zero, if_false, if_true]
  obtain ⟨below, boxes⟩ := leaveGang_below m x.core x.w
  have ends : WordEnd s x (leaveGang m x.core x.w) x.ungang :=
    (sp.wordEnd (z := x.ungang) ⟨rfl, rfl, rfl, rfl⟩ ⟨rfl, rfl⟩ rfl rfl).onCore (leaveGang_cur ..) boxes (fun c other => by rw [leaveGang_core, if_neg other]) fun p _ => by rw [Mach.warp?, own]; rfl
  rw [exec_gang_first hx first]
  refine uniEffect_leaves hx ready effect ends rfl ⟨rfl, rfl⟩ (below.trans sp.below) ?_ rfl ?_
  · rw [own, gangs]
    have rest := congrArg (fun c : Core => { c with gangs := gangsLeft (s.m.core x.core).gangs x.w }) sp.rest
    exact rest
  · rw [Mach.ctxCore, boxes]
    exact sp.box ..

/-! A gang of one. -/

/-- The group of a word stands in its warp, with its run. -/
theorem group_mem_warp {z : Ex} (inside : z.grp < (if z.hand then z.w.hgroups else z.w.groups).length) : { z.g with run := some z.r } ∈ z.warp.groups ++ z.warp.hgroups := by
  rw [groups_warp, hgroups_warp, List.mem_append]
  split at inside
  next hand => exact .inr (List.mem_iff_getElem?.2 ⟨z.grp, by simp [hand, setAt, inside]⟩)
  next hand => exact .inl (List.mem_iff_getElem?.2 ⟨z.grp, by simp [hand, setAt, inside]⟩)

@[simp] theorem uid_warp (z : Ex) : z.warp.uid = z.w.uid := by unfold Ex.warp; split <;> rfl
@[simp] theorem ctx_warp (z : Ex) : z.warp.ctx = z.w.ctx := by unfold Ex.warp; split <;> rfl
@[simp] theorem gang_warp (z : Ex) : z.warp.gang = z.w.gang := by unfold Ex.warp; split <;> rfl

/-- A warp put back at its `GANG` waits there. -/
theorem gangWaits_put (inside : x.grp < (if x.hand then x.w.hgroups else x.w.groups).length) (gang : x.w.gang = none) :
    mask ∈ gangWaits ({ x with r := { x.r with wait := .gang mask } } : Ex).warp := by
  have member := group_mem_warp (z := { x with r := { x.r with wait := .gang mask } }) inside
  rw [gangWaits, gang_warp, gang]
  exact List.mem_filterMap.2 ⟨_, member, rfl⟩

theorem maskLanes_laneBit {p : Nat} (slot : p < 32) : maskLanes (laneBit p) = [p] := by
  revert p
  decide

/-- The warp of an identity in the gang that it has formed, every other warp as it was. -/
def Warp.formed (uid id : Nat) (w : Warp) : Warp := if w.uid = uid then { w with gang := some id, arrived := 0 } else w

/-- The gang that a warp forms alone. -/
def loneGangOf (s : State) (x : Ex) : Gang := { ctx := x.w.ctx, members := [(x.w.uid, x.pos)], array := none, since := s.turn, nextStep := 0, steps := [] }

/-- The gangs and arrays of a core once a word's warp has formed a gang of its own with an array. -/
def Core.withGang (c : Core) (s : State) (x : Ex) (id array : Nat) : Core :=
  { c with gangs := c.gangs ++ [(id, { loneGangOf s x with array := some array })], arrays := mdel c.arrays array }

/-- A machine after that. -/
def Mach.withGang (m : Mach) (s : State) (x : Ex) (array : Nat) : Mach :=
  ({ m with nextId := m.nextId + 1 } : Mach).setCore x.core
    { (m.core x.core).withGang s x m.nextId array with warps := (m.core x.core).warps.map fun e => (e.1, e.2.formed x.w.uid m.nextId) }

/-- In a machine a gang that a word's warp forms takes an array at once. -/
structure GangReady (s : State) (x : Ex) (m : Mach) (array : Nat) : Prop where
  runs   : s.stopped x.w.ctx x.core = false
  own    : m.warp? x.core x.pos = some x.w
  below  : ∀ e ∈ (m.core x.core).gangs, e.1 < m.nextId
  idle   : waitingGangs (fun ctx => s.stopped ctx x.core) (m.core x.core) = []
  lowest : LowestFree (m.core x.core) array

section
variable {array : Nat}

/-- Room made for the result leaves it so. -/
theorem GangReady.spills (h : GangReady s x s.m array) (sp : SpillsOnly s.m m x.core x.pos) (listed : ListedBefore (s.m.core x.core) (m.core x.core)) : GangReady s x m array where
  runs := h.runs
  own := sp.own.trans h.own
  below := by
    rw [sp.gangs, sp.eq]
    exact h.below
  idle := waitingGangs_listed listed sp.rest h.idle
  lowest := h.lowest.congr sp.gangs

/-- So does what the word reads before it waits. -/
theorem GangReady.congr {n : Mach} (h : GangReady s x m array) (below : machRest n = machRest m) (cores : n.cores = m.cores) : GangReady s x n array where
  runs := h.runs
  own := by rw [Mach.warp?, Mach.core, cores]; exact h.own
  below := by
    have fresh := congrArg Mach.nextId below
    rw [Mach.core, cores, show n.nextId = m.nextId from fresh]
    exact h.below
  idle := by rw [Mach.core, cores]; exact h.idle
  lowest := by rw [Mach.core, cores]; exact h.lowest

theorem formGang_alone (h : GangReady s x m array) : formGang s m x.core x.w.ctx [(x.w.uid, x.pos)] = (m.nextId, m.withGang s x array) := by
  have present : (loneGangOf s x).present (fun ctx => s.stopped ctx x.core) (m.core x.core) = true := by
    have resident : (m.core x.core).warps.any (fun e => e.2.uid == x.w.uid) = true := List.any_eq_true.2 ⟨_, mem_of_mget h.own, by simp⟩
    simp only [Gang.present, loneGangOf, h.runs, List.any_cons, resident, Bool.not_false, Bool.true_or, Bool.and_self]
  have bind := bindArrays_formed h.below h.idle rfl present h.lowest
  have joins : (fun e : Nat × Warp => if [(x.w.uid, x.pos)].any (fun p => p.1 == e.2.uid) then (e.1, { e.2 with gang := some m.nextId, arrived := 0 }) else e)
      = fun e => (e.1, e.2.formed x.w.uid m.nextId) := funext fun e => by
    by_cases same : e.2.uid = x.w.uid <;> simp [Warp.formed, same, Ne.symm]
  unfold formGang
  simp only [newId_fst, newId_snd, Mach.adjCore, joins]
  rw [show ({ m with nextId := m.nextId + 1 } : Mach).core x.core = m.core x.core from rfl, show (Gang.mk x.w.ctx [(x.w.uid, x.pos)] none s.turn 0 []) = loneGangOf s x from rfl, bind]
  rfl

theorem core_withGang (m : Mach) (s : State) (x : Ex) :
    (m.withGang s x array).core x.core = { (m.core x.core).withGang s x m.nextId array with warps := (m.core x.core).warps.map fun e => (e.1, e.2.formed x.w.uid m.nextId) } := by
  rw [Mach.withGang, core_setCore, if_pos rfl]

/-- A word's end once its warp has formed a gang: a warp of another identity stays out of it. -/
theorem WordEnd.withGang {z : Ex} (h : WordEnd s x m z) (apart : ∀ e ∈ (m.core x.core).warps, e.1 ≠ x.pos → e.2.uid ≠ x.w.uid) : WordEnd s x (m.withGang s x array) z := by
  refine h.onCore rfl rfl (fun k other => ?_) fun p other => ?_
  · rw [Mach.withGang, core_setCore, if_neg other]
    rfl
  · rw [Mach.warp?, core_withGang, mget_map, Mach.warp?]
    cases found : mget (m.core x.core).warps p with
    | none => rfl
    | some w => rw [Option.map_some, Warp.formed, if_neg (apart _ (mem_of_mget found) other)]

/-- A rendezvous that names the warp alone is complete at once, and the warp's gang has its array. -/
theorem gangMeet_alone {z : Ex} {id : Nat} {n : Mach} {g : Gang} (gang : z.w.gang = none) (inside : z.grp < (if z.hand then z.w.hgroups else z.w.groups).length) (slot : z.pos < 32)
    (formed : formGang s m z.core z.w.ctx [(z.w.uid, z.pos)] = (id, n)) (holds : mget (n.core z.core).gangs id = some g) (bound : g.array = some array) :
    gangMeet s m z (laneBit z.pos) = .ok n { z with w := { z.w with gang := some id, arrived := 0 } } [BitVec.ofNat 32 (2 ^ 31 + 256 * array + 0)] := by
  have waits := gangWaits_put (mask := laneBit z.pos) inside gang
  have resident : mget ((m.put { z with r := { z.r with wait := .gang (laneBit z.pos) } }).core z.core).warps z.pos
      = some ({ z with r := { z.r with wait := .gang (laneBit z.pos) } } : Ex).warp := by simp [Mach.put, mget_mset_same]
  have result : gangResult array (laneBit z.pos) z.pos = BitVec.ofNat 32 (2 ^ 31 + 256 * array + 0) := by
    simp only [gangResult, maskLanes_laneBit slot, Nat.lt_irrefl, decide_false, List.filter_cons, Bool.false_eq_true, if_false, List.filter_nil, List.length_nil, Nat.mul_comm array]
  simp only [gangMeet, gang, maskLanes_laneBit slot, List.all_cons, List.all_nil, gangReady, resident, waits, List.contains_eq_mem, decide_true, Bool.or_true, Bool.and_self, if_true, List.filterMap_cons,
    List.filterMap_nil, ctx_warp, uid_warp, formed, holds, Option.bind_some, bound, result]

/-- The effect of a `GANG` of the warp's own slot alone. -/
theorem gangEffect_alone {v : List DWord} (gang : x.w.gang = none) (slot : x.pos < 32) (own : arg v 0 = laneBit x.pos) (apart : ∀ e ∈ (m.core x.core).warps, e.1 ≠ x.pos → gangWaits e.2 = []) :
    gangEffect s a v m x = gangMeet s (claimSources m x [srcI a]) x.ungang (laneBit x.pos) := by
  have here : inMask (laneBit x.pos) x.pos = true := (mem_maskLanes.1 (by rw [maskLanes_laneBit slot]; exact List.mem_singleton_self _)).2
  have named : laneBit x.pos ≠ 0 := fun zero => by
    rw [zero] at here
    exact absurd here (by simp [inMask])
  have clear : clashing (m.core x.core) x (laneBit x.pos) = [] := List.eq_nil_iff_forall_not_mem.2 fun e there => by
    obtain ⟨member, other, -, k, waits, -⟩ := mem_clashing.1 there
    rw [apart e member other] at waits
    exact absurd waits List.not_mem_nil
  simp only [gangEffect, own, leaveGang_none gang, Nat.not_le.2 slot, here, maskLanes_laneBit slot, clear, named, List.isEmpty_nil, List.length_singleton, Bool.not_true, Bool.false_eq_true, and_false,
    if_false, if_true, Nat.reduceLT]
  rfl

/-- What a `GANG` leaves that forms a gang of one with an array. -/
def gangFormed (s : State) (x : Ex) (array : Nat) : Rest :=
  { Rest.same s x with
    m := { s.m with nextId := s.m.nextId + 1 }, c := (s.m.core x.core).withGang s x s.m.nextId array, w := { x.w with gang := some s.m.nextId, arrived := 0 } }

theorem gang_forms (hx : s.ex? = some x) (first : x.r.wait = .none) (gang : x.w.gang = none) (slot : x.pos < 32) (ready : WordReady s x true [srcI a] false d 1 m)
    (own : arg (operands s x [srcI a] x.low) 0 = laneBit x.pos) (apart : ∀ e ∈ (s.m.core x.core).warps, e.1 ≠ x.pos → gangWaits e.2 = [] ∧ e.2.uid ≠ x.w.uid)
    (takes : GangReady s x s.m array) : UniformWords s x (gangFormed s x array) [srcI a] d 1 [BitVec.ofNat 32 (2 ^ 31 + 256 * array + 0)] (exec (.gang d a) s) := by
  obtain ⟨-, -, group, -⟩ := ex?_some hx
  have sp := dstReady_spills ready.2
  have listed := dstReady_listed ready.2
  have others : ∀ e ∈ (m.core x.core).warps, e.1 ≠ x.pos → gangWaits e.2 = [] ∧ e.2.uid ≠ x.w.uid := fun e member other => by
    obtain ⟨w, before, same⟩ := listed e member
    rw [gangWaits_unspilled same, uid_unspilled same]
    exact apart _ before other
  obtain ⟨claimed, cores, taken⟩ := claimSources_leaves m x (srcI a)
  have ends := (sp.wordEnd (z := { x with w := { x.w with gang := some s.m.nextId, arrived := 0 } }) ⟨rfl, rfl, rfl, rfl⟩ ⟨rfl, rfl⟩ rfl rfl).claim [srcI a]
  have takes := (takes.spills sp listed).congr claimed cores
  have effect := gangEffect_alone (s := s) (a := a) gang slot own fun e member other => (others e member other).1
  generalize claimSources m x [srcI a] = n at claimed cores taken ends takes effect
  have core : n.core x.core = m.core x.core := by rw [Mach.core, cores]; rfl
  have below : machRest n = machRest s.m := claimed.trans sp.below
  have fresh := congrArg Mach.nextId below
  change n.nextId = s.m.nextId at fresh
  have holds : mget ((n.withGang s x array).core x.core).gangs n.nextId = some { loneGangOf s x with array := some array } := by
    rw [core_withGang, Core.withGang, ← mset_last _ takes.below, mget_mset_same]
  have formed : formGang s n x.ungang.core x.ungang.w.ctx [(x.ungang.w.uid, x.ungang.pos)] = (n.nextId, n.withGang s x array) := formGang_alone (x := x) takes
  have met := gangMeet_alone (z := x.ungang) rfl (List.getElem?_eq_some_iff.mp group).1 slot formed holds rfl
  rw [fresh] at met
  rw [exec_gang_first hx first]
  refine UniformWords.taken (e := { gangFormed s x array with box := n.ctxCore x.w.ctx x.core }) (b := boxOf s x)
    (uniEffect_leaves hx ready (effect.trans met) (ends.withGang (by rw [core]; exact fun e member other => (others e member other).2)) rfl ⟨rfl, rfl⟩ ?_ ?_ rfl rfl)
    (taken.trans (by rw [sp.box]; rfl))
  · have rest := congrArg (fun k : Mach => { k with nextId := k.nextId + 1 }) below
    exact rest
  · rw [core_withGang, core, fresh]
    have rest := congrArg (fun c : Core => c.withGang s x s.m.nextId array) sp.rest
    exact rest

/-! The answer. -/

/-- The slots of a mask below a slot. -/
theorem maskLanes_below {p : Nat} (slot : p < 32) : (maskLanes mask).filter (· < p) = (List.range p).filter fun l => inMask mask l := by
  obtain ⟨k, above⟩ := Nat.exists_eq_add_of_le slot.le
  have split : List.range 32 = List.range p ++ (List.range k).map (p + ·) := by rw [above, List.range_add]
  rw [maskLanes, List.filter_filter, split, List.filter_append, List.filter_eq_nil_iff (l := (List.range k).map (p + ·)) |>.2 (by simp), List.append_nil]
  exact List.filter_congr fun l low => by simp [List.mem_range.1 low, inMask]

/-- A `GANG` whose warp's gang has its array is answered. -/
theorem gang_answers (hx : s.ex? = some x) {k : Nat} {g : Gang} (waits : x.r.wait = .gang mask) (slot : x.pos < 32) (gang : x.w.gang = some k) (there : mget (s.m.core x.core).gangs k = some g)
    (bound : g.array = some array) (ready : WordReady s x true [srcI a] false d 1 m) :
    UniformWords s x (.same s x) [srcI a] d 1 [BitVec.ofNat 32 (2 ^ 31 + 256 * array + ((List.range x.pos).filter fun p => inMask mask p).length)] (exec (.gang d a) s) := by
  have sp := dstReady_spills ready.2
  have ends : WordEnd s x m x := sp.wordEnd ⟨rfl, rfl, rfl, rfl⟩ ⟨rfl, rfl⟩ rfl rfl
  have result : gangResult array mask x.pos = BitVec.ofNat 32 (2 ^ 31 + 256 * array + ((List.range x.pos).filter fun p => inMask mask p).length) := by
    rw [gangResult, maskLanes_below slot, Nat.mul_comm array]
  obtain ⟨y, delivered, latches⟩ := delivered_writeDst hx ends rfl (fun _ _ _ => rfl) rfl rfl [srcI a] false d 1 (fun _ => [gangResult array mask x.pos]) m (sp.fillKnow x [srcI a])
  obtain ⟨word, rest, -⟩ := writeDst_word (takeSources (m.ctxCore x.w.ctx x.core) x [srcI a]) x (x.fillKnow m [srcI a]) d 1 (fun _ => [gangResult array mask x.pos])
  have ctx := congrArg Warp.ctx rest
  have core := congrArg Ex.core word
  rw [← result]
  refine ⟨_, y, ?_, delivered_congr delivered sp.below sp.rest rfl (sp.box ..), latches⟩
  rw [exec_gang, execGang, onWord_next hx]
  simp only [waits, gangMeet, gang, there, Option.bind_some, bound, completeUni, ready.2]
  generalize writeDst (takeSources (m.ctxCore x.w.ctx x.core) x [srcI a]) x (x.fillKnow m [srcI a]) d 1 (fun _ => [gangResult array mask x.pos]) = cy at ctx core ⊢
  rw [show cy.2.w.ctx = x.w.ctx from ctx, show cy.2.core = x.core from core]
  rfl

/-! What parks. -/

/-- A uniform word whose effect stays and whose lanes then fault. -/
theorem uniEffect_parks {srcs : List Src} {count : Nat} {f : List DWord → Mach → Ex → Eff} {n : Mach} {y : Ex} {e : FaultInfo} (ready : WordReady s x true srcs false d count s.m)
    (effect : f (operands s x srcs x.low) s.m x = .badOf e n y) : uniEffect s.m x srcs d count f = deliverAll n y e := by
  have value : srcValues (s.m.ctxCore x.w.ctx x.core) x x.low srcs [] = operands s x srcs x.low := rfl
  simp only [uniEffect, ready.1, ready.2, value, effect]

theorem gang_selfMask (hx : s.ex? = some x) (first : x.r.wait = .none) (gang : x.w.gang = none) (arrived : x.w.arrived = 0) (slot : x.pos < 32) (plain : Plain x)
    (ready : WordReady s x true [srcI a] false d 1 s.m) (value : arg (operands s x [srcI a] x.low) 0 = mask) (nonzero : mask ≠ 0) (out : inMask mask x.pos = false) :
    ∃ u, exec (.gang d a) s = .next u ∧ AllParked s x u (fun _ => { cause := .selfMask, detail := 0, addr := BitVec.ofNat 48 mask.toNat }) x.pc (boxOf s x) := by
  have effect : gangEffect s a (operands s x [srcI a] x.low) s.m x = .badOf (mkFault .selfMask 0 0 mask.toNat) s.m x := by
    simp only [gangEffect, value, leaveGang_none gang, Nat.not_le.2 slot, out, nonzero, ungang_eq gang arrived, ne_eq, not_false_eq_true, Bool.not_false, and_self, if_false, if_true]
  rw [exec_gang_first hx first, uniEffect_parks ready effect]
  exact ⟨_, rfl, deliverAll_parks plain _⟩

/-- All lanes of a group outside the handler parked: the warp in the word's slot is all that changes. -/
theorem deliverAll_setWarp (plain : Plain x) (m : Mach) (f : FaultInfo) :
    ∃ v, deliverAll m x f = m.setWarp x.core x.pos v ∧ ∀ l, l < 32 → v.thread l = if inMask x.g.lanes l then parkedThread x l f x.pc else x.w.thread l := by
  obtain ⟨outside, lanes, levels⟩ := plain
  have parks := parks_foldl x x.lanes (fun _ => f) x.pc (lanes_nodup x) (lanes_lt x)
  obtain ⟨gone, -⟩ := parks.allParked (s := State.reset.withM m) outside lanes (.refl _ x)
  obtain ⟨l, ls, first⟩ := lanes_cons lanes
  set y := x.lanes.foldl (fun z l => z.park l (z.record f) x.pc) x with hy
  have took : takeFaults m x ((x.lanes.map fun l => (l, f)).map fun e => (e.1, e.2, x.pc)) = (m, some y) := by
    simp only [takeFaults, hy, first, List.map_cons, Ex.inHandler, outside, Bool.false_eq_true, if_false, List.foldl_cons, List.foldl_map]
  have closed : resolveLevels 4 m x = .resolved m x := by simp [resolveLevels, levels]
  have done : deliverAll m x f = m.setWarp x.core x.pos y.without := by
    rw [first] at took
    simp only [List.map_cons] at took
    simp only [deliverAll, deliver, first, List.map_cons, closed, took, gone, if_true, Mach.putOrDrop, congrArg Ex.core parks.word, congrArg Ex.pos parks.word]
  refine ⟨y.without, done, fun l lane => ?_⟩
  have kept : y.without.thread l = y.w.thread l := by
    unfold Ex.without
    split <;> rfl
  rw [kept, parks.threads l lane, lanes_contains x l lane]

theorem warp?_adjWarp (m : Mach) (core p q : Nat) (f : Warp → Warp) : (m.adjWarp core p f).warp? core q = if q = p then (m.warp? core q).map f else m.warp? core q := by
  unfold Mach.adjWarp
  cases found : m.warp? core p with
  | none => split <;> simp_all
  | some w => by_cases same : q = p <;> simp [same, found]

/-- A group whose `GANG`, where it waits at one, is refused. -/
def Group.refused (g : Group) : Group :=
  match g.run with
  | some r => (match r.wait with | .gang k => { g with run := some { r with wait := .refused (mkFault .syncMask 0 0 k.toNat) } } | _ => g)
  | none => g

theorem refuseGang_eq (w : Warp) : refuseGang w = { w with groups := w.groups.map Group.refused, hgroups := w.hgroups.map Group.refused } := rfl

theorem refused_refused (g : Group) : g.refused.refused = g.refused := by
  unfold Group.refused
  cases run : g.run with
  | none => simp only [run]
  | some r => cases wait : r.wait <;> simp only [run, wait]

/-- A warp that has been refused is not refused again. -/
theorem refuseGang_refuseGang (w : Warp) : refuseGang (refuseGang w) = refuseGang w := by
  simp only [refuseGang_eq, List.map_map, Function.comp_def, refused_refused]

/-- The machine with the warps in some slots of a core refused. -/
def refuseAll (m : Mach) (core : Nat) (l : SMap Warp) : Mach := l.foldl (fun m e => m.adjWarp core e.1 refuseGang) m

theorem warp?_refuseAll (m : Mach) (core p : Nat) (l : SMap Warp) : (refuseAll m core l).warp? core p = if p ∈ l.map (·.1) then (m.warp? core p).map refuseGang else m.warp? core p := by
  unfold refuseAll
  induction l using List.reverseRecOn with
  | nil => rfl
  | append_singleton l e ih =>
    rw [List.foldl_concat, warp?_adjWarp, ih]
    have named : p ∈ (l ++ [e]).map (·.1) ↔ p ∈ l.map (·.1) ∨ p = e.1 := by simp only [List.map_append, List.mem_append, List.map_cons, List.map_nil, List.mem_singleton]
    by_cases before : p ∈ l.map (·.1)
    · simp only [named, before, true_or, if_true, Option.map_map, Function.comp_def, refuseGang_refuseGang, ite_self]
    · simp only [named, before, false_or, if_false]

theorem refuseAll_leaves (m : Mach) (core : Nat) (l : SMap Warp) :
    machRest (refuseAll m core l) = machRest m ∧ (refuseAll m core l).ctxCores = m.ctxCores ∧ coreRest ((refuseAll m core l).core core) = coreRest (m.core core) := by
  unfold refuseAll
  induction l using List.reverseRecOn with
  | nil => exact ⟨rfl, rfl, rfl⟩
  | append_singleton l e ih =>
    rw [List.foldl_concat, Mach.adjWarp]
    split
    · exact ⟨ih.1, ih.2.1, by rw [core_setWarp, if_pos rfl]; exact ih.2.2⟩
    · exact ih

/-- A `GANG` that clashes with waiting warps refuses each of them and parks. -/
theorem gang_clashes (hx : s.ex? = some x) (first : x.r.wait = .none) (gang : x.w.gang = none) (slot : x.pos < 32) (plain : Plain x) (ready : WordReady s x true [srcI a] false d 1 s.m)
    (value : arg (operands s x [srcI a] x.low) 0 = mask) (own : mask ≠ 0 → inMask mask x.pos = true) (few : (maskLanes mask).length ≤ 6) {p : Nat} {w : Warp} (there : s.m.warp? x.core p = some w)
    (clash : Clashes x mask p w) :
    ∃ u v, exec (.gang d a) s = .next u ∧ u.m.warp? x.core x.pos = some v
      ∧ (∀ l, l < 32 → v.thread l = if inMask x.g.lanes l then parkedThread x l { cause := .syncMask, detail := 0, addr := BitVec.ofNat 48 mask.toNat } x.pc else x.w.thread l)
      ∧ u.m.warp? x.core p = some (refuseGang w) ∧ coreRest (u.m.core x.core) = coreRest (s.m.core x.core) ∧ machRest u.m = machRest s.m ∧ u.m.ctxCores = s.m.ctxCores := by
  set l := clashing (s.m.core x.core) x mask with hl
  have member : (p, w) ∈ l := mem_clashing.2 ⟨mem_of_mget there, clash⟩
  have effect : gangEffect s a (operands s x [srcI a] x.low) s.m x = .badOf (mkFault .syncMask 0 0 mask.toNat) (refuseAll s.m x.core l) x.ungang := by
    have self : ¬(mask ≠ 0 ∧ (!inMask mask x.pos) = true) := fun h => by rw [own h.1] at h; exact absurd h.2 (by decide)
    have found : l.isEmpty = false := by
      rw [List.isEmpty_eq_false_iff]
      exact List.ne_nil_of_mem member
    simp only [gangEffect, value, leaveGang_none gang, Nat.not_le.2 slot, self, Nat.not_lt.2 few, ← hl, found, Bool.false_eq_true, if_false]
    rfl
  obtain ⟨v, parked, threads⟩ := deliverAll_setWarp (x := x.ungang) plain (refuseAll s.m x.core l) (mkFault .syncMask 0 0 mask.toNat)
  have parked : deliverAll (refuseAll s.m x.core l) x.ungang (mkFault .syncMask 0 0 mask.toNat) = (refuseAll s.m x.core l).setWarp x.core x.pos v := parked
  obtain ⟨below, boxes, core⟩ := refuseAll_leaves s.m x.core l
  refine ⟨_, v, by rw [exec_gang_first hx first, uniEffect_parks ready effect, parked], ?_, threads, ?_, ?_, below, boxes⟩
  · rw [withM_m, warp?_setWarp, if_pos ⟨rfl, rfl⟩]
  · rw [withM_m, warp?_setWarp, if_neg fun same => clash.1 same.2, warp?_refuseAll, if_pos (List.mem_map_of_mem member), there]
    rfl
  · rw [withM_m, core_setWarp, if_pos rfl]
    exact core

end

end

end Sys2Proof.Machine
end

section
namespace Sys2Proof.Machine

/-- Settles O33: `TCFG`, `TBND` and `TBND.t` by their lemmas; each outcome of `GANG` by its own, and the binding of an array by the order of the gangs that wait. -/
theorem termConfigurationBoundsGangs : Obligations.TermConfigurationBoundsGangs := by
  refine ⟨fun s x d a k r g m hx => ⟨tcfg_done hx r g, fun tiled => ⟨fun ready => tbnd_bounds hx tiled ready,
    fun sources room v aligned low inside clean free => tbndT_issued hx tiled sources room v aligned low inside rfl clean free⟩⟩,
    fun s => ⟨fun x d a m hx slot ready => ⟨fun first zero apart => ?_, fun first gang own apart runs idle below array bound free lowest => ?_,
      fun held k g array waits gang there bound => gang_answers hx waits slot gang there bound ready, fun first gang arrived plain same nonzero out => ?_,
      fun first gang plain same own few p w there clash => ?_⟩, fun core k g array => ?_⟩⟩
  · refine ⟨_, gang_leaves hx first slot ready zero (zero ▸ apart), fun gang => by rw [gangsLeft, gang], fun k g was there sorted => gangsLeft_member sorted was there⟩
  · have earlier : ∀ e ∈ (s.m.core x.core).gangs, e.1 < s.m.nextId := by simpa [List.all_eq_true] using below
    refine ⟨_, _, gang_forms hx first gang slot ready own apart ⟨runs, (ex?_some hx).2.1, earlier, idle, bound, free, lowest⟩, ?_, fun k other => ?_⟩
    · rw [← mset_last _ earlier, mget_mset_same]
      rfl
    · rw [← mset_last _ earlier, mget_mset_other _ other]
  · subst same
    exact gang_selfMask hx first gang arrived slot plain ready rfl nonzero out
  · subst same
    exact gang_clashes hx first gang slot plain ready rfl own few there clash
  · intro c waits sorted ⟨there, waiting, present⟩ longest bound free lowest
    obtain ⟨gs, next⟩ := waitingGangs_longest there waiting present fun e listed unbound here other => longest e ⟨listed, unbound, here⟩ other
    obtain ⟨as, lowestFree⟩ := LowestFree.first ⟨bound, free, lowest⟩
    refine ⟨_, gangArrayBind_binds next lowestFree, rfl, rfl, ?_, fun j => ?_⟩
    · rw [withM_m, core_adjCore, if_pos rfl]
    · rw [withM_m, core_adjCore, if_pos rfl, mget_madj, mget_of_mem sorted there]
      rfl

end Sys2Proof.Machine
end

section
/-! SUPPORT. A rendezvous on a core whose warps are listed out of the order of their slots. -/

namespace Sys2Proof.Machine

/-- `n` live registers from `v r` up. -/
def liveFrom (r n : Nat) : SMap LaneVec := (List.range n).map fun k => (r + k, List.replicate 32 1)

/-- The tile v32 to v47 of the warp at the word below, in a gang of its own with array 0, and the step at which it has arrived. -/
def loneMember : StepMember :=
  { warp := 5, pos := 0, lanes := 0xFFFFFFFF, reg := 32, aAddr := 0, bAddr := 0, fa := [], fb := [], z := true, sp := true, since := 0 }
def loneStep : TermStep := { number := 0, members := [loneMember], issued := none, leader := 0, cfg := (32, 1), loaded := none, first := 0, count := 0 }
def loneGang : Gang := { ctx := 1, members := [(5, 0)], array := some 0, since := 0, nextStep := 1, steps := [loneStep] }

/-- A warp of that gang, its 16 registers live, that waits for step 0. -/
def tileWarp : Warp :=
  let w := loneWarp 0xFFFFFFFF (liveFrom 32 16)
  { w with gang := some 6, arrived := 1, groups := w.groups.map fun g => { g with run := g.run.map fun r => { r with wait := .tmma 6 0 } } }

/-- A warp that has ended and holds 127 registers until its lease ends. -/
def endedWarp : Warp :=
  { loneWarp 0 (liveFrom 0 111) with
    groups := [], pends := [{ id := 3, kind := .term 2 0, lanes := 1, reg := 111, count := 16, vals := [], pc := 0, run := 0, addrs := [], sync := false }] }

/-- Slot 1 is listed before slot 0; 32 ended warps leave 16 registers of the core free beside the 16 of the warp in slot 0. -/
def crowdedState : State :=
  let s := loneState tileWarp [] [] []
  s.withM (s.m.adjCore 0 fun c =>
    { c with warps := [(1, { loneWarp 1 [] with uid := 6 }), (0, tileWarp)], gangs := [(6, loneGang)], leaving := List.replicate 32 endedWarp })

/-- A gang after a word. -/
def gangAfter (out : Host.Outcome State Fault Refusal) (core gid : Nat) : Option Gang :=
  match out with
  | .next u => mget (u.m.core core).gangs gid
  | _ => none

theorem crowded_free : freeRegs crowdedState.m 0 = 16 := by decide +kernel

/-- The warp put back at its word is listed once more, before slot 1, and its registers count twice: the core has no register left for the lease. -/
theorem crowded_waits : gangAfter (exec (.tmma 32 8 0 0 1 1) crowdedState) 0 6 = some loneGang := by decide +kernel

/-- Refutes O34: where a core lists its warps out of the order of their slots, the warp of a gang of one that waits at its rendezvous is listed twice once it has been put back, so that its registers count
twice; of a core with 16 registers free and 16 in the warp none is then left for the lease, and the step does not issue. The statement asks of the state no more than the word's own conditions; that a
core's warps are listed by rising slot is not among them. -/
theorem not_termSteps : ¬ Obligations.TermSteps := by
  rintro ⟨words, -⟩
  obtain ⟨-, -, rendezvous⟩ := words crowdedState (loneEx tileWarp) 32 8 0 0 1 1 (by decide +kernel)
  obtain ⟨u, run, ⟨gang, there, step, listed, -, -, issued⟩, -⟩ := rendezvous 6 loneGang 0 loneStep rfl (by decide +kernel) (by decide +kernel) rfl (by decide) (by decide) (by decide)
    crowded_free.ge (.inl rfl) (by decide +kernel)
  have same := crowded_waits
  rw [run] at same
  rw [Option.some.inj (there.symm.trans same), loneGang, List.mem_singleton] at listed
  rw [listed] at issued
  exact absurd issued nofun

end Sys2Proof.Machine
end

section
/-! SUPPORT. Words that go to the accumulate network's directory: what their claims leave (R72, R142), and how a uniform word without a destination ends. -/

namespace Sys2Proof.Machine

section
variable {s : State} {x z : Ex} {srcs : List Src} {m : Mach}

/-- What a waiting word has read moves the per-context state of its core alone (R72, R192). -/
theorem claimSources_eq (m : Mach) (x : Ex) (srcs : List Src) : ∃ boxes, claimSources m x srcs = { m with ctxCores := boxes } := by
  unfold claimSources
  split
  · exact ⟨m.ctxCores, rfl⟩
  · exact ⟨_, rfl⟩

/-- The requests in flight across the bridge (R142) do not depend on mailboxes, queues and scratchpads. -/
theorem syncOut_boxes (s : State) (m : Mach) (boxes : SMap CtxCore) (core : Nat) : syncOut s { m with ctxCores := boxes } core = syncOut s m core := by
  have peek : ∀ ctx va acc, peekPa s { m with ctxCores := boxes } ctx core va acc = peekPa s m ctx core va acc :=
    fun ctx va acc => peekPa_over s m { m with ctxCores := boxes } ctx core va acc
  simp only [syncOut, peek]
  rfl

theorem syncFull_claimSources (s : State) (m : Mach) (x : Ex) (srcs : List Src) (core : Nat) : syncFull s (claimSources m x srcs) core = decide (8 ≤ syncOut s m core) := by
  obtain ⟨boxes, same⟩ := claimSources_eq m x srcs
  rw [same, syncFull, syncOut_boxes]

/-! How a uniform word ends that delivers nothing. -/

theorem uniEffect_holds {count : Nat} {d : BitVec 8} {f : List DWord → Mach → Ex → Eff} {n : Mach} {y : Ex} {k : Wait} (ready : WordReady s x true srcs false d count s.m)
    (effect : f (operands s x srcs x.low) s.m x = .hold n y k) : uniEffect s.m x srcs d count f = n.hold y k := by
  have value : srcValues (s.m.ctxCore x.w.ctx x.core) x x.low srcs [] = operands s x srcs x.low := rfl
  simp only [uniEffect, ready.1, ready.2, value, effect]

theorem uniEffect_faults {count : Nat} {d : BitVec 8} {f : List DWord → Mach → Ex → Eff} {n : Mach} {e : FaultInfo} (ready : WordReady s x true srcs false d count s.m)
    (effect : f (operands s x srcs x.low) s.m x = .bad e n) : uniEffect s.m x srcs d count f = deliverAll n x e := by
  have value : srcValues (s.m.ctxCore x.w.ctx x.core) x x.low srcs [] = operands s x srcs x.low := rfl
  simp only [uniEffect, ready.1, ready.2, value, effect]

/-- A uniform word without a destination that has waited for its answer. -/
theorem completeUni_done (hx : s.ex? = some x) (ready : srcReady s.m x true srcs = .go) :
    UniformWords s x (.same s x) srcs zeroSpec 0 [] (.next (s.withM (completeUni s.m x srcs zeroSpec 0 []))) := by
  have same : completeUni s.m x srcs zeroSpec 0 [] = uniEffect s.m x srcs zeroSpec 0 (fun _ m x => .ok m x []) := by
    simp only [uniEffect, ready]
    rfl
  rw [same]
  exact uniEffect_same hx ⟨ready, rfl⟩ rfl

/-- A word's end where chains of the directory have changed. -/
theorem WordEnd.rechained (h : WordEnd s x m z) (chains : SMap Chain) : WordEnd s x { m with chains := chains } z :=
  { cur := h.cur, place := h.place, groups := h.groups, run := h.run, group := h.group, cores := h.cores, others := h.others, boxes := h.boxes }
end
end Sys2Proof.Machine
end

section
/-! SUPPORT. `ACHAIN`, `ACLOSE` and `ARSV` as they issue (R266 to R268, R271, R276). -/

namespace Sys2Proof.Machine

section
variable {s : State} {x : Ex} {d a : BitVec 8}

/-! `ACHAIN`. -/

/-- Declaration words within the limits of R266 and R267. -/
theorem declReserved_valid {role lo hi : Nat} (low : lo % 2 ^ 7 = 0) (high : hi / 2 ^ 24 = 0) (middle : hi / 2 ^ 9 % 2 ^ 7 = 0)
    (hop : if role = 2 then lo / 2 ^ 7 % 2 ^ 8 = 0 ∧ lo / 2 ^ 15 % 2 = 0 ∧ 1 ≤ hi / 2 ^ 16 % 2 ^ 8 ∧ hi / 2 ^ 16 % 2 ^ 8 ≤ 64 else lo / 2 ^ 7 % 2 ^ 8 ≤ 143 ∧ hi / 2 ^ 16 % 2 ^ 8 = 0)
    (exp : if role = 1 then hi % 2 ^ 9 = 0 else 1 ≤ hi % 2 ^ 9 ∧ hi % 2 ^ 9 ≤ 256) : declReserved role lo hi = false := by
  unfold declReserved natBits
  simp only [Bool.or_eq_false_iff, decide_eq_false_iff_not]
  refine ⟨⟨⟨⟨?_, ?_⟩, ?_⟩, ?_⟩, ?_⟩
  · omega
  · omega
  · omega
  · split at hop <;> simp only [*, if_true, if_false, Bool.or_eq_false_iff, decide_eq_false_iff_not] <;> omega
  · split at exp <;> simp only [*, if_true, if_false, Bool.or_eq_false_iff, decide_eq_false_iff_not] <;> omega

/-- The request that the words of a declaration bring to the directory. -/
def declRequest (s : State) (x : Ex) (role lo hi : Nat) (page : Option Nat) : DirRequest :=
  { warp := x.w.uid, lane := x.low, ctx := x.w.ctx, core := x.core, pos := x.pos, close := false, chain := lo / 2 ^ 16
    decl :=
      { core := x.core, warp := x.w.uid, role := role, page := page, hop := coreNamed (s.ctx x.w.ctx) (lo / 2 ^ 15 % 2 * 144 + lo / 2 ^ 7 % 2 ^ 8)
        nrc := hi / 2 ^ 16 % 2 ^ 8, exp := hi % 2 ^ 9, resv := 0, closed := false, retired := false, buffer := none } }

/-- A word's request to the directory, which is die 0's: held while the core's bridge is full of them (R142), and otherwise on its way, the word waiting for the answer. -/
def carried (s : State) (x : Ex) (srcs : List Src) (q : DirRequest) : Mach :=
  if dieOf x.core ≠ 0 ∧ 8 ≤ syncOut s s.m x.core then (claimSources s.m x srcs).hold x .register
  else Mach.hold { claimSources s.m x srcs with dirQueue := s.m.dirQueue ++ [q] } x .directory

theorem carried_held {srcs : List Src} (q : DirRequest) (away : dieOf x.core ≠ 0) (full : 8 ≤ syncOut s s.m x.core) :
    carried s x srcs q = (claimSources s.m x srcs).hold x .register := if_pos ⟨away, full⟩

theorem carried_brought {srcs : List Src} (q : DirRequest) (room : dieOf x.core ≠ 0 → syncOut s s.m x.core < 8) :
    carried s x srcs q = Mach.hold { claimSources s.m x srcs with dirQueue := s.m.dirQueue ++ [q] } x .directory :=
  if_neg fun ⟨away, full⟩ => absurd full (Nat.not_le.2 (room away))

/-- A uniform word whose effect is a request to the directory. -/
theorem uniEffect_carries {srcs : List Src} {f : List DWord → Mach → Ex → Eff} {q : DirRequest} (ready : srcReady s.m x true srcs = .go)
    (effect : f (operands s x srcs x.low) s.m x =
      if dieOf x.core ≠ 0 ∧ syncFull s (claimSources s.m x srcs) x.core then .hold (claimSources s.m x srcs) x .register
      else .hold { claimSources s.m x srcs with dirQueue := (claimSources s.m x srcs).dirQueue ++ [q] } x .directory) :
    uniEffect s.m x srcs zeroSpec 0 f = carried s x srcs q := by
  have queue : (claimSources s.m x srcs).dirQueue = s.m.dirQueue := by
    obtain ⟨boxes, same⟩ := claimSources_eq s.m x srcs
    rw [same]
  rw [syncFull_claimSources, queue] at effect
  unfold carried
  split
  next full =>
    rw [if_pos ⟨full.1, decide_eq_true full.2⟩] at effect
    exact uniEffect_holds ⟨ready, rfl⟩ effect
  next room =>
    rw [if_neg fun both => room ⟨both.1, of_decide_eq_true both.2⟩] at effect
    exact uniEffect_holds ⟨ready, rfl⟩ effect

theorem achain_carries (hx : s.ex? = some x) {p : BitVec 1} {r : BitVec 2} {page : Option Nat} (first : x.r.wait = .none)
    (ready : srcReady s.m x true (srcW a :: (if p = 1 then [srcI d] else [])) = .go) {v : List DWord} (value : operands s x (srcW a :: (if p = 1 then [srcI d] else [])) x.low = v)
    {lo hi : Nat} (low : (argPair v 0).lo.toNat = lo) (high : (argPair v 0).hi.toNat = hi) (valid : declReserved r.toNat lo hi = false)
    (target : (if p = 1 then (pinTarget s.m x (arg v 1).toNat).map some else .ok none) = .ok page) :
    exec (.achain d a p r) s = .next (s.withM (carried s x (srcW a :: (if p = 1 then [srcI d] else [])) (declRequest s x r.toNat lo hi page))) := by
  rw [exec_achain, execAchain, onWord_next hx]
  simp only [first]
  rw [uniEffect_carries ready]
  subst value low high
  simp only [valid, target, Bool.false_eq_true, if_false, declRequest, natBits, pow_zero, Nat.div_one]
  rfl

theorem achain_done (hx : s.ex? = some x) {p : BitVec 1} {r : BitVec 2} (answered : x.r.wait = .released)
    (ready : srcReady s.m x true (srcW a :: (if p = 1 then [srcI d] else [])) = .go) :
    UniformWords s x (.same s x) (srcW a :: (if p = 1 then [srcI d] else [])) zeroSpec 0 [] (exec (.achain d a p r) s) := by
  rw [exec_achain, execAchain, onWord_next hx]
  simp only [answered]
  exact completeUni_done hx ready

/-! `ACLOSE`. -/

/-- A warp's open declaration is looked for among those of the chain, of which a chain that is not there has none. -/
theorem ownDecl_eq (m : Mach) (ctx chain uid : Nat) (p : Decl → Bool) :
    ownDecl m ctx chain uid p = ((m.chain? ctx chain).elim [] (·.decls)).find? fun d => d.warp == uid && d.isOpen && p d := by
  rw [ownDecl]
  cases m.chain? ctx chain <;> rfl

theorem ownDecl_of {m : Mach} {ctx chain uid : Nat} {p : Decl → Bool} {c : Chain} {e : Decl} (there : m.chain? ctx chain = some c)
    (found : c.decls.find? (fun d => d.warp == uid && d.isOpen && p d) = some e) : ownDecl m ctx chain uid p = some e := by
  rw [ownDecl, there]
  exact found

theorem ownDecl_any (m : Mach) (ctx chain uid : Nat) :
    ownDecl m ctx chain uid (fun _ => true) = ((m.chain? ctx chain).elim [] (·.decls)).find? fun d => d.warp == uid && !d.closed && !d.retired := by
  rw [ownDecl_eq]
  congr 1
  funext d
  simp only [Decl.isOpen, Bool.and_true, Bool.and_assoc]

theorem aclose_idle (hx : s.ex? = some x) (first : x.r.wait = .none) (ready : srcReady s.m x true [srcI a] = .go)
    (nobody : ownDecl s.m x.w.ctx (addressOf s x a x.low % 65536) x.w.uid (fun _ => true) = none) :
    UniformWords s x (.same s x) [srcI a] zeroSpec 0 [] (exec (.aclose a) s) := by
  rw [exec_aclose, execAclose, onWord_next hx]
  simp only [first]
  refine uniEffect_same hx ⟨ready, rfl⟩ ?_
  rw [addressOf] at nobody
  simp only [nobody]

theorem aclose_done (hx : s.ex? = some x) (answered : x.r.wait = .released) (ready : srcReady s.m x true [srcI a] = .go) :
    UniformWords s x (.same s x) [srcI a] zeroSpec 0 [] (exec (.aclose a) s) := by
  rw [exec_aclose, execAclose, onWord_next hx]
  simp only [answered]
  exact completeUni_done hx ready

theorem aclose_carries (hx : s.ex? = some x) {e : Decl} (first : x.r.wait = .none) (ready : srcReady s.m x true [srcI a] = .go)
    (own : ownDecl s.m x.w.ctx (addressOf s x a x.low % 65536) x.w.uid (fun _ => true) = some e) (free : x.w.pends = []) :
    exec (.aclose a) s = .next (s.withM (carried s x [srcI a]
      { warp := x.w.uid, lane := x.low, ctx := x.w.ctx, core := x.core, pos := x.pos, close := true, chain := addressOf s x a x.low % 65536, decl := e })) := by
  rw [exec_aclose, execAclose, onWord_next hx]
  simp only [first]
  rw [uniEffect_carries ready]
  rw [addressOf] at own
  simp only [own, free, List.any_nil, Bool.false_eq_true, if_false]
  rfl

/-! `ARSV`. -/

section
variable {c : Chain} {e : Decl}

/-- The declarations of a chain once a warp's open sending declaration stands with a reservation. -/
def Chain.reserved (c : Chain) (uid k : Nat) : Chain := { c with decls := c.decls.map fun e => if e.warp = uid ∧ e.isOpen = true ∧ e.sends = true then { e with resv := k } else e }

/-- A directory in which a warp's reservation on a chain is marked. -/
def reserve (chains : SMap Chain) (ctx chain uid k : Nat) : SMap Chain := madj chains (chainKey ctx chain) fun c => c.reserved uid k

/-- A change of a map counts only for the value that is there. -/
theorem madj_congr {α : Type} {m : SMap α} {k : Nat} {v : α} {f g : α → α} (there : mget m k = some v) (same : f v = g v) : madj m k f = madj m k g := by
  rw [madj, madj, there]
  exact congrArg (mset m k) same

/-- The reservation marked, with the chain as it stood. -/
theorem reserve_eq {m : Mach} {ctx chain : Nat} {c : Chain} (there : m.chain? ctx chain = some c) (uid k : Nat) :
    reserve m.chains ctx chain uid k = madj m.chains (chainKey ctx chain) fun e => { e with decls := (c.reserved uid k).decls } := madj_congr there rfl

theorem adjChain_reserved (m : Mach) (ctx chain uid k : Nat) :
    adjChain m ctx chain (fun e => if e.warp == uid && e.isOpen && e.sends then { e with resv := k } else e)
      = { m with chains := reserve m.chains ctx chain uid k } := by
  simp only [adjChain, reserve, Chain.reserved, Bool.and_eq_true, beq_iff_eq, and_assoc]

theorem adjChain_claimed (m : Mach) (x : Ex) (srcs : List Src) (ctx chain uid k : Nat) :
    adjChain (claimSources m x srcs) ctx chain (fun e => if e.warp == uid && e.isOpen && e.sends then { e with resv := k } else e)
      = { claimSources m x srcs with chains := reserve m.chains ctx chain uid k } := by
  obtain ⟨boxes, same⟩ := claimSources_eq m x srcs
  rw [adjChain_reserved, same]

theorem arsv_faults (hx : s.ex? = some x) (ready : srcReady s.m x true [srcI a] = .go) (plain : Plain x)
    (nobody : ownDecl s.m x.w.ctx (addressOf s x a x.low % 65536) x.w.uid Decl.sends = none) :
    ∃ u, exec (.arsv a) s = .next u
      ∧ AllParked s x u (fun _ => { cause := .accNorsv, detail := 0, addr := BitVec.ofNat 48 (addressOf s x a x.low % 65536 + 65536) }) x.pc (boxOf s x) := by
  refine ⟨_, ?_, deliverAll_parks plain _⟩
  rw [exec_arsv, execArsv, onWord_next hx, uniEffect_faults ⟨ready, rfl⟩]
  rw [addressOf] at nobody
  simp only [nobody]
  rfl

theorem arsv_holding (hx : s.ex? = some x) (ready : srcReady s.m x true [srcI a] = .go)
    (own : ownDecl s.m x.w.ctx (addressOf s x a x.low % 65536) x.w.uid Decl.sends = some e) (holds : 2 ≤ e.resv) :
    UniformWords s x (.same s x) [srcI a] zeroSpec 0 [] (exec (.arsv a) s) := by
  rw [exec_arsv, execArsv, onWord_next hx]
  refine uniEffect_same hx ⟨ready, rfl⟩ ?_
  rw [addressOf] at own
  simp only [own, holds, if_true]

/-- What `ARSV` comes to for a warp without a reservation. -/
def reserving (s : State) (x : Ex) (a : BitVec 8) (chain : Nat) (e : Decl) : Eff :=
  let marked := fun k => ({ claimSources s.m x [srcI a] with chains := reserve s.m.chains x.w.ctx chain x.w.uid k } : Mach)
  if e.resv = 0 ∧ dieOf e.hop ≠ dieOf x.core ∧ 8 ≤ syncOut s s.m x.core then .hold (claimSources s.m x [srcI a]) x .register
  else if roundOpen s.m x.w.ctx chain e.hop then .ok (marked 2) x []
  else .hold (marked 1) x .reservation

/-- What a waiting word has read opens and closes no round. -/
theorem roundOpen_claimed (m : Mach) (x : Ex) (srcs : List Src) (ctx chain core : Nat) : roundOpen (claimSources m x srcs) ctx chain core = roundOpen m ctx chain core := by
  obtain ⟨boxes, same⟩ := claimSources_eq m x srcs
  rw [same]
  rfl

theorem arsv_reserving (hx : s.ex? = some x) (own : ownDecl s.m x.w.ctx (addressOf s x a x.low % 65536) x.w.uid Decl.sends = some e) (less : e.resv < 2) :
    ∃ f, exec (.arsv a) s = .next (s.withM (uniEffect s.m x [srcI a] zeroSpec 0 f))
      ∧ f (operands s x [srcI a] x.low) s.m x = reserving s x a (addressOf s x a x.low % 65536) e := by
  refine ⟨_, by rw [exec_arsv, execArsv, onWord_next hx], ?_⟩
  rw [addressOf] at own ⊢
  simp only [own, Nat.not_le.2 less, if_false, reserving, syncFull_claimSources, roundOpen_claimed, adjChain_claimed, decide_eq_true_eq]

variable (hx : s.ex? = some x) (ready : srcReady s.m x true [srcI a] = .go)
  (own : ownDecl s.m x.w.ctx (addressOf s x a x.low % 65536) x.w.uid Decl.sends = some e) (less : e.resv < 2)
include hx ready own less

theorem arsv_held (full : e.resv = 0 ∧ dieOf e.hop ≠ dieOf x.core ∧ 8 ≤ syncOut s s.m x.core) :
    exec (.arsv a) s = .next (s.withM ((claimSources s.m x [srcI a]).hold x .register)) := by
  obtain ⟨f, run, effect⟩ := arsv_reserving hx own less
  rw [run, uniEffect_holds ⟨ready, rfl⟩ (effect.trans (if_pos full))]

theorem arsv_waits (room : ¬(e.resv = 0 ∧ dieOf e.hop ≠ dieOf x.core ∧ 8 ≤ syncOut s s.m x.core)) (shut : roundOpen s.m x.w.ctx (addressOf s x a x.low % 65536) e.hop = false) :
    exec (.arsv a) s = .next (s.withM (Mach.hold { claimSources s.m x [srcI a] with
      chains := reserve s.m.chains x.w.ctx (addressOf s x a x.low % 65536) x.w.uid 1 } x .reservation)) := by
  obtain ⟨f, run, effect⟩ := arsv_reserving hx own less
  rw [reserving, if_neg room, shut] at effect
  rw [run, uniEffect_holds ⟨ready, rfl⟩ effect]

theorem arsv_takes (room : ¬(e.resv = 0 ∧ dieOf e.hop ≠ dieOf x.core ∧ 8 ≤ syncOut s s.m x.core)) (round : roundOpen s.m x.w.ctx (addressOf s x a x.low % 65536) e.hop = true) :
    UniformWords s x { Rest.same s x with m := { s.m with chains := reserve s.m.chains x.w.ctx (addressOf s x a x.low % 65536) x.w.uid 2 } }
      [srcI a] zeroSpec 0 [] (exec (.arsv a) s) := by
  obtain ⟨f, run, effect⟩ := arsv_reserving hx own less
  rw [reserving, if_neg room, if_pos round] at effect
  obtain ⟨below, cores, boxes⟩ := claimSources_leaves s.m x (srcI a)
  rw [run]
  refine UniformWords.taken (uniEffect_leaves hx ⟨ready, rfl⟩ effect (((WordEnd.same s x).claim [srcI a]).rechained _) rfl ⟨rfl, rfl⟩ (e := {
    m := { s.m with chains := reserve s.m.chains x.w.ctx (addressOf s x a x.low % 65536) x.w.uid 2 }
    c := s.m.core x.core, w := x.w, box := (claimSources s.m x [srcI a]).ctxCore x.w.ctx x.core }) ?_ ?_ rfl rfl) boxes
  · have rest := congrArg (fun k : Mach => { k with chains := reserve s.m.chains x.w.ctx (addressOf s x a x.low % 65536) x.w.uid 2 }) below
    exact rest
  · exact congrArg (fun cs => coreRest (mgetD cs x.core .fresh)) cores

end

theorem roundOpen_iff {m : Mach} {ctx chain core : Nat} {c : Chain} (there : m.chain? ctx chain = some c) :
    roundOpen m ctx chain core = true ↔ c.granted = true ∧ ∃ e ∈ c.decls, e.core = core ∧ e.isOpen = true ∧ e.buffer.isSome = true := by
  simp only [roundOpen, there, Option.any_some, Bool.and_eq_true, List.any_eq_true, beq_iff_eq, and_assoc]

end
end Sys2Proof.Machine
end

section
/-! SUPPORT. The chain directory: declarations recorded or refused, closes, grants (R268, R269, R276, R280). -/

namespace Sys2Proof.Machine

/-! The directory's answers. -/

/-- A warp in its slot is answered there. -/
theorem answerWarp_resident {m : Mach} {core pos uid : Nat} {p : Group → Wait → Bool} {k : Wait} {w : Warp} (there : m.warp? core pos = some w) (own : w.uid = uid) :
    answerWarp m core pos uid p k = m.setWarp core pos (w.answer p k) :=
  warp?_adjWarpOrSaved there (beq_iff_eq.2 own)

theorem answer_waiting {w : Warp} {i : Nat} {g : Group} {r : Run} {p : Group → Wait → Bool} (k : Wait) (group : w.groups[i]? = some g) (run : g.run = some r) (waits : p g r.wait = true) :
    (w.answer p k).groups[i]? = some { g with run := some { r with wait := k } } := by
  simp only [Warp.answer, List.getElem?_map, group, Option.map_some, settleWait, run, waits, if_true]

theorem waiter_directory {q : DirRequest} {g : Group} {r : Run} (waits : r.wait = .directory) (own : inMask g.lanes q.lane = true) : q.waiter g r.wait = true := by
  rw [DirRequest.waiter, own, waits]
  rfl

/-! Declarations. -/

section
variable {s : State} {m : Mach} {q : DirRequest} {warp : Nat} {w : Warp}

/-- The declarations of a request's chain that are open. -/
def DirRequest.live (q : DirRequest) (m : Mach) : List Decl := ((m.chain? q.ctx q.chain).elim [] (·.decls)).filter Decl.isOpen

/-- Past a core at which nothing but a sink is declared no core is reached. -/
theorem downstream_end {ds : List Decl} {target core : Nat} (other : core ≠ target) (last : ∀ e ∈ ds, e.core = core → e.role = 2) (k : Nat) :
    downstream ds target (k + 1) core = false := by
  have nobody : ds.find? (fun d => d.core == core && d.isOpen && d.sends) = none := by
    rw [List.find?_eq_none]
    intro e there sends
    simp only [Bool.and_eq_true, beq_iff_eq] at sends
    obtain ⟨⟨here, -⟩, sends⟩ := sends
    rw [Decl.sends, last e there here] at sends
    exact absurd sends (by decide)
  rw [downstream, nobody, Bool.or_false]
  exact beq_eq_false_iff_ne.2 other

/-- A declaration that nothing of R268 forbids. -/
theorem declRefused_none (hop : q.decl.role = 2 ∨ (q.decl.hop ≠ q.core ∧ (∀ e ∈ q.live m, e.core = q.decl.hop → e.role = 2) ∧ s.coreInPartition q.ctx q.decl.hop = true))
    (single : ∀ e ∈ q.live m, e.core ≠ q.core) (sink : q.decl.role = 2 → (∀ e ∈ q.live m, e.role ≠ 2) ∧ ((q.live m).filter Decl.receives).length + 1 ≤ q.decl.nrc)
    (relay : q.decl.role = 3 → ∀ e ∈ q.live m, e.role = 2 → ((q.live m).filter Decl.receives).length + 1 ≤ e.nrc)
    (room : (m.chain? q.ctx q.chain).isSome = true ∨ (m.chains.filter (fun c => c.2.ctx == q.ctx)).length < 256) : declRefused s m q = none := by
  have silent : q.decl.role = 2 → q.decl.sends = false := fun h => by rw [Decl.sends, h]; rfl
  have c1 : ¬(q.decl.sends = true ∧ downstream (q.live m) q.core ((q.live m).length + 1) q.decl.hop = true) := by
    rintro ⟨sends, down⟩
    obtain h | ⟨other, last, -⟩ := hop
    · rw [silent h] at sends; exact absurd sends (by decide)
    · rw [downstream_end other last] at down; exact absurd down (by decide)
  have c2 : (q.live m).any (fun e => e.core == q.core) = false := by simpa using single
  have c3 : ¬(q.decl.role = 2 ∧ ((q.live m).any (fun e => e.role == 2) = true ∨ q.decl.nrc < ((q.live m).filter Decl.receives).length + 1)) := by
    rintro ⟨role, second | few⟩
    · obtain ⟨e, there, same⟩ := List.any_eq_true.1 second
      exact (sink role).1 e there (beq_iff_eq.1 same)
    · exact absurd (sink role).2 (Nat.not_le.2 few)
  have c4 : ¬(q.decl.role = 3 ∧ (q.live m).any (fun e => e.role == 2 && decide (e.nrc < ((q.live m).filter Decl.receives).length + 1)) = true) := by
    rintro ⟨role, full⟩
    obtain ⟨e, there, same⟩ := List.any_eq_true.1 full
    simp only [Bool.and_eq_true, beq_iff_eq, decide_eq_true_eq] at same
    exact absurd (relay role e there same.1) (Nat.not_le.2 same.2)
  have c5 : ¬(q.decl.sends = true ∧ (!s.coreInPartition q.ctx q.decl.hop) = true) := by
    rintro ⟨sends, out⟩
    obtain h | ⟨-, -, inside⟩ := hop
    · rw [silent h] at sends; exact absurd sends (by decide)
    · rw [inside] at out; exact absurd out (by decide)
  have c6 : ¬((m.chain? q.ctx q.chain).isNone = true ∧ 256 ≤ (m.chains.filter (fun c => c.2.ctx == q.ctx)).length) := by
    rintro ⟨fresh, full⟩
    obtain there | few := room
    · rw [Option.isNone_iff_eq_none] at fresh; rw [fresh] at there; exact absurd there (by decide)
    · omega
  unfold DirRequest.live at c1 c2 c3 c4
  simp only [declRefused, c1, c2, c3, c4, c5, c6, Bool.false_eq_true, if_false]

/-- A declaration whose next hop is its own core closes a cycle. -/
theorem declRefused_self (sends : q.decl.role = 1 ∨ q.decl.role = 3) (self : q.decl.hop = q.core) : declRefused s m q = some 1 := by
  have outward : q.decl.sends = true := by
    obtain h | h := sends <;> rw [Decl.sends, h] <;> rfl
  have cycle : ∀ (ds : List Decl) (k : Nat), downstream ds q.core (k + 1) q.decl.hop = true := fun ds k => by rw [downstream, self, beq_self_eq_true, Bool.true_or]
  simp only [declRefused, outward, cycle, and_self, if_true]

theorem achainRecord_records (next : warpRequest s.m warp false = some q) (there : s.m.warp? q.core q.pos = some w) (own : w.uid = warp) (good : declRefused s s.m q = none) :
    exec (.achainRecord warp) s = .next (s.withM ((recordDecl (dropRequest s.m q) q).setWarp q.core q.pos (w.answer q.waiter .released))) := by
  have same : declRefused s (dropRequest s.m q) q = none := good
  simp only [exec_achainRecord, execAchainRecord, next, same]
  exact congrArg (fun m => Host.Outcome.next (s.withM m)) (answerWarp_resident there own)

theorem achainRecord_refuses {detail : Nat} (next : warpRequest s.m warp false = some q) (there : s.m.warp? q.core q.pos = some w) (own : w.uid = warp)
    (bad : declRefused s s.m q = some detail) :
    exec (.achainRecord warp) s = .next (s.withM ((dropRequest s.m q).setWarp q.core q.pos (w.answer q.waiter (.refused (accFault .accCycle q.chain detail))))) := by
  have same : declRefused s (dropRequest s.m q) q = some detail := bad
  simp only [exec_achainRecord, execAchainRecord, next, same]
  exact congrArg (fun m => Host.Outcome.next (s.withM m)) (answerWarp_resident there own)

/-- A recorded chain lists the new declaration and every open one, which forgets the core's arrivals (R280). -/
theorem chain?_recordDecl (m : Mach) (q : DirRequest) :
    ∃ c, (recordDecl m q).chain? q.ctx q.chain = some c ∧ q.decl ∈ c.decls ∧ ∀ e ∈ q.live m, e.forget q.core ∈ c.decls := by
  refine ⟨_, mget_mset_same _ _ _, by simp, fun e there => ?_⟩
  obtain ⟨listed, isOpen⟩ := List.mem_filter.1 there
  refine List.mem_append_left _ (List.mem_map_of_mem (List.mem_filter.2 ⟨?_, by simp [isOpen]⟩))
  revert listed
  cases m.chain? q.ctx q.chain with
  | none => exact fun h => absurd h List.not_mem_nil
  | some c => exact id

end

/-! Closes. -/

section
variable {m : Mach} {ctx chain warp : Nat} {d : Decl}

/-- A page given back by its round moves scratchpads and the count of free values alone (R277). -/
theorem freeRound_eq (m : Mach) (ctx core : Nat) (page : Option Nat) : ∃ boxes free, freeRound m ctx core page = { m with ctxCores := boxes, free := free } := by
  cases page with
  | none => exact ⟨m.ctxCores, m.free, rfl⟩
  | some p => exact ⟨_, _, rfl⟩

theorem discardRounds_eq (m : Mach) (ctx : Nat) (p : Decl → Bool) : ∃ boxes free, discardRounds m ctx p = { m with ctxCores := boxes, free := free } := by
  unfold discardRounds
  generalize m.chains.flatMap (fun e => if e.2.ctx = ctx then e.2.decls.filter (fun d => p d && d.buffer.isSome) else []) = ds
  induction ds using List.reverseRecOn with
  | nil => exact ⟨m.ctxCores, m.free, rfl⟩
  | append_singleton ds d ih =>
    obtain ⟨boxes, free, same⟩ := ih
    rw [List.foldl_concat, same]
    exact freeRound_eq ..

/-- Rounds cut short change declarations alone (R280). -/
theorem cutRounds_single (m : Mach) (ctx : Nat) (p : Decl → Bool) (k : Nat) (c : Chain) :
    ∃ ds, cutRounds { m with chains := [(k, c)] } ctx p = { m with chains := [(k, { c with decls := ds })] } := by
  simp only [cutRounds, List.map_cons, List.map_nil]
  split
  · exact ⟨c.decls, rfl⟩
  · exact ⟨_, rfl⟩

/-- A map in order lists a key once. -/
theorem filter_key {α : Type} {l : SMap α} {k : Nat} {v : α} (sorted : msorted l = true) (there : mget l k = some v) : l.filter (fun e => e.1 == k) = [(k, v)] := by
  induction l with
  | nil => exact absurd there nofun
  | cons e l ih =>
    rw [msorted_cons] at sorted
    rw [mget] at there
    split at there
    next here =>
      have later : l.filter (fun f => f.1 == k) = [] := List.filter_eq_nil_iff.2 fun f listed same => by
        have above := le_of_risesFrom sorted listed
        rw [beq_iff_eq] at same
        omega
      rw [List.filter_cons_of_pos (by exact beq_iff_eq.2 here.symm), later, here, ← Option.some.inj there]
    next other =>
      rw [List.filter_cons_of_neg (by exact fun same => other (beq_iff_eq.1 same).symm)]
      exact ih (by rw [msorted_iff]; exact risesFrom_mono (Nat.zero_le _) l sorted) there

/-- Entries of other keys put into a map. -/
theorem mget_foldl_mset_other {α : Type} {l others : SMap α} {k : Nat} (other : ∀ e ∈ others, e.1 ≠ k) : mget (others.foldl (fun cs e => mset cs e.1 e.2) l) k = mget l k := by
  induction others using List.reverseRecOn with
  | nil => rfl
  | append_singleton others e ih =>
    rw [List.foldl_concat, mget_mset_other _ (other e (by simp)).symm, ih fun f listed => other f (List.mem_append_left _ listed)]

/-- A declaration once that of a warp, `d`, is closed. -/
def afterClose (warp : Nat) (d e : Decl) : Decl :=
  if e.warp == warp && e.core == d.core && e.isOpen then { e with closed := true, resv := 0, buffer := none }
  else if d.receives && e.hop == d.core && e.isOpen && e.sends && e.resv == 2 then { e with resv := 3 } else e

/-- No declaration of the warp at that core stays open. -/
theorem afterClose_shut {d e : Decl} (own : (afterClose warp d e).warp = warp) (here : (afterClose warp d e).core = d.core) : (afterClose warp d e).isOpen = false := by
  revert own here
  unfold afterClose
  split
  next => exact fun _ _ => rfl
  next other =>
    have shut : e.warp = warp → e.core = d.core → e.isOpen = false := fun own here => by
      rw [own, here, beq_self_eq_true, beq_self_eq_true, Bool.true_and, Bool.true_and] at other
      exact Bool.eq_false_iff.2 other
    split <;> exact shut

/-- A CLOSE (R276) moves the directory, scratchpads and the count of free values alone; what is left of its chain is `afterClose` of declarations that stood in it, their rounds cut or not. -/
theorem closeDecl_eq (own : ownDecl m ctx chain warp (fun _ => true) = some d) (sorted : msorted m.chains = true) :
    ∃ (cs : SMap Chain) (boxes : SMap CtxCore) (free : Nat) (ds : List Decl), closeDecl m ctx chain warp = { m with chains := cs, ctxCores := boxes, free := free }
      ∧ ∀ c, mget cs (chainKey ctx chain) = some c → c.decls = ds.map (afterClose warp d) := by
  obtain ⟨c, there, -⟩ := Option.bind_eq_some_iff.1 own
  have single := filter_key sorted there
  simp only [closeDecl, own, single]
  obtain ⟨ds, cut⟩ := cutRounds_single m ctx (fun e => e.warp == warp && e.core == d.core && e.isOpen) (chainKey ctx chain) c
  rw [cut]
  obtain ⟨boxes, free, discarded⟩ := discardRounds_eq { m with chains := [(chainKey ctx chain, { c with decls := ds })] } ctx (fun e => e.warp == warp && e.core == d.core && e.isOpen)
  rw [discarded]
  refine ⟨_, boxes, free, ds, rfl, fun c' found => ?_⟩
  rw [mget_foldl_mset_other fun e listed => by simpa using (List.mem_filter.1 listed).2] at found
  have listed := mem_of_mget found
  simp only [dropDeadChains, settleRounds, adjChain, madj, mget, mset, if_true, List.map_cons, List.map_nil] at listed
  obtain ⟨listed, -⟩ := List.mem_filter.1 listed
  obtain ⟨-, rfl⟩ := Prod.mk.inj (List.mem_singleton.1 listed)
  split <;> rfl

theorem acloseRecord_eq {s : State} {q : DirRequest} {w : Warp} (next : warpRequest s.m warp true = some q) (there : s.m.warp? q.core q.pos = some w) (own : w.uid = warp)
    (declared : ownDecl s.m q.ctx q.chain warp (fun _ => true) = some d) (sorted : msorted s.m.chains = true) :
    ∃ (cs : SMap Chain) (boxes : SMap CtxCore) (free : Nat) (ds : List Decl),
      exec (.acloseRecord warp) s = .next (s.withM (Mach.setWarp { dropRequest s.m q with chains := cs, ctxCores := boxes, free := free } q.core q.pos (w.answer q.waiter .released)))
        ∧ ∀ c, mget cs (chainKey q.ctx q.chain) = some c → c.decls = ds.map (afterClose warp d) := by
  obtain ⟨cs, boxes, free, ds, closed, decls⟩ := closeDecl_eq (m := dropRequest s.m q) declared sorted
  refine ⟨cs, boxes, free, ds, ?_, decls⟩
  simp only [exec_acloseRecord, execAcloseRecord, next, closed]
  exact congrArg (fun m => Host.Outcome.next (s.withM m)) (answerWarp_resident there own)

end

/-! Grants. -/

section
variable {s : State} {ctx chain : Nat} {c : Chain} {k : Decl}

/-- A chain granted a round: an empty buffer at every receiving core. -/
def Chain.withRound (c : Chain) (round : Nat) : Chain :=
  { c with granted := true, round := round, decls := c.decls.map fun d => if d.isOpen && d.receives then { d with buffer := some .fresh } else d }

/-- A chain that waits for a grant (R269). -/
theorem chainWaits_of (shut : c.granted = false) (reserved : ∃ d ∈ c.decls, d.isOpen = true ∧ d.resv = 1) (sink : (c.decls.filter Decl.isOpen).find? (fun d => d.role == 2) = some k)
    (whole : ((c.decls.filter Decl.isOpen).filter Decl.receives).length = k.nrc) : chainWaits c = true := by
  have waits : (c.decls.filter Decl.isOpen).any (fun d => d.resv == 1) = true := by
    obtain ⟨d, there, isOpen, one⟩ := reserved
    exact List.any_eq_true.2 ⟨d, List.mem_filter.2 ⟨there, isOpen⟩, beq_iff_eq.2 one⟩
  simp only [chainWaits, shut, waits, sink, whole, beq_self_eq_true, Bool.not_false, Bool.and_self]

/-- Changes of per-context state, one after another. -/
theorem foldl_boxes {α : Type} {g : Mach → α → Mach} (h : ∀ m a, ∃ boxes, g m a = { m with ctxCores := boxes }) (l : List α) (m : Mach) :
    ∃ boxes, l.foldl g m = { m with ctxCores := boxes } := by
  induction l using List.reverseRecOn with
  | nil => exact ⟨m.ctxCores, rfl⟩
  | append_singleton l a ih =>
    obtain ⟨boxes, same⟩ := ih
    rw [List.foldl_concat, same]
    exact h ..

/-- A grant: no chain of lower id is there to be overtaken, and every pinned core has room. -/
theorem chainGrant_eq (there : s.m.chain? ctx chain = some c) (waits : chainWaits c = true) (first : ∀ e ∈ s.m.chains, e.2.ctx = ctx → chain ≤ e.2.id)
    (room : ∀ d ∈ c.decls, d.page = none → buffersUsed s s.m d.core < 16) :
    ∃ boxes, exec (.chainGrant ctx chain) s = .next (s.withM { s.m with
      nextId := s.m.nextId + 1, chains := mset s.m.chains (chainKey ctx chain) (c.withRound s.m.nextId), ctxCores := boxes }) := by
  have lower : s.m.chains.any (fun e => e.2.ctx == ctx && decide (e.2.id < chain) && chainWaits e.2 && (pinnedCores e.2).any (pinnedCores c).contains) = false := by
    rw [List.any_eq_false]
    intro e listed overtakes
    simp only [Bool.and_eq_true, beq_iff_eq, decide_eq_true_eq] at overtakes
    exact absurd (first e listed overtakes.1.1.1) (Nat.not_le.2 overtakes.1.1.2)
  have free : (pinnedCores c).all (fun k => decide (buffersUsed s s.m k < 16)) = true := by
    simp only [pinnedCores, List.all_eq_true, List.mem_map, List.mem_filter, Bool.and_eq_true, Option.isNone_iff_eq_none, decide_eq_true_eq]
    rintro _ ⟨d, ⟨listed, -, pinned⟩, rfl⟩
    exact room d listed pinned
  simp only [exec_chainGrant, execChainGrant, there, waits, lower, free, Bool.not_false, Bool.and_self, if_true, newId_fst, newId_snd]
  refine (foldl_boxes (fun m d => ?_) c.decls _).imp fun boxes same => congrArg (fun m => Host.Outcome.next (s.withM m)) same
  split
  · exact ⟨_, rfl⟩
  · exact ⟨m.ctxCores, rfl⟩

end
end Sys2Proof.Machine
end

section
namespace Sys2Proof.Machine

/-- Settles O35: each word by what it brings to the directory or finds there (`achain_carries`, `aclose_carries`, `arsv_reserving`), the directory's turns by `declRefused_none`,
`declRefused_self`, `closeDecl_eq` and `chainGrant_eq`. -/
theorem chainsDeclareReserveClose : Obligations.ChainsDeclareReserveClose := by
  intro s
  refine ⟨fun x d a p r hx ready => ⟨fun answered => achain_done hx answered ready, fun first role low high middle hop exp page => ?_⟩,
    fun x a hx ready => ⟨?_, fun e own first free => ?_, fun silent plain => ?_, fun c e there own => ⟨fun holds => ?_, fun full => ?_, fun less room round => ?_, fun less room shut => ?_⟩⟩,
    fun warp q w next there own => ⟨fun hop single sink relay room => ?_, fun sends self => ?_⟩,
    fun warp q w d next there own declared sorted => ?_,
    fun ctx chain c k there shut reserved sink whole first room => ?_⟩
  · have two : r = 2 ↔ r.toNat = 2 := ⟨fun h => by rw [h]; rfl, fun h => BitVec.eq_of_toNat_eq h⟩
    have one : r = 1 ↔ r.toNat = 1 := ⟨fun h => by rw [h]; rfl, fun h => BitVec.eq_of_toNat_eq h⟩
    simp only [two] at hop
    simp only [one] at exp
    have valid := declReserved_valid low high middle (by split at hop <;> simp_all) exp
    have target : (if p = 1 then (pinTarget s.m x (arg (operands s x (srcW a :: if p = 1 then [srcI d] else []) x.low) 1).toNat).map some else .ok none)
        = .ok (if p = 1 then some ((arg (operands s x (srcW a :: if p = 1 then [srcI d] else []) x.low) 1).toNat % 2 ^ 21 / 4096) else none) := by
      split
      next paged =>
        rw [if_pos paged] at page
        obtain ⟨aligned, below, own, inside⟩ := page paged
        rw [pinTarget_own aligned below own inside]
        rfl
      next => rfl
    have run := achain_carries hx first ready rfl rfl (hi_toNat _) valid target
    exact ⟨fun away full => by rw [run, carried_held _ away full]; rfl, fun room => by rw [run, carried_brought _ room]; rfl⟩
  · rintro (answered | ⟨first, nobody⟩)
    · exact aclose_done hx answered ready
    · refine aclose_idle hx first ready ?_
      rw [ownDecl_any, List.find?_eq_none]
      intro e listed mine
      simp only [Bool.and_eq_true, beq_iff_eq, Bool.not_eq_true'] at mine
      exact nobody e listed ⟨mine.1.1, mine.1.2, mine.2⟩
  · rw [← ownDecl_any] at own
    have run := aclose_carries hx first ready own free
    exact ⟨fun away full => by rw [run, carried_held _ away full]; rfl, fun room => by rw [run, carried_brought _ room]; rfl⟩
  · refine arsv_faults hx ready plain ?_
    rw [ownDecl_eq, List.find?_eq_none]
    intro e listed sends
    simp only [Bool.and_eq_true, beq_iff_eq, Decl.isOpen, Bool.not_eq_true'] at sends
    obtain ⟨⟨own, shut, kept⟩, sends⟩ := sends
    rw [Decl.sends, silent e listed ⟨own, shut, kept⟩] at sends
    exact absurd sends (by decide)
  · exact arsv_holding hx ready (ownDecl_of there own) holds
  · exact arsv_held hx ready (ownDecl_of there own) (by omega) full
  · have done := arsv_takes hx ready (ownDecl_of there own) less room ((roundOpen_iff there).2 round)
    rw [reserve_eq (chain := addressOf s x a x.low % 65536) there] at done
    exact done
  · rw [arsv_waits hx ready (ownDecl_of there own) less room (Bool.eq_false_iff.2 fun round => shut ((roundOpen_iff there).1 round)), reserve_eq (chain := addressOf s x a x.low % 65536) there]
    rfl
  · obtain ⟨c, listed, recorded, kept⟩ := chain?_recordDecl (dropRequest s.m q) q
    exact ⟨_, c, achainRecord_records next there own (declRefused_none hop single sink relay room), ⟨w.answer q.waiter .released, by simp, rfl, rfl, rfl,
      fun i g r group run waits mine => answer_waiting _ group run (waiter_directory waits mine)⟩, listed, recorded, kept, rfl, rfl, fun k other => mget_mset_other _ other _⟩
  · exact ⟨_, achainRecord_refuses next there own (declRefused_self sends self), ⟨w.answer q.waiter _, by simp; rfl, rfl, rfl, rfl,
      fun i g r group run waits mine => answer_waiting _ group run (waiter_directory waits mine)⟩, rfl, rfl⟩
  · obtain ⟨cs, boxes, free, ds, run, decls⟩ := acloseRecord_eq next there own declared sorted
    refine ⟨_, w.answer q.waiter .released, run, by simp, rfl, rfl, fun i g r group run waits mine => answer_waiting _ group run (waiter_directory waits mine), ?_, rfl, rfl⟩
    intro c listed e member
    rw [decls c listed] at member
    obtain ⟨f, -, rfl⟩ := List.mem_map.1 member
    exact afterClose_shut
  · obtain ⟨boxes, run⟩ := chainGrant_eq there (chainWaits_of shut reserved sink whole) first room
    refine ⟨_, run, rfl, rfl, fun j other => mget_mset_other _ other _, (mget_mset_same _ _ _).trans ?_⟩
    simp only [Chain.withRound, Bool.and_eq_true]
end Sys2Proof.Machine
end

section
/-! SUPPORT. `ASEND` as it issues (R272, R288). -/

namespace Sys2Proof.Machine

section
variable {s : State} {x : Ex} {d a : BitVec 8}

/-- The chain that a word's source names. -/
theorem srcValue_chain (s : State) (x : Ex) (a : BitVec 8) : (srcValue (s.m.ctxCore x.w.ctx x.core) x (srcI a) 0 x.low).toNat % 65536 = addressOf s x a x.low % 65536 := by
  rw [← addressOf_eq, Nat.mod_mod_of_dvd _ (by decide : 65536 ∣ 2 ^ 32)]
  rfl

/-- A word that takes its source and goes on; of its warp nothing else has changed but its open levels. -/
theorem takeAddress_done (hx : s.ex? = some x) {z : Ex} (word : z = { x with w := { x.w with know := z.w.know, lru := z.w.lru, levels := z.w.levels } }) :
    Done s x { Rest.same s x with w := { x.w with levels := z.w.levels }, box := takeSources (boxOf s x) x [srcI a] } (.next (s.withM ((takeAddress s.m x a).advance z))) := by
  have ends : WordEnd s x s.m z := by
    rw [word]
    exact (SpillsOnly.refl ..).wordEnd ⟨rfl, rfl, rfl, rfl⟩ ⟨rfl, rfl⟩ rfl rfl
  refine ⟨_, z.finished, rfl, wordDone_congr (wordDone_advance hx _ ends) rfl rfl ?_ rfl, ?_, fun r l _ => ?_, ?_⟩
  · rw [word]; rfl
  · rw [word]; exact { nextPc := rfl, depth := ⟨rfl, rfl⟩ }
  · rw [regLane_finished, word]; rfl
  · rw [word]; rfl

theorem asend_done (hx : s.ex? = some x) (answered : x.r.wait = .released) :
    Done s x { Rest.same s x with box := takeSources (boxOf s x) x [srcI a] } (exec (.asend d a) s) := by
  rw [exec_asend, execAsend, onWord_next hx]
  simp only [answered]
  have word := taken_word x s.m [srcI a]
  have done := takeAddress_done (a := a) hx (z := x.taken s.m [srcI a]) (by rw [word])
  rw [congrArg (fun z : Ex => z.w.levels) word] at done
  exact done

/-! What parks. -/

theorem asend_partial (hx : s.ex? = some x) (first : x.r.wait = .none) (plain : Plain x) (ready : srcReady s.m x true [srcI a] = .go) (part : x.g.lanes ≠ BitVec.allOnes 32) :
    ∃ u, exec (.asend d a) s = .next u ∧ AllParked s x u (fun _ => { cause := .illegalOp, detail := 0, addr := 0 }) x.pc (boxOf s x) := by
  refine ⟨_, ?_, deliverAll_parks plain _⟩
  rw [exec_asend, execAsend, onWord_next hx]
  simp only [first, ready]
  rw [if_pos part]
  rfl

theorem asend_unreserved (hx : s.ex? = some x) (first : x.r.wait = .none) (plain : Plain x) (ready : srcReady s.m x true [srcI a] = .go) (whole : x.g.lanes = BitVec.allOnes 32)
    (unheld : ∀ e, ¬(ownDecl s.m x.w.ctx (addressOf s x a x.low % 65536) x.w.uid Decl.sends = some e ∧ 2 ≤ e.resv)) :
    ∃ u, exec (.asend d a) s = .next u
      ∧ AllParked s x u (fun _ => { cause := .accNorsv, detail := 0, addr := BitVec.ofNat 48 (addressOf s x a x.low % 65536 + 65536) }) x.pc (boxOf s x) := by
  refine ⟨_, ?_, deliverAll_parks plain _⟩
  rw [exec_asend, execAsend, onWord_next hx]
  simp only [first, ready, srcValue_chain]
  rw [if_neg (not_not.2 whole)]
  cases own : ownDecl s.m x.w.ctx (addressOf s x a x.low % 65536) x.w.uid Decl.sends with
  | none => rfl
  | some e =>
    have less : e.resv < 2 := Nat.lt_of_not_le fun holds => unheld e ⟨own, holds⟩
    simp only [less, true_or, if_true]
    rfl

/-! What sends. -/

/-- The tile that `ASEND` sends. -/
def sentTile (s : State) (x : Ex) (chain reg : Nat) (e : Decl) : Tile :=
  { ctx := x.w.ctx, chain := chain, src := x.core, dst := e.hop, warp := x.w.uid, pos := x.pos, vals := tileValues x.w reg
    accepted := false, round := 0, held := false, know := x.w.history { s.m with nextId := s.m.nextId + 1 }, since := s.m.nextId }

/-- An element of a tile in its lane and registers (R247). -/
theorem tileValues_element (w : Warp) (reg : Nat) {i j : Nat} (row : i < 16) (column : j < 16) :
    (tileValues w reg).getD (16 * i + j) 0 = w.regLane (reg + 2 * (j % 8) + 1) (2 * i + j / 8) ++ w.regLane (reg + 2 * (j % 8)) (2 * i + j / 8) := by
  have inside : 16 * i + j < 256 := by omega
  have at_ : (16 * i + j) / 16 = i ∧ (16 * i + j) % 16 = j ∧ (16 * i + j) % 8 = j % 8 := by omega
  rw [tileValues, List.getD_eq_getElem?_getD, List.getElem?_map, List.getElem?_range inside]
  simp only [Option.map_some, Option.getD_some, at_, pairOf]

section
variable {e : Decl} (hx : s.ex? = some x) (first : x.r.wait = .none) (ready : srcReady s.m x true [srcI a] = .go)
  (tile : srcReady s.m x false [] ((List.range 16).map (· + d.toNat)) = .go) (whole : x.g.lanes = BitVec.allOnes 32)
  (own : ownDecl s.m x.w.ctx (addressOf s x a x.low % 65536) x.w.uid Decl.sends = some e) (reserved : 2 ≤ e.resv) (unsent : heldSends x.w (addressOf s x a x.low % 65536) = 0)
include hx first ready tile whole own reserved unsent

/-- `ASEND` outside speculation. -/
theorem asend_outside (outside : x.w.levels = []) : ∃ z, z = { x with w := { x.w with know := z.w.know, lru := z.w.lru } } ∧ exec (.asend d a) s = .next (s.withM (
    if dieOf e.hop ≠ dieOf x.core ∧ syncFull s s.m x.core then (claimSources s.m z [srcI a]).hold z .register
    else (claimSources { s.m with nextId := s.m.nextId + 1, tiles := mset s.m.tiles s.m.nextId (sentTile s x (addressOf s x a x.low % 65536) d.toNat e) } z [srcI a]).hold z (.answer s.m.nextId))) := by
  refine ⟨x.touch ((List.range 16).map (· + d.toNat)), rfl, ?_⟩
  have good : ¬(e.resv < 2 ∨ 0 < heldSends x.w (addressOf s x a x.low % 65536)) := by omega
  have level : (x.touch ((List.range 16).map (· + d.toNat))).w.levels = [] := outside
  rw [exec_asend, execAsend, onWord_next hx]
  simp only [first, ready, srcValue_chain, own, good, tile, level, if_false]
  rw [if_neg (not_not.2 whole)]
  rfl

theorem asend_held (outside : x.w.levels = []) (full : dieOf e.hop ≠ dieOf x.core ∧ 8 ≤ syncOut s s.m x.core) :
    ∃ u y, exec (.asend d a) s = .next u ∧ u.ex? = some y ∧ y.r = { x.r with wait := .register } ∧ RegsKept x y ∧ u.m.tiles = s.m.tiles ∧ u.m.chains = s.m.chains ∧ u.m.mem = s.m.mem := by
  obtain ⟨z, word, run⟩ := asend_outside hx first ready tile whole own reserved unsent outside
  rw [if_pos ⟨full.1, decide_eq_true full.2⟩] at run
  obtain ⟨boxes, claimed⟩ := claimSources_eq s.m z [srcI a]
  rw [claimed] at run
  obtain ⟨y, here, regs, waits⟩ := hold_waits hx (n := { s.m with ctxCores := boxes }) rfl word .register
  exact ⟨_, y, run, here, waits, regs, rfl, rfl, rfl⟩

theorem asend_sends (outside : x.w.levels = []) (room : ¬(dieOf e.hop ≠ dieOf x.core ∧ 8 ≤ syncOut s s.m x.core)) :
    ∃ u y, exec (.asend d a) s = .next u ∧ u.ex? = some y ∧ y.r = { x.r with wait := .answer s.m.nextId } ∧ RegsKept x y
      ∧ mget u.m.tiles s.m.nextId = some (sentTile s x (addressOf s x a x.low % 65536) d.toNat e) ∧ u.m.mem = s.m.mem ∧ u.m.chains = s.m.chains ∧ u.m.stores = s.m.stores := by
  obtain ⟨z, word, run⟩ := asend_outside hx first ready tile whole own reserved unsent outside
  rw [if_neg fun both => room ⟨both.1, of_decide_eq_true both.2⟩] at run
  obtain ⟨boxes, claimed⟩ := claimSources_eq { s.m with nextId := s.m.nextId + 1, tiles := mset s.m.tiles s.m.nextId (sentTile s x (addressOf s x a x.low % 65536) d.toNat e) } z [srcI a]
  rw [claimed] at run
  obtain ⟨y, here, regs, waits⟩ := hold_waits hx (n := { s.m with
    nextId := s.m.nextId + 1, tiles := mset s.m.tiles s.m.nextId (sentTile s x (addressOf s x a x.low % 65536) d.toNat e), ctxCores := boxes }) rfl word (.answer s.m.nextId)
  exact ⟨_, y, run, here, waits, regs, mget_mset_same _ _ _, rfl, rfl, rfl⟩

/-- `ASEND` in an open level. -/
theorem asend_speculates {lv : Level} {rest : List Level} (level : x.w.levels = lv :: rest) (room : shadowUsed s.m x.core + 2048 ≤ 65536) :
    Done s x { Rest.same s x with
      w := { x.w with levels := { lv with held := lv.held ++ [.asend (addressOf s x a x.low % 65536) (tileValues x.w d.toNat) x.pc] } :: rest }
      box := takeSources (boxOf s x) x [srcI a] } (exec (.asend d a) s) := by
  have good : ¬(e.resv < 2 ∨ 0 < heldSends x.w (addressOf s x a x.low % 65536)) := by omega
  have inner : (x.touch ((List.range 16).map (· + d.toNat))).w.levels = lv :: rest := level
  have space : ¬65536 < shadowUsed s.m (x.touch ((List.range 16).map (· + d.toNat))).core + 2048 := Nat.not_lt.2 room
  rw [exec_asend, execAsend, onWord_next hx]
  simp only [first, ready, srcValue_chain, own, good, tile, inner, space, if_false]
  rw [if_neg (not_not.2 whole)]
  exact takeAddress_done hx rfl

end
end
end Sys2Proof.Machine
end

section
/-! SUPPORT. Answers to tiles, and arrivals (R265, R273, R275, R279). -/

namespace Sys2Proof.Machine

/-! Answers. -/

section
variable {s : State} {tile : Nat} {t : Tile} {c : Chain} {d : Decl} {w : Warp}

/-- The reservation under which a tile was sent. -/
def Chain.resvOf (c : Chain) (t : Tile) : Nat := (c.decls.find? fun d => d.warp == t.warp && d.isOpen && d.sends).elim 0 (·.resv)

/-- A declaration once the reservation of a warp is used or dropped. -/
def Decl.spent (uid : Nat) (e : Decl) : Decl := if e.warp = uid ∧ e.isOpen = true ∧ e.sends = true then { e with resv := 0 } else e

/-- A declaration once a tile of a core is accepted into the round at another. -/
def Decl.taking (core src : Nat) (e : Decl) : Decl :=
  if e.core = core ∧ e.receives = true ∧ e.isOpen = true then { e with buffer := e.buffer.map fun b => { b with accepted := b.accepted + 1, senders := b.senders ++ [src] } } else e

theorem unreserve_eq (m : Mach) (t : Tile) : unreserve m t = adjChain m t.ctx t.chain (Decl.spent t.warp) := by
  have same : (fun e : Decl => if e.warp == t.warp && e.isOpen && e.sends then { e with resv := 0 } else e) = Decl.spent t.warp := by
    funext e
    simp only [Decl.spent, Bool.and_eq_true, beq_iff_eq, and_assoc]
  rw [unreserve, same]

theorem chain?_adjChain {m : Mach} {ctx chain : Nat} {c : Chain} (there : m.chain? ctx chain = some c) (f : Decl → Decl) :
    (adjChain m ctx chain f).chain? ctx chain = some { c with decls := c.decls.map f } := by
  have found : mget m.chains (chainKey ctx chain) = some c := there
  rw [Mach.chain?, adjChain, mget_madj, if_pos rfl, found]
  rfl

/-- The group that waits for the answer goes on with it, or is refused. -/
theorem tileAnswered_waiting {i : Nat} {g : Group} {r : Run} (refusal : Option FaultInfo) (group : w.groups[i]? = some g) (run : g.run = some r) (waits : r.wait = .answer tile) :
    (w.tileAnswered tile refusal).groups[i]? = some { g with run := some { r with wait := refusal.elim .released .refused } } := by
  have answered : (Wait.answer tile).answered tile refusal = refusal.elim .released .refused := by
    cases refusal <;> simp [Wait.answered]
  simp only [Warp.tileAnswered, List.getElem?_map, group, Option.map_some, run, waits, answered]

/-- The sender's warp when its tile has been answered: the group that waits goes on with `k`. -/
def Answered (w : Warp) (tile : Nat) (t : Tile) (u : State) (k : Wait) : Prop :=
  ∃ v, u.m.warp? t.src t.pos = some v ∧ v.regs = w.regs
    ∧ ∀ (i : Nat) (g : Group) (r : Run), w.groups[i]? = some g → g.run = some r → r.wait = .answer tile → v.groups[i]? = some { g with run := some { r with wait := k } }

theorem answered_setWarp (m : Mach) (refusal : Option FaultInfo) :
    Answered w tile t (s.withM (m.setWarp t.src t.pos (w.tileAnswered tile refusal))) (refusal.elim .released .refused) :=
  ⟨w.tileAnswered tile refusal, (warp?_setWarp ..).trans (if_pos ⟨rfl, rfl⟩), rfl, fun _ _ _ group run waits => tileAnswered_waiting refusal group run waits⟩

section
variable (there : s.m.chain? t.ctx t.chain = some c) (receiver : c.decls.find? (fun d => d.core == t.dst && d.receives) = some d)
include there receiver

theorem tileAnswer_absent (pinned : d.page = none) (stopped : s.stopped t.ctx t.dst = true) : tileAnswer s s.m t = .error (accFault .accAbsent t.chain 0, false) := by
  simp only [tileAnswer, there, receiver, pinned, stopped, Option.isNone_none, Bool.and_self, if_true]

theorem tileAnswer_present (present : ¬(d.page = none ∧ s.stopped t.ctx t.dst = true)) : tileAnswer s s.m t =
    if d.retired ∨ c.resvOf t = 4 then .error (accFault .accRetired t.chain 0, true)
    else
      match d.buffer with
      | some b => if d.closed ∨ c.resvOf t = 3 ∨ d.exp ≤ b.accepted then .error (accFault .accNorsv t.chain 2, true) else .ok d
      | none => .error (accFault .accNorsv t.chain 2, true) := by
  have here : (d.page.isNone && s.stopped t.ctx t.dst) = false := by
    rw [Bool.eq_false_iff, Ne, Bool.and_eq_true, Option.isNone_iff_eq_none]
    exact present
  simp only [tileAnswer, there, receiver, here, Bool.false_eq_true, if_false]
  rfl

theorem tileAnswer_retired (present : ¬(d.page = none ∧ s.stopped t.ctx t.dst = true)) (retired : d.retired = true ∨ c.resvOf t = 4) :
    tileAnswer s s.m t = .error (accFault .accRetired t.chain 0, true) :=
  (tileAnswer_present there receiver present).trans (if_pos retired)

/-- No buffer that could take the tile: no round is open, the receiver or the sender has closed, or all that it expects has been accepted. -/
theorem tileAnswer_full (present : ¬(d.page = none ∧ s.stopped t.ctx t.dst = true)) (live : d.retired = false) (unmarked : c.resvOf t ≠ 4)
    (full : ∀ b, d.buffer = some b → d.closed = true ∨ c.resvOf t = 3 ∨ d.exp ≤ b.accepted) : tileAnswer s s.m t = .error (accFault .accNorsv t.chain 2, true) := by
  rw [tileAnswer_present there receiver present, if_neg (not_or.2 ⟨Bool.eq_false_iff.1 live, unmarked⟩)]
  cases round : d.buffer with
  | none => rfl
  | some b => exact if_pos (full b round)

theorem tileAnswer_accepts {b : ArrivalBuffer} (present : ¬(d.page = none ∧ s.stopped t.ctx t.dst = true)) (live : d.retired = false) (open_ : d.closed = false)
    (round : d.buffer = some b) (room : b.accepted < d.exp) (reserved : c.resvOf t = 2) : tileAnswer s s.m t = .ok d := by
  have unmarked : c.resvOf t ≠ 4 := by omega
  have takes : ¬(d.closed = true ∨ c.resvOf t = 3 ∨ d.exp ≤ b.accepted) := by
    rw [not_or]
    exact ⟨Bool.eq_false_iff.1 open_, by omega⟩
  rw [tileAnswer_present there receiver present, if_neg (not_or.2 ⟨Bool.eq_false_iff.1 live, unmarked⟩), round]
  exact if_neg takes

end

section
variable (sent : mget s.m.tiles tile = some t) (asks : t.accepted = false) (direct : t.held = false) (resident : s.m.warp? t.src t.pos = some w) (own : w.uid = t.warp)
include sent asks direct resident own

theorem asendAnswer_refuses {f : FaultInfo} {drop : Bool} (answer : tileAnswer s s.m t = .error (f, drop)) :
    exec (.asendAnswer tile) s = .next (s.withM (Mach.setWarp
      (if drop then unreserve { s.m with tiles := mdel s.m.tiles tile } t else { s.m with tiles := mdel s.m.tiles tile }) t.src t.pos (w.tileAnswered tile (some f)))) := by
  have still : (if drop then unreserve { s.m with tiles := mdel s.m.tiles tile } t else { s.m with tiles := mdel s.m.tiles tile }).warp? t.src t.pos = some w := by
    split <;> exact resident
  simp only [exec_asendAnswer, execAsendAnswer, sent, asks, Bool.false_eq_true, if_false, answer, direct, Bool.false_and]
  exact congrArg (fun m => Host.Outcome.next (s.withM m)) (warp?_adjWarpOrSaved still (beq_iff_eq.2 own))

/-- A refusal that leaves the chains alone. -/
theorem asendAnswer_keeps {f : FaultInfo} (answer : tileAnswer s s.m t = .error (f, false)) :
    ∃ u, exec (.asendAnswer tile) s = .next u ∧ (u.m.tiles = mdel s.m.tiles tile ∧ Answered w tile t u (.refused f)) ∧ u.m.chains = s.m.chains :=
  ⟨_, asendAnswer_refuses sent asks direct resident own answer, ⟨rfl, answered_setWarp _ (some f)⟩, rfl⟩

/-- A refusal that drops the sender's reservation. -/
theorem asendAnswer_drops {f : FaultInfo} (answer : tileAnswer s s.m t = .error (f, true)) (there : s.m.chain? t.ctx t.chain = some c) :
    ∃ u, exec (.asendAnswer tile) s = .next u ∧ (u.m.tiles = mdel s.m.tiles tile ∧ Answered w tile t u (.refused f))
      ∧ u.m.chain? t.ctx t.chain = some { c with decls := c.decls.map (Decl.spent t.warp) } := by
  have run := asendAnswer_refuses sent asks direct resident own answer
  rw [if_pos rfl, unreserve_eq] at run
  exact ⟨_, run, ⟨rfl, answered_setWarp _ (some f)⟩, chain?_adjChain (m := { s.m with tiles := mdel s.m.tiles tile }) there _⟩

theorem asendAnswer_accepts (answer : tileAnswer s s.m t = .ok d) (there : s.m.chain? t.ctx t.chain = some c) :
    ∃ u, exec (.asendAnswer tile) s = .next u ∧ Answered w tile t u .released ∧ mget u.m.tiles tile = some { t with accepted := true, round := c.round }
      ∧ u.m.chain? t.ctx t.chain = some { c with decls := (c.decls.map (Decl.taking d.core t.src)).map (Decl.spent t.warp) } := by
  have takes : (fun e : Decl => if e.core == d.core && e.receives && e.isOpen then
      { e with buffer := e.buffer.map fun b => { b with accepted := b.accepted + 1, senders := b.senders ++ [t.src] } } else e) = Decl.taking d.core t.src := by
    funext e
    simp only [Decl.taking, Bool.and_eq_true, beq_iff_eq, and_assoc]
  have taken := chain?_adjChain there (Decl.taking d.core t.src)
  have still : (unreserve (adjChain s.m t.ctx t.chain (Decl.taking d.core t.src)) t).warp? t.src t.pos = some w := resident
  refine ⟨s.withM (Mach.setWarp { unreserve (adjChain s.m t.ctx t.chain (Decl.taking d.core t.src)) t with tiles := mset s.m.tiles tile { t with accepted := true, round := c.round } }
    t.src t.pos (w.tileAnswered tile none)), ?_, answered_setWarp _ none, mget_mset_same _ _ _, ?_⟩
  · simp only [exec_asendAnswer, execAsendAnswer, sent, asks, Bool.false_eq_true, if_false, answer, direct, Bool.false_and, takes, taken, Option.elim_some]
    exact congrArg (fun m => Host.Outcome.next (s.withM m)) (warp?_adjWarpOrSaved still (beq_iff_eq.2 own))
  · show (unreserve (adjChain s.m t.ctx t.chain (Decl.taking d.core t.src)) t).chain? t.ctx t.chain = _
    rw [unreserve_eq]
    exact chain?_adjChain taken _

end

theorem spent_resv {uid : Nat} {e : Decl} (own : e.warp = uid ∧ e.isOpen = true ∧ e.sends = true) : (e.spent uid).resv = 0 := by rw [Decl.spent, if_pos own]

theorem buffer_spent (uid : Nat) (e : Decl) : (e.spent uid).buffer = e.buffer := by
  unfold Decl.spent
  split <;> rfl

theorem sender_taking (core src : Nat) (e : Decl) :
    (e.taking core src).warp = e.warp ∧ (e.taking core src).isOpen = e.isOpen ∧ (e.taking core src).sends = e.sends := by
  unfold Decl.taking
  split <;> exact ⟨rfl, rfl, rfl⟩

end

/-! Arrivals. -/

/-- The values at some keys of a map changed. -/
theorem mget_map_where {α : Type} (p : Nat → Prop) [DecidablePred p] (f : α → α) (m : SMap α) (k : Nat) :
    mget (m.map fun e => if p e.1 then (e.1, f e.2) else e) k = if p k then (mget m k).map f else mget m k := by
  induction m with
  | nil => exact (ite_self _).symm
  | cons e m ih =>
    have key : (if p e.1 then (e.1, f e.2) else e).1 = e.1 := by split <;> rfl
    have value : (if p e.1 then (e.1, f e.2) else e).2 = if p e.1 then f e.2 else e.2 := by split <;> rfl
    rw [List.map_cons]
    simp only [mget, key, value, ih]
    by_cases here : k = e.1
    · rw [if_pos here, if_pos here, here]
      split <;> rfl
    · rw [if_neg here, if_neg here]

/-- What a context gives back with its cluster takes no warp out of a slot (R428). -/
theorem releaseCluster_leaves (m : Mach) (ctx core : Nat) :
    ∃ clusters cores, releaseCluster m ctx core = { m with ctxClusters := clusters, cores := cores } ∧ ∀ k pos, (releaseCluster m ctx core).warp? k pos = m.warp? k pos := by
  unfold releaseCluster
  simp only
  split
  · exact ⟨m.ctxClusters, m.cores, rfl, fun _ _ => rfl⟩
  · refine ⟨_, _, rfl, fun k pos => ?_⟩
    have slots := mget_map_where (fun k => clusterOf k = clusterOf core) (fun c : Core => { c with leaving := c.leaving.filter fun w => w.ctx ≠ ctx }) m.cores k
    simp only [Mach.warp?, Mach.core, mgetD]
    rw [slots]
    split
    · cases mget m.cores k <;> rfl
    · rfl

section
variable {s : State} {tile : Nat} {t : Tile} {c : Chain}

theorem current_iff {m : Mach} (there : m.chain? t.ctx t.chain = some c) :
    t.current m = true ↔ c.granted = true ∧ c.round = t.round ∧ ∃ e ∈ c.decls, e.core = t.dst ∧ e.isOpen = true ∧ e.buffer.isSome = true := by
  simp only [Tile.current, there, Option.any_some, Bool.and_eq_true, List.any_eq_true, beq_iff_eq, and_assoc]

theorem add_eq (b : ArrivalBuffer) (vals : List DWord) (know : List Nat) :
    b.add vals know = { b with sums := List.zipWith (fun p v => p + v.signExtend 72) b.sums vals, count := b.count + 1, know := (b.know ++ know).eraseDups } := by
  rw [ArrivalBuffer.add, List.zip_eq_zipWith, List.map_zipWith]

/-- A declaration once a tile has arrived at its core. -/
def Decl.arrived (dst : Nat) (vals : List DWord) (know : List Nat) (e : Decl) : Decl :=
  if e.core = dst ∧ e.receives = true ∧ e.isOpen = true then { e with buffer := e.buffer.map fun b =>
    { b with sums := List.zipWith (fun p v => p + v.signExtend 72) b.sums vals, count := b.count + 1, know := (b.know ++ know).eraseDups } } else e

section
variable (accepted : t.accepted = true) (performed : ∀ st ∈ s.m.stores, st.warp = t.warp → t.since ≤ st.seq)
include accepted performed

theorem accArrival_due : ¬((!t.accepted) = true ∨ s.m.stores.any (fun st => st.warp == t.warp && decide (st.seq < t.since)) = true) := by
  rintro (waits | earlier)
  · rw [accepted] at waits
    exact absurd waits (by decide)
  · obtain ⟨st, issued, own⟩ := List.any_eq_true.1 earlier
    simp only [Bool.and_eq_true, beq_iff_eq, decide_eq_true_eq] at own
    exact absurd (performed st issued own.1) (Nat.not_le.2 own.2)

variable (sent : mget s.m.tiles tile = some t)
include sent

theorem accArrival_stale (stale : t.current s.m = false) :
    exec (.accArrival tile) s = .next (s.withM (releaseCluster { s.m with tiles := mdel s.m.tiles tile } t.ctx t.src)) := by
  have due := accArrival_due accepted performed
  simp only [exec_accArrival, execAccArrival, sent, due, stale, if_false, Bool.not_false, if_true]

/-- The machine once a tile has arrived: its buffer, and the notice of the arrival (R197, R275). -/
def Mach.arrived (s : State) (tile : Nat) (t : Tile) (know : List Nat) (m : Mach) : Mach :=
  Mach.adjCtxCore { adjChain m t.ctx t.chain (Decl.arrived t.dst t.vals know) with tiles := mdel m.tiles tile } t.ctx t.dst
    (pushReport (fun q => q.kind == 5 && q.arg.toNat % 65536 == t.chain) (arrWord t.chain (coreSeen (s.ctx t.ctx) t.src)))

theorem accArrival_adds (there : s.m.chain? t.ctx t.chain = some c) (current : t.current s.m = true) :
    ∃ u know, exec (.accArrival tile) s = .next u ∧ u.m.tiles = mdel s.m.tiles tile ∧ u.m.mem = s.m.mem ∧ (∀ core pos, u.m.warp? core pos = s.m.warp? core pos)
      ∧ u.m.chain? t.ctx t.chain = some { c with decls := c.decls.map (Decl.arrived t.dst t.vals know) } := by
  have due := accArrival_due accepted performed
  have arrives (know : List Nat) : (fun e : Decl => if e.core == t.dst && e.receives && e.isOpen then { e with buffer := e.buffer.map fun b => b.add t.vals know } else e)
      = Decl.arrived t.dst t.vals know := by
    funext e
    simp only [Decl.arrived, add_eq, Bool.and_eq_true, beq_iff_eq, and_assoc]
  let know := stillLate s.m (t.know ++ lateOf s.m t.warp)
  obtain ⟨late, rels, settled⟩ : ∃ late rels, (if (s.m.chain? t.ctx t.chain).any (fun c => c.scope == 5) then settleLate s.m (fun w => know.contains w.id) else s.m)
      = { s.m with late := late, rels := rels } := by
    split
    · exact settleLate_eq ..
    · exact ⟨s.m.late, s.m.rels, rfl⟩
  let m : Mach := Mach.arrived s tile t know { s.m with late := late, rels := rels }
  obtain ⟨clusters, cores, left, slots⟩ := releaseCluster_leaves m t.ctx t.src
  refine ⟨s.withM (releaseCluster m t.ctx t.src), know, ?_, (congrArg Mach.tiles left).trans rfl, (congrArg Mach.mem left).trans rfl, slots, ?_⟩
  · simp only [exec_accArrival, execAccArrival, sent, due, current, if_false, Bool.not_true, Bool.false_eq_true, arrives, know, settled]
    rfl
  · show (releaseCluster m t.ctx t.src).chain? t.ctx t.chain = _
    rw [left]
    exact chain?_adjChain (m := { s.m with late := late, rels := rels }) there _
end
end

end Sys2Proof.Machine
end

section
/-! SUPPORT. `AWAIT` and the sums that it adds (R274, R280). -/

namespace Sys2Proof.Machine

/-! `AWAIT`. -/

section
variable {s : State} {x : Ex} {d a : BitVec 8}

/-- A word takes its source and leaves its destination leased until the result comes; `m` is the machine with room made, `n` the one whose mailboxes tell what the word
knows then. -/
theorem leased_done (hx : s.ex? = some x) {m : Mach} (sp : SpillsOnly s.m m x.core x.pos) (n : Mach) (kind : PendKind) (reg count : Nat) :
    Done s x { Rest.same s x with
      m := { s.m with nextId := s.m.nextId + 1 }, box := takeSources (boxOf s x) x [srcI a]
      w := { x.w with pends := x.w.pends ++ [{ id := s.m.nextId, kind := kind, lanes := x.g.lanes, reg := reg, count := count, vals := [], pc := x.pc
                                               run := x.r.pos, addrs := [], sync := false }] } }
      (.next (s.withM ((addPend (takeAddress m x a) (x.taken n [srcI a]) kind reg count []).1.advance (addPend (takeAddress m x a) (x.taken n [srcI a]) kind reg count []).2))) := by
  have fresh : m.nextId = s.m.nextId := by rw [sp.eq]
  have word := taken_word x n [srcI a]
  generalize x.taken n [srcI a] = z at word
  let y : Ex := { z with w := { z.w with pends := z.w.pends ++
    [{ id := m.nextId, kind := kind, lanes := z.g.lanes, reg := reg, count := count, vals := [], pc := z.pc, run := z.r.pos, addrs := [], sync := false }] } }
  let k : Mach := { m with nextId := m.nextId + 1 }
  have form : y = { x with w := { x.w with know := z.w.know, lru := z.w.lru, pends := x.w.pends ++
      [{ id := m.nextId, kind := kind, lanes := x.g.lanes, reg := reg, count := count, vals := [], pc := x.pc, run := x.r.pos, addrs := [], sync := false }] } } := by
    show ({ z with w := _ } : Ex) = _
    rw [word]
    rfl
  have ends : WordEnd s x k y := by
    rw [form]
    exact { cur := sp.cur, place := ⟨rfl, rfl, rfl, rfl⟩, groups := ⟨rfl, rfl⟩, run := rfl, group := rfl, cores := sp.cores, others := sp.others, boxes := fun k _ => by rw [← sp.boxes] }
  have below := congrArg (fun k : Mach => { k with nextId := k.nextId + 1 }) sp.below
  refine ⟨s.withM ((k.setCtxCore x.w.ctx x.core (takeSources (m.ctxCore x.w.ctx x.core) x [srcI a])).advance y), y.finished, rfl,
    wordDone_congr (wordDone_advance hx _ ends) below sp.rest ?_ ?_, ?_, fun r l _ => ?_, ?_⟩
  · rw [form, fresh]; rfl
  · rw [sp.box]; rfl
  · rw [form]; exact { nextPc := rfl, depth := ⟨rfl, rfl⟩ }
  · rw [regLane_finished, form]; rfl
  · rw [form]; rfl

theorem await_leases {z : BitVec 1} {f : BitVec 3} {m : Mach} (hx : s.ex? = some x) (ready : srcReady s.m x true [srcI a] = .go) (whole : x.g.lanes = BitVec.allOnes 32)
    (format : slotElt (formatSlot s.m x.w f.toNat) ≠ 0) (own : (ownDecl s.m x.w.ctx (addressOf s x a x.low % 65536) x.w.uid Decl.receives).isSome = true)
    (tile : z = 0 → srcReady s.m x false [] ((List.range 16).map (· + d.toNat)) = .go) (room : regsReady s.m x d.toNat 16 = .go m) :
    Done s x { Rest.same s x with
      m := { s.m with nextId := s.m.nextId + 1 }, box := takeSources (boxOf s x) x [srcI a]
      w := { x.w with pends := x.w.pends ++ [{ id := s.m.nextId, kind := .await (addressOf s x a x.low % 65536) f.toNat (z == 1), lanes := x.g.lanes, reg := d.toNat, count := 16
                                               vals := [], pc := x.pc, run := x.r.pos, addrs := [], sync := false }] } } (exec (.await d a z f) s) := by
  have added : srcReady s.m x false [] (if z = 1 then [] else (List.range 16).map (· + d.toNat)) = .go := by
    by_cases zero : z = 0
    · subst zero
      exact tile rfl
    · obtain rfl : z = 1 := (BitVec.eq_zero_or_eq_one z).resolve_left zero
      rfl
  have declared : ¬(ownDecl s.m x.w.ctx (addressOf s x a x.low % 65536) x.w.uid Decl.receives).isNone = true := by
    rw [Option.isNone_iff_eq_none]
    exact Option.ne_none_iff_isSome.2 own
  rw [exec_await, execAwait, onWord_next hx]
  simp only [ready, srcValue_chain, added, room, declared]
  rw [if_neg (by simp [whole, format])]
  exact leased_done hx (regsReady_spills room) m _ _ _
end

/-! The sums that `AWAIT` adds. -/

/-- Two results gathered in one pass. -/
theorem foldl_pair {α β γ : Type} (f : α → γ → α) (g : β → γ → β) (ls : List γ) (a : α) (b : β) :
    ls.foldl (fun p k => (f p.1 k, g p.2 k)) (a, b) = (ls.foldl f a, ls.foldl g b) := by
  induction ls generalizing a b with
  | nil => rfl
  | cons k ls ih => exact ih _ _

theorem getLsbD_foldl_or {α : Type} (g : α → Word) (ls : List α) (a : Word) (i : Nat) :
    (ls.foldl (fun b k => b ||| g k) a).getLsbD i = (a.getLsbD i || ls.any fun k => (g k).getLsbD i) := by
  induction ls generalizing a with
  | nil => simp
  | cons k ls ih => rw [List.foldl_cons, ih, BitVec.getLsbD_or, List.any_cons, Bool.or_assoc]

theorem and_eq_left_of_bits {a b : Word} (within : ∀ i, a.getLsbD i = true → b.getLsbD i = true) : a &&& b = a := by
  refine BitVec.eq_of_getLsbD_eq fun i _ => ?_
  rw [BitVec.getLsbD_and]
  cases bit : a.getLsbD i with
  | false => rfl
  | true => rw [within i bit]; rfl

/-- An element of a leased tile once its sum is added, with the bit that this sets (R274). -/
def awaitElement (sat : Bool) (b : ArrivalBuffer) (z : Bool) (w : Warp) (reg l j : Nat) : DWord × Word :=
  add64 sat (if z then 0 else w.regLane (reg + 2 * j + 1) l ++ w.regLane (reg + 2 * j) l) (b.sums.getD (16 * (l / 2) + 8 * (l % 2) + j) 0).toInt

/-- Doublewords as the words of a lane, low halves first. -/
def laneWords (f : Nat → DWord) (n : Nat) : List Word := (List.range n).foldl (fun ws j => ws ++ [DWord.lo (f j), DWord.hi (f j)]) []

theorem laneWords_succ (f : Nat → DWord) (n : Nat) : laneWords f (n + 1) = laneWords f n ++ [DWord.lo (f n), DWord.hi (f n)] := by
  rw [laneWords, List.range_succ, List.foldl_concat]
  rfl

theorem length_laneWords (f : Nat → DWord) (n : Nat) : (laneWords f n).length = 2 * n := by
  induction n with
  | zero => rfl
  | succ n ih => rw [laneWords_succ, List.length_append, ih]; rfl

theorem getD_laneWords (f : Nat → DWord) {n i : Nat} (inside : i < 2 * n) : (laneWords f n).getD i 0 = if i % 2 = 0 then (f (i / 2)).setWidth 32 else (f (i / 2) >>> 32).setWidth 32 := by
  induction n with
  | zero => omega
  | succ n ih =>
    rw [laneWords_succ]
    rcases Nat.lt_or_ge i (2 * n) with earlier | last
    · rw [List.getD_append _ _ _ _ (by rw [length_laneWords]; exact earlier), ih earlier]
    · rw [List.getD_append_right _ _ _ _ (by rw [length_laneWords]; exact last), length_laneWords]
      obtain rfl | rfl : i = 2 * n ∨ i = 2 * n + 1 := by omega
      · rw [Nat.sub_self, if_pos (Nat.mul_mod_right 2 n), Nat.mul_div_cancel_left n (by decide)]
        rfl
      · rw [Nat.add_sub_cancel_left, if_neg (by omega), show (2 * n + 1) / 2 = n by omega]
        rfl

section
variable (sat : Bool) (b : ArrivalBuffer) (z : Bool) (w : Warp) (reg : Nat)

/-- The bits that the elements of a lane set. -/
def laneBits (l : Nat) : Word := (List.range 8).foldl (fun k j => k ||| (awaitElement sat b z w reg l j).2) 0

theorem awaitTile_eq : awaitTile sat b z w reg =
    ((List.range 32).foldl (fun ws l => mset ws l (laneWords (fun j => (awaitElement sat b z w reg l j).1) 8)) [], (List.range 32).foldl (fun k l => k ||| laneBits sat b z w reg l) 0) := by
  rw [← foldl_pair (fun ws l => mset ws l (laneWords (fun j => (awaitElement sat b z w reg l j).1) 8)) (fun k l => k ||| laneBits sat b z w reg l)]
  refine congrArg (fun f => (List.range 32).foldl f (([] : SMap (List Word)), (0 : Word))) (funext fun p => funext fun l => ?_)
  have lane := foldl_pair (fun ws j => ws ++ [DWord.lo (awaitElement sat b z w reg l j).1, DWord.hi (awaitElement sat b z w reg l j).1])
    (fun k j => k ||| (awaitElement sat b z w reg l j).2) (List.range 8) [] 0
  exact congrArg (fun q : List Word × Word => (mset p.1 l q.1, p.2 ||| q.2)) lane

theorem mget_awaitTile {l : Nat} (lane : l < 32) : mget (awaitTile sat b z w reg).1 l = some (laneWords (fun j => (awaitElement sat b z w reg l j).1) 8) := by
  rw [awaitTile_eq, mget_foldl_mset, if_pos (List.mem_range.2 lane)]

theorem awaitTile_bits {l j : Nat} (lane : l < 32) (column : j < 8) {i : Nat} (bit : (awaitElement sat b z w reg l j).2.getLsbD i = true) :
    (awaitTile sat b z w reg).2.getLsbD i = true := by
  have inLane : (laneBits sat b z w reg l).getLsbD i = true := by
    rw [laneBits, getLsbD_foldl_or, Bool.or_eq_true, List.any_eq_true]
    exact .inr ⟨j, List.mem_range.2 column, bit⟩
  rw [awaitTile_eq, getLsbD_foldl_or, Bool.or_eq_true, List.any_eq_true]
  exact .inr ⟨l, List.mem_range.2 lane, inLane⟩
end

/-! `AWAIT_ADD`. -/

/-- A warp whose leased tile has received the sums of its buffer (R274, R280). -/
def Warp.summed (w : Warp) (p : Pend) (sat : Bool) (b : ArrivalBuffer) (z : Bool) (know : List Nat) : Warp :=
  { (w.complete p (awaitTile sat b z w p.reg).1).setAcc ((awaitTile sat b z w p.reg).2 ||| if b.cut then accInv else 0) with know := know }

/-- A declaration once the round of a receiving warp has ended. -/
def Decl.ended (uid : Nat) (e : Decl) : Decl := if e.warp = uid ∧ e.isOpen = true ∧ e.receives = true then { e with buffer := none } else e

section
variable (w : Warp) (p : Pend) (sat : Bool) (b : ArrivalBuffer) (z : Bool) (know : List Nat)

theorem regLane_summed (count : p.count = 16) (whole : p.lanes = BitVec.allOnes 32) (r : Nat) {l : Nat} (lane : l < 32) : (w.summed p sat b z know).regLane r l =
    if p.reg ≤ r ∧ r < p.reg + 16 then
      (if (r - p.reg) % 2 = 0 then (awaitElement sat b z w p.reg l ((r - p.reg) / 2)).1.setWidth 32 else ((awaitElement sat b z w p.reg l ((r - p.reg) / 2)).1 >>> 32).setWidth 32)
    else w.regLane r l := by
  have vals := mget_awaitTile sat b z w p.reg lane
  have within : inMask p.lanes l = true := by
    rw [whole, inMask, BitVec.getLsbD_allOnes]
    exact decide_eq_true lane
  have read := regLane_complete w p (awaitTile sat b z w p.reg).1 (r := r) lane fun _ => by rw [vals]; rfl
  simp only [count, within, and_true, mgetD, vals, Option.getD_some] at read
  refine Eq.trans read ?_
  split
  · exact getD_laneWords _ (by omega)
  · rfl

theorem accstat_summed_before : w.accstat &&& (w.summed p sat b z know).accstat = w.accstat :=
  and_eq_left_of_bits fun i bit => by
    show (w.accstat ||| _).getLsbD i = true
    rw [BitVec.getLsbD_or, bit, Bool.true_or]

theorem accstat_summed_cut (cut : b.cut = true) : (w.summed p sat b z know).accstat.getLsbD 2 = true := by
  show (w.accstat ||| (_ ||| if b.cut then accInv else 0)).getLsbD 2 = true
  rw [cut, if_pos rfl, BitVec.getLsbD_or, BitVec.getLsbD_or, show accInv.getLsbD 2 = true by decide, Bool.or_true, Bool.or_true]

theorem accstat_summed_element {l j : Nat} (lane : l < 32) (column : j < 8) :
    (awaitElement sat b z w p.reg l j).2 &&& (w.summed p sat b z know).accstat = (awaitElement sat b z w p.reg l j).2 :=
  and_eq_left_of_bits fun i bit => by
    show (w.accstat ||| ((awaitTile sat b z w p.reg).2 ||| _)).getLsbD i = true
    rw [BitVec.getLsbD_or, BitVec.getLsbD_or, awaitTile_bits sat b z w p.reg lane column bit, Bool.true_or, Bool.or_true]
end

/-- No declaration of the warp that is still open keeps the buffer of the round. -/
theorem buffer_ended {uid : Nat} {e : Decl} (own : (e.ended uid).warp = uid) (live : (e.ended uid).isOpen = true) (receives : (e.ended uid).receives = true) :
    (e.ended uid).buffer = none := by
  unfold Decl.ended at *
  split
  · rfl
  next other =>
    rw [if_neg other] at own live receives
    exact absurd ⟨own, live, receives⟩ other

theorem acquireIds_eq (m : Mach) (core : Nat) (ids : List Nat) : ∃ late rels, acquireIds m core ids = { m with late := late, rels := rels } := by
  unfold acquireIds
  split
  · exact ⟨m.late, m.rels, rfl⟩
  · exact settleLate_eq ..

/-- A chain whose round ends when no core has a buffer of it left (R269). -/
def Chain.settled (c : Chain) : Chain := if c.granted && c.decls.all (fun d => d.buffer.isNone) then { c with granted := false } else c

theorem decls_settled (c : Chain) : c.settled.decls = c.decls := by
  unfold Chain.settled
  split <;> rfl

theorem chain?_settleRounds (m : Mach) (ctx chain : Nat) : (settleRounds m).chain? ctx chain = (m.chain? ctx chain).map Chain.settled :=
  mget_map Chain.settled m.chains _

/-- What `AWAIT_ADD` leaves: the warp with its sums, and its chain with the round ended. -/
theorem awaitAdd_returns {s : State} {core pos op : Nat} {w : Warp} {p : Pend} {chain f : Nat} {z : Bool} {c : Chain} {d : Decl} {b : ArrivalBuffer}
    (there : s.m.warp? core pos = some w) (pend : w.pend? op = some p) (leased : p.kind = .await chain f z) (network : s.m.chain? w.ctx chain = some c)
    (own : ownDecl s.m w.ctx chain w.uid Decl.receives = some d) (round : d.buffer = some b) (complete : b.count = d.exp ∨ (b.cut = true ∧ b.count = b.accepted)) :
    ∃ u know, exec (.awaitAdd core pos op) s = .next u ∧ u.m.warp? core pos = some (w.summed p (slotOvm (formatSlot s.m w f)) b z know) ∧ u.m.mem = s.m.mem ∧ u.m.stores = s.m.stores
      ∧ ∀ c', u.m.chain? w.ctx chain = some c' → c'.decls = c.decls.map (Decl.ended w.uid) := by
  have ends : (fun e : Decl => if e.warp == w.uid && e.isOpen && e.receives then { e with buffer := none } else e) = Decl.ended w.uid := by
    funext e
    simp only [Decl.ended, Bool.and_eq_true, beq_iff_eq, and_assoc]
  obtain ⟨cores, late, rels, before⟩ : ∃ cores late rels, (if c.scope = 5 then acquireIds (if c.scope ≤ 2 then s.m else dropL1 s.m core) core b.know
      else if c.scope ≤ 2 then s.m else dropL1 s.m core) = { s.m with cores := cores, late := late, rels := rels } := by
    have dropped : ∃ cores, (if c.scope ≤ 2 then s.m else dropL1 s.m core) = { s.m with cores := cores } := by
      split
      · exact ⟨s.m.cores, rfl⟩
      · exact ⟨_, rfl⟩
    obtain ⟨cores, dropped⟩ := dropped
    rw [dropped]
    split
    · obtain ⟨late, rels, acquired⟩ := acquireIds_eq { s.m with cores := cores } core b.know
      exact ⟨cores, late, rels, acquired⟩
    · exact ⟨cores, s.m.late, s.m.rels, rfl⟩
  let m : Mach := { s.m with cores := cores, late := late, rels := rels }
  let know := stillLate m (w.know ++ b.know)
  let v := w.summed p (slotOvm (formatSlot s.m w f)) b z know
  obtain ⟨boxes, free, freed⟩ := freeRound_eq (m.setWarp core pos v) w.ctx core d.page
  have run : exec (.awaitAdd core pos op) s = .next (s.withM (settleRounds (adjChain (freeRound (m.setWarp core pos v) w.ctx core d.page) w.ctx chain (Decl.ended w.uid)))) := by
    simp only [exec_awaitAdd, execAwaitAdd, there, pend, leased, network, own, round, complete, if_true, ends, before]
    rfl
  rw [freed] at run
  refine ⟨_, know, run, ?_, rfl, rfl, fun c' found => ?_⟩
  · exact (warp?_setWarp m core core pos pos v).trans (if_pos ⟨rfl, rfl⟩)
  · have summed := chain?_adjChain (m := { m.setWarp core pos v with ctxCores := boxes, free := free }) network (Decl.ended w.uid)
    have left := found.symm.trans (chain?_settleRounds ..)
    rw [summed] at left
    rw [Option.some.inj left, decls_settled]

end Sys2Proof.Machine
end

section
namespace Sys2Proof.Machine

/-- Settles O36: `asend_*` for the word that sends, `asendAnswer_*` for its answer, `accArrival_*` for what happens to an accepted tile, `await_leases` and
`awaitAdd_returns` for the receiver. -/
theorem tilesTravel : Obligations.TilesTravel := by
  intro s
  refine ⟨fun x d a hx => ⟨asend_done hx, fun e first ready tile whole fits unsent => ⟨?_, ?_, ?_⟩, fun first plain ready => ⟨?_, ?_⟩⟩,
    fun tile t c d w sent asks direct there receiver resident own => ⟨?_, ?_, ?_, ?_⟩, ?_, ?_, ?_⟩
  · exact asend_held hx first ready tile whole fits.1 fits.2 unsent
  · intro outside room
    obtain ⟨u, y, run, here, waits, regs, sent, mem, chains, stores⟩ := asend_sends hx first ready tile whole fits.1 fits.2 unsent outside room
    exact ⟨u, y, _, run, here, waits, regs, sent, rfl, rfl, rfl, rfl, rfl, rfl, fun i j row column => tileValues_element x.w d.toNat row column, mem, chains, stores⟩
  · exact fun lv rest level room => asend_speculates hx first ready tile whole fits.1 fits.2 unsent level room
  · exact asend_partial hx first plain ready
  · exact fun whole unheld => asend_unreserved hx first plain ready whole unheld
  · exact fun pinned stopped => asendAnswer_keeps sent asks direct resident own (tileAnswer_absent there receiver pinned stopped)
  · exact fun present retired => asendAnswer_drops sent asks direct resident own (tileAnswer_retired there receiver present retired) there
  · exact fun present live unmarked full => asendAnswer_drops sent asks direct resident own (tileAnswer_full there receiver present live unmarked full) there
  · rintro b present live open_ round room ⟨e, mine, reserved⟩
    have held : c.resvOf t = 2 := by rw [Chain.resvOf, mine]; exact reserved
    have answer := tileAnswer_accepts there receiver present live open_ round room held
    obtain ⟨u, run, answered, accepted, chain⟩ := asendAnswer_accepts sent asks direct resident own answer there
    refine ⟨u, run, answered, accepted, _, chain, by simp, fun i e listed => ⟨(e.taking d.core t.src).spent t.warp, by simp [listed], fun mine => ?_, fun receives => ?_⟩⟩
    · obtain ⟨warp, isOpen, sends⟩ := sender_taking d.core t.src e
      exact spent_resv ⟨warp.trans mine.1, isOpen.trans mine.2.1, sends.trans mine.2.2⟩
    · rw [buffer_spent, Decl.taking, if_pos receives]
  · intro tile t c sent accepted performed there
    refine ⟨fun current => ?_, fun ended => ?_⟩
    · exact accArrival_adds accepted performed sent there ((current_iff there).2 current)
    · exact accArrival_stale accepted performed sent (Bool.eq_false_iff.2 fun current => ended ((current_iff there).1 current))
  · exact fun x d a z f m hx ready whole format own tile room => await_leases hx ready whole format own tile room
  · intro core pos op w p chain f z c d b there pend leased count whole network own round complete
    obtain ⟨u, know, run, returned, mem, stores, chains⟩ := awaitAdd_returns there pend leased network own round complete
    refine ⟨u, _, run, returned, rfl, rfl, fun r l lane => regLane_summed w p _ b z know count whole r lane, accstat_summed_before .., accstat_summed_cut w p _ b z know,
      fun l j lane column => accstat_summed_element w p _ b z know lane column, fun c' found e listed own live receives => ?_, mem, stores⟩
    rw [chains c' found] at listed
    obtain ⟨e, -, rfl⟩ := List.mem_map.1 listed
    exact buffer_ended own live receives

end Sys2Proof.Machine
end
